-- ==== Sys2Proof/Word.lean ====
section
/-! DEFINITION. The word types of the hub: bytes of its parcels and frames, 16- and 32-bit values, counters. -/
namespace Sys2Proof

/-- One byte of a parcel, a frame or the store (R1, R3, R4). -/
abbrev Byte := BitVec 8

/-- A 16-bit value: a wrapping counter (00_scope.md, Counters), a model code, an acceleration as sent. -/
abbrev Word16 := BitVec 16

/-- A 32-bit value: a serial number (R51). -/
abbrev Word32 := BitVec 32

/-- A timer: stopped, or running with the time it has left in units of 0.1 ms
(00_scope.md, Time; R135 and R67 give lengths below 1 ms). -/
abbrev Timer := Option Nat

end Sys2Proof
end

