-- ==== Sys2Proof/Syntax.lean ====
section
/-! DEFINITION. The names of the manual (sources, postures, states, actions), the entries of its three tables, the arguments
of requests as the host sends them, and `Instr`: one constructor for each row of spec/opcode_table.json. -/
namespace Sys2Proof

/-! ## Names used by the tables -/

/-- Where a frame entered the hub (R2, R20). -/
inductive Source | lidMotion | baseKeys | basePointer | baseMotion | baseStatus | penStatus | uplink
  deriving DecidableEq, Repr

/-- The seven postures, in the order of R105. -/
inductive Posture | closed | laptop | stand | tent | tablet | slate | unknown
  deriving DecidableEq, Repr

/-- The two groupings of host power states (R20). -/
inductive View | awakeView | asleepView
  deriving DecidableEq, Repr

/-- The host power states (R169). -/
inductive Power | awake | grace | sleepAsked | asleep | waking
  deriving DecidableEq, Repr

/-- The route actions (R20). -/
inductive RouteAction | forward | drop | wake | forwardWake
  deriving DecidableEq, Repr

/-- The damage policies (R20). -/
inductive DamagePolicy | dropDamaged | passMarked
  deriving DecidableEq, Repr

/-- Where a frame is sent: to the base, or upstream on a channel (R12, R20). -/
inductive Dest | base | channel (n : Nat)
  deriving DecidableEq, Repr

/-- The writable fields of a route entry (R20). The posture set and the view set are bit masks, the nth member of the
list at bit n - 1 (R194). -/
structure RouteFields where
  valid    : Bool
  source   : Source
  kind     : Option Nat
  postures : BitVec 7
  views    : BitVec 2
  model    : Option Word16
  action   : RouteAction
  dest     : Dest
  keepN    : Nat
  damage   : DamagePolicy
  deriving DecidableEq, Repr

/-- The orientation a posture window requires (R99). -/
inductive WindowCond | any | upright | inverted
  deriving DecidableEq, Repr

/-- A posture window (R99). -/
structure Window where
  lower      : Nat
  upper      : Nat
  hysteresis : Nat
  posture    : Posture
  cond       : WindowCond
  deriving DecidableEq, Repr

/-- The four causes of an alarm that belong to an output (R135). -/
inductive OutCause | railOc | railUv | coilOc | coilUv
  deriving DecidableEq, Repr

/-- The five alarm causes (R135). -/
inductive Cause | railOc | railUv | coilOc | coilUv | dieOt
  deriving DecidableEq, Repr

/-- The ten policy events, by name (R164). -/
inductive EventKind
  | lidClosed | lidOpened | postureChanged | baseAttached | baseDetached | baseFault
  | penDocked | penRemoved | chargeDone | supplyAlarm
  deriving DecidableEq, Repr

/-- The base condition of a policy entry (R165). -/
inductive BaseCond | any | attached | absent
  deriving DecidableEq, Repr

/-- The pen condition of a policy entry (R165). -/
inductive PenCond | any | docked | undocked
  deriving DecidableEq, Repr

/-- The indicator sources (R168, R183). -/
inductive LedSource | charge | attach | alarm | lock | on | off
  deriving DecidableEq, Repr

/-- The indicator patterns (R168, R184). -/
inductive LedPattern | steady | blink | stretch
  deriving DecidableEq, Repr

/-- The two indicator lines (R183). -/
inductive LedLine | line1 | line2
  deriving DecidableEq, Repr

/-- The nine policy actions, in the order of the claim table of R167. -/
inductive PolicyAction
  | sleepBegin | sleepCancel | wake | orientLock | orientFree | chargeHold | chargeAllow
  | budgetProfile (n : Nat)
  | indicate (line : LedLine) (source : LedSource) (pattern : LedPattern)
  deriving DecidableEq, Repr

/-- A policy entry (R165). Sets are bit masks, the nth member of the list at bit n - 1 (R194). -/
structure PolicyEntry where
  valid    : Bool
  event    : EventKind
  fromSet  : BitVec 7
  toSet    : BitVec 7
  baseCond : BaseCond
  penCond  : PenCond
  hosts    : BitVec 5
  actions  : List PolicyAction
  deriving DecidableEq, Repr

/-- The three charge levels that draw power (R125). -/
inductive PenLevel | trickle | steady | fast
  deriving DecidableEq, Repr

/-- What a pin measures in a diagnosis (R67). -/
inductive PinOutcome | good | openPin | short | marginal
  deriving DecidableEq, Repr

/-! ## Request arguments as the host sends them

Numbers and byte codes before any check of their owner's: the checks of R37, R101, R168, R144 and the others are made by
the owners, and answer REFUSED. A named value is its position in its list, counting from 1, a set its bit mask (R194). -/

/-- The fields of a route entry in a TABLE-WRITE or a ROUTE section, in the order of R20. -/
structure RawRoute where
  valid    : Bool
  source   : Nat
  kind     : Option Nat
  postures : Nat
  views    : Nat
  model    : Option Nat
  action   : Nat
  dest     : Option Nat
  keepN    : Nat
  damage   : Nat
  deriving DecidableEq, Repr

/-- The fields of a window, in the order of R99. -/
structure RawWindow where
  lower      : Nat
  upper      : Nat
  hysteresis : Nat
  posture    : Nat
  cond       : Nat
  deriving DecidableEq, Repr

/-- An action of a policy entry: the position of its name in the claim table of R167, with what it carries. -/
inductive RawAction
  | plain (code : Nat)
  | budgetProfile (n : Nat)
  | indicate (line source pattern : Nat)
  deriving DecidableEq, Repr

/-- The fields of a policy entry, in the order of R165. -/
structure RawPolicy where
  valid    : Bool
  event    : Nat
  fromSet  : Nat
  toSet    : Nat
  baseCond : Nat
  penCond  : Nat
  hosts    : Nat
  actions  : List RawAction
  deriving DecidableEq, Repr

/-- The arguments of SETTINGS-SET, each optional (R195). The sample rate is a position in its list; the notice enables are
a bit mask. -/
structure SettingsArg where
  grace   : Option Nat
  settle  : Option Nat
  dwell   : Option Nat
  rate    : Option Nat
  discard : Option Nat
  enables : Option Nat
  deriving DecidableEq, Repr

/-- The arguments of GUARD-SET, each optional, in the order of R144. Filter times are positions in their cause's list. -/
structure GuardArg where
  filterRailOc : Option Nat
  filterRailUv : Option Nat
  filterCoilOc : Option Nat
  filterCoilUv : Option Nat
  enableRailOc : Option Bool
  enableRailUv : Option Bool
  enableCoilOc : Option Bool
  enableCoilUv : Option Bool
  mode         : Option Nat
  maskRailOc   : Option Bool
  maskRailUv   : Option Bool
  maskCoilOc   : Option Bool
  maskCoilUv   : Option Bool
  maskDieOt    : Option Bool
  deriving DecidableEq, Repr

/-- The arguments of BUDGET-SET, each optional (R124). -/
structure BudgetArg where
  profile : Option Nat
  value0  : Option Nat
  value1  : Option Nat
  value2  : Option Nat
  value3  : Option Nat
  deriving DecidableEq, Repr

/-- A request of the host as the management engine takes it (R193). -/
inductive Request
  | hello
  | routeWrite (index : Nat) (e : RawRoute)
  | windowWrite (index : Nat) (w : RawWindow)
  | policyWrite (index : Nat) (e : RawPolicy)
  | routeRead (index : Nat)
  | windowRead (index : Nat)
  | policyRead (index : Nat)
  | countersUplink | countersRoute | countersIssuer | countersPosture
  | recordPosture | recordOrientation | recordAttachment | recordCharge | recordSupply | recordSleep | recordStore
  | splitSet (share : Nat)
  | settingsSet (a : SettingsArg)
  | baseRequest (target : Nat) (command : Byte) (data : List Byte)
  | baseReset | linkDiagnose | alarmRead
  | alarmClear (causes : Nat)
  | guardSet (a : GuardArg)
  | budgetSet (a : BudgetArg)
  | chargeLevel (l : PenLevel)
  | chargeHold | chargeRelease | chargeRestart
  | orientLock | orientFree
  | indicateSet (line source pattern : Nat)
  | sleepConfirm | sleepDecline | hostSleep | storeSave | storeErase | restart
  /-- A request whose code is the hub's and which is answered REFUSED with the status alone, without its owner: its payload
  is too short or too long for its code (R192), or it names no table, group, record or argument of its list
  (R193, R197, R198, R160, R120). -/
  | refused (code : Byte)
  /-- A request whose code is not one of R193 (R192). -/
  | unknown (code : Byte)
  deriving DecidableEq, Repr

/-! ## The commands -/

/-- The commands: one constructor for each row of spec/opcode_table.json, in its order. The table gives no operands; they
are read from the rules (log 6). -/
inductive Instr
  -- resets and the store
  | coldReset
  | restartTakesEffect
  | storeReadAnswered (bytes : List Byte)
  | storeExchangeUnanswered
  | pageWriteTaken
  -- the uplink
  | receiveFault (bytes : List Byte)
  | dataParcel (tag : Byte) (payload : List Byte)
  | requestParcel (code : Byte) (payload : List Byte)
  | parcelSent
  -- requests
  | unknownRequest (code : Byte)
  | hello
  | routeTableWrite (index : Nat) (e : RawRoute)
  | windowTableWrite (index : Nat) (w : RawWindow)
  | policyTableWrite (index : Nat) (e : RawPolicy)
  | routeTableRead (index : Nat)
  | windowTableRead (index : Nat)
  | policyTableRead (index : Nat)
  | countersReadUplink
  | countersReadRoute
  | countersReadIssuer
  | countersReadPosture
  | recordReadPosture
  | recordReadOrientation
  | recordReadAttachment
  | recordReadCharge
  | recordReadSupply
  | recordReadSleep
  | recordReadStore
  | splitSet (share : Nat)
  | settingsSet (a : SettingsArg)
  | baseRequest (target : Nat) (command : Byte) (data : List Byte)
  | baseReset
  | linkDiagnose
  | alarmRead
  | alarmClear (causes : Nat)
  | guardSet (a : GuardArg)
  | budgetSet (a : BudgetArg)
  | chargeSetLevel (l : PenLevel)
  | chargeSetHold
  | chargeSetRelease
  | chargeSetRestart
  | orientSetLock
  | orientSetFree
  | indicateSet (line source pattern : Nat)
  | sleepConfirm
  | sleepDecline
  | hostSleep
  | storeSave
  | storeErase
  | restart
  -- the hinge link
  | presenceAssert
  | detach
  | debounceExpiry
  | railUpExpiry
  | trainingEcho (unchanged : Bool)
  | echoWindowExpiry
  | retryTimerExpiry
  | describeWindowExpiry
  | baseTrafficFrame (kind : Byte) (payload : List Byte) (check : Byte)
  | response (payload : List Byte) (check : Byte)
  | busyResponse (payload : List Byte) (check : Byte)
  | reject (payload : List Byte) (check : Byte)
  | wakeSignal (payload : List Byte) (check : Byte)
  | unlistedKindFrame (kind : Byte) (payload : List Byte) (check : Byte)
  | quietTimerExpiry
  | wakeTimeExpiry
  | keepaliveTimerExpiry
  | keepaliveEcho
  | keepaliveWindowExpiry
  | resetDriveExpiry
  | diagnosisMeasurementEnd (outcome : PinOutcome)
  | hingeFrameSent
  -- the base request issuer
  | responseWindowExpiry
  | discardTimerExpiry (target : Nat) (command : Byte)
  -- posture and orientation
  | encoderCodeChange (code : BitVec 3)
  | settleTimerExpiry
  | lidSwitchAssert
  | lidSwitchRelease
  | foldFlatAssert
  | foldFlatRelease
  | samplePeriodExpiry
  | lidMotion (x y z : Word16) (busError : Bool)
  | dwellReached
  -- the supply guard
  | alarmRawAppears (cause : OutCause)
  | alarmRawClears (cause : OutCause)
  | filterTimerExpiry (cause : OutCause)
  | dieOtDetected
  | dieOtCleared
  -- the pen charger
  | dockSwitchAssert
  | dockDebounceExpiry
  | penRemoval
  | penStatus (payload : List Byte) (damaged : Bool)
  | detectWindowExpiry
  | rampTimerExpiry
  | silenceTimerExpiry
  -- sleep control and the indicator lines
  | graceTimerExpiry
  | confirmWindowExpiry
  | wakePulseEnd
  | wakeWindowExpiry
  | blinkPhaseExpiry (line : LedLine)
  | stretchTimerExpiry (line : LedLine)
  | resetLineAsserted
  deriving DecidableEq, Repr

end Sys2Proof
end

