-- ==== Sys2Proof/Decode.lean ====
section
/-! DEFINITION. The commands that a word of spec/opcode_table.json spells. The table gives no row any bits (its rows are
operations and events, not words), so no word spells a command. The decoding the hub itself does, of request payloads
(R192 to R194), descriptors (R50) and store images (R205), is in Machine/Operands.lean and Machine/Descriptor.lean. -/
namespace Sys2Proof

/-- The command that a word spells by the table's bits: no row gives bits, so none. -/
def decodeTableWord (_nbits _w : Nat) : Option Instr := none

end Sys2Proof
end

