-- ==== Sys2Proof/Config.lean ====
section
/-! DEFINITION. The free values: what the manual leaves open. Each is an opaque constant, so no proof can see what it is.
They are applied to a counter of the State (`fresh`) for a new value each time. -/
namespace Sys2Proof

/-- Which of several timers due at the same moment is taken first (R83, R161, R181 allow either order; log 3). -/
opaque Config.freeOrder : Nat → Nat

/-- The bytes of the page 0 that a save writes to invalidate the store, apart from its two mark bytes
(R207 step 1 gives the mark bytes alone; log 13): draw, offset in the page. -/
opaque Config.invalidPage : Nat → Nat → Byte

/-- Whether a byte of a page write cut off by cold reset was already written (R209: "may leave its page partly
written"; log 14): draw, offset in the page; at offset 32, which byte of the mark is not that of a valid image. -/
opaque Config.partPage : Nat → Nat → Bool

end Sys2Proof
end

