-- ==== Sys2Proof/Machine/Factory.lean ====
section
/-! DEFINITION. The factory values of the tables and profiles: what the hub holds when the store image does not supply
them (R40, R53, R107, R122, R186). -/
namespace Sys2Proof.Machine

/-- The motion mount of a base: axis order 0 to 5 and signs 0 to 7 (R52). -/
structure Mount where
  order : Nat
  signs : Nat
  deriving DecidableEq, Repr

/-- The generic profile (R53). The rail demand is in mW. -/
structure GenericProfile where
  model       : Word16
  demand      : Nat
  selfPowered : Bool
  declared    : List Byte
  wakeKinds   : List Byte
  mount       : Option Mount
  deriving DecidableEq, Repr

/-- The four budget profiles, in mW (R122). -/
structure Profiles where
  p0 : Nat
  p1 : Nat
  p2 : Nat
  p3 : Nat
  deriving DecidableEq, Repr

/-- A set of postures as a bit mask over the list of R105. -/
def postureBit : Posture → Nat
  | .closed => 0 | .laptop => 1 | .stand => 2 | .tent => 3 | .tablet => 4 | .slate => 5 | .unknown => 6

def allPostures : BitVec 7 := 0x7F#7

/-- The mask of a list of postures. -/
def postureMask (ps : List Posture) : BitVec 7 := ps.foldl (fun m p => m ||| BitVec.twoPow 7 (postureBit p)) 0#7

/-- AWAKE-VIEW is bit 0, ASLEEP-VIEW bit 1 (R20). -/
def awakeViewOnly : BitVec 2 := 1#2
def asleepViewOnly : BitVec 2 := 2#2

/-- An entry that takes part in nothing: entries 8 to 47 of the factory table, of which R40 gives valid = no alone
(log 43: the other fields are the model's choice). -/
def emptyRoute : RouteFields :=
  ⟨false, .lidMotion, none, 0#7, 0#2, none, .drop, .channel 1, 1, .dropDamaged⟩

/-- The factory Route Table, entries 0 to 7 (R40). -/
def factoryRoutesHead : List RouteFields :=
  [⟨true, .baseKeys, some 0x10, postureMask [.laptop, .stand, .unknown], awakeViewOnly, none, .forwardWake, .channel 1, 1, .dropDamaged⟩,
   ⟨true, .basePointer, some 0x11, postureMask [.laptop, .stand, .unknown], awakeViewOnly, none, .forwardWake, .channel 2, 1, .dropDamaged⟩,
   ⟨true, .baseKeys, some 0x10, postureMask [.laptop], asleepViewOnly, none, .forwardWake, .channel 1, 1, .dropDamaged⟩,
   ⟨true, .baseMotion, some 0x12, allPostures, awakeViewOnly, none, .forward, .channel 3, 4, .passMarked⟩,
   ⟨true, .lidMotion, some 0x01, allPostures, awakeViewOnly, none, .forward, .channel 4, 2, .passMarked⟩,
   ⟨true, .penStatus, some 0x02, allPostures, awakeViewOnly, none, .forward, .channel 5, 1, .dropDamaged⟩,
   ⟨true, .baseStatus, some 0x13, allPostures, awakeViewOnly, none, .forward, .channel 6, 1, .dropDamaged⟩,
   ⟨true, .uplink, none, allPostures, awakeViewOnly, none, .forward, .base, 1, .dropDamaged⟩]

/-- The factory Route Table, 48 entries (R40). -/
def factoryRoutes : List RouteFields := factoryRoutesHead ++ List.replicate 40 emptyRoute

/-- The factory generic profile (R53). -/
def factoryGeneric : GenericProfile := ⟨0#16, 500, false, [0x10#8, 0x11#8, 0x13#8], [], none⟩

/-- The factory Posture Window Table (R107). -/
def factoryWindows : List Window :=
  [⟨5, 95, 2, .laptop, .any⟩, ⟨96, 150, 2, .stand, .upright⟩, ⟨96, 150, 2, .tent, .inverted⟩, ⟨151, 180, 2, .tablet, .any⟩]
    ++ List.replicate 4 ⟨180, 0, 0, .laptop, .any⟩

/-- The factory budget profiles (R122). -/
def factoryProfiles : Profiles := ⟨2500, 1500, 600, 0⟩

def allHosts : BitVec 5 := 0x1F#5

/-- A policy entry with every condition open (R186). -/
def openEntry (e : EventKind) (acts : List PolicyAction) : PolicyEntry :=
  ⟨true, e, allPostures, allPostures, .any, .any, allHosts, acts⟩

/-- Entries 9 to 23 of the factory Policy Table, of which R186 gives valid = no alone (log 43). -/
def emptyPolicy : PolicyEntry := ⟨false, .lidClosed, 0#7, 0#7, .any, .any, 0#5, []⟩

/-- The factory Policy Table, entries 0 to 8 (R186). -/
def factoryPolicyHead : List PolicyEntry :=
  [openEntry .lidClosed [.sleepBegin],
   openEntry .lidOpened [.sleepCancel, .wake],
   { openEntry .postureChanged [.orientFree] with toSet := postureMask [.tablet, .tent] },
   { openEntry .postureChanged [.orientLock] with toSet := postureMask [.laptop, .stand] },
   openEntry .baseDetached [.orientFree],
   { openEntry .penRemoved [.wake] with hosts := 0x08#5 },
   openEntry .supplyAlarm [.indicate .line1 .alarm .blink],
   { openEntry .lidClosed [.budgetProfile 1] with penCond := .docked },
   openEntry .lidOpened [.budgetProfile 0]]

/-- The factory Policy Table, 24 entries (R186). -/
def factoryPolicy : List PolicyEntry := factoryPolicyHead ++ List.replicate 15 emptyPolicy

end Sys2Proof.Machine
end

