-- ==== Sys2Proof/Machine/State.lean ====
section
/-! DEFINITION. The state of the hub: every record, queue, table, counter, mark and timer of its fourteen blocks, the
levels of its pins, the contents of the external store, and the queue of waiting commands. Plain data. State.reset is the
hub right after cold reset, with start-up begun. -/
namespace Sys2Proof.Machine

/-! ## Small things kept per source, per cause, per notice kind -/

/-- One value for each of the seven sources (R36). -/
structure PerSource (α : Type) where
  lidMotion   : α
  baseKeys    : α
  basePointer : α
  baseMotion  : α
  baseStatus  : α
  penStatus   : α
  uplink      : α
  deriving DecidableEq, Repr

/-- One value for each of the five alarm causes (R135). -/
structure PerCause (α : Type) where
  railOc : α
  railUv : α
  coilOc : α
  coilUv : α
  dieOt  : α
  deriving DecidableEq, Repr

/-- The eleven notice kinds (R201). -/
inductive NoticeKind
  | start | posture | orientation | attach | link | charge | alarm | sleep | encoder | budget | store
  deriving DecidableEq, Repr

/-- One value for each of the eleven notice kinds (R199). -/
structure PerKind (α : Type) where
  start       : α
  posture     : α
  orientation : α
  attach      : α
  link        : α
  charge      : α
  alarm       : α
  sleep       : α
  encoder     : α
  budget      : α
  store       : α
  deriving DecidableEq, Repr

/-! ## Pins -/

/-- The levels at the pins: presence, lid-closed switch, fold-flat switch, dock switch, hinge switches A, B, C (R88). Which bit of the code
is which switch is the model's choice: bit 2 is A, bit 1 is B, bit 0 is C (log 56). -/
structure Pins where
  presence  : Bool
  lidClosed : Bool
  foldFlat  : Bool
  dock      : Bool
  code      : BitVec 3
  deriving DecidableEq, Repr

/-! ## Traffic -/

/-- The states of the uplink receiver (R5). -/
inductive RxMode | idle | receiving | hunting
  deriving DecidableEq, Repr

/-- The uplink receiver: its state and the bytes of the parcel under receipt, marker first (R5). -/
structure Receiver where
  mode : RxMode
  buf  : List Byte
  deriving DecidableEq, Repr

/-- Who made a frame record (R12). -/
inductive Origin | routed | issuer
  deriving DecidableEq, Repr

/-- A frame record of the slot pool (R12). The payload is what its slots hold, in order. -/
structure Frame where
  source  : Option Source
  kind    : Byte
  dest    : Dest
  payload : List Byte
  damaged : Bool
  origin  : Origin
  slots   : List Nat
  deriving DecidableEq, Repr

/-- The slot pool: the downstream share, the two queues (head first), and whether the hinge link transmitter is sending
the head of the downstream queue (R11 to R15). -/
structure Pool where
  share     : Nat
  up        : List Frame
  down      : List Frame
  hingeBusy : Bool
  deriving DecidableEq, Repr

/-- A route entry with its phase counter and its counters (R20). -/
structure RouteEntry where
  fields    : RouteFields
  phase     : Nat
  passed    : Word16
  queueFull : Byte
  deriving DecidableEq, Repr

/-- The ingress counters of one source (R36). -/
structure Ingress where
  received   : Word16
  damaged    : Byte
  tooLong    : Byte
  undeclared : Byte
  unmatched  : Byte
  overrun    : Byte
  deriving DecidableEq, Repr

/-- The route engine (R20, R26, R36). -/
structure RouteEngine where
  table   : List RouteEntry
  ingress : PerSource Ingress
  noBase  : Bool
  deriving DecidableEq, Repr

/-- The sample rates of the lid sensor poller (R109). -/
inductive SampleRate | hz12 | hz25 | hz50 | hz100
  deriving DecidableEq, Repr

/-- The lid sensor poller (R109, R110). -/
structure Poller where
  rate    : SampleRate
  period  : Timer
  reading : Bool
  deriving DecidableEq, Repr

/-! ## The hinge link -/

/-- The eleven link states (section 3.1). -/
inductive LinkState
  | absent | settling | powering | training | identifying | ready | quiet | diagnosing | unreachable | unpowered | faulted
  deriving DecidableEq, Repr

/-- The rates of the hinge link (R46). -/
inductive Rate | fast | middle | slow
  deriving DecidableEq, Repr

/-- The attachment session: none open, open before its first READY, open and ready once (R44, R54). -/
inductive AttachSession | none | opened | hasBeenReady
  deriving DecidableEq, Repr

/-- The hinge link controller, apart from the attachment record: state, rate, session, timers, and the work in flight. -/
structure Link where
  state          : LinkState
  rate           : Option Rate
  session        : AttachSession
  attempt        : Nat
  chunk          : Nat
  chunkTry       : Nat
  chunks         : List Byte
  damagedRun     : Nat
  quietWaits     : Bool
  kaDue          : Bool
  resetAfterRail : Bool
  debounce       : Timer
  railUp         : Timer
  echo           : Timer
  retry          : Timer
  describe       : Timer
  quiet          : Timer
  wake           : Timer
  keepAlive      : Timer
  kaWindow       : Timer
  resetDrive     : Timer
  diag           : Timer
  deriving DecidableEq, Repr

/-- Where an identity came from (R54). -/
inductive IdSource | descriptor | generic
  deriving DecidableEq, Repr

/-- A section note (R50). -/
inductive Note | taken | absent | badBody | badRepeat
  deriving DecidableEq, Repr

/-- The notes of the five section types (R50). -/
structure Notes where
  identity : Note
  rail     : Note
  sources  : Note
  wake     : Note
  mount    : Note
  deriving DecidableEq, Repr

/-- Why identification ended on the generic profile (R54). -/
inductive GenericReason | badSignature | chunkFailed (chunk : Nat)
  deriving DecidableEq, Repr

/-- What ended a diagnosis (R67). -/
inductive DiagEnd | finished | detach | unpowered | faulted
  deriving DecidableEq, Repr

/-- The diagnosis record (R67). -/
structure Diagnosis where
  startedFrom : LinkState
  dataPlus    : Option PinOutcome
  dataMinus   : Option PinOutcome
  presence    : Option PinOutcome
  railSense   : Option PinOutcome
  complete    : Bool
  endedBy     : Option DiagEnd
  deriving DecidableEq, Repr

/-- The identity fields of the attachment record, written as a whole at the end of identification (R54). -/
structure Identity where
  idSource      : Option IdSource
  model         : Option Word16
  revision      : Option Byte
  serial        : Option Word32
  railDemand    : Nat
  selfPowered   : Bool
  declared      : List Byte
  wakeKinds     : List Byte
  mount         : Option Mount
  notes         : Option Notes
  genericReason : Option GenericReason
  descriptor    : Option (List Byte)
  deriving DecidableEq, Repr

/-- The attachment record (R55); its link state and rate are link.state and link.rate. -/
structure Attachment where
  present     : Bool
  ident       : Identity
  attachCount : Word16
  linkDropped : Byte
  diagnosis   : Option Diagnosis
  deriving DecidableEq, Repr

/-! ## Base requests -/

/-- The states of a pending request (R70). -/
inductive ReqState | queued | issued | done
  deriving DecidableEq, Repr

/-- The outcomes of a base request (R70). -/
inductive ReqOutcome | ok | baseRefused | noResponse | gaveUp | gone
  deriving DecidableEq, Repr

/-- An entry of the Pending Request Table (R70), with its discard timer (R82). -/
structure ReqEntry where
  target   : Nat
  command  : Byte
  data     : List Byte
  state    : ReqState
  outcome  : Option ReqOutcome
  response : Option (List Byte)
  attempts : Nat
  discard  : Timer
  deriving DecidableEq, Repr

/-- The base request issuer (R70, R75, R76, R82, R86). -/
structure Issuer where
  table       : List ReqEntry
  waiting     : Option (Nat × Byte)
  window      : Timer
  discardTime : Nat
  stray       : Byte
  discarded   : Byte
  deriving DecidableEq, Repr

/-! ## Posture and orientation -/

/-- The sources of a reference (section 5.3). -/
inductive RefSource | lidSwitch | flatSwitch | gravity
  deriving DecidableEq, Repr

/-- A stillness run: the times of its first and last samples in 0.1 ms, and the last sample in mg (R96). -/
structure Run where
  first : Nat
  last  : Nat
  x     : Int
  y     : Int
  z     : Int
  deriving DecidableEq, Repr

/-- The posture unit (chapter 5). The encoder is REFERENCED exactly while the count is present (R105). -/
structure PostureUnit where
  posture    : Posture
  previous   : Option Posture
  lastCode   : Option Nat
  resync     : Bool
  count      : Option Nat
  refSource  : Option RefSource
  moving     : Bool
  settle     : Timer
  settleTime : Nat
  lidOpened  : Bool
  window     : Option Nat
  windows    : List Window
  lidRun     : Option Run
  baseRun    : Option Run
  checked    : Bool
  faults     : Byte
  slips      : Byte
  deriving DecidableEq, Repr

/-- The four orientations (R113). -/
inductive Orientation | landscape | portrait | landscapeInverted | portraitInverted
  deriving DecidableEq, Repr

/-- Who set a lock or a hold (R117, R158). -/
inductive ClaimSource | policy | request
  deriving DecidableEq, Repr

/-- The orientation unit (R120). `stable` is the candidate stable time in 0.1 ms. -/
structure OrientUnit where
  current   : Orientation
  previous  : Option Orientation
  candidate : Orientation
  stable    : Nat
  flat      : Bool
  lock      : Option ClaimSource
  sample    : Option (Word16 × Word16 × Word16)
  dwell     : Nat
  dwellDue  : Bool
  deriving DecidableEq, Repr

/-! ## Power -/

/-- The state of one alarm cause with its settings (R135, R136, R144). DIE-OT has no filter, enable or latch. -/
structure Alarm where
  raw      : Bool
  filter   : Timer
  detected : Bool
  sticky   : Bool
  mask     : Bool
  enabled  : Bool
  latch    : Bool
  choice   : Nat
  deriving DecidableEq, Repr

/-- The pen over-current modes (R144). -/
inductive OcMode | stop | limit
  deriving DecidableEq, Repr

/-- The supply guard (chapter 7). Grants: mW for the base, a level or none (0) for the pen. -/
structure Guard where
  profiles  : Profiles
  active    : Nat
  baseGrant : Nat
  penGrant  : Option PenLevel
  claimed   : Option PenLevel
  cap       : Option PenLevel
  railOn    : Bool
  coilOn    : Bool
  alarms    : PerCause Alarm
  mode      : OcMode
  deriving DecidableEq, Repr

/-- The session states of the pen charger (section 8.1). -/
inductive PenState
  | noPen | detect | foreign | softStart | charging | topped | paused | held | fault
  deriving DecidableEq, Repr

/-- The causes of a session FAULT (R157). -/
inductive FaultCause | penSilent | penReported | coilLatch
  deriving DecidableEq, Repr

/-- The pen charger (R147, R162). The granted level and the cap of its record are the guard's. -/
structure Charger where
  session   : PenState
  fault     : Option FaultCause
  docked    : Bool
  requested : PenLevel
  battery   : Option Nat
  count     : Word16
  hold      : Option ClaimSource
  debounce  : Timer
  detect    : Timer
  ramp      : Timer
  silence   : Timer
  deriving DecidableEq, Repr

/-! ## Policy and sleep -/

/-- A policy event with what it carries (R164). -/
inductive PolicyEvent
  | lidClosed | lidOpened
  | postureChanged (old new : Posture)
  | baseAttached | baseDetached | baseFault | penDocked | penRemoved | chargeDone
  | supplyAlarm (cause : Cause)
  deriving DecidableEq, Repr

/-- The levels of the four indicator inputs (R183). -/
structure LedInputs where
  charge : Bool
  attach : Bool
  alarm  : Bool
  lock   : Bool
  deriving DecidableEq, Repr

/-- An indicator line (R183, R184). -/
structure Line where
  source  : LedSource
  pattern : LedPattern
  output  : Bool
  blink   : Timer
  stretch : Timer
  deriving DecidableEq, Repr

/-- The policy engine (chapter 9), with the events posted in the change under way. -/
structure Policy where
  table  : List PolicyEntry
  inputs : LedInputs
  line1  : Line
  line2  : Line
  events : List PolicyEvent
  deriving DecidableEq, Repr

/-- The five hold-off reasons (R174), in its order. -/
inductive Holdoff | hingeMoving | requestPending | storeBusy | baseIdentifying | chargeStarting
  deriving DecidableEq, Repr

/-- The hold-off set (R174). -/
structure HoldSet where
  hingeMoving     : Bool
  requestPending  : Bool
  storeBusy       : Bool
  baseIdentifying : Bool
  chargeStarting  : Bool
  deriving DecidableEq, Repr

/-- The wake line (R178, R179). -/
inductive WakeLine | released | pulsing | held
  deriving DecidableEq, Repr

/-- What a wake reason is told by: a policy event or a frame of a source (R182). -/
inductive WakeKind | event (k : EventKind) | frame (s : Source)
  deriving DecidableEq, Repr

/-- An entry of the Wake Reason List (R182). -/
structure WakeReason where
  kind      : WakeKind
  count     : Byte
  firstSeen : Nat
  deriving DecidableEq, Repr

/-- The sleep controller (chapter 9). -/
structure Sleep where
  power      : Power
  expired    : Bool
  graceTime  : Nat
  grace      : Timer
  confirm    : Timer
  wakeWindow : Timer
  pulse      : Timer
  wakeLine   : WakeLine
  pulses     : Nat
  holds      : HoldSet
  asleepAt   : Option Nat
  reasons    : List WakeReason
  overflow   : Bool
  deriving DecidableEq, Repr

/-! ## Management -/

/-- The reply statuses (R191). -/
inductive Status
  | ok | accepted | retry | full | mismatch | notAttached | baseRefused | noResponse | gaveUp | gone
  | busy | refused | locked | notAsked | unknown | starting
  deriving DecidableEq, Repr

/-- A reply: request code, status, content after the status (R191). -/
structure Reply where
  code    : Byte
  status  : Status
  content : List Byte
  deriving DecidableEq, Repr

/-- The start-up results (R203). -/
inductive StartResult | storeAbsent | storeInvalid | storeLoaded | storePartial (skipped : List Byte)
  deriving DecidableEq, Repr

/-- The events of an ATTACH notice (R201). -/
inductive AttachEvent
  | attached (source : Option IdSource) (model : Option Word16)
  | detached | unpowered (demand : Nat) | faulted
  deriving DecidableEq, Repr

/-- The causes of a LINK notice (R201). -/
inductive LinkCause
  | noBase (state : LinkState) | lost | unreachable | restored (rate : Option Rate)
  | diagnosed (p1 p2 p3 p4 : Option PinOutcome)
  deriving DecidableEq, Repr

/-- The protection an ALARM notice tells (R136). -/
inductive Protection | stop | limit (cap : PenLevel) | off | none
  deriving DecidableEq, Repr

/-- The grant an ALARM notice tells: of the rail in mW, of the coil as a level, or of no one output (DIE-OT, log 24). -/
inductive AlarmGrant | rail (mw : Nat) | coil (level : Option PenLevel) | noOutput
  deriving DecidableEq, Repr

/-- What withdrew the question (R175). -/
inductive Withdrawal | sleepCancel | wake (k : EventKind) | frame (s : Source)
  deriving DecidableEq, Repr

/-- The causes of a SLEEP notice (R175). -/
inductive SleepCause | ask | abandoned | withdrawn (by_ : Withdrawal)
  deriving DecidableEq, Repr

/-- The causes of an encoder fault (R90). -/
inductive EncoderCause | invalidCode | oppositeJump | range
  deriving DecidableEq, Repr

/-- The causes of a BUDGET notice (R133). -/
inductive BudgetCause | baseClaim | baseRelease | penClaim | penRelease | budget | limit | clear
  deriving DecidableEq, Repr

/-- The operations of the store (R203). -/
inductive StoreOp | save | erase
  deriving DecidableEq, Repr

/-- How a store operation ended (R203). -/
inductive StoreEnd | done | timeout
  deriving DecidableEq, Repr

/-- A notice with its content (R201). -/
inductive Notice
  | start (r : StartResult)
  | posture (new old : Posture) (count : Option Nat) (moving : Bool)
  | orientation (new old candidate : Orientation) (flat locked : Bool)
  | attach (e : AttachEvent)
  | link (c : LinkCause)
  | charge (new old : PenState) (fault : Option FaultCause) (docked : Bool) (granted : Option PenLevel) (battery : Option Nat)
  | alarm (c : Cause) (p : Protection) (g : AlarmGrant)
  | sleep (c : SleepCause) (power : Power)
  | encoderFault (c : EncoderCause) (code : BitVec 3) (before : Option Nat)
  | encoderSlip (src : RefSource) (before after : Nat)
  | budget (active budget base : Nat) (pen claimed cap : Option PenLevel) (cause : BudgetCause)
  | store (op : StoreOp) (e : StoreEnd)
  deriving DecidableEq, Repr

/-- A pending notice: content and coalesce count 1 to 255 (R199). -/
structure Pending where
  notice : Notice
  count  : Byte
  deriving DecidableEq, Repr

/-- What the uplink transmitter is sending (R8): nothing, the reply in the holder, a notice taken from the set, the frame
at the head of the upstream queue. -/
inductive Sending | idle | reply | notice (p : Pending) | data
  deriving DecidableEq, Repr

/-- A RESTART: none, held until the store operation ends, or replied to and made when the reply has been sent (R209). -/
inductive RestartPhase | none | waiting | armed
  deriving DecidableEq, Repr

/-- The management engine (chapter 10). -/
structure Mgmt where
  intake  : List Request
  holder  : Option Reply
  notices : PerKind (Option Pending)
  enables : PerKind Bool
  overrun : Byte
  restart : RestartPhase
  deriving DecidableEq, Repr

/-! ## The store -/

/-- The store states (R203). -/
inductive StoreState | starting | idle | saving | erasing
  deriving DecidableEq, Repr

/-- The exchange outstanding with the store (R203): a read of the header, a read of the rest of an image of the given
length with its header's CRC, a write of a page. -/
inductive Exchange
  | readHeader
  | readBody (length : Nat) (crc : Word16)
  | writePage (page : Nat) (bytes : List Byte)
  deriving DecidableEq, Repr

/-- The image being written (R207): the bytes built from offset 6 on, the bytes of types already begun that are not yet
built, and the next type to begin (1 to 8; 9 is the end byte, 10 is past it). `final` is set while the last page 0 is written. -/
structure Save where
  built    : List Byte
  backlog  : List Byte
  nextType : Nat
  final    : Bool
  deriving DecidableEq, Repr

/-- The store controller and the contents of the external store (chapter 11). -/
structure Store where
  state       : StoreState
  result      : Option StartResult
  imageLength : Option Nat
  lastOp      : Option (StoreOp × StoreEnd)
  pages       : Nat
  exchange    : Option Exchange
  timer       : Timer
  save        : Option Save
  eeprom      : List Host.Cell
  deriving DecidableEq, Repr

/-! ## The hub -/

/-- The state of the hub. -/
structure State where
  pending : List Instr
  now     : Nat
  fresh   : Nat
  held    : Bool
  pins    : Pins
  rx      : Receiver
  tx      : Sending
  uplinkErrors : Byte
  pool    : Pool
  route   : RouteEngine
  poller  : Poller
  link    : Link
  att     : Attachment
  generic : GenericProfile
  issuer  : Issuer
  posture : PostureUnit
  orient  : OrientUnit
  guard   : Guard
  pen     : Charger
  policy  : Policy
  sleep   : Sleep
  mgmt    : Mgmt
  store   : Store
  deriving DecidableEq, Repr

/-- No command faults: the manual names no condition that stops the hub, so this type has no constructor. -/
inductive Fault
  deriving DecidableEq, Repr

/-- Why a command is refused. -/
inductive Refusal
  /-- Raised by exec's arm of a command that has no meaning yet, by its mnemonic; safe: the model stops where the hub goes on. -/
  | notModelled (mnemonic : String)
  deriving DecidableEq, Repr

/-! ## Cold reset values -/

def Ingress.zero : Ingress := ⟨0, 0, 0, 0, 0, 0⟩

def PerSource.all {α : Type} (a : α) : PerSource α := ⟨a, a, a, a, a, a, a⟩
def PerKind.all {α : Type} (a : α) : PerKind α := ⟨a, a, a, a, a, a, a, a, a, a, a⟩

/-- An entry as written: phase and counters 0 (R37, R41). -/
def RouteEntry.fresh (f : RouteFields) : RouteEntry := ⟨f, 0, 0, 0⟩

def Link.cold : Link :=
  ⟨.absent, none, .none, 0, 0, 0, [], 0, false, false, false, none, none, none, none, none, none, none, none, none, none, none⟩

/-- The identity fields after a reset (R69). -/
def Identity.cold : Identity :=
  ⟨none, none, none, none, factoryGeneric.demand, factoryGeneric.selfPowered, factoryGeneric.declared,
   factoryGeneric.wakeKinds, none, none, none, none⟩

def Attachment.cold : Attachment := ⟨false, Identity.cold, 0, 0, none⟩

def Issuer.cold : Issuer := ⟨[], none, none, 2000, 0, 0⟩

def PostureUnit.cold : PostureUnit :=
  ⟨.slate, none, none, false, none, none, false, none, 100, false, none, factoryWindows, none, none, false, 0, 0⟩

def OrientUnit.cold : OrientUnit :=
  ⟨.landscape, none, .landscape, 0, false, none, none, 300, false⟩

/-- An output cause after cold reset: enabled, filter at its default, the third of its list (R135, R144). -/
def Alarm.cold : Alarm := ⟨false, none, false, false, false, true, false, 2⟩

/-- DIE-OT after cold reset; it has no enable, filter or latch (R140). -/
def Alarm.coldOt : Alarm := ⟨false, none, false, false, false, false, false, 0⟩

def Guard.cold : Guard :=
  ⟨factoryProfiles, 0, 0, none, none, none, false, false,
   ⟨Alarm.cold, Alarm.cold, Alarm.cold, Alarm.cold, Alarm.coldOt⟩, .limit⟩

def Charger.cold : Charger := ⟨.noPen, none, false, .steady, none, 0, none, none, none, none, none⟩

def Line.cold : Line := ⟨.off, .steady, false, none, none⟩

def Policy.cold : Policy := ⟨factoryPolicy, ⟨false, false, false, false⟩, Line.cold, Line.cold, []⟩

def HoldSet.empty : HoldSet := ⟨false, false, false, false, false⟩

def Sleep.cold : Sleep :=
  ⟨.awake, false, 4000, none, none, none, none, .released, 0, HoldSet.empty, none, [], false⟩

def Mgmt.cold : Mgmt := ⟨[], none, PerKind.all none, PerKind.all true, 0, .none⟩

/-- Start-up has begun: the header is being read (R203, R204); 250 units are the 25 ms of an exchange. -/
def Store.cold : Store := ⟨.starting, none, none, none, 0, some .readHeader, some 250, none, []⟩

/-- The hub right after cold reset, start-up begun (R209 and each chapter's reset rule). The levels of the pins and the
contents of the store are the outside world's (logs 5, 12). -/
def State.reset : State where
  pending := []
  now := 0
  fresh := 0
  held := false
  pins := ⟨false, false, false, false, 0b100#3⟩
  rx := ⟨.hunting, []⟩
  tx := .idle
  uplinkErrors := 0
  pool := ⟨24, [], [], false⟩
  route := ⟨factoryRoutes.map RouteEntry.fresh, PerSource.all Ingress.zero, false⟩
  poller := ⟨.hz25, none, false⟩
  link := Link.cold
  att := Attachment.cold
  generic := factoryGeneric
  issuer := Issuer.cold
  posture := PostureUnit.cold
  orient := OrientUnit.cold
  guard := Guard.cold
  pen := Charger.cold
  policy := Policy.cold
  sleep := Sleep.cold
  mgmt := Mgmt.cold
  store := Store.cold

end Sys2Proof.Machine
end

