-- ==== Sys2Proof/Machine/Flags.lean ====
section
/-! DEFINITION. Counters, the small per-source, per-cause and per-kind records, bit-mask sets, the two CRCs, and the angles of
the accelerometers. -/
namespace Sys2Proof.Machine

/-! ## Counters (00_scope.md, Counters) -/

/-- A saturating counter stops at 255. -/
def satInc (c : Byte) : Byte := if c = 255#8 then c else c + 1#8

/-- A saturating sum of two counts, held at 255 (R9). -/
def satAdd (a b : Byte) : Byte := if a.toNat + b.toNat > 255 then 255#8 else a + b

/-- A wrapping counter runs from 0 to 65535 and goes on from 0. -/
def wrapInc (c : Word16) : Word16 := c + 1#16

/-! ## Timers -/

/-- Units of 0.1 ms in so many ms. -/
def ms (n : Nat) : Nat := 10 * n

/-- A timer started at so many ms. -/
def startMs (n : Nat) : Timer := some (ms n)

/-- A timer after 0.1 ms. -/
def tick (t : Timer) : Timer := t.map (· - 1)

/-- A timer that has reached its length. -/
def due (t : Timer) : Bool := t == some 0

/-- ms left of a timer (R187): a part of one counts as one, by the model's choice, since R187 names no rounding (log 57). -/
def msLeft (t : Timer) : Nat := (t.getD 0 + 9) / 10

/-! ## One value per source, cause and notice kind -/

def PerSource.get {α : Type} (p : PerSource α) : Source → α
  | .lidMotion => p.lidMotion | .baseKeys => p.baseKeys | .basePointer => p.basePointer | .baseMotion => p.baseMotion
  | .baseStatus => p.baseStatus | .penStatus => p.penStatus | .uplink => p.uplink

def PerSource.set {α : Type} (p : PerSource α) (s : Source) (a : α) : PerSource α :=
  match s with
  | .lidMotion => { p with lidMotion := a } | .baseKeys => { p with baseKeys := a }
  | .basePointer => { p with basePointer := a } | .baseMotion => { p with baseMotion := a }
  | .baseStatus => { p with baseStatus := a } | .penStatus => { p with penStatus := a }
  | .uplink => { p with uplink := a }

def PerCause.get {α : Type} (p : PerCause α) : Cause → α
  | .railOc => p.railOc | .railUv => p.railUv | .coilOc => p.coilOc | .coilUv => p.coilUv | .dieOt => p.dieOt

def PerCause.set {α : Type} (p : PerCause α) (c : Cause) (a : α) : PerCause α :=
  match c with
  | .railOc => { p with railOc := a } | .railUv => { p with railUv := a } | .coilOc => { p with coilOc := a }
  | .coilUv => { p with coilUv := a } | .dieOt => { p with dieOt := a }

def PerCause.map {α β : Type} (f : α → β) (p : PerCause α) : PerCause β :=
  ⟨f p.railOc, f p.railUv, f p.coilOc, f p.coilUv, f p.dieOt⟩

def PerKind.get {α : Type} (p : PerKind α) : NoticeKind → α
  | .start => p.start | .posture => p.posture | .orientation => p.orientation | .attach => p.attach | .link => p.link
  | .charge => p.charge | .alarm => p.alarm | .sleep => p.sleep | .encoder => p.encoder | .budget => p.budget
  | .store => p.store

def PerKind.set {α : Type} (p : PerKind α) (k : NoticeKind) (a : α) : PerKind α :=
  match k with
  | .start => { p with start := a } | .posture => { p with posture := a } | .orientation => { p with orientation := a }
  | .attach => { p with attach := a } | .link => { p with link := a } | .charge => { p with charge := a }
  | .alarm => { p with alarm := a } | .sleep => { p with sleep := a } | .encoder => { p with encoder := a }
  | .budget => { p with budget := a } | .store => { p with store := a }

/-- The notice kinds from the lowest code upward (R201). -/
def NoticeKind.inOrder : List NoticeKind :=
  [.start, .posture, .orientation, .attach, .link, .charge, .alarm, .sleep, .encoder, .budget, .store]

/-- The kind of a notice (R201). -/
def Notice.kind : Notice → NoticeKind
  | .start _ => .start | .posture .. => .posture | .orientation .. => .orientation | .attach _ => .attach
  | .link _ => .link | .charge .. => .charge | .alarm .. => .alarm | .sleep .. => .sleep | .encoderFault .. => .encoder
  | .encoderSlip .. => .encoder | .budget .. => .budget | .store .. => .store

/-- The causes of an output, as causes. -/
def causeOf : OutCause → Cause
  | .railOc => .railOc | .railUv => .railUv | .coilOc => .coilOc | .coilUv => .coilUv

/-- The event of a policy event, by name. -/
def PolicyEvent.kind : PolicyEvent → EventKind
  | .lidClosed => .lidClosed | .lidOpened => .lidOpened | .postureChanged _ _ => .postureChanged
  | .baseAttached => .baseAttached | .baseDetached => .baseDetached | .baseFault => .baseFault
  | .penDocked => .penDocked | .penRemoved => .penRemoved | .chargeDone => .chargeDone | .supplyAlarm _ => .supplyAlarm

/-! ## Sets as bit masks -/

/-- A posture is in a set (R165, R20). -/
def inPostures (m : BitVec 7) (p : Posture) : Bool := m.getLsbD (postureBit p)

/-- The host power states in the order of R169. -/
def powerBit : Power → Nat
  | .awake => 0 | .grace => 1 | .sleepAsked => 2 | .asleep => 3 | .waking => 4

def inHosts (m : BitVec 5) (p : Power) : Bool := m.getLsbD (powerBit p)

/-- The view of a host power state (R20). -/
def viewOf : Power → View
  | .awake | .grace | .sleepAsked => .awakeView
  | .asleep | .waking => .asleepView

def inViews (m : BitVec 2) : View → Bool
  | .awakeView => m.getLsbD 0
  | .asleepView => m.getLsbD 1

/-! ## The CRCs -/

/-- One bit of the CRC-16 of R1: polynomial 0x1021, most significant bit first. -/
def crc16Bit (c : Word16) : Word16 := if c.msb then (c <<< 1) ^^^ 0x1021#16 else c <<< 1

/-- One byte of the CRC-16. -/
def crc16Byte (c : Word16) (b : Byte) : Word16 :=
  let c := c ^^^ ((b.setWidth 16) <<< 8)
  crc16Bit (crc16Bit (crc16Bit (crc16Bit (crc16Bit (crc16Bit (crc16Bit (crc16Bit c)))))))

/-- The CRC-16 of the uplink and of the store image: initial value 0xFFFF, no reflection, no final XOR (R1, R4). -/
def crc16 (bytes : List Byte) : Word16 := bytes.foldl crc16Byte 0xFFFF#16

/-- One bit of the CRC-8 of R3: polynomial 0x07, most significant bit first. -/
def crc8Bit (c : Byte) : Byte := if c.msb then (c <<< 1) ^^^ 0x07#8 else c <<< 1

/-- One byte of the CRC-8. -/
def crc8Byte (c b : Byte) : Byte :=
  let c := c ^^^ b
  crc8Bit (crc8Bit (crc8Bit (crc8Bit (crc8Bit (crc8Bit (crc8Bit (crc8Bit c)))))))

/-- The CRC-8 of the hinge link: initial value 0x00, no reflection, no final XOR (R3). -/
def crc8 (bytes : List Byte) : Byte := bytes.foldl crc8Byte 0x00#8

/-! ## Angles

The manual decides by atan2 in degrees (R97, R113). Every boundary it names is an odd number of degrees, so one function
serves: how many odd degrees lie at or below the angle of a vector, which is half the angle rounded to the nearest whole
number with a half rounded up. It is decided in integers by comparing Y / X with the tangents, scaled by 10^30; for
components below 2^34 no comparison is changed by the rounding of the table (log 27). -/

/-- tan 1°, tan 3°, …, tan 89°, times 10^30. -/
def oddTangents : List Nat :=
  [
   17455064928217585765128895220, 52407779283041204038805824474, 87488663525924005222018669435,
   122784560902904591134231136053, 158384440324536293838883092694, 194380309137718484243194224977,
   230868191125563111748145613474, 267949192431122706472553658494, 305730681458660355734541958997,
   344327613289665241957265839383, 383864035035415795971448408103, 424474816209604742023532062943,
   466307658154998592830006194800, 509525449494428810513706911251, 554309051452768917820763092338,
   600860619027560414878664426355, 649407593197510576982062911311, 700207538209709779458522719445,
   753554050102794157073956448622, 809784033195007148036991374236, 869286737816226662200095638704,
   932515086137661705612185627426, 1000000000000000000000000000000, 1072368710024682532946027748073,
   1150368407221009555876331025570, 1234897156535051398556174695376, 1327044821620410037159472574087,
   1428148006742114502160618484999, 1539864963814582904826796972603, 1664279482350517911030496170035,
   1804047755271423937381784748237, 1962610505505150582304640426212, 2144506920509558616356260791046,
   2355852365823752833939586662344, 2605089064693801536258412336434, 2904210877675822802579325534527,
   3270852618484140865308856257305, 3732050807568877293527446341506, 4331475874284155545546167754557,
   5144554015970310134723220717129, 6313751514675043098979464244768, 8144346427974594023825661394980,
   11430052302761343067210855549163, 19081136687728211063406748734365, 57289961630759424687278147537113]

def tangentScale : Nat := 1000000000000000000000000000000

/-- How many of 1°, 3°, …, 89° lie at or below the angle of (X, Y), X > 0, Y at least 0. -/
def oddStepsInQuadrant (x y : Int) : Nat :=
  (oddTangents.filter (fun (t : Nat) => decide (x * (t : Int) ≤ y * (tangentScale : Int)))).length

/-- Half the angle in degrees, taken into 0 up to 360, of the vector (re, im), rounded to the nearest whole number, a half
rounded up: 0 to 180. -/
def halfAngle (re im : Int) : Nat :=
  if 0 < re ∧ 0 ≤ im then oddStepsInQuadrant re im
  else if re ≤ 0 ∧ 0 < im then 45 + oddStepsInQuadrant im (-re)
  else if re < 0 ∧ im ≤ 0 then 90 + oddStepsInQuadrant (-re) (-im)
  else 135 + oddStepsInQuadrant (-im) re

end Sys2Proof.Machine
end

