-- ==== Sys2Proof/Machine/Ops.lean ====
section
/-! DEFINITION. The shared operations: the contents of the external store, the notice set, the hold-off set and the sleep
claims, the indicator lines, the slot pool, and the two transmitters' next choice. -/
namespace Sys2Proof.Machine

/-! ## The external store as memory: cells with rising addresses, none equal to the erased byte (log 12) -/

/-- What an unlisted address of the store reads as: an erased EEPROM byte. -/
def eraseByte : Byte := 0xFF#8

/-- The byte at an address. -/
def Memory.read (m : List Host.Cell) (a : Nat) : Byte :=
  match m with
  | [] => eraseByte
  | (b, v) :: r => if b = a then v else Memory.read r a

/-- The cells with one byte written. -/
def Memory.write (m : List Host.Cell) (a : Nat) (v : Byte) : List Host.Cell :=
  match m with
  | [] => if v = eraseByte then [] else [(a, v)]
  | (b, w) :: r =>
    if a < b then if v = eraseByte then (b, w) :: r else (a, v) :: (b, w) :: r
    else if a = b then if v = eraseByte then r else (a, v) :: r
    else (b, w) :: Memory.write r a v

/-- So many bytes written from an address on. -/
def Memory.writeBytes (m : List Host.Cell) (a : Nat) : List Byte → List Host.Cell
  | [] => m
  | v :: r => Memory.writeBytes (Memory.write m a v) (a + 1) r

/-- So many bytes from an address on. -/
def Memory.readBytes (m : List Host.Cell) (a n : Nat) : List Byte := (List.range n).map (fun i => Memory.read m (a + i))

/-- The canonical form: addresses strictly rising from a bound on, no erased byte listed. -/
def Memory.wfFrom (bound : Nat) : List Host.Cell → Bool
  | [] => true
  | (a, v) :: r => decide (bound ≤ a) && v != eraseByte && Memory.wfFrom (a + 1) r

/-- The canonical form of the store's contents. -/
def Memory.wf (m : List Host.Cell) : Bool := Memory.wfFrom 0 m

/-! ## The notice set (R199, R200, R9) -/

/-- A block posts a notice (R199). -/
def post (n : Notice) (s : State) : State :=
  if s.mgmt.enables.get n.kind then
    let p : Pending := match s.mgmt.notices.get n.kind with
      | none => ⟨n, 1#8⟩
      | some q => ⟨n, satInc q.count⟩
    { s with mgmt := { s.mgmt with notices := s.mgmt.notices.set n.kind (some p) } }
  else s

/-- A notice cut off goes back into the set; a newer one of its kind stays and takes its count (R9, R200). -/
def returnNotice (p : Pending) (s : State) : State :=
  let k := p.notice.kind
  if s.mgmt.enables.get k then
    let q : Pending := match s.mgmt.notices.get k with
      | none => p
      | some q => ⟨q.notice, satAdd q.count p.count⟩
    { s with mgmt := { s.mgmt with notices := s.mgmt.notices.set k (some q) } }
  else s

/-- The pending notice with the lowest kind code (R8). -/
def lowestPending (m : PerKind (Option Pending)) : Option Pending := NoticeKind.inOrder.findSome? m.get

/-- Entry to ASLEEP cuts off a NOTICE or DATA parcel; a reply is sent whole (R9). -/
def cutOff (s : State) : State :=
  match s.tx with
  | .notice p => returnNotice p { s with tx := .idle }
  | .data => { s with tx := .idle }
  | .reply | .idle => s

/-- NOTICE and DATA parcels may be started (R8, R9). -/
def hostListens : Power → Bool
  | .awake | .grace | .sleepAsked => true
  | .asleep | .waking => false

/-- The uplink transmitter, when IDLE, starts the first eligible parcel: the reply, the lowest pending notice, the head
upstream frame (R8). -/
def startTransmit (s : State) : State :=
  match s.tx with
  | .idle =>
    if s.mgmt.holder.isSome then { s with tx := .reply }
    else if hostListens s.sleep.power then
      match lowestPending s.mgmt.notices with
      | some p =>
        { s with tx := .notice p, mgmt := { s.mgmt with notices := s.mgmt.notices.set p.notice.kind none } }
      | none => if s.pool.up = [] then s else { s with tx := .data }
    else s
  | _ => s

/-! ## Policy events wait for the end of the change that posts them (R164, log 4) -/

/-- A block posts a policy event. -/
def postEvent (e : PolicyEvent) (s : State) : State := { s with policy := { s.policy with events := s.policy.events ++ [e] } }

/-! ## The sleep controller (R171 to R182) -/

/-- A SLEEP notice (R175): its cause and the host power state after the change. -/
def postSleep (c : SleepCause) (s : State) : State := post (.sleep c s.sleep.power) s

/-- Entry to SLEEP-ASKED (R175). -/
def sleepAsk (s : State) : State :=
  postSleep .ask
    { s with sleep := { s.sleep with power := .sleepAsked, grace := none, expired := false, confirm := startMs 5000 } }

/-- The hold-off set is empty. -/
def HoldSet.isEmpty (h : HoldSet) : Bool :=
  !h.hingeMoving && !h.requestPending && !h.storeBusy && !h.baseIdentifying && !h.chargeStarting

def HoldSet.has (h : HoldSet) : Holdoff → Bool
  | .hingeMoving => h.hingeMoving | .requestPending => h.requestPending | .storeBusy => h.storeBusy
  | .baseIdentifying => h.baseIdentifying | .chargeStarting => h.chargeStarting

def HoldSet.put (h : HoldSet) (r : Holdoff) (b : Bool) : HoldSet :=
  match r with
  | .hingeMoving => { h with hingeMoving := b } | .requestPending => { h with requestPending := b }
  | .storeBusy => { h with storeBusy := b } | .baseIdentifying => { h with baseIdentifying := b }
  | .chargeStarting => { h with chargeStarting := b }

/-- The grace timer expires: the host is asked, or, with a hold-off present, the expired mark is set (R173). -/
def graceExpires (s : State) : State :=
  if s.sleep.holds.isEmpty then sleepAsk s
  else { s with sleep := { s.sleep with grace := none, expired := true } }

/-- An owner adds its hold-off reason (R174). -/
def addHold (r : Holdoff) (s : State) : State := { s with sleep := { s.sleep with holds := s.sleep.holds.put r true } }

/-- An owner removes its hold-off reason; the removal that empties the set ends an expired grace (R173, R174). -/
def removeHold (r : Holdoff) (s : State) : State :=
  if s.sleep.holds.has r then
    let s := { s with sleep := { s.sleep with holds := s.sleep.holds.put r false } }
    if s.sleep.power = .grace ∧ s.sleep.expired ∧ s.sleep.holds.isEmpty then sleepAsk s else s
  else s

/-- A hold-off present exactly while a condition holds. -/
def setHold (r : Holdoff) (b : Bool) (s : State) : State := if b then addHold r s else removeHold r s

/-- SLEEP-BEGIN (R171); a grace time of 0 expires in the same change. -/
def sleepBegin (s : State) : State :=
  if s.sleep.power = .awake then
    let s' := { s with sleep := { s.sleep with power := .grace, expired := false, grace := startMs s.sleep.graceTime } }
    if s.sleep.graceTime = 0 then graceExpires s' else s'
  else s

/-- A claim that cancels a grace or withdraws the question (R172, R175). -/
def cancelSleep (w : Withdrawal) (s : State) : State :=
  match s.sleep.power with
  | .grace => { s with sleep := { s.sleep with power := .awake, grace := none, expired := false } }
  | .sleepAsked =>
    postSleep (.withdrawn w) { s with sleep := { s.sleep with power := .awake, confirm := none } }
  | .awake | .asleep | .waking => s

/-- What a wake claim withdraws the question by (R175). -/
def withdrawalOf : WakeKind → Withdrawal
  | .event k => .wake k
  | .frame src => .frame src

/-- A first-seen time is held at its top (R182). -/
def firstSeenTop : Nat := 4294967295

/-- Adds one to the count of the entry of this kind and source. -/
def countReason (k : WakeKind) (r : WakeReason) : WakeReason := if r.kind = k then { r with count := satInc r.count } else r

/-- A wake reason is recorded (R182). Its first-seen time is in whole ms rounded down by the model's choice, since R182 names no rounding
(log 57). -/
def recordReason (k : WakeKind) (s : State) : State :=
  if s.sleep.reasons.any (fun r => r.kind = k) then
    { s with sleep := { s.sleep with reasons := s.sleep.reasons.map (countReason k) } }
  else if s.sleep.reasons.length < 6 then
    let seen := min ((s.now - s.sleep.asleepAt.getD s.now) / 10) firstSeenTop
    { s with sleep := { s.sleep with reasons := s.sleep.reasons ++ [⟨k, 1#8, seen⟩] } }
  else { s with sleep := { s.sleep with overflow := true } }

/-- The wake line is asserted for 10 ms (R178, R179). -/
def pulseWakeLine (s : State) : State :=
  { s with sleep := { s.sleep with wakeLine := .pulsing, pulse := startMs 10, wakeWindow := startMs 1000,
                                   pulses := s.sleep.pulses + 1 } }

/-- A wake claim, from the policy engine or the route engine (R172, R175, R178). -/
def wakeClaim (k : WakeKind) (s : State) : State :=
  match s.sleep.power with
  | .awake => s
  | .grace | .sleepAsked => cancelSleep (withdrawalOf k) s
  | .asleep =>
    let s := recordReason k s
    pulseWakeLine { s with sleep := { s.sleep with power := .waking, pulses := 0 } }
  | .waking => recordReason k s

/-- Entry to ASLEEP (R177), with the cut-off of R9. -/
def enterAsleep (s : State) : State :=
  cutOff
    { s with sleep := { s.sleep with power := .asleep, grace := none, expired := false, confirm := none,
                                     asleepAt := some s.now, wakeLine := .released, pulse := none, pulses := 0 } }

/-! ## The indicator lines (R183 to R185) -/

/-- The level of a source. -/
def LedInputs.level (i : LedInputs) : LedSource → Bool
  | .charge => i.charge | .attach => i.attach | .alarm => i.alarm | .lock => i.lock | .on => true | .off => false

/-- A line's input turns on (R184). -/
def Line.turnsOn (l : Line) : Line :=
  match l.pattern with
  | .steady => { l with output := true }
  | .blink => { l with output := true, blink := startMs 250 }
  | .stretch => { l with output := true, stretch := startMs 200 }

/-- A line's input turns off (R184). -/
def Line.turnsOff (l : Line) : Line :=
  match l.pattern with
  | .steady => { l with output := false }
  | .blink => { l with output := false, blink := none }
  | .stretch => if l.stretch.isSome then l else { l with output := false }

/-- A line follows a change of its input's level. -/
def Line.follow (l : Line) (old new : LedInputs) : Line :=
  if old.level l.source = new.level l.source then l
  else if new.level l.source then l.turnsOn else l.turnsOff

/-- The owners report the levels of the inputs (R183). -/
def setInputs (new : LedInputs) (s : State) : State :=
  { s with policy := { s.policy with inputs := new, line1 := s.policy.line1.follow s.policy.inputs new,
                                     line2 := s.policy.line2.follow s.policy.inputs new } }

/-- A line set to a source and a pattern starts afresh; the setting in force again changes nothing (R185). -/
def Line.set (l : Line) (inputs : LedInputs) (source : LedSource) (pattern : LedPattern) : Line :=
  if l.source = source ∧ l.pattern = pattern then l
  else
    let l' : Line := ⟨source, pattern, false, none, none⟩
    if inputs.level source then l'.turnsOn else l'

/-- INDICATE(line, source, pattern) (R185). -/
def indicate (line : LedLine) (source : LedSource) (pattern : LedPattern) (s : State) : State :=
  match line with
  | .line1 => { s with policy := { s.policy with line1 := s.policy.line1.set s.policy.inputs source pattern } }
  | .line2 => { s with policy := { s.policy with line2 := s.policy.line2.set s.policy.inputs source pattern } }

/-- The 250 ms of a blink phase end (R184). -/
def Line.blinkExpires (l : Line) : Line :=
  if l.blink.isSome then { l with output := !l.output, blink := startMs 250 } else l

/-- The stretch timer expires: the output turns off if the input is off (R184). -/
def Line.stretchExpires (l : Line) (inputs : LedInputs) : Line :=
  if l.stretch.isSome then { l with stretch := none, output := l.output && inputs.level l.source } else l

/-! ## The slot pool (R11 to R17) -/

/-- How many slots a payload holds (R12). -/
def slotsFor (length : Nat) : Nat := max 1 ((length + 15) / 16)

/-- The slots held by the frames of a queue. -/
def heldBy (q : List Frame) : Nat := (q.map (fun f => f.slots.length)).sum

/-- The upstream share (R11). -/
def Pool.upShare (p : Pool) : Nat := 96 - p.share

/-- The slots held by no frame, lowest first (R11). -/
def Pool.freeSlots (p : Pool) : List Nat := (List.range 96).filter (fun n => (p.up ++ p.down).all (fun f => !f.slots.contains n))

/-- A frame offered to the upstream queue: admitted whole, or none (R13). -/
def Pool.admitUp (p : Pool) (f : Frame) : Option Pool :=
  let n := slotsFor f.payload.length
  if heldBy p.up + n ≤ p.upShare then some { p with up := p.up ++ [{ f with slots := p.freeSlots.take n }] } else none

/-- A frame offered to the downstream queue: admitted whole, or none (R13). -/
def Pool.admitDown (p : Pool) (f : Frame) : Option Pool :=
  let n := slotsFor f.payload.length
  if heldBy p.down + n ≤ p.share then some { p with down := p.down ++ [{ f with slots := p.freeSlots.take n }] } else none

/-- The downstream queue is flushed and the frame under transmission abandoned (R17). -/
def flushDown (s : State) : State := { s with pool := { s.pool with down := [], hingeBusy := false } }

/-! ## The hinge link transmitter's next choice (R15, R58, R59) -/

/-- The link is READY or QUIET. -/
def LinkState.isUp : LinkState → Bool
  | .ready | .quiet => true
  | _ => false

/-- In READY the transmitter starts the head of the downstream queue unless a keep-alive is due or open; in QUIET a queue that
is not empty starts the 2 ms wake time. -/
def kickHinge (s : State) : State :=
  if s.pool.down = [] then s
  else
    match s.link.state with
    | .ready =>
      if s.link.kaWindow.isNone && !s.link.kaDue then { s with pool := { s.pool with hingeBusy := true } } else s
    | .quiet => if s.link.wake.isNone then { s with link := { s.link with wake := startMs 2 } } else s
    | _ => s

end Sys2Proof.Machine
end

