-- ==== Sys2Proof/Machine/Clock.lean ====
section
/-! DEFINITION. The time base (00_scope.md, Time): 0.1 ms passes, and the timers that have reached their length (log 1). -/
namespace Sys2Proof.Machine

/-! ## Timers that count -/

def tickLink (l : Link) : Link :=
  { l with debounce := tick l.debounce, railUp := tick l.railUp, echo := tick l.echo, retry := tick l.retry
           describe := tick l.describe, quiet := tick l.quiet, wake := tick l.wake, keepAlive := tick l.keepAlive
           kaWindow := tick l.kaWindow, resetDrive := tick l.resetDrive, diag := tick l.diag }

def tickIssuer (i : Issuer) : Issuer :=
  { i with window := tick i.window, table := i.table.map (fun e => { e with discard := tick e.discard }) }

def tickGuard (g : Guard) : Guard := { g with alarms := g.alarms.map (fun a => { a with filter := tick a.filter }) }

def tickPen (p : Charger) : Charger :=
  { p with debounce := tick p.debounce, detect := tick p.detect, ramp := tick p.ramp, silence := tick p.silence }

def tickLine (l : Line) : Line := { l with blink := tick l.blink, stretch := tick l.stretch }

def tickSleep (z : Sleep) : Sleep :=
  { z with grace := tick z.grace, confirm := tick z.confirm, wakeWindow := tick z.wakeWindow, pulse := tick z.pulse }

/-- 65535 ms, at which the candidate stable time is held (R114). -/
def stableTop : Nat := 655350

/-- The candidate stable time runs from the end of start-up on; reaching the dwell is an event (R114, R115). -/
def tickOrient (o : OrientUnit) : OrientUnit :=
  let t := min (o.stable + 1) stableTop
  { o with stable := t, dwellDue := o.dwellDue || (decide (o.stable < ms o.dwell) && decide (ms o.dwell ≤ t)) }

/-- 0.1 ms passes. -/
def advance (s : State) : State :=
  { s with
    now := s.now + 1
    poller := { s.poller with period := tick s.poller.period }
    link := tickLink s.link
    issuer := tickIssuer s.issuer
    posture := { s.posture with settle := tick s.posture.settle }
    orient := if s.store.state = .starting then s.orient else tickOrient s.orient
    guard := tickGuard s.guard
    pen := tickPen s.pen
    policy := { s.policy with line1 := tickLine s.policy.line1, line2 := tickLine s.policy.line2 }
    sleep := tickSleep s.sleep
    store := { s.store with timer := tick s.store.timer } }

/-! ## Timers that have reached their length -/

def when_ (b : Bool) (c : Instr) : List Instr := if b then [c] else []

def dueLink (l : Link) : List Instr :=
  when_ (due l.debounce) .debounceExpiry ++ when_ (due l.railUp) .railUpExpiry ++ when_ (due l.echo) .echoWindowExpiry
    ++ when_ (due l.retry) .retryTimerExpiry ++ when_ (due l.describe) .describeWindowExpiry
    ++ when_ (due l.quiet) .quietTimerExpiry ++ when_ (due l.wake) .wakeTimeExpiry
    ++ when_ (due l.keepAlive) .keepaliveTimerExpiry ++ when_ (due l.kaWindow) .keepaliveWindowExpiry
    ++ when_ (due l.resetDrive) .resetDriveExpiry

def dueIssuer (i : Issuer) : List Instr :=
  when_ (due i.window) .responseWindowExpiry
    ++ i.table.flatMap (fun e => when_ (due e.discard) (.discardTimerExpiry e.target e.command))

def dueGuard (g : Guard) : List Instr :=
  when_ (due g.alarms.railOc.filter) (.filterTimerExpiry .railOc) ++ when_ (due g.alarms.railUv.filter) (.filterTimerExpiry .railUv)
    ++ when_ (due g.alarms.coilOc.filter) (.filterTimerExpiry .coilOc)
    ++ when_ (due g.alarms.coilUv.filter) (.filterTimerExpiry .coilUv)

def duePen (p : Charger) : List Instr :=
  when_ (due p.debounce) .dockDebounceExpiry ++ when_ (due p.detect) .detectWindowExpiry ++ when_ (due p.ramp) .rampTimerExpiry
    ++ when_ (due p.silence) .silenceTimerExpiry

def dueLine (which : LedLine) (l : Line) : List Instr :=
  when_ (due l.blink) (.blinkPhaseExpiry which) ++ when_ (due l.stretch) (.stretchTimerExpiry which)

def dueSleep (z : Sleep) : List Instr :=
  when_ (due z.grace) .graceTimerExpiry ++ when_ (due z.confirm) .confirmWindowExpiry
    ++ when_ (due z.wakeWindow) .wakeWindowExpiry ++ when_ (due z.pulse) .wakePulseEnd

/-- The expiries that are due now. The end of a diagnosis measurement carries an outcome and is a command from outside (log 30). -/
def dueCommands (s : State) : List Instr :=
  when_ (due s.store.timer) .storeExchangeUnanswered ++ dueLink s.link ++ dueIssuer s.issuer
    ++ when_ (due s.posture.settle) .settleTimerExpiry ++ when_ s.orient.dwellDue .dwellReached
    ++ when_ (due s.poller.period) .samplePeriodExpiry ++ dueGuard s.guard ++ duePen s.pen
    ++ dueLine .line1 s.policy.line1 ++ dueLine .line2 s.policy.line2 ++ dueSleep s.sleep

/-- One of several expiries due together, in the free order (R83, R161, R181, log 3). -/
def chooseDue (draw : Nat) (l : List Instr) : Option Instr := l[Config.freeOrder draw % l.length]?

end Sys2Proof.Machine
end

