-- ==== Sys2Proof/Machine/Guard.lean ====
section
/-! DEFINITION. The supply guard's figures: budget, grants, claims and releases (R122 to R131), the BUDGET notice (R133), and the
conditions of the two outputs (R134). -/
namespace Sys2Proof.Machine

/-! ## Levels (R125) -/

def levelMw : PenLevel → Nat
  | .trickle => 150 | .steady => 500 | .fast => 900

def grantMw : Option PenLevel → Nat
  | none => 0
  | some l => levelMw l

/-- The order 0, TRICKLE, STEADY, FAST. -/
def rank : Option PenLevel → Nat
  | none => 0 | some .trickle => 1 | some .steady => 2 | some .fast => 3

/-- One step lower (R125). -/
def stepLower : PenLevel → Option PenLevel
  | .fast => some .steady | .steady => some .trickle | .trickle => none

def Profiles.get (p : Profiles) : Nat → Nat
  | 0 => p.p0 | 1 => p.p1 | 2 => p.p2 | _ => p.p3

/-- The budget in force: the active profile's value (R122). -/
def Guard.budget (g : Guard) : Nat := g.profiles.get g.active

/-- The lower of two levels. -/
def minLevel (a b : PenLevel) : PenLevel := if rank (some a) ≤ rank (some b) then a else b

/-- The pen target (R125). -/
def Guard.target (g : Guard) : Option PenLevel :=
  match g.claimed, g.cap with
  | none, _ => none
  | some l, none => some l
  | some l, some c => some (minLevel l c)

/-- The highest level, at or below a limit, that fits beside a base grant in a budget (R125, R128). -/
def bestFit (budget base : Nat) (limit : PenLevel) : Option PenLevel :=
  [PenLevel.fast, .steady, .trickle].find? (fun l => rank (some l) ≤ rank (some limit) && levelMw l + base ≤ budget)

/-- The pen level below a grant beside which a base claim fits: the highest such, 0 the last (R126). -/
def stepDown (budget amount : Nat) (grant : Option PenLevel) : Option PenLevel :=
  match grant.bind stepLower with
  | none => none
  | some l => bestFit budget amount l

/-! ## Claims and releases on the grants -/

/-- The pen is re-granted (R129). -/
def Guard.regrant (g : Guard) : Guard :=
  match g.target with
  | none => g
  | some t => if rank g.penGrant < rank (some t) then { g with penGrant := bestFit g.budget g.baseGrant t } else g

/-- A pen claim for a level (R128). -/
def Guard.penClaim (g : Guard) (l : PenLevel) : Guard :=
  let g := { g with claimed := some l }
  { g with penGrant := g.target.bind (bestFit g.budget g.baseGrant) }

/-- The pen claim is released (R128). -/
def Guard.penRelease (g : Guard) : Guard := { g with claimed := none, penGrant := none }

/-- A base claim; none is a refusal (R126). -/
def Guard.baseClaim (g : Guard) (amount : Nat) : Option Guard :=
  if amount = g.baseGrant then some g
  else if amount + grantMw g.penGrant ≤ g.budget then
    let g' := { g with baseGrant := amount }
    some (if amount < g.baseGrant then g'.regrant else g')
  else if amount ≤ g.budget then
    some { g with baseGrant := amount, penGrant := stepDown g.budget amount g.penGrant }
  else none

/-- The base grant is released (R127). -/
def Guard.baseRelease (g : Guard) : Guard := if g.baseGrant = 0 then g else Guard.regrant { g with baseGrant := 0 }

/-- The pen grant after the steps of a lowered budget: stepped down until both fit, or 0 (R130 step 1). -/
def lowerPen (budget base : Nat) (grant : Option PenLevel) : Option PenLevel :=
  match grant with
  | none => none
  | some l => bestFit budget base l

/-- Profiles and active profile replaced by ones of a lower budget: the grants after R130, and the base grant cut, if any. -/
def Guard.lower (g : Guard) (profiles : Profiles) (active : Nat) : Guard × Option Nat :=
  let budget := profiles.get active
  let g' := { g with profiles := profiles, active := active, penGrant := lowerPen budget g.baseGrant g.penGrant }
  if budget < g.baseGrant then (Guard.regrant { g' with baseGrant := 0 }, some g.baseGrant) else (g', none)

/-! ## The BUDGET notice (R133) -/

/-- What a BUDGET notice is about: active profile, budget, base grant, pen grant, claimed level, cap. -/
def Guard.figures (g : Guard) : Nat × Nat × Nat × Option PenLevel × Option PenLevel × Option PenLevel :=
  (g.active, g.budget, g.baseGrant, g.penGrant, g.claimed, g.cap)

/-- A BUDGET notice with a cause, if a figure is other than it was before (R133). -/
def postBudget (before : Guard) (cause : BudgetCause) (s : State) : State :=
  if s.guard.figures = before.figures then s
  else
    let g := s.guard
    post (.budget g.active g.budget g.baseGrant g.penGrant g.claimed g.cap cause) s

/-! ## Alarms and outputs (R134 to R136) -/

def railLatched (s : State) : Bool := s.guard.alarms.railOc.latch || s.guard.alarms.railUv.latch
def coilLatched (s : State) : Bool := s.guard.alarms.coilOc.latch || s.guard.alarms.coilUv.latch

/-- A session state that draws power (R134). -/
def drawing : PenState → Bool
  | .detect | .softStart | .charging | .topped => true
  | _ => false

/-- The conditions of PEN-COIL (R134). -/
def coilConditions (s : State) : Bool :=
  s.guard.penGrant.isSome && drawing s.pen.session && !coilLatched s && !s.guard.alarms.dieOt.detected

/-- The conditions of BASE-RAIL (R134). -/
def railConditions (s : State) : Bool :=
  s.att.present && s.guard.baseGrant != 0 && !railLatched s && !s.guard.alarms.dieOt.detected

/-- A cause of an output that has gone off: raw absent, filter stopped, not detected unless latched (R135, R136). -/
def Alarm.outputOff (a : Alarm) : Alarm := { a with raw := false, filter := none, detected := a.detected && a.latch }

/-- Some cause is detected. -/
def anyDetected (a : PerCause Alarm) : Bool :=
  a.railOc.detected || a.railUv.detected || a.coilOc.detected || a.coilUv.detected || a.dieOt.detected

/-- The guard reports the detected set to the indicator input ALARM (R183). -/
def reportAlarm (s : State) : State := setInputs { s.policy.inputs with alarm := anyDetected s.guard.alarms } s

/-- The state's timer starts, with the coil on (section 8.1). -/
def armPenTimer (s : State) : State :=
  if s.guard.coilOn then
    match s.pen.session with
    | .detect => { s with pen := { s.pen with detect := startMs 800 } }
    | .softStart => { s with pen := { s.pen with ramp := startMs 120 } }
    | .charging | .topped => { s with pen := { s.pen with silence := startMs 2000 } }
    | _ => s
  else s

/-- The timers that wait for the pen are stopped (R150). -/
def stopPenTimers (s : State) : State := { s with pen := { s.pen with detect := none, ramp := none, silence := none } }

/-- PEN-COIL follows its conditions; the pen's timers stop with it and start again with it (R134, R150). -/
def switchCoil (s : State) : State :=
  let on := coilConditions s
  if on = s.guard.coilOn then s
  else if on then armPenTimer { s with guard := { s.guard with coilOn := true } }
  else
    let a := s.guard.alarms
    stopPenTimers
      { s with guard := { s.guard with coilOn := false,
                                       alarms := { a with coilOc := a.coilOc.outputOff, coilUv := a.coilUv.outputOff } } }

/-- BASE-RAIL follows its conditions (R134). -/
def switchRail (s : State) : State :=
  let on := railConditions s
  if on = s.guard.railOn then s
  else if on then { s with guard := { s.guard with railOn := true } }
  else
    let a := s.guard.alarms
    { s with guard := { s.guard with railOn := false,
                                     alarms := { a with railOc := a.railOc.outputOff, railUv := a.railUv.outputOff } } }

/-- Both outputs follow their conditions. -/
def switchOutputs (s : State) : State := reportAlarm (switchRail (switchCoil s))

end Sys2Proof.Machine
end

