-- ==== Sys2Proof/Machine/Descriptor.lean ====
section
/-! DEFINITION. Sections and the base descriptor: the walk of R4, the notes of R50, the bodies of R51 to R53. -/
namespace Sys2Proof.Machine

/-- A section met by the walk: whole, or malformed, at which the walk stops (R4). -/
inductive Section | whole (type : Byte) (body : List Byte) | malformed (type : Byte)
  deriving DecidableEq, Repr

/-- The walk over a section list of the given length bound; a section of length 0 has no body and is absent (R4). -/
def walk : Nat → List Byte → List Section
  | 0, _ => []
  | _, [] => []
  | fuel + 1, t :: r =>
    if t = 0#8 then []
    else match r with
      | [] => [.malformed t]
      | n :: r =>
        if r.length < n.toNat then [.malformed t]
        else if n = 0#8 then walk fuel r
        else .whole t (r.take n.toNat) :: walk fuel (r.drop n.toNat)

/-- The sections of a list, from the byte after the header to the total length. -/
def sectionsOf (bytes : List Byte) : List Section := walk bytes.length bytes

def Section.type : Section → Byte
  | .whole t _ => t
  | .malformed t => t

def Section.body? : Section → Option (List Byte)
  | .whole _ b => some b
  | .malformed _ => none

/-! ## The bodies (R51) -/

def beWord (a b : Byte) : Word16 := a ++ b

def parseIdentity : List Byte → Option (Word16 × Byte × Word32)
  | [m1, m0, rev, s3, s2, s1, s0] => some (beWord m1 m0, rev, beWord s3 s2 ++ beWord s1 s0)
  | _ => none

/-- The rail demand in mW and the self-powered flag. -/
def parseRail : List Byte → Option (Nat × Bool)
  | [d, f] =>
    if 5 ≤ d.toNat ∧ d.toNat ≤ 40 ∧ f.toNat ≤ 1 then some (50 * d.toNat, f == 1#8) else none
  | _ => none

/-- A list of kind codes, each kept once. -/
def keepOnce (l : List Byte) : List Byte := l.foldl (fun acc b => if acc.contains b then acc else acc ++ [b]) []

/-- The SOURCES rule: length 1 to 8, every code 0x10 to 0x13. -/
def parseSources (body : List Byte) : Option (List Byte) :=
  if 1 ≤ body.length ∧ body.length ≤ 8 ∧ body.all (fun k => 0x10 ≤ k.toNat && k.toNat ≤ 0x13) then some (keepOnce body)
  else none

/-- The WAKE rule: as SOURCES, and every code among the declared sources in use. -/
def parseWake (declared body : List Byte) : Option (List Byte) :=
  (parseSources body).filter (fun l => l.all declared.contains)

def parseMount : List Byte → Option Mount
  | [o, s] => if o.toNat ≤ 5 ∧ s.toNat ≤ 7 then some ⟨o.toNat, s.toNat⟩ else none
  | _ => none

/-! ## The notes and the values (R50) -/

/-- The value and the note of one type, from the bodies of its sections in order; none is a malformed one. -/
def valueAndNote {α : Type} (parse : List Byte → Option α) (found : List (Option (List Byte))) : Option α × Note :=
  match found with
  | [] => (none, .absent)
  | [b] => match b.bind parse with
    | some v => (some v, .taken)
    | none => (none, .badBody)
  | b :: _ :: _ => (b.bind parse, .badRepeat)

/-- The bodies of the sections of a type, in order. -/
def foundOf (sections : List Section) (t : Byte) : List (Option (List Byte)) :=
  (sections.filter (fun x => x.type = t)).map Section.body?

/-- The motion mount in use: the section's, if it was taken; noted ABSENT or BAD(BODY) none (R52); of a repeated section the first one's or,
where that one was bad, the generic profile's (R50, log 44). -/
def mountInUse (generic : GenericProfile) (taken : Option Mount) : Note → Option Mount
  | .taken => taken
  | .absent | .badBody => none
  | .badRepeat => taken.or generic.mount

/-- The identity a complete descriptor gives (R50 to R54). -/
def identityOf (generic : GenericProfile) (descriptor : List Byte) : Identity :=
  let sections := sectionsOf (descriptor.drop 3)
  let (identity, n1) := valueAndNote parseIdentity (foundOf sections 1#8)
  let (rail, n2) := valueAndNote parseRail (foundOf sections 2#8)
  let (sources, n3) := valueAndNote parseSources (foundOf sections 3#8)
  let declared := sources.getD generic.declared
  let (wake, n4) := valueAndNote (parseWake declared) (foundOf sections 4#8)
  let (mount, n5) := valueAndNote parseMount (foundOf sections 5#8)
  { idSource := some .descriptor
    model := some ((identity.map (·.1)).getD generic.model)
    revision := identity.map (·.2.1)
    serial := identity.map (·.2.2)
    railDemand := (rail.map (·.1)).getD generic.demand
    selfPowered := (rail.map (·.2)).getD generic.selfPowered
    declared := declared
    wakeKinds := wake.getD generic.wakeKinds
    mount := mountInUse generic mount n5
    notes := some ⟨n1, n2, n3, n4, n5⟩
    genericReason := none
    descriptor := some descriptor }

/-- The identity on the generic profile as a whole (R53, R54). -/
def genericIdentity (generic : GenericProfile) (reason : GenericReason) : Identity :=
  { idSource := some .generic, model := none, revision := none, serial := none
    railDemand := generic.demand, selfPowered := generic.selfPowered, declared := generic.declared
    wakeKinds := generic.wakeKinds, mount := generic.mount, notes := none, genericReason := some reason
    descriptor := none }

/-! ## The signature and the chunks (R4, R49) -/

/-- The total length a good signature gives (R4). -/
def signatureLength : List Byte → Option Nat
  | a :: b :: t :: _ => if a = 0x5A#8 ∧ b = 0x01#8 ∧ 3 ≤ t.toNat then (if t.toNat ≤ 128 then some t.toNat else none) else none
  | _ => none

/-- How many chunks a total length needs (R49). -/
def chunksNeeded (total : Nat) : Nat := (total + 31) / 32

/-- How many bytes chunk k carries (R49). -/
def chunkBytes (total k : Nat) : Nat := min 32 (total - 32 * k)

end Sys2Proof.Machine
end

