-- ==== Sys2Proof/Machine/Issuer.lean ====
section
/-! DEFINITION. The base request issuer (chapter 4): offers, answers, the ends of requests, the discard timers. -/
namespace Sys2Proof.Machine

/-- An entry has the key (R70). -/
def ReqEntry.hasKey (e : ReqEntry) (target : Nat) (command : Byte) : Bool := e.target == target && e.command == command

/-- An entry that is not finished: QUEUED or ISSUED. -/
def ReqEntry.isOpen (e : ReqEntry) : Bool := e.state != .done

/-- The hold-off BASE-REQUEST-PENDING is present while some entry is QUEUED or ISSUED (R85). -/
def issuerHold (s : State) : State := setHold .requestPending (s.issuer.table.any ReqEntry.isOpen) s

/-- A change of one entry, named by its key. -/
def changeEntry (target : Nat) (command : Byte) (f : ReqEntry → ReqEntry) (s : State) : State :=
  { s with issuer := { s.issuer with
      table := s.issuer.table.map (fun e => if e.hasKey target command then f e else e) } }

/-- The COMMAND frame of an entry (R75, R3). -/
def commandFrame (e : ReqEntry) : Frame :=
  ⟨none, 0x40#8, .base, BitVec.ofNat 8 e.target :: e.command :: e.data, false, .issuer, []⟩

/-- An entry's COMMAND is offered: admitted it is ISSUED, else the waiting offer names it (R75). -/
def offer (e : ReqEntry) (s : State) : State :=
  match s.pool.admitDown (commandFrame e) with
  | some p =>
    changeEntry e.target e.command (fun e => { e with state := .issued })
      { s with pool := p, issuer := { s.issuer with waiting := none } }
  | none => { s with issuer := { s.issuer with waiting := some (e.target, e.command) } }

/-- The issuer makes an offer when the waiting offer is empty, none is ISSUED and the link is READY or QUIET (R75). -/
def tryOffer (s : State) : State :=
  if s.issuer.waiting.isNone && s.issuer.table.all (fun e => e.state != .issued) && s.link.state.isUp then
    match s.issuer.table.find? (fun e => e.state == .queued) with
    | some e => offer e s
    | none => s
  else s

/-- The downstream queue has gained room: the waiting COMMAND is offered again (R16). -/
def reoffer (s : State) : State :=
  match s.issuer.waiting with
  | some (t, c) =>
    match s.issuer.table.find? (fun e => e.hasKey t c) with
    | some e => offer e s
    | none => s
  | none => s

/-- An entry ends with an outcome; its discard timer starts (R77 to R80, R82). -/
def ReqEntry.finish (e : ReqEntry) (o : ReqOutcome) (response : Option (List Byte)) (discardTime : Nat) : ReqEntry :=
  { e with state := .done, outcome := some o, response := response, discard := startMs discardTime }

/-- The ISSUED entry ends: the window stops, the hold-off follows, the next is offered (R77, R78, R80, R85). -/
def endIssued (e : ReqEntry) (o : ReqOutcome) (response : Option (List Byte)) (s : State) : State :=
  let s := changeEntry e.target e.command (fun e => e.finish o response s.issuer.discardTime) s
  tryOffer (issuerHold { s with issuer := { s.issuer with window := none } })

/-- A link-ending report: every QUEUED and ISSUED entry is GONE (R84). -/
def linkEnding (s : State) : State :=
  let end_ (e : ReqEntry) : ReqEntry := if e.isOpen then e.finish .gone none s.issuer.discardTime else e
  issuerHold
    { s with issuer := { s.issuer with table := s.issuer.table.map end_, window := none, waiting := none } }

/-- The ISSUED entry that an answer frame names, with its window running (R77 to R79). -/
def answered (payload : List Byte) (s : State) : Option ReqEntry :=
  match payload with
  | t :: c :: _ =>
    if s.issuer.window.isSome then
      s.issuer.table.find? (fun e => e.hasKey t.toNat c && e.state == .issued)
    else none
  | _ => none

/-- An answer that is not taken (R81). -/
def strayAnswer (s : State) : State := { s with issuer := { s.issuer with stray := satInc s.issuer.stray } }

/-- A RESPONSE reaches the issuer (R77). -/
def takeResponse (payload : List Byte) (s : State) : State :=
  match answered payload s with
  | some e => if payload.length ≤ 34 then endIssued e .ok (some (payload.drop 2)) s else strayAnswer s
  | none => strayAnswer s

/-- A REJECT reaches the issuer (R78). -/
def takeReject (payload : List Byte) (s : State) : State :=
  match answered payload s with
  | some e => endIssued e .baseRefused none s
  | none => strayAnswer s

/-- A BUSY-RESPONSE reaches the issuer (R79). -/
def takeBusy (payload : List Byte) (s : State) : State :=
  match answered payload s with
  | some e =>
    let n := e.attempts + 1
    let s := changeEntry e.target e.command (fun e => { e with attempts := n }) s
    if n < 32 then
      let s := changeEntry e.target e.command (fun e => { e with state := .queued }) s
      tryOffer { s with issuer := { s.issuer with window := none } }
    else endIssued e .gaveUp none s
  | none => strayAnswer s

/-- The response window expires (R80). -/
def responseWindowExpires (s : State) : State :=
  if s.issuer.window.isSome then
    match s.issuer.table.find? (fun e => e.state == .issued) with
    | some e => endIssued e .noResponse none s
    | none => { s with issuer := { s.issuer with window := none } }
  else s

/-- A discard timer expires: the entry and its outcome go (R82). -/
def discardExpires (target : Nat) (command : Byte) (s : State) : State :=
  if s.issuer.table.any (fun e => e.hasKey target command && e.state == .done && e.discard.isSome) then
    { s with issuer := { s.issuer with table := s.issuer.table.filter (fun e => !e.hasKey target command),
                                       discarded := satInc s.issuer.discarded } }
  else s

/-- The hinge link transmitter has completed a COMMAND frame: the window of the ISSUED entry starts (R76). -/
def commandSent (s : State) : State :=
  if s.issuer.table.any (fun e => e.state == .issued) then
    { s with issuer := { s.issuer with window := startMs 20 } }
  else s

/-! ## BASE-REQUEST (R71 to R74) -/

/-- The counts that every reply carries: QUEUED, ISSUED, DONE (R74). -/
def countState (st : ReqState) (s : State) : Nat := (s.issuer.table.filter (fun e => e.state == st)).length

/-- The status that an outcome is answered with (R191). -/
def outcomeStatus : ReqOutcome → Status
  | .ok => .ok | .baseRefused => .baseRefused | .noResponse => .noResponse | .gaveUp => .gaveUp | .gone => .gone

/-- What came of a BASE-REQUEST: the state after it, the status, and the entry it was taken against (R72, R73). -/
def baseRequestTaken (target : Nat) (command : Byte) (data : List Byte) (s : State) : State × Status × Option ReqEntry :=
  if 15 < target ∨ 32 < data.length then (s, .refused, none)
  else match s.issuer.table.find? (fun e => e.hasKey target command) with
    | some e =>
      if e.data ≠ data then (s, .mismatch, some e)
      else match e.outcome with
        | some o =>
          if e.isOpen then (s, .retry, some e)
          else
            ({ s with issuer := { s.issuer with table := s.issuer.table.filter (fun e => !e.hasKey target command) } },
             outcomeStatus o, some e)
        | none => (s, .retry, some e)
    | none =>
      if !s.link.state.isUp then (s, .notAttached, none)
      else if 6 ≤ s.issuer.table.length then (s, .full, none)
      else
        let e : ReqEntry := ⟨target, command, data, .queued, none, none, 0, none⟩
        let s := { s with issuer := { s.issuer with table := s.issuer.table ++ [e] } }
        let s := tryOffer (addHold .requestPending s)
        (s, .retry, s.issuer.table.find? (fun e => e.hasKey target command))

end Sys2Proof.Machine
end

