-- ==== Sys2Proof/Machine/Pen.lean ====
section
/-! DEFINITION. The pen charger (chapter 8): the sessions, the dock switch, the pen's statuses, holds and levels. -/
namespace Sys2Proof.Machine

/-! ## Claims on the guard (R128) -/

/-- What a change of session does to the claim. -/
inductive ClaimStep | keep | claim (l : PenLevel) | release
  deriving DecidableEq, Repr

/-- The claim or release with its BUDGET notice (R128, R133). -/
def claimStep (c : ClaimStep) (s : State) : State :=
  match c with
  | .keep => s
  | .claim l => postBudget s.guard .penClaim { s with guard := s.guard.penClaim l }
  | .release => postBudget s.guard .penRelease { s with guard := s.guard.penRelease }

/-! ## Sessions (R147) -/

/-- The CHARGE input is on (R183). -/
def chargeLevelOn : PenState → Bool
  | .softStart | .charging => true
  | _ => false

/-- A change of session state, with its claim, its hold-off, the outputs, the state's timer and its CHARGE notice (R147). -/
def goSession (new : PenState) (fault : Option FaultCause) (c : ClaimStep) (s : State) : State :=
  let old := s.pen.session
  let s := stopPenTimers { s with pen := { s.pen with session := new, fault := fault } }
  let s := setHold .chargeStarting (new == .softStart) s
  let s := armPenTimer (switchOutputs (claimStep c s))
  let s := setInputs { s.policy.inputs with charge := chargeLevelOn new } s
  post (.charge new old fault s.pen.docked s.guard.penGrant s.pen.battery) s

/-- A session that claims; a claim that finds no room makes it PAUSED at once (R128, R151, R153, R155). -/
def claimSession (new : PenState) (l : PenLevel) (s : State) : State :=
  let s := goSession new none (.claim l) s
  if s.guard.penGrant = none then goSession .paused none .keep s else s

/-- Entry to DETECT, or to HELD with a hold in force (R151, R158). -/
def enterDetect (s : State) : State :=
  if s.pen.hold.isSome then goSession .held none .release s else claimSession .detect .trickle s

/-- Entry to SOFT-START, or to HELD with a hold in force (R153, R158). -/
def enterSoftStart (s : State) : State :=
  if s.pen.hold.isSome then goSession .held none .release s else claimSession .softStart s.pen.requested s

/-- The session resumes by the docked mark (R156, R159). -/
def resumeSession (s : State) : State := if s.pen.docked then enterSoftStart s else enterDetect s

/-- Entry to FAULT (R157). -/
def enterFault (c : FaultCause) (s : State) : State := goSession .fault (some c) .release s

/-- The guard tells the charger of a change it made to the pen grant (R156). -/
def penTold (before : Option PenLevel) (s : State) : State :=
  if s.guard.penGrant = before then s
  else match s.pen.session with
    | .detect | .softStart | .charging | .topped =>
      if s.guard.penGrant = none then goSession .paused none .keep s else s
    | .paused => if s.guard.penGrant.isSome then resumeSession s else s
    | _ => s

/-- The guard tells the charger that it has set the coil's STOP latch (R157). -/
def coilLatchTold (s : State) : State :=
  match s.pen.session with
  | .noPen | .foreign => s
  | .fault => { s with pen := { s.pen with fault := some .coilLatch } }
  | _ => enterFault .coilLatch s

/-- The guard tells the charger that the last STOP latch of the coil has been cleared (R157). -/
def coilLatchGone (s : State) : State :=
  if s.pen.session = .fault ∧ s.pen.fault = some .coilLatch then enterDetect s else s

/-! ## The dock switch (R148, R149) -/

/-- The dock switch asserts. -/
def dockAsserts (s : State) : State :=
  if s.pins.dock then s
  else
    let s := { s with pins := { s.pins with dock := true } }
    if s.store.state = .starting then s
    else if s.pen.session = .noPen then { s with pen := { s.pen with debounce := startMs 100 } } else s

/-- The dock debounce expires (R148). -/
def dockDebounceExpires (s : State) : State :=
  if s.pen.debounce.isSome then
    let s := { s with pen := { s.pen with debounce := none } }
    if s.pen.session ≠ .noPen then s
    else if coilLatched s then enterFault .coilLatch s
    else enterDetect s
  else s

/-- The dock switch releases: a debounce is stopped, a session is removed (R148, R149). -/
def dockReleases (s : State) : State :=
  if !s.pins.dock then s
  else
    let s := { s with pins := { s.pins with dock := false }, pen := { s.pen with debounce := none } }
    if s.pen.session = .noPen then s
    else postEvent .penRemoved (goSession .noPen none .release { s with pen := { s.pen with docked := false } })

/-! ## Statuses (R150 to R155) -/

/-- The pen answers: docked, counted and told, if it was not (R151). -/
def penDocks (s : State) : State :=
  if s.pen.docked then s
  else postEvent .penDocked { s with pen := { s.pen with docked := true, count := wrapInc s.pen.count } }

/-- Entry to TOPPED with CHARGE-DONE. -/
def enterTopped (s : State) : State := postEvent .chargeDone (claimSession .topped .trickle s)

/-- A taken status acted on by the session (R150 to R155). -/
def actOnStatus (percent : Nat) (fullFlag faultFlag : Bool) (s : State) : State :=
  let full := percent = 100 ∨ fullFlag
  match s.pen.session with
  | .detect =>
    if s.pen.detect.isNone then s
    else
      let s := penDocks s
      if faultFlag then enterFault .penReported s
      else if full then postEvent .chargeDone (goSession .topped none .keep s)
      else enterSoftStart s
  | .softStart =>
    if faultFlag then enterFault .penReported s else if full then enterTopped s else s
  | .charging =>
    if faultFlag then enterFault .penReported s else if full then enterTopped s else armPenTimer s
  | .topped =>
    if faultFlag then enterFault .penReported s
    else if percent ≤ 92 ∧ ¬ fullFlag then claimSession .charging s.pen.requested s
    else armPenTimer s
  | _ => s

/-- An undamaged PEN-STATUS frame handed to the charger: taken when it is 3 bytes with a percent of 0 to 100 (R150). -/
def penStatusTap (payload : List Byte) (s : State) : State :=
  match payload with
  | [percent, _temperature, flags] =>
    if percent.toNat ≤ 100 then
      actOnStatus percent.toNat (flags.getLsbD 0) (flags.getLsbD 1)
        { s with pen := { s.pen with battery := some percent.toNat } }
    else s
  | _ => s

/-- The detect window expires (R152). -/
def detectExpires (s : State) : State :=
  if s.pen.detect.isSome then
    if s.pen.docked then enterFault .penSilent s else goSession .foreign none .release s
  else s

/-- The ramp timer expires (R153). -/
def rampExpires (s : State) : State := if s.pen.ramp.isSome then goSession .charging none .keep s else s

/-- The silence timer expires (R157). -/
def silenceExpires (s : State) : State := if s.pen.silence.isSome then enterFault .penSilent s else s

/-! ## Holds and levels (R158 to R160) -/

/-- A session that a hold sends to HELD (R158). -/
def holdStops : PenState → Bool
  | .detect | .softStart | .charging | .topped | .paused => true
  | _ => false

/-- A hold claim (R158). -/
def holdClaim (src : ClaimSource) (s : State) : State :=
  match s.pen.hold with
  | none =>
    let s := { s with pen := { s.pen with hold := some src } }
    if holdStops s.pen.session then goSession .held none .release s else s
  | some .policy => { s with pen := { s.pen with hold := some src } }
  | some .request => s

/-- A release claim; CHARGE-ALLOW leaves a hold of source REQUEST (R159). -/
def releaseClaim (src : ClaimSource) (s : State) : State :=
  if s.pen.hold = none ∨ (src = .policy ∧ s.pen.hold = some .request) then s
  else
    let s := { s with pen := { s.pen with hold := none } }
    if s.pen.session = .held then resumeSession s else s

/-- A requested level (R160). -/
def setRequested (l : PenLevel) (s : State) : State :=
  let old := s.pen.requested
  let s := { s with pen := { s.pen with requested := l } }
  match s.pen.session with
  | .softStart | .charging =>
    if l = old then s
    else
      let s := switchOutputs (claimStep (.claim l) s)
      if s.guard.penGrant = none then goSession .paused none .keep s else s
  | .paused =>
    if s.pen.docked then
      let s := claimStep (.claim l) s
      if s.guard.penGrant.isSome then enterSoftStart s else s
    else s
  | _ => s

end Sys2Proof.Machine
end

