-- ==== Sys2Proof/Machine/Posture.lean ====
section
/-! DEFINITION. The posture unit (chapter 5): the hinge encoder, settling, referencing, the windows, the evaluation. -/
namespace Sys2Proof.Machine

/-! ## Windows and the evaluation (R99, R100, R103, R104) -/

/-- The lid is closed: the switch asserted and the base present (R94). -/
def State.lidIsClosed (s : State) : Bool := s.pins.lidClosed && s.att.present

/-- A window's condition against the candidate orientation (R99). -/
def condHolds (c : WindowCond) (o : Orientation) : Bool :=
  match c with
  | .any => true
  | .upright => o == .landscape
  | .inverted => o == .landscapeInverted

/-- An enabled window whose range widened by so much holds the count and whose condition holds (R99, R100). -/
def windowTakes (w : Window) (widen count : Nat) (o : Orientation) : Bool :=
  decide (w.lower ≤ w.upper) && condHolds w.cond o && decide (w.lower - widen ≤ count) && decide (count ≤ w.upper + widen)

/-- The window chosen from the count: the one in force if its widened range holds it, else the lowest that holds it (R100). -/
def chooseWindow (windows : List Window) (inForce : Option Nat) (count : Nat) (o : Orientation) : Option Nat :=
  let kept := inForce.filter (fun i => (windows[i]?).any (fun w => windowTakes w w.hysteresis count o))
  kept.or (windows.findIdx? (fun w => windowTakes w 0 count o))

/-- The four postures that windows give. -/
def isWindowPosture : Posture → Bool
  | .laptop | .stand | .tent | .tablet => true
  | .closed | .slate | .unknown => false

/-- What the evaluation gives: the posture and the window in force (R103). -/
def evaluated (s : State) : Posture × Option Nat :=
  let p := s.posture
  if !s.att.present then (.slate, none)
  else if s.lidIsClosed then (.closed, none)
  else if p.lidOpened then (.unknown, none)
  else match p.count with
    | none => (.unknown, none)
    | some count =>
      if p.moving then (p.posture, p.window)
      else match chooseWindow p.windows p.window count s.orient.candidate with
        | some i => (((p.windows[i]?).map Window.posture).getD p.posture, some i)
        | none => if isWindowPosture p.posture then (p.posture, p.window) else (.unknown, none)

/-- A posture evaluation; a new posture posts POSTURE and POSTURE-CHANGED (R103, R104). -/
def evaluate (s : State) : State :=
  let (new, window) := evaluated s
  let old := s.posture.posture
  if new = old then { s with posture := { s.posture with window := window } }
  else
    postEvent (.postureChanged old new)
      (post (.posture new old s.posture.count s.posture.moving)
        { s with posture := { s.posture with posture := new, previous := some old, window := window } })

/-! ## Settling (R91) -/

/-- A movement: MOVING, the settle timer started, HINGE-MOVING held (R91). -/
def movement (s : State) : State :=
  addHold .hingeMoving { s with posture := { s.posture with moving := true, settle := startMs s.posture.settleTime } }

/-- The settle timer expires (R91). -/
def settleExpires (s : State) : State :=
  let s := removeHold .hingeMoving { s with posture := { s.posture with moving := false, settle := none } }
  evaluate { s with posture := { s.posture with lidOpened := false } }

/-! ## Referencing (R93 to R98) -/

/-- Two counts differ by more than 4. -/
def farApart (a b : Nat) : Bool := decide (a > b + 4) || decide (b > a + 4)

/-- A reference gives a count (R93). A gravity reference within 4 counts leaves count and source (R98). -/
def applyReference (src : RefSource) (count : Nat) (s : State) : State :=
  match s.posture.count with
  | none => { s with posture := { s.posture with count := some count, refSource := some src } }
  | some before =>
    if farApart before count then
      post (.encoderSlip src before count)
        { s with posture := { s.posture with count := some count, refSource := some src, slips := satInc s.posture.slips } }
    else if src = .gravity then s
    else { s with posture := { s.posture with count := some count, refSource := some src } }

/-- A reference, with the evaluation that a change of the reference state or of the count triggers (R93, R102). -/
def reference (src : RefSource) (count : Nat) (s : State) : State :=
  let s' := applyReference src count s
  if s'.posture.count = s.posture.count then s' else evaluate s'

/-! ## The encoder (R88 to R90) -/

/-- The position of a code; 000 and 111 have none (R88). The code is read with switch A as bit 2, B as bit 1 and C as bit 0, by the model's
choice (log 56). -/
def codePosition (c : BitVec 3) : Option Nat :=
  match c.toNat with
  | 4 => some 0 | 6 => some 1 | 2 => some 2 | 3 => some 3 | 1 => some 4 | 5 => some 5
  | _ => none

/-- A fault is counted and posted, and the reference is lost (R90). -/
def faultNoted (c : EncoderCause) (code : BitVec 3) (s : State) : State :=
  post (.encoderFault c code s.posture.count)
    { s with posture := { s.posture with count := none, faults := satInc s.posture.faults } }

/-- An encoder fault: noted, reported to settling as a movement, and with the loss of the reference an evaluation (R90). -/
def encoderFault (c : EncoderCause) (code : BitVec 3) (s : State) : State :=
  let s' := movement (faultNoted c code s)
  if s.posture.count.isSome then evaluate s' else s'

/-- The steps of a change by so many positions forward, a jump of three apart (R89). -/
def stepsOf : Nat → Int
  | 1 => 1 | 2 => 2 | 4 => -2 | 5 => -1
  | _ => 0

/-- The count after so many steps, held at the ends by the switches; none is out of range (R89). -/
def countAfter (pins : Pins) (count : Nat) (steps : Int) : Option Nat :=
  let n : Int := count + steps
  if n < 0 then if pins.lidClosed then some 0 else none
  else if 180 < n then if pins.foldFlat then some 180 else none
  else some n.toNat

/-- A movement by so many steps (R89). A change of two positions is checked as one, by the model's choice: where the first of its steps
would stay within 0 to 180 and the second leaves it, the RANGE notice carries the count before both (log 47). -/
def moveBy (code : BitVec 3) (steps : Int) (s : State) : State :=
  match s.posture.count with
  | none => movement s
  | some count =>
    match countAfter s.pins count steps with
    | some n => movement { s with posture := { s.posture with count := some n } }
    | none => encoderFault .range code s

/-- A valid code read at a position (R89, R90). -/
def codeRead (code : BitVec 3) (pos : Nat) (s : State) : State :=
  let s' := { s with posture := { s.posture with lastCode := some pos, resync := false } }
  match s.posture.lastCode with
  | none => movement s'
  | some last =>
    if s.posture.resync then movement s'
    else
      let forward := (pos + 6 - last) % 6
      if forward = 0 then s'
      else if forward = 3 then encoderFault .oppositeJump code s'
      else moveBy code (stepsOf forward) s'

/-- The code of the hinge switches changes; with the base absent it is not read (R88, R89, R90). -/
def codeChanges (code : BitVec 3) (s : State) : State :=
  if code = s.pins.code then s
  else
    let s := { s with pins := { s.pins with code := code } }
    if !s.att.present then s
    else match codePosition code with
      | some pos => codeRead code pos s
      | none => encoderFault .invalidCode code { s with posture := { s.posture with resync := true } }

/-! ## The two switches (R94, R95) -/

/-- The lid becomes closed (R94). -/
def lidCloses (s : State) : State :=
  postEvent .lidClosed (applyReference .lidSwitch 0 { s with posture := { s.posture with lidOpened := false } })

/-- The lid-closed switch asserts. -/
def lidAsserts (s : State) : State :=
  if s.pins.lidClosed then s
  else
    let s := { s with pins := { s.pins with lidClosed := true } }
    if s.att.present then evaluate (lidCloses s) else s

/-- The lid-closed switch releases. -/
def lidReleases (s : State) : State :=
  if !s.pins.lidClosed then s
  else
    let s := { s with pins := { s.pins with lidClosed := false } }
    if s.att.present then
      evaluate (postEvent .lidOpened (movement { s with posture := { s.posture with lidOpened := true } }))
    else s

/-- The fold-flat switch asserts (R95). -/
def foldFlatAsserts (s : State) : State :=
  if s.pins.foldFlat then s
  else
    let s := { s with pins := { s.pins with foldFlat := true } }
    if s.att.present && !s.pins.lidClosed then reference .flatSwitch 180 s else s

/-- The fold-flat switch releases: its recorded level alone (R95). -/
def foldFlatReleases (s : State) : State := { s with pins := { s.pins with foldFlat := false } }

/-! ## Presence (R106) -/

/-- The encoder code is read at presence (R88). -/
def readCode (s : State) : State :=
  match codePosition s.pins.code with
  | some pos => { s with posture := { s.posture with lastCode := some pos, resync := false } }
  | none => faultNoted .invalidCode s.pins.code { s with posture := { s.posture with lastCode := none, resync := true } }

/-- The base has become present (R106). -/
def posturePresent (s : State) : State :=
  let s := readCode s
  let s := removeHold .hingeMoving
    { s with posture := { s.posture with count := none, moving := false, settle := none, lidOpened := false, window := none } }
  if s.pins.lidClosed then evaluate (lidCloses s)
  else if s.pins.foldFlat then evaluate (applyReference .flatSwitch 180 s)
  else evaluate s

/-- The base is detached; `present` is already no (R106). -/
def postureDetached (s : State) : State :=
  let s := removeHold .hingeMoving
    { s with posture := { s.posture with count := none, moving := false, settle := none, lidOpened := false,
                                         lastCode := none, resync := false, lidRun := none, baseRun := none } }
  evaluate (if s.pins.lidClosed then postEvent .lidOpened s else s)

/-! ## Gravity (R96 to R98) -/

/-- Two values within 40 mg. -/
def near (a b : Int) : Bool := decide ((a - b).natAbs ≤ 40)

/-- A sample continues a run (R96): no more than 200 ms later, each axis within 40 mg. -/
def continuesRun (r : Run) (now : Nat) (x y z : Int) : Bool :=
  decide (now - r.last ≤ ms 200) && near x r.x && near y r.y && near z r.z

/-- The run with a sample taken, and whether it is a new run. -/
def takeSample (r : Option Run) (now : Nat) (x y z : Int) : Run × Bool :=
  match r.filter (fun r => continuesRun r now x y z) with
  | some r => (⟨r.first, now, x, y, z⟩, false)
  | none => (⟨now, now, x, y, z⟩, true)

/-- A unit is still (R96). -/
def isStill (r : Run) : Bool := decide (ms 400 ≤ r.last - r.first)

/-- A last sample that gravity can be read from (R97). -/
def usable (r : Run) : Bool :=
  decide (r.x.natAbs ≤ 800) && (decide (100 ≤ r.y.natAbs) || decide (100 ≤ r.z.natAbs))

/-- The hinge count from the two last samples: (180 + a_l − a_b) mod 360, halved and rounded (R97). The vector is
−(z_l + i y_l)(z_b − i y_b), whose angle that is (log 27). -/
def gravityCount (lid base : Run) : Nat :=
  halfAngle (-(lid.z * base.z + lid.y * base.y)) (-(lid.y * base.z - lid.z * base.y))

/-- The conditions of a gravity check after a sample was taken into the run `this` (R97). -/
def checkIsDue (s : State) (this other : Run) : Bool :=
  s.link.state.isUp && s.att.ident.mount.isSome && isStill this && isStill other
    && decide (this.last - other.last ≤ ms 200) && !s.posture.checked && !s.posture.moving
    && !s.pins.lidClosed && !s.pins.foldFlat && usable this && usable other

/-- A gravity check, if one is due, with the reference it gives (R97, R98). -/
def gravityCheck (thisIsLid : Bool) (s : State) : State :=
  match s.posture.lidRun, s.posture.baseRun with
  | some lid, some base =>
    let this := if thisIsLid then lid else base
    let other := if thisIsLid then base else lid
    if checkIsDue s this other then
      reference .gravity (gravityCount lid base) { s with posture := { s.posture with checked := true } }
    else s
  | _, _ => s

/-- A lid sample handed to the posture unit (R96). -/
def postureLidSample (x y z : Int) (s : State) : State :=
  let (r, new) := takeSample s.posture.lidRun s.now x y z
  gravityCheck true { s with posture := { s.posture with lidRun := some r, checked := s.posture.checked && !new } }

/-- A base sample corrected by the mount (R52). -/
def corrected (m : Mount) (x y z : Int) : Int × Int × Int :=
  let (cx, cy, cz) := match m.order with
    | 0 => (x, y, z) | 1 => (x, z, y) | 2 => (y, x, z) | 3 => (y, z, x) | 4 => (z, x, y) | _ => (z, y, x)
  let bit (n : Nat) := (m.signs / 2 ^ n) % 2 = 1
  (if bit 0 then -cx else cx, if bit 1 then -cy else cy, if bit 2 then -cz else cz)

/-- A base sample handed to the posture unit: taken while the link is READY or QUIET and the base has a mount (R96). -/
def postureBaseSample (x y z : Int) (s : State) : State :=
  match s.att.ident.mount with
  | some m =>
    if s.link.state.isUp then
      let (x, y, z) := corrected m x y z
      let (r, new) := takeSample s.posture.baseRun s.now x y z
      gravityCheck false { s with posture := { s.posture with baseRun := some r, checked := s.posture.checked && !new } }
    else s
  | none => s

end Sys2Proof.Machine
end

