-- ==== Sys2Proof/Machine/Link.lean ====
section
/-! DEFINITION. The hinge link controller (chapter 3): link states, powering, training, identification, the running link,
rail trouble, detach, base reset and diagnosis. -/
namespace Sys2Proof.Machine

/-! ## Changes of link state (R42) -/

/-- A state in which the record's rate field can hold a rate (R42). -/
def keepsRate : LinkState → Bool
  | .training | .identifying | .ready | .quiet | .diagnosing => true
  | _ => false

/-- A state in which BASE-IDENTIFYING is held (R42). -/
def identifyingHeld : LinkState → Bool
  | .powering | .training | .identifying => true
  | _ => false

/-- A change of link state, with its reports: the NO-BASE mark is cleared, the base run discarded, the hold-off and the ATTACH
input follow (R42, R96, R183). -/
def setLinkState (new : LinkState) (s : State) : State :=
  let s := { s with link := { s.link with state := new, rate := if keepsRate new then s.link.rate else none }
                    route := { s.route with noBase := false }
                    posture := { s.posture with baseRun := none } }
  let s := setHold .baseIdentifying (identifyingHeld new) s
  setInputs { s.policy.inputs with attach := new.isUp } s

/-- Every timer of the link is stopped, and what waits for one (R61 to R63). -/
def stopLinkTimers (s : State) : State :=
  { s with link := { s.link with quietWaits := false, kaDue := false, resetAfterRail := false, debounce := none, railUp := none,
                                 echo := none, retry := none, describe := none, quiet := none, wake := none,
                                 keepAlive := none, kaWindow := none, resetDrive := none, diag := none } }

/-- A running diagnosis ends early: the record is kept (R68). -/
def endDiagnosis (cause : DiagEnd) (s : State) : State :=
  if s.link.state = .diagnosing then
    { s with att := { s.att with diagnosis := s.att.diagnosis.map (fun d => { d with endedBy := some cause }) } }
  else s

/-! ## Rail claims and releases (R126, R127) -/

/-- The base grant is released with its BUDGET notice; the pen is told of its re-grant (R127, R133). -/
def releaseBase (s : State) : State :=
  let before := s.guard
  let s := { s with guard := s.guard.baseRelease }
  penTold before.penGrant (switchOutputs (postBudget before .baseRelease s))

/-- A base claim; the second value is whether it was granted (R126). By itself it posts its BUDGET notice and the pen is told
at once; within a raised budget both come once, at the end of the raise (R131, R133). -/
def claimBase (withinRaise : Bool) (amount : Nat) (s : State) : State × Bool :=
  match s.guard.baseClaim amount with
  | some g =>
    let before := s.guard
    let s := { s with guard := g }
    if withinRaise then (switchOutputs s, true)
    else (penTold before.penGrant (switchOutputs (postBudget before .baseClaim s)), true)
  | none => (s, false)

/-! ## Where links end (R61, R62) -/

/-- Entry to UNPOWERED, with the demand refused or cut (R61, log 23). BASE-REQUEST-PENDING and BASE-IDENTIFYING are removed before the pen's
re-grant may add CHARGE-STARTING; R174 allows either order (log 45). -/
def enterUnpowered (demand : Nat) (s : State) : State :=
  let s := linkEnding (stopLinkTimers (endDiagnosis .unpowered s))
  let s := setLinkState .unpowered (flushDown s)
  post (.attach (.unpowered demand)) (releaseBase s)

/-- Entry to FAULTED (R62). The hold-offs of the link are removed before the pen's re-grant may add CHARGE-STARTING (R174, log 45). -/
def enterFaulted (s : State) : State :=
  let s := linkEnding (stopLinkTimers (endDiagnosis .faulted s))
  let s := setLinkState .faulted (flushDown s)
  postEvent .baseFault (post (.attach .faulted) (releaseBase s))

/-! ## Powering and training (R45 to R47) -/

/-- The 250 mW attach allowance (R45). -/
def allowance : Nat := 250

/-- Entry to POWERING with the claim of the allowance (R45). BASE-IDENTIFYING is added before the claim steps the pen down, which may remove
CHARGE-STARTING: an expired grace stays GRACE. R174 allows either order; log 45. -/
def enterPowering (withinRaise : Bool) (s : State) : State :=
  let s := setLinkState .powering s
  let (s, granted) := claimBase withinRaise allowance s
  if granted then { s with link := { s.link with railUp := startMs 20 } } else enterUnpowered allowance s

/-- An attempt at a rate: the pattern is sent and the echo window starts (R46). -/
def attemptAt (r : Rate) (n : Nat) (s : State) : State :=
  { s with link := { s.link with rate := some r, attempt := n, echo := startMs 10 } }

/-- Training begins at FAST (R46). -/
def startTraining (s : State) : State := attemptAt .fast 1 (setLinkState .training s)

/-- Training preceded by the 50 ms reset drive, in which there is no rate (R65, R42). -/
def startResetDrive (s : State) : State :=
  let s := setLinkState .training s
  { s with link := { s.link with rate := none, resetDrive := startMs 50 } }

/-- Entry to UNREACHABLE (R47). -/
def enterUnreachable (s : State) : State :=
  let s := setLinkState .unreachable s
  post (.link .unreachable) { s with link := { s.link with echo := none, retry := startMs 1000 } }

/-- The rate tried after the third failure at a rate (R46). -/
def nextRate : Rate → Option Rate
  | .fast => some .middle | .middle => some .slow | .slow => none

/-- A training attempt fails (R46). -/
def attemptFails (s : State) : State :=
  match s.link.rate with
  | some r =>
    if s.link.attempt < 3 then attemptAt r (s.link.attempt + 1) s
    else match nextRate r with
      | some r' => attemptAt r' 1 s
      | none => enterUnreachable s
  | none => enterUnreachable s

/-! ## Identification (R48, R49, R54) -/

/-- DESCRIBE is sent for a chunk and its 20 ms window starts (R48). -/
def askChunk (chunk attempt : Nat) (s : State) : State :=
  { s with link := { s.link with chunk := chunk, chunkTry := attempt, describe := startMs 20 } }

/-- The training pattern came back unchanged: the link enters IDENTIFYING (R46, R48). -/
def attemptSucceeds (s : State) : State :=
  let s := setLinkState .identifying { s with link := { s.link with echo := none } }
  askChunk 0 1 { s with link := { s.link with chunks := [] } }

/-- Entry to READY at the end of an identification (R54). -/
def enterReady (s : State) : State :=
  let s := setLinkState .ready s
  let first := s.link.session != .hasBeenReady
  let s := { s with link := { s.link with damagedRun := 0, quiet := startMs 250, keepAlive := startMs 500,
                                          session := .hasBeenReady } }
  let s :=
    if first then postEvent .baseAttached (post (.attach (.attached s.att.ident.idSource s.att.ident.model)) s)
    else post (.link (.restored s.link.rate)) s
  tryOffer s

/-- Identification ends: the identity is written as a whole and the rail is settled (R54). A re-grant of the pen, which may add
CHARGE-STARTING, comes before READY removes BASE-IDENTIFYING (R174, log 45). -/
def identificationEnds (i : Identity) (s : State) : State :=
  let s := { s with att := { s.att with ident := i }, link := { s.link with describe := none } }
  if i.selfPowered then enterReady (releaseBase s)
  else
    let (s, granted) := claimBase false i.railDemand s
    if granted then enterReady s else enterUnpowered i.railDemand s

/-- The window of a chunk expires (R48). -/
def describeExpires (s : State) : State :=
  if s.link.describe.isSome then
    if s.link.chunkTry < 4 then askChunk s.link.chunk (s.link.chunkTry + 1) s
    else identificationEnds (genericIdentity s.generic (.chunkFailed s.link.chunk)) s
  else s

/-- A frame that the controller drops (R56). -/
def linkDrops (s : State) : State := { s with att := { s.att with linkDropped := satInc s.att.linkDropped } }

/-- The total length known from chunk 0 on: of the bytes taken so far or, for chunk 0, of the answer itself (R49). -/
def totalLength (s : State) (bytes : List Byte) : Option Nat :=
  signatureLength (if s.link.chunk = 0 then bytes else s.link.chunks)

/-- An undamaged descriptor answer in IDENTIFYING: the chunk number and its bytes (R48, R49). -/
def takeChunk (number : Byte) (bytes : List Byte) (s : State) : State :=
  let k := s.link.chunk
  if number.toNat ≠ k ∨ (k = 0 ∧ bytes.length < 3) then linkDrops s
  else match totalLength s bytes with
    | none => identificationEnds (genericIdentity s.generic .badSignature) s
    | some total =>
      if bytes.length ≠ chunkBytes total k then linkDrops s
      else
        let all := s.link.chunks ++ bytes
        let s := { s with link := { s.link with chunks := all } }
        if k + 1 < chunksNeeded total then askChunk (k + 1) 1 s
        else identificationEnds (identityOf s.generic all) s

/-! ## The running link (R57 to R60) -/

/-- Link loss (R60). The requests end before the training begins, so BASE-REQUEST-PENDING is removed before BASE-IDENTIFYING is added: an
expired grace whose set that empties ends in the question. R174 allows either order; log 45. -/
def linkLoss (s : State) : State :=
  let s := post (.link .lost) (stopLinkTimers s)
  startTraining (flushDown (linkEnding s))

/-- Entry to QUIET: the keep-alive timer stops (R57). -/
def enterQuiet (s : State) : State :=
  let s := setLinkState .quiet s
  { s with link := { s.link with quiet := none, keepAlive := none, quietWaits := false } }

/-- The quiet timer expires (R57). With a frame in the downstream queue and a keep-alive window open at once, R57 has the entry wait and the
timer restart; the timer restarts, by the model's choice (log 53). -/
def quietExpires (s : State) : State :=
  if s.link.quiet.isSome then
    if s.pool.down ≠ [] then { s with link := { s.link with quiet := startMs 250 } }
    else if s.link.kaWindow.isSome then { s with link := { s.link with quiet := none, quietWaits := true } }
    else enterQuiet s
  else s

/-- The 2 ms wake time expires: READY (R58). The damaged-frame run goes on as it stands: R54 sets it to 0 on entering READY, among what the
end of an identification does, and R58 does not list it for the wake; that it is kept here is the model's choice (log 50). -/
def wakeTimeExpires (s : State) : State :=
  if s.link.wake.isSome then
    let s := setLinkState .ready s
    tryOffer { s with link := { s.link with wake := none, quiet := startMs 250, keepAlive := startMs 500 } }
  else s

/-- A WAKE-SIGNAL in QUIET starts the wake time (R58). -/
def wakeSignalled (s : State) : State :=
  if s.link.wake.isNone then { s with link := { s.link with wake := startMs 2 } } else s

/-- The keep-alive is sent and its 10 ms echo window opens (R59). -/
def sendKeepAlive (s : State) : State := { s with link := { s.link with kaDue := false, kaWindow := startMs 10 } }

/-- The keep-alive timer expires: the keep-alive is sent as soon as the frame being transmitted completes (R59). -/
def keepAliveExpires (s : State) : State :=
  if s.link.keepAlive.isSome then
    let s := { s with link := { s.link with keepAlive := none } }
    if s.pool.hingeBusy then { s with link := { s.link with kaDue := true } } else sendKeepAlive s
  else s

/-- The keep-alive echo arrives in its window (R59); a QUIET that waited for it is entered, whatever came or went meanwhile (R57, log
20). -/
def keepAliveEchoes (s : State) : State :=
  if s.link.kaWindow.isSome then
    let s := { s with link := { s.link with kaWindow := none, keepAlive := startMs 500 } }
    if s.link.quietWaits then enterQuiet s else s
  else s

/-- The hinge link transmitter completes its frame (R15, R16, R57, R59, R76). -/
def hingeFrameDone (s : State) : State :=
  if s.pool.hingeBusy then
    match s.pool.down with
    | f :: rest =>
      let s := { s with pool := { s.pool with down := rest, hingeBusy := false } }
      let s := { s with link := { s.link with quiet := startMs 250 } }
      let s := if f.origin = .issuer then commandSent s else s
      let s := if s.link.kaDue then sendKeepAlive s else s
      reoffer s
    | [] => s
  else s

/-! ## Presence and detach (R43, R44, R63, R64) -/

/-- The presence pin asserts (R43). -/
def presenceAsserts (s : State) : State :=
  if s.pins.presence then s
  else
    let s := { s with pins := { s.pins with presence := true } }
    if s.store.state = .starting then s
    else if s.link.state = .absent then
      let s := setLinkState .settling s
      { s with link := { s.link with debounce := startMs 50 } }
    else s

/-- The debounce expires: the base is present and a session begins (R44). The posture unit removes HINGE-MOVING before POWERING adds
BASE-IDENTIFYING (R174, log 45), and its events come before a BASE-FAULT (R164, log 4). -/
def debounceExpires (s : State) : State :=
  if s.link.debounce.isSome then
    let s := { s with link := { s.link with debounce := none, session := .opened }
                      att := { s.att with present := true, attachCount := wrapInc s.att.attachCount } }
    let s := switchOutputs (posturePresent s)
    if railLatched s then enterFaulted s else enterPowering false s
  else s

/-- A detach (R63). The hold-offs of the link are removed before the pen's re-grant may add CHARGE-STARTING, and HINGE-MOVING after it (R174,
log 45); the posture unit's events come before BASE-DETACHED (R164, log 4). -/
def detachBase (s : State) : State :=
  let s := endDiagnosis .detach s
  let s := { s with att := { s.att with present := false }, link := { s.link with session := .none } }
  let s := flushDown (linkEnding (stopLinkTimers s))
  let s := releaseBase (setLinkState .absent s)
  let s := postureDetached s
  post (.attach .detached) (postEvent .baseDetached s)

/-- The presence pin releases: SETTLING ends quietly, any later state is detached (R43, R63). -/
def presenceReleases (s : State) : State :=
  if !s.pins.presence then s
  else
    let s := { s with pins := { s.pins with presence := false } }
    match s.link.state with
    | .absent => s
    | .settling => setLinkState .absent { s with link := { s.link with debounce := none } }
    | _ => detachBase s

/-! ## The link's other timers -/

/-- The rail-up timer expires: training, or the reset drive after BASE-RESET in UNPOWERED (R45, R65). -/
def railUpExpires (s : State) : State :=
  if s.link.railUp.isSome then
    let reset := s.link.resetAfterRail
    let s := { s with link := { s.link with railUp := none, resetAfterRail := false } }
    if reset then startResetDrive s else startTraining s
  else s

/-- The retry timer expires: training begins again (R47). -/
def retryExpires (s : State) : State :=
  if s.link.retry.isSome then startTraining { s with link := { s.link with retry := none } } else s

/-- The reset drive ends: attempts at FAST (R65). -/
def resetDriveExpires (s : State) : State :=
  if s.link.resetDrive.isSome then attemptAt .fast 1 { s with link := { s.link with resetDrive := none } } else s

/-- The echo of the training pattern arrives in its window (R46). -/
def trainingEchoes (unchanged : Bool) (s : State) : State :=
  if s.link.echo.isSome then if unchanged then attemptSucceeds s else attemptFails s else s

/-- The echo window expires (R46). -/
def echoExpires (s : State) : State := if s.link.echo.isSome then attemptFails s else s

/-- The keep-alive window expires: link loss (R59). -/
def keepAliveWindowExpires (s : State) : State := if s.link.kaWindow.isSome then linkLoss s else s

/-! ## BASE-RESET and LINK-DIAGNOSE (R65 to R67) -/

/-- BASE-RESET (R65). BASE-REQUEST-PENDING is removed before BASE-IDENTIFYING is added, as in linkLoss (R174, log 45). -/
def baseResetTaken (s : State) : State × Status :=
  match s.link.state with
  | .ready | .quiet | .unreachable =>
    (startResetDrive (flushDown (linkEnding (stopLinkTimers s))), .accepted)
  | .unpowered =>
    let s := enterPowering false s
    ((if s.link.state = .powering then { s with link := { s.link with resetAfterRail := true } } else s), .accepted)
  | .faulted => (s, .locked)
  | _ => (s, .busy)

/-- A fresh diagnosis record (R66). -/
def Diagnosis.fresh (from_ : LinkState) : Diagnosis := ⟨from_, none, none, none, none, false, none⟩

/-- LINK-DIAGNOSE (R66). -/
def linkDiagnoseTaken (s : State) : State × Status :=
  match s.link.state with
  | .ready | .quiet | .unreachable =>
    if s.issuer.table.any ReqEntry.isOpen then (s, .busy)
    else
      let s := { s with att := { s.att with diagnosis := some (Diagnosis.fresh s.link.state) } }
      let s := setLinkState .diagnosing (stopLinkTimers (flushDown s))
      ({ s with link := { s.link with diag := some 75 } }, .accepted)
  | _ => (s, .busy)

/-- The outcome of the next pin is written (R67). -/
def Diagnosis.measure (d : Diagnosis) (o : PinOutcome) : Diagnosis :=
  match d.dataPlus, d.dataMinus, d.presence with
  | none, _, _ => { d with dataPlus := some o }
  | some _, none, _ => { d with dataMinus := some o }
  | some _, some _, none => { d with presence := some o }
  | some _, some _, some _ => { d with railSense := some o, complete := true, endedBy := some .finished }

/-- A measurement of the diagnosis ends (R67). -/
def measurementEnds (o : PinOutcome) (s : State) : State :=
  match s.att.diagnosis with
  | some d =>
    if s.link.diag.isSome then
      let d := d.measure o
      let s := { s with att := { s.att with diagnosis := some d } }
      if d.complete then
        let s := { s with link := { s.link with diag := none } }
        startTraining (post (.link (.diagnosed d.dataPlus d.dataMinus d.presence d.railSense)) s)
      else { s with link := { s.link with diag := some 75 } }
    else s
  | none => s

end Sys2Proof.Machine
end

