-- ==== Sys2Proof/Machine/Budget.lean ====
section
/-! DEFINITION. Changes of the budget in force: lowered, raised, and the requests and claims that make them (R122 to R124, R130,
R131). -/
namespace Sys2Proof.Machine

/-- A lowered budget (R130). -/
def lowerBudget (profiles : Profiles) (active : Nat) (s : State) : State :=
  let before := s.guard
  let (g, cut) := s.guard.lower profiles active
  let s := switchOutputs (postBudget before .budget { s with guard := g })
  let s := match cut with
    | some demand => enterUnpowered demand s
    | none => s
  penTold before.penGrant s

/-- A raised budget: a base waiting UNPOWERED claims first, then the pen is re-granted (R131). -/
def raiseBudget (profiles : Profiles) (active : Nat) (s : State) : State :=
  let before := s.guard
  let s := { s with guard := { s.guard with profiles := profiles, active := active } }
  let s := if s.link.state = .unpowered ∧ s.att.present then enterPowering true s else s
  let s := { s with guard := s.guard.regrant }
  penTold before.penGrant (switchOutputs (postBudget before .budget s))

/-- Profiles and active profile replaced: a lowering, a raising, or neither (R122). -/
def changeBudget (profiles : Profiles) (active : Nat) (s : State) : State :=
  let new := profiles.get active
  if new < s.guard.budget then lowerBudget profiles active s
  else if s.guard.budget < new then raiseBudget profiles active s
  else { s with guard := { s.guard with profiles := profiles, active := active } }

/-- BUDGET-PROFILE(n) (R123). -/
def budgetProfile (n : Nat) (s : State) : State :=
  if n = s.guard.active then s else changeBudget s.guard.profiles n s

/-- A value of BUDGET-SET is in range (R124). -/
def valueOk (v : Option Nat) : Bool := v.all (fun n => decide (n ≤ 4500) && n % 50 == 0)

/-- BUDGET-SET (R124). -/
def budgetSetTaken (a : BudgetArg) (s : State) : State × Status :=
  if a.profile.all (fun n => decide (n ≤ 3)) && valueOk a.value0 && valueOk a.value1 && valueOk a.value2 && valueOk a.value3 then
    let p := s.guard.profiles
    let p : Profiles := ⟨a.value0.getD p.p0, a.value1.getD p.p1, a.value2.getD p.p2, a.value3.getD p.p3⟩
    (changeBudget p (a.profile.getD s.guard.active) s, .ok)
  else (s, .refused)

end Sys2Proof.Machine
end

