-- ==== Sys2Proof/Machine/Orientation.lean ====
section
/-! DEFINITION. The orientation unit (chapter 6): the candidate, the dwell, the current orientation and its lock. -/
namespace Sys2Proof.Machine

/-- The dwell of the candidate is met (R115). -/
def dwellMet (s : State) : Bool := decide (ms s.orient.dwell ≤ s.orient.stable)

/-- The current orientation takes the candidate (R116). -/
def takeCandidate (s : State) : State :=
  let o := s.orient
  post (.orientation o.candidate o.current o.candidate o.flat o.lock.isSome)
    { s with orient := { o with current := o.candidate, previous := some o.current } }

/-- The test of R115: dwell met, candidate other than current, lock released. -/
def testDwell (s : State) : State :=
  if dwellMet s ∧ s.orient.candidate ≠ s.orient.current ∧ s.orient.lock = none then takeCandidate s else s

/-- The lock with its report to the indicator input LOCK (R117, R183). -/
def setLock (l : Option ClaimSource) (s : State) : State :=
  setInputs { s.policy.inputs with lock := l.isSome } { s with orient := { s.orient with lock := l } }

/-- A lock claim (R117). -/
def lockClaim (src : ClaimSource) (s : State) : State := setLock (some src) s

/-- A free claim (R117, R118). -/
def freeClaim (s : State) : State := if s.orient.lock.isSome then testDwell (setLock none s) else s

/-- A sample is flat (R112). -/
def isFlat (z : Int) : Bool := decide (850 < z.natAbs)

/-- A sample that is not flat has a direction (R113). -/
def hasDirection (x y : Int) : Bool := decide (200 ≤ x.natAbs) || decide (200 ≤ y.natAbs)

/-- The quadrant of φ, given half of it rounded to the nearest whole degree, a half up (R113, log 27). -/
def quadrant (h : Nat) : Orientation :=
  if h < 23 ∨ 158 ≤ h then .landscapeInverted
  else if h < 68 then .portrait
  else if h < 113 then .landscape
  else .portraitInverted

/-- φ lies in the widened range of a candidate (R113). -/
def inWidened (o : Orientation) (h : Nat) : Bool :=
  match o with
  | .landscapeInverted => decide (h ≤ 27) || decide (153 ≤ h)
  | .portrait => decide (18 ≤ h) && decide (h ≤ 72)
  | .landscape => decide (63 ≤ h) && decide (h ≤ 117)
  | .portraitInverted => decide (108 ≤ h) && decide (h ≤ 162)

/-- The candidate after a sample (R112, R113): φ is the angle atan2(x, y). -/
def candidateAfter (old : Orientation) (x y z : Int) : Orientation :=
  if isFlat z then old
  else if !hasDirection x y then old
  else
    let h := halfAngle y x
    if inWidened old h then old else quadrant h

/-- A new candidate restarts the stable time and is reported to the posture unit, which evaluates if SETTLED (R114, R102). -/
def setCandidate (c : Orientation) (s : State) : State :=
  if c = s.orient.candidate then s
  else
    let s := { s with orient := { s.orient with candidate := c, stable := 0, dwellDue := false } }
    if s.posture.moving then s else evaluate s

/-- An undamaged lid sample (R111). -/
def orientSample (x y z : Word16) (s : State) : State :=
  let c := candidateAfter s.orient.candidate x.toInt y.toInt z.toInt
  setCandidate c { s with orient := { s.orient with sample := some (x, y, z), flat := isFlat z.toInt } }

/-- The stable time reaches the dwell (R115, log 28). -/
def dwellReached (s : State) : State :=
  testDwell { s with orient := { s.orient with stable := max s.orient.stable (ms s.orient.dwell), dwellDue := false } }

/-- A new dwell is taken (R115). -/
def setDwell (n : Nat) (s : State) : State :=
  testDwell { s with orient := { s.orient with dwell := n, dwellDue := false } }

end Sys2Proof.Machine
end

