-- ==== Sys2Proof/Machine/PolicyEngine.lean ====
section
/-! DEFINITION. The policy engine (R164 to R167): matching, reduction, claims. -/
namespace Sys2Proof.Machine

/-- The base condition holds (R166). -/
def baseCondHolds (c : BaseCond) (s : State) : Bool :=
  match c with
  | .any => true
  | .attached => s.link.state.isUp
  | .absent => !s.att.present

/-- The pen condition holds (R166). -/
def penCondHolds (c : PenCond) (s : State) : Bool :=
  match c with
  | .any => true
  | .docked => s.pen.docked
  | .undocked => !s.pen.docked

/-- The two posture sets are consulted for POSTURE-CHANGED alone (R166). -/
def setsHold (e : PolicyEntry) : PolicyEvent → Bool
  | .postureChanged old new => inPostures e.fromSet old && inPostures e.toSet new
  | _ => true

/-- An entry matches an event (R166). -/
def policyMatches (ev : PolicyEvent) (s : State) (e : PolicyEntry) : Bool :=
  e.valid && e.event == ev.kind && setsHold e ev && baseCondHolds e.baseCond s && penCondHolds e.penCond s
    && inHosts e.hosts s.sleep.power

/-- The switches (R167). -/
inductive Switch | lock | hold | profile | line (l : LedLine)
  deriving DecidableEq, Repr

/-- The switch an action sets; the sleep actions set none (R167). -/
def switchOf : PolicyAction → Option Switch
  | .orientLock | .orientFree => some .lock
  | .chargeHold | .chargeAllow => some .hold
  | .budgetProfile _ => some .profile
  | .indicate l _ _ => some (.line l)
  | .sleepBegin | .sleepCancel | .wake => none

/-- An action that a later one of the same switch discards. -/
def overridden (a : PolicyAction) (later : List PolicyAction) : Bool :=
  (switchOf a).isSome && later.any (fun b => switchOf b == switchOf a)

/-- Of the gathered actions that set one switch, the last stands (R167). -/
def reduceActions : List PolicyAction → List PolicyAction
  | [] => []
  | a :: r => if overridden a r then reduceActions r else a :: reduceActions r

/-- The actions an event gives, gathered and reduced, against one state (R167). -/
def actionsFor (ev : PolicyEvent) (s : State) : List PolicyAction :=
  reduceActions ((s.policy.table.filter (policyMatches ev s)).flatMap PolicyEntry.actions)

/-- A claim reaches its owner (R167). -/
def issueClaim (ev : PolicyEvent) (a : PolicyAction) (s : State) : State :=
  match a with
  | .sleepBegin => sleepBegin s
  | .sleepCancel => cancelSleep .sleepCancel s
  | .wake => wakeClaim (.event ev.kind) s
  | .orientLock => lockClaim .policy s
  | .orientFree => freeClaim s
  | .chargeHold => holdClaim .policy s
  | .chargeAllow => releaseClaim .policy s
  | .budgetProfile n => budgetProfile n s
  | .indicate l src p => indicate l src p s

/-- The policy engine takes an event, with the claims it issues (R167). -/
def takeEvent (ev : PolicyEvent) (s : State) : State := (actionsFor ev s).foldl (fun s a => issueClaim ev a s) s

/-- The events posted in the change are taken in the order posted (R164). -/
def drainEvents (s : State) : State :=
  s.policy.events.foldl (fun s ev => takeEvent ev s) { s with policy := { s.policy with events := [] } }

end Sys2Proof.Machine
end

