-- ==== Sys2Proof/Machine/Change.lean ====
section
/-! DEFINITION. One indivisible change: a command's own effect, then what the change brings about in the policy engine and the two
transmitters (spec/95_what_each_step_holds.md, log 4). -/
namespace Sys2Proof.Machine

/-- What follows every command's own effect: the events posted are taken, the hinge link transmitter and the uplink transmitter make
their next choice (R164, R15, R8). -/
def finish (s : State) : State := startTransmit (kickHinge (drainEvents s))

/-- A command's effect as one change; with the reset line asserted it has none (R209, log 18). -/
def run (f : State → State) (s : State) : State := if s.held then s else finish (f s)

/-- The answer of every meaning: no command faults or is refused (log 40). -/
def answer (s : State) : Host.Outcome State Fault Refusal := .next s

/-- A change of a pin: its level is the outside world's, with the reset line asserted as well. -/
def runPin (level : Pins → Pins) (f : State → State) (s : State) : State :=
  if s.held then { s with pins := level s.pins } else finish (f s)

end Sys2Proof.Machine
end

