-- ==== Sys2Proof/Machine/Route.lean ====
section
/-! DEFINITION. The route engine (chapter 2): arrival, taps, ingress checks, matching, damage, thinning and action. -/
namespace Sys2Proof.Machine

/-! ## Counters (R35, R36) -/

/-- A change of one source's ingress counters. -/
def changeIngress (src : Source) (f : Ingress → Ingress) (s : State) : State :=
  { s with route := { s.route with ingress := s.route.ingress.set src (f (s.route.ingress.get src)) } }

/-- A change of one entry of the table. -/
def changeRoute (i : Nat) (f : RouteEntry → RouteEntry) (s : State) : State :=
  { s with route := { s.route with table := s.route.table.modify i f } }

/-! ## Taps (R22) -/

/-- Three signed 16-bit values, most significant byte first (R3). -/
def motionOf : List Byte → Option (Word16 × Word16 × Word16)
  | [x1, x0, y1, y0, z1, z0] => some (x1 ++ x0, y1 ++ y0, z1 ++ z0)
  | _ => none

/-- A frame handed to its observers: the posture unit before the orientation unit (R22, log 4); a motion frame that is not
6 bytes has no sample (log 22). -/
def tapFrame (src : Source) (payload : List Byte) (s : State) : State :=
  match src with
  | .lidMotion =>
    match motionOf payload with
    | some (x, y, z) => drainEvents (orientSample x y z (drainEvents (postureLidSample x.toInt y.toInt z.toInt s)))
    | none => s
  | .baseMotion =>
    match motionOf payload with
    | some (x, y, z) => drainEvents (postureBaseSample x.toInt y.toInt z.toInt s)
    | none => s
  | .penStatus => drainEvents (penStatusTap payload s)
  | _ => s

/-! ## The ingress checks (R25, R26) -/

/-- One of the four base sources. -/
def isBaseSource : Source → Bool
  | .baseKeys | .basePointer | .baseMotion | .baseStatus => true
  | .lidMotion | .penStatus | .uplink => false

/-- A base frame whose kind is not in the declared list in force (R25). -/
def undeclared (src : Source) (kind : Byte) (s : State) : Bool :=
  isBaseSource src && !(s.link.state.isUp && s.att.ident.declared.contains kind)

/-- An UPLINK frame dropped for the link, with the one LINK(NO-BASE) notice per change of link state (R26). -/
def dropForLink (s : State) : State :=
  let s := changeIngress .uplink (fun c => { c with unmatched := satInc c.unmatched }) s
  if s.route.noBase then s
  else post (.link (.noBase s.link.state)) { s with route := { s.route with noBase := true } }

/-! ## Matching (R27, R28) -/

/-- The model condition of an entry (R27). -/
def modelHolds (m : Option Word16) (s : State) : Bool :=
  match m with
  | none => true
  | some m => s.link.state.isUp && s.att.ident.idSource == some .descriptor && s.att.ident.model == some m

/-- A frame matches an entry (R27). -/
def routeMatches (src : Source) (kind : Byte) (s : State) (e : RouteEntry) : Bool :=
  let f := e.fields
  f.valid && f.source == src && f.kind.all (fun k => k == kind.toNat) && inPostures f.postures s.posture.posture
    && inViews f.views (viewOf s.sleep.power) && modelHolds f.model s

/-- The matched entry: the lowest index that matches (R28). -/
def matchedEntry (src : Source) (kind : Byte) (s : State) : Option Nat :=
  s.route.table.findIdx? (routeMatches src kind s)

/-! ## The action (R32 to R34) -/

/-- A frame offered to its queue; without room it is dropped and counted (R32). -/
def forwardFrame (src : Source) (kind : Byte) (payload : List Byte) (damaged : Bool) (i : Nat) (dest : Dest) (s : State) : State :=
  let offered :=
    if src = .uplink then s.pool.admitDown ⟨some src, kind, .base, payload, false, .routed, []⟩
    else s.pool.admitUp ⟨some src, kind, dest, payload, damaged, .routed, []⟩
  match offered with
  | some p => { s with pool := p }
  | none =>
    changeIngress src (fun c => { c with overrun := satInc c.overrun })
      (changeRoute i (fun e => { e with queueFull := satInc e.queueFull }) s)

/-- A frame acted on: counted, then forwarded, dropped, turned into a wake claim, or both (R32 to R34). -/
def actOnFrame (src : Source) (kind : Byte) (payload : List Byte) (damaged : Bool) (i : Nat) (f : RouteFields) (s : State) :
    State :=
  let s := changeRoute i (fun e => { e with passed := wrapInc e.passed }) s
  match f.action with
  | .forward => forwardFrame src kind payload damaged i f.dest s
  | .drop => s
  | .wake => wakeClaim (.frame src) s
  | .forwardWake => wakeClaim (.frame src) (forwardFrame src kind payload damaged i f.dest s)

/-- Thinning: the phase counter advances, and the frame that brings it to N is acted on (R31). -/
def thinFrame (src : Source) (kind : Byte) (payload : List Byte) (damaged : Bool) (i : Nat) (e : RouteEntry) (s : State) : State :=
  if e.fields.keepN ≤ e.phase + 1 then
    actOnFrame src kind payload damaged i e.fields (changeRoute i (fun e => { e with phase := 0 }) s)
  else changeRoute i (fun e => { e with phase := e.phase + 1 }) s

/-- Classification: matching, the damage policy, thinning, the action (R27 to R34). -/
def classify (src : Source) (kind : Byte) (payload : List Byte) (damaged : Bool) (s : State) : State :=
  match matchedEntry src kind s with
  | none => changeIngress src (fun c => { c with unmatched := satInc c.unmatched }) s
  | some i =>
    match s.route.table[i]? with
    | none => s
    | some e =>
      if damaged ∧ e.fields.damage = .dropDamaged then
        changeIngress src (fun c => { c with damaged := satInc c.damaged }) s
      else thinFrame src kind payload damaged i e s

/-- The checks after the taps, then classification (R25, R26). -/
def decideFrame (src : Source) (kind : Byte) (payload : List Byte) (damaged : Bool) (s : State) : State :=
  if undeclared src kind s then changeIngress src (fun c => { c with undeclared := satInc c.undeclared }) s
  else if src = .uplink ∧ ¬ s.link.state.isUp then dropForLink s
  else classify src kind payload damaged s

/-- A frame reaches the route engine (R21 to R24); during start-up it is discarded uncounted. -/
def routeFrame (src : Source) (kind : Byte) (payload : List Byte) (damaged : Bool) (s : State) : State :=
  if s.store.state = .starting then s
  else
    let s := changeIngress src (fun c => { c with received := wrapInc c.received }) s
    if 64 < payload.length then changeIngress src (fun c => { c with tooLong := satInc c.tooLong }) s
    else decideFrame src kind payload damaged (if damaged then s else tapFrame src payload s)

end Sys2Proof.Machine
end

