-- ==== Sys2Proof/WellFormed.lean ====
section
/-! DEFINITION. Which commands are well formed: every operand fits the field of the wire or the list it comes from.
exec gives every command an effect, well formed or not; a request argument that is out of its owner's range is well formed
and is answered REFUSED by the owner's rule. -/
namespace Sys2Proof

/-- Fits one byte of a payload (R194). -/
def fits8 (n : Nat) : Bool := n < 256

/-- Fits two bytes of a payload (R194). -/
def fits16 (n : Nat) : Bool := n < 65536

/-- An optional argument fits when it is not carried or its value does. -/
def fitsOpt (fits : Nat → Bool) : Option Nat → Bool
  | none => true
  | some n => fits n

def RawRoute.wf (e : RawRoute) : Bool :=
  fits8 e.source && fitsOpt fits8 e.kind && fits8 e.postures && fits8 e.views && fitsOpt fits16 e.model
    && fits8 e.action && fitsOpt fits8 e.dest && fits8 e.keepN && fits8 e.damage

def RawWindow.wf (w : RawWindow) : Bool :=
  fits8 w.lower && fits8 w.upper && fits8 w.hysteresis && fits8 w.posture && fits8 w.cond

def RawAction.wf : RawAction → Bool
  | .plain c => fits8 c && c != 8 && c != 9
  | .budgetProfile n => fits8 n
  | .indicate l s p => fits8 l && fits8 s && fits8 p

def RawPolicy.wf (e : RawPolicy) : Bool :=
  fits8 e.event && fits8 e.fromSet && fits8 e.toSet && fits8 e.baseCond && fits8 e.penCond && fits8 e.hosts
    && fits8 e.actions.length && e.actions.all RawAction.wf

def SettingsArg.wf (a : SettingsArg) : Bool :=
  fitsOpt fits16 a.grace && fitsOpt fits16 a.settle && fitsOpt fits16 a.dwell && fitsOpt fits8 a.rate
    && fitsOpt fits16 a.discard && fitsOpt fits16 a.enables

def GuardArg.wf (a : GuardArg) : Bool :=
  fitsOpt fits8 a.filterRailOc && fitsOpt fits8 a.filterRailUv && fitsOpt fits8 a.filterCoilOc
    && fitsOpt fits8 a.filterCoilUv && fitsOpt fits8 a.mode

def BudgetArg.wf (a : BudgetArg) : Bool :=
  fitsOpt fits8 a.profile && fitsOpt fits16 a.value0 && fitsOpt fits16 a.value1 && fitsOpt fits16 a.value2
    && fitsOpt fits16 a.value3

/-- The four kinds of base traffic (R3, R56). -/
def isTrafficKind (k : Byte) : Bool := k == 0x10#8 || k == 0x11#8 || k == 0x12#8 || k == 0x13#8

/-- The kinds R3 lists as sent by the base. -/
def isBaseKind (k : Byte) : Bool :=
  isTrafficKind k || k == 0x20#8 || k == 0x21#8 || k == 0x22#8 || k == 0x30#8

/-- The request codes of R193, 0x01 to 0x17. -/
def isRequestCode (c : Byte) : Bool := 1 ≤ c.toNat && c.toNat ≤ 0x17

/-- A command is well formed: its operands fit. -/
def Instr.wf : Instr → Bool
  | .storeReadAnswered bytes => bytes.length ≤ 2048
  | .dataParcel _ payload => payload.length ≤ 240
  | .requestParcel _ payload => payload.length ≤ 240
  | .unknownRequest code => !isRequestCode code
  | .routeTableWrite i e => fits8 i && e.wf
  | .windowTableWrite i w => fits8 i && w.wf
  | .policyTableWrite i e => fits8 i && e.wf
  | .routeTableRead i => fits8 i
  | .windowTableRead i => fits8 i
  | .policyTableRead i => fits8 i
  | .splitSet d => fits8 d
  | .settingsSet a => a.wf
  | .baseRequest t _ data => fits8 t && fits8 data.length
  | .alarmClear m => fits8 m
  | .guardSet a => a.wf
  | .budgetSet a => a.wf
  | .indicateSet l s p => fits8 l && fits8 s && fits8 p
  | .baseTrafficFrame k payload _ => isTrafficKind k && fits8 payload.length
  | .response payload _ => fits8 payload.length
  | .busyResponse payload _ => fits8 payload.length
  | .reject payload _ => fits8 payload.length
  | .wakeSignal payload _ => fits8 payload.length
  | .unlistedKindFrame k payload _ => !isBaseKind k && fits8 payload.length
  | .discardTimerExpiry t _ => t < 16
  | .penStatus payload _ => fits8 payload.length
  | .coldReset | .restartTakesEffect | .storeExchangeUnanswered | .pageWriteTaken | .receiveFault _ | .parcelSent
  | .hello | .countersReadUplink | .countersReadRoute | .countersReadIssuer | .countersReadPosture
  | .recordReadPosture | .recordReadOrientation | .recordReadAttachment | .recordReadCharge | .recordReadSupply
  | .recordReadSleep | .recordReadStore | .baseReset | .linkDiagnose | .alarmRead | .chargeSetLevel _
  | .chargeSetHold | .chargeSetRelease | .chargeSetRestart | .orientSetLock | .orientSetFree | .sleepConfirm
  | .sleepDecline | .hostSleep | .storeSave | .storeErase | .restart | .presenceAssert | .detach | .debounceExpiry
  | .railUpExpiry | .trainingEcho _ | .echoWindowExpiry | .retryTimerExpiry | .describeWindowExpiry
  | .quietTimerExpiry | .wakeTimeExpiry | .keepaliveTimerExpiry | .keepaliveEcho | .keepaliveWindowExpiry
  | .resetDriveExpiry | .diagnosisMeasurementEnd _ | .hingeFrameSent | .responseWindowExpiry | .encoderCodeChange _
  | .settleTimerExpiry | .lidSwitchAssert | .lidSwitchRelease | .foldFlatAssert | .foldFlatRelease
  | .samplePeriodExpiry | .lidMotion _ _ _ _ | .dwellReached | .alarmRawAppears _ | .alarmRawClears _
  | .filterTimerExpiry _ | .dieOtDetected | .dieOtCleared | .dockSwitchAssert | .dockDebounceExpiry | .penRemoval
  | .detectWindowExpiry | .rampTimerExpiry | .silenceTimerExpiry | .graceTimerExpiry | .confirmWindowExpiry
  | .wakePulseEnd | .wakeWindowExpiry | .blinkPhaseExpiry _ | .stretchTimerExpiry _ | .resetLineAsserted => true

end Sys2Proof
end

