-- ==== Sys2Proof/Machine/HingeFrames.lean ====
section
/-! DEFINITION. Frames received from the base (R3, R48, R56, R58). -/
namespace Sys2Proof.Machine

/-- A frame whose CRC-8 is not the one received is damaged (R3). -/
def isDamaged (kind : Byte) (payload : List Byte) (check : Byte) : Bool :=
  check != crc8 (kind :: BitVec.ofNat 8 payload.length :: payload)

/-- The damaged-frame run after a frame (R56). -/
def noteRun (damaged : Bool) (s : State) : State :=
  { s with link := { s.link with damagedRun := if damaged then s.link.damagedRun + 1 else 0 } }

/-- A frame received in READY restarts the quiet timer and, undamaged, the keep-alive timer (R56); an entry to QUIET that waits for a
keep-alive window goes on waiting (R57, log 20). -/
def restartTimers (damaged : Bool) (s : State) : State :=
  let l := s.link
  { s with link := { l with quiet := startMs 250
                            keepAlive := if damaged then l.keepAlive else startMs 500 } }

/-- A run of three damaged frames is link loss (R56, R60). -/
def lossByRun (s : State) : State :=
  if 3 ≤ s.link.damagedRun ∧ s.link.state.isUp then linkLoss s else s

/-- A frame received in READY, taken by its kind, and then the run looked at (R56, log 4). -/
def receivedReady (damaged : Bool) (take : State → State) (s : State) : State :=
  lossByRun (take (restartTimers damaged (noteRun damaged s)))

/-- A frame received in QUIET, and then the run looked at (R58). -/
def receivedQuiet (damaged : Bool) (take : State → State) (s : State) : State := lossByRun (take (noteRun damaged s))

/-- The source of a kind of base traffic (R20, R21). -/
def sourceOfKind (k : Byte) : Source :=
  if k = 0x10#8 then .baseKeys else if k = 0x11#8 then .basePointer else if k = 0x12#8 then .baseMotion else .baseStatus

/-- A frame of kind 0x10 to 0x13 (R48, R56, R58). -/
def trafficArrives (kind : Byte) (payload : List Byte) (check : Byte) (s : State) : State :=
  let damaged := isDamaged kind payload check
  let take := routeFrame (sourceOfKind kind) kind payload damaged
  match s.link.state with
  | .identifying => take s
  | .ready => receivedReady damaged take s
  | .quiet =>
    if s.att.ident.wakeKinds.contains kind then receivedQuiet damaged (if damaged then id else take) s
    else receivedQuiet damaged linkDrops s
  | _ => s

/-- A descriptor answer by its form: target 0xFF, command 0x41 (R3). -/
def isDescribeAnswer : List Byte → Bool
  | t :: c :: _ => t == 0xFF#8 && c == 0x41#8
  | _ => false

/-- An undamaged RESPONSE in IDENTIFYING: a descriptor answer, or the issuer's (R48). -/
def responseIdentifying (payload : List Byte) (s : State) : State :=
  if isDescribeAnswer payload then
    match payload with
    | _ :: _ :: number :: bytes => takeChunk number bytes s
    | _ => linkDrops s
  else takeResponse payload s

/-- A RESPONSE frame (R48, R56). -/
def responseArrives (payload : List Byte) (check : Byte) (s : State) : State :=
  let damaged := isDamaged 0x20#8 payload check
  match s.link.state with
  | .identifying => if damaged then linkDrops s else responseIdentifying payload s
  | .ready =>
    receivedReady damaged (if damaged || isDescribeAnswer payload then linkDrops else takeResponse payload) s
  | .quiet => receivedQuiet damaged linkDrops s
  | _ => s

/-- A BUSY-RESPONSE or REJECT frame, by what the issuer does with it (R48, R56). -/
def answerArrives (kind : Byte) (issuer : List Byte → State → State) (payload : List Byte) (check : Byte) (s : State) : State :=
  let damaged := isDamaged kind payload check
  match s.link.state with
  | .identifying => if damaged then linkDrops s else issuer payload s
  | .ready => receivedReady damaged (if damaged then linkDrops else issuer payload) s
  | .quiet => receivedQuiet damaged linkDrops s
  | _ => s

/-- A WAKE-SIGNAL frame (R48, R56, R58). -/
def wakeSignalArrives (payload : List Byte) (check : Byte) (s : State) : State :=
  let damaged := isDamaged 0x30#8 payload check
  match s.link.state with
  | .identifying => if damaged then linkDrops s else s
  | .ready => receivedReady damaged (if damaged then linkDrops else id) s
  | .quiet => receivedQuiet damaged (if damaged then id else wakeSignalled) s
  | _ => s

/-- A frame of a kind not listed in R3 as sent by the base (R48, R56, R58). -/
def unlistedArrives (kind : Byte) (payload : List Byte) (check : Byte) (s : State) : State :=
  let damaged := isDamaged kind payload check
  match s.link.state with
  | .identifying => linkDrops s
  | .ready => receivedReady damaged linkDrops s
  | .quiet => receivedQuiet damaged linkDrops s
  | _ => s

end Sys2Proof.Machine
end

