-- ==== Sys2Proof/Machine/LinkEvents.lean ====
section
/-! DEFINITION. The meanings of the hinge link's and the issuer's events (R42 to R87). -/
namespace Sys2Proof.Machine

/-- PRESENCE_ASSERT (R43). -/
def execPresenceAssert (s : State) : Host.Outcome State Fault Refusal :=
  answer (runPin (fun p => { p with presence := true }) presenceAsserts s)

/-- DETACH: the presence pin releases (R43, R63). -/
def execDetach (s : State) : Host.Outcome State Fault Refusal :=
  answer (runPin (fun p => { p with presence := false }) presenceReleases s)

/-- DEBOUNCE_EXPIRY (R44). -/
def execDebounceExpiry (s : State) : Host.Outcome State Fault Refusal := answer (run debounceExpires s)

/-- RAIL_UP_EXPIRY (R45, R65). -/
def execRailUpExpiry (s : State) : Host.Outcome State Fault Refusal := answer (run railUpExpires s)

/-- TRAINING_ECHO (R46). -/
def execTrainingEcho (unchanged : Bool) (s : State) : Host.Outcome State Fault Refusal :=
  answer (run (trainingEchoes unchanged) s)

/-- ECHO_WINDOW_EXPIRY (R46). -/
def execEchoWindowExpiry (s : State) : Host.Outcome State Fault Refusal := answer (run echoExpires s)

/-- RETRY_TIMER_EXPIRY (R47). -/
def execRetryTimerExpiry (s : State) : Host.Outcome State Fault Refusal := answer (run retryExpires s)

/-- DESCRIBE_WINDOW_EXPIRY (R48). -/
def execDescribeWindowExpiry (s : State) : Host.Outcome State Fault Refusal := answer (run describeExpires s)

/-- BASE_TRAFFIC_FRAME (R48, R56, R58). -/
def execBaseTrafficFrame (kind : Byte) (payload : List Byte) (check : Byte) (s : State) : Host.Outcome State Fault Refusal :=
  answer (run (trafficArrives kind payload check) s)

/-- RESPONSE (R48, R49, R77). -/
def execResponse (payload : List Byte) (check : Byte) (s : State) : Host.Outcome State Fault Refusal :=
  answer (run (responseArrives payload check) s)

/-- BUSY_RESPONSE (R79). -/
def execBusyResponse (payload : List Byte) (check : Byte) (s : State) : Host.Outcome State Fault Refusal :=
  answer (run (answerArrives 0x21#8 takeBusy payload check) s)

/-- REJECT (R78). -/
def execReject (payload : List Byte) (check : Byte) (s : State) : Host.Outcome State Fault Refusal :=
  answer (run (answerArrives 0x22#8 takeReject payload check) s)

/-- WAKE_SIGNAL (R56, R58). -/
def execWakeSignal (payload : List Byte) (check : Byte) (s : State) : Host.Outcome State Fault Refusal :=
  answer (run (wakeSignalArrives payload check) s)

/-- UNLISTED_KIND_FRAME (R48, R56, R58). -/
def execUnlistedKindFrame (kind : Byte) (payload : List Byte) (check : Byte) (s : State) : Host.Outcome State Fault Refusal :=
  answer (run (unlistedArrives kind payload check) s)

/-- QUIET_TIMER_EXPIRY (R57). -/
def execQuietTimerExpiry (s : State) : Host.Outcome State Fault Refusal := answer (run quietExpires s)

/-- WAKE_TIME_EXPIRY (R58). -/
def execWakeTimeExpiry (s : State) : Host.Outcome State Fault Refusal := answer (run wakeTimeExpires s)

/-- KEEPALIVE_TIMER_EXPIRY (R59). -/
def execKeepaliveTimerExpiry (s : State) : Host.Outcome State Fault Refusal := answer (run keepAliveExpires s)

/-- KEEPALIVE_ECHO (R59, R57). -/
def execKeepaliveEcho (s : State) : Host.Outcome State Fault Refusal := answer (run keepAliveEchoes s)

/-- KEEPALIVE_WINDOW_EXPIRY (R59, R60). -/
def execKeepaliveWindowExpiry (s : State) : Host.Outcome State Fault Refusal := answer (run keepAliveWindowExpires s)

/-- RESET_DRIVE_EXPIRY (R65). -/
def execResetDriveExpiry (s : State) : Host.Outcome State Fault Refusal := answer (run resetDriveExpires s)

/-- DIAGNOSIS_MEASUREMENT_END (R67). -/
def execDiagnosisMeasurementEnd (outcome : PinOutcome) (s : State) : Host.Outcome State Fault Refusal :=
  answer (run (measurementEnds outcome) s)

/-- HINGE_FRAME_SENT (R15, R16, R76). -/
def execHingeFrameSent (s : State) : Host.Outcome State Fault Refusal := answer (run hingeFrameDone s)

/-- RESPONSE_WINDOW_EXPIRY (R80). -/
def execResponseWindowExpiry (s : State) : Host.Outcome State Fault Refusal := answer (run responseWindowExpires s)

/-- DISCARD_TIMER_EXPIRY (R82). -/
def execDiscardTimerExpiry (target : Nat) (command : Byte) (s : State) : Host.Outcome State Fault Refusal :=
  answer (run (discardExpires target command) s)

end Sys2Proof.Machine
end

