-- ==== Sys2Proof/Machine/Operands.lean ====
section
/-! DEFINITION. The operand forms of the uplink: how arguments, records and entries are written as bytes (R194), how the
payload of a request is read (R192, R193), and the checks of the table entries a request carries (R37, R101, R168). -/
namespace Sys2Proof.Machine

/-! ## Values as bytes (R194) -/

/-- A number in one byte. -/
def enc8 (n : Nat) : List Byte := [BitVec.ofNat 8 n]

/-- A number in two bytes, most significant first. -/
def enc16 (n : Nat) : List Byte := [BitVec.ofNat 8 (n / 256), BitVec.ofNat 8 n]

/-- A number in four bytes, most significant first. -/
def enc32 (n : Nat) : List Byte := enc16 (n / 65536) ++ enc16 n

def encWord (w : Word16) : List Byte := enc16 w.toNat

/-- A value of a list of two: the first of the list is sent as 1, the second as 2. -/
def encTwo (first : Bool) : List Byte := if first then [1#8] else [2#8]

/-- An optional value: its mark, then the value when present. -/
def encOpt {α : Type} (enc : α → List Byte) : Option α → List Byte
  | none => [0#8]
  | some a => 1#8 :: enc a

/-- A list: its length in one byte, then its members. -/
def encList {α : Type} (enc : α → List Byte) (l : List α) : List Byte := BitVec.ofNat 8 l.length :: l.flatMap enc

/-- A run of data bytes. -/
def encRun (l : List Byte) : List Byte := BitVec.ofNat 8 l.length :: l

/-- The nth value of a list, counting from 1. -/
def pick {α : Type} (l : List α) : Nat → Option α
  | 0 => none
  | n + 1 => l[n]?

/-- The position of a value in its list, counting from 1. -/
def position {α : Type} [DecidableEq α] (l : List α) (a : α) : Nat := l.idxOf a + 1

/-- A named value of a field with the given list of values. -/
def encNamed {α : Type} [DecidableEq α] (l : List α) (a : α) : List Byte := enc8 (position l a)

/-! ## The lists of values, each in the order its field gives them -/

/-- R2, R20: the position is the source code. -/
def sourceList : List Source := [.lidMotion, .baseKeys, .basePointer, .baseMotion, .baseStatus, .penStatus, .uplink]
def actionList : List RouteAction := [.forward, .drop, .wake, .forwardWake]
def damageList : List DamagePolicy := [.dropDamaged, .passMarked]
def postureList : List Posture := [.closed, .laptop, .stand, .tent, .tablet, .slate, .unknown]
def windowPostureList : List Posture := [.laptop, .stand, .tent, .tablet]
def windowCondList : List WindowCond := [.any, .upright, .inverted]
def eventList : List EventKind :=
  [.lidClosed, .lidOpened, .postureChanged, .baseAttached, .baseDetached, .baseFault, .penDocked, .penRemoved, .chargeDone,
   .supplyAlarm]
def baseCondList : List BaseCond := [.any, .attached, .absent]
def penCondList : List PenCond := [.any, .docked, .undocked]
def powerList : List Power := [.awake, .grace, .sleepAsked, .asleep, .waking]
def lineList : List LedLine := [.line1, .line2]
def ledSourceList : List LedSource := [.charge, .attach, .alarm, .lock, .on, .off]
def ledPatternList : List LedPattern := [.steady, .blink, .stretch]
def rateList : List SampleRate := [.hz12, .hz25, .hz50, .hz100]
def linkStateList : List LinkState :=
  [.absent, .settling, .powering, .training, .identifying, .ready, .quiet, .diagnosing, .unreachable, .unpowered, .faulted]
def linkRateList : List Rate := [.fast, .middle, .slow]
def idSourceList : List IdSource := [.descriptor, .generic]
def noteList : List Note := [.taken, .absent, .badBody, .badRepeat]
def pinOutcomeList : List PinOutcome := [.good, .openPin, .short, .marginal]
def diagFromList : List LinkState := [.ready, .quiet, .unreachable]
def diagEndList : List DiagEnd := [.finished, .detach, .unpowered, .faulted]
def refSourceList : List RefSource := [.lidSwitch, .flatSwitch, .gravity]
def orientationList : List Orientation := [.landscape, .portrait, .landscapeInverted, .portraitInverted]
def claimSourceList : List ClaimSource := [.policy, .request]
def penStateList : List PenState :=
  [.noPen, .detect, .foreign, .softStart, .charging, .topped, .paused, .held, .fault]
def faultCauseList : List FaultCause := [.penSilent, .penReported, .coilLatch]
/-- The requested level: FAST, STEADY, TRICKLE (R160, R162). -/
def requestedList : List PenLevel := [.fast, .steady, .trickle]
/-- The claimed level: TRICKLE, STEADY, FAST (R145); a grant stands after 0 in the same order. -/
def claimedList : List PenLevel := [.trickle, .steady, .fast]
/-- The cap: STEADY or TRICKLE (R145). -/
def capList : List PenLevel := [.steady, .trickle]
def reqStateList : List ReqState := [.queued, .issued, .done]
def wakeLineList : List WakeLine := [.released, .pulsing, .held]
def causeList : List Cause := [.railOc, .railUv, .coilOc, .coilUv, .dieOt]
def outCauseList : List Cause := [.railOc, .railUv, .coilOc, .coilUv]
def ocModeList : List OcMode := [.stop, .limit]
def storeStateList : List StoreState := [.starting, .idle, .saving, .erasing]
def storeOpList : List StoreOp := [.save, .erase]
def storeEndList : List StoreEnd := [.done, .timeout]

/-- A set of causes as a bit mask over the list of causes. -/
def encCauses (p : Cause → Bool) : List Byte :=
  enc8 ((if p .railOc then 1 else 0) + (if p .railUv then 2 else 0) + (if p .coilOc then 4 else 0)
    + (if p .coilUv then 8 else 0) + (if p .dieOt then 16 else 0))

/-- A pen grant: 0, TRICKLE, STEADY, FAST (R145, R162). -/
def encGrant : Option PenLevel → List Byte
  | none => [1#8]
  | some l => enc8 (position claimedList l + 1)

/-! ## Entries as bytes: their writable fields in the order of their tables -/

def encDest : Dest → List Byte
  | .base => [0#8]
  | .channel n => 1#8 :: enc8 n

/-- The writable fields of a route entry (R20). -/
def encRoute (f : RouteFields) : List Byte :=
  encTwo f.valid ++ encNamed sourceList f.source ++ encOpt enc8 f.kind ++ enc8 f.postures.toNat ++ enc8 f.views.toNat
    ++ encOpt encWord f.model ++ encNamed actionList f.action ++ encDest f.dest ++ enc8 f.keepN
    ++ encNamed damageList f.damage

/-- The fields of a window (R99). -/
def encWindow (w : Window) : List Byte :=
  enc8 w.lower ++ enc8 w.upper ++ enc8 w.hysteresis ++ encNamed windowPostureList w.posture
    ++ encNamed windowCondList w.cond

/-- An action: its position in the table of R167, then what it carries. -/
def encAction : PolicyAction → List Byte
  | .sleepBegin => [1#8] | .sleepCancel => [2#8] | .wake => [3#8] | .orientLock => [4#8] | .orientFree => [5#8]
  | .chargeHold => [6#8] | .chargeAllow => [7#8]
  | .budgetProfile n => 8#8 :: enc8 n
  | .indicate l s p => 9#8 :: (encNamed lineList l ++ encNamed ledSourceList s ++ encNamed ledPatternList p)

/-- The fields of a policy entry (R165). -/
def encPolicy (e : PolicyEntry) : List Byte :=
  encTwo e.valid ++ encNamed eventList e.event ++ enc8 e.fromSet.toNat ++ enc8 e.toSet.toNat
    ++ encNamed baseCondList e.baseCond ++ encNamed penCondList e.penCond ++ enc8 e.hosts.toNat
    ++ encList encAction e.actions

/-! ## Reading a payload -/

/-- A reader of part of a payload: what it read and the bytes after it. -/
abbrev Parse (α : Type) := List Byte → Option (α × List Byte)

def parse8 : Parse Nat
  | b :: r => some (b.toNat, r)
  | [] => none

def parse16 : Parse Nat
  | a :: b :: r => some (a.toNat * 256 + b.toNat, r)
  | _ => none

/-- A value of a list of two: 1 is the first, 2 the second. -/
def parseTwo : Parse Bool
  | b :: r => if b = 1#8 then some (true, r) else if b = 2#8 then some (false, r) else none
  | [] => none

/-- An optional value behind its mark; a mark other than 0x00 and 0x01 cannot be read (R194). -/
def parseOpt {α : Type} (p : Parse α) : Parse (Option α)
  | b :: r => if b = 0#8 then some (none, r) else if b = 1#8 then (p r).map (fun x => (some x.1, x.2)) else none
  | [] => none

/-- So many members, one after another. -/
def parseMany {α : Type} (p : Parse α) : Nat → Parse (List α)
  | 0, r => some ([], r)
  | n + 1, r => do
    let (a, r) ← p r
    let (l, r) ← parseMany p n r
    some (a :: l, r)

/-- A list behind its length. -/
def parseList {α : Type} (p : Parse α) : Parse (List α) := fun r => do
  let (n, r) ← parse8 r
  parseMany p n r

/-- A run of data bytes behind its length. -/
def parseRun : Parse (List Byte) := fun r => do
  let (n, r) ← parse8 r
  if r.length < n then none else some (r.take n, r.drop n)

/-- The writable fields of a route entry (R20). -/
def parseRoute : Parse RawRoute := fun r => do
  let (valid, r) ← parseTwo r
  let (source, r) ← parse8 r
  let (kind, r) ← parseOpt parse8 r
  let (postures, r) ← parse8 r
  let (views, r) ← parse8 r
  let (model, r) ← parseOpt parse16 r
  let (action, r) ← parse8 r
  let (dest, r) ← parseOpt parse8 r
  let (keepN, r) ← parse8 r
  let (damage, r) ← parse8 r
  some (⟨valid, source, kind, postures, views, model, action, dest, keepN, damage⟩, r)

/-- The fields of a window (R99). -/
def parseWindow : Parse RawWindow := fun r => do
  let (lower, r) ← parse8 r
  let (upper, r) ← parse8 r
  let (hysteresis, r) ← parse8 r
  let (posture, r) ← parse8 r
  let (cond, r) ← parse8 r
  some (⟨lower, upper, hysteresis, posture, cond⟩, r)

/-- An action of a policy entry: 8 is BUDGET-PROFILE with its number, 9 INDICATE with line, source and pattern. -/
def parseAction : Parse RawAction := fun r => do
  let (c, r) ← parse8 r
  if c = 8 then
    let (n, r) ← parse8 r
    some (.budgetProfile n, r)
  else if c = 9 then
    let (l, r) ← parse8 r
    let (s, r) ← parse8 r
    let (p, r) ← parse8 r
    some (.indicate l s p, r)
  else some (.plain c, r)

/-- The fields of a policy entry (R165). -/
def parsePolicy : Parse RawPolicy := fun r => do
  let (valid, r) ← parseTwo r
  let (event, r) ← parse8 r
  let (fromSet, r) ← parse8 r
  let (toSet, r) ← parse8 r
  let (baseCond, r) ← parse8 r
  let (penCond, r) ← parse8 r
  let (hosts, r) ← parse8 r
  let (actions, r) ← parseList parseAction r
  some (⟨valid, event, fromSet, toSet, baseCond, penCond, hosts, actions⟩, r)

/-- The arguments of SETTINGS-SET (R195). -/
def parseSettings : Parse SettingsArg := fun r => do
  let (grace, r) ← parseOpt parse16 r
  let (settle, r) ← parseOpt parse16 r
  let (dwell, r) ← parseOpt parse16 r
  let (rate, r) ← parseOpt parse8 r
  let (discard, r) ← parseOpt parse16 r
  let (enables, r) ← parseOpt parse16 r
  some (⟨grace, settle, dwell, rate, discard, enables⟩, r)

/-- The arguments of GUARD-SET, which a GUARD section holds as well (R144, R205). -/
def parseGuard : Parse GuardArg := fun r => do
  let (f1, r) ← parseOpt parse8 r
  let (f2, r) ← parseOpt parse8 r
  let (f3, r) ← parseOpt parse8 r
  let (f4, r) ← parseOpt parse8 r
  let (e1, r) ← parseOpt parseTwo r
  let (e2, r) ← parseOpt parseTwo r
  let (e3, r) ← parseOpt parseTwo r
  let (e4, r) ← parseOpt parseTwo r
  let (mode, r) ← parseOpt parse8 r
  let (m1, r) ← parseOpt parseTwo r
  let (m2, r) ← parseOpt parseTwo r
  let (m3, r) ← parseOpt parseTwo r
  let (m4, r) ← parseOpt parseTwo r
  let (m5, r) ← parseOpt parseTwo r
  some (⟨f1, f2, f3, f4, e1, e2, e3, e4, mode, m1, m2, m3, m4, m5⟩, r)

/-- The arguments of BUDGET-SET (R124). -/
def parseBudget : Parse BudgetArg := fun r => do
  let (profile, r) ← parseOpt parse8 r
  let (v0, r) ← parseOpt parse16 r
  let (v1, r) ← parseOpt parse16 r
  let (v2, r) ← parseOpt parse16 r
  let (v3, r) ← parseOpt parse16 r
  some (⟨profile, v0, v1, v2, v3⟩, r)

/-- TABLE-WRITE: table number, index, fields (R193). -/
def parseTableWrite : Parse Request := fun r => do
  let (table, r) ← parse8 r
  let (index, r) ← parse8 r
  if table = 1 then
    let (e, r) ← parseRoute r
    some (.routeWrite index e, r)
  else if table = 2 then
    let (w, r) ← parseWindow r
    some (.windowWrite index w, r)
  else if table = 3 then
    let (e, r) ← parsePolicy r
    some (.policyWrite index e, r)
  else none

/-- TABLE-READ: table number, index (R193). -/
def parseTableRead : Parse Request := fun r => do
  let (table, r) ← parse8 r
  let (index, r) ← parse8 r
  if table = 1 then some (.routeRead index, r)
  else if table = 2 then some (.windowRead index, r)
  else if table = 3 then some (.policyRead index, r)
  else none

/-- One byte that names one of a list of requests, counting from 1: a group, a record, an argument. -/
def parsePick (l : List Request) : Parse Request := fun r => do
  let (n, r) ← parse8 r
  let q ← pick l n
  some (q, r)

/-- INDICATE-SET: line, source, pattern (R185). -/
def parseIndicate : Parse Request := fun r => do
  let (l, r) ← parse8 r
  let (s, r) ← parse8 r
  let (p, r) ← parse8 r
  some (.indicateSet l s p, r)

/-- BASE-REQUEST: target, command, data (R70, R73). -/
def parseBaseRequest : Parse Request := fun r => do
  let (target, r) ← parse8 r
  let (command, r) ← parse8 r
  let (data, r) ← parseRun r
  some (.baseRequest target (BitVec.ofNat 8 command) data, r)

/-- The reader of the payload of each request code (R193). -/
def parseBody (code : Nat) : Parse Request :=
  match code with
  | 0x01 => fun r => some (.hello, r)
  | 0x02 => parseTableWrite
  | 0x03 => parseTableRead
  | 0x04 => parsePick [.countersUplink, .countersRoute, .countersIssuer, .countersPosture]
  | 0x05 => parsePick
      [.recordPosture, .recordOrientation, .recordAttachment, .recordCharge, .recordSupply, .recordSleep, .recordStore]
  | 0x06 => fun r => (parse8 r).map (fun x => (.splitSet x.1, x.2))
  | 0x07 => fun r => (parseSettings r).map (fun x => (.settingsSet x.1, x.2))
  | 0x08 => parseBaseRequest
  | 0x09 => fun r => some (.baseReset, r)
  | 0x0A => fun r => some (.linkDiagnose, r)
  | 0x0B => fun r => some (.alarmRead, r)
  | 0x0C => fun r => (parse8 r).map (fun x => (.alarmClear x.1, x.2))
  | 0x0D => fun r => (parseGuard r).map (fun x => (.guardSet x.1, x.2))
  | 0x0E => fun r => (parseBudget r).map (fun x => (.budgetSet x.1, x.2))
  | 0x0F => parsePick
      [.chargeLevel .fast, .chargeLevel .steady, .chargeLevel .trickle, .chargeHold, .chargeRelease, .chargeRestart]
  | 0x10 => parsePick [.orientLock, .orientFree]
  | 0x11 => parseIndicate
  | 0x12 => fun r => some (.sleepConfirm, r)
  | 0x13 => fun r => some (.sleepDecline, r)
  | 0x14 => fun r => some (.hostSleep, r)
  | 0x15 => fun r => some (.storeSave, r)
  | 0x16 => fun r => some (.storeErase, r)
  | 0x17 => fun r => some (.restart, r)
  | _ => fun _ => none

/-- The request a REQUEST parcel carries: UNKNOWN for a code that is not one of the hub's, answered REFUSED by the engine
for a payload that is too short, too long or unreadable (R192, R194). -/
def parseRequest (code : Byte) (payload : List Byte) : Request :=
  if isRequestCode code then
    match parseBody code.toNat payload with
    | some (q, []) => q
    | _ => .refused code
  else .unknown code

/-- The request code of a request (R193). -/
def requestCode : Request → Byte
  | .hello => 0x01#8
  | .routeWrite .. | .windowWrite .. | .policyWrite .. => 0x02#8
  | .routeRead _ | .windowRead _ | .policyRead _ => 0x03#8
  | .countersUplink | .countersRoute | .countersIssuer | .countersPosture => 0x04#8
  | .recordPosture | .recordOrientation | .recordAttachment | .recordCharge | .recordSupply | .recordSleep
  | .recordStore => 0x05#8
  | .splitSet _ => 0x06#8
  | .settingsSet _ => 0x07#8
  | .baseRequest .. => 0x08#8
  | .baseReset => 0x09#8
  | .linkDiagnose => 0x0A#8
  | .alarmRead => 0x0B#8
  | .alarmClear _ => 0x0C#8
  | .guardSet _ => 0x0D#8
  | .budgetSet _ => 0x0E#8
  | .chargeLevel _ | .chargeHold | .chargeRelease | .chargeRestart => 0x0F#8
  | .orientLock | .orientFree => 0x10#8
  | .indicateSet .. => 0x11#8
  | .sleepConfirm => 0x12#8
  | .sleepDecline => 0x13#8
  | .hostSleep => 0x14#8
  | .storeSave => 0x15#8
  | .storeErase => 0x16#8
  | .restart => 0x17#8
  | .refused c => c
  | .unknown c => c

/-! ## The checks of the table entries (R37, R101, R168) -/

/-- A set that holds no member beyond its list of so many (log 10). -/
def asSet (width n : Nat) : Option (BitVec width) := if n < 2 ^ width then some (BitVec.ofNat width n) else none

/-- The kind suits the source (R37). -/
def kindSuits (source : Source) (k : Nat) : Bool :=
  match source with
  | .lidMotion => k == 0x01
  | .penStatus => k == 0x02
  | .baseKeys => k == 0x10
  | .basePointer => k == 0x11
  | .baseMotion => k == 0x12
  | .baseStatus => k == 0x13
  | .uplink => 0x50 ≤ k && k ≤ 0x7F

/-- The destination suits the source (R37). -/
def checkDest (source : Source) (dest : Option Nat) : Option Dest :=
  match source, dest with
  | .uplink, none => some .base
  | .uplink, some _ => none
  | _, none => none
  | _, some n => if 1 ≤ n ∧ n ≤ 15 then some (.channel n) else none

/-- The checks of R37 on the fields of a route entry; none is REFUSED. -/
def checkRoute (e : RawRoute) : Option RouteFields := do
  let source ← pick sourceList e.source
  let action ← pick actionList e.action
  let damage ← pick damageList e.damage
  let postures ← asSet 7 e.postures
  let views ← asSet 2 e.views
  let dest ← checkDest source e.dest
  if (e.kind.all (kindSuits source)) && 1 ≤ e.keepN && e.keepN ≤ 16 then
    some ⟨e.valid, source, e.kind, postures, views, e.model.map (BitVec.ofNat 16), action, dest, e.keepN, damage⟩
  else none

/-- The checks of R101 on the fields of a window. -/
def checkWindow (w : RawWindow) : Option Window := do
  let posture ← pick windowPostureList w.posture
  let cond ← pick windowCondList w.cond
  if w.lower ≤ 180 ∧ w.upper ≤ 180 ∧ w.hysteresis ≤ 10 then
    some ⟨w.lower, w.upper, w.hysteresis, posture, cond⟩
  else none

/-- A line setting: line 1 or 2, a source of R183, a pattern of R184. -/
def checkIndicate (line source pattern : Nat) : Option (LedLine × LedSource × LedPattern) := do
  let l ← pick lineList line
  let s ← pick ledSourceList source
  let p ← pick ledPatternList pattern
  some (l, s, p)

/-- The check of R168 on one action. -/
def checkAction : RawAction → Option PolicyAction
  | .plain 1 => some .sleepBegin
  | .plain 2 => some .sleepCancel
  | .plain 3 => some .wake
  | .plain 4 => some .orientLock
  | .plain 5 => some .orientFree
  | .plain 6 => some .chargeHold
  | .plain 7 => some .chargeAllow
  | .plain _ => none
  | .budgetProfile n => if n ≤ 3 then some (.budgetProfile n) else none
  | .indicate l s p => (checkIndicate l s p).map (fun x => .indicate x.1 x.2.1 x.2.2)

/-- The checks of R168 on the fields of a policy entry. -/
def checkPolicy (e : RawPolicy) : Option PolicyEntry := do
  let event ← pick eventList e.event
  let fromSet ← asSet 7 e.fromSet
  let toSet ← asSet 7 e.toSet
  let baseCond ← pick baseCondList e.baseCond
  let penCond ← pick penCondList e.penCond
  let hosts ← asSet 5 e.hosts
  let actions ← e.actions.mapM checkAction
  if e.actions.length ≤ 3 then
    some ⟨e.valid, event, fromSet, toSet, baseCond, penCond, hosts, actions⟩
  else none

end Sys2Proof.Machine
end

