-- ==== Sys2Proof/Machine/Alarm.lean ====
section
/-! DEFINITION. The alarms of the supply guard: detection, protection, reading and clearing, the guard settings (R135 to R144). -/
namespace Sys2Proof.Machine

/-! ## Filters (R135) -/

/-- The filter times of the over-current causes and of the under-voltage causes, in 0.1 ms, in the order of their lists. -/
def ocTimes : List Nat := [0, 2, 10, 40]
def uvTimes : List Nat := [0, 5, 20, 80]

/-- The length of a cause's filter in force. -/
def filterLength (c : OutCause) (a : Alarm) : Nat :=
  match c with
  | .railOc | .coilOc => ocTimes.getD a.choice 0
  | .railUv | .coilUv => uvTimes.getD a.choice 0

def alarmOf (c : Cause) (s : State) : Alarm := s.guard.alarms.get c

/-- A change of one cause's alarm state. -/
def changeAlarm (c : Cause) (f : Alarm → Alarm) (s : State) : State :=
  { s with guard := { s.guard with alarms := s.guard.alarms.set c (f (s.guard.alarms.get c)) } }

/-- The output of a cause is on. -/
def outputOn (c : OutCause) (s : State) : Bool :=
  match c with
  | .railOc | .railUv => s.guard.railOn
  | .coilOc | .coilUv => s.guard.coilOn

/-! ## Protection (R137, R138) -/

/-- What the settings and the pen grant give as the protection of an output cause (R137, R138, R139). -/
def protectionFor (c : OutCause) (s : State) : Protection :=
  if (alarmOf (causeOf c) s).enabled then
    match c with
    | .coilOc =>
      match s.guard.mode, s.guard.penGrant with
      | .limit, some .fast => .limit .steady
      | .limit, some .steady => .limit .trickle
      | _, _ => .stop
    | _ => .stop
  else .none

/-- A STOP latch is set: the output goes off and its owner is told (R137). -/
def setLatch (c : OutCause) (s : State) : State :=
  let s := switchOutputs (changeAlarm (causeOf c) (fun a => { a with latch := true, detected := true }) s)
  match c with
  | .railOc | .railUv => enterFaulted s
  | .coilOc | .coilUv => coilLatchTold s

/-- The pen is stepped down under a cap; COIL-OC is no longer detected, and filters again while its raw condition is present
(R138). -/
def setCap (cap : PenLevel) (s : State) : State :=
  let before := s.guard
  let capped := { s.guard with cap := some cap }
  let s := { s with guard := { capped with penGrant := capped.target.bind (bestFit capped.budget capped.baseGrant) } }
  let s := postBudget before .limit s
  let s := changeAlarm .coilOc
    (fun a => { a with detected := false, filter := if a.raw then some (filterLength .coilOc a) else none }) s
  penTold before.penGrant (switchOutputs s)

/-- The protection is applied. -/
def applyProtection (c : OutCause) (p : Protection) (s : State) : State :=
  match p with
  | .stop => setLatch c s
  | .limit cap => setCap cap s
  | .off | .none => s

/-! ## Detection (R136, R140) -/

/-- The grant of the output of a cause (R136). -/
def grantOf (c : OutCause) (s : State) : AlarmGrant :=
  match c with
  | .railOc | .railUv => .rail s.guard.baseGrant
  | .coilOc | .coilUv => .coil s.guard.penGrant

/-- The ALARM notice, unless masked, and the policy event SUPPLY-ALARM (R136). -/
def tellAlarm (c : Cause) (p : Protection) (g : AlarmGrant) (s : State) : State :=
  postEvent (.supplyAlarm c) (if (alarmOf c s).mask then s else post (.alarm c p g) s)

/-- An output cause becomes detected (R136). Its SUPPLY-ALARM is posted before the BASE-FAULT of the protection; R164 takes the events of
two blocks in either order (log 4). -/
def becomesDetected (c : OutCause) (s : State) : State :=
  let p := protectionFor c s
  let g := grantOf c s
  let s := changeAlarm (causeOf c) (fun a => { a with detected := true, sticky := true, filter := none }) s
  applyProtection c p (tellAlarm (causeOf c) p g (reportAlarm s))

/-- The raw condition of an output cause appears: sensed while its output is on (R135). -/
def rawAppears (c : OutCause) (s : State) : State :=
  let a := alarmOf (causeOf c) s
  if outputOn c s && !a.raw then
    let s := changeAlarm (causeOf c) (fun a => { a with raw := true }) s
    if filterLength c a = 0 then becomesDetected c s
    else changeAlarm (causeOf c) (fun a => { a with filter := some (filterLength c a) }) s
  else s

/-- The raw condition goes away: the filter is stopped, and an unlatched cause is no longer detected (R135, R136). -/
def rawClears (c : OutCause) (s : State) : State :=
  reportAlarm
    (changeAlarm (causeOf c) (fun a => { a with raw := false, filter := none, detected := a.detected && a.latch }) s)

/-- A cause's filter expires (R135). -/
def filterExpires (c : OutCause) (s : State) : State :=
  if (alarmOf (causeOf c) s).filter.isSome then becomesDetected c s else s

/-- DIE-OT is taken as becoming detected: both outputs off, told (R136, R140). -/
def dieOtTaken (s : State) : State :=
  let s := changeAlarm .dieOt (fun a => { a with detected := true, sticky := true }) s
  tellAlarm .dieOt .off .noOutput (switchOutputs s)

/-- The die temperature reaches 115 °C; during start-up it is not told (R140). -/
def dieOtAppears (s : State) : State :=
  if (alarmOf .dieOt s).raw then s
  else
    let s := changeAlarm .dieOt (fun a => { a with raw := true }) s
    if s.store.state = .starting then
      switchOutputs (changeAlarm .dieOt (fun a => { a with detected := true, sticky := true }) s)
    else dieOtTaken s

/-- The die temperature falls to 100 °C: the outputs come back on as their conditions allow (R140). -/
def dieOtClears (s : State) : State :=
  switchOutputs (changeAlarm .dieOt (fun a => { a with raw := false, detected := false }) s)

/-! ## ALARM-READ and ALARM-CLEAR (R141, R142) -/

/-- ALARM-READ sets the sticky set to the detected set (R141). -/
def stickyRead (s : State) : State :=
  { s with guard := { s.guard with alarms := s.guard.alarms.map (fun a => { a with sticky := a.detected }) } }

/-- ALARM-CLEAR has something to clear in a cause: a latch, a detected state or, for COIL-OC, the cap (R142). -/
def clearable (c : OutCause) (s : State) : Bool :=
  let a := alarmOf (causeOf c) s
  a.latch || a.detected || (c == .coilOc && s.guard.cap.isSome)

/-- One named cause is cleared: latch and detected, with the filter started again while raw is present; a cause with nothing to clear is
taken with no effect (R142). A filter of time 0 started again is due at the next step, not in the same change (log 25). -/
def clearCause (c : OutCause) (s : State) : State :=
  if clearable c s then
    changeAlarm (causeOf c)
      (fun a => { a with latch := false, detected := false, filter := if a.raw then some (filterLength c a) else a.filter }) s
  else s

/-- A cause is named by bit n - 1 of the set (R194). -/
def named (set : Nat) (bit : Nat) : Bool := (set / 2 ^ bit) % 2 = 1

/-- The named output causes are cleared, each if its bit stands in the set (R142, R194). -/
def clearNamed (set : Nat) (s : State) : State :=
  let s := if named set 0 then clearCause .railOc s else s
  let s := if named set 1 then clearCause .railUv s else s
  let s := if named set 2 then clearCause .coilOc s else s
  if named set 3 then clearCause .coilUv s else s

/-- ALARM-CLEAR of a set of output causes (R142). R142 gives no order for what follows the clear: the pen is re-granted and the charger told
of it first, then the rail's latch is reported, then the coil's (log 45). -/
def clearAlarms (set : Nat) (s : State) : State :=
  let railWas := railLatched s
  let coilWas := coilLatched s
  let before := s.guard
  let s := clearNamed set s
  let s := if named set 2 && before.cap.isSome then
      { s with guard := Guard.regrant { s.guard with cap := none } } else s
  let s := switchOutputs (postBudget before .clear s)
  let s := penTold before.penGrant s
  let s := if railWas && !railLatched s && s.link.state = .faulted && s.att.present then enterPowering false s else s
  if coilWas && !coilLatched s then coilLatchGone s else s

/-! ## GUARD-SET (R144, R139) -/

/-- The settings of one output cause after a request: filter choice, enable, mask. -/
structure CauseSetting where
  choice  : Nat
  enabled : Bool
  mask    : Bool
  deriving DecidableEq, Repr

def settingOf (a : Alarm) (filter : Option Nat) (enable mask : Option Bool) : CauseSetting :=
  ⟨(filter.map (· - 1)).getD a.choice, enable.getD a.enabled, mask.getD a.mask⟩

/-- The guard settings as they would stand after a request. -/
structure GuardSettings where
  railOc  : CauseSetting
  railUv  : CauseSetting
  coilOc  : CauseSetting
  coilUv  : CauseSetting
  mode    : OcMode
  maskOt  : Bool
  deriving DecidableEq, Repr

/-- A filter time is one of its cause's list of four (R144 step 1). -/
def filterInList (f : Option Nat) : Bool := f.all (fun n => decide (1 ≤ n) && decide (n ≤ 4))

/-- The settings after a request, or none where step 1 of R144 refuses it. -/
def settingsAfter (a : GuardArg) (g : Guard) : Option GuardSettings :=
  if filterInList a.filterRailOc && filterInList a.filterRailUv && filterInList a.filterCoilOc
      && filterInList a.filterCoilUv then
    match a.mode with
    | none => some (build g.mode)
    | some n => (pick ocModeList n).map build
  else none
where
  build (m : OcMode) : GuardSettings :=
    ⟨settingOf g.alarms.railOc a.filterRailOc a.enableRailOc a.maskRailOc,
     settingOf g.alarms.railUv a.filterRailUv a.enableRailUv a.maskRailUv,
     settingOf g.alarms.coilOc a.filterCoilOc a.enableCoilOc a.maskCoilOc,
     settingOf g.alarms.coilUv a.filterCoilUv a.enableCoilUv a.maskCoilUv,
     m, a.maskDieOt.getD g.alarms.dieOt.mask⟩

/-- An over-current cause with filter 0 and protection disabled (R144 step 2). -/
def unprotected (c : CauseSetting) : Bool := c.choice == 0 && !c.enabled

/-- Step 2 of R144. -/
def GuardSettings.bad (n : GuardSettings) : Bool := unprotected n.railOc || unprotected n.coilOc

/-- Step 3 of R144: a filter changed while its output is on, or the mode while PEN-COIL is on. -/
def GuardSettings.locked (n : GuardSettings) (g : Guard) : Bool :=
  (g.railOn && (n.railOc.choice != g.alarms.railOc.choice || n.railUv.choice != g.alarms.railUv.choice))
    || (g.coilOn && (n.coilOc.choice != g.alarms.coilOc.choice || n.coilUv.choice != g.alarms.coilUv.choice
        || n.mode != g.mode))

def writeCause (n : CauseSetting) (a : Alarm) : Alarm := { a with choice := n.choice, enabled := n.enabled, mask := n.mask }

/-- The settings written. -/
def writeSettings (n : GuardSettings) (g : Guard) : Guard :=
  let a := g.alarms
  { g with mode := n.mode, alarms := ⟨writeCause n.railOc a.railOc, writeCause n.railUv a.railUv, writeCause n.coilOc a.coilOc,
                                      writeCause n.coilUv a.coilUv, { a.dieOt with mask := n.maskOt }⟩ }

/-- A cause whose protection the request has enabled, detected and not yet protected (R139). -/
def newlyProtected (before : Guard) (c : OutCause) (s : State) : Bool :=
  let a := alarmOf (causeOf c) s
  !(before.alarms.get (causeOf c)).enabled && a.enabled && a.detected && !a.latch

/-- The latch of a newly protected cause is set, its output not yet switched. -/
def latchIfDue (before : Guard) (s₀ : State) (c : OutCause) (s : State) : State :=
  if newlyProtected before c s₀ ∧ protectionFor c s₀ = .stop then
    changeAlarm (causeOf c) (fun a => { a with latch := true }) s
  else s

/-- The protection of a newly protected cause is applied. -/
def protectIfDue (before : Guard) (s₀ : State) (c : OutCause) (s : State) : State :=
  if newlyProtected before c s₀ then applyProtection c (protectionFor c s₀) s else s

/-- Protection newly enabled on a detected cause is applied at once, with no second notice (R139). Of two such causes of one output
both latch, since both were detected, and the output's owner is told once; a LIMIT of COIL-OC sets its cap and steps the pen down before a
latch of COIL-UV is told. The pen grant that R138 steps down from is the grant as the request finds it, not one that an earlier detection
found (log 41). -/
def protectNow (before : Guard) (s₀ : State) : State :=
  let latch := latchIfDue before s₀
  let s := latch .coilUv (latch .coilOc (latch .railUv (latch .railOc s₀)))
  let protect := protectIfDue before s₀
  let s := if newlyProtected before .railOc s₀ then protect .railOc s else protect .railUv s
  let s := if newlyProtected before .coilUv s₀ ∧ protectionFor .coilOc s₀ = .stop then s else protect .coilOc s
  protect .coilUv s

/-- GUARD-SET (R144). -/
def guardSetTaken (a : GuardArg) (s : State) : State × Status :=
  match settingsAfter a s.guard with
  | none => (s, .refused)
  | some n =>
    if n.bad then (s, .refused)
    else if n.locked s.guard then (s, .locked)
    else (protectNow s.guard { s with guard := writeSettings n s.guard }, .ok)

end Sys2Proof.Machine
end

