-- ==== Sys2Proof/Machine/PowerEvents.lean ====
section
/-! DEFINITION. The meanings of the alarms, the dock switch and the pen's timers (R135 to R157). -/
namespace Sys2Proof.Machine

/-- A change of the die temperature's condition, which is the outside world's, with the reset line asserted as well. -/
def runOt (raw : Bool) (f : State → State) (s : State) : State :=
  if s.held then changeAlarm .dieOt (fun a => { a with raw := raw }) s else finish (f s)

/-- ALARM_RAW_APPEARS (R135, R136). -/
def execAlarmRawAppears (cause : OutCause) (s : State) : Host.Outcome State Fault Refusal := answer (run (rawAppears cause) s)

/-- ALARM_RAW_CLEARS (R135, R136). -/
def execAlarmRawClears (cause : OutCause) (s : State) : Host.Outcome State Fault Refusal := answer (run (rawClears cause) s)

/-- FILTER_TIMER_EXPIRY (R136 to R138). -/
def execFilterTimerExpiry (cause : OutCause) (s : State) : Host.Outcome State Fault Refusal :=
  answer (run (filterExpires cause) s)

/-- DIE_OT_DETECTED (R140). -/
def execDieOtDetected (s : State) : Host.Outcome State Fault Refusal := answer (runOt true dieOtAppears s)

/-- DIE_OT_CLEARED (R140). -/
def execDieOtCleared (s : State) : Host.Outcome State Fault Refusal := answer (runOt false dieOtClears s)

/-- DOCK_SWITCH_ASSERT (R148). -/
def execDockSwitchAssert (s : State) : Host.Outcome State Fault Refusal :=
  answer (runPin (fun p => { p with dock := true }) dockAsserts s)

/-- DOCK_DEBOUNCE_EXPIRY (R148). -/
def execDockDebounceExpiry (s : State) : Host.Outcome State Fault Refusal := answer (run dockDebounceExpires s)

/-- PEN_REMOVAL: the dock switch releases (R148, R149). -/
def execPenRemoval (s : State) : Host.Outcome State Fault Refusal :=
  answer (runPin (fun p => { p with dock := false }) dockReleases s)

/-- PEN_STATUS (R150). -/
def execPenStatus (payload : List Byte) (damaged : Bool) (s : State) : Host.Outcome State Fault Refusal :=
  answer (run (routeFrame .penStatus 0x02#8 payload damaged) s)

/-- DETECT_WINDOW_EXPIRY (R152). -/
def execDetectWindowExpiry (s : State) : Host.Outcome State Fault Refusal := answer (run detectExpires s)

/-- RAMP_TIMER_EXPIRY (R153). -/
def execRampTimerExpiry (s : State) : Host.Outcome State Fault Refusal := answer (run rampExpires s)

/-- SILENCE_TIMER_EXPIRY (R157). -/
def execSilenceTimerExpiry (s : State) : Host.Outcome State Fault Refusal := answer (run silenceExpires s)

end Sys2Proof.Machine
end

