-- ==== Sys2Proof/Machine/Store.lean ====
section
/-! DEFINITION. The store controller (chapter 11): start-up, the section walk, saving and erasing. -/
namespace Sys2Proof.Machine

/-! ## Settings and their ranges (R92, R109, R115, R170, R82) -/

def settleTimes : List Nat := [25, 50, 75, 100, 150, 250, 400, 600]
def graceOk (n : Nat) : Bool := n ≤ 60000
def settleOk (n : Nat) : Bool := settleTimes.contains n
def dwellOk (n : Nat) : Bool := 100 ≤ n && n ≤ 2000
def discardOk (n : Nat) : Bool := 500 ≤ n && n ≤ 8000

/-- The sample period (R109). -/
def periodMs : SampleRate → Nat
  | .hz12 => 80 | .hz25 => 40 | .hz50 => 20 | .hz100 => 10

/-! ## The content of each section type (R205, R207) -/

/-- The GUARD section: the settings as GUARD-SET carries them. -/
def encGuardSettings (g : Guard) : List Byte :=
  let a := g.alarms
  let filter (a : Alarm) := encOpt enc8 (some (a.choice + 1))
  let flag (b : Bool) := encOpt encTwo (some b)
  filter a.railOc ++ filter a.railUv ++ filter a.coilOc ++ filter a.coilUv
    ++ flag a.railOc.enabled ++ flag a.railUv.enabled ++ flag a.coilOc.enabled ++ flag a.coilUv.enabled
    ++ encOpt (encNamed ocModeList) (some g.mode)
    ++ flag a.railOc.mask ++ flag a.railUv.mask ++ flag a.coilOc.mask ++ flag a.coilUv.mask ++ flag a.dieOt.mask

/-- The SETTINGS section: grace time, settle time, dwell, sample rate, discard time. -/
def encSettings (s : State) : List Byte :=
  enc16 s.sleep.graceTime ++ enc16 s.posture.settleTime ++ enc16 s.orient.dwell ++ encNamed rateList s.poller.rate
    ++ enc16 s.issuer.discardTime

/-- The GENERIC-BASE section. -/
def encGeneric (g : GenericProfile) : List Byte :=
  encWord g.model ++ enc8 (g.demand / 50) ++ [if g.selfPowered then 1#8 else 0#8] ++ encRun g.declared ++ encRun g.wakeKinds
    ++ encOpt (fun m : Mount => enc8 m.order ++ enc8 m.signs) g.mount

/-- The content of a section type, from the tables and settings in force (R207). -/
def typeContent (t : Nat) (s : State) : List Byte :=
  match t with
  | 1 => s.route.table.flatMap (fun e => encRoute e.fields)
  | 2 => s.posture.windows.flatMap encWindow
  | 3 => s.policy.table.flatMap encPolicy
  | 4 => encGuardSettings s.guard
  | 5 => [s.guard.profiles.p0, s.guard.profiles.p1, s.guard.profiles.p2, s.guard.profiles.p3].flatMap (fun v => enc8 (v / 50))
  | 6 => encSettings s
  | 7 => enc8 s.pool.share
  | 8 => encGeneric s.generic
  | _ => []

/-! ## Start-up: applying the sections (R205) -/

/-- All arguments of GUARD-SET are carried. -/
def guardComplete (a : GuardArg) : Bool :=
  a.filterRailOc.isSome && a.filterRailUv.isSome && a.filterCoilOc.isSome && a.filterCoilUv.isSome
    && a.enableRailOc.isSome && a.enableRailUv.isSome && a.enableCoilOc.isSome && a.enableCoilUv.isSome && a.mode.isSome
    && a.maskRailOc.isSome && a.maskRailUv.isSome && a.maskCoilOc.isSome && a.maskCoilUv.isSome && a.maskDieOt.isSome

/-- Exactly so many members, each passing its check. -/
def readTable {α β : Type} (p : Parse α) (check : α → Option β) (n : Nat) (content : List Byte) : Option (List β) :=
  match parseMany p n content with
  | some (l, []) => l.mapM check
  | _ => none

/-- The GUARD content (R205). Bytes beyond the last setting break the type, by the model's choice (log 46). -/
def readGuard (g : Guard) (content : List Byte) : Option GuardSettings :=
  match parseGuard content with
  | some (a, []) => if guardComplete a then (settingsAfter a g).filter (fun n => !n.bad) else none
  | _ => none

def readBudget : List Byte → Option Profiles
  | [a, b, c, d] =>
    if a.toNat ≤ 90 ∧ b.toNat ≤ 90 ∧ c.toNat ≤ 90 ∧ d.toNat ≤ 90 then
      some ⟨50 * a.toNat, 50 * b.toNat, 50 * c.toNat, 50 * d.toNat⟩
    else none
  | _ => none

/-- Grace time, settle time, dwell, sample rate, discard time (R205). Bytes beyond the last break the type,
    by the model's choice (log 46). -/
def readSettings (content : List Byte) : Option (Nat × Nat × Nat × SampleRate × Nat) := do
  let (grace, r) ← parse16 content
  let (settle, r) ← parse16 r
  let (dwell, r) ← parse16 r
  let (rate, r) ← parse8 r
  let rate ← pick rateList rate
  let (discard, r) ← parse16 r
  if r = [] ∧ graceOk grace ∧ settleOk settle ∧ dwellOk dwell ∧ discardOk discard then
    some (grace, settle, dwell, rate, discard)
  else none

def readSplit : List Byte → Option Nat
  | [d] => if 8 ≤ d.toNat ∧ d.toNat ≤ 64 then some d.toNat else none
  | _ => none

/-- The optional motion mount at the end of a GENERIC-BASE section (R205). A mark other than 0 and 1, no mark byte, a mount cut short, and
bytes beyond the mount break the type, by the model's choice (log 46). -/
def readMount : List Byte → Option (Option Mount)
  | [m] => if m = 0#8 then some none else none
  | [m, o, s] => if m = 1#8 then (parseMount [o, s]).map some else none
  | _ => none

/-- The GENERIC-BASE content (R205). R205 names fields that are missing for GUARD and SETTINGS alone; a GENERIC-BASE content that ends before
its last field breaks the type, by the model's choice (log 46). -/
def readGeneric : List Byte → Option GenericProfile
  | m1 :: m0 :: demand :: flag :: r => do
    let (rail, self) ← parseRail [demand, flag]
    let (declared, r) ← parseRun r
    let declared ← parseSources declared
    let (wake, r) ← parseRun r
    let wake ← if wake = [] then some [] else parseWake declared wake
    let mount ← readMount r
    some ⟨beWord m1 m0, rail, self, declared, wake, mount⟩
  | _ => none

/-- The content of a type applied over the factory value; none where it breaks its type's rules. -/
def applyType (t : Nat) (content : List Byte) (s : State) : Option State :=
  match t with
  | 1 => (readTable parseRoute checkRoute 48 content).map (fun l =>
      { s with route := { s.route with table := l.map RouteEntry.fresh } })
  | 2 => (readTable parseWindow checkWindow 8 content).map (fun l => { s with posture := { s.posture with windows := l } })
  | 3 => (readTable parsePolicy checkPolicy 24 content).map (fun l => { s with policy := { s.policy with table := l } })
  | 4 => (readGuard s.guard content).map (fun n => { s with guard := writeSettings n s.guard })
  | 5 => (readBudget content).map (fun p => { s with guard := { s.guard with profiles := p } })
  | 6 => (readSettings content).map (fun (grace, settle, dwell, rate, discard) =>
      { s with sleep := { s.sleep with graceTime := grace }, posture := { s.posture with settleTime := settle }
               orient := { s.orient with dwell := dwell }, poller := { s.poller with rate := rate }
               issuer := { s.issuer with discardTime := discard } })
  | 7 => (readSplit content).map (fun d => { s with pool := { s.pool with share := d } })
  | 8 => (readGeneric content).map (fun g => { s with generic := g })
  | _ => some s

/-- The bodies of a type's sections joined (R205). -/
def joined (sections : List Section) (t : Byte) : List Byte :=
  sections.flatMap (fun x => if x.type = t then x.body?.getD [] else [])

/-- The walk stopped at a malformed section of the type. -/
def stoppedAt (sections : List Section) (t : Byte) : Bool := sections.contains (.malformed t)

/-- A type that is skipped (R205). -/
def skips (sections : List Section) (s : State) (t : Byte) : Bool :=
  stoppedAt sections t || (applyType t.toNat (joined sections t) s).isNone

/-- The skipped types, each once, in the order of their first sections (R205). -/
def skippedTypes (sections : List Section) (s : State) : List Byte :=
  (keepOnce (sections.map Section.type)).filter (skips sections s)

/-- Each type present and not skipped is applied, in type order (R205). -/
def applySections (sections : List Section) (s : State) : State :=
  [1, 2, 3, 4, 5, 6, 7, 8].foldl
    (fun s t =>
      let b := BitVec.ofNat 8 t
      if sections.any (fun x => x.type = b) && !stoppedAt sections b then (applyType t (joined sections b) s).getD s else s)
    s

/-! ## The end of start-up (R206) -/

/-- The presence pin is sampled (R69). -/
def samplePresence (s : State) : State :=
  if s.pins.presence then
    let s := setLinkState .settling s
    { s with link := { s.link with debounce := startMs 50 } }
  else s

/-- The dock switch is sampled (R163). -/
def sampleDock (s : State) : State :=
  if s.pins.dock then { s with pen := { s.pen with debounce := startMs 100 } } else s

/-- Start-up ends: the result is recorded, START is posted, sampling begins, a detected DIE-OT is taken (R206, R140). -/
def startUpEnds (r : StartResult) (s : State) : State :=
  let s := post (.start r)
    { s with store := { s.store with state := .idle, result := some r, exchange := none, timer := none } }
  let s := sampleDock (samplePresence s)
  let s := { s with poller := { s.poller with period := startMs (periodMs s.poller.rate) } }
  if s.guard.alarms.dieOt.detected then dieOtTaken s else s

/-! ## The reads of start-up (R204) -/

/-- So many bytes of an answer; where it is short, what the store holds (log 12). -/
def answerBytes (offset n : Nat) (bytes : List Byte) (s : State) : List Byte :=
  (List.range n).map (fun i => bytes.getD i (Memory.read s.store.eeprom (offset + i)))

/-- The store holds what it answered (log 12). -/
def storeHolds (offset : Nat) (bytes : List Byte) (s : State) : State :=
  { s with store := { s.store with eeprom := Memory.writeBytes s.store.eeprom offset bytes } }

/-- The whole image is read: its CRC is checked and its sections are walked (R204, R205). -/
def imageRead (length : Nat) (crc : Word16) (body : List Byte) (s : State) : State :=
  if crc16 body = crc then
    let sections := sectionsOf body
    let s := { s with store := { s.store with imageLength := some length } }
    let skipped := skippedTypes sections s
    startUpEnds (if skipped = [] then .storeLoaded else .storePartial skipped) (applySections sections s)
  else startUpEnds .storeInvalid s

/-- The header is read (R204): mark, length, CRC. -/
def headerRead (header : List Byte) (s : State) : State :=
  match header with
  | [m1, m0, l1, l0, c1, c0] =>
    let length := (beWord l1 l0).toNat
    if m1 = 0x6B#8 ∧ m0 = 0x2D#8 ∧ 6 ≤ length ∧ length ≤ 2048 then
      if length = 6 then imageRead 6 (beWord c1 c0) [] s
      else { s with store := { s.store with exchange := some (.readBody length (beWord c1 c0)), timer := startMs 25 } }
    else startUpEnds .storeInvalid s
  | _ => startUpEnds .storeInvalid s

/-- The store answers a read of start-up (R204). -/
def readAnswered (bytes : List Byte) (s : State) : State :=
  if s.store.state = .starting then
    match s.store.exchange with
    | some .readHeader =>
      let header := answerBytes 0 6 bytes s
      headerRead header (storeHolds 0 header s)
    | some (.readBody length crc) =>
      let body := answerBytes 6 (length - 6) bytes s
      imageRead length crc body (storeHolds 6 body s)
    | _ => s
  else s

/-! ## Saving and erasing (R207, R208) -/

/-- A content as sections of at most 255 bytes (R207). R207 gives the maximum alone; where a content is cut is the model's choice: after every
255 bytes, the last section holding the rest (log 51). -/
def splitSections (t : Nat) : Nat → List Byte → List Byte
  | 0, _ => []
  | fuel + 1, content =>
    if content = [] then []
    else (BitVec.ofNat 8 t :: encRun (content.take 255)) ++ splitSections t fuel (content.drop 255)

/-- The bytes of a type from its beginning: its sections, or the end byte after the last type (R207). -/
def beginType (t : Nat) (s : State) : List Byte :=
  if t ≤ 8 then
    let content := typeContent t s
    splitSections t (content.length + 1) content
  else [0#8]

/-- The image built up to so many bytes, each type begun when its first byte is needed (R207). -/
def buildTo (n : Nat) (s : State) : Nat → Save → Save
  | 0, sv => sv
  | fuel + 1, sv =>
    let need := n - sv.built.length
    let sv := { sv with built := sv.built ++ sv.backlog.take need, backlog := sv.backlog.drop need }
    if n ≤ sv.built.length ∨ 10 ≤ sv.nextType then sv
    else buildTo n s fuel { sv with backlog := beginType sv.nextType s, nextType := sv.nextType + 1 }

/-- Enough for the eight types, the end byte and the last bytes of each. -/
def buildFuel : Nat := 12

/-- Page k of the image, k at least 1, filled out with 0xFF (R207). -/
def pageBytes (built : List Byte) (k : Nat) : List Byte :=
  let part := (built.drop (26 + 32 * (k - 1))).take 32
  part ++ List.replicate (32 - part.length) 0xFF#8

/-- A page write is sent (R203). -/
def writePage (page : Nat) (bytes : List Byte) (s : State) : State :=
  { s with store := { s.store with exchange := some (.writePage page bytes), timer := startMs 25 } }

/-- The page 0 that invalidates the store: mark bytes 0xFF 0xFF, the others free (R207, log 13). -/
def invalidPage (draw : Nat) : List Byte :=
  [0xFF#8, 0xFF#8] ++ (List.range 30).map (fun i => Config.invalidPage draw (i + 2))

/-- The page 0 that ends a save: mark, length, CRC, the 26 held bytes (R207). -/
def finalPage (built : List Byte) : List Byte :=
  [0x6B#8, 0x2D#8] ++ enc16 (built.length + 6) ++ encWord (crc16 built) ++ built.take 26

/-- STORE-SAVE is taken (R207): the bytes of page 0 and page 1 are built and page 0 is invalidated. -/
def beginSave (s : State) : State :=
  let sv := buildTo 58 s buildFuel ⟨[], [], 1, false⟩
  let s := { s with store := { s.store with state := .saving, pages := 0, save := some sv } }
  addHold .storeBusy { writePage 0 (invalidPage s.fresh) s with fresh := s.fresh + 1 }

/-- STORE-ERASE is taken (R208). -/
def beginErase (s : State) : State :=
  let s := { s with store := { s.store with state := .erasing } }
  addHold .storeBusy (writePage 0 (List.replicate 32 0xFF#8) s)

/-- A RESTART that waited for the store gets its reply (R209, R202). -/
def releaseRestart (s : State) : State :=
  if s.mgmt.restart = .waiting then
    { s with mgmt := { s.mgmt with restart := .armed, holder := some ⟨0x17#8, .ok, []⟩ } }
  else s

/-- A save or an erase ends (R207, R208). -/
def operationEnds (op : StoreOp) (e : StoreEnd) (s : State) : State :=
  let s := { s with store := { s.store with state := .idle, lastOp := some (op, e), pages := 0, exchange := none,
                                            timer := none, save := none } }
  releaseRestart (post (.store op e) (removeHold .storeBusy s))

/-- The next page write of a save after page k has been taken (R207 steps 2 and 3). -/
def nextPage (k : Nat) (sv : Save) (s : State) : State :=
  let sv := buildTo (26 + 32 * (k + 1)) s buildFuel sv
  if 26 + 32 * k < sv.built.length then
    writePage (k + 1) (pageBytes sv.built (k + 1)) { s with store := { s.store with save := some sv } }
  else
    writePage 0 (finalPage sv.built) { s with store := { s.store with save := some { sv with final := true } } }

/-- The page write counted, the save goes on or the operation ends (R207, R208). -/
def afterPage (k : Nat) (s : State) : State :=
  let s := { s with store := { s.store with pages := s.store.pages + 1 } }
  match s.store.state, s.store.save with
  | .erasing, _ => operationEnds .erase .done s
  | .saving, some sv => if sv.final then operationEnds .save .done s else nextPage k sv s
  | _, _ => s

/-- The store takes a page write (R207, R208). -/
def pageTaken (s : State) : State :=
  match s.store.exchange with
  | some (.writePage k bytes) => afterPage k (storeHolds (32 * k) bytes s)
  | _ => s

/-- An exchange goes unanswered (R203, R204, R207, R208). The page keeps what it held (R203), the first page of a save too, so that a save
whose first write goes unanswered leaves the image that was there (log 49). -/
def exchangeUnanswered (s : State) : State :=
  if s.store.exchange.isSome then
    match s.store.state with
    | .starting => startUpEnds .storeAbsent s
    | .saving => operationEnds .save .timeout s
    | .erasing => operationEnds .erase .timeout s
    | .idle => s
  else s

/-- The contents hold a valid image: mark, length and CRC, as start-up checks them (R204). -/
def holdsImage (m : List Host.Cell) : Bool :=
  let length := (beWord (Memory.read m 2) (Memory.read m 3)).toNat
  Memory.read m 0 == 0x6B#8 && Memory.read m 1 == 0x2D#8 && decide (6 ≤ length) && decide (length ≤ 2048)
    && crc16 (Memory.readBytes m 6 (length - 6)) == beWord (Memory.read m 4) (Memory.read m 5)

/-- A page write taken in part: each of its bytes is the new one or the old one (R209, log 14). -/
def partlyWritten (draw page : Nat) (bytes : List Byte) (m : List Host.Cell) : List Host.Cell :=
  (List.range 32).foldl
    (fun m i => if Config.partPage draw i then Memory.write m (32 * page + i) (bytes.getD i eraseByte) else m) m

/-- The contents with one of the two mark bytes, a free one, not that of a valid image (R209, log 14). -/
def markBroken (draw : Nat) (m : List Host.Cell) : List Host.Cell :=
  Memory.write m (if Config.partPage draw 32 then 0 else 1) eraseByte

/-- The contents of the store after a cold reset: a page write in progress may have been taken in part. A save cut off leaves no valid
image, and an erase cut off the old image or none, so of the free outcomes those with another image are ruled out (R209, log 14). -/
def cutOffContents (s : State) : List Host.Cell :=
  match s.store.exchange with
  | some (.writePage k bytes) =>
    let m := partlyWritten s.fresh k bytes s.store.eeprom
    if holdsImage m && (s.store.state == .saving || m != s.store.eeprom) then markBroken s.fresh m else m
  | _ => s.store.eeprom

end Sys2Proof.Machine
end

