-- ==== Sys2Proof/Machine/Records.lean ====
section
/-! DEFINITION. Records, counters, tables and settings as reply content (R55, R67, R105, R120, R145, R162, R187, R197, R198, R203). -/
namespace Sys2Proof.Machine

/-- The status codes (R191). -/
def statusCode : Status → Byte
  | .ok => 0x00#8 | .accepted => 0x01#8 | .retry => 0x02#8 | .full => 0x03#8 | .mismatch => 0x04#8
  | .notAttached => 0x05#8 | .baseRefused => 0x06#8 | .noResponse => 0x07#8 | .gaveUp => 0x08#8 | .gone => 0x09#8
  | .busy => 0x0A#8 | .refused => 0x0B#8 | .locked => 0x0C#8 | .notAsked => 0x0D#8 | .unknown => 0x0E#8
  | .starting => 0x0F#8

/-! ## Records -/

/-- The posture record (R105). -/
def postureRecord (s : State) : List Byte :=
  let p := s.posture
  encNamed postureList p.posture ++ encOpt (encNamed postureList) p.previous ++ encOpt enc8 p.count
    ++ encTwo p.count.isSome ++ encOpt (encNamed refSourceList) p.refSource ++ encTwo p.moving ++ encOpt enc8 p.window
    ++ encTwo s.pins.lidClosed ++ encTwo s.pins.foldFlat ++ [p.faults, p.slips]

/-- The orientation record (R120), the stable time in whole ms rounded down by the model's choice (log 57). -/
def orientationRecord (s : State) : List Byte :=
  let o := s.orient
  encNamed orientationList o.current ++ encOpt (encNamed orientationList) o.previous
    ++ encNamed orientationList o.candidate ++ enc16 (min (o.stable / 10) 65535) ++ encTwo o.flat ++ encTwo o.lock.isNone
    ++ encOpt (encNamed claimSourceList) o.lock
    ++ encOpt (fun v : Word16 × Word16 × Word16 => encWord v.1 ++ encWord v.2.1 ++ encWord v.2.2) o.sample
    ++ enc16 o.dwell ++ encNamed rateList s.poller.rate

/-- The diagnosis record (R67). -/
def encDiagnosis (d : Diagnosis) : List Byte :=
  let pin := encOpt (encNamed pinOutcomeList)
  encNamed diagFromList d.startedFrom ++ pin d.dataPlus ++ pin d.dataMinus ++ pin d.presence ++ pin d.railSense
    ++ encTwo d.complete ++ encOpt (encNamed diagEndList) d.endedBy

def encNotes (n : Notes) : List Byte :=
  [n.identity, n.rail, n.sources, n.wake, n.mount].flatMap (encNamed noteList)

def encReason : GenericReason → List Byte
  | .badSignature => [1#8]
  | .chunkFailed n => 2#8 :: enc8 n

/-- The attachment record (R55), the diagnosis record last (R198). -/
def attachmentRecord (s : State) : List Byte :=
  let i := s.att.ident
  encTwo s.att.present ++ encNamed linkStateList s.link.state ++ encOpt (encNamed linkRateList) s.link.rate
    ++ encOpt (encNamed idSourceList) i.idSource ++ encOpt encWord i.model ++ encOpt (fun r => [r]) i.revision
    ++ encOpt (fun w : Word32 => enc32 w.toNat) i.serial ++ enc16 i.railDemand ++ encTwo i.selfPowered
    ++ encRun i.declared ++ encRun i.wakeKinds ++ encOpt (fun m : Mount => enc8 m.order ++ enc8 m.signs) i.mount
    ++ encOpt encNotes i.notes ++ encOpt encReason i.genericReason ++ encOpt encRun i.descriptor
    ++ encWord s.att.attachCount ++ [s.att.linkDropped] ++ encOpt encDiagnosis s.att.diagnosis

/-- The charge session record (R162). -/
def chargeRecord (s : State) : List Byte :=
  let p := s.pen
  encNamed penStateList p.session ++ encOpt (encNamed faultCauseList) p.fault ++ encTwo p.docked ++ encTwo s.pins.dock
    ++ encNamed requestedList p.requested ++ encGrant s.guard.penGrant ++ encOpt (encNamed capList) s.guard.cap
    ++ encOpt enc8 p.battery ++ encWord p.count
    ++ enc8 (match p.hold with | some src => position claimSourceList src | none => 3)

/-- The guard settings in force (R144). A protection enable is sent as 1 for enabled and 2 for disabled, a mask as 1 for set and 2 for clear,
by the model's choice (log 9). -/
def guardSettings (g : Guard) : List Byte :=
  let a := g.alarms
  [a.railOc, a.railUv, a.coilOc, a.coilUv].flatMap (fun a => enc8 (a.choice + 1))
    ++ [a.railOc, a.railUv, a.coilOc, a.coilUv].flatMap (fun a => encTwo a.enabled)
    ++ encNamed ocModeList g.mode
    ++ [a.railOc, a.railUv, a.coilOc, a.coilUv, a.dieOt].flatMap (fun a => encTwo a.mask)

def encProfiles (p : Profiles) : List Byte := enc16 p.p0 ++ enc16 p.p1 ++ enc16 p.p2 ++ enc16 p.p3

/-- The supply record (R145). -/
def supplyRecord (s : State) : List Byte :=
  let g := s.guard
  let a := g.alarms
  enc8 g.active ++ encProfiles g.profiles ++ enc16 g.budget ++ enc16 g.baseGrant ++ encGrant g.penGrant
    ++ encOpt (encNamed claimedList) g.claimed ++ encOpt (encNamed capList) g.cap ++ encTwo g.railOn ++ encTwo g.coilOn
    ++ [a.railOc, a.railUv, a.coilOc, a.coilUv, a.dieOt].flatMap
        (fun a => encTwo a.raw ++ encTwo a.detected ++ encTwo a.sticky)
    ++ [a.railOc, a.railUv, a.coilOc, a.coilUv].flatMap (fun a => encTwo a.latch)
    ++ guardSettings g

/-- The timer of the sleep controller that runs, with its ms left; the fourth value is none (R187). R187 gives the ms left no range: they take
two bytes, since none of the three timers is started above 60000 ms (log 55). -/
def runningTimer (z : Sleep) : List Byte :=
  if z.grace.isSome then 1#8 :: enc16 (msLeft z.grace)
  else if z.confirm.isSome then 2#8 :: enc16 (msLeft z.confirm)
  else if z.wakeWindow.isSome then 3#8 :: enc16 (msLeft z.wakeWindow)
  else [4#8]

/-- The hold-off set as a bit mask (R174). -/
def encHolds (h : HoldSet) : List Byte :=
  enc8 ((if h.hingeMoving then 1 else 0) + (if h.requestPending then 2 else 0) + (if h.storeBusy then 4 else 0)
    + (if h.baseIdentifying then 8 else 0) + (if h.chargeStarting then 16 else 0))

/-- A wake reason: kind, source, count, first-seen time (R182). -/
def encWakeReason (r : WakeReason) : List Byte :=
  (match r.kind with
   | .event k => encNamed eventList k ++ encOpt (encNamed sourceList) none
   | .frame src => 11#8 :: encOpt (encNamed sourceList) (some src)) ++ [r.count] ++ enc32 r.firstSeen

/-- A line: source, pattern, output level (R187). -/
def encLine (l : Line) : List Byte :=
  encNamed ledSourceList l.source ++ encNamed ledPatternList l.pattern ++ encTwo l.output

/-- Both lines (R185). -/
def bothLines (s : State) : List Byte := encLine s.policy.line1 ++ encLine s.policy.line2

/-- The time asleep, absent in AWAKE, GRACE and SLEEP-ASKED (R187), held at the top of four bytes by the model's choice (log 48), in whole ms
rounded down by the model's choice (log 57). -/
def timeAsleep (s : State) : Option Nat :=
  if hostListens s.sleep.power then none else s.sleep.asleepAt.map (fun t => min ((s.now - t) / 10) firstSeenTop)

/-- The sleep record (R187). -/
def sleepRecord (s : State) : List Byte :=
  let z := s.sleep
  let i := s.policy.inputs
  encNamed powerList z.power ++ encTwo z.expired ++ enc16 z.graceTime ++ runningTimer z ++ encHolds z.holds
    ++ encNamed wakeLineList z.wakeLine ++ enc8 z.pulses ++ encOpt enc32 (timeAsleep s)
    ++ encList encWakeReason z.reasons ++ encTwo z.overflow
    ++ encTwo i.charge ++ encTwo i.attach ++ encTwo i.alarm ++ encTwo i.lock ++ bothLines s

/-- The position of a start-up result (R203). -/
def resultPosition : StartResult → Byte
  | .storeAbsent => 1#8 | .storeInvalid => 2#8 | .storeLoaded => 3#8 | .storePartial _ => 4#8

/-- A start-up result with its list of skipped types (R196, R201). -/
def encResult : StartResult → List Byte
  | .storePartial l => 4#8 :: encRun l
  | r => [resultPosition r]

/-- The skipped types of a result (R203). -/
def skippedOf : StartResult → Option (List Byte)
  | .storePartial l => some l
  | _ => none

def encOperation (o : StoreOp × StoreEnd) : List Byte := encNamed storeOpList o.1 ++ encNamed storeEndList o.2

/-- The store record (R203). -/
def storeRecord (s : State) : List Byte :=
  let t := s.store
  encNamed storeStateList t.state ++ encOpt (fun r => [resultPosition r]) t.result
    ++ encOpt encRun (t.result.bind skippedOf) ++ encOpt enc16 t.imageLength ++ encOpt encOperation t.lastOp ++ enc8 t.pages

/-! ## Tables and counters -/

/-- A route entry as TABLE-READ returns it (R39). -/
def routeEntry (e : RouteEntry) : List Byte := encRoute e.fields ++ enc8 e.phase ++ encWord e.passed ++ [e.queueFull]

def encIngress (c : Ingress) : List Byte :=
  encWord c.received ++ [c.damaged, c.tooLong, c.undeclared, c.unmatched, c.overrun]

/-- The route counters: the seven ingress sets in source order, then every entry's (R197). -/
def routeCounters (s : State) : List Byte :=
  sourceList.flatMap (fun src => encIngress (s.route.ingress.get src))
    ++ s.route.table.flatMap (fun e => encWord e.passed ++ [e.queueFull])

/-- The six settings (R195). -/
def encEnables (e : PerKind Bool) : List Byte :=
  enc16 (((NoticeKind.inOrder.zipIdx).map (fun (k, i) => if e.get k then 2 ^ i else 0)).sum)

def allSettings (s : State) : List Byte := encSettings s ++ encEnables s.mgmt.enables

/-- The split: the downstream share, then the slots held in each queue (R18). Which queue comes first R18 does not say: the upstream one,
by the model's choice (log 52). -/
def splitContent (s : State) : List Byte := enc8 s.pool.share ++ enc8 (heldBy s.pool.up) ++ enc8 (heldBy s.pool.down)

/-- The latches standing as a set (R141). -/
def latchSet (s : State) : List Byte := encCauses (fun c => (s.guard.alarms.get c).latch)

/-- The cap (R141, R142). -/
def capContent (s : State) : List Byte := encOpt (encNamed capList) s.guard.cap

/-- What every reply to BUDGET-SET carries (R124). -/
def budgetContent (s : State) : List Byte :=
  enc8 s.guard.active ++ encProfiles s.guard.profiles ++ enc16 s.guard.budget ++ enc16 s.guard.baseGrant
    ++ encGrant s.guard.penGrant

end Sys2Proof.Machine
end

