-- ==== Sys2Proof/Machine/Requests.lean ====
section
/-! DEFINITION. The requests: what each owner does with a request and answers to it, and the management engine that takes them
(R189 to R202). -/
namespace Sys2Proof.Machine

/-- An owner's answer: the state after the request, the status, the content after the status. -/
structure Answer where
  after   : State
  status  : Status
  content : List Byte
  deriving DecidableEq, Repr

/-! ## HELLO (R180, R196) -/

/-- HELLO as the sleep controller takes it (R180). -/
def helloTaken (s : State) : State :=
  match s.sleep.power with
  | .asleep | .waking =>
    { s with sleep := { s.sleep with power := .awake, wakeWindow := none, wakeLine := .released, pulse := none, pulses := 0,
                                     reasons := [], overflow := false, asleepAt := none } }
  | .awake | .grace | .sleepAsked => s

/-- The content of the reply to HELLO, from the state HELLO found (R196). -/
def helloContent (s : State) : List Byte :=
  encNamed powerList s.sleep.power ++ [0x3E#8, 0x91#8, 0x26#8, 0x40#8, 0x02#8]
    ++ encResult (s.store.result.getD .storeAbsent) ++ encTwo s.sleep.overflow ++ encList encWakeReason s.sleep.reasons

def answerHello (s : State) : Answer := ⟨helloTaken s, .ok, helloContent s⟩

/-! ## Tables (R37, R39, R101, R168) -/

/-- TABLE-WRITE of a route entry (R37). The entry in the reply is its writable fields, without phase and counters (log 11). -/
def answerRouteWrite (i : Nat) (e : RawRoute) (s : State) : Answer :=
  if i < 48 then
    match checkRoute e with
    | some f => ⟨changeRoute i (fun _ => RouteEntry.fresh f) s, .ok, enc8 i ++ encRoute f⟩
    | none => ⟨s, .refused, []⟩
  else ⟨s, .refused, []⟩

def answerWindowWrite (i : Nat) (w : RawWindow) (s : State) : Answer :=
  if i < 8 then
    match checkWindow w with
    | some w => ⟨{ s with posture := { s.posture with windows := s.posture.windows.set i w } }, .ok, encWindow w⟩
    | none => ⟨s, .refused, []⟩
  else ⟨s, .refused, []⟩

def answerPolicyWrite (i : Nat) (e : RawPolicy) (s : State) : Answer :=
  if i < 24 then
    match checkPolicy e with
    | some e => ⟨{ s with policy := { s.policy with table := s.policy.table.set i e } }, .ok, encPolicy e⟩
    | none => ⟨s, .refused, []⟩
  else ⟨s, .refused, []⟩

/-- TABLE-READ returns the entry, or REFUSED for an index outside the table. -/
def answerEntry {α : Type} (size i : Nat) (table : List α) (enc : α → List Byte) (s : State) : Answer :=
  match if i < size then table[i]? else none with
  | some e => ⟨s, .ok, enc e⟩
  | none => ⟨s, .refused, []⟩

/-! ## Counters (R197): returned in full and then cleared -/

def answerCountersUplink (s : State) : Answer :=
  ⟨{ s with uplinkErrors := 0#8, mgmt := { s.mgmt with overrun := 0#8 } }, .ok, [s.uplinkErrors, s.mgmt.overrun]⟩

def answerCountersRoute (s : State) : Answer :=
  ⟨{ s with route := { s.route with ingress := PerSource.all Ingress.zero
                                    table := s.route.table.map (fun e => { e with passed := 0#16, queueFull := 0#8 }) } },
   .ok, routeCounters s⟩

def answerCountersIssuer (s : State) : Answer :=
  ⟨{ s with issuer := { s.issuer with stray := 0#8, discarded := 0#8 } }, .ok, [s.issuer.stray, s.issuer.discarded]⟩

def answerCountersPosture (s : State) : Answer :=
  ⟨{ s with posture := { s.posture with faults := 0#8, slips := 0#8 } }, .ok, [s.posture.faults, s.posture.slips]⟩

/-! ## SPLIT-SET and SETTINGS-SET (R18, R195) -/

def answerSplit (d : Nat) (s : State) : Answer :=
  if d < 8 ∨ 64 < d then ⟨s, .refused, splitContent s⟩
  else if s.pool.up ≠ [] ∨ s.pool.down ≠ [] then ⟨s, .busy, splitContent s⟩
  else
    let s := { s with pool := { s.pool with share := d } }
    ⟨s, .ok, splitContent s⟩

/-- Every setting carried is in its owner's range (R195). -/
def settingsOk (a : SettingsArg) : Bool :=
  a.grace.all graceOk && a.settle.all settleOk && a.dwell.all dwellOk && a.rate.all (fun n => (pick rateList n).isSome)
    && a.discard.all discardOk && a.enables.all (fun n => decide (n < 2 ^ 11))

/-- A sample rate; a new one restarts the period (R109). -/
def setRate (r : SampleRate) (s : State) : State :=
  if r = s.poller.rate then s
  else { s with poller := { s.poller with rate := r, period := startMs (periodMs r) } }

/-- The notice enables, a bit for each kind in the order of the codes (R200, R194). -/
def enablesOf (n : Nat) : PerKind Bool :=
  let bit (i : Nat) : Bool := (n / 2 ^ i) % 2 = 1
  ⟨bit 0, bit 1, bit 2, bit 3, bit 4, bit 5, bit 6, bit 7, bit 8, bit 9, bit 10⟩

/-- A pending notice of a kind that is disabled is discarded (R200). -/
def keepEnabled (e : PerKind Bool) (n : PerKind (Option Pending)) : PerKind (Option Pending) :=
  let keep (k : NoticeKind) : Option Pending := if e.get k then n.get k else none
  ⟨keep .start, keep .posture, keep .orientation, keep .attach, keep .link, keep .charge, keep .alarm, keep .sleep,
   keep .encoder, keep .budget, keep .store⟩

def setEnables (e : PerKind Bool) (s : State) : State :=
  { s with mgmt := { s.mgmt with enables := e, notices := keepEnabled e s.mgmt.notices } }

/-- A setting that is carried is handed to its owner. -/
def carried {α : Type} (v : Option α) (set : α → State → State) (s : State) : State :=
  match v with
  | some a => set a s
  | none => s

/-- The settings carried take effect, all as one change (R195). A dwell that turns the display at once posts ORIENTATION under the enables
that the request finds, and the enables carried are written after it; R200 allows either order (log 45). -/
def applySettings (a : SettingsArg) (s : State) : State :=
  let s := carried a.grace (fun n s => { s with sleep := { s.sleep with graceTime := n } }) s
  let s := carried a.settle (fun n s => { s with posture := { s.posture with settleTime := n } }) s
  let s := carried a.dwell setDwell s
  let s := carried (a.rate.bind (pick rateList)) setRate s
  let s := carried a.discard (fun n s => { s with issuer := { s.issuer with discardTime := n } }) s
  carried (a.enables.map enablesOf) setEnables s

def answerSettings (a : SettingsArg) (s : State) : Answer :=
  if settingsOk a then
    let s := applySettings a s
    ⟨s, .ok, allSettings s⟩
  else ⟨s, .refused, []⟩

/-! ## BASE-REQUEST (R74) -/

/-- What a reply carries of the entry it was taken against (R74). -/
def entryContent (st : Status) (e : ReqEntry) : List Byte :=
  match st with
  | .retry => encNamed reqStateList e.state ++ enc8 e.attempts
  | .mismatch => encNamed reqStateList e.state
  | .ok => enc8 e.attempts ++ encRun (e.response.getD [])
  | _ => enc8 e.attempts

def answerBaseRequest (target : Nat) (command : Byte) (data : List Byte) (s : State) : Answer :=
  let (s, st, e) := baseRequestTaken target command data s
  ⟨s, st, enc8 target ++ [command] ++ enc8 (countState .queued s) ++ enc8 (countState .issued s)
    ++ enc8 (countState .done s) ++ (e.map (entryContent st)).getD []⟩

/-! ## The guard's requests (R124, R141, R142, R144) -/

def answerAlarmRead (s : State) : Answer :=
  ⟨stickyRead s, .ok,
   encCauses (fun c => (s.guard.alarms.get c).sticky) ++ encCauses (fun c => (s.guard.alarms.get c).detected) ++ latchSet s
     ++ capContent s⟩

def answerAlarmClear (causes : Nat) (s : State) : Answer :=
  if causes = 0 ∨ 16 ≤ causes then ⟨s, .refused, []⟩
  else
    let s := clearAlarms causes s
    ⟨s, .ok, latchSet s ++ capContent s⟩

def answerGuardSet (a : GuardArg) (s : State) : Answer :=
  let (s, st) := guardSetTaken a s
  ⟨s, st, if st = .ok then guardSettings s.guard else []⟩

def answerBudgetSet (a : BudgetArg) (s : State) : Answer :=
  let (s, st) := budgetSetTaken a s
  ⟨s, st, budgetContent s⟩

/-! ## CHARGE-SET, ORIENT-SET, INDICATE-SET (R160, R120, R185) -/

/-- The reply to a CHARGE-SET that is not REFUSED carries the charge session record. -/
def withChargeRecord (st : Status) (s : State) : Answer := ⟨s, st, chargeRecord s⟩

def answerChargeRestart (s : State) : Answer :=
  match s.pen.session, s.pen.fault with
  | .fault, some .coilLatch => withChargeRecord .locked s
  | .fault, _ => withChargeRecord .ok (enterDetect s)
  | .foreign, _ => withChargeRecord .locked s
  | _, _ => ⟨s, .refused, []⟩

def withOrientationRecord (s : State) : Answer := ⟨s, .ok, orientationRecord s⟩

def answerIndicate (line source pattern : Nat) (s : State) : Answer :=
  match checkIndicate line source pattern with
  | some (l, src, p) =>
    let s := indicate l src p s
    ⟨s, .ok, bothLines s⟩
  | none => ⟨s, .refused, []⟩

/-! ## The sleep requests (R175, R176) -/

/-- Every reply to SLEEP-CONFIRM and SLEEP-DECLINE carries the host power state after it. -/
def withPower (st : Status) (s : State) : Answer := ⟨s, st, encNamed powerList s.sleep.power⟩

def answerConfirm (s : State) : Answer :=
  if s.sleep.power = .sleepAsked then withPower .ok (enterAsleep s) else withPower .notAsked s

def answerDecline (s : State) : Answer :=
  if s.sleep.power = .sleepAsked then
    withPower .ok { s with sleep := { s.sleep with power := .awake, confirm := none } }
  else withPower .notAsked s

def answerHostSleep (s : State) : Answer :=
  match s.sleep.power with
  | .awake | .grace | .sleepAsked => ⟨enterAsleep s, .ok, []⟩
  | .asleep => ⟨s, .ok, []⟩
  | .waking => ⟨s, .busy, []⟩

/-! ## The store's requests (R207, R208) -/

def answerSave (s : State) : Answer :=
  if s.store.state = .idle then ⟨beginSave s, .accepted, []⟩
  else ⟨s, .busy, encNamed storeStateList s.store.state⟩

def answerErase (s : State) : Answer :=
  if s.store.state = .idle then ⟨beginErase s, .accepted, []⟩ else ⟨s, .busy, []⟩

/-- The status alone. -/
def statusOnly (r : State × Status) : Answer := ⟨r.1, r.2, []⟩

/-- An owner's answer to a request (R193); RESTART is the engine's and never reaches here. -/
def ownerAnswer (q : Request) (s : State) : Answer :=
  match q with
  | .hello => answerHello s
  | .routeWrite i e => answerRouteWrite i e s
  | .windowWrite i w => answerWindowWrite i w s
  | .policyWrite i e => answerPolicyWrite i e s
  | .routeRead i => answerEntry 48 i s.route.table routeEntry s
  | .windowRead i => answerEntry 8 i s.posture.windows encWindow s
  | .policyRead i => answerEntry 24 i s.policy.table encPolicy s
  | .countersUplink => answerCountersUplink s
  | .countersRoute => answerCountersRoute s
  | .countersIssuer => answerCountersIssuer s
  | .countersPosture => answerCountersPosture s
  | .recordPosture => ⟨s, .ok, postureRecord s⟩
  | .recordOrientation => ⟨s, .ok, orientationRecord s⟩
  | .recordAttachment => ⟨s, .ok, attachmentRecord s⟩
  | .recordCharge => ⟨s, .ok, chargeRecord s⟩
  | .recordSupply => ⟨s, .ok, supplyRecord s⟩
  | .recordSleep => ⟨s, .ok, sleepRecord s⟩
  | .recordStore => ⟨s, .ok, storeRecord s⟩
  | .splitSet d => answerSplit d s
  | .settingsSet a => answerSettings a s
  | .baseRequest t c d => answerBaseRequest t c d s
  | .baseReset => statusOnly (baseResetTaken s)
  | .linkDiagnose => statusOnly (linkDiagnoseTaken s)
  | .alarmRead => answerAlarmRead s
  | .alarmClear m => answerAlarmClear m s
  | .guardSet a => answerGuardSet a s
  | .budgetSet a => answerBudgetSet a s
  | .chargeLevel l => withChargeRecord .ok (setRequested l s)
  | .chargeHold => withChargeRecord .ok (holdClaim .request s)
  | .chargeRelease => withChargeRecord .ok (releaseClaim .request s)
  | .chargeRestart => answerChargeRestart s
  | .orientLock => withOrientationRecord (lockClaim .request s)
  | .orientFree => withOrientationRecord (freeClaim s)
  | .indicateSet l src p => answerIndicate l src p s
  | .sleepConfirm => answerConfirm s
  | .sleepDecline => answerDecline s
  | .hostSleep => answerHostSleep s
  | .storeSave => answerSave s
  | .storeErase => answerErase s
  | .restart => ⟨s, .ok, []⟩
  | .refused _ => ⟨s, .refused, []⟩
  | .unknown _ => ⟨s, .unknown, []⟩

/-! ## The engine (R189, R190, R192, R209) -/

/-- The engine puts a reply into its holder. -/
def reply (code : Byte) (st : Status) (content : List Byte) (s : State) : State :=
  { s with mgmt := { s.mgmt with holder := some ⟨code, st, content⟩ } }

/-- RESTART is taken: replied to at once with the store IDLE, held without a reply while it saves or erases (R209). -/
def restartTaken (s : State) : State :=
  if s.store.state = .idle then reply 0x17#8 .ok [] { s with mgmt := { s.mgmt with restart := .armed } }
  else { s with mgmt := { s.mgmt with restart := .waiting } }

/-- The engine takes a request (R189, R192). -/
def takeRequest (q : Request) (s : State) : State :=
  if s.store.state = .starting then reply (requestCode q) .starting [] s
  else if q = .restart then restartTaken s
  else
    let a := ownerAnswer q s
    reply (requestCode q) a.status a.content a.after

/-- The engine, when IDLE, takes the request at the head; none while a RESTART waits for the store (R189, R209). -/
def engineTakes (s : State) : State :=
  if s.mgmt.holder.isNone ∧ s.mgmt.restart = .none then
    match s.mgmt.intake with
    | q :: rest => takeRequest q { s with mgmt := { s.mgmt with intake := rest } }
    | [] => s
  else s

/-- A request is handed on to the intake queue (R189, R190). -/
def requestArrives (q : Request) (s : State) : State :=
  if 4 ≤ s.mgmt.intake.length then { s with mgmt := { s.mgmt with overrun := satInc s.mgmt.overrun } }
  else engineTakes { s with mgmt := { s.mgmt with intake := s.mgmt.intake ++ [q] } }

end Sys2Proof.Machine
end

