-- ==== Sys2Proof/Machine/RequestCommands.lean ====
section
/-! DEFINITION. The meanings of the requests. Each is the arrival of the request at the management engine, which takes it at once when it
is IDLE with nothing waiting (R189, log 7). What its owner does is in Machine/Requests.lean. -/
namespace Sys2Proof.Machine

/-- UNKNOWN_REQUEST: a request whose code is not one of the hub's (R192). -/
def execUnknownRequest (code : Byte) (s : State) : Host.Outcome State Fault Refusal :=
  answer (run (requestArrives (parseRequest code [])) s)

/-- HELLO (R180, R196). -/
def execHello (s : State) : Host.Outcome State Fault Refusal := answer (run (requestArrives .hello) s)

/-- ROUTE_TABLE_WRITE (R37, R38). -/
def execRouteTableWrite (index : Nat) (e : RawRoute) (s : State) : Host.Outcome State Fault Refusal :=
  answer (run (requestArrives (.routeWrite index e)) s)

/-- WINDOW_TABLE_WRITE (R101). -/
def execWindowTableWrite (index : Nat) (w : RawWindow) (s : State) : Host.Outcome State Fault Refusal :=
  answer (run (requestArrives (.windowWrite index w)) s)

/-- POLICY_TABLE_WRITE (R168). -/
def execPolicyTableWrite (index : Nat) (e : RawPolicy) (s : State) : Host.Outcome State Fault Refusal :=
  answer (run (requestArrives (.policyWrite index e)) s)

/-- ROUTE_TABLE_READ (R39). -/
def execRouteTableRead (index : Nat) (s : State) : Host.Outcome State Fault Refusal :=
  answer (run (requestArrives (.routeRead index)) s)

/-- WINDOW_TABLE_READ (R101). -/
def execWindowTableRead (index : Nat) (s : State) : Host.Outcome State Fault Refusal :=
  answer (run (requestArrives (.windowRead index)) s)

/-- POLICY_TABLE_READ (R168). -/
def execPolicyTableRead (index : Nat) (s : State) : Host.Outcome State Fault Refusal :=
  answer (run (requestArrives (.policyRead index)) s)

/-- COUNTERS_READ_UPLINK (R197). -/
def execCountersReadUplink (s : State) : Host.Outcome State Fault Refusal := answer (run (requestArrives .countersUplink) s)

/-- COUNTERS_READ_ROUTE (R39, R197). -/
def execCountersReadRoute (s : State) : Host.Outcome State Fault Refusal := answer (run (requestArrives .countersRoute) s)

/-- COUNTERS_READ_ISSUER (R86, R197). -/
def execCountersReadIssuer (s : State) : Host.Outcome State Fault Refusal := answer (run (requestArrives .countersIssuer) s)

/-- COUNTERS_READ_POSTURE (R105, R197). -/
def execCountersReadPosture (s : State) : Host.Outcome State Fault Refusal := answer (run (requestArrives .countersPosture) s)

/-- RECORD_READ_POSTURE (R105, R198). -/
def execRecordReadPosture (s : State) : Host.Outcome State Fault Refusal := answer (run (requestArrives .recordPosture) s)

/-- RECORD_READ_ORIENTATION (R120, R198). -/
def execRecordReadOrientation (s : State) : Host.Outcome State Fault Refusal :=
  answer (run (requestArrives .recordOrientation) s)

/-- RECORD_READ_ATTACHMENT (R55, R198). -/
def execRecordReadAttachment (s : State) : Host.Outcome State Fault Refusal :=
  answer (run (requestArrives .recordAttachment) s)

/-- RECORD_READ_CHARGE (R162, R198). -/
def execRecordReadCharge (s : State) : Host.Outcome State Fault Refusal := answer (run (requestArrives .recordCharge) s)

/-- RECORD_READ_SUPPLY (R145, R198). -/
def execRecordReadSupply (s : State) : Host.Outcome State Fault Refusal := answer (run (requestArrives .recordSupply) s)

/-- RECORD_READ_SLEEP (R187, R198). -/
def execRecordReadSleep (s : State) : Host.Outcome State Fault Refusal := answer (run (requestArrives .recordSleep) s)

/-- RECORD_READ_STORE (R203, R198). -/
def execRecordReadStore (s : State) : Host.Outcome State Fault Refusal := answer (run (requestArrives .recordStore) s)

/-- SPLIT_SET (R18). -/
def execSplitSet (share : Nat) (s : State) : Host.Outcome State Fault Refusal :=
  answer (run (requestArrives (.splitSet share)) s)

/-- SETTINGS_SET (R195). -/
def execSettingsSet (a : SettingsArg) (s : State) : Host.Outcome State Fault Refusal :=
  answer (run (requestArrives (.settingsSet a)) s)

/-- BASE_REQUEST (R71 to R75). -/
def execBaseRequest (target : Nat) (command : Byte) (data : List Byte) (s : State) : Host.Outcome State Fault Refusal :=
  answer (run (requestArrives (.baseRequest target command data)) s)

/-- BASE_RESET (R65). -/
def execBaseReset (s : State) : Host.Outcome State Fault Refusal := answer (run (requestArrives .baseReset) s)

/-- LINK_DIAGNOSE (R66). -/
def execLinkDiagnose (s : State) : Host.Outcome State Fault Refusal := answer (run (requestArrives .linkDiagnose) s)

/-- ALARM_READ (R141). -/
def execAlarmRead (s : State) : Host.Outcome State Fault Refusal := answer (run (requestArrives .alarmRead) s)

/-- ALARM_CLEAR (R142). -/
def execAlarmClear (causes : Nat) (s : State) : Host.Outcome State Fault Refusal :=
  answer (run (requestArrives (.alarmClear causes)) s)

/-- GUARD_SET (R144, R139). -/
def execGuardSet (a : GuardArg) (s : State) : Host.Outcome State Fault Refusal :=
  answer (run (requestArrives (.guardSet a)) s)

/-- BUDGET_SET (R124). -/
def execBudgetSet (a : BudgetArg) (s : State) : Host.Outcome State Fault Refusal :=
  answer (run (requestArrives (.budgetSet a)) s)

/-- CHARGE_SET_LEVEL (R160). -/
def execChargeSetLevel (l : PenLevel) (s : State) : Host.Outcome State Fault Refusal :=
  answer (run (requestArrives (.chargeLevel l)) s)

/-- CHARGE_SET_HOLD (R158, R160). -/
def execChargeSetHold (s : State) : Host.Outcome State Fault Refusal := answer (run (requestArrives .chargeHold) s)

/-- CHARGE_SET_RELEASE (R159, R160). -/
def execChargeSetRelease (s : State) : Host.Outcome State Fault Refusal := answer (run (requestArrives .chargeRelease) s)

/-- CHARGE_SET_RESTART (R160). -/
def execChargeSetRestart (s : State) : Host.Outcome State Fault Refusal := answer (run (requestArrives .chargeRestart) s)

/-- ORIENT_SET_LOCK (R117, R120). -/
def execOrientSetLock (s : State) : Host.Outcome State Fault Refusal := answer (run (requestArrives .orientLock) s)

/-- ORIENT_SET_FREE (R118, R120). -/
def execOrientSetFree (s : State) : Host.Outcome State Fault Refusal := answer (run (requestArrives .orientFree) s)

/-- INDICATE_SET (R185). -/
def execIndicateSet (line source pattern : Nat) (s : State) : Host.Outcome State Fault Refusal :=
  answer (run (requestArrives (.indicateSet line source pattern)) s)

/-- SLEEP_CONFIRM (R175, R177). -/
def execSleepConfirm (s : State) : Host.Outcome State Fault Refusal := answer (run (requestArrives .sleepConfirm) s)

/-- SLEEP_DECLINE (R175). -/
def execSleepDecline (s : State) : Host.Outcome State Fault Refusal := answer (run (requestArrives .sleepDecline) s)

/-- HOST_SLEEP (R176). -/
def execHostSleep (s : State) : Host.Outcome State Fault Refusal := answer (run (requestArrives .hostSleep) s)

/-- STORE_SAVE (R207). -/
def execStoreSave (s : State) : Host.Outcome State Fault Refusal := answer (run (requestArrives .storeSave) s)

/-- STORE_ERASE (R208). -/
def execStoreErase (s : State) : Host.Outcome State Fault Refusal := answer (run (requestArrives .storeErase) s)

/-- RESTART (R202, R209). -/
def execRestart (s : State) : Host.Outcome State Fault Refusal := answer (run (requestArrives .restart) s)

end Sys2Proof.Machine
end

