-- ==== Sys2Proof/Machine/Resets.lean ====
section
/-! DEFINITION. Cold reset, RESTART and the asserted reset line (R209 and each chapter's reset rule). -/
namespace Sys2Proof.Machine

/-- DIE-OT after a reset follows the temperature; detected, it is sticky (R140, R146). -/
def otFollows (raw stickyKept : Bool) : Alarm :=
  { Alarm.coldOt with raw := raw, detected := raw, sticky := stickyKept || raw }

/-- The ALARM input at the level the guard's reset state gives (R188). -/
def withAlarmInput (s : State) : State :=
  { s with policy := { s.policy with inputs := { s.policy.inputs with alarm := anyDetected s.guard.alarms } } }

/-- Every block in its cold reset state and start-up begun (R209). The outside world stays: the queue of commands, the time, the pins,
the temperature, the contents of the store, cut off in a page write if one was in progress. -/
def coldReset (s : State) : State :=
  let dieOt := otFollows s.guard.alarms.dieOt.raw false
  withAlarmInput
    { State.reset with
      pending := s.pending
      now := s.now
      fresh := s.fresh + 1
      pins := s.pins
      guard := { Guard.cold with alarms := { Guard.cold.alarms with dieOt := dieOt } }
      store := { Store.cold with eeprom := cutOffContents s } }

/-- An output cause after RESTART: latch and sticky kept, detected while latched, its settings at their defaults (R146). -/
def alarmRestarted (a : Alarm) : Alarm := { Alarm.cold with latch := a.latch, detected := a.latch, sticky := a.sticky }

/-- The guard after RESTART (R146). -/
def guardRestarted (g : Guard) : Guard :=
  let a := g.alarms
  { Guard.cold with
    cap := g.cap
    alarms := ⟨alarmRestarted a.railOc, alarmRestarted a.railUv, alarmRestarted a.coilOc, alarmRestarted a.coilUv,
               otFollows a.dieOt.raw a.dieOt.sticky⟩ }

/-- Every block in its RESTART state and start-up begun: what each chapter says is kept through RESTART is kept (R209). -/
def restartHub (s : State) : State :=
  withAlarmInput
    { State.reset with
      pending := s.pending
      now := s.now
      fresh := s.fresh
      pins := s.pins
      uplinkErrors := s.uplinkErrors
      route := { State.reset.route with ingress := s.route.ingress }
      att := { Attachment.cold with attachCount := s.att.attachCount }
      issuer := { Issuer.cold with stray := s.issuer.stray, discarded := s.issuer.discarded }
      posture := { PostureUnit.cold with faults := s.posture.faults, slips := s.posture.slips }
      guard := guardRestarted s.guard
      pen := { Charger.cold with count := s.pen.count }
      mgmt := { Mgmt.cold with overrun := s.mgmt.overrun }
      store := { Store.cold with lastOp := s.store.lastOp, eeprom := s.store.eeprom } }

/-- The reset line is asserted: outputs off, wake line released, uplink silent; a page write is cut off (R209, log 18). -/
def holdInReset (s : State) : State :=
  { s with
    held := true
    fresh := s.fresh + 1
    tx := .idle
    guard := { s.guard with railOn := false, coilOn := false }
    sleep := { s.sleep with wakeLine := .released, pulse := none }
    policy := { s.policy with events := [] }
    store := { s.store with eeprom := cutOffContents s, exchange := none, timer := none } }

end Sys2Proof.Machine
end

