-- ==== Sys2Proof/Machine/ResetStore.lean ====
section
/-! DEFINITION. The meanings of the resets and of the store's answers (R203 to R209). -/
namespace Sys2Proof.Machine

/-- COLD_RESET: power-on, or the release of the reset line (R209). -/
def execColdReset (s : State) : Host.Outcome State Fault Refusal := answer (finish (coldReset s))

/-- RESTART_TAKES_EFFECT: the last byte of the RESTART reply has been sent (R209, R202, log 17). -/
def execRestartTakesEffect (s : State) : Host.Outcome State Fault Refusal :=
  answer (run (fun s => if s.mgmt.restart = .armed then restartHub s else s) s)

/-- STORE_READ_ANSWERED (R204, R205). -/
def execStoreReadAnswered (bytes : List Byte) (s : State) : Host.Outcome State Fault Refusal :=
  answer (run (readAnswered bytes) s)

/-- STORE_EXCHANGE_UNANSWERED (R203, R204, R207, R208). -/
def execStoreExchangeUnanswered (s : State) : Host.Outcome State Fault Refusal := answer (run exchangeUnanswered s)

/-- PAGE_WRITE_TAKEN (R207, R208). -/
def execPageWriteTaken (s : State) : Host.Outcome State Fault Refusal := answer (run pageTaken s)

/-- RESET_LINE_ASSERTED (R209). -/
def execResetLineAsserted (s : State) : Host.Outcome State Fault Refusal :=
  answer (if s.held then s else holdInReset s)

end Sys2Proof.Machine
end

