-- ==== Sys2Proof/Machine/SensorEvents.lean ====
section
/-! DEFINITION. The meanings of the hinge switches, the end switches and the lid accelerometer (R88 to R119). -/
namespace Sys2Proof.Machine

/-- The sample period expires: a read starts and the timer restarts (R109). -/
def samplePeriodExpires (s : State) : State :=
  if s.poller.period.isSome then
    { s with poller := { s.poller with period := startMs (periodMs s.poller.rate), reading := true } }
  else s

/-- A read completes and its LID-MOTION frame reaches the route engine; a bus error gives six bytes of 0, damaged (R110). -/
def lidMotionMade (x y z : Word16) (busError : Bool) (s : State) : State :=
  let payload := if busError then List.replicate 6 0#8 else encWord x ++ encWord y ++ encWord z
  routeFrame .lidMotion 0x01#8 payload busError { s with poller := { s.poller with reading := false } }

/-- ENCODER_CODE_CHANGE (R88 to R90). -/
def execEncoderCodeChange (code : BitVec 3) (s : State) : Host.Outcome State Fault Refusal :=
  answer (runPin (fun p => { p with code := code }) (codeChanges code) s)

/-- SETTLE_TIMER_EXPIRY (R91). -/
def execSettleTimerExpiry (s : State) : Host.Outcome State Fault Refusal :=
  answer (run (fun s => if s.posture.settle.isSome then settleExpires s else s) s)

/-- LID_SWITCH_ASSERT (R94). -/
def execLidSwitchAssert (s : State) : Host.Outcome State Fault Refusal :=
  answer (runPin (fun p => { p with lidClosed := true }) lidAsserts s)

/-- LID_SWITCH_RELEASE (R94). -/
def execLidSwitchRelease (s : State) : Host.Outcome State Fault Refusal :=
  answer (runPin (fun p => { p with lidClosed := false }) lidReleases s)

/-- FOLD_FLAT_ASSERT (R95). -/
def execFoldFlatAssert (s : State) : Host.Outcome State Fault Refusal :=
  answer (runPin (fun p => { p with foldFlat := true }) foldFlatAsserts s)

/-- FOLD_FLAT_RELEASE (R95). -/
def execFoldFlatRelease (s : State) : Host.Outcome State Fault Refusal :=
  answer (runPin (fun p => { p with foldFlat := false }) foldFlatReleases s)

/-- SAMPLE_PERIOD_EXPIRY (R109). -/
def execSamplePeriodExpiry (s : State) : Host.Outcome State Fault Refusal := answer (run samplePeriodExpires s)

/-- LID_MOTION (R110). -/
def execLidMotion (x y z : Word16) (busError : Bool) (s : State) : Host.Outcome State Fault Refusal :=
  answer (run (lidMotionMade x y z busError) s)

/-- DWELL_REACHED (R115). -/
def execDwellReached (s : State) : Host.Outcome State Fault Refusal :=
  answer (run (fun s => if s.store.state = .starting then s else dwellReached s) s)

end Sys2Proof.Machine
end

