-- ==== Sys2Proof/Machine/SleepEvents.lean ====
section
/-! DEFINITION. The meanings of the timers of the sleep controller and the indicator lines (R173 to R184). -/
namespace Sys2Proof.Machine

/-- The confirm window expires (R175). -/
def confirmExpires (s : State) : State :=
  if s.sleep.confirm.isSome then
    postSleep .abandoned { s with sleep := { s.sleep with power := .awake, confirm := none } }
  else s

/-- The pulse of the wake line ends (R178). -/
def wakePulseEnds (s : State) : State :=
  if s.sleep.pulse.isSome then { s with sleep := { s.sleep with pulse := none, wakeLine := .released } } else s

/-- The wake window expires: another pulse, or after the fourth the line held (R179). -/
def wakeWindowExpires (s : State) : State :=
  if s.sleep.wakeWindow.isSome then
    if s.sleep.pulses < 4 then pulseWakeLine s
    else { s with sleep := { s.sleep with wakeWindow := none, pulse := none, wakeLine := .held } }
  else s

/-- A blink phase of a line ends (R184). -/
def blinkExpires (line : LedLine) (s : State) : State :=
  match line with
  | .line1 => { s with policy := { s.policy with line1 := s.policy.line1.blinkExpires } }
  | .line2 => { s with policy := { s.policy with line2 := s.policy.line2.blinkExpires } }

/-- The stretch timer of a line expires (R184). -/
def stretchExpires (line : LedLine) (s : State) : State :=
  match line with
  | .line1 => { s with policy := { s.policy with line1 := s.policy.line1.stretchExpires s.policy.inputs } }
  | .line2 => { s with policy := { s.policy with line2 := s.policy.line2.stretchExpires s.policy.inputs } }

/-- GRACE_TIMER_EXPIRY (R173). -/
def execGraceTimerExpiry (s : State) : Host.Outcome State Fault Refusal :=
  answer (run (fun s => if s.sleep.grace.isSome then graceExpires s else s) s)

/-- CONFIRM_WINDOW_EXPIRY (R175). -/
def execConfirmWindowExpiry (s : State) : Host.Outcome State Fault Refusal := answer (run confirmExpires s)

/-- WAKE_PULSE_END (R178). -/
def execWakePulseEnd (s : State) : Host.Outcome State Fault Refusal := answer (run wakePulseEnds s)

/-- WAKE_WINDOW_EXPIRY (R179). -/
def execWakeWindowExpiry (s : State) : Host.Outcome State Fault Refusal := answer (run wakeWindowExpires s)

/-- BLINK_PHASE_EXPIRY (R184). -/
def execBlinkPhaseExpiry (line : LedLine) (s : State) : Host.Outcome State Fault Refusal := answer (run (blinkExpires line) s)

/-- STRETCH_TIMER_EXPIRY (R184). -/
def execStretchTimerExpiry (line : LedLine) (s : State) : Host.Outcome State Fault Refusal :=
  answer (run (stretchExpires line) s)

end Sys2Proof.Machine
end

