-- ==== Sys2Proof/Machine/Uplink.lean ====
section
/-! DEFINITION. The uplink port (R1, R2, R5 to R10, R14): the receiver, the hand-off, the end of a parcel sent, and the bytes of
what is sent on either link (R3, R15, R201). -/
namespace Sys2Proof.Machine

/-! ## Parcels and frames as bytes (R1, R2, R3, R201) -/

/-- A parcel on the line: marker, kind, tag, length, payload, CRC-16 (R1). -/
def parcelBytes (kind tag : Byte) (payload : List Byte) : List Byte :=
  let checked := kind :: tag :: encRun payload
  0xD3#8 :: checked ++ encWord (crc16 checked)

/-- The code of a notice kind (R201). -/
def noticeCode : NoticeKind → Byte
  | .start => 1#8 | .posture => 2#8 | .orientation => 3#8 | .attach => 4#8 | .link => 5#8 | .charge => 6#8 | .alarm => 7#8
  | .sleep => 8#8 | .encoder => 9#8 | .budget => 10#8 | .store => 11#8

/-- A field that its notice always carries: the value without a mark (R194, R201). -/
def encGiven {α : Type} (enc : α → List Byte) (v : Option α) : List Byte := (v.map enc).getD []

def encAttach : AttachEvent → List Byte
  | .attached src model => 1#8 :: encGiven (encNamed idSourceList) src ++ encOpt encWord model
  | .detached => [2#8]
  | .unpowered demand => 3#8 :: enc16 demand
  | .faulted => [4#8]

def encLinkCause : LinkCause → List Byte
  | .noBase st => 1#8 :: encNamed linkStateList st
  | .lost => [2#8]
  | .unreachable => [3#8]
  | .restored r => 4#8 :: encGiven (encNamed linkRateList) r
  | .diagnosed p1 p2 p3 p4 => 5#8 :: [p1, p2, p3, p4].flatMap (encGiven (encNamed pinOutcomeList))

def encProtection : Protection → List Byte
  | .stop => [1#8]
  | .limit cap => 2#8 :: encNamed capList cap
  | .off => [3#8]
  | .none => [4#8]

def encAlarmGrant : AlarmGrant → List Byte
  | .rail mw => enc16 mw
  | .coil l => encGrant l
  | .noOutput => []

/-- What withdrew the question (R175). Of a policy event the notice carries its name, the position in the list of R164, and not what the event
itself carries, by the model's choice (log 54). -/
def encWithdrawal : Withdrawal → List Byte
  | .sleepCancel => [1#8]
  | .wake k => 2#8 :: encNamed eventList k
  | .frame src => 3#8 :: encNamed sourceList src

def encoderCode : EncoderCause → Byte
  | .invalidCode => 1#8 | .oppositeJump => 2#8 | .range => 3#8

def budgetCauseCode : BudgetCause → Byte
  | .baseClaim => 1#8 | .baseRelease => 2#8 | .penClaim => 3#8 | .penRelease => 4#8 | .budget => 5#8 | .limit => 6#8
  | .clear => 7#8

/-- The content of a notice, in the order of R201. In ENCODER the code is one byte with switch A as bit 2, B as bit 1 and C as bit 0, by the
model's choice: R88, R90 and R194 give the switches no weights (log 56). -/
def noticeContent : Notice → List Byte
  | .start r => encResult r
  | .posture new old count moving =>
    encNamed postureList new ++ encNamed postureList old ++ encOpt enc8 count ++ encTwo moving
  | .orientation new old cand flat locked =>
    encNamed orientationList new ++ encNamed orientationList old ++ encNamed orientationList cand ++ encTwo flat
      ++ encTwo (!locked)
  | .attach e => encAttach e
  | .link c => encLinkCause c
  | .charge new old fault docked granted battery =>
    encNamed penStateList new ++ encNamed penStateList old ++ encOpt (encNamed faultCauseList) fault ++ encTwo docked
      ++ encGrant granted ++ encOpt enc8 battery
  | .alarm c p g => encNamed causeList c ++ encProtection p ++ encAlarmGrant g
  | .sleep c power =>
    match c with
    | .ask => 1#8 :: encNamed powerList power
    | .abandoned => 2#8 :: encNamed powerList power
    | .withdrawn w => 3#8 :: encNamed powerList power ++ encWithdrawal w
  | .encoderFault c code before => encoderCode c :: enc8 code.toNat ++ encOpt enc8 before
  | .encoderSlip src before after => 4#8 :: encNamed refSourceList src ++ enc8 before ++ enc8 after
  | .budget active budget base pen claimed cap cause =>
    enc8 active ++ enc16 budget ++ enc16 base ++ encGrant pen ++ encOpt (encNamed claimedList) claimed
      ++ encOpt (encNamed capList) cap ++ [budgetCauseCode cause]
  | .store op e => encNamed storeOpList op ++ encNamed storeEndList e

/-- A NOTICE parcel (R201). -/
def noticeParcel (p : Pending) : List Byte :=
  parcelBytes 0x04#8 (noticeCode p.notice.kind) (noticeContent p.notice ++ [p.count])

/-- A REPLY parcel (R191). -/
def replyParcel (r : Reply) : List Byte := parcelBytes 0x03#8 r.code (statusCode r.status :: r.content)

/-- The channel of an upstream frame. -/
def channelOf : Dest → Byte
  | .base => 0#8
  | .channel n => BitVec.ofNat 8 n

/-- A hub-sent DATA parcel (R2, R14). -/
def dataParcel (f : Frame) : List Byte :=
  parcelBytes 0x01#8 (channelOf f.dest)
    (encNamed sourceList (f.source.getD .uplink) ++ [f.kind, if f.damaged then 1#8 else 0#8] ++ f.payload)

/-- The parcel that the transmitter is sending (R8). -/
def parcelOnLine (s : State) : Option (List Byte) :=
  match s.tx with
  | .idle => none
  | .reply => s.mgmt.holder.map replyParcel
  | .notice p => some (noticeParcel p)
  | .data => s.pool.up.head?.map dataParcel

/-- A hinge link frame: kind, length, payload, CRC-8 (R3). -/
def hingeBytes (kind : Byte) (payload : List Byte) : List Byte :=
  let checked := kind :: encRun payload
  checked ++ [crc8 checked]

/-- The frame that the hinge link transmitter is sending (R15). -/
def frameOnHinge (s : State) : Option (List Byte) :=
  if s.pool.hingeBusy then s.pool.down.head?.map (fun f => hingeBytes f.kind f.payload) else none

/-- The DESCRIBE frame of the chunk under request (R48). -/
def describeFrame (s : State) : Option (List Byte) :=
  if s.link.describe.isSome then some (hingeBytes 0x41#8 (enc8 s.link.chunk)) else none

/-! ## The hand-off (R7) -/

/-- A DATA parcel that has passed its check (R7). -/
def dataHandedOn (tag : Byte) (payload : List Byte) (s : State) : State :=
  match payload with
  | kind :: rest =>
    if 1 ≤ tag.toNat ∧ tag.toNat ≤ 15 ∧ 0x50 ≤ kind.toNat ∧ kind.toNat ≤ 0x7F then routeFrame .uplink kind rest false s
    else { s with uplinkErrors := satInc s.uplinkErrors }
  | [] => { s with uplinkErrors := satInc s.uplinkErrors }

/-- A parcel that has passed its check is handed on by kind (R7). -/
def handOn (kind tag : Byte) (payload : List Byte) (s : State) : State :=
  if kind = 0x01#8 then dataHandedOn tag payload s else requestArrives (parseRequest tag payload) s

/-! ## The receiver (R5, R6) -/

/-- A receive fault (R6). -/
def receiveFaults (s : State) : State :=
  { s with rx := ⟨.hunting, []⟩, uplinkErrors := satInc s.uplinkErrors }

/-- The marker is taken. -/
def markerTaken (s : State) : State := { s with rx := ⟨.receiving, [0xD3#8]⟩ }

/-- The parcel in the receive buffer, complete: its check is made, and it is handed on (R5, R6, R7). -/
def parcelComplete (buf : List Byte) (s : State) : State :=
  match buf with
  | _marker :: kind :: tag :: length :: rest =>
    let payload := rest.take length.toNat
    if encWord (crc16 (kind :: tag :: length :: payload)) = rest.drop length.toNat then
      handOn kind tag payload { s with rx := ⟨.idle, []⟩ }
    else receiveFaults s
  | _ => receiveFaults s

/-- A byte in RECEIVING: Kind and Length are checked as they arrive (R5, R6). -/
def byteAdded (buf : List Byte) (s : State) : State :=
  let s := { s with rx := ⟨.receiving, buf⟩ }
  match buf with
  | [_, kind] => if kind = 0x01#8 ∨ kind = 0x02#8 then s else receiveFaults s
  | [_, _, _, length] => if 240 < length.toNat then receiveFaults s else s
  | _ :: _ :: _ :: length :: rest => if rest.length = length.toNat + 2 then parcelComplete buf s else s
  | _ => s

/-- A byte arrives from the host (R5). -/
def byteArrives (s : State) (b : Byte) : State :=
  match s.rx.mode with
  | .idle => if b = 0xD3#8 then markerTaken s else receiveFaults s
  | .receiving => byteAdded (s.rx.buf ++ [b]) s
  | .hunting => if b = 0xD3#8 then markerTaken s else s

/-- Bytes arrive one after another. -/
def bytesArrive (bytes : List Byte) (s : State) : State := bytes.foldl byteArrives s

/-- A whole good parcel arrives (log 8): with the receiver IDLE or HUNTING it is handed on and the receiver is IDLE; while a parcel is
being received its bytes are taken as that parcel's (R5). -/
def parcelArrives (kind tag : Byte) (payload : List Byte) (s : State) : State :=
  match s.rx.mode with
  | .receiving => bytesArrive (parcelBytes kind tag payload) s
  | .idle | .hunting => handOn kind tag payload { s with rx := ⟨.idle, []⟩ }

/-! ## The end of a parcel (R8, R14, R189, R202) -/

/-- The last byte of a parcel has been sent: its source is released, and the engine takes its next request or the restart is made. -/
def parcelSent (s : State) : State :=
  match s.tx with
  | .idle => s
  | .reply =>
    let s := { s with tx := .idle, mgmt := { s.mgmt with holder := none } }
    if s.mgmt.restart = .armed then restartHub s else engineTakes s
  | .notice _ => { s with tx := .idle }
  | .data => { s with tx := .idle, pool := { s.pool with up := s.pool.up.tail } }

end Sys2Proof.Machine
end

