-- ==== Sys2Proof/Machine/UplinkPort.lean ====
section
/-! DEFINITION. The meanings of the uplink port's events (R5 to R9). -/
namespace Sys2Proof.Machine

/-- RECEIVE_FAULT, with the bytes that arrive (R5, R6). The bytes of one command are one change: of several parcels that they complete each
is handed on in turn, and the policy events and the transmitter's choice come once, after the last byte, by the model's choice (log 8). -/
def execReceiveFault (bytes : List Byte) (s : State) : Host.Outcome State Fault Refusal := answer (run (bytesArrive bytes) s)

/-- DATA_PARCEL (R7). Taken while a parcel is being received, its bytes are one change as those of RECEIVE_FAULT are (log 8). -/
def execDataParcel (tag : Byte) (payload : List Byte) (s : State) : Host.Outcome State Fault Refusal :=
  answer (run (parcelArrives 0x01#8 tag payload) s)

/-- REQUEST_PARCEL (R7, R189). Taken while a parcel is being received, its bytes are one change as those of RECEIVE_FAULT are (log 8). -/
def execRequestParcel (code : Byte) (payload : List Byte) (s : State) : Host.Outcome State Fault Refusal :=
  answer (run (parcelArrives 0x02#8 code payload) s)

/-- PARCEL_SENT (R8). -/
def execParcelSent (s : State) : Host.Outcome State Fault Refusal := answer (run parcelSent s)

end Sys2Proof.Machine
end

