-- ==== Sys2Proof/Machine/Dispatch.lean ====
section
/-! DEFINITION. exec: one arm per command, each the call of its meaning. -/
namespace Sys2Proof.Machine

/-- The effect of a command on everything but the queue. -/
def exec (i : Instr) (s : State) : Host.Outcome State Fault Refusal :=
  match i with
  | .coldReset => Sys2Proof.Machine.execColdReset s
  | .restartTakesEffect => Sys2Proof.Machine.execRestartTakesEffect s
  | .storeReadAnswered bytes => Sys2Proof.Machine.execStoreReadAnswered bytes s
  | .storeExchangeUnanswered => Sys2Proof.Machine.execStoreExchangeUnanswered s
  | .pageWriteTaken => Sys2Proof.Machine.execPageWriteTaken s
  | .receiveFault bytes => Sys2Proof.Machine.execReceiveFault bytes s
  | .dataParcel tag payload => Sys2Proof.Machine.execDataParcel tag payload s
  | .requestParcel code payload => Sys2Proof.Machine.execRequestParcel code payload s
  | .parcelSent => Sys2Proof.Machine.execParcelSent s
  | .unknownRequest code => Sys2Proof.Machine.execUnknownRequest code s
  | .hello => Sys2Proof.Machine.execHello s
  | .routeTableWrite index e => Sys2Proof.Machine.execRouteTableWrite index e s
  | .windowTableWrite index w => Sys2Proof.Machine.execWindowTableWrite index w s
  | .policyTableWrite index e => Sys2Proof.Machine.execPolicyTableWrite index e s
  | .routeTableRead index => Sys2Proof.Machine.execRouteTableRead index s
  | .windowTableRead index => Sys2Proof.Machine.execWindowTableRead index s
  | .policyTableRead index => Sys2Proof.Machine.execPolicyTableRead index s
  | .countersReadUplink => Sys2Proof.Machine.execCountersReadUplink s
  | .countersReadRoute => Sys2Proof.Machine.execCountersReadRoute s
  | .countersReadIssuer => Sys2Proof.Machine.execCountersReadIssuer s
  | .countersReadPosture => Sys2Proof.Machine.execCountersReadPosture s
  | .recordReadPosture => Sys2Proof.Machine.execRecordReadPosture s
  | .recordReadOrientation => Sys2Proof.Machine.execRecordReadOrientation s
  | .recordReadAttachment => Sys2Proof.Machine.execRecordReadAttachment s
  | .recordReadCharge => Sys2Proof.Machine.execRecordReadCharge s
  | .recordReadSupply => Sys2Proof.Machine.execRecordReadSupply s
  | .recordReadSleep => Sys2Proof.Machine.execRecordReadSleep s
  | .recordReadStore => Sys2Proof.Machine.execRecordReadStore s
  | .splitSet share => Sys2Proof.Machine.execSplitSet share s
  | .settingsSet a => Sys2Proof.Machine.execSettingsSet a s
  | .baseRequest target command data => Sys2Proof.Machine.execBaseRequest target command data s
  | .baseReset => Sys2Proof.Machine.execBaseReset s
  | .linkDiagnose => Sys2Proof.Machine.execLinkDiagnose s
  | .alarmRead => Sys2Proof.Machine.execAlarmRead s
  | .alarmClear causes => Sys2Proof.Machine.execAlarmClear causes s
  | .guardSet a => Sys2Proof.Machine.execGuardSet a s
  | .budgetSet a => Sys2Proof.Machine.execBudgetSet a s
  | .chargeSetLevel l => Sys2Proof.Machine.execChargeSetLevel l s
  | .chargeSetHold => Sys2Proof.Machine.execChargeSetHold s
  | .chargeSetRelease => Sys2Proof.Machine.execChargeSetRelease s
  | .chargeSetRestart => Sys2Proof.Machine.execChargeSetRestart s
  | .orientSetLock => Sys2Proof.Machine.execOrientSetLock s
  | .orientSetFree => Sys2Proof.Machine.execOrientSetFree s
  | .indicateSet line source pattern => Sys2Proof.Machine.execIndicateSet line source pattern s
  | .sleepConfirm => Sys2Proof.Machine.execSleepConfirm s
  | .sleepDecline => Sys2Proof.Machine.execSleepDecline s
  | .hostSleep => Sys2Proof.Machine.execHostSleep s
  | .storeSave => Sys2Proof.Machine.execStoreSave s
  | .storeErase => Sys2Proof.Machine.execStoreErase s
  | .restart => Sys2Proof.Machine.execRestart s
  | .presenceAssert => Sys2Proof.Machine.execPresenceAssert s
  | .detach => Sys2Proof.Machine.execDetach s
  | .debounceExpiry => Sys2Proof.Machine.execDebounceExpiry s
  | .railUpExpiry => Sys2Proof.Machine.execRailUpExpiry s
  | .trainingEcho unchanged => Sys2Proof.Machine.execTrainingEcho unchanged s
  | .echoWindowExpiry => Sys2Proof.Machine.execEchoWindowExpiry s
  | .retryTimerExpiry => Sys2Proof.Machine.execRetryTimerExpiry s
  | .describeWindowExpiry => Sys2Proof.Machine.execDescribeWindowExpiry s
  | .baseTrafficFrame kind payload check => Sys2Proof.Machine.execBaseTrafficFrame kind payload check s
  | .response payload check => Sys2Proof.Machine.execResponse payload check s
  | .busyResponse payload check => Sys2Proof.Machine.execBusyResponse payload check s
  | .reject payload check => Sys2Proof.Machine.execReject payload check s
  | .wakeSignal payload check => Sys2Proof.Machine.execWakeSignal payload check s
  | .unlistedKindFrame kind payload check => Sys2Proof.Machine.execUnlistedKindFrame kind payload check s
  | .quietTimerExpiry => Sys2Proof.Machine.execQuietTimerExpiry s
  | .wakeTimeExpiry => Sys2Proof.Machine.execWakeTimeExpiry s
  | .keepaliveTimerExpiry => Sys2Proof.Machine.execKeepaliveTimerExpiry s
  | .keepaliveEcho => Sys2Proof.Machine.execKeepaliveEcho s
  | .keepaliveWindowExpiry => Sys2Proof.Machine.execKeepaliveWindowExpiry s
  | .resetDriveExpiry => Sys2Proof.Machine.execResetDriveExpiry s
  | .diagnosisMeasurementEnd outcome => Sys2Proof.Machine.execDiagnosisMeasurementEnd outcome s
  | .hingeFrameSent => Sys2Proof.Machine.execHingeFrameSent s
  | .responseWindowExpiry => Sys2Proof.Machine.execResponseWindowExpiry s
  | .discardTimerExpiry target command => Sys2Proof.Machine.execDiscardTimerExpiry target command s
  | .encoderCodeChange code => Sys2Proof.Machine.execEncoderCodeChange code s
  | .settleTimerExpiry => Sys2Proof.Machine.execSettleTimerExpiry s
  | .lidSwitchAssert => Sys2Proof.Machine.execLidSwitchAssert s
  | .lidSwitchRelease => Sys2Proof.Machine.execLidSwitchRelease s
  | .foldFlatAssert => Sys2Proof.Machine.execFoldFlatAssert s
  | .foldFlatRelease => Sys2Proof.Machine.execFoldFlatRelease s
  | .samplePeriodExpiry => Sys2Proof.Machine.execSamplePeriodExpiry s
  | .lidMotion x y z busError => Sys2Proof.Machine.execLidMotion x y z busError s
  | .dwellReached => Sys2Proof.Machine.execDwellReached s
  | .alarmRawAppears cause => Sys2Proof.Machine.execAlarmRawAppears cause s
  | .alarmRawClears cause => Sys2Proof.Machine.execAlarmRawClears cause s
  | .filterTimerExpiry cause => Sys2Proof.Machine.execFilterTimerExpiry cause s
  | .dieOtDetected => Sys2Proof.Machine.execDieOtDetected s
  | .dieOtCleared => Sys2Proof.Machine.execDieOtCleared s
  | .dockSwitchAssert => Sys2Proof.Machine.execDockSwitchAssert s
  | .dockDebounceExpiry => Sys2Proof.Machine.execDockDebounceExpiry s
  | .penRemoval => Sys2Proof.Machine.execPenRemoval s
  | .penStatus payload damaged => Sys2Proof.Machine.execPenStatus payload damaged s
  | .detectWindowExpiry => Sys2Proof.Machine.execDetectWindowExpiry s
  | .rampTimerExpiry => Sys2Proof.Machine.execRampTimerExpiry s
  | .silenceTimerExpiry => Sys2Proof.Machine.execSilenceTimerExpiry s
  | .graceTimerExpiry => Sys2Proof.Machine.execGraceTimerExpiry s
  | .confirmWindowExpiry => Sys2Proof.Machine.execConfirmWindowExpiry s
  | .wakePulseEnd => Sys2Proof.Machine.execWakePulseEnd s
  | .wakeWindowExpiry => Sys2Proof.Machine.execWakeWindowExpiry s
  | .blinkPhaseExpiry line => Sys2Proof.Machine.execBlinkPhaseExpiry line s
  | .stretchTimerExpiry line => Sys2Proof.Machine.execStretchTimerExpiry line s
  | .resetLineAsserted => Sys2Proof.Machine.execResetLineAsserted s

end Sys2Proof.Machine
end

