-- ==== Sys2Proof/Machine/Step.lean ====
section
/-! DEFINITION. One step: the command at the front of the queue, or, with none waiting, the time base (log 1). -/
namespace Sys2Proof.Machine

/-- With no command waiting: an expiry that is due is taken, and with none due 0.1 ms passes. -/
def idle (s : State) : Host.Outcome State Fault Refusal :=
  if s.held then .next { s with now := s.now + 1 }
  else match dueCommands s with
    | [] => .next (advance s)
    | [c] => exec c s
    | l =>
      match chooseDue s.fresh l with
      | some c => exec c { s with fresh := s.fresh + 1 }
      | none => .next s

/-- One step. -/
def step (s : State) : Host.Outcome State Fault Refusal :=
  match s.pending with
  | c :: rest => exec c { s with pending := rest }
  | [] => idle s

/-- The state with the command that a word spells put at the front of its queue; no word of the table spells one. -/
def State.withFetchWord (s : State) (nbits w : Nat) : State :=
  match decodeTableWord nbits w with
  | some c => { s with pending := c :: s.pending }
  | none => s

end Sys2Proof.Machine
end

