-- ==== Sys2Proof/Safety.lean ====
section
/-! DEFINITION. What "safe" says of this machine, the conditions under which commands are taken, and the invariants the statements are
about: no step faults and none is refused (log 40), start-up is quiet, the records stay in their ranges. -/
namespace Sys2Proof

/-- The outcome is a next state. -/
def IsNext {σ φ ρ : Type} (o : Host.Outcome σ φ ρ) : Prop := ∃ s, o = .next s

/-- A run of so many steps ends in a next state. -/
def RunsOn (s : Machine.State) : Nat → Prop
  | 0 => True
  | k + 1 => ∃ t, Machine.step s = .next t ∧ RunsOn t k

namespace Machine

/-- Every step from a state with the property leads to one with it. -/
def EveryStepKeeps (inv : State → Prop) : Prop := ∀ s t, inv s → step s = .next t → inv t

/-! ## When commands are taken -/

/-- Outside reset with no event left from another change: the hub as every change leaves it. -/
abbrev Running (s : State) : Prop := s.held = false ∧ s.policy.events = []

/-- The management engine is IDLE with nothing waiting and start-up is over, so a request is taken as it arrives (R189, R192). -/
abbrev Attentive (s : State) : Prop :=
  Running s ∧ s.store.state ≠ .starting ∧ s.mgmt.intake = [] ∧ s.mgmt.holder = none ∧ s.mgmt.restart = .none

/-- A request command is taken, answered with a status and a content, and leaves the hub in a state (R189, R191); the reply is then in
the holder and the transmitters make their next choice. -/
def Replies (c : Instr) (s : State) (code : Byte) (st : Status) (content : List Byte) (t : State) : Prop :=
  exec c s = .next (finish { t with mgmt := { t.mgmt with holder := some ⟨code, st, content⟩ } })

/-- A change of link state with its reports, no grace having expired (R42, R96, R183): a rate stays in the states that can hold one, the
NO-BASE mark and the base run are cleared, the hold-off BASE-IDENTIFYING and the indicator input ATTACH follow. -/
def linkChanged (new : LinkState) (s : State) : State :=
  setInputs { s.policy.inputs with attach := decide (new = .ready ∨ new = .quiet) }
    { s with
      link := { s.link with
        state := new
        rate := if new ∈ [.training, .identifying, .ready, .quiet, .diagnosing] then s.link.rate else none }
      route := { s.route with noBase := false }
      posture := { s.posture with baseRun := none }
      sleep := { s.sleep with holds := { s.sleep.holds with
        baseIdentifying := decide (new ∈ [.powering, .training, .identifying]) } } }

/-- Every request open is GONE, its discard timer started, the window and the waiting offer empty, the hold-off gone (R84, R85), no grace
having expired. -/
def requestsGone (s : State) : State :=
  { s with
    issuer := { s.issuer with
      table := s.issuer.table.map (fun e =>
        if e.state = .done then e
        else { e with state := .done, outcome := some .gone, response := none, discard := some (10 * s.issuer.discardTime) })
      window := none
      waiting := none }
    sleep := { s.sleep with holds := { s.sleep.holds with requestPending := false } } }

/-- The QUEUED entry that stands first in age order is offered: its COMMAND admitted whole to the downstream queue makes it ISSUED, and without
room it is the waiting offer (R75, R13). With no entry QUEUED nothing changes. -/
def oldestOffered (s : State) : State :=
  match s.issuer.table.find? (fun e => e.state == .queued) with
  | none => s
  | some e =>
    match s.pool.admitDown ⟨none, 0x40#8, .base, BitVec.ofNat 8 e.target :: e.command :: e.data, false, .issuer, []⟩ with
    | some p =>
      { s with
        pool := p
        issuer := { s.issuer with
          table := s.issuer.table.map (fun x =>
            if x.target = e.target ∧ x.command = e.command then { x with state := .issued } else x) } }
    | none => { s with issuer := { s.issuer with waiting := some (e.target, e.command) } }

/-- From s to t the link has ended (R42, R61 to R63, R68): every open request is GONE, the downstream queue flushed, the link without a rate,
every timer of it stopped with what waits for one, the NO-BASE mark and the base run cleared, and a diagnosis that was running is ended by
the cause, its record kept; nothing else of the attachment record changes but presence. -/
def LinkEnded (cause : DiagEnd) (s t : State) : Prop :=
  t.issuer = (requestsGone s).issuer ∧ t.pool = { s.pool with down := [], hingeBusy := false } ∧ t.link.rate = none ∧
  [t.link.debounce, t.link.railUp, t.link.echo, t.link.retry, t.link.describe, t.link.quiet, t.link.wake, t.link.keepAlive,
    t.link.kaWindow, t.link.resetDrive, t.link.diag] = List.replicate 11 none ∧
  t.link.quietWaits = false ∧ t.link.kaDue = false ∧ t.link.resetAfterRail = false ∧
  t.route = { s.route with noBase := false } ∧ t.posture.baseRun = none ∧
  t.att = { s.att with
    present := t.att.present
    diagnosis :=
      if s.link.state = .diagnosing then s.att.diagnosis.map (fun d => { d with endedBy := some cause }) else s.att.diagnosis }

/-! ## What the charger, the guard and the posture unit tell -/

/-- The highest level, at or below a limit and the cap, that fits beside a base grant (R125, R128). -/
def highestFit (g : Guard) (base : Nat) (limit : PenLevel) : Option PenLevel :=
  [PenLevel.fast, .steady, .trickle].find? (fun m =>
    decide (levelMw m ≤ levelMw limit) && g.cap.all (fun c => decide (levelMw m ≤ levelMw c)) && decide (levelMw m + base ≤ g.budget))

/-- A pen grant stepped down until it fits beside a base grant, 0 the last (R126 step 2, R130 step 1). -/
def steppedDown (budget base : Nat) (grant : Option PenLevel) : Option PenLevel :=
  [PenLevel.fast, .steady, .trickle].find? (fun m => decide (levelMw m ≤ grantMw grant) && decide (levelMw m + base ≤ budget))

/-- The pen grant that a re-grant beside a base grant leaves: below the claimed level and the cap it is raised as far as it fits (R129). -/
def regranted (g : Guard) (base : Nat) : Option PenLevel :=
  match g.claimed with
  | none => g.penGrant
  | some l =>
    if grantMw g.penGrant < levelMw l ∧ g.cap.all (fun c => decide (grantMw g.penGrant < levelMw c)) = true then highestFit g base l
    else g.penGrant

/-- The pen grant that a base claim within the budget leaves (R126): the one that stands where both fit, re-granted beside a smaller base
grant, else stepped down. -/
def besideClaim (g : Guard) (amount : Nat) : Option PenLevel :=
  if g.budget < amount + grantMw g.penGrant ∧ amount ≠ g.baseGrant then steppedDown g.budget amount g.penGrant
  else if amount < g.baseGrant then regranted g amount
  else g.penGrant

/-- The pen grant that a release of the base grant leaves (R127). -/
def afterRelease (g : Guard) : Option PenLevel := if g.baseGrant = 0 then g.penGrant else regranted g 0

/-- From s to t the session has changed, from one state last, and is told (R147, R183): the indicator input CHARGE follows it, and the CHARGE
notice carries the new state, the one before, the fault cause, the docked mark, the granted level and the battery percent. -/
def SessionTold (old : PenState) (s t : State) : Prop :=
  t.policy.inputs.charge = decide (t.pen.session = .softStart ∨ t.pen.session = .charging) ∧
  (s.mgmt.enables.charge = true →
    ∃ p, t.mgmt.notices.charge = some p ∧
      p.notice = .charge t.pen.session old t.pen.fault t.pen.docked t.guard.penGrant t.pen.battery)

/-- From s to t the session has not changed: the claim, CHARGE-STARTING and the indicator input CHARGE stay, and no CHARGE notice is posted. -/
def SessionStays (s t : State) : Prop :=
  t.pen.session = s.pen.session ∧ t.guard.claimed = s.guard.claimed ∧
  t.sleep.holds.chargeStarting = s.sleep.holds.chargeStarting ∧ t.policy.inputs.charge = s.policy.inputs.charge ∧
  t.mgmt.notices.charge = s.mgmt.notices.charge

/-- From s to t the session has entered a state that draws nothing, its claim released, and is told (R149, R152, R157, R158). -/
def SessionReleases (new : PenState) (fault : Option FaultCause) (s t : State) : Prop :=
  t.pen.session = new ∧ t.pen.fault = fault ∧ t.guard.claimed = none ∧ t.guard.penGrant = none ∧ t.guard.coilOn = false ∧
  t.sleep.holds.chargeStarting = false ∧ SessionTold s.pen.session s t

/-- From s to t the session has entered a state with a claim for a level: granted the highest level that fits it stands and is told; without
room it is PAUSED at once, the claim kept (R128, R151, R153 to R156). -/
def SessionClaims (new : PenState) (level : PenLevel) (s t : State) : Prop :=
  t.guard.claimed = some level ∧ t.pen.docked = s.pen.docked ∧
  match highestFit t.guard t.guard.baseGrant level with
  | some l =>
    t.guard.penGrant = some l ∧ t.pen.session = new ∧ t.sleep.holds.chargeStarting = decide (new = .softStart) ∧
    SessionTold s.pen.session s t
  | none =>
    t.guard.penGrant = none ∧ t.pen.session = .paused ∧ t.guard.coilOn = false ∧ t.sleep.holds.chargeStarting = false ∧
    SessionTold new s t

/-- From s to t the session resumes: HELD under a hold, else in SOFT-START with its level if a pen has answered, and in DETECT if not (R151,
R153, R156, R158). -/
def SessionResumes (s t : State) : Prop :=
  if s.pen.hold.isSome = true then SessionReleases .held none s t
  else if s.pen.docked = true then SessionClaims .softStart s.pen.requested s t
  else SessionClaims .detect .trickle s t

/-- From s to t the guard has made the pen grant g and told the charger (R156): a session that draws power and is left no grant is PAUSED with
its claim; a PAUSED one that is given a grant resumes; every other session stays. -/
def PenFollows (g : Option PenLevel) (s t : State) : Prop :=
  if g = s.guard.penGrant then t.guard.penGrant = g ∧ SessionStays s t
  else if s.pen.session ∈ [.detect, .softStart, .charging, .topped] ∧ g = none then
    t.pen.session = .paused ∧ t.guard.claimed = s.guard.claimed ∧ t.guard.penGrant = none ∧ t.guard.coilOn = false ∧
    t.sleep.holds.chargeStarting = false ∧ SessionTold s.pen.session s t
  else if s.pen.session = .paused ∧ g.isSome = true then SessionResumes s t
  else t.guard.penGrant = g ∧ SessionStays s t

/-- From s to t the guard has made one change of its figures and posted BUDGET with its cause, or none where every figure is as it was (R133).
A session that was PAUSED may add a claim of its own, and with it another notice. -/
def BudgetTold (cause : BudgetCause) (s t : State) : Prop :=
  s.pen.session ≠ .paused → s.mgmt.enables.budget = true →
    (t.guard.figures = s.guard.figures → t.mgmt.notices.budget = s.mgmt.notices.budget) ∧
    (t.guard.figures ≠ s.guard.figures →
      ∃ p, t.mgmt.notices.budget = some p ∧
        p.notice = .budget t.guard.active t.guard.budget t.guard.baseGrant t.guard.penGrant t.guard.claimed t.guard.cap cause)

/-- From s to t the posture has been evaluated (R99, R100, R103, R104): SLATE without a base, CLOSED with the lid closed, UNKNOWN after the lid
was opened and without a count; else, SETTLED, the window in force is kept while its range widened by its hysteresis holds the count and its
condition the candidate, else the lowest enabled window that holds both is taken, and with none a posture that a window gave stays. A new
posture is told by a POSTURE notice. -/
def PostureFollows (s t : State) : Prop :=
  let old := s.posture
  let new := t.posture
  let takes (w : Window) (widen n : Nat) : Prop :=
    w.lower ≤ w.upper ∧ w.lower ≤ n + widen ∧ n ≤ w.upper + widen ∧
    (w.cond = .any ∨ w.cond = .upright ∧ t.orient.candidate = .landscape ∨ w.cond = .inverted ∧ t.orient.candidate = .landscapeInverted)
  let open_ : Prop := t.att.present = true ∧ t.pins.lidClosed = false
  (t.att.present = false → new.posture = .slate ∧ new.window = none) ∧
  (t.att.present = true → t.pins.lidClosed = true → new.posture = .closed ∧ new.window = none) ∧
  (open_ → new.lidOpened = true ∨ new.count = none → new.posture = .unknown ∧ new.window = none) ∧
  (∀ n, open_ → new.lidOpened = false → new.count = some n →
    let kept : Prop := ∃ i w, old.window = some i ∧ new.windows[i]? = some w ∧ takes w w.hysteresis n
    (new.moving = true → new.posture = old.posture ∧ new.window = old.window) ∧
    (new.moving = false → ∀ i w, old.window = some i → new.windows[i]? = some w → takes w w.hysteresis n →
      new.posture = w.posture ∧ new.window = some i) ∧
    (new.moving = false → ¬ kept → ∀ i w, new.windows[i]? = some w → takes w 0 n →
      (∀ j v, j < i → new.windows[j]? = some v → ¬ takes v 0 n) → new.posture = w.posture ∧ new.window = some i) ∧
    (new.moving = false → ¬ kept → (∀ w ∈ new.windows, ¬ takes w 0 n) →
      if old.posture ∈ [.laptop, .stand, .tent, .tablet] then new.posture = old.posture ∧ new.window = old.window
      else new.posture = .unknown ∧ new.window = none)) ∧
  (new.posture = old.posture → new.previous = old.previous ∧ t.mgmt.notices.posture = s.mgmt.notices.posture) ∧
  (new.posture ≠ old.posture → new.previous = some old.posture ∧
    (s.mgmt.enables.posture = true →
      ∃ p, t.mgmt.notices.posture = some p ∧ p.notice = .posture new.posture old.posture new.count new.moving))

/-- With the reset line asserted a command changes the outside world's levels alone (log 18). -/
def heldEffect (c : Instr) (s : State) : State :=
  match c with
  | .presenceAssert => { s with pins := { s.pins with presence := true } }
  | .detach => { s with pins := { s.pins with presence := false } }
  | .encoderCodeChange code => { s with pins := { s.pins with code := code } }
  | .lidSwitchAssert => { s with pins := { s.pins with lidClosed := true } }
  | .lidSwitchRelease => { s with pins := { s.pins with lidClosed := false } }
  | .foldFlatAssert => { s with pins := { s.pins with foldFlat := true } }
  | .foldFlatRelease => { s with pins := { s.pins with foldFlat := false } }
  | .dockSwitchAssert => { s with pins := { s.pins with dock := true } }
  | .penRemoval => { s with pins := { s.pins with dock := false } }
  | .dieOtDetected =>
    { s with guard := { s.guard with alarms := { s.guard.alarms with dieOt := { s.guard.alarms.dieOt with raw := true } } } }
  | .dieOtCleared =>
    { s with guard := { s.guard with alarms := { s.guard.alarms with dieOt := { s.guard.alarms.dieOt with raw := false } } } }
  | _ => s

/-! ## The invariants -/

/-- Start-up is quiet (R206, R209): while the image is read the link is ABSENT with every timer stopped, no base is present, the pen
charger is in NO-PEN, both grants are 0 and both outputs off, no filter runs, and the issuer, the queues and the sampling stand still. -/
abbrev Dormant (s : State) : Prop :=
  s.store.state = .starting →
    s.link = Link.cold ∧ s.att.present = false ∧ s.issuer.table = [] ∧ s.issuer.waiting = none ∧ s.issuer.window = none ∧
    s.pool.up = [] ∧ s.pool.down = [] ∧ s.guard.baseGrant = 0 ∧ s.guard.penGrant = none ∧ s.guard.railOn = false ∧
    s.guard.coilOn = false ∧ s.guard.alarms.railOc.filter = none ∧ s.guard.alarms.railUv.filter = none ∧
    s.guard.alarms.coilOc.filter = none ∧ s.guard.alarms.coilUv.filter = none ∧ s.pen.session = .noPen ∧
    s.pen.debounce = none ∧ s.pen.detect = none ∧ s.pen.ramp = none ∧ s.pen.silence = none ∧ s.posture.settle = none ∧
    s.poller.period = none ∧ s.policy.events = []

/-- The two grants fit in the budget in force, and the pen grant is above neither the claimed level nor the cap, which is STEADY or TRICKLE
(R125). -/
abbrev GrantsFit (s : State) : Prop :=
  s.guard.baseGrant + grantMw s.guard.penGrant ≤ s.guard.budget ∧ rank s.guard.penGrant ≤ rank s.guard.target ∧
  s.guard.cap ≠ some .fast

/-- Each output is on exactly while its conditions hold, and off while the reset line is asserted (R134, R209). -/
abbrev OutputsFollow (s : State) : Prop :=
  (s.held = false → s.guard.coilOn = coilConditions s ∧ s.guard.railOn = railConditions s) ∧
  (s.held = true → s.guard.coilOn = false ∧ s.guard.railOn = false)

/-- A latched cause is detected and a detected cause is sticky; DIE-OT has no latch; outside reset a latched output is off, and an output
that is off has no raw condition and no filter running (R135 to R137, R141). -/
abbrev AlarmsHold (s : State) : Prop :=
  (∀ c, ((s.guard.alarms.get c).latch = true → (s.guard.alarms.get c).detected = true) ∧
    ((s.guard.alarms.get c).detected = true → (s.guard.alarms.get c).sticky = true)) ∧
  s.guard.alarms.dieOt.latch = false ∧
  (s.held = false →
    (railLatched s = true → s.guard.railOn = false) ∧ (coilLatched s = true → s.guard.coilOn = false) ∧
    (s.guard.railOn = false →
      s.guard.alarms.railOc.raw = false ∧ s.guard.alarms.railOc.filter = none ∧
      s.guard.alarms.railUv.raw = false ∧ s.guard.alarms.railUv.filter = none) ∧
    (s.guard.coilOn = false →
      s.guard.alarms.coilOc.raw = false ∧ s.guard.alarms.coilOc.filter = none ∧
      s.guard.alarms.coilUv.raw = false ∧ s.guard.alarms.coilUv.filter = none))

/-- Each timer of the hinge link runs in its own state alone, and a rate is held only in the states that have one; the transmitter sends a
frame only in READY, the head of its queue, while no keep-alive window is open, and owes a keep-alive only while it sends; an entry to
QUIET waits only for an open window (R15, R42 to R59). -/
abbrev LinkHolds (s : State) : Prop :=
  (s.link.debounce.isSome = true → s.link.state = .settling) ∧ (s.link.railUp.isSome = true → s.link.state = .powering) ∧
  (s.link.echo.isSome = true → s.link.state = .training ∧ s.link.resetDrive = none) ∧
  (s.link.resetDrive.isSome = true → s.link.state = .training) ∧ (s.link.describe.isSome = true → s.link.state = .identifying) ∧
  (s.link.retry.isSome = true → s.link.state = .unreachable) ∧ (s.link.diag.isSome = true → s.link.state = .diagnosing) ∧
  (s.link.quiet.isSome = true → s.link.state = .ready) ∧ (s.link.keepAlive.isSome = true → s.link.state = .ready) ∧
  (s.link.kaWindow.isSome = true → s.link.state = .ready) ∧ (s.link.wake.isSome = true → s.link.state = .quiet) ∧
  (s.link.rate.isSome = true → s.link.state ∈ [.training, .identifying, .ready, .quiet, .diagnosing]) ∧
  (s.pool.hingeBusy = true → s.link.state = .ready ∧ s.link.kaWindow = none ∧ s.pool.down ≠ []) ∧
  (s.link.kaDue = true → s.pool.hingeBusy = true) ∧
  (s.link.quietWaits = true → s.link.kaWindow.isSome = true)

/-- The shares are in range and hold their queues, and each slot is free or held by one frame of one queue (R11, R13). -/
abbrev PoolHolds (s : State) : Prop :=
  8 ≤ s.pool.share ∧ s.pool.share ≤ 64 ∧ heldBy s.pool.up ≤ 96 - s.pool.share ∧ heldBy s.pool.down ≤ s.pool.share ∧
  ((s.pool.up ++ s.pool.down).flatMap Frame.slots).Nodup ∧ ∀ n ∈ (s.pool.up ++ s.pool.down).flatMap Frame.slots, n < 96

/-- The Pending Request Table (R70, R73, R75): at most six entries, one for each key, in their ranges, with fewer than 32
attempts until DONE and an outcome exactly when DONE;
at most one is ISSUED, and all are DONE but with the link READY or QUIET; the response window runs for an ISSUED entry, and the waiting
offer names a QUEUED one while none is ISSUED. -/
def TableHolds (s : State) : Prop :=
  s.issuer.table.length ≤ 6 ∧ (s.issuer.table.map (fun e => (e.target, e.command))).Nodup ∧
  (∀ e ∈ s.issuer.table, e.target ≤ 15 ∧ e.data.length ≤ 32 ∧ e.attempts ≤ 32 ∧ (e.state ≠ .done → e.attempts < 32) ∧
    (e.state = .done ↔ e.outcome.isSome = true) ∧
    (e.state ≠ .done → s.link.state = .ready ∨ s.link.state = .quiet)) ∧
  (s.issuer.table.filter (fun e => e.state == .issued)).length ≤ 1 ∧
  (s.issuer.window.isSome = true → ∃ e ∈ s.issuer.table, e.state = .issued) ∧
  ∀ t c, s.issuer.waiting = some (t, c) →
    (∀ e ∈ s.issuer.table, e.state ≠ .issued) ∧ ∃ e ∈ s.issuer.table, e.target = t ∧ e.command = c ∧ e.state = .queued

/-- The posture is SLATE exactly while no base is present, and outside reset CLOSED exactly while the base is present with the lid
switch asserted; a window gives one of its four postures (R94, R99, R103). -/
abbrev PostureHolds (s : State) : Prop :=
  (s.posture.posture = .slate ↔ s.att.present = false) ∧
  (s.held = false → (s.posture.posture = .closed ↔ s.att.present = true ∧ s.pins.lidClosed = true)) ∧
  ∀ w ∈ s.posture.windows, isWindowPosture w.posture = true

/-- The Wake Reason List holds at most six entries, one of each kind and source, and is empty with the mark clear while the host listens;
the grace timer runs in GRACE alone, the confirm window in SLEEP-ASKED, the wake window in WAKING, a pulse with the line asserted
(R171 to R182); while the host sleeps no notice and no data parcel is sent (R9). -/
abbrev SleepHolds (s : State) : Prop :=
  s.sleep.reasons.length ≤ 6 ∧ (s.sleep.reasons.map WakeReason.kind).Nodup ∧
  (hostListens s.sleep.power = true → s.sleep.reasons = [] ∧ s.sleep.overflow = false) ∧
  (s.sleep.grace.isSome = true → s.sleep.power = .grace) ∧ (s.sleep.confirm.isSome = true → s.sleep.power = .sleepAsked) ∧
  (s.sleep.wakeWindow.isSome = true → s.sleep.power = .waking) ∧ (s.sleep.pulse.isSome = true → s.sleep.wakeLine = .pulsing) ∧
  (hostListens s.sleep.power = false → s.tx = .idle ∨ s.tx = .reply)

end Machine

end Sys2Proof
end

