-- ==== Sys2Proof/Certificates/Slice0/Obligations.lean ====
section
/-! DEFINITION. The statements for the provers. `Running`, `Attentive`, `Replies` and the invariants are in Safety.lean; `finish` is the
end of every change of the hub: the policy events drained and the transmitters' next parcel chosen. -/

section
open Sys2Proof Sys2Proof.Machine

/-! ## The machine: the queue, the time base, reset -/

/-- A step takes the command at the front of the queue and runs it on the state with the queue's rest. -/
def Obligations.StepTakesTheFrontCommand : Prop :=
  ∀ (c : Instr) (rest : List Instr) (s : State), s.pending = c :: rest → step s = exec c { s with pending := rest }

/-- With no command waiting a step is the time base, the model's choice (logs 1, 3): with the reset line asserted time alone passes, with
no timer due 0.1 ms passes, a timer that is due alone is taken, and of several one is. When 0.1 ms passes every running timer has one unit
less, a stopped one stays stopped, the candidate stable time outside start-up is one unit more, held at 65535 ms, the dwell is marked due
as it is reached (R114, R115), and nothing else changes. Due is exactly the expiry of each timer that stands at 0, and the dwell where it
is marked; the end of a measurement of a diagnosis comes from outside (log 30). -/
def Obligations.IdleStepIsTheTimeBase : Prop :=
  (∀ s : State, s.pending = [] →
    (s.held = true → step s = .next { s with now := s.now + 1 }) ∧
    (s.held = false → dueCommands s = [] → step s = .next (advance s)) ∧
    (∀ c, s.held = false → dueCommands s = [c] → step s = exec c s) ∧
    (s.held = false → 2 ≤ (dueCommands s).length →
      ∃ c ∈ dueCommands s, step s = exec c { s with fresh := s.fresh + 1 })) ∧
  (∀ s : State,
    let down (t : Timer) : Timer := match t with | none => none | some n => some (n - 1)
    let l := s.link
    let a := s.guard.alarms
    let o := s.orient
    let stable := min (o.stable + 1) 655350
    let passed (x : Alarm) : Alarm := { x with filter := down x.filter }
    let line (x : Line) : Line := { x with blink := down x.blink, stretch := down x.stretch }
    advance s =
      { s with
        now := s.now + 1
        poller := { s.poller with period := down s.poller.period }
        link := { l with
          debounce := down l.debounce, railUp := down l.railUp, echo := down l.echo, retry := down l.retry
          describe := down l.describe, quiet := down l.quiet, wake := down l.wake, keepAlive := down l.keepAlive
          kaWindow := down l.kaWindow, resetDrive := down l.resetDrive, diag := down l.diag }
        issuer := { s.issuer with
          window := down s.issuer.window, table := s.issuer.table.map (fun e => { e with discard := down e.discard }) }
        posture := { s.posture with settle := down s.posture.settle }
        orient :=
          if s.store.state = .starting then o
          else { o with
            stable := stable
            dwellDue := o.dwellDue || decide (o.stable < 10 * o.dwell ∧ 10 * o.dwell ≤ stable) }
        guard := { s.guard with alarms := ⟨passed a.railOc, passed a.railUv, passed a.coilOc, passed a.coilUv, passed a.dieOt⟩ }
        pen := { s.pen with
          debounce := down s.pen.debounce, detect := down s.pen.detect, ramp := down s.pen.ramp, silence := down s.pen.silence }
        policy := { s.policy with line1 := line s.policy.line1, line2 := line s.policy.line2 }
        sleep := { s.sleep with
          grace := down s.sleep.grace, confirm := down s.sleep.confirm, wakeWindow := down s.sleep.wakeWindow
          pulse := down s.sleep.pulse }
        store := { s.store with timer := down s.store.timer } }) ∧
  (∀ (s : State) (c : Instr), c ∈ dueCommands s ↔
    match c with
    | .storeExchangeUnanswered => s.store.timer = some 0
    | .debounceExpiry => s.link.debounce = some 0
    | .railUpExpiry => s.link.railUp = some 0
    | .echoWindowExpiry => s.link.echo = some 0
    | .retryTimerExpiry => s.link.retry = some 0
    | .describeWindowExpiry => s.link.describe = some 0
    | .quietTimerExpiry => s.link.quiet = some 0
    | .wakeTimeExpiry => s.link.wake = some 0
    | .keepaliveTimerExpiry => s.link.keepAlive = some 0
    | .keepaliveWindowExpiry => s.link.kaWindow = some 0
    | .resetDriveExpiry => s.link.resetDrive = some 0
    | .responseWindowExpiry => s.issuer.window = some 0
    | .discardTimerExpiry t k => ∃ e ∈ s.issuer.table, e.target = t ∧ e.command = k ∧ e.discard = some 0
    | .settleTimerExpiry => s.posture.settle = some 0
    | .dwellReached => s.orient.dwellDue = true
    | .samplePeriodExpiry => s.poller.period = some 0
    | .filterTimerExpiry .railOc => s.guard.alarms.railOc.filter = some 0
    | .filterTimerExpiry .railUv => s.guard.alarms.railUv.filter = some 0
    | .filterTimerExpiry .coilOc => s.guard.alarms.coilOc.filter = some 0
    | .filterTimerExpiry .coilUv => s.guard.alarms.coilUv.filter = some 0
    | .dockDebounceExpiry => s.pen.debounce = some 0
    | .detectWindowExpiry => s.pen.detect = some 0
    | .rampTimerExpiry => s.pen.ramp = some 0
    | .silenceTimerExpiry => s.pen.silence = some 0
    | .blinkPhaseExpiry .line1 => s.policy.line1.blink = some 0
    | .blinkPhaseExpiry .line2 => s.policy.line2.blink = some 0
    | .stretchTimerExpiry .line1 => s.policy.line1.stretch = some 0
    | .stretchTimerExpiry .line2 => s.policy.line2.stretch = some 0
    | .graceTimerExpiry => s.sleep.grace = some 0
    | .confirmWindowExpiry => s.sleep.confirm = some 0
    | .wakeWindowExpiry => s.sleep.wakeWindow = some 0
    | .wakePulseEnd => s.sleep.pulse = some 0
    | _ => False)

/-- Every command answers a next state in every state, and leaves the queue as it was (log 40). That it leaves the time as it was is the
model's choice: commands take no time, log 1. -/
def Obligations.EveryCommandCompletes : Prop :=
  ∀ (c : Instr) (s : State), ∃ t, exec c s = .next t ∧ t.pending = s.pending ∧ t.now = s.now

/-- The end of a change. Without a policy event it is the transmitters' next choice alone, the hinge link's before the uplink's, each as
TransmitterChoosesInOrder says: it changes the sending, the notice set, the start of the head frame on the hinge link and the start of the
2 ms wake time, and nothing else. Policy events are taken one after another in the order posted (R164). An event is tested against every
entry in the state it finds: valid, its name, for POSTURE-CHANGED the two sets, the base and pen conditions and the host power state (R165,
R166). Of the actions of the matched entries, gathered in the order of the table, every sleep action stands and of those that set one
switch the last, in the gathered order, and each that stands is claimed (R167); an event that no entry matches does nothing. The model's
choice: the fixed order within one change is log 4. -/
def Obligations.EndOfChangeFrame : Prop :=
  ∀ s : State,
    (s.policy.events = [] → finish s = startTransmit (kickHinge s)) ∧
    (s.policy.events = [] →
      finish s =
        { s with
          tx := (finish s).tx
          mgmt := { s.mgmt with notices := (finish s).mgmt.notices }
          pool := { s.pool with hingeBusy := (finish s).pool.hingeBusy }
          link := { s.link with wake := (finish s).link.wake } }) ∧
    (∀ ev, s.policy.events = [ev] →
      finish s = startTransmit (kickHinge (takeEvent ev { s with policy := { s.policy with events := [] } }))) ∧
    (∀ ev more, s.policy.events = ev :: more →
      finish s =
        startTransmit (kickHinge
          (more.foldl (fun s ev => takeEvent ev s) (takeEvent ev { s with policy := { s.policy with events := [] } })))) ∧
    (∀ (ev : PolicyEvent) (e : PolicyEntry),
      policyMatches ev s e = true ↔
        e.valid = true ∧ e.event = ev.kind ∧
        (∀ old new, ev = .postureChanged old new → inPostures e.fromSet old = true ∧ inPostures e.toSet new = true) ∧
        (e.baseCond = .attached → s.link.state = .ready ∨ s.link.state = .quiet) ∧
        (e.baseCond = .absent → s.att.present = false) ∧ (e.penCond = .docked → s.pen.docked = true) ∧
        (e.penCond = .undocked → s.pen.docked = false) ∧ inHosts e.hosts s.sleep.power = true) ∧
    (∀ ev : PolicyEvent,
      let switch (a : PolicyAction) : Nat :=
        match a with
        | .orientLock | .orientFree => 1
        | .chargeHold | .chargeAllow => 2
        | .budgetProfile _ => 3
        | .indicate .line1 _ _ => 4
        | .indicate .line2 _ _ => 5
        | .sleepBegin | .sleepCancel | .wake => 0
      let gathered := (s.policy.table.filter (fun e => policyMatches ev s e)).flatMap (fun e => e.actions)
      ∃ standing : List PolicyAction,
        standing.Sublist gathered ∧
        standing.filter (fun a => switch a == 0) = gathered.filter (fun a => switch a == 0) ∧
        (∀ n, 1 ≤ n → standing.filter (fun a => switch a == n) = (gathered.filter (fun a => switch a == n)).getLast?.toList) ∧
        takeEvent ev s = standing.foldl (fun s a => issueClaim ev a s) s) ∧
    (∀ ev : PolicyEvent, (∀ e ∈ s.policy.table, policyMatches ev s e = false) → takeEvent ev s = s)

/-- The uplink transmitter, IDLE, starts the first eligible parcel: the reply, then with the host listening the pending notice of the
lowest code, which leaves the set, then the head of the upstream queue; while it sends it starts nothing (R8, R9). With a frame in the
downstream queue the hinge link transmitter starts its head in READY while no keep-alive is due and no keep-alive window open, and in QUIET
with no wake time running the 2 ms wake time starts; otherwise nothing of it changes (R15, R58, R59). -/
def Obligations.TransmitterChoosesInOrder : Prop :=
  ∀ s : State,
    (s.tx ≠ .idle → startTransmit s = s) ∧
    (s.tx = .idle → s.mgmt.holder.isSome = true → startTransmit s = { s with tx := .reply }) ∧
    (s.tx = .idle → s.mgmt.holder = none → hostListens s.sleep.power = false → startTransmit s = s) ∧
    (∀ k p, s.tx = .idle → s.mgmt.holder = none → hostListens s.sleep.power = true → s.mgmt.notices.get k = some p →
      p.notice.kind = k → (∀ j, NoticeKind.inOrder.idxOf j < NoticeKind.inOrder.idxOf k → s.mgmt.notices.get j = none) →
      startTransmit s =
        { s with tx := .notice p, mgmt := { s.mgmt with notices := s.mgmt.notices.set k none } }) ∧
    (s.tx = .idle → s.mgmt.holder = none → hostListens s.sleep.power = true → (∀ k, s.mgmt.notices.get k = none) →
      startTransmit s = if s.pool.up = [] then s else { s with tx := .data }) ∧
    (∀ p : Power, hostListens p = true ↔ p = .awake ∨ p = .grace ∨ p = .sleepAsked) ∧
    (s.pool.down = [] → kickHinge s = s) ∧
    (s.pool.down ≠ [] →
      (s.link.state = .ready →
        (s.link.kaDue = false → s.link.kaWindow = none → kickHinge s = { s with pool := { s.pool with hingeBusy := true } }) ∧
        (s.link.kaDue = true ∨ s.link.kaWindow.isSome = true → kickHinge s = s)) ∧
      (s.link.state = .quiet →
        (s.link.wake = none → kickHinge s = { s with link := { s.link with wake := some 20 } }) ∧
        (s.link.wake.isSome = true → kickHinge s = s)) ∧
      (s.link.state ≠ .ready → s.link.state ≠ .quiet → kickHinge s = s))

/-- Cold reset leaves every block in its reset state with start-up begun; the queue, the time, the pins, the die temperature and the
contents of the store, but for a page write cut off, are the outside world's. A page cut off is old and new bytes mixed; a save cut off
leaves no valid image, an erase cut off the contents as they were or no valid image (R209). The statement takes the model's own reset
state (logs 5, 6, 12, 14 are the model's choices). -/
def Obligations.ColdResetLeavesTheResetState : Prop :=
  ∀ s : State,
    let ot := s.guard.alarms.dieOt.raw
    (exec .coldReset s =
      .next
        { State.reset with
          pending := s.pending
          now := s.now
          fresh := s.fresh + 1
          pins := s.pins
          guard := { Guard.cold with
            alarms := { Guard.cold.alarms with
              dieOt := { raw := ot, filter := none, detected := ot, sticky := ot, mask := false, enabled := false,
                         latch := false, choice := 0 } } }
          policy := { Policy.cold with inputs := ⟨false, false, ot, false⟩ }
          store := { Store.cold with eeprom := cutOffContents s } }) ∧
    ((∀ k bytes, s.store.exchange ≠ some (.writePage k bytes)) → cutOffContents s = s.store.eeprom) ∧
    (∀ k bytes, s.store.exchange = some (.writePage k bytes) → Memory.wf s.store.eeprom = true →
      (s.store.state = .saving → holdsImage (cutOffContents s) = false) ∧
      (cutOffContents s = s.store.eeprom ∨ holdsImage (cutOffContents s) = false) ∧
      ∀ a, Memory.read (cutOffContents s) a = Memory.read s.store.eeprom a ∨
        (32 * k ≤ a ∧ a < 32 * k + 32 ∧ Memory.read (cutOffContents s) a = bytes.getD (a - 32 * k) 0xFF#8) ∨
        (a < 2 ∧ Memory.read (cutOffContents s) a = 0xFF#8))

/-- The reset values that the rules give (R10, R19, R41, R69, R87, R108, R121, R146, R163, R188, R202, R206). -/
def Obligations.ResetValues : Prop :=
  let r := State.reset
  (r.rx = ⟨.hunting, []⟩ ∧ r.tx = .idle ∧ r.uplinkErrors = 0) ∧
  (r.pool.share = 24 ∧ r.pool.up = [] ∧ r.pool.down = []) ∧
  (r.route.table.length = 48 ∧ r.route.noBase = false ∧ (∀ e ∈ r.route.table, e.phase = 0 ∧ e.passed = 0 ∧ e.queueFull = 0)) ∧
  (r.link.state = .absent ∧ r.link.rate = none ∧ r.att.present = false ∧ r.att.attachCount = 0 ∧ r.att.linkDropped = 0 ∧
    r.att.diagnosis = none ∧ r.att.ident.railDemand = 500 ∧ r.att.ident.declared = [0x10#8, 0x11#8, 0x13#8]) ∧
  (r.issuer.table = [] ∧ r.issuer.waiting = none ∧ r.issuer.discardTime = 2000) ∧
  (r.posture.posture = .slate ∧ r.posture.previous = none ∧ r.posture.count = none ∧ r.posture.moving = false ∧
    r.posture.settleTime = 100 ∧ r.posture.windows.length = 8) ∧
  (r.poller.rate = .hz25 ∧ r.poller.period = none ∧ r.poller.reading = false) ∧
  (r.orient.current = .landscape ∧ r.orient.candidate = .landscape ∧ r.orient.stable = 0 ∧ r.orient.flat = false ∧
    r.orient.lock = none ∧ r.orient.dwell = 300) ∧
  (r.guard.budget = 2500 ∧ r.guard.baseGrant = 0 ∧ r.guard.penGrant = none ∧ r.guard.cap = none ∧ r.guard.railOn = false ∧
    r.guard.coilOn = false ∧ r.guard.mode = .limit) ∧
  (r.pen.session = .noPen ∧ r.pen.requested = .steady ∧ r.pen.battery = none ∧ r.pen.hold = none) ∧
  (r.sleep.power = .awake ∧ r.sleep.graceTime = 4000 ∧ r.sleep.wakeLine = .released ∧ r.sleep.reasons = [] ∧
    r.policy.table.length = 24 ∧ r.policy.line1.source = .off ∧ r.policy.line2.source = .off) ∧
  (r.mgmt.intake = [] ∧ r.mgmt.holder = none ∧ (∀ k, r.mgmt.enables.get k = true) ∧ ∀ k, r.mgmt.notices.get k = none) ∧
  (r.store.state = .starting ∧ r.store.exchange = some .readHeader)

/-- A RESTART that takes effect leaves every block in its reset state with start-up begun, but for what each chapter keeps: the counters,
the latches, the sticky set, the cap, the attach and session counts and the last store operation; the last byte of its reply does the same
(R6, R41, R69, R86, R108, R146, R163, R190, R202, R203, R209). The model's choice: when the restart is made is log 17. -/
def Obligations.RestartKeepsWhatTheChaptersKeep : Prop :=
  ∀ s : State, s.held = false → s.mgmt.restart = .armed →
    (s.tx = .reply → exec .parcelSent s = exec .restartTakesEffect s) ∧
    ∃ t, exec .restartTakesEffect s = .next t ∧
      t.rx = ⟨.hunting, []⟩ ∧ t.tx = .idle ∧ t.uplinkErrors = s.uplinkErrors ∧ t.pool = State.reset.pool ∧
      t.route.ingress = s.route.ingress ∧ t.route.table = State.reset.route.table ∧ t.route.noBase = false ∧
      t.poller = State.reset.poller ∧ t.guard.budget = 2500 ∧
      t.link = Link.cold ∧ t.att = { Attachment.cold with attachCount := s.att.attachCount } ∧
      t.issuer = { Issuer.cold with stray := s.issuer.stray, discarded := s.issuer.discarded } ∧
      t.posture = { PostureUnit.cold with faults := s.posture.faults, slips := s.posture.slips } ∧
      t.orient = OrientUnit.cold ∧ t.generic = factoryGeneric ∧ t.guard.profiles = factoryProfiles ∧ t.guard.active = 0 ∧
      t.guard.claimed = none ∧ t.guard.mode = .limit ∧ t.guard.cap = s.guard.cap ∧ t.guard.baseGrant = 0 ∧ t.guard.penGrant = none ∧
      t.guard.railOn = false ∧ t.guard.coilOn = false ∧
      (∀ c, c ≠ .dieOt →
        (t.guard.alarms.get c).latch = (s.guard.alarms.get c).latch ∧
        (t.guard.alarms.get c).detected = (s.guard.alarms.get c).latch ∧
        (t.guard.alarms.get c).sticky = (s.guard.alarms.get c).sticky ∧
        t.guard.alarms.get c =
          { raw := false, filter := none, detected := (s.guard.alarms.get c).latch, sticky := (s.guard.alarms.get c).sticky
            mask := false, enabled := true, latch := (s.guard.alarms.get c).latch, choice := 2 }) ∧
      (let ot := s.guard.alarms.dieOt
       t.guard.alarms.dieOt =
         { raw := ot.raw, filter := none, detected := ot.raw, sticky := ot.sticky || ot.raw, mask := false, enabled := false
           latch := false, choice := 0 } ∧
       t.policy = { Policy.cold with inputs := ⟨false, false,
         s.guard.alarms.railOc.latch || s.guard.alarms.railUv.latch || s.guard.alarms.coilOc.latch || s.guard.alarms.coilUv.latch ||
           ot.raw, false⟩ }) ∧
      t.pen = { Charger.cold with count := s.pen.count } ∧ t.sleep = Sleep.cold ∧
      t.mgmt = { Mgmt.cold with overrun := s.mgmt.overrun } ∧ t.store.state = .starting ∧
      t.store.lastOp = s.store.lastOp ∧ t.store.eeprom = s.store.eeprom ∧
      t.store = { Store.cold with lastOp := s.store.lastOp, eeprom := s.store.eeprom }

/-- The reset line, asserted, turns both outputs off, releases the wake line and silences the uplink, a page write under way cut off;
while it stays asserted a command other than COLD_RESET changes the levels of the outside world alone, and asserted again it changes
nothing (R209; log 18). The model's choice: what a page write cut off leaves is free, log 14. -/
def Obligations.ResetLineHoldsTheHub : Prop :=
  ∀ s : State,
    (∀ c, s.held = true → c ≠ .coldReset → exec c s = .next (heldEffect c s)) ∧
    (s.held = true → exec .resetLineAsserted s = .next s) ∧
    (s.held = false → ∃ t, exec .resetLineAsserted s = .next t ∧
      t.held = true ∧ t.guard.railOn = false ∧ t.guard.coilOn = false ∧ t.sleep.wakeLine = .released ∧ t.tx = .idle ∧
      t.store.exchange = none ∧ t.pins = s.pins ∧ t.guard.alarms = s.guard.alarms ∧
      ((∀ k b, s.store.exchange ≠ some (.writePage k b)) → t.store.eeprom = s.store.eeprom))

/-! ## The uplink -/

/-- What stands on the two links. A parcel that arrives byte by byte is the parcel: the bytes that R1 gives a DATA or REQUEST parcel, taken
one after another by a receiver that is IDLE or HUNTING, have the effect of the parcel command (R1, R5, R7). A parcel on the uplink is
marker, kind, tag, length, payload and CRC-16. The transmitter sends, IDLE, nothing; the reply in the holder as REPLY with its code, its
status and its content; a notice as NOTICE with its kind, its content in the order of R201 and its coalesce count; the head of the upstream
queue as DATA with its channel, its source, its kind, the damaged mark and its payload (R2, R8, R14, R191, R201). A frame on the hinge link
is kind, length, payload and CRC-8: the head of the downstream queue while it is sent, and DESCRIBE with the chunk under request (R3, R15,
R48). The two CRCs are said byte by byte. The model's choice: the parcel commands are log 8, the bytes on a line as a function of the state
log 16, the codes of named values and the order within a content logs 9 and 11, the grant that an ALARM of DIE-OT carries log 24, a
withdrawing event sent as its name alone log 54, the weights of the switches in the byte of an encoder code log 56. -/
def Obligations.BytesMakeTheParcel : Prop :=
  (∀ (s : State) (tag : Byte) (payload : List Byte), s.held = false → s.rx.mode ≠ .receiving → payload.length ≤ 240 →
    exec (.receiveFault (parcelBytes 0x01#8 tag payload)) s = exec (.dataParcel tag payload) s ∧
    exec (.receiveFault (parcelBytes 0x02#8 tag payload)) s = exec (.requestParcel tag payload) s) ∧
  (let step16 (c : Word16) : Word16 := if c.msb then (c <<< 1) ^^^ 0x1021#16 else c <<< 1
   let step8 (c : Byte) : Byte := if c.msb then (c <<< 1) ^^^ 0x07#8 else c <<< 1
   crc16 [] = 0xFFFF#16 ∧
   (∀ l b, crc16 (l ++ [b]) =
     step16 (step16 (step16 (step16 (step16 (step16 (step16 (step16 (crc16 l ^^^ (b.setWidth 16 <<< 8)))))))))) ∧
   crc8 [] = 0x00#8 ∧
   (∀ l b, crc8 (l ++ [b]) = step8 (step8 (step8 (step8 (step8 (step8 (step8 (step8 (crc8 l ^^^ b)))))))))) ∧
  (∀ (kind tag : Byte) (payload : List Byte),
    let checked := kind :: tag :: BitVec.ofNat 8 payload.length :: payload
    parcelBytes kind tag payload =
      [0xD3#8] ++ checked ++ [(crc16 checked).extractLsb' 8 8, (crc16 checked).extractLsb' 0 8]) ∧
  (∀ s : State,
    let one (n : Nat) : List Byte := [BitVec.ofNat 8 n]
    let word (n : Nat) : List Byte := [BitVec.ofNat 8 (n / 256), BitVec.ofNat 8 n]
    let two (b : Bool) : List Byte := if b then [1#8] else [2#8]
    let opt : {α : Type} → (α → List Byte) → Option α → List Byte := fun f o => match o with | none => [0#8] | some a => 1#8 :: f a
    let at_ : {α : Type} → [DecidableEq α] → List α → α → List Byte := fun l a => one (l.idxOf a + 1)
    let posture := at_ [Posture.closed, .laptop, .stand, .tent, .tablet, .slate, .unknown]
    let orientation := at_ [Orientation.landscape, .portrait, .landscapeInverted, .portraitInverted]
    let session := at_ [PenState.noPen, .detect, .foreign, .softStart, .charging, .topped, .paused, .held, .fault]
    let cause := at_ [Cause.railOc, .railUv, .coilOc, .coilUv, .dieOt]
    let pin := at_ [PinOutcome.good, .openPin, .short, .marginal]
    let grant := at_ [none, some PenLevel.trickle, some .steady, some .fast]
    let cap := at_ [PenLevel.steady, .trickle]
    let power := at_ [Power.awake, .grace, .sleepAsked, .asleep, .waking]
    let linkState := at_ [LinkState.absent, .settling, .powering, .training, .identifying, .ready, .quiet, .diagnosing, .unreachable,
      .unpowered, .faulted]
    let source := at_ [Source.lidMotion, .baseKeys, .basePointer, .baseMotion, .baseStatus, .penStatus, .uplink]
    let event := at_ [EventKind.lidClosed, .lidOpened, .postureChanged, .baseAttached, .baseDetached, .baseFault, .penDocked,
      .penRemoved, .chargeDone, .supplyAlarm]
    (s.tx = .idle → parcelOnLine s = none) ∧
    (∀ r, s.tx = .reply → s.mgmt.holder = some r →
      let status := one ([Status.ok, .accepted, .retry, .full, .mismatch, .notAttached, .baseRefused, .noResponse, .gaveUp, .gone, .busy,
        .refused, .locked, .notAsked, .unknown, .starting].idxOf r.status)
      parcelOnLine s = some (parcelBytes 0x03#8 r.code (status ++ r.content))) ∧
    (∀ p, s.tx = .notice p →
      let told : Byte × List Byte :=
        match p.notice with
        | .start .storeAbsent => (1#8, [1#8])
        | .start .storeInvalid => (1#8, [2#8])
        | .start .storeLoaded => (1#8, [3#8])
        | .start (.storePartial l) => (1#8, 4#8 :: one l.length ++ l)
        | .posture new old count moving => (2#8, posture new ++ posture old ++ opt one count ++ two moving)
        | .orientation new old cand flat locked =>
          (3#8, orientation new ++ orientation old ++ orientation cand ++ two flat ++ two (!locked))
        | .attach (.attached src model) =>
          (4#8, 1#8 :: (match src with | none => [] | some x => at_ [IdSource.descriptor, .generic] x)
            ++ opt (fun m : Word16 => word m.toNat) model)
        | .attach .detached => (4#8, [2#8])
        | .attach (.unpowered demand) => (4#8, 3#8 :: word demand)
        | .attach .faulted => (4#8, [4#8])
        | .link (.noBase st) => (5#8, 1#8 :: linkState st)
        | .link .lost => (5#8, [2#8])
        | .link .unreachable => (5#8, [3#8])
        | .link (.restored r) => (5#8, 4#8 :: (match r with | none => [] | some x => at_ [Rate.fast, .middle, .slow] x))
        | .link (.diagnosed a b c d) =>
          (5#8, 5#8 :: [a, b, c, d].flatMap (fun o => match o with | none => [] | some x => pin x))
        | .charge new old fault docked granted battery =>
          (6#8, session new ++ session old ++ opt (at_ [FaultCause.penSilent, .penReported, .coilLatch]) fault ++ two docked
            ++ grant granted ++ opt one battery)
        | .alarm c taken g =>
          (7#8, cause c
            ++ (match taken with | .stop => [1#8] | .limit l => 2#8 :: cap l | .off => [3#8] | .none => [4#8])
            ++ (match g with | .rail mw => word mw | .coil l => grant l | .noOutput => []))
        | .sleep .ask after => (8#8, 1#8 :: power after)
        | .sleep .abandoned after => (8#8, 2#8 :: power after)
        | .sleep (.withdrawn w) after =>
          (8#8, 3#8 :: power after
            ++ (match w with | .sleepCancel => [1#8] | .wake k => 2#8 :: event k | .frame x => 3#8 :: source x))
        | .encoderFault c code before =>
          (9#8, at_ [EncoderCause.invalidCode, .oppositeJump, .range] c ++ one code.toNat ++ opt one before)
        | .encoderSlip src before after =>
          (9#8, 4#8 :: at_ [RefSource.lidSwitch, .flatSwitch, .gravity] src ++ one before ++ one after)
        | .budget active budget base pen claimed c why =>
          (10#8, one active ++ word budget ++ word base ++ grant pen ++ opt (at_ [PenLevel.trickle, .steady, .fast]) claimed
            ++ opt cap c ++ at_ [BudgetCause.baseClaim, .baseRelease, .penClaim, .penRelease, .budget, .limit, .clear] why)
        | .store op e => (11#8, at_ [StoreOp.save, .erase] op ++ at_ [StoreEnd.done, .timeout] e)
      parcelOnLine s = some (parcelBytes 0x04#8 told.1 (told.2 ++ [p.count]))) ∧
    (∀ f rest src n, s.tx = .data → s.pool.up = f :: rest → f.source = some src → f.dest = .channel n →
      parcelOnLine s = some (parcelBytes 0x01#8 (BitVec.ofNat 8 n)
        (source src ++ [f.kind] ++ (if f.damaged then [1#8] else [0#8]) ++ f.payload))) ∧
    (let frame (kind : Byte) (payload : List Byte) : List Byte :=
       kind :: BitVec.ofNat 8 payload.length :: payload ++ [crc8 (kind :: BitVec.ofNat 8 payload.length :: payload)]
     (s.pool.hingeBusy = false → frameOnHinge s = none) ∧
     (∀ f rest, s.pool.hingeBusy = true → s.pool.down = f :: rest → frameOnHinge s = some (frame f.kind f.payload)) ∧
     (s.link.describe = none → describeFrame s = none) ∧
     (s.link.describe.isSome = true → describeFrame s = some (frame 0x41#8 (one s.link.chunk)))))

/-- A byte that cannot go on a parcel is a receive fault: counted, the receiver HUNTING with its buffer empty; in HUNTING a byte other
than the marker is passed over (R5, R6). A DATA parcel whose channel is not 1 to 15, whose payload is empty or whose kind is not 0x50 to
0x7F is dropped and counted as an uplink error; one that is good is discarded uncounted while start-up runs (R7, R206). The model's
choice: the parcel command is log 8. -/
def Obligations.BadBytesAndParcelsAreCounted : Prop :=
  ∀ s : State, Running s →
    (∀ b : Byte,
      let faulted := { s with rx := ⟨.hunting, []⟩, uplinkErrors := satInc s.uplinkErrors }
      (s.rx.mode = .idle → b ≠ 0xD3#8 → exec (.receiveFault [b]) s = .next (finish faulted)) ∧
      (s.rx.mode = .hunting → b ≠ 0xD3#8 → exec (.receiveFault [b]) s = .next (finish s)) ∧
      (s.rx = ⟨.receiving, [0xD3#8]⟩ → b ≠ 0x01#8 → b ≠ 0x02#8 → exec (.receiveFault [b]) s = .next (finish faulted)) ∧
      (∀ k t, s.rx = ⟨.receiving, [0xD3#8, k, t]⟩ → 240 < b.toNat → exec (.receiveFault [b]) s = .next (finish faulted)) ∧
      (∀ k t n rest, s.rx = ⟨.receiving, 0xD3#8 :: k :: t :: n :: rest⟩ → rest.length + 1 = n.toNat + 2 →
        encWord (crc16 (k :: t :: n :: (rest ++ [b]).take n.toNat)) ≠ (rest ++ [b]).drop n.toNat →
        exec (.receiveFault [b]) s = .next (finish faulted))) ∧
    (∀ (tag : Byte) (payload : List Byte), s.rx.mode ≠ .receiving →
      let taken := { s with rx := ⟨.idle, []⟩ }
      let dropped := { taken with uplinkErrors := satInc s.uplinkErrors }
      (payload = [] → exec (.dataParcel tag payload) s = .next (finish dropped)) ∧
      (∀ k rest, payload = k :: rest → (tag = 0#8 ∨ 15 < tag.toNat ∨ k.toNat < 0x50 ∨ 0x7F < k.toNat) →
        exec (.dataParcel tag payload) s = .next (finish dropped)) ∧
      (∀ k rest, payload = k :: rest → 1 ≤ tag.toNat → tag.toNat ≤ 15 → 0x50 ≤ k.toNat → k.toNat ≤ 0x7F →
        s.store.state = .starting → exec (.dataParcel tag payload) s = .next (finish taken)))

/-- A frame of more than 64 payload bytes is dropped and counted as too long before any other check, whatever its source and its check:
it reaches no tap and no entry. -/
def Obligations.TooLongFramesAreDropped : Prop :=
  ∀ s : State, s.store.state ≠ .starting →
    let long (src : Source) (s : State) : State :=
      let c := s.route.ingress.get src
      { s with route := { s.route with
          ingress := s.route.ingress.set src { c with received := c.received + 1#16, tooLong := satInc c.tooLong } } }
    (∀ src kind payload damaged, 64 < payload.length → routeFrame src kind payload damaged s = long src s) ∧
    (∀ tag kind rest, Running s → s.rx.mode ≠ .receiving → 1 ≤ tag.toNat → tag.toNat ≤ 15 → 0x50 ≤ kind.toNat →
      kind.toNat ≤ 0x7F → 64 < rest.length →
      exec (.dataParcel tag (kind :: rest)) s = .next (finish (long .uplink { s with rx := ⟨.idle, []⟩ }))) ∧
    (∀ kind payload check, Running s → isTrafficKind kind = true → 64 < payload.length → s.link.state = .identifying →
      exec (.baseTrafficFrame kind payload check) s = .next (finish (long (sourceOfKind kind) s))) ∧
    (∀ payload damaged, Running s → 64 < payload.length →
      exec (.penStatus payload damaged) s = .next (finish (long .penStatus s)))

/-- A host frame for the base: without a running link it is dropped and counted as unmatched, with one LINK(NO-BASE) notice per change of
link state; with the link up the lowest matching entry takes it and thins it, and a frame acted on is forwarded, whole into the downstream
queue or, without room, counted there and as overrun, or dropped, or gives a wake claim, or is forwarded and gives one (R26, R27, R28,
R31 to R34, R13). What a wake claim does is said in SleepAndIndicatorTimersRun. -/
def Obligations.HostFramesAreRouted : Prop :=
  ∀ (s : State) (tag kind : Byte) (rest : List Byte), Running s → s.store.state ≠ .starting → s.rx.mode ≠ .receiving →
    1 ≤ tag.toNat → tag.toNat ≤ 15 → 0x50 ≤ kind.toNat → kind.toNat ≤ 0x7F → rest.length ≤ 64 →
    let c := s.route.ingress.uplink
    let counted (f : Ingress → Ingress) : RouteEngine :=
      { s.route with ingress := { s.route.ingress with uplink := f { c with received := c.received + 1#16 } } }
    let frame : Frame := ⟨some .uplink, kind, .base, rest, false, .routed, []⟩
    (s.link.state.isUp = false → s.route.noBase = true →
      exec (.dataParcel tag (kind :: rest)) s =
        .next (finish { s with rx := ⟨.idle, []⟩, route := counted (fun c => { c with unmatched := satInc c.unmatched }) })) ∧
    (s.link.state.isUp = false → s.route.noBase = false →
      exec (.dataParcel tag (kind :: rest)) s =
        .next (finish (post (.link (.noBase s.link.state))
          { s with rx := ⟨.idle, []⟩
                   route := { counted (fun c => { c with unmatched := satInc c.unmatched }) with noBase := true } }))) ∧
    (s.link.state.isUp = true → (∀ e ∈ s.route.table, routeMatches .uplink kind s e = false) →
      exec (.dataParcel tag (kind :: rest)) s =
        .next (finish { s with rx := ⟨.idle, []⟩, route := counted (fun c => { c with unmatched := satInc c.unmatched }) })) ∧
    (∀ i e, s.link.state.isUp = true → s.route.table[i]? = some e → routeMatches .uplink kind s e = true →
      (∀ j e', j < i → s.route.table[j]? = some e' → routeMatches .uplink kind s e' = false) →
      (e.phase + 1 < e.fields.keepN →
        exec (.dataParcel tag (kind :: rest)) s =
          .next (finish { s with rx := ⟨.idle, []⟩
                                 route := { counted id with table := s.route.table.set i { e with phase := e.phase + 1 } } })) ∧
      (∀ p, e.fields.keepN ≤ e.phase + 1 → e.fields.action = .forward → s.pool.admitDown frame = some p →
        exec (.dataParcel tag (kind :: rest)) s =
          .next (finish { s with
            rx := ⟨.idle, []⟩
            pool := p
            route := { counted id with table := s.route.table.set i { e with phase := 0, passed := e.passed + 1#16 } } })) ∧
      (e.fields.keepN ≤ e.phase + 1 → e.fields.action = .forward → s.pool.admitDown frame = none →
        exec (.dataParcel tag (kind :: rest)) s =
          .next (finish { s with
            rx := ⟨.idle, []⟩
            route := { counted (fun c => { c with overrun := satInc c.overrun }) with
              table := s.route.table.set i
                { e with phase := 0, passed := e.passed + 1#16, queueFull := satInc e.queueFull } } })) ∧
      (e.fields.keepN ≤ e.phase + 1 →
        let taken : State :=
          { s with
            rx := ⟨.idle, []⟩
            route := { counted id with table := s.route.table.set i { e with phase := 0, passed := e.passed + 1#16 } } }
        let full : State :=
          { s with
            rx := ⟨.idle, []⟩
            route := { counted (fun c => { c with overrun := satInc c.overrun }) with
              table := s.route.table.set i
                { e with phase := 0, passed := e.passed + 1#16, queueFull := satInc e.queueFull } } }
        (e.fields.action = .drop → exec (.dataParcel tag (kind :: rest)) s = .next (finish taken)) ∧
        (e.fields.action = .wake →
          exec (.dataParcel tag (kind :: rest)) s = .next (finish (wakeClaim (.frame .uplink) taken))) ∧
        (∀ p, e.fields.action = .forwardWake → s.pool.admitDown frame = some p →
          exec (.dataParcel tag (kind :: rest)) s = .next (finish (wakeClaim (.frame .uplink) { taken with pool := p }))) ∧
        (e.fields.action = .forwardWake → s.pool.admitDown frame = none →
          exec (.dataParcel tag (kind :: rest)) s = .next (finish (wakeClaim (.frame .uplink) full)))))

/-- The last byte of a parcel sent: the reply leaves the holder and the engine takes its next request, a notice is gone, a frame leaves
the head of the upstream queue; the next parcel is then chosen (R8, R14, R189). The model's choice: the end of a parcel is a command, log
16. -/
def Obligations.ParcelSentReleasesItsSource : Prop :=
  ∀ s : State, Running s →
    (s.tx = .idle → exec .parcelSent s = .next (finish s)) ∧
    (∀ p, s.tx = .notice p → exec .parcelSent s = .next (finish { s with tx := .idle })) ∧
    (s.tx = .data → exec .parcelSent s = .next (finish { s with tx := .idle, pool := { s.pool with up := s.pool.up.tail } })) ∧
    (s.tx = .reply → s.mgmt.restart = .none → s.mgmt.intake = [] →
      exec .parcelSent s = .next (finish { s with tx := .idle, mgmt := { s.mgmt with holder := none } })) ∧
    (∀ q rest, s.tx = .reply → s.mgmt.restart = .none → s.mgmt.intake = q :: rest → s.store.state ≠ .starting → q ≠ .restart →
      let u := { s with tx := .idle, mgmt := { s.mgmt with holder := none, intake := rest } }
      let a := ownerAnswer q u
      exec .parcelSent s =
        .next (finish { a.after with mgmt := { a.after.mgmt with holder := some ⟨requestCode q, a.status, a.content⟩ } }))

/-- A REQUEST parcel handed on waits in the intake queue while a reply is in the holder, and is dropped and counted with four waiting; the
engine, IDLE, answers STARTING while start-up runs and UNKNOWN to a code that is not the hub's, with the status alone (R189, R190, R192).
A payload that holds the arguments of its code, as R193 and R194 write them (form gives every request command its code and payload),
reaches its owner as the request command does; every other payload, too short, too long or unreadable, is answered REFUSED (R192). The
model's choice: the parcel command is log 8, the operands of the request commands are log 6, their bytes are logs 9 and 31. -/
def Obligations.RequestParcelsReachTheEngine : Prop :=
  ∀ (s : State) (code : Byte) (payload : List Byte), Running s → s.rx.mode ≠ .receiving →
    let taken := { s with rx := ⟨.idle, []⟩ }
    (4 ≤ s.mgmt.intake.length →
      exec (.requestParcel code payload) s =
        .next (finish { taken with mgmt := { s.mgmt with overrun := satInc s.mgmt.overrun } })) ∧
    (s.mgmt.intake.length < 4 → s.mgmt.holder.isSome = true →
      exec (.requestParcel code payload) s =
        .next (finish { taken with mgmt := { s.mgmt with intake := s.mgmt.intake ++ [parseRequest code payload] } })) ∧
    (s.mgmt.intake = [] → s.mgmt.holder = none → s.mgmt.restart = .none → s.store.state = .starting →
      exec (.requestParcel code payload) s =
        .next (finish { taken with mgmt := { s.mgmt with holder := some ⟨requestCode (parseRequest code payload), .starting, []⟩ } })) ∧
    (Attentive s → isRequestCode code = false →
      exec (.requestParcel code payload) s =
        .next (finish { taken with mgmt := { s.mgmt with holder := some ⟨code, .unknown, []⟩ } }) ∧
      Replies (.unknownRequest code) s code .unknown [] s) ∧
    (let one (n : Nat) : List Byte := [BitVec.ofNat 8 n]
     let word (n : Nat) : List Byte := [BitVec.ofNat 8 (n / 256), BitVec.ofNat 8 n]
     let two (b : Bool) : List Byte := if b then [1#8] else [2#8]
     let opt (f : Nat → List Byte) (o : Option Nat) : List Byte := match o with | none => [0#8] | some n => 1#8 :: f n
     let flag (o : Option Bool) : List Byte := match o with | none => [0#8] | some b => 1#8 :: two b
     let action (a : RawAction) : List Byte :=
       match a with
       | .plain c => one c
       | .budgetProfile n => 8#8 :: one n
       | .indicate l s p => 9#8 :: one l ++ one s ++ one p
     let form (c : Instr) : Option (Byte × List Byte) :=
       match c with
       | .hello => some (0x01#8, [])
       | .routeTableWrite i e => some (0x02#8, 1#8 :: one i ++ two e.valid ++ one e.source ++ opt one e.kind ++ one e.postures
           ++ one e.views ++ opt word e.model ++ one e.action ++ opt one e.dest ++ one e.keepN ++ one e.damage)
       | .windowTableWrite i w => some (0x02#8, 2#8 :: one i ++ one w.lower ++ one w.upper ++ one w.hysteresis ++ one w.posture
           ++ one w.cond)
       | .policyTableWrite i e => some (0x02#8, 3#8 :: one i ++ two e.valid ++ one e.event ++ one e.fromSet ++ one e.toSet
           ++ one e.baseCond ++ one e.penCond ++ one e.hosts ++ one e.actions.length ++ e.actions.flatMap action)
       | .routeTableRead i => some (0x03#8, 1#8 :: one i)
       | .windowTableRead i => some (0x03#8, 2#8 :: one i)
       | .policyTableRead i => some (0x03#8, 3#8 :: one i)
       | .countersReadUplink => some (0x04#8, [1#8])
       | .countersReadRoute => some (0x04#8, [2#8])
       | .countersReadIssuer => some (0x04#8, [3#8])
       | .countersReadPosture => some (0x04#8, [4#8])
       | .recordReadPosture => some (0x05#8, [1#8])
       | .recordReadOrientation => some (0x05#8, [2#8])
       | .recordReadAttachment => some (0x05#8, [3#8])
       | .recordReadCharge => some (0x05#8, [4#8])
       | .recordReadSupply => some (0x05#8, [5#8])
       | .recordReadSleep => some (0x05#8, [6#8])
       | .recordReadStore => some (0x05#8, [7#8])
       | .splitSet d => some (0x06#8, one d)
       | .settingsSet a => some (0x07#8, opt word a.grace ++ opt word a.settle ++ opt word a.dwell ++ opt one a.rate ++ opt word a.discard
           ++ opt word a.enables)
       | .baseRequest t k data => some (0x08#8, one t ++ [k] ++ one data.length ++ data)
       | .baseReset => some (0x09#8, [])
       | .linkDiagnose => some (0x0A#8, [])
       | .alarmRead => some (0x0B#8, [])
       | .alarmClear m => some (0x0C#8, one m)
       | .guardSet a => some (0x0D#8, opt one a.filterRailOc ++ opt one a.filterRailUv ++ opt one a.filterCoilOc ++ opt one a.filterCoilUv
           ++ flag a.enableRailOc ++ flag a.enableRailUv ++ flag a.enableCoilOc ++ flag a.enableCoilUv ++ opt one a.mode
           ++ flag a.maskRailOc ++ flag a.maskRailUv ++ flag a.maskCoilOc ++ flag a.maskCoilUv ++ flag a.maskDieOt)
       | .budgetSet a => some (0x0E#8, opt one a.profile ++ opt word a.value0 ++ opt word a.value1 ++ opt word a.value2 ++ opt word a.value3)
       | .chargeSetLevel .fast => some (0x0F#8, [1#8])
       | .chargeSetLevel .steady => some (0x0F#8, [2#8])
       | .chargeSetLevel .trickle => some (0x0F#8, [3#8])
       | .chargeSetHold => some (0x0F#8, [4#8])
       | .chargeSetRelease => some (0x0F#8, [5#8])
       | .chargeSetRestart => some (0x0F#8, [6#8])
       | .orientSetLock => some (0x10#8, [1#8])
       | .orientSetFree => some (0x10#8, [2#8])
       | .indicateSet l src p => some (0x11#8, one l ++ one src ++ one p)
       | .sleepConfirm => some (0x12#8, [])
       | .sleepDecline => some (0x13#8, [])
       | .hostSleep => some (0x14#8, [])
       | .storeSave => some (0x15#8, [])
       | .storeErase => some (0x16#8, [])
       | .restart => some (0x17#8, [])
       | _ => none
     (∀ c, c.wf = true → form c = some (code, payload) → exec (.requestParcel code payload) s = exec c taken) ∧
     (Attentive s → 1 ≤ code.toNat → code.toNat ≤ 0x17 → (∀ c, c.wf = true → form c ≠ some (code, payload)) →
       exec (.requestParcel code payload) s =
         .next (finish { taken with mgmt := { s.mgmt with holder := some ⟨code, .refused, []⟩ } })))

/-! ## Requests: every owner's answer, from an engine that is IDLE -/

/-- The reads answer OK with what they are named for. RECORD-READ and TABLE-READ change nothing, an index outside the table being REFUSED;
COUNTERS-READ clears its group's counters, no other counter changing (R198, R39, R101, R168, R197, R86, R105). Each record, entry and group
of counters is spelled out field by field, and with them the other contents that replies carry: the settings, the split, the guard
settings, the budget, the two lines, a set of causes (R18, R20, R55, R67, R99, R120, R124, R144, R145, R162, R165, R174, R182, R187, R195,
R203). The model's choice: the codes of named values and the order of the contents are the model's reading, logs 9 and 11, the time asleep
held at its top is log 48, the order of the two slot counts is log 52, the two bytes of the running timer's ms left are log 55, the
rounding of the times to ms is log 57. -/
def Obligations.ReadsAnswerAndOnlyCountersClear : Prop :=
  (∀ s : State,
    let one (n : Nat) : List Byte := [BitVec.ofNat 8 n]
    let word (n : Nat) : List Byte := [BitVec.ofNat 8 (n / 256), BitVec.ofNat 8 n]
    let long (n : Nat) : List Byte := word (n / 65536) ++ word n
    let two (b : Bool) : List Byte := if b then [1#8] else [2#8]
    let opt : {α : Type} → (α → List Byte) → Option α → List Byte := fun f o => match o with | none => [0#8] | some a => 1#8 :: f a
    let at_ : {α : Type} → [DecidableEq α] → List α → α → List Byte := fun l a => one (l.idxOf a + 1)
    let run (l : List Byte) : List Byte := one l.length ++ l
    let posture := at_ [Posture.closed, .laptop, .stand, .tent, .tablet, .slate, .unknown]
    let orientation := at_ [Orientation.landscape, .portrait, .landscapeInverted, .portraitInverted]
    let claimant := at_ [ClaimSource.policy, .request]
    let pin := opt (at_ [PinOutcome.good, .openPin, .short, .marginal])
    let note := at_ [Note.taken, .absent, .badBody, .badRepeat]
    let level := at_ [PenLevel.trickle, .steady, .fast]
    let grant := at_ [none, some PenLevel.trickle, some .steady, some .fast]
    let cap := opt (at_ [PenLevel.steady, .trickle])
    let source := at_ [Source.lidMotion, .baseKeys, .basePointer, .baseMotion, .baseStatus, .penStatus, .uplink]
    let event := at_ [EventKind.lidClosed, .lidOpened, .postureChanged, .baseAttached, .baseDetached, .baseFault, .penDocked,
      .penRemoved, .chargeDone, .supplyAlarm]
    let led := at_ [LedSource.charge, .attach, .alarm, .lock, .on, .off]
    let pattern := at_ [LedPattern.steady, .blink, .stretch]
    let bit (b : Bool) (n : Nat) : Nat := if b then 2 ^ n else 0
    let p := s.posture
    let o := s.orient
    let i := s.att.ident
    let c := s.pen
    let g := s.guard
    let a := g.alarms
    let z := s.sleep
    let t := s.store
    let profiles := word g.profiles.p0 ++ word g.profiles.p1 ++ word g.profiles.p2 ++ word g.profiles.p3
    let settings :=
      [a.railOc, a.railUv, a.coilOc, a.coilUv].flatMap (fun x => one (x.choice + 1))
        ++ [a.railOc, a.railUv, a.coilOc, a.coilUv].flatMap (fun x => two x.enabled) ++ at_ [OcMode.stop, .limit] g.mode
        ++ [a.railOc, a.railUv, a.coilOc, a.coilUv, a.dieOt].flatMap (fun x => two x.mask)
    let lines := [s.policy.line1, s.policy.line2].flatMap (fun l => led l.source ++ pattern l.pattern ++ two l.output)
    postureRecord s =
      posture p.posture ++ opt posture p.previous ++ opt one p.count ++ two p.count.isSome
        ++ opt (at_ [RefSource.lidSwitch, .flatSwitch, .gravity]) p.refSource ++ two p.moving ++ opt one p.window
        ++ two s.pins.lidClosed ++ two s.pins.foldFlat ++ [p.faults, p.slips] ∧
    orientationRecord s =
      orientation o.current ++ opt orientation o.previous ++ orientation o.candidate ++ word (min (o.stable / 10) 65535) ++ two o.flat
        ++ two (o.lock == none) ++ opt claimant o.lock
        ++ opt (fun v : Word16 × Word16 × Word16 => word v.1.toNat ++ word v.2.1.toNat ++ word v.2.2.toNat) o.sample
        ++ word o.dwell ++ at_ [SampleRate.hz12, .hz25, .hz50, .hz100] s.poller.rate ∧
    attachmentRecord s =
      two s.att.present
        ++ at_ [LinkState.absent, .settling, .powering, .training, .identifying, .ready, .quiet, .diagnosing, .unreachable, .unpowered,
            .faulted] s.link.state
        ++ opt (at_ [Rate.fast, .middle, .slow]) s.link.rate ++ opt (at_ [IdSource.descriptor, .generic]) i.idSource
        ++ opt (fun m : Word16 => word m.toNat) i.model ++ opt (fun r => [r]) i.revision
        ++ opt (fun n : Word32 => long n.toNat) i.serial ++ word i.railDemand ++ two i.selfPowered ++ run i.declared ++ run i.wakeKinds
        ++ opt (fun m : Mount => one m.order ++ one m.signs) i.mount
        ++ opt (fun n : Notes => note n.identity ++ note n.rail ++ note n.sources ++ note n.wake ++ note n.mount) i.notes
        ++ opt (fun r => match r with | .badSignature => [1#8] | .chunkFailed n => 2#8 :: one n) i.genericReason
        ++ opt run i.descriptor ++ word s.att.attachCount.toNat ++ [s.att.linkDropped]
        ++ opt (fun d : Diagnosis =>
            at_ [LinkState.ready, .quiet, .unreachable] d.startedFrom ++ pin d.dataPlus ++ pin d.dataMinus ++ pin d.presence
              ++ pin d.railSense ++ two d.complete
              ++ opt (at_ [DiagEnd.finished, .detach, .unpowered, .faulted]) d.endedBy) s.att.diagnosis ∧
    chargeRecord s =
      at_ [PenState.noPen, .detect, .foreign, .softStart, .charging, .topped, .paused, .held, .fault] c.session
        ++ opt (at_ [FaultCause.penSilent, .penReported, .coilLatch]) c.fault ++ two c.docked ++ two s.pins.dock
        ++ at_ [PenLevel.fast, .steady, .trickle] c.requested ++ grant g.penGrant ++ cap g.cap ++ opt one c.battery ++ word c.count.toNat
        ++ at_ [some ClaimSource.policy, some .request, none] c.hold ∧
    guardSettings g = settings ∧
    supplyRecord s =
      one g.active ++ profiles ++ word g.budget ++ word g.baseGrant ++ grant g.penGrant ++ opt level g.claimed ++ cap g.cap
        ++ two g.railOn ++ two g.coilOn
        ++ [a.railOc, a.railUv, a.coilOc, a.coilUv, a.dieOt].flatMap (fun x => two x.raw ++ two x.detected ++ two x.sticky)
        ++ [a.railOc, a.railUv, a.coilOc, a.coilUv].flatMap (fun x => two x.latch) ++ settings ∧
    bothLines s = lines ∧
    sleepRecord s =
      at_ [Power.awake, .grace, .sleepAsked, .asleep, .waking] z.power ++ two z.expired ++ word z.graceTime
        ++ (match z.grace, z.confirm, z.wakeWindow with
            | some n, _, _ => 1#8 :: word ((n + 9) / 10)
            | none, some n, _ => 2#8 :: word ((n + 9) / 10)
            | none, none, some n => 3#8 :: word ((n + 9) / 10)
            | none, none, none => [4#8])
        ++ one (bit z.holds.hingeMoving 0 + bit z.holds.requestPending 1 + bit z.holds.storeBusy 2 + bit z.holds.baseIdentifying 3
            + bit z.holds.chargeStarting 4)
        ++ at_ [WakeLine.released, .pulsing, .held] z.wakeLine ++ one z.pulses
        ++ (match z.power, z.asleepAt with
            | .asleep, some n | .waking, some n => 1#8 :: long (min ((s.now - n) / 10) 4294967295)
            | _, _ => [0#8])
        ++ one z.reasons.length
        ++ z.reasons.flatMap (fun r =>
            (match r.kind with | .event k => event k ++ [0#8] | .frame x => 11#8 :: 1#8 :: source x) ++ [r.count] ++ long r.firstSeen)
        ++ two z.overflow ++ two s.policy.inputs.charge ++ two s.policy.inputs.attach ++ two s.policy.inputs.alarm
        ++ two s.policy.inputs.lock ++ lines ∧
    storeRecord s =
      at_ [StoreState.starting, .idle, .saving, .erasing] t.state
        ++ (match t.result with
            | none => [0#8, 0#8]
            | some .storeAbsent => [1#8, 1#8, 0#8]
            | some .storeInvalid => [1#8, 2#8, 0#8]
            | some .storeLoaded => [1#8, 3#8, 0#8]
            | some (.storePartial l) => [1#8, 4#8, 1#8] ++ run l)
        ++ opt word t.imageLength
        ++ opt (fun x : StoreOp × StoreEnd => at_ [StoreOp.save, .erase] x.1 ++ at_ [StoreEnd.done, .timeout] x.2) t.lastOp
        ++ one t.pages ∧
    (let r := s.route.ingress
     routeCounters s =
       [r.lidMotion, r.baseKeys, r.basePointer, r.baseMotion, r.baseStatus, r.penStatus, r.uplink].flatMap (fun x =>
           word x.received.toNat ++ [x.damaged, x.tooLong, x.undeclared, x.unmatched, x.overrun])
         ++ s.route.table.flatMap (fun e => word e.passed.toNat ++ [e.queueFull])) ∧
    (∀ e : RouteEntry,
      let f := e.fields
      encRoute f =
        two f.valid ++ source f.source ++ opt one f.kind ++ one f.postures.toNat ++ one f.views.toNat
          ++ opt (fun m : Word16 => word m.toNat) f.model ++ at_ [RouteAction.forward, .drop, .wake, .forwardWake] f.action
          ++ (match f.dest with | .base => [0#8] | .channel n => 1#8 :: one n) ++ one f.keepN
          ++ at_ [DamagePolicy.dropDamaged, .passMarked] f.damage ∧
      routeEntry e = encRoute f ++ one e.phase ++ word e.passed.toNat ++ [e.queueFull]) ∧
    (∀ w : Window,
      encWindow w =
        one w.lower ++ one w.upper ++ one w.hysteresis ++ at_ [Posture.laptop, .stand, .tent, .tablet] w.posture
          ++ at_ [WindowCond.any, .upright, .inverted] w.cond) ∧
    (∀ e : PolicyEntry,
      encPolicy e =
        two e.valid ++ event e.event ++ one e.fromSet.toNat ++ one e.toSet.toNat ++ at_ [BaseCond.any, .attached, .absent] e.baseCond
          ++ at_ [PenCond.any, .docked, .undocked] e.penCond ++ one e.hosts.toNat ++ one e.actions.length
          ++ e.actions.flatMap (fun x =>
              match x with
              | .sleepBegin => [1#8] | .sleepCancel => [2#8] | .wake => [3#8] | .orientLock => [4#8] | .orientFree => [5#8]
              | .chargeHold => [6#8] | .chargeAllow => [7#8] | .budgetProfile n => 8#8 :: one n
              | .indicate l src pat => 9#8 :: at_ [LedLine.line1, .line2] l ++ led src ++ pattern pat)) ∧
    (let e := s.mgmt.enables
     allSettings s =
       word z.graceTime ++ word p.settleTime ++ word o.dwell ++ at_ [SampleRate.hz12, .hz25, .hz50, .hz100] s.poller.rate
         ++ word s.issuer.discardTime
         ++ word (bit e.start 0 + bit e.posture 1 + bit e.orientation 2 + bit e.attach 3 + bit e.link 4 + bit e.charge 5 + bit e.alarm 6
             + bit e.sleep 7 + bit e.encoder 8 + bit e.budget 9 + bit e.store 10)) ∧
    (let slots (q : List Frame) : List Byte := one ((q.map (fun f => f.slots.length)).sum)
     splitContent s = one s.pool.share ++ slots s.pool.up ++ slots s.pool.down) ∧
    budgetContent s = one g.active ++ profiles ++ word g.budget ++ word g.baseGrant ++ grant g.penGrant ∧
    (∀ in_ : Cause → Bool,
      encCauses in_ =
        one (bit (in_ .railOc) 0 + bit (in_ .railUv) 1 + bit (in_ .coilOc) 2 + bit (in_ .coilUv) 3 + bit (in_ .dieOt) 4))) ∧
  (∀ s : State, Attentive s →
    Replies .recordReadPosture s 0x05#8 .ok (postureRecord s) s ∧
    Replies .recordReadOrientation s 0x05#8 .ok (orientationRecord s) s ∧
    Replies .recordReadAttachment s 0x05#8 .ok (attachmentRecord s) s ∧
    Replies .recordReadCharge s 0x05#8 .ok (chargeRecord s) s ∧
    Replies .recordReadSupply s 0x05#8 .ok (supplyRecord s) s ∧
    Replies .recordReadSleep s 0x05#8 .ok (sleepRecord s) s ∧
    Replies .recordReadStore s 0x05#8 .ok (storeRecord s) s ∧
    (∀ i e, i < 48 → s.route.table[i]? = some e → Replies (.routeTableRead i) s 0x03#8 .ok (routeEntry e) s) ∧
    (∀ i, 48 ≤ i → Replies (.routeTableRead i) s 0x03#8 .refused [] s) ∧
    (∀ i w, i < 8 → s.posture.windows[i]? = some w → Replies (.windowTableRead i) s 0x03#8 .ok (encWindow w) s) ∧
    (∀ i, 8 ≤ i → Replies (.windowTableRead i) s 0x03#8 .refused [] s) ∧
    (∀ i e, i < 24 → s.policy.table[i]? = some e → Replies (.policyTableRead i) s 0x03#8 .ok (encPolicy e) s) ∧
    (∀ i, 24 ≤ i → Replies (.policyTableRead i) s 0x03#8 .refused [] s) ∧
    Replies .countersReadUplink s 0x04#8 .ok [s.uplinkErrors, s.mgmt.overrun]
      { s with uplinkErrors := 0#8, mgmt := { s.mgmt with overrun := 0#8 } } ∧
    Replies .countersReadRoute s 0x04#8 .ok (routeCounters s)
      { s with route := { s.route with
          ingress := ⟨⟨0, 0, 0, 0, 0, 0⟩, ⟨0, 0, 0, 0, 0, 0⟩, ⟨0, 0, 0, 0, 0, 0⟩, ⟨0, 0, 0, 0, 0, 0⟩, ⟨0, 0, 0, 0, 0, 0⟩,
                      ⟨0, 0, 0, 0, 0, 0⟩, ⟨0, 0, 0, 0, 0, 0⟩⟩
          table := s.route.table.map (fun e => ⟨e.fields, e.phase, 0, 0⟩) } } ∧
    Replies .countersReadIssuer s 0x04#8 .ok [s.issuer.stray, s.issuer.discarded]
      { s with issuer := { s.issuer with stray := 0#8, discarded := 0#8 } } ∧
    Replies .countersReadPosture s 0x04#8 .ok [s.posture.faults, s.posture.slips]
      { s with posture := { s.posture with faults := 0#8, slips := 0#8 } })

/-- TABLE-WRITE replaces an entry whose fields pass their checks whole, a route entry's phase and counters starting at 0, and answers OK
with the entry; else it answers REFUSED and changes nothing. The checks are spelled out: a named value is a position in its list, a kind
and a destination suit the source, numbers are in range, and a set has no bit beyond its list (R37, R101, R168). The model's choice: the
encodings of the arguments are logs 9 and 31, the refusal of a set bit beyond its list is log 10, the content of the answer is log 11. -/
def Obligations.TableWritesReplaceOneEntry : Prop :=
  (∀ (s : State) (i : Nat), Attentive s →
    (∀ e f, i < 48 → i < s.route.table.length → checkRoute e = some f →
      Replies (.routeTableWrite i e) s 0x02#8 .ok (enc8 i ++ encRoute f)
        { s with route := { s.route with table := s.route.table.set i ⟨f, 0, 0, 0⟩ } }) ∧
    (∀ e, (48 ≤ i ∨ checkRoute e = none) → Replies (.routeTableWrite i e) s 0x02#8 .refused [] s) ∧
    (∀ w v, i < 8 → checkWindow w = some v →
      Replies (.windowTableWrite i w) s 0x02#8 .ok (encWindow v)
        { s with posture := { s.posture with windows := s.posture.windows.set i v } }) ∧
    (∀ w, (8 ≤ i ∨ checkWindow w = none) → Replies (.windowTableWrite i w) s 0x02#8 .refused [] s) ∧
    (∀ e f, i < 24 → checkPolicy e = some f →
      Replies (.policyTableWrite i e) s 0x02#8 .ok (encPolicy f)
        { s with policy := { s.policy with table := s.policy.table.set i f } }) ∧
    (∀ e, (24 ≤ i ∨ checkPolicy e = none) → Replies (.policyTableWrite i e) s 0x02#8 .refused [] s)) ∧
  (∀ (e : RawRoute) (f : RouteFields), checkRoute e = some f ↔
    f.valid = e.valid ∧ f.kind = e.kind ∧ f.postures.toNat = e.postures ∧ f.views.toNat = e.views ∧
    f.model = e.model.map (BitVec.ofNat 16) ∧ f.keepN = e.keepN ∧ 1 ≤ e.keepN ∧ e.keepN ≤ 16 ∧
    (e.source, f.source) ∈ [(1, Source.lidMotion), (2, .baseKeys), (3, .basePointer), (4, .baseMotion), (5, .baseStatus),
      (6, .penStatus), (7, .uplink)] ∧
    (e.action, f.action) ∈ [(1, RouteAction.forward), (2, .drop), (3, .wake), (4, .forwardWake)] ∧
    (e.damage, f.damage) ∈ [(1, DamagePolicy.dropDamaged), (2, .passMarked)] ∧
    (∀ k, e.kind = some k →
      (f.source, k) ∈ [(Source.lidMotion, 0x01), (.penStatus, 0x02), (.baseKeys, 0x10), (.basePointer, 0x11),
        (.baseMotion, 0x12), (.baseStatus, 0x13)] ∨ (f.source = .uplink ∧ 0x50 ≤ k ∧ k ≤ 0x7F)) ∧
    ((f.source = .uplink ∧ e.dest = none ∧ f.dest = .base) ∨
      (f.source ≠ .uplink ∧ ∃ n, e.dest = some n ∧ 1 ≤ n ∧ n ≤ 15 ∧ f.dest = .channel n))) ∧
  (∀ (w : RawWindow) (v : Window), checkWindow w = some v ↔
    v.lower = w.lower ∧ v.upper = w.upper ∧ v.hysteresis = w.hysteresis ∧ w.lower ≤ 180 ∧ w.upper ≤ 180 ∧ w.hysteresis ≤ 10 ∧
    (w.posture, v.posture) ∈ [(1, Posture.laptop), (2, .stand), (3, .tent), (4, .tablet)] ∧
    (w.cond, v.cond) ∈ [(1, WindowCond.any), (2, .upright), (3, .inverted)]) ∧
  (∀ (e : RawPolicy) (f : PolicyEntry), checkPolicy e = some f ↔
    f.valid = e.valid ∧ f.fromSet.toNat = e.fromSet ∧ f.toSet.toNat = e.toSet ∧ f.hosts.toNat = e.hosts ∧
    (e.event, f.event) ∈ [(1, EventKind.lidClosed), (2, .lidOpened), (3, .postureChanged), (4, .baseAttached), (5, .baseDetached),
      (6, .baseFault), (7, .penDocked), (8, .penRemoved), (9, .chargeDone), (10, .supplyAlarm)] ∧
    (e.baseCond, f.baseCond) ∈ [(1, BaseCond.any), (2, .attached), (3, .absent)] ∧
    (e.penCond, f.penCond) ∈ [(1, PenCond.any), (2, .docked), (3, .undocked)] ∧ e.actions.length ≤ 3 ∧
    List.Forall₂ (fun (a : RawAction) (b : PolicyAction) =>
      match a with
      | .plain c => (c, b) ∈ [(1, PolicyAction.sleepBegin), (2, .sleepCancel), (3, .wake), (4, .orientLock), (5, .orientFree),
          (6, .chargeHold), (7, .chargeAllow)]
      | .budgetProfile n => n ≤ 3 ∧ b = .budgetProfile n
      | .indicate l s p => ∃ l' s' p', b = .indicate l' s' p' ∧ (l, l') ∈ [(1, LedLine.line1), (2, .line2)] ∧
          (s, s') ∈ [(1, LedSource.charge), (2, .attach), (3, .alarm), (4, .lock), (5, .on), (6, .off)] ∧
          (p, p') ∈ [(1, LedPattern.steady), (2, .blink), (3, .stretch)]) e.actions f.actions)

/-- HELLO answers with the state it found; in ASLEEP and WAKING the host is AWAKE again, the wake line released and the list and the mark
empty, in the other states nothing changes (R180, R196). The model's choice: the order of the content is the model's reading, logs 9 and
11. -/
def Obligations.HelloWakesTheHost : Prop :=
  ∀ (s : State) (r : StartResult), Attentive s → s.store.result = some r →
    let content := encNamed powerList s.sleep.power ++ [0x3E#8, 0x91#8, 0x26#8, 0x40#8, 0x02#8] ++ encResult r
      ++ encTwo s.sleep.overflow ++ encList encWakeReason s.sleep.reasons
    ((s.sleep.power = .awake ∨ s.sleep.power = .grace ∨ s.sleep.power = .sleepAsked) →
      Replies .hello s 0x01#8 .ok content s) ∧
    ((s.sleep.power = .asleep ∨ s.sleep.power = .waking) →
      Replies .hello s 0x01#8 .ok content
        { s with sleep := { s.sleep with
            power := .awake, wakeWindow := none, wakeLine := .released, pulse := none, pulses := 0, reasons := []
            overflow := false, asleepAt := none } })

/-- SPLIT-SET moves the boundary while both queues are empty; it is BUSY while a queue holds a frame and REFUSED outside 8 to 64 (R18).
SETTINGS-SET with a setting out of range is REFUSED and changes none; else every setting carried, be it one, several or none, is written
and the others are kept: a grace time, a settle time and a discard time take effect for the next start of their timers, a new sample rate
restarts the period and the rate in force does not, the enables discard the pending notices of disabled kinds, and a dwell is tested at
once: with the lock released, the candidate other than the current orientation and stable for it, the display turns and posts ORIENTATION,
else the dwell alone changes (R195, R170, R92, R82, R109, R115, R116, R200). The model's choice: the encodings of the arguments are logs 9
and 31, the refusal of a set bit beyond its list is log 10, ORIENTATION posted before the enables carried is log 45, the order of the two
slot counts is log 52. -/
def Obligations.SplitAndSettingsAreWritten : Prop :=
  ∀ s : State, Attentive s →
    (∀ d,
      ((d < 8 ∨ 64 < d) → Replies (.splitSet d) s 0x06#8 .refused (splitContent s) s) ∧
      (8 ≤ d → d ≤ 64 → (s.pool.up ≠ [] ∨ s.pool.down ≠ []) → Replies (.splitSet d) s 0x06#8 .busy (splitContent s) s) ∧
      (8 ≤ d → d ≤ 64 → s.pool.up = [] → s.pool.down = [] →
        Replies (.splitSet d) s 0x06#8 .ok [BitVec.ofNat 8 d, 0#8, 0#8] { s with pool := { s.pool with share := d } })) ∧
    (∀ a : SettingsArg,
      ((∃ n, a.grace = some n ∧ 60000 < n) ∨ (∃ n, a.settle = some n ∧ n ∉ [25, 50, 75, 100, 150, 250, 400, 600]) ∨
        (∃ n, a.dwell = some n ∧ (n < 100 ∨ 2000 < n)) ∨ (∃ n, a.rate = some n ∧ (n < 1 ∨ 4 < n)) ∨
        (∃ n, a.discard = some n ∧ (n < 500 ∨ 8000 < n)) ∨ (∃ n, a.enables = some n ∧ 2048 ≤ n)) →
      Replies (.settingsSet a) s 0x07#8 .refused [] s) ∧
    (∀ g t d, g ≤ 60000 → t ∈ [25, 50, 75, 100, 150, 250, 400, 600] → 500 ≤ d → d ≤ 8000 →
      let u := { s with sleep := { s.sleep with graceTime := g }, posture := { s.posture with settleTime := t }
                        issuer := { s.issuer with discardTime := d } }
      Replies (.settingsSet ⟨some g, some t, none, none, some d, none⟩) s 0x07#8 .ok (allSettings u) u) ∧
    (∀ n r, pick rateList n = some r → r ≠ s.poller.rate →
      let u := { s with poller := { s.poller with rate := r, period := startMs (periodMs r) } }
      Replies (.settingsSet ⟨none, none, none, some n, none, none⟩) s 0x07#8 .ok (allSettings u) u) ∧
    (∀ n, n < 2048 →
      let u := { s with mgmt := { s.mgmt with
          enables := enablesOf n, notices := keepEnabled (enablesOf n) s.mgmt.notices } }
      Replies (.settingsSet ⟨none, none, none, none, none, some n⟩) s 0x07#8 .ok (allSettings u) u) ∧
    (∀ n, 100 ≤ n → n ≤ 2000 → s.orient.lock.isSome = true →
      let u := { s with orient := { s.orient with dwell := n, dwellDue := false } }
      Replies (.settingsSet ⟨none, none, some n, none, none, none⟩) s 0x07#8 .ok (allSettings u) u) ∧
    (∀ a : SettingsArg,
      (∀ n, a.grace = some n → n ≤ 60000) → (∀ n, a.settle = some n → n ∈ [25, 50, 75, 100, 150, 250, 400, 600]) →
      (∀ n, a.dwell = some n → 100 ≤ n ∧ n ≤ 2000) → (∀ n, a.rate = some n → 1 ≤ n ∧ n ≤ 4) →
      (∀ n, a.discard = some n → 500 ≤ n ∧ n ≤ 8000) → (∀ n, a.enables = some n → n < 2048) →
      let turns : Prop :=
        ∃ n, a.dwell = some n ∧ ms n ≤ s.orient.stable ∧ s.orient.candidate ≠ s.orient.current ∧ s.orient.lock = none
      let rate := (a.rate.bind (pick rateList)).getD s.poller.rate
      let written (t : State) : State :=
        { t with
          sleep := { t.sleep with graceTime := a.grace.getD t.sleep.graceTime }
          posture := { t.posture with settleTime := a.settle.getD t.posture.settleTime }
          orient := { t.orient with
            dwell := a.dwell.getD t.orient.dwell
            dwellDue := if a.dwell = none then t.orient.dwellDue else false }
          poller := { t.poller with
            rate := rate, period := if rate = t.poller.rate then t.poller.period else startMs (periodMs rate) }
          issuer := { t.issuer with discardTime := a.discard.getD t.issuer.discardTime }
          mgmt :=
            match a.enables with
            | none => t.mgmt
            | some n => { t.mgmt with enables := enablesOf n, notices := keepEnabled (enablesOf n) t.mgmt.notices } }
      let turned : State :=
        post (.orientation s.orient.candidate s.orient.current s.orient.candidate s.orient.flat false)
          { s with orient := { s.orient with current := s.orient.candidate, previous := some s.orient.current } }
      (¬ turns → Replies (.settingsSet a) s 0x07#8 .ok (allSettings (written s)) (written s)) ∧
      (turns → Replies (.settingsSet a) s 0x07#8 .ok (allSettings (written turned)) (written turned)))

/-- The checks of BASE-REQUEST: a target outside 0 to 15 or more than 32 data bytes is answered REFUSED and the table is not consulted;
every other target, command code and length of data is not refused; data are compared by length and bytes. -/
def Obligations.BaseRequestIsChecked : Prop :=
  ∀ (s : State) (target : Nat) (command : Byte) (data : List Byte), Attentive s →
    ((15 < target ∨ 32 < data.length) →
      ∃ content, Replies (.baseRequest target command data) s 0x08#8 .refused content s) ∧
    (target ≤ 15 → data.length ≤ 32 →
      ∃ st content t, st ≠ .refused ∧ Replies (.baseRequest target command data) s 0x08#8 st content t) ∧
    (∀ e : ReqEntry, target ≤ 15 → data.length ≤ 32 →
      s.issuer.table.find? (fun e => e.target == target && e.command == command) = some e →
      (¬ (e.data.length = data.length ∧ ∀ i : Nat, e.data[i]? = data[i]?) →
        ∃ content, Replies (.baseRequest target command data) s 0x08#8 .mismatch content s) ∧
      ((e.data.length = data.length ∧ ∀ i : Nat, e.data[i]? = data[i]?) →
        ∃ st content t, st ≠ .mismatch ∧ Replies (.baseRequest target command data) s 0x08#8 st content t))

/-- A BASE-REQUEST out of range answers REFUSED with the key and the three counts. One whose key is in the table with other data answers
MISMATCH with that entry's state as well, and nothing changes; with the same data it answers RETRY with the entry's state and attempts and
changes nothing while the entry is QUEUED or ISSUED; a DONE one answers its outcome, with OK its response data, and is removed (R72, R74).
A new BASE-REQUEST with the link READY or QUIET and no request open enters the table; its COMMAND goes into the downstream queue and it is
ISSUED, or without room it is the waiting offer; while another entry is ISSUED or an offer waits it is not offered and stays QUEUED. The
hold-off is added and the answer is RETRY. Without a running link it is NOT-ATTACHED, with six entries FULL (R73, R75, R85), both with the
key and the counts of the table as it stands (R74). The model's choice: the order of the content is the model's reading, logs 9 and 11. -/
def Obligations.BaseRequestEntersTheTable : Prop :=
  ∀ (s : State) (target : Nat) (command : Byte) (data : List Byte), Attentive s →
    let count (l : List ReqEntry) (st : ReqState) : Byte := BitVec.ofNat 8 (l.countP (fun e => e.state == st))
    let shown (l : List ReqEntry) : List Byte :=
      [BitVec.ofNat 8 target, command, count l .queued, count l .issued, count l .done]
    ((15 < target ∨ 32 < data.length) →
      Replies (.baseRequest target command data) s 0x08#8 .refused (shown s.issuer.table) s) ∧
    (target ≤ 15 → data.length ≤ 32 →
      (∀ e, s.issuer.table.find? (fun e => e.target == target && e.command == command) = some e → e.data ≠ data →
        Replies (.baseRequest target command data) s 0x08#8 .mismatch
          (shown s.issuer.table ++ [match e.state with | .queued => 1#8 | .issued => 2#8 | .done => 3#8]) s) ∧
      (∀ before after e, s.issuer.table = before ++ e :: after → e.target = target → e.command = command → e.data = data →
        (∀ y ∈ before ++ after, ¬ (y.target = target ∧ y.command = command)) →
        (e.state = .queued →
          Replies (.baseRequest target command data) s 0x08#8 .retry (shown s.issuer.table ++ [1#8, BitVec.ofNat 8 e.attempts]) s) ∧
        (e.state = .issued →
          Replies (.baseRequest target command data) s 0x08#8 .retry (shown s.issuer.table ++ [2#8, BitVec.ofNat 8 e.attempts]) s) ∧
        (∀ o, e.state = .done → e.outcome = some o →
          Replies (.baseRequest target command data) s 0x08#8
            (match o with
              | .ok => .ok | .baseRefused => .baseRefused | .noResponse => .noResponse | .gaveUp => .gaveUp | .gone => .gone)
            (shown (before ++ after) ++ BitVec.ofNat 8 e.attempts
              :: (if o = .ok then BitVec.ofNat 8 (e.response.getD []).length :: e.response.getD [] else []))
            { s with issuer := { s.issuer with table := before ++ after } })) ∧
      ((∀ e ∈ s.issuer.table, ¬ (e.target = target ∧ e.command = command)) →
      let held := { s.sleep with holds := { s.sleep.holds with requestPending := true } }
      let frame : Frame := ⟨none, 0x40#8, .base, BitVec.ofNat 8 target :: command :: data, false, .issuer, []⟩
      let entry (st : ReqState) : ReqEntry := ⟨target, command, data, st, none, none, 0, none⟩
      (s.link.state.isUp = false →
        Replies (.baseRequest target command data) s 0x08#8 .notAttached (shown s.issuer.table) s) ∧
      (s.link.state.isUp = true → 6 ≤ s.issuer.table.length →
        Replies (.baseRequest target command data) s 0x08#8 .full (shown s.issuer.table) s) ∧
      (∀ p, s.link.state.isUp = true → s.issuer.table.length < 6 → (∀ e ∈ s.issuer.table, e.state = .done) →
        s.issuer.waiting = none → s.pool.admitDown frame = some p →
        Replies (.baseRequest target command data) s 0x08#8 .retry
          ([BitVec.ofNat 8 target, command, 0#8, 1#8, BitVec.ofNat 8 s.issuer.table.length, 2#8, 0#8])
          { s with pool := p, sleep := held, issuer := { s.issuer with table := s.issuer.table ++ [entry .issued] } }) ∧
      (s.link.state.isUp = true → s.issuer.table.length < 6 → (∀ e ∈ s.issuer.table, e.state = .done) →
        s.issuer.waiting = none → s.pool.admitDown frame = none →
        Replies (.baseRequest target command data) s 0x08#8 .retry
          ([BitVec.ofNat 8 target, command, 1#8, 0#8, BitVec.ofNat 8 s.issuer.table.length, 1#8, 0#8])
          { s with sleep := held, issuer := { s.issuer with
              table := s.issuer.table ++ [entry .queued], waiting := some (target, command) } }) ∧
      (s.link.state.isUp = true → s.issuer.table.length < 6 →
        ((∃ e ∈ s.issuer.table, e.state = .issued) ∨ s.issuer.waiting.isSome = true) →
        Replies (.baseRequest target command data) s 0x08#8 .retry
          (shown (s.issuer.table ++ [entry .queued]) ++ [1#8, 0#8])
          { s with sleep := held, issuer := { s.issuer with table := s.issuer.table ++ [entry .queued] } })))

/-! ## Requests to the hinge link, the guard, the charger, the sleep controller and the store -/

/-- BASE-RESET (R65): from READY, QUIET and UNREACHABLE the open entries are GONE, the downstream queue is flushed, the link's timers are
stopped and the 50 ms reset drive starts in TRAINING, the grants kept; from UNPOWERED the link claims the allowance first, the pen stepped
down or re-granted beside it and its session moved, with BUDGET(BASE-CLAIM) (R126, R133), or without room stays UNPOWERED, the pen left as
it was; in FAULTED it is LOCKED, elsewhere BUSY. -/
def Obligations.BaseResetRestartsTheBase : Prop :=
  ∀ s : State, Attentive s →
    let gone (e : ReqEntry) : ReqEntry :=
      if e.state = .done then e
      else { e with state := .done, outcome := some .gone, response := none, discard := some (10 * s.issuer.discardTime) }
    ((s.link.state = .ready ∨ s.link.state = .quiet ∨ s.link.state = .unreachable) → s.sleep.expired = false →
      Replies .baseReset s 0x09#8 .accepted []
        (setInputs { s.policy.inputs with attach := false }
          { s with
            issuer := { s.issuer with table := s.issuer.table.map gone, window := none, waiting := none }
            pool := { s.pool with down := [], hingeBusy := false }
            link := { s.link with
              state := .training, rate := none, quietWaits := false, kaDue := false, resetAfterRail := false, debounce := none
              railUp := none, echo := none, retry := none, describe := none, quiet := none, wake := none, keepAlive := none
              kaWindow := none, resetDrive := some 500, diag := none }
            route := { s.route with noBase := false }
            posture := { s.posture with baseRun := none }
            sleep := { s.sleep with holds := { s.sleep.holds with requestPending := false, baseIdentifying := true } } })) ∧
    (s.link.state = .unpowered → s.guard.baseGrant = 0 →
      ∃ t, Replies .baseReset s 0x09#8 .accepted [] t ∧
        (250 ≤ s.guard.budget → t.link.state = .powering ∧ t.link.railUp = some 200 ∧ t.link.resetAfterRail = true ∧
          t.guard.baseGrant = 250 ∧ PenFollows (besideClaim s.guard 250) s t ∧ BudgetTold .baseClaim s t) ∧
        (s.guard.budget < 250 → t.link.state = .unpowered ∧ t.guard.baseGrant = 0 ∧ LinkEnded .unpowered s t ∧
          PenFollows s.guard.penGrant s t ∧
          (s.mgmt.enables.attach = true → ∃ p, t.mgmt.notices.attach = some p ∧ p.notice = .attach (.unpowered 250)))) ∧
    (s.link.state = .faulted → Replies .baseReset s 0x09#8 .locked [] s) ∧
    (s.link.state ∉ [.ready, .quiet, .unreachable, .unpowered, .faulted] → Replies .baseReset s 0x09#8 .busy [] s)

/-- LINK-DIAGNOSE and its four measurements (R66, R67): with no request open it starts a fresh record and flushes the downstream queue;
each measurement writes the next pin's outcome, and the fourth ends the diagnosis with its notice and starts training at FAST. The model's
choice: the rate of a diagnosis begun in UNREACHABLE is log 30. -/
def Obligations.DiagnosisMeasuresFourPins : Prop :=
  ∀ s : State,
    (Attentive s → (s.link.state ∉ [.ready, .quiet, .unreachable] ∨ ∃ e ∈ s.issuer.table, e.state ≠ .done) →
      Replies .linkDiagnose s 0x0A#8 .busy [] s) ∧
    (Attentive s → s.link.state ∈ [.ready, .quiet, .unreachable] → (∀ e ∈ s.issuer.table, e.state = .done) →
      s.sleep.holds.baseIdentifying = false →
      Replies .linkDiagnose s 0x0A#8 .accepted []
        (setInputs { s.policy.inputs with attach := false }
          { s with
            att := { s.att with diagnosis := some ⟨s.link.state, none, none, none, none, false, none⟩ }
            pool := { s.pool with down := [], hingeBusy := false }
            link := { s.link with
              state := .diagnosing, quietWaits := false, kaDue := false, resetAfterRail := false, debounce := none, railUp := none
              echo := none, retry := none, describe := none, quiet := none, wake := none, keepAlive := none, kaWindow := none
              resetDrive := none, diag := some 75 }
            route := { s.route with noBase := false }
            posture := { s.posture with baseRun := none } })) ∧
    (∀ o d from_, Running s → s.att.diagnosis = some d → s.link.diag.isSome = true →
      let next (d : Diagnosis) : State :=
        { s with att := { s.att with diagnosis := some d }, link := { s.link with diag := some 75 } }
      (d = ⟨from_, none, none, none, none, false, none⟩ →
        exec (.diagnosisMeasurementEnd o) s = .next (finish (next { d with dataPlus := some o }))) ∧
      (∀ a, d = ⟨from_, some a, none, none, none, false, none⟩ →
        exec (.diagnosisMeasurementEnd o) s = .next (finish (next { d with dataMinus := some o }))) ∧
      (∀ a b, d = ⟨from_, some a, some b, none, none, false, none⟩ →
        exec (.diagnosisMeasurementEnd o) s = .next (finish (next { d with presence := some o }))) ∧
      (∀ a b c, d = ⟨from_, some a, some b, some c, none, false, none⟩ →
        exec (.diagnosisMeasurementEnd o) s =
          .next (finish (setInputs { s.policy.inputs with attach := false }
            { post (.link (.diagnosed (some a) (some b) (some c) (some o))) s with
              att := { s.att with diagnosis := some ⟨from_, some a, some b, some c, some o, true, some .finished⟩ }
              link := { s.link with diag := none, state := .training, rate := some .fast, attempt := 1, echo := some 100 }
              route := { s.route with noBase := false }
              posture := { s.posture with baseRun := none }
              sleep := { s.sleep with holds := { s.sleep.holds with baseIdentifying := true } } }))))

/-- ALARM-READ returns the sticky set, the detected set, the latches and the cap, then sets the sticky set to the detected set, and
changes and posts nothing else (R141); the order of the content is the model's (log 11). -/
def Obligations.AlarmReadLeavesTheDetectedSticky : Prop :=
  ∀ s : State, Attentive s →
    let a := s.guard.alarms
    Replies .alarmRead s 0x0B#8 .ok
      (encCauses (fun c => (a.get c).sticky) ++ encCauses (fun c => (a.get c).detected) ++ encCauses (fun c => (a.get c).latch)
        ++ encOpt (encNamed capList) s.guard.cap)
      { s with guard := { s.guard with alarms :=
          ⟨{ a.railOc with sticky := a.railOc.detected }, { a.railUv with sticky := a.railUv.detected },
           { a.coilOc with sticky := a.coilOc.detected }, { a.coilUv with sticky := a.coilUv.detected },
           { a.dieOt with sticky := a.dieOt.detected }⟩ } }

/-- ALARM-CLEAR (R142, R157): it is REFUSED unless it names output causes alone; each cause named loses its latch and its detected state,
COIL-OC the cap as well; sticky states, other causes' latches and DIE-OT stay. With no latch and no cap a named cause that is not detected
is left as it was, and nothing else changes but the filters of the detected ones that start again; a cleared rail latch lets the link power
up; a cleared coil latch takes the session to DETECT with TRICKLE granted where it fits, or to HELD under a hold. A cap removed re-grants
the pen, which resumes a PAUSED session, with BUDGET(CLEAR) (R129, R133, R156); with no cap removed and no output returned the pen stays as
it was and no BUDGET is posted; with the rail returned alone the pen gives way to the base's claim, with BUDGET(BASE-CLAIM); the session a
coil returns is told (R147). The OK reply carries the latches and the cap as they stand afterwards. The model's choice: the order of the
reply's content is log 11, the bits of the set are log 9, a filter of time 0 that starts again is log 25. -/
def Obligations.AlarmClearClearsTheNamedCauses : Prop :=
  ∀ (s : State) (m : Nat), Attentive s →
    let bit : OutCause → Nat := fun c => match c with | .railOc => 0 | .railUv => 1 | .coilOc => 2 | .coilUv => 3
    ((m = 0 ∨ 16 ≤ m) → Replies (.alarmClear m) s 0x0C#8 .refused [] s) ∧
    (1 ≤ m → m < 16 → ∃ t, Replies (.alarmClear m) s 0x0C#8 .ok
        (encCauses (fun c => (t.guard.alarms.get c).latch) ++ encOpt (encNamed capList) t.guard.cap) t ∧
      (∀ c, m.testBit (bit c) = true → (t.guard.alarms.get (causeOf c)).latch = false ∧
        (t.guard.alarms.get (causeOf c)).detected = false) ∧
      (∀ c, m.testBit (bit c) = false → (t.guard.alarms.get (causeOf c)).latch = (s.guard.alarms.get (causeOf c)).latch) ∧
      (∀ c, (t.guard.alarms.get c).sticky = (s.guard.alarms.get c).sticky) ∧
      t.guard.alarms.dieOt = s.guard.alarms.dieOt ∧
      t.guard.cap = (if m.testBit 2 then none else s.guard.cap) ∧
      (railLatched s = true → railLatched t = false → s.link.state = .faulted → s.att.present = true → s.guard.baseGrant = 0 →
        250 ≤ s.guard.budget → t.link.state = .powering ∧ t.link.railUp = some 200 ∧ t.guard.baseGrant = 250) ∧
      (let railGoes : Prop := railLatched s = true ∧ railLatched t = false ∧ s.link.state = .faulted ∧ s.att.present = true
       let coilGoes : Prop := coilLatched s = true ∧ coilLatched t = false ∧ s.pen.session = .fault ∧ s.pen.fault = some .coilLatch
       (m.testBit 2 = true → s.guard.cap.isSome = true → ¬ railGoes → ¬ coilGoes →
         PenFollows (regranted { s.guard with cap := none } s.guard.baseGrant) s t ∧ BudgetTold .clear s t) ∧
       ((m.testBit 2 = false ∨ s.guard.cap = none) → ¬ railGoes → ¬ coilGoes →
         PenFollows s.guard.penGrant s t ∧ t.mgmt.notices.budget = s.mgmt.notices.budget) ∧
       ((m.testBit 2 = false ∨ s.guard.cap = none) → railGoes → ¬ coilGoes → 250 ≤ s.guard.budget →
         PenFollows (besideClaim s.guard 250) s t ∧ BudgetTold .baseClaim s t) ∧
       (coilGoes → s.pen.hold.isSome = true → SessionReleases .held none s t) ∧
       (coilGoes → s.pen.hold = none → SessionClaims .detect .trickle s t)) ∧
      (coilLatched s = true → coilLatched t = false → s.pen.session = .fault → s.pen.fault = some .coilLatch →
        s.pen.hold.isSome = true → t.pen.session = .held) ∧
      (railLatched s = false → coilLatched s = true → coilLatched t = false → s.pen.session = .fault →
        s.pen.fault = some .coilLatch → s.pen.hold = none → s.guard.baseGrant + 150 ≤ s.guard.budget →
        t.pen.session = .detect ∧ t.pen.fault = none ∧ t.guard.claimed = some .trickle ∧ t.guard.penGrant = some .trickle) ∧
      (railLatched s = false → coilLatched s = false → s.guard.cap = none → OutputsFollow s →
        let clear (c : OutCause) (a : Alarm) : Alarm :=
          if m.testBit (bit c) = true ∧ a.detected = true then
            { a with latch := false, detected := false, filter := if a.raw then some (filterLength c a) else a.filter }
          else a
        let a := s.guard.alarms
        let after : PerCause Alarm :=
          ⟨clear .railOc a.railOc, clear .railUv a.railUv, clear .coilOc a.coilOc, clear .coilUv a.coilUv, a.dieOt⟩
        t = setInputs { s.policy.inputs with alarm := anyDetected after } { s with guard := { s.guard with alarms := after } }))

/-- GUARD-SET (R144, R139): a filter time or a mode outside its list, or an over-current cause left with filter 0 and no protection, is
REFUSED; a filter of an output that is on, or the mode with the coil on, cannot be changed: LOCKED; else every value carried is written.
Protection enabled on a detected cause is applied at once: a cause of the rail latches, the rail is off and the link FAULTED, ended with
ATTACH(FAULTED) and BASE-FAULT (R62); COIL-UV, and COIL-OC but for a LIMIT from FAST or STEADY, latches, the coil is off and the session in
FAULT; a LIMIT caps the pen one level lower and steps it down, beside a latch of COIL-UV or of the rail as well (R137, R138). A rail's
latch re-grants the pen, with BUDGET(BASE-RELEASE), where no coil cause acts beside it (R127, R129, R133); a coil's alone tells the
session's FAULT, with BUDGET(PEN-RELEASE) (R147, R157). The OK reply carries the settings as written. The model's choice: COIL-OC under
LIMIT with no pen grant latches, which R137 and R138 do not give, is log 26, the encoding of the settings is log 31, the two values of an
enable are log 9, several protections enabled by one request are log 41. -/
def Obligations.GuardSetWritesTheSettings : Prop :=
  ∀ (s : State) (a : GuardArg), Attentive s →
    let al := s.guard.alarms
    let bad (f : Option Nat) : Prop := ∃ n, f = some n ∧ (n < 1 ∨ 4 < n)
    let choice (f : Option Nat) (x : Alarm) : Nat := (f.map (· - 1)).getD x.choice
    let badList := bad a.filterRailOc ∨ bad a.filterRailUv ∨ bad a.filterCoilOc ∨ bad a.filterCoilUv ∨
      ∃ n, a.mode = some n ∧ (n < 1 ∨ 2 < n)
    let mode : OcMode := match a.mode with | some 1 => .stop | some _ => .limit | none => s.guard.mode
    let unguarded := (choice a.filterRailOc al.railOc = 0 ∧ a.enableRailOc.getD al.railOc.enabled = false) ∨
      (choice a.filterCoilOc al.coilOc = 0 ∧ a.enableCoilOc.getD al.coilOc.enabled = false)
    let locked :=
      (s.guard.railOn = true ∧ (choice a.filterRailOc al.railOc ≠ al.railOc.choice ∨
        choice a.filterRailUv al.railUv ≠ al.railUv.choice)) ∨
      (s.guard.coilOn = true ∧ (choice a.filterCoilOc al.coilOc ≠ al.coilOc.choice ∨
        choice a.filterCoilUv al.coilUv ≠ al.coilUv.choice ∨ mode ≠ s.guard.mode))
    let write (f : Option Nat) (e k : Option Bool) (x : Alarm) : Alarm :=
      { x with choice := choice f x, enabled := e.getD x.enabled, mask := k.getD x.mask }
    let written : State :=
      { s with guard := { s.guard with
          mode := mode
          alarms := ⟨write a.filterRailOc a.enableRailOc a.maskRailOc al.railOc, write a.filterRailUv a.enableRailUv a.maskRailUv al.railUv,
            write a.filterCoilOc a.enableCoilOc a.maskCoilOc al.coilOc, write a.filterCoilUv a.enableCoilUv a.maskCoilUv al.coilUv,
            { al.dieOt with mask := a.maskDieOt.getD al.dieOt.mask }⟩ } }
    let enables (e : Option Bool) (x : Alarm) : Prop := x.enabled = false ∧ e = some true ∧ x.detected = true ∧ x.latch = false
    let limits := mode = .limit ∧ (s.guard.penGrant = some .fast ∨ s.guard.penGrant = some .steady)
    (badList → Replies (.guardSet a) s 0x0D#8 .refused [] s) ∧
    (¬ badList → unguarded → Replies (.guardSet a) s 0x0D#8 .refused [] s) ∧
    (¬ badList → ¬ unguarded → locked → Replies (.guardSet a) s 0x0D#8 .locked [] s) ∧
    (¬ badList → ¬ unguarded → ¬ locked → ¬ enables a.enableRailOc al.railOc → ¬ enables a.enableRailUv al.railUv →
      ¬ enables a.enableCoilOc al.coilOc → ¬ enables a.enableCoilUv al.coilUv →
      Replies (.guardSet a) s 0x0D#8 .ok (guardSettings written.guard) written) ∧
    (¬ badList → ¬ unguarded → ¬ locked → (enables a.enableRailOc al.railOc ∨ enables a.enableRailUv al.railUv) →
      ∃ t, Replies (.guardSet a) s 0x0D#8 .ok (guardSettings t.guard) t ∧
        (enables a.enableRailOc al.railOc → t.guard.alarms.railOc.latch = true) ∧
        (enables a.enableRailUv al.railUv → t.guard.alarms.railUv.latch = true) ∧ t.guard.railOn = false ∧
        t.link.state = .faulted ∧ t.guard.baseGrant = 0 ∧ LinkEnded .faulted s t ∧ .baseFault ∈ t.policy.events ∧
        (¬ enables a.enableCoilOc al.coilOc → ¬ enables a.enableCoilUv al.coilUv →
          PenFollows (afterRelease s.guard) s t ∧ BudgetTold .baseRelease s t) ∧
        (s.mgmt.enables.attach = true → ∃ p, t.mgmt.notices.attach = some p ∧ p.notice = .attach .faulted)) ∧
    (¬ badList → ¬ unguarded → ¬ locked →
      (enables a.enableCoilUv al.coilUv ∨ (enables a.enableCoilOc al.coilOc ∧ ¬ limits)) →
      ∃ t, Replies (.guardSet a) s 0x0D#8 .ok (guardSettings t.guard) t ∧
        (enables a.enableCoilUv al.coilUv → t.guard.alarms.coilUv.latch = true) ∧
        (enables a.enableCoilOc al.coilOc → ¬ limits → t.guard.alarms.coilOc.latch = true) ∧ t.guard.coilOn = false ∧
        (enables a.enableCoilOc al.coilOc → limits → t.guard.alarms.coilOc.latch = false ∧ t.guard.alarms.coilOc.detected = false ∧
          (s.guard.penGrant = some .fast → t.guard.cap = some .steady) ∧
          (s.guard.penGrant = some .steady → t.guard.cap = some .trickle)) ∧
        (s.pen.session ∉ [.noPen, .foreign] → t.pen.session = .fault ∧ t.pen.fault = some .coilLatch) ∧
        (s.pen.session ∉ [.noPen, .foreign, .fault] → t.guard.claimed = none ∧ t.guard.penGrant = none) ∧
        (¬ (enables a.enableCoilOc al.coilOc ∧ limits) → ¬ enables a.enableRailOc al.railOc → ¬ enables a.enableRailUv al.railUv →
          s.pen.session ∉ [.noPen, .foreign, .fault] → SessionReleases .fault (some .coilLatch) s t ∧ BudgetTold .penRelease s t)) ∧
    (∀ cap : PenLevel, ((s.guard.penGrant = some .fast ∧ cap = .steady) ∨ (s.guard.penGrant = some .steady ∧ cap = .trickle)) →
      ¬ badList → ¬ unguarded → ¬ locked → enables a.enableCoilOc al.coilOc → mode = .limit →
      ∃ t, Replies (.guardSet a) s 0x0D#8 .ok (guardSettings t.guard) t ∧ t.guard.cap = some cap ∧
        t.guard.alarms.coilOc.latch = false ∧ t.guard.alarms.coilOc.detected = false ∧
        (¬ enables a.enableCoilUv al.coilUv → ¬ enables a.enableRailOc al.railOc → ¬ enables a.enableRailUv al.railUv →
          s.guard.claimed = s.guard.penGrant → s.pen.session ≠ .paused → levelMw cap + s.guard.baseGrant ≤ s.guard.budget →
          t.guard.penGrant = some cap ∧ t.pen.session = s.pen.session))

/-- BUDGET-SET (R122, R124, R130, R131): checked in full, then taken as one change. A value that leaves the budget in force as it was
changes no grant. A lowered one steps the pen down to the highest level that fits, and cuts a base grant that fits no longer, the pen then
re-granted; a raised one serves an UNPOWERED base first, then the pen (R125, R129). The session follows its grant: at 0 it is PAUSED, and a
PAUSED one whose grant is no longer 0 resumes by its docked mark (R131, R156); each change of session is told (R147), and each change of a
figure by BUDGET with cause BUDGET (R133). Every OK reply carries the profiles and the grants as they stand afterwards. A base cut or
refused is UNPOWERED: its requests GONE, its queue flushed, its timers stopped and a diagnosis that ran ended by it, with ATTACH(UNPOWERED)
(R61, R68). The claim BUDGET-PROFILE is BUDGET-SET of that profile (R123). The model's choice: the order of the content is log 11, the
BUDGET notices of a compound change are log 39, the demand that ATTACH(UNPOWERED) carries after a cut is log 23. -/
def Obligations.BudgetSetReplacesTheProfiles : Prop :=
  ∀ (s : State) (a : BudgetArg), Attentive s →
    let badValue (v : Option Nat) : Prop := ∃ n, v = some n ∧ (4500 < n ∨ n % 50 ≠ 0)
    let bad := (∃ n, a.profile = some n ∧ 3 < n) ∨ badValue a.value0 ∨ badValue a.value1 ∨ badValue a.value2 ∨ badValue a.value3
    let p := s.guard.profiles
    let p' : Profiles := ⟨a.value0.getD p.p0, a.value1.getD p.p1, a.value2.getD p.p2, a.value3.getD p.p3⟩
    let active := a.profile.getD s.guard.active
    let new := p'.get active
    let raised : Guard := { s.guard with profiles := p', active := active }
    (bad → Replies (.budgetSet a) s 0x0E#8 .refused (budgetContent s) s) ∧
    (¬ bad → new = s.guard.budget →
      let u := { s with guard := { s.guard with profiles := p', active := active } }
      Replies (.budgetSet a) s 0x0E#8 .ok (budgetContent u) u) ∧
    (¬ bad → new < s.guard.budget → s.guard.baseGrant + grantMw s.guard.penGrant ≤ new → OutputsFollow s →
      let u := { s with guard := { s.guard with profiles := p', active := active } }
      Replies (.budgetSet a) s 0x0E#8 .ok (budgetContent u)
        (setInputs { s.policy.inputs with alarm := anyDetected s.guard.alarms }
          (post (.budget active new u.guard.baseGrant u.guard.penGrant u.guard.claimed u.guard.cap .budget) u))) ∧
    (¬ bad → new < s.guard.budget → s.guard.baseGrant ≤ new → new < s.guard.baseGrant + grantMw s.guard.penGrant →
      s.pen.session ≠ .paused →
      ∃ t, Replies (.budgetSet a) s 0x0E#8 .ok (budgetContent t) t ∧ t.guard.budget = new ∧
        t.guard.baseGrant = s.guard.baseGrant ∧ t.guard.claimed = s.guard.claimed ∧ t.link.state = s.link.state ∧
        rank t.guard.penGrant < rank s.guard.penGrant ∧ t.guard.baseGrant + grantMw t.guard.penGrant ≤ new ∧
        (∀ l, rank (some l) ≤ rank s.guard.penGrant → t.guard.baseGrant + levelMw l ≤ new →
          rank (some l) ≤ rank t.guard.penGrant) ∧
        t.pen.session = (if s.pen.session ∈ [.detect, .softStart, .charging, .topped] ∧ t.guard.penGrant = none then .paused
          else s.pen.session) ∧
        (s.mgmt.enables.budget = true → ∃ n, t.mgmt.notices.budget = some n ∧
          n.notice = .budget active new t.guard.baseGrant t.guard.penGrant t.guard.claimed t.guard.cap .budget)) ∧
    (¬ bad → new < s.guard.budget → s.guard.baseGrant ≤ new →
      ∃ t, Replies (.budgetSet a) s 0x0E#8 .ok (budgetContent t) t ∧
        PenFollows (steppedDown new s.guard.baseGrant s.guard.penGrant) s t ∧ BudgetTold .budget s t) ∧
    (¬ bad → new < s.guard.baseGrant → s.guard.baseGrant ≤ s.guard.budget →
      ∃ t, Replies (.budgetSet a) s 0x0E#8 .ok (budgetContent t) t ∧ t.guard.budget = new ∧ t.guard.baseGrant = 0 ∧
        t.link.state = .unpowered ∧ LinkEnded .unpowered s t ∧ t.att.present = s.att.present ∧ t.policy.events = [] ∧
        (s.mgmt.enables.attach = true →
          ∃ n, t.mgmt.notices.attach = some n ∧ n.notice = .attach (.unpowered s.guard.baseGrant)) ∧
        PenFollows (regranted { raised with penGrant := steppedDown new s.guard.baseGrant s.guard.penGrant } 0) s t ∧
        BudgetTold .budget s t ∧
        (s.pen.session ≠ .paused → grantMw t.guard.penGrant ≤ new ∧ rank t.guard.penGrant ≤ rank s.guard.target ∧
          ∀ l, rank (some l) ≤ rank s.guard.target → levelMw l ≤ new → rank (some l) ≤ rank t.guard.penGrant)) ∧
    (¬ bad → s.guard.budget < new → s.link.state = .unpowered → s.att.present = true → s.guard.baseGrant = 0 →
      ∃ t, Replies (.budgetSet a) s 0x0E#8 .ok (budgetContent t) t ∧ t.guard.budget = new ∧
        (250 ≤ new → t.link.state = .powering ∧ t.link.railUp = some 200 ∧ t.guard.baseGrant = 250 ∧
          PenFollows (regranted { raised with penGrant := besideClaim raised 250 } 250) s t ∧ BudgetTold .budget s t) ∧
        (new < 250 → t.link.state = .unpowered ∧ t.guard.baseGrant = 0 ∧ LinkEnded .unpowered s t ∧ t.att.present = true ∧
          PenFollows (regranted raised 0) s t ∧ BudgetTold .budget s t ∧
          (s.mgmt.enables.attach = true → ∃ n, t.mgmt.notices.attach = some n ∧ n.notice = .attach (.unpowered 250))) ∧
        (s.pen.session = .charging → s.guard.claimed = some .fast → s.guard.cap = none → 1150 ≤ new →
          t.guard.penGrant = some .fast)) ∧
    (¬ bad → s.guard.budget < new → (s.link.state ≠ .unpowered ∨ s.att.present = false) →
      ∃ t, Replies (.budgetSet a) s 0x0E#8 .ok (budgetContent t) t ∧ t.guard.budget = new ∧ t.guard.baseGrant = s.guard.baseGrant ∧
        PenFollows (regranted raised s.guard.baseGrant) s t ∧ BudgetTold .budget s t) ∧
    (¬ bad → s.guard.budget < new → s.link.state ≠ .unpowered → s.pen.session = .charging → s.pen.requested = .fast →
      s.guard.claimed = some .fast → s.guard.cap = none → s.guard.baseGrant + 900 ≤ new →
      ∃ t, Replies (.budgetSet a) s 0x0E#8 .ok (budgetContent t) t ∧ t.guard.budget = new ∧ t.guard.baseGrant = s.guard.baseGrant ∧
        t.guard.penGrant = some .fast) ∧
    (∀ n ev, n ≤ 3 →
      Replies (.budgetSet ⟨some n, none, none, none, none⟩) s 0x0E#8 .ok (budgetContent (issueClaim ev (.budgetProfile n) s))
        (issueClaim ev (.budgetProfile n) s))

/-- CHARGE-SET (R158 to R160): a level is stored, and claimed at once by a session that charges or waits docked for room; a hold sends a
drawing session to HELD and takes a policy's hold over; a release resumes a held session by its docked mark; a restart leaves FAULT for
DETECT, or HELD under a hold, but not a fault of the coil's latch, nor FOREIGN. A claim is granted the highest level at or below itself and
the cap that fits beside the base grant; one that finds no room is kept and the session is PAUSED (R125, R128, R156). Every change of
session posts CHARGE with the new and the previous state, the fault cause, the docked mark, the grant and the battery, and moves the
indicator input CHARGE (R147, R183); the claim or release posts BUDGET (R133). The claim CHARGE-HOLD sets a hold of source POLICY and
leaves a request's; CHARGE-ALLOW does what a release does to a policy's hold and nothing to a request's. The model's choice: the order of
the content is the model's reading, log 11. -/
def Obligations.ChargeRequestsMoveTheSession : Prop :=
  ∀ s : State, Attentive s →
    let best (l : PenLevel) : Option PenLevel :=
      [PenLevel.fast, .steady, .trickle].find? (fun m =>
        decide (levelMw m ≤ levelMw l) && s.guard.cap.all (fun c => decide (levelMw m ≤ levelMw c)) &&
        decide (levelMw m + s.guard.baseGrant ≤ s.guard.budget))
    let paused (l : PenLevel) (t : State) : Prop :=
      t.pen.session = .paused ∧ t.pen.docked = s.pen.docked ∧ t.guard.claimed = some l ∧ t.guard.penGrant = none ∧
        t.guard.coilOn = false ∧ t.sleep.holds.chargeStarting = false
    let withHold (h : Option ClaimSource) : State := { s with pen := { s.pen with hold := h } }
    (∀ l, let u := { s with pen := { s.pen with requested := l } }
      ((s.pen.session ∉ [.softStart, .charging, .paused] ∨ (s.pen.session ∈ [.softStart, .charging] ∧ l = s.pen.requested) ∨
        (s.pen.session = .paused ∧ s.pen.docked = false)) →
        Replies (.chargeSetLevel l) s 0x0F#8 .ok (chargeRecord u) u) ∧
      (s.pen.session ∈ [.softStart, .charging] → l ≠ s.pen.requested →
        ∃ t, Replies (.chargeSetLevel l) s 0x0F#8 .ok (chargeRecord t) t ∧ t.pen.requested = l ∧
          (∀ g, best l = some g → t.guard.claimed = some l ∧ t.guard.penGrant = some g ∧ t.pen.session = s.pen.session ∧
            SessionStays { s with guard := { s.guard with claimed := some l } } t) ∧
          (best l = none → paused l t ∧ SessionTold s.pen.session s t) ∧ BudgetTold .penClaim s t) ∧
      (s.pen.session = .paused → s.pen.docked = true → s.pen.hold = none →
        ∃ t, Replies (.chargeSetLevel l) s 0x0F#8 .ok (chargeRecord t) t ∧ t.pen.requested = l ∧ t.guard.claimed = some l ∧
          (∀ g, best l = some g → t.pen.session = .softStart ∧ t.guard.penGrant = some g ∧ t.sleep.holds.chargeStarting = true ∧
            SessionTold .paused s t) ∧
          (best l = none → t.pen.session = .paused ∧ t.guard.penGrant = none ∧
            SessionStays { s with guard := { s.guard with claimed := some l } } t))) ∧
    (s.pen.hold = none → s.pen.session ∈ [.detect, .softStart, .charging, .topped, .paused] →
      ∃ t, Replies .chargeSetHold s 0x0F#8 .ok (chargeRecord t) t ∧ t.pen.session = .held ∧ t.pen.hold = some .request ∧
        t.guard.penGrant = none ∧ t.guard.claimed = none ∧ t.guard.coilOn = false ∧ t.pen.docked = s.pen.docked ∧
        SessionReleases .held none s t ∧ BudgetTold .penRelease s t) ∧
    ((s.pen.hold.isSome = true ∨ s.pen.session ∉ [.detect, .softStart, .charging, .topped, .paused]) →
      Replies .chargeSetHold s 0x0F#8 .ok (chargeRecord (withHold (some .request))) (withHold (some .request))) ∧
    ((s.pen.hold = none ∨ s.pen.session ≠ .held) →
      Replies .chargeSetRelease s 0x0F#8 .ok (chargeRecord (withHold none)) (withHold none)) ∧
    (s.pen.hold.isSome = true → s.pen.session = .held →
      let claim := if s.pen.docked then s.pen.requested else .trickle
      ∃ t, Replies .chargeSetRelease s 0x0F#8 .ok (chargeRecord t) t ∧ t.pen.hold = none ∧
        (∀ g, best claim = some g → t.guard.claimed = some claim ∧ t.guard.penGrant = some g ∧
          t.pen.session = if s.pen.docked then .softStart else .detect) ∧
        (best claim = none → paused claim t) ∧ SessionResumes (withHold none) t ∧ BudgetTold .penClaim s t) ∧
    (s.pen.session = .fault → s.pen.fault ≠ some .coilLatch →
      ∃ t, Replies .chargeSetRestart s 0x0F#8 .ok (chargeRecord t) t ∧ t.pen.fault = none ∧
        (s.pen.hold = none → ∀ g, best .trickle = some g → t.pen.session = .detect ∧ t.guard.penGrant = some g ∧
          t.guard.claimed = some .trickle) ∧
        (s.pen.hold = none → best .trickle = none → paused .trickle t) ∧
        (s.pen.hold = none → SessionClaims .detect .trickle s t ∧ BudgetTold .penClaim s t) ∧
        (s.pen.hold.isSome = true → t.pen.session = .held ∧ t.pen.hold = s.pen.hold ∧ t.guard.penGrant = none ∧
          t.guard.claimed = none ∧ t.guard.coilOn = false ∧ SessionReleases .held none s t ∧ BudgetTold .penRelease s t)) ∧
    (((s.pen.session = .fault ∧ s.pen.fault = some .coilLatch) ∨ s.pen.session = .foreign) →
      Replies .chargeSetRestart s 0x0F#8 .locked (chargeRecord s) s) ∧
    (s.pen.session ∉ [.fault, .foreign] → Replies .chargeSetRestart s 0x0F#8 .refused [] s) ∧
    (∀ ev,
      (s.pen.hold = none → s.pen.session ∈ [.detect, .softStart, .charging, .topped, .paused] →
        let t := issueClaim ev .chargeHold s
        t.pen.session = .held ∧ t.pen.hold = some .policy ∧ t.guard.penGrant = none ∧ t.guard.claimed = none ∧
          t.guard.coilOn = false ∧ t.pen.docked = s.pen.docked ∧ SessionReleases .held none s t ∧ BudgetTold .penRelease s t) ∧
      ((s.pen.hold.isSome = true ∨ s.pen.session ∉ [.detect, .softStart, .charging, .topped, .paused]) →
        issueClaim ev .chargeHold s = withHold (if s.pen.hold = some .request then some .request else some .policy)) ∧
      (s.pen.hold ≠ some .policy → issueClaim ev .chargeAllow s = s) ∧
      (s.pen.hold = some .policy →
        Replies .chargeSetRelease s 0x0F#8 .ok (chargeRecord (issueClaim ev .chargeAllow s)) (issueClaim ev .chargeAllow s)))

/-- ORIENT-SET (R117, R118, R120): a lock is set with source REQUEST; a release lets a candidate whose dwell is met become the current
orientation at once. INDICATE-SET (R183 to R185): a line outside 1 and 2, a source or a pattern outside its list is REFUSED; the setting
in force again changes nothing; another setting starts the line afresh, on at once if its input is on. The claims ORIENT-LOCK, with source
POLICY, ORIENT-FREE and INDICATE do the same without a reply (R167). The model's choice: the dwell reached while locked is log 28. -/
def Obligations.LockAndLinesAreSet : Prop :=
  ∀ s : State, Attentive s →
    let lock (l : Option ClaimSource) (s : State) : State :=
      setInputs { s.policy.inputs with lock := l.isSome } { s with orient := { s.orient with lock := l } }
    Replies .orientSetLock s 0x10#8 .ok (orientationRecord (lock (some .request) s)) (lock (some .request) s) ∧
    (s.orient.lock = none → Replies .orientSetFree s 0x10#8 .ok (orientationRecord s) s) ∧
    (s.orient.lock.isSome = true → (s.orient.stable < 10 * s.orient.dwell ∨ s.orient.candidate = s.orient.current) →
      Replies .orientSetFree s 0x10#8 .ok (orientationRecord (lock none s)) (lock none s)) ∧
    (s.orient.lock.isSome = true → 10 * s.orient.dwell ≤ s.orient.stable → s.orient.candidate ≠ s.orient.current →
      let u := lock none s
      let t := post (.orientation s.orient.candidate s.orient.current s.orient.candidate s.orient.flat false)
        { u with orient := { u.orient with current := s.orient.candidate, previous := some s.orient.current } }
      Replies .orientSetFree s 0x10#8 .ok (orientationRecord t) t) ∧
    (∀ ev, issueClaim ev .orientLock s = lock (some .policy) s ∧
      Replies .orientSetFree s 0x10#8 .ok (orientationRecord (issueClaim ev .orientFree s)) (issueClaim ev .orientFree s)) ∧
    (∀ line source pattern : Nat,
      ((line ∉ [1, 2] ∨ source < 1 ∨ 6 < source ∨ pattern < 1 ∨ 3 < pattern) →
        Replies (.indicateSet line source pattern) s 0x11#8 .refused [] s) ∧
      (∀ src p, pick ledSourceList source = some src → pick ledPatternList pattern = some p →
        let on := s.policy.inputs.level src
        let after (l : Line) : Line :=
          if l.source = src ∧ l.pattern = p then l
          else ⟨src, p, on, if on = true ∧ p = .blink then some 2500 else none, if on = true ∧ p = .stretch then some 2000 else none⟩
        let u1 := { s with policy := { s.policy with line1 := after s.policy.line1 } }
        let u2 := { s with policy := { s.policy with line2 := after s.policy.line2 } }
        (line = 1 → Replies (.indicateSet line source pattern) s 0x11#8 .ok (bothLines u1) u1) ∧
        (line = 2 → Replies (.indicateSet line source pattern) s 0x11#8 .ok (bothLines u2) u2) ∧
        (∀ ev, issueClaim ev (.indicate .line1 src p) s = u1 ∧ issueClaim ev (.indicate .line2 src p) s = u2)))

/-- SLEEP-CONFIRM, SLEEP-DECLINE and HOST-SLEEP (R175 to R177, R9): entry to ASLEEP stops the grace and the question, releases the wake
line and cuts off a notice or a data parcel; a notice cut off is pending again, a frame stays at the head of its queue. The model's
choice: the encoding of the content is log 9. -/
def Obligations.SleepRequestsMoveTheHost : Prop :=
  ∀ s : State, Attentive s →
    let asleep (s : State) : State :=
      { s with sleep := { s.sleep with
          power := .asleep, grace := none, expired := false, confirm := none, asleepAt := some s.now, wakeLine := .released
          pulse := none, pulses := 0 } }
    let sleeps (c : Instr) (code : Byte) (content : List Byte) : Prop :=
      (s.tx = .idle ∨ s.tx = .reply → Replies c s code .ok content (asleep s)) ∧
      (s.tx = .data → Replies c s code .ok content (asleep { s with tx := .idle })) ∧
      (∀ p, s.tx = .notice p → s.mgmt.enables.get p.notice.kind = false → Replies c s code .ok content (asleep { s with tx := .idle })) ∧
      (∀ p, s.tx = .notice p → s.mgmt.enables.get p.notice.kind = true → s.mgmt.notices.get p.notice.kind = none →
        Replies c s code .ok content
          (asleep { s with tx := .idle, mgmt := { s.mgmt with notices := s.mgmt.notices.set p.notice.kind (some p) } })) ∧
      (∀ p q, s.tx = .notice p → s.mgmt.enables.get p.notice.kind = true → s.mgmt.notices.get p.notice.kind = some q →
        Replies c s code .ok content
          (asleep { s with
            tx := .idle
            mgmt := { s.mgmt with
              notices := s.mgmt.notices.set p.notice.kind (some ⟨q.notice, satAdd q.count p.count⟩) } }))
    (s.sleep.power = .sleepAsked → sleeps .sleepConfirm 0x12#8 [4#8]) ∧
    (s.sleep.power = .sleepAsked →
      Replies .sleepDecline s 0x13#8 .ok [1#8] { s with sleep := { s.sleep with power := .awake, confirm := none } }) ∧
    (s.sleep.power ≠ .sleepAsked →
      Replies .sleepConfirm s 0x12#8 .notAsked (encNamed powerList s.sleep.power) s ∧
      Replies .sleepDecline s 0x13#8 .notAsked (encNamed powerList s.sleep.power) s) ∧
    (s.sleep.power ∈ [.awake, .grace, .sleepAsked] → sleeps .hostSleep 0x14#8 []) ∧
    (s.sleep.power = .asleep → Replies .hostSleep s 0x14#8 .ok [] s) ∧
    (s.sleep.power = .waking → Replies .hostSleep s 0x14#8 .busy [] s)

/-- STORE-SAVE, STORE-ERASE and RESTART (R207 to R209): with the store IDLE a save invalidates page 0 by its mark bytes and an erase
writes it 0xFF throughout, the hold-off STORE-BUSY present; otherwise they are BUSY. The bytes of page 0 and page 1 of a save, 58 of them,
are built when it is taken, from the tables and settings then in force. A RESTART is answered at once with the store IDLE, and held
without an answer while the store works. The model's choice: the other bytes of the invalidated page are free, log 13. -/
def Obligations.StoreRequestsBeginTheirWrites : Prop :=
  ∀ s : State, Attentive s →
    let held := { s.sleep with holds := { s.sleep.holds with storeBusy := true } }
    (s.store.state = .idle →
      (∃ page, page.length = 32 ∧ page.take 2 = [0xFF#8, 0xFF#8] ∧
        Replies .storeSave s 0x15#8 .accepted []
          { s with
            fresh := s.fresh + 1
            sleep := held
            store := { s.store with
              state := .saving, pages := 0, exchange := some (.writePage 0 page), timer := some 250
              save := some (buildTo 58 s buildFuel ⟨[], [], 1, false⟩) } }) ∧
      Replies .storeErase s 0x16#8 .accepted []
        { s with
          sleep := held
          store := { s.store with
            state := .erasing, exchange := some (.writePage 0 (List.replicate 32 0xFF#8)), timer := some 250 } } ∧
      exec .restart s =
        .next (finish { s with mgmt := { s.mgmt with restart := .armed, holder := some ⟨0x17#8, .ok, []⟩ } })) ∧
    (s.store.state ≠ .idle →
      Replies .storeSave s 0x15#8 .busy (encNamed storeStateList s.store.state) s ∧ Replies .storeErase s 0x16#8 .busy [] s ∧
      exec .restart s = .next (finish { s with mgmt := { s.mgmt with restart := .waiting } }))

/-! ## Events of the store and of the hinge link -/

/-- Start-up's two reads (R203 to R206, R4, R69, R163): a good header asks for the rest of the image; a bad one, a wrong CRC and no answer
end start-up INVALID and ABSENT with the factory values in force; a good image is walked and recorded, LOADED, or PARTIAL with the types
skipped. Each of the eight types, its content in one section or joined from several, replaces its table or settings as a whole where it
meets its rules and is skipped where not; a type unknown is stepped over, and the walk stops at a malformed section, whose type is
skipped. At the end of start-up START is pending, sampling begins and both switches' levels are taken. The model's choice: the rest of the
image read in one exchange with one limit is log 15, the store's contents and answers are log 12, the encodings of the types are log 31,
what is malformed is log 46. -/
def Obligations.StartUpReadsTheImage : Prop :=
  ∀ s : State, Running s → s.store.state = .starting → s.mgmt.enables.start = true →
    let ended (r : StartResult) (t : State) : Prop :=
      t.store.state = .idle ∧ t.store.result = some r ∧ t.store.exchange = none ∧ t.store.timer = none ∧
      (∃ p, t.mgmt.notices.start = some p ∧ p.notice = .start r) ∧ t.poller.period = some (10 * periodMs t.poller.rate) ∧
      (s.pins.presence = true → t.link.state = .settling ∧ t.link.debounce = some 500) ∧
      (s.pins.presence = false → t.link = s.link) ∧
      (s.pins.dock = true → t.pen.debounce = some 1000) ∧ (s.pins.dock = false → t.pen.debounce = s.pen.debounce)
    let tables (u t : State) : Prop :=
      t.route.table = u.route.table ∧ t.posture.windows = u.posture.windows ∧ t.policy.table = u.policy.table ∧
      t.guard.profiles = u.guard.profiles ∧ t.guard.mode = u.guard.mode ∧
      (∀ c, (t.guard.alarms.get c).choice = (u.guard.alarms.get c).choice ∧
        (t.guard.alarms.get c).enabled = (u.guard.alarms.get c).enabled ∧ (t.guard.alarms.get c).mask = (u.guard.alarms.get c).mask) ∧
      t.sleep.graceTime = u.sleep.graceTime ∧ t.posture.settleTime = u.posture.settleTime ∧ t.orient.dwell = u.orient.dwell ∧
      t.poller.rate = u.poller.rate ∧ t.issuer.discardTime = u.issuer.discardTime ∧ t.pool.share = u.pool.share ∧
      t.generic = u.generic
    let image (body : List Byte) (r : StartResult) (u : State) : Prop :=
      ∀ crc, s.store.exchange = some (.readBody (body.length + 6) crc) → crc16 body = crc →
        ∃ t, exec (.storeReadAnswered body) s = .next (finish t) ∧ t.store.imageLength = some (body.length + 6) ∧ ended r t ∧ tables u t
    let inSections (type : Byte) (content body : List Byte) : Prop :=
      ∃ pieces : List (List Byte), pieces.flatten = content ∧ (∀ p ∈ pieces, p.length ≤ 255) ∧
        body = pieces.flatMap (fun p => type :: BitVec.ofNat 8 p.length :: p) ++ [0#8]
    let setting (a b : Alarm) : Alarm := { b with choice := a.choice, enabled := a.enabled, mask := a.mask }
    (∀ l1 l0 c1 c0, s.store.exchange = some .readHeader → 6 < l1.toNat * 256 + l0.toNat → l1.toNat * 256 + l0.toNat ≤ 2048 →
      exec (.storeReadAnswered [0x6B#8, 0x2D#8, l1, l0, c1, c0]) s =
        .next (finish { s with store := { s.store with
          exchange := some (.readBody (l1.toNat * 256 + l0.toNat) (c1 ++ c0)), timer := some 250
          eeprom := Memory.writeBytes s.store.eeprom 0 [0x6B#8, 0x2D#8, l1, l0, c1, c0] } })) ∧
    (∀ m1 m0 l1 l0 c1 c0, s.store.exchange = some .readHeader →
      (m1 ≠ 0x6B#8 ∨ m0 ≠ 0x2D#8 ∨ l1.toNat * 256 + l0.toNat < 6 ∨ 2048 < l1.toNat * 256 + l0.toNat) →
      ∃ t, exec (.storeReadAnswered [m1, m0, l1, l0, c1, c0]) s = .next (finish t) ∧ ended .storeInvalid t ∧ tables s t) ∧
    (∀ c1 c0 : Byte, s.store.exchange = some .readHeader →
      ∃ t, exec (.storeReadAnswered [0x6B#8, 0x2D#8, 0#8, 6#8, c1, c0]) s = .next (finish t) ∧ tables s t ∧
        (c1 = 0xFF#8 ∧ c0 = 0xFF#8 → ended .storeLoaded t ∧ t.store.imageLength = some 6) ∧
        (¬ (c1 = 0xFF#8 ∧ c0 = 0xFF#8) → ended .storeInvalid t)) ∧
    (∀ length crc body, s.store.exchange = some (.readBody length crc) → body.length = length - 6 → crc16 body ≠ crc →
      ∃ t, exec (.storeReadAnswered body) s = .next (finish t) ∧ ended .storeInvalid t ∧ tables s t) ∧
    (s.store.exchange.isSome = true →
      ∃ t, exec .storeExchangeUnanswered s = .next (finish t) ∧ ended .storeAbsent t ∧ tables s t) ∧
    (∀ (l : List RouteFields) body, l ≠ [] → (∀ f ∈ l, ∃ e, checkRoute e = some f) → inSections 1#8 (l.flatMap encRoute) body →
      (l.length = 48 → image body .storeLoaded { s with route := { s.route with table := l.map (fun f => ⟨f, 0, 0, 0⟩) } }) ∧
      (l.length ≠ 48 → image body (.storePartial [1#8]) s)) ∧
    (∀ (l : List Window) body, l ≠ [] → (∀ w ∈ l, ∃ e, checkWindow e = some w) → inSections 2#8 (l.flatMap encWindow) body →
      (l.length = 8 → image body .storeLoaded { s with posture := { s.posture with windows := l } }) ∧
      (l.length ≠ 8 → image body (.storePartial [2#8]) s)) ∧
    (∀ (l : List PolicyEntry) body, l ≠ [] → (∀ f ∈ l, ∃ e, checkPolicy e = some f) → inSections 3#8 (l.flatMap encPolicy) body →
      (l.length = 24 → image body .storeLoaded { s with policy := { s.policy with table := l } }) ∧
      (l.length ≠ 24 → image body (.storePartial [3#8]) s)) ∧
    (∀ (g : Guard) body, inSections 4#8 (encGuardSettings g) body → g.alarms.railOc.choice < 4 → g.alarms.railUv.choice < 4 →
      g.alarms.coilOc.choice < 4 → g.alarms.coilUv.choice < 4 →
      let bare (a : Alarm) : Prop := a.choice = 0 ∧ a.enabled = false
      let al := s.guard.alarms
      (¬ bare g.alarms.railOc → ¬ bare g.alarms.coilOc →
        image body .storeLoaded { s with guard := { s.guard with
          mode := g.mode
          alarms := ⟨setting g.alarms.railOc al.railOc, setting g.alarms.railUv al.railUv, setting g.alarms.coilOc al.coilOc,
            setting g.alarms.coilUv al.coilUv, { al.dieOt with mask := g.alarms.dieOt.mask }⟩ } }) ∧
      ((bare g.alarms.railOc ∨ bare g.alarms.coilOc) → image body (.storePartial [4#8]) s)) ∧
    (∀ (a b c d : Byte) body, inSections 5#8 [a, b, c, d] body →
      (a.toNat ≤ 90 ∧ b.toNat ≤ 90 ∧ c.toNat ≤ 90 ∧ d.toNat ≤ 90 →
        image body .storeLoaded { s with guard := { s.guard with
          profiles := ⟨50 * a.toNat, 50 * b.toNat, 50 * c.toNat, 50 * d.toNat⟩ } }) ∧
      ((90 < a.toNat ∨ 90 < b.toNat ∨ 90 < c.toNat ∨ 90 < d.toNat) → image body (.storePartial [5#8]) s)) ∧
    (∀ (grace settle dwell discard : Nat) (rate : SampleRate) body, grace < 65536 → settle < 65536 → dwell < 65536 → discard < 65536 →
      inSections 6#8 (enc16 grace ++ enc16 settle ++ enc16 dwell ++ encNamed rateList rate ++ enc16 discard) body →
      let ok := grace ≤ 60000 ∧ settle ∈ [25, 50, 75, 100, 150, 250, 400, 600] ∧ 100 ≤ dwell ∧ dwell ≤ 2000 ∧ 500 ≤ discard ∧ discard ≤ 8000
      (ok → image body .storeLoaded { s with
        sleep := { s.sleep with graceTime := grace }, posture := { s.posture with settleTime := settle }
        orient := { s.orient with dwell := dwell }, poller := { s.poller with rate := rate }
        issuer := { s.issuer with discardTime := discard } }) ∧
      (¬ ok → image body (.storePartial [6#8]) s)) ∧
    (∀ (d : Byte) body, inSections 7#8 [d] body →
      (8 ≤ d.toNat → d.toNat ≤ 64 → image body .storeLoaded { s with pool := { s.pool with share := d.toNat } }) ∧
      ((d.toNat < 8 ∨ 64 < d.toNat) → image body (.storePartial [7#8]) s)) ∧
    (∀ (g : GenericProfile) (d : Nat) body, inSections 8#8 (encGeneric g) body → d < 256 → g.demand = 50 * d →
      (∀ k ∈ g.declared, 0x10 ≤ k.toNat ∧ k.toNat ≤ 0x13) → g.declared ≠ [] → g.declared.Nodup → g.wakeKinds.Nodup →
      (∀ k ∈ g.wakeKinds, k ∈ g.declared) → (∀ m, g.mount = some m → m.order ≤ 5 ∧ m.signs ≤ 7) →
      (5 ≤ d → d ≤ 40 → image body .storeLoaded { s with generic := g }) ∧
      ((d < 5 ∨ 40 < d) → image body (.storePartial [8#8]) s)) ∧
    (∀ (d type : Byte) (rest : List Byte), 8 ≤ d.toNat → d.toNat ≤ 64 → type ≠ 0#8 →
      let split := { s with pool := { s.pool with share := d.toNat } }
      (9 ≤ type.toNat → rest.length ≤ 255 → image (type :: BitVec.ofNat 8 rest.length :: rest ++ [7#8, 1#8, d, 0#8]) .storeLoaded split) ∧
      let kept := if type = 7#8 then s else split
      image [7#8, 1#8, d, type] (.storePartial [type]) kept ∧
      (∀ n : Byte, rest.length < n.toNat → image ([7#8, 1#8, d, type, n] ++ rest) (.storePartial [type]) kept))

/-- The page writes of a save and an erase (R207, R208): each page taken is counted and stands in the store; an erase ends with its one
page, a save builds the next page from the tables and settings then in force, writes page after page and page 0 last, with mark, length
and CRC; no answer ends either in TIMEOUT. The end posts STORE and removes the hold-off STORE-BUSY. What is built runs through the types 1
to 8 and the end byte in order, each begun when its first byte is needed and taken whole at that moment, its content in sections of at
most 255 bytes. The model's choice: the store's contents are log 12, the contents of the sections are logs 31 and 9, a save whose first
write goes unanswered is log 49. -/
def Obligations.PageWritesCarryTheImage : Prop :=
  (∀ (s : State) (k : Nat) (bytes : List Byte), Running s → s.store.exchange = some (.writePage k bytes) →
    let stands := Memory.writeBytes s.store.eeprom (32 * k) bytes
    let finished (op : StoreOp) (e : StoreEnd) (m : List Host.Cell) : State :=
      let u := { s with
        sleep := { s.sleep with holds := { s.sleep.holds with storeBusy := false } }
        store := { s.store with
          state := .idle, lastOp := some (op, e), pages := 0, exchange := none, timer := none, save := none, eeprom := m } }
      post (.store op e) u
    (s.mgmt.restart = .none → s.sleep.expired = false →
      (s.store.state = .erasing → exec .pageWriteTaken s = .next (finish (finished .erase .done stands))) ∧
      (∀ sv, s.store.state = .saving → s.store.save = some sv → sv.final = true →
        exec .pageWriteTaken s = .next (finish (finished .save .done stands))) ∧
      (s.store.state = .saving → exec .storeExchangeUnanswered s = .next (finish (finished .save .timeout s.store.eeprom))) ∧
      (s.store.state = .erasing → exec .storeExchangeUnanswered s = .next (finish (finished .erase .timeout s.store.eeprom)))) ∧
    (∀ sv, s.store.state = .saving → s.store.save = some sv → sv.final = false →
      let sv' := buildTo (26 + 32 * (k + 1)) s buildFuel sv
      sv.built <+: sv'.built ∧
        exec .pageWriteTaken s =
          .next (finish { s with store := { s.store with
            pages := s.store.pages + 1, timer := some 250, eeprom := stands
            save := some (if 26 + 32 * k < sv'.built.length then sv' else { sv' with final := true })
            exchange := some
              (if 26 + 32 * k < sv'.built.length then
                let part := (sv'.built.drop (26 + 32 * k)).take 32
                .writePage (k + 1) (part ++ List.replicate (32 - part.length) 0xFF#8)
              else
                .writePage 0 ([0x6B#8, 0x2D#8] ++ enc16 (sv'.built.length + 6) ++ encWord (crc16 sv'.built)
                  ++ sv'.built.take 26)) } })) ∧
    (s.mgmt.restart = .waiting → s.store.state = .erasing →
      ∃ t, exec .pageWriteTaken s = .next (finish t) ∧ t.mgmt.restart = .armed ∧ t.mgmt.holder = some ⟨0x17#8, .ok, []⟩ ∧
        t.store.state = .idle)) ∧
  (∀ (s : State) (n : Nat) (sv : Save), 1 ≤ sv.nextType → sv.nextType ≤ 10 → sv.built.length ≤ n →
    let sv' := buildTo n s buildFuel sv
    let types (k : Nat) : List Byte := (List.range k).flatMap (fun i => beginType (sv.nextType + i) s)
    ∃ k, sv'.nextType = sv.nextType + k ∧ sv'.nextType ≤ 10 ∧ sv'.final = sv.final ∧
      sv'.built ++ sv'.backlog = sv.built ++ sv.backlog ++ types k ∧ sv'.built.length ≤ n ∧
      (sv'.built.length < n → sv'.nextType = 10 ∧ sv'.backlog = []) ∧
      (∀ j, j < k → (sv.built ++ sv.backlog ++ types j).length < n)) ∧
  (∀ s : State,
    beginType 9 s = [0#8] ∧
    (∀ t, 1 ≤ t → t ≤ 8 → ∃ pieces : List (List Byte), pieces.flatten = typeContent t s ∧
      (∀ p ∈ pieces, p ≠ [] ∧ p.length ≤ 255) ∧
      beginType t s = pieces.flatMap (fun p => BitVec.ofNat 8 t :: BitVec.ofNat 8 p.length :: p)) ∧
    (let p := s.guard.profiles
     let g := s.generic
     typeContent 1 s = s.route.table.flatMap (fun e => encRoute e.fields) ∧
     typeContent 2 s = s.posture.windows.flatMap encWindow ∧
     typeContent 3 s = s.policy.table.flatMap encPolicy ∧
     typeContent 4 s = encGuardSettings s.guard ∧
     typeContent 5 s = [BitVec.ofNat 8 (p.p0 / 50), BitVec.ofNat 8 (p.p1 / 50), BitVec.ofNat 8 (p.p2 / 50), BitVec.ofNat 8 (p.p3 / 50)] ∧
     typeContent 6 s = enc16 s.sleep.graceTime ++ enc16 s.posture.settleTime ++ enc16 s.orient.dwell
       ++ encNamed rateList s.poller.rate ++ enc16 s.issuer.discardTime ∧
     typeContent 7 s = [BitVec.ofNat 8 s.pool.share] ∧
     typeContent 8 s = encWord g.model ++ [BitVec.ofNat 8 (g.demand / 50), if g.selfPowered then 1#8 else 0#8]
       ++ BitVec.ofNat 8 g.declared.length :: g.declared ++ BitVec.ofNat 8 g.wakeKinds.length :: g.wakeKinds
       ++ (match g.mount with | none => [0#8] | some m => [1#8, BitVec.ofNat 8 m.order, BitVec.ofNat 8 m.signs])))

/-- Presence (R43 to R45, R62, R63): the pin's assertion is debounced for 50 ms; at the debounce's expiry the base is present, counted, a
session is open, and the link claims its allowance, unless the rail's latch stands: the pen is stepped down beside the claim, at 0 its
session PAUSED, or re-granted, with BUDGET(BASE-CLAIM) (R126, R129, R133, R156), and without a claim stays as it was; the pin's release
ends SETTLING quietly and detaches the base in every later state, its requests GONE, its queue flushed, its timers stopped, a diagnosis
that ran ended by it (R68), and the base's grant goes back to the pen, with BUDGET(BASE-RELEASE) (R127, R129). The posture unit (R88,
R106): at presence the code is read, one without a position being an INVALID-CODE fault, motion is SETTLED, the count is 0 with the lid
closed and LID-CLOSED is posted, else 180 folded flat, else absent, and the posture is evaluated: CLOSED, the lowest window that takes 180,
or UNKNOWN; at a detach the count, the settling and the runs go, LID-OPENED is posted if the lid was closed, and the posture is SLATE. The
switches and the code are pins: they keep their values. The model's choice: the order of the events of one change is log 4, that of its
hold-offs log 45, the code's bits log 56. -/
def Obligations.PresenceOpensAndEndsASession : Prop :=
  ∀ s : State, Running s → s.store.state ≠ .starting → s.sleep.expired = false →
    (s.pins.presence = false → s.link.state = .absent →
      exec .presenceAssert s =
        .next (finish
          (let u := linkChanged .settling { s with pins := { s.pins with presence := true } }
           { u with link := { u.link with debounce := some 500 } }))) ∧
    (s.pins.presence = true → s.link.state = .settling →
      exec .detach s =
        .next (finish (linkChanged .absent
          { s with pins := { s.pins with presence := false }, link := { s.link with debounce := none } }))) ∧
    (s.link.debounce.isSome = true → s.guard.baseGrant = 0 →
      ∃ t, exec .debounceExpiry s = .next (finish t) ∧ t.att.present = true ∧ t.att.attachCount = s.att.attachCount + 1#16 ∧
        t.att.ident = s.att.ident ∧ t.link.session = .opened ∧ t.link.debounce = none ∧
        (railLatched s = true → t.link.state = .faulted ∧ PenFollows s.guard.penGrant s t ∧
          (s.mgmt.enables.attach = true → ∃ p, t.mgmt.notices.attach = some p ∧ p.notice = .attach .faulted)) ∧
        (railLatched s = false → 250 ≤ s.guard.budget → t.link.state = .powering ∧ t.link.railUp = some 200 ∧
          t.guard.baseGrant = 250 ∧ PenFollows (besideClaim s.guard 250) s t ∧ BudgetTold .baseClaim s t) ∧
        (railLatched s = false → s.guard.budget < 250 → t.link.state = .unpowered ∧ t.guard.baseGrant = 0 ∧
          PenFollows s.guard.penGrant s t ∧
          (s.mgmt.enables.attach = true → ∃ p, t.mgmt.notices.attach = some p ∧ p.notice = .attach (.unpowered 250))) ∧
        t.posture.lastCode = codePosition s.pins.code ∧ t.posture.resync = (codePosition s.pins.code).isNone ∧
        t.posture.faults = (if codePosition s.pins.code = none then satInc s.posture.faults else s.posture.faults) ∧
        t.posture.slips = s.posture.slips ∧ t.posture.moving = false ∧ t.posture.settle = none ∧ t.posture.lidOpened = false ∧
        t.sleep.holds.hingeMoving = false ∧ t.pins = s.pins ∧
        t.policy.events = (if s.pins.lidClosed then [.lidClosed] else []) ++
          (if s.posture.posture = t.posture.posture then [] else [.postureChanged s.posture.posture t.posture.posture]) ++
          (if railLatched s then [.baseFault] else []) ∧
        (s.pins.lidClosed = true → t.posture.count = some 0 ∧ t.posture.refSource = some .lidSwitch ∧ t.posture.posture = .closed ∧
          t.posture.window = none) ∧
        (s.pins.lidClosed = false → s.pins.foldFlat = false → t.posture.count = none ∧ t.posture.posture = .unknown ∧
          t.posture.window = none) ∧
        (s.pins.lidClosed = false → s.pins.foldFlat = true →
          let takes (w : Window) : Bool := windowTakes w 0 180 s.orient.candidate
          t.posture.count = some 180 ∧ t.posture.refSource = some .flatSwitch ∧
          (∀ i w, s.posture.windows.findIdx? takes = some i → s.posture.windows[i]? = some w →
            t.posture.posture = w.posture ∧ t.posture.window = some i) ∧
          (s.posture.windows.findIdx? takes = none → t.posture.window = none ∧
            t.posture.posture =
              if s.posture.posture ∈ [.laptop, .stand, .tent, .tablet] then s.posture.posture else .unknown)) ∧
        (codePosition s.pins.code = none → s.mgmt.enables.encoder = true →
          ∃ p, t.mgmt.notices.encoder = some p ∧ p.notice = .encoderFault .invalidCode s.pins.code s.posture.count) ∧
        (t.posture.posture ≠ s.posture.posture → s.mgmt.enables.posture = true →
          ∃ p, t.mgmt.notices.posture = some p ∧
            p.notice = .posture t.posture.posture s.posture.posture t.posture.count false)) ∧
    (s.pins.presence = true → s.link.state ∉ [.absent, .settling] → s.mgmt.enables.attach = true →
      ∃ t, exec .detach s = .next (finish t) ∧ t.pins = { s.pins with presence := false } ∧ t.att.present = false ∧
        t.link.state = .absent ∧ t.link.session = .none ∧ LinkEnded .detach s t ∧
        t.guard.baseGrant = 0 ∧ t.guard.railOn = false ∧ PenFollows (afterRelease s.guard) s t ∧ BudgetTold .baseRelease s t ∧
        t.posture.posture = .slate ∧ t.posture.window = none ∧ t.posture.count = none ∧ t.posture.moving = false ∧
        t.posture.settle = none ∧ t.posture.lidOpened = false ∧ t.posture.lidRun = none ∧ t.posture.baseRun = none ∧
        t.posture.faults = s.posture.faults ∧ t.posture.slips = s.posture.slips ∧ t.sleep.holds.hingeMoving = false ∧
        t.policy.events = (if s.pins.lidClosed then [.lidOpened] else []) ++
          (if s.posture.posture = .slate then [] else [.postureChanged s.posture.posture .slate]) ++ [.baseDetached] ∧
        (∃ p, t.mgmt.notices.attach = some p ∧ p.notice = .attach .detached) ∧
        (s.posture.posture ≠ .slate → s.mgmt.enables.posture = true →
          ∃ p, t.mgmt.notices.posture = some p ∧ p.notice = .posture .slate s.posture.posture none false))

/-- Training (R45 to R47, R65): it begins at FAST after the rail-up time, the reset drive and the retry time; three failures at a rate go
on to the next, three at SLOW end UNREACHABLE; an echo that is unchanged starts identification with chunk 0. -/
def Obligations.TrainingTriesEachRate : Prop :=
  ∀ s : State, Running s → s.sleep.expired = false →
    let attempt (r : Rate) (n : Nat) (s : State) : State :=
      { s with link := { s.link with rate := some r, attempt := n, echo := some 100 } }
    (s.link.railUp.isSome = true → s.link.resetAfterRail = false →
      exec .railUpExpiry s =
        .next (finish (attempt .fast 1 (linkChanged .training
          { s with link := { s.link with railUp := none, resetAfterRail := false } })))) ∧
    (s.link.railUp.isSome = true → s.link.resetAfterRail = true →
      exec .railUpExpiry s =
        .next (finish
          (let u := linkChanged .training { s with link := { s.link with railUp := none, resetAfterRail := false } }
           { u with link := { u.link with rate := none, resetDrive := some 500 } }))) ∧
    (s.link.resetDrive.isSome = true →
      exec .resetDriveExpiry s = .next (finish (attempt .fast 1 { s with link := { s.link with resetDrive := none } }))) ∧
    (s.link.retry.isSome = true →
      exec .retryTimerExpiry s =
        .next (finish (attempt .fast 1 (linkChanged .training { s with link := { s.link with retry := none } })))) ∧
    (s.link.echo.isSome = true →
      (∀ r, s.link.rate = some r → s.link.attempt < 3 →
        exec .echoWindowExpiry s = .next (finish (attempt r (s.link.attempt + 1) s)) ∧
        exec (.trainingEcho false) s = .next (finish (attempt r (s.link.attempt + 1) s))) ∧
      (∀ r r', s.link.rate = some r → 3 ≤ s.link.attempt → (r = .fast ∧ r' = .middle ∨ r = .middle ∧ r' = .slow) →
        exec .echoWindowExpiry s = .next (finish (attempt r' 1 s)) ∧
        exec (.trainingEcho false) s = .next (finish (attempt r' 1 s))) ∧
      (s.link.rate = some .slow → 3 ≤ s.link.attempt →
        let u := linkChanged .unreachable s
        let v := post (.link .unreachable) { u with link := { u.link with echo := none, retry := some 10000 } }
        exec .echoWindowExpiry s = .next (finish v) ∧ exec (.trainingEcho false) s = .next (finish v)) ∧
      (let u := linkChanged .identifying { s with link := { s.link with echo := none } }
       exec (.trainingEcho true) s =
         .next (finish { u with link := { u.link with chunks := [], chunk := 0, chunkTry := 1, describe := some 200 } })))

/-- Identification (R48 to R54): an answer of the chunk under request and of the right length is kept and the next chunk asked for; the
last chunk completes the descriptor; a bad signature and the fourth window of a chunk end on the generic profile; another chunk's answer is
counted and the window runs on. The rail is then settled: the demand claimed and the link READY, or UNPOWERED; the pen is stepped down or
re-granted beside a claim, and re-granted where a self-powered or an unpowered base releases its allowance, its session and BUDGET
following (R126, R127, R129, R133, R156). On entering READY the damaged-frame run is 0; the session's first READY posts ATTACH(ATTACHED)
with the identity source and the model and BASE-ATTACHED, a later one LINK(RESTORED) with the rate and no event (R54); the oldest QUEUED
request is offered (R75). UNPOWERED ends the link and posts ATTACH(UNPOWERED) with the demand (R61). The complete descriptor is walked
section by section (R4): each of the five types is noted ABSENT, TAKEN, BAD(BODY) or BAD(REPEAT), its value is the first section's where
that one keeps the type's rules, and the generic profile's where not; the mount is none where it is noted ABSENT or BAD(BODY) (R52). The
model's choice: answers of another length are log 35, the mount by its note is log 44, a malformed section of a type that repeats it is log
21. -/
def Obligations.IdentificationReadsTheDescriptor : Prop :=
  (∀ s : State, Running s → s.sleep.expired = false → s.link.state = .identifying →
    let ask (k n : Nat) (s : State) : State := { s with link := { s.link with chunk := k, chunkTry := n, describe := some 200 } }
    let frame (k : Byte) (bytes : List Byte) : List Byte := 0xFF#8 :: 0x41#8 :: k :: bytes
    let check (p : List Byte) : Byte := crc8 (0x20#8 :: BitVec.ofNat 8 p.length :: p)
    let ends (c : Instr) (i : Identity) : Prop :=
      ∃ t, exec c s = .next (finish t) ∧ t.att = { s.att with ident := i } ∧ t.link.describe = none ∧
        (i.selfPowered = true → t.link.state = .ready ∧ t.guard.baseGrant = 0 ∧ PenFollows (afterRelease s.guard) s t ∧
          BudgetTold .baseRelease s t) ∧
        (i.selfPowered = false → i.railDemand ≤ s.guard.budget → t.link.state = .ready ∧ t.guard.baseGrant = i.railDemand ∧
          PenFollows (besideClaim s.guard i.railDemand) s t ∧ BudgetTold .baseClaim s t) ∧
        (i.selfPowered = false → s.guard.budget < i.railDemand → s.guard.baseGrant ≤ s.guard.budget →
          t.link.state = .unpowered ∧ t.guard.baseGrant = 0 ∧ LinkEnded .unpowered { s with att := { s.att with ident := i } } t ∧
          t.policy.events = [] ∧ PenFollows (afterRelease s.guard) s t ∧ BudgetTold .baseRelease s t ∧
          (s.mgmt.enables.attach = true → ∃ p, t.mgmt.notices.attach = some p ∧ p.notice = .attach (.unpowered i.railDemand))) ∧
        (t.link.state = .ready →
          t.link.session = .hasBeenReady ∧ t.link.quiet = some 2500 ∧ t.link.keepAlive = some 5000 ∧ t.link.damagedRun = 0 ∧
          t.link.rate = s.link.rate ∧
          (s.link.session ≠ .hasBeenReady →
            t.policy.events = [.baseAttached] ∧ t.mgmt.notices.link = s.mgmt.notices.link ∧
            (s.mgmt.enables.attach = true →
              ∃ p, t.mgmt.notices.attach = some p ∧ p.notice = .attach (.attached i.idSource i.model))) ∧
          (s.link.session = .hasBeenReady →
            t.policy.events = [] ∧ t.mgmt.notices.attach = s.mgmt.notices.attach ∧
            (s.mgmt.enables.link = true → ∃ p, t.mgmt.notices.link = some p ∧ p.notice = .link (.restored s.link.rate))) ∧
          (s.issuer.waiting = none → (∀ e ∈ s.issuer.table, e.state ≠ .issued) →
            t.issuer = (oldestOffered s).issuer ∧ t.pool = (oldestOffered s).pool) ∧
          ((s.issuer.waiting.isSome = true ∨ ∃ e ∈ s.issuer.table, e.state = .issued) →
            t.issuer = s.issuer ∧ t.pool = s.pool))
    (s.link.describe.isSome = true →
      (s.link.chunkTry < 4 → exec .describeWindowExpiry s = .next (finish (ask s.link.chunk (s.link.chunkTry + 1) s))) ∧
      (4 ≤ s.link.chunkTry → ends .describeWindowExpiry (genericIdentity s.generic (.chunkFailed s.link.chunk)))) ∧
    (∀ T rest, s.link.chunk = 0 → s.link.chunks = [] → 3 ≤ T.toNat → T.toNat ≤ 128 → rest.length + 3 = min 32 T.toNat →
      let bytes := 0x5A#8 :: 0x01#8 :: T :: rest
      (32 < T.toNat →
        exec (.response (frame 0#8 bytes) (check (frame 0#8 bytes))) s =
          .next (finish (ask 1 1 { s with link := { s.link with chunks := bytes } }))) ∧
      (T.toNat ≤ 32 → ends (.response (frame 0#8 bytes) (check (frame 0#8 bytes))) (identityOf s.generic bytes))) ∧
    (∀ a b T rest, s.link.chunk = 0 → (a ≠ 0x5A#8 ∨ b ≠ 0x01#8 ∨ T.toNat < 3 ∨ 128 < T.toNat) →
      let bytes := a :: b :: T :: rest
      ends (.response (frame 0#8 bytes) (check (frame 0#8 bytes))) (genericIdentity s.generic .badSignature)) ∧
    (∀ (k : Byte) T rest bytes, k.toNat = s.link.chunk → 1 ≤ s.link.chunk → s.link.chunks = 0x5A#8 :: 0x01#8 :: T :: rest →
      3 ≤ T.toNat → T.toNat ≤ 128 → bytes.length = min 32 (T.toNat - 32 * k.toNat) →
      let all := s.link.chunks ++ bytes
      (32 * k.toNat + 32 < T.toNat →
        exec (.response (frame k bytes) (check (frame k bytes))) s =
          .next (finish (ask (k.toNat + 1) 1 { s with link := { s.link with chunks := all } }))) ∧
      (T.toNat ≤ 32 * k.toNat + 32 → ends (.response (frame k bytes) (check (frame k bytes))) (identityOf s.generic all))) ∧
    (∀ (k : Byte) bytes, k.toNat ≠ s.link.chunk →
      exec (.response (frame k bytes) (check (frame k bytes))) s =
        .next (finish { s with att := { s.att with linkDropped := satInc s.att.linkDropped } }))) ∧
  (∀ (g : GenericProfile) (d : List Byte),
    let i := identityOf g d
    let found (t : Byte) : List (Option (List Byte)) := foundOf (sectionsOf (d.drop 3)) t
    let first (t : Byte) : Option (List Byte) := (found t).head?.join
    let codes (b : List Byte) : Prop := 1 ≤ b.length ∧ b.length ≤ 8 ∧ ∀ k ∈ b, 0x10 ≤ k.toNat ∧ k.toNat ≤ 0x13
    let identity (b : List Byte) : Prop := b.length = 7
    let rail (b : List Byte) : Prop := ∃ p f, b = [p, f] ∧ 5 ≤ p.toNat ∧ p.toNat ≤ 40 ∧ f.toNat ≤ 1
    let wake (b : List Byte) : Prop := codes b ∧ ∀ k ∈ b, k ∈ i.declared
    let mount (b : List Byte) : Prop := ∃ o x, b = [o, x] ∧ o.toNat ≤ 5 ∧ x.toNat ≤ 7
    let bad (t : Byte) (keeps : List Byte → Prop) : Prop := ∀ b, first t = some b → ¬ keeps b
    let noted (t : Byte) (keeps : List Byte → Prop) (n : Note) : Prop :=
      (found t = [] → n = .absent) ∧ ((found t).length = 1 → bad t keeps → n = .badBody) ∧
      ((found t).length = 1 → ¬ bad t keeps → n = .taken) ∧ (2 ≤ (found t).length → n = .badRepeat)
    (∃ n, i.notes = some n ∧ noted 1#8 identity n.identity ∧ noted 2#8 rail n.rail ∧ noted 3#8 codes n.sources ∧
      noted 4#8 wake n.wake ∧ noted 5#8 mount n.mount ∧
      (n.mount = .absent ∨ n.mount = .badBody → i.mount = none) ∧ (n.mount = .badRepeat → bad 5#8 mount → i.mount = g.mount)) ∧
    i.idSource = some .descriptor ∧ i.genericReason = none ∧ i.descriptor = some d ∧
    (∀ m1 m0 r s3 s2 s1 s0, first 1#8 = some [m1, m0, r, s3, s2, s1, s0] →
      i.model = some (m1 ++ m0) ∧ i.revision = some r ∧ i.serial = some (s3 ++ s2 ++ (s1 ++ s0))) ∧
    (bad 1#8 identity → i.model = some g.model ∧ i.revision = none ∧ i.serial = none) ∧
    (∀ p f, first 2#8 = some [p, f] → 5 ≤ p.toNat → p.toNat ≤ 40 → f.toNat ≤ 1 →
      i.railDemand = 50 * p.toNat ∧ i.selfPowered = decide (f = 1#8)) ∧
    (bad 2#8 rail → i.railDemand = g.demand ∧ i.selfPowered = g.selfPowered) ∧
    (∀ b, first 3#8 = some b → codes b → i.declared.Nodup ∧ ∀ k, k ∈ i.declared ↔ k ∈ b) ∧
    (bad 3#8 codes → i.declared = g.declared) ∧
    (∀ b, first 4#8 = some b → wake b → i.wakeKinds.Nodup ∧ ∀ k, k ∈ i.wakeKinds ↔ k ∈ b) ∧
    (bad 4#8 wake → i.wakeKinds = g.wakeKinds) ∧
    (∀ o x, first 5#8 = some [o, x] → o.toNat ≤ 5 → x.toNat ≤ 7 → i.mount = some ⟨o.toNat, x.toNat⟩) ∧
    (∀ (l : List (Byte × List Byte)) (tail : List Byte), (∀ x ∈ l, x.1 ≠ 0#8 ∧ x.2.length ≤ 255) →
      d.drop 3 = l.flatMap (fun x => x.1 :: BitVec.ofNat 8 x.2.length :: x.2) ++ tail →
      let whole (t : Byte) : List (Option (List Byte)) := (l.filter (fun x => x.1 = t ∧ x.2 ≠ [])).map (fun x => some x.2)
      (tail.head? = none ∨ tail.head? = some 0#8 → ∀ t, found t = whole t) ∧
      (∀ t n r, t ≠ 0#8 → tail = [t] ∨ tail = t :: n :: r ∧ r.length < n.toNat →
        found t = whole t ++ [none] ∧ ∀ u, u ≠ t → found u = whole u))) ∧
  (∀ (g : GenericProfile) (r : GenericReason),
    genericIdentity g r =
      { idSource := some .generic, model := none, revision := none, serial := none, railDemand := g.demand, selfPowered := g.selfPowered
        declared := g.declared, wakeKinds := g.wakeKinds, mount := g.mount, notes := none, genericReason := some r
        descriptor := none })

/-- The running link's timers (R57 to R60): the quiet timer, which in an open window waits for the echo; the wake time, whose expiry brings
READY and, with none ISSUED and no offer waiting, the offer of the oldest QUEUED request (R75); the keep-alive with its echo, with which a
QUIET that waited is entered; its window, whose expiry is link loss: LINK(LOST), open requests GONE, the downstream queue flushed, training
at FAST. The model's choice: the entry into QUIET that waits for an echo is log 20, the damaged-frame run kept by the wake is log 50, the
quiet timer restarted with a frame queued in an open window is log 53. -/
def Obligations.RunningLinkRestsAndChecks : Prop :=
  ∀ s : State, Running s → s.sleep.expired = false →
    (s.link.quiet.isSome = true →
      (s.pool.down ≠ [] → exec .quietTimerExpiry s = .next (finish { s with link := { s.link with quiet := some 2500 } })) ∧
      (s.pool.down = [] → s.link.kaWindow.isSome = true →
        exec .quietTimerExpiry s = .next (finish { s with link := { s.link with quiet := none, quietWaits := true } })) ∧
      (s.pool.down = [] → s.link.kaWindow = none →
        exec .quietTimerExpiry s =
          .next (finish
            (let u := linkChanged .quiet s
             { u with link := { u.link with quiet := none, keepAlive := none, quietWaits := false } })))) ∧
    (s.link.wake.isSome = true →
      let u := linkChanged .ready s
      let v := { u with link := { u.link with wake := none, quiet := some 2500, keepAlive := some 5000 } }
      (s.issuer.waiting = none → (∀ e ∈ s.issuer.table, e.state ≠ .issued) →
        exec .wakeTimeExpiry s = .next (finish (oldestOffered v))) ∧
      ((s.issuer.waiting.isSome = true ∨ ∃ e ∈ s.issuer.table, e.state = .issued) →
        exec .wakeTimeExpiry s = .next (finish v))) ∧
    (s.link.keepAlive.isSome = true →
      (s.pool.hingeBusy = true →
        exec .keepaliveTimerExpiry s = .next (finish { s with link := { s.link with keepAlive := none, kaDue := true } })) ∧
      (s.pool.hingeBusy = false →
        exec .keepaliveTimerExpiry s =
          .next (finish { s with link := { s.link with keepAlive := none, kaDue := false, kaWindow := some 100 } }))) ∧
    (s.link.kaWindow.isSome = true → s.link.quietWaits = false →
      exec .keepaliveEcho s =
        .next (finish { s with link := { s.link with kaWindow := none, keepAlive := some 5000 } })) ∧
    (s.link.kaWindow.isSome = true → s.link.quietWaits = true →
      exec .keepaliveEcho s =
        .next (finish
          (let u := linkChanged .quiet { s with link := { s.link with kaWindow := none, keepAlive := some 5000 } }
           { u with link := { u.link with quiet := none, keepAlive := none, quietWaits := false } }))) ∧
    (s.link.kaWindow.isSome = true →
      exec .keepaliveWindowExpiry s =
        .next (finish
          (let l := s.link
           let v := requestsGone (post (.link .lost)
             { s with link := { l with
               quietWaits := false, kaDue := false, resetAfterRail := false, debounce := none, railUp := none, echo := none
               retry := none, describe := none, quiet := none, wake := none, keepAlive := none, kaWindow := none
               resetDrive := none, diag := none } })
           let u := linkChanged .training { v with pool := { v.pool with down := [], hingeBusy := false } }
           { u with link := { u.link with rate := some .fast, attempt := 1, echo := some 100 } })))

/-! ## Answers and frames from the base -/

/-- A REJECT that reaches the issuer is taken when the table holds an ISSUED entry with the same key and the window is running: the window
stops and the entry is DONE with outcome BASE-REFUSED, no response data, its attempts kept, its discard timer started, the bytes beyond
the key ignored. One that is not taken is counted and changes no entry and no window. -/
def Obligations.RejectEndsTheRequest : Prop :=
  ∀ (s : State) (key0 key1 : Byte) (extra : List Byte), Running s → (s.link.state = .ready ∨ s.link.state = .identifying) →
    let payload := key0 :: key1 :: extra
    let check := crc8 (0x22#8 :: BitVec.ofNat 8 payload.length :: payload)
    (∀ e ∈ s.issuer.table, e.state = .issued → e.target = key0.toNat → e.command = key1 → s.issuer.window.isSome = true →
      (s.issuer.table.map (fun e => (e.target, e.command))).Nodup →
      ∃ t, exec (.reject payload check) s = .next (finish t) ∧ t.issuer.window = none ∧ t.issuer.stray = s.issuer.stray ∧
        t.issuer.table.find? (fun e => e.target == key0.toNat && e.command == key1) =
          some { e with state := .done, outcome := some .baseRefused, response := none
                        discard := some (10 * s.issuer.discardTime) }) ∧
    ((s.issuer.window = none ∨ ∀ e ∈ s.issuer.table, ¬ (e.state = .issued ∧ e.target = key0.toNat ∧ e.command = key1)) →
      ∃ t, exec (.reject payload check) s = .next (finish t) ∧
        t.issuer = { s.issuer with stray := satInc s.issuer.stray })

/-- The ISSUED request's ends (R77 to R81, R85, R56): a RESPONSE of up to 32 data bytes ends it OK with them, a longer one is stray; a
BUSY-RESPONSE below 32 attempts makes it QUEUED again, and the 32nd ends it GAVE-UP; a REJECT ends it BASE-REFUSED; the window's expiry
ends it NO-RESPONSE. With the link READY or QUIET the QUEUED entry that then stands first in age order is offered, the one answered busy or
another (R75): admitted it is ISSUED, without room it is the waiting offer. BASE-REQUEST-PENDING stays while an entry is not DONE. An
undamaged answer in READY restarts the quiet and keep-alive timers. A RESPONSE other than a descriptor answer, a BUSY-RESPONSE and a REJECT
that names no ISSUED entry, or comes with no window running, is stray, in READY and in IDENTIFYING, and changes nothing else of the table
(R81). -/
def Obligations.AnswersEndTheRequest : Prop :=
  (∀ (s : State) (before after : List ReqEntry) (e : ReqEntry) (target : Byte), Running s → s.sleep.expired = false →
    s.issuer.table = before ++ e :: after → (∀ x ∈ before ++ after, x.state ≠ .issued ∧ ¬ (x.target = e.target ∧ x.command = e.command)) →
    e.state = .issued → e.target = target.toNat → target.toNat ≤ 15 → s.issuer.window.isSome = true → s.issuer.waiting = none →
    let l := s.link
    let heard : State := { s with link := { l with damagedRun := 0, quiet := some 2500, keepAlive := some 5000 } }
    let check (kind : Byte) (p : List Byte) : Byte := crc8 (kind :: BitVec.ofNat 8 p.length :: p)
    let with_ (u : State) (x : ReqEntry) : State :=
      { u with issuer := { u.issuer with table := before ++ x :: after, window := none } }
    let ended (u : State) (x : ReqEntry) (o : ReqOutcome) (r : Option (List Byte)) : State :=
      let v := with_ u { x with state := .done, outcome := some o, response := r, discard := some (10 * s.issuer.discardTime) }
      { v with sleep := { v.sleep with holds := { v.sleep.holds with
          requestPending := decide (∃ x ∈ before ++ after, x.state ≠ .done) } } }
    let again : ReqEntry := { e with attempts := e.attempts + 1 }
    let frame : Frame := ⟨none, 0x40#8, .base, BitVec.ofNat 8 e.target :: e.command :: e.data, false, .issuer, []⟩
    (s.link.state.isUp = true →
      exec .responseWindowExpiry s = .next (finish (oldestOffered (ended s e .noResponse none)))) ∧
    (s.link.state.isUp = false → exec .responseWindowExpiry s = .next (finish (ended s e .noResponse none))) ∧
    (s.link.state = .ready → ∀ rest,
      let p := target :: e.command :: rest
      (rest.length ≤ 32 →
        exec (.response p (check 0x20#8 p)) s = .next (finish (oldestOffered (ended heard e .ok (some rest))))) ∧
      (32 < rest.length →
        exec (.response p (check 0x20#8 p)) s =
          .next (finish { heard with issuer := { s.issuer with stray := satInc s.issuer.stray } })) ∧
      exec (.reject p (check 0x22#8 p)) s = .next (finish (oldestOffered (ended heard e .baseRefused none))) ∧
      (31 ≤ e.attempts →
        exec (.busyResponse p (check 0x21#8 p)) s = .next (finish (oldestOffered (ended heard again .gaveUp none)))) ∧
      (e.attempts < 31 →
        exec (.busyResponse p (check 0x21#8 p)) s =
          .next (finish (oldestOffered (with_ heard { again with state := .queued })))) ∧
      (∀ q, e.attempts < 31 → (∀ x ∈ before, x.state ≠ .queued) → s.pool.admitDown frame = some q →
        exec (.busyResponse p (check 0x21#8 p)) s = .next (finish { with_ heard again with pool := q })) ∧
      (e.attempts < 31 → (∀ x ∈ before, x.state ≠ .queued) → s.pool.admitDown frame = none →
        exec (.busyResponse p (check 0x21#8 p)) s =
          .next (finish (let v := with_ heard { again with state := .queued }
                         { v with issuer := { v.issuer with waiting := some (e.target, e.command) } }))))) ∧
  (∀ (s : State) (key0 key1 : Byte) (extra : List Byte), Running s →
    (s.issuer.window = none ∨ ∀ e ∈ s.issuer.table, ¬ (e.state = .issued ∧ e.target = key0.toNat ∧ e.command = key1)) →
    let p := key0 :: key1 :: extra
    let check (kind : Byte) : Byte := crc8 (kind :: BitVec.ofNat 8 p.length :: p)
    let stray (u : State) : State := { u with issuer := { s.issuer with stray := satInc s.issuer.stray } }
    let heard : State := { s with link := { s.link with damagedRun := 0, quiet := some 2500, keepAlive := some 5000 } }
    (s.link.state = .ready →
      (¬ (key0 = 0xFF#8 ∧ key1 = 0x41#8) → exec (.response p (check 0x20#8)) s = .next (finish (stray heard))) ∧
      exec (.busyResponse p (check 0x21#8)) s = .next (finish (stray heard)) ∧
      exec (.reject p (check 0x22#8)) s = .next (finish (stray heard))) ∧
    (s.link.state = .identifying →
      (¬ (key0 = 0xFF#8 ∧ key1 = 0x41#8) → exec (.response p (check 0x20#8)) s = .next (finish (stray s))) ∧
      exec (.busyResponse p (check 0x21#8)) s = .next (finish (stray s)) ∧
      exec (.reject p (check 0x22#8)) s = .next (finish (stray s))))

/-- Frames that carry nothing on (R48, R56, R58): WAKE-SIGNAL, whatever its payload, is consumed, and in QUIET it starts the wake time; a
kind not listed, an answer or a WAKE-SIGNAL damaged in READY and a frame other than a wake kind in QUIET are counted as dropped. Each
frame in READY restarts the quiet timer, undamaged ones the keep-alive timer and the damaged run. A damaged frame in QUIET counts in the
run, a WAKE-SIGNAL there alone, another kind as dropped too. The third damaged in a row is link loss, in READY and in QUIET. The model's
choice: damaged frames in QUIET are log 19, the payload of a WAKE-SIGNAL passed over is log 35. -/
def Obligations.OtherFramesAreCounted : Prop :=
  ∀ (s : State) (c : Instr) (kind : Byte) (payload : List Byte) (check : Byte), Running s → s.sleep.expired = false →
    ((c = .response payload check ∧ kind = 0x20#8) ∨ (c = .busyResponse payload check ∧ kind = 0x21#8) ∨
      (c = .reject payload check ∧ kind = 0x22#8) ∨ (c = .wakeSignal payload check ∧ kind = 0x30#8) ∨
      c = .unlistedKindFrame kind payload check) →
    let damaged := check ≠ crc8 (kind :: BitVec.ofNat 8 payload.length :: payload)
    let dropped (s : State) : State := { s with att := { s.att with linkDropped := satInc s.att.linkDropped } }
    let l := s.link
    let heard : State := { s with link := { l with damagedRun := 0, quiet := some 2500, keepAlive := some 5000 } }
    let lost (s : State) : State :=
      let l := s.link
      let v := requestsGone (post (.link .lost)
        { s with link := { l with
          quietWaits := false, kaDue := false, resetAfterRail := false, debounce := none, railUp := none, echo := none
          retry := none, describe := none, quiet := none, wake := none, keepAlive := none, kaWindow := none
          resetDrive := none, diag := none } })
      let u := linkChanged .training { v with pool := { v.pool with down := [], hingeBusy := false } }
      { u with link := { u.link with rate := some .fast, attempt := 1, echo := some 100 } }
    (s.link.state = .ready → ¬ damaged → c = .wakeSignal payload check → exec c s = .next (finish heard)) ∧
    (s.link.state = .ready → ¬ damaged → c = .unlistedKindFrame kind payload check → exec c s = .next (finish (dropped heard))) ∧
    (s.link.state = .ready → ¬ damaged → c = .response payload check → payload.take 2 = [0xFF#8, 0x41#8] →
      exec c s = .next (finish (dropped heard))) ∧
    (s.link.state = .ready → damaged → l.damagedRun < 2 →
      exec c s =
        .next (finish (dropped { s with link := { l with damagedRun := l.damagedRun + 1, quiet := some 2500 } }))) ∧
    (s.link.state = .ready → damaged → 2 ≤ l.damagedRun →
      exec c s =
        .next (finish (lost (dropped
          { s with link := { l with damagedRun := l.damagedRun + 1, quiet := some 2500 } })))) ∧
    (s.link.state = .quiet → ¬ damaged → c = .wakeSignal payload check →
      exec c s =
        .next (finish { s with link := { l with damagedRun := 0, wake := if l.wake = none then some 20 else l.wake } })) ∧
    (s.link.state = .quiet → ¬ damaged → c ≠ .wakeSignal payload check →
      exec c s = .next (finish (dropped { s with link := { l with damagedRun := 0 } }))) ∧
    (s.link.state = .quiet → damaged →
      let counted : State := { s with link := { l with damagedRun := l.damagedRun + 1 } }
      let taken : State := if c = .wakeSignal payload check then counted else dropped counted
      (l.damagedRun < 2 → exec c s = .next (finish taken)) ∧ (2 ≤ l.damagedRun → exec c s = .next (finish (lost taken)))) ∧
    (s.link.state = .identifying → (damaged ∨ c = .unlistedKindFrame kind payload check) → exec c s = .next (finish (dropped s))) ∧
    (s.link.state = .identifying → ¬ damaged → c = .wakeSignal payload check → exec c s = .next (finish s)) ∧
    (s.link.state ∉ [.ready, .quiet, .identifying] → exec c s = .next (finish s))

/-- Base traffic (R21 to R25, R27, R28, R30 to R34, R56, R58): in IDENTIFYING, in READY, and in QUIET for an undamaged frame of a wake
kind, a frame of kinds 0x10 to 0x13 reaches the route engine and is counted as received; longer than 64 bytes it goes no further;
undamaged it is handed to its observers (v is the state after them). A kind not declared is counted and dropped, one that no entry matches
too. The entry of the lowest index that matches drops a damaged frame under DROP-DAMAGED, else advances its phase; the frame that brings
the phase to N is counted as passed and acted on: FORWARD offers it to the upstream queue with its mark, counted twice without room; DROP
drops it; WAKE and FORWARD-WAKE post the wake claim. Other frames in QUIET are counted by the link or, damaged ones of a wake kind, in the
run alone. The third damaged frame in a row is link loss. The model's choice: damaged frames in QUIET are log 19, the taps before
classification and a third damaged frame before its link loss are log 4. -/
def Obligations.BaseTrafficIsRouted : Prop :=
  ∀ (s : State) (kind : Byte) (payload : List Byte) (check : Byte), Running s → kind.toNat ∈ [0x10, 0x11, 0x12, 0x13] →
    let damaged : Bool := decide (check ≠ crc8 (kind :: BitVec.ofNat 8 payload.length :: payload))
    let l := s.link
    let run := if damaged = true then l.damagedRun + 1 else 0
    let heard : State :=
      match l.state with
      | .ready =>
        { s with link := { l with
          damagedRun := run, quiet := some 2500, keepAlive := if damaged = true then l.keepAlive else some 5000 } }
      | .quiet => { s with link := { l with damagedRun := run } }
      | _ => s
    let lost (s : State) : State :=
      let l := s.link
      let v := requestsGone (post (.link .lost)
        { s with link := { l with
          quietWaits := false, kaDue := false, resetAfterRail := false, debounce := none, railUp := none, echo := none
          retry := none, describe := none, quiet := none, wake := none, keepAlive := none, kaWindow := none
          resetDrive := none, diag := none } })
      let u := linkChanged .training { v with pool := { v.pool with down := [], hingeBusy := false } }
      { u with link := { u.link with rate := some .fast, attempt := 1, echo := some 100 } }
    let lastOfThree : Bool := damaged && decide (2 ≤ l.damagedRun) && decide (l.state = .ready ∨ l.state = .quiet)
    let gives (u : State) : Prop :=
      exec (.baseTrafficFrame kind payload check) s = .next (finish (if lastOfThree = true then lost u else u))
    let src := match kind.toNat with | 0x10 => Source.baseKeys | 0x11 => .basePointer | 0x12 => .baseMotion | _ => .baseStatus
    let count (f : Ingress → Ingress) (s : State) : State :=
      { s with route := { s.route with ingress := s.route.ingress.set src (f (s.route.ingress.get src)) } }
    let arrived := count (fun c => { c with received := c.received + 1#16 }) heard
    let v := if damaged = true then arrived else tapFrame src payload arrived
    let declared : Prop := (v.link.state = .ready ∨ v.link.state = .quiet) ∧ kind ∈ v.att.ident.declared
    (lastOfThree = true → s.sleep.expired = false) →
    (src ≠ .baseMotion → v = arrived) ∧
    (l.state = .identifying ∨ l.state = .ready ∨ (l.state = .quiet ∧ kind ∈ s.att.ident.wakeKinds ∧ damaged = false) →
      (s.store.state = .starting → gives heard) ∧
      (s.store.state ≠ .starting → 64 < payload.length →
        gives (count (fun c => { c with tooLong := satInc c.tooLong }) arrived)) ∧
      (s.store.state ≠ .starting → payload.length ≤ 64 →
        (¬ declared → gives (count (fun c => { c with undeclared := satInc c.undeclared }) v)) ∧
        (declared → (∀ e ∈ v.route.table, routeMatches src kind v e = false) →
          gives (count (fun c => { c with unmatched := satInc c.unmatched }) v)) ∧
        (∀ i e, declared → v.route.table[i]? = some e → routeMatches src kind v e = true →
          (∀ j e', j < i → v.route.table[j]? = some e' → routeMatches src kind v e' = false) →
          let put (e' : RouteEntry) : State := { v with route := { v.route with table := v.route.table.set i e' } }
          let passed : RouteEntry := { e with phase := 0, passed := e.passed + 1#16 }
          let frame : Frame := ⟨some src, kind, e.fields.dest, payload, damaged, .routed, []⟩
          let offered : State :=
            match v.pool.admitUp frame with
            | some p => { put passed with pool := p }
            | none => count (fun c => { c with overrun := satInc c.overrun }) (put { passed with queueFull := satInc e.queueFull })
          (damaged = true → e.fields.damage = .dropDamaged →
            gives (count (fun c => { c with damaged := satInc c.damaged }) v)) ∧
          (damaged = false ∨ e.fields.damage = .passMarked →
            (e.phase + 1 < e.fields.keepN → gives (put { e with phase := e.phase + 1 })) ∧
            (e.fields.keepN ≤ e.phase + 1 →
              (e.fields.action = .forward → gives offered) ∧
              (e.fields.action = .drop → gives (put passed)) ∧
              (e.fields.action = .wake → gives (wakeClaim (.frame src) (put passed))) ∧
              (e.fields.action = .forwardWake → gives (wakeClaim (.frame src) offered))))))) ∧
    (l.state = .quiet → kind ∈ s.att.ident.wakeKinds → damaged = true → gives heard) ∧
    (l.state = .quiet → kind ∉ s.att.ident.wakeKinds →
      gives { heard with att := { s.att with linkDropped := satInc s.att.linkDropped } }) ∧
    (l.state ∉ [.identifying, .ready, .quiet] → gives s) ∧
    (∀ (v : State) (e : RouteEntry), routeMatches src kind v e = true ↔
      e.fields.valid = true ∧ e.fields.source = src ∧ (∀ k, e.fields.kind = some k → k = kind.toNat) ∧
      inPostures e.fields.postures v.posture.posture = true ∧ inViews e.fields.views (viewOf v.sleep.power) = true ∧
      (∀ m, e.fields.model = some m →
        (v.link.state = .ready ∨ v.link.state = .quiet) ∧ v.att.ident.idSource = some .descriptor ∧ v.att.ident.model = some m))

/-- The hinge link transmitter completes its frame and a discard timer expires (R15, R16, R57, R59, R76, R82): the head leaves the queue,
the quiet timer restarts, a COMMAND starts the 20 ms window of the ISSUED entry, a keep-alive that is due is sent; the waiting COMMAND is
offered again. An entry whose discard timer expires is removed and counted. The model's choice: the end of a transmission is a command,
log 16. -/
def Obligations.SentFramesLeaveTheQueue : Prop :=
  ∀ s : State, Running s →
    (∀ f rest, s.pool.hingeBusy = true → s.pool.down = f :: rest →
      let window := if f.origin = .issuer ∧ (∃ e ∈ s.issuer.table, e.state = .issued) then some 200 else s.issuer.window
      let pool : Pool := { s.pool with down := rest, hingeBusy := false }
      let u : State :=
        { s with
          pool := pool
          issuer := { s.issuer with window := window }
          link := { s.link with
            quiet := some 2500, kaDue := false
            kaWindow := if s.link.kaDue then some 100 else s.link.kaWindow } }
      (s.issuer.waiting = none → exec .hingeFrameSent s = .next (finish u)) ∧
      (∀ before after e, s.issuer.waiting = some (e.target, e.command) → s.issuer.table = before ++ e :: after →
        (∀ x ∈ before ++ after, ¬ (x.target = e.target ∧ x.command = e.command)) →
        let frame : Frame := ⟨none, 0x40#8, .base, BitVec.ofNat 8 e.target :: e.command :: e.data, false, .issuer, []⟩
        (∀ p, pool.admitDown frame = some p →
          exec .hingeFrameSent s =
            .next (finish { u with
              pool := p
              issuer := { u.issuer with waiting := none, table := before ++ { e with state := .issued } :: after } })) ∧
        (pool.admitDown frame = none → exec .hingeFrameSent s = .next (finish u)))) ∧
    (s.pool.hingeBusy = false → exec .hingeFrameSent s = .next (finish s)) ∧
    (∀ e ∈ s.issuer.table, e.state = .done → e.discard.isSome = true →
      exec (.discardTimerExpiry e.target e.command) s =
        .next (finish { s with issuer := { s.issuer with
          table := s.issuer.table.filter (fun x => !(x.target == e.target && x.command == e.command))
          discarded := satInc s.issuer.discarded } }))

/-! ## Events of the hinge, the end switches and the lid accelerometer -/

/-- The hinge encoder and its settling (R88 to R91, R99, R100, R103): a valid code counts the steps round the cycle, held at the ends by
the switches, and is a movement: MOVING, the settle timer restarted, HINGE-MOVING held. The opposite position, an invalid code and a step
out of range lose the count and are counted and told. When the settle timer expires the hinge is SETTLED and the posture evaluated: SLATE,
CLOSED, UNKNOWN without a count; else the window in force is kept while its range widened by its hysteresis holds the count and its
condition the candidate; else the lowest enabled window that holds both is chosen; with none, a posture that a window gave stays; a new
posture is told (R104). The model's choice: the code's bits are log 56, a change of two positions that leaves the range is log 47. -/
def Obligations.EncoderCountsTheHinge : Prop :=
  ∀ s : State, Running s →
    let moved (u : State) : State :=
      { u with
        posture := { u.posture with moving := true, settle := some (10 * u.posture.settleTime) }
        sleep := { u.sleep with holds := { u.sleep.holds with hingeMoving := true } } }
    let at_ (code : BitVec 3) : State := { s with pins := { s.pins with code := code } }
    let lost (cause : EncoderCause) (code : BitVec 3) (u : State) : State :=
      moved (post (.encoderFault cause code s.posture.count)
        { u with posture := { u.posture with count := none, faults := satInc s.posture.faults } })
    let unknown (u : State) : State :=
      if s.posture.posture = .unknown then { u with posture := { u.posture with window := none } }
      else postEvent (.postureChanged s.posture.posture .unknown) (post (.posture .unknown s.posture.posture none true)
        { u with posture := { u.posture with posture := .unknown, previous := some s.posture.posture, window := none } })
    let faulted (cause : EncoderCause) (code : BitVec 3) (u v : State) : Prop :=
      (s.posture.count = none → v = lost cause code u) ∧
      (s.posture.count.isSome = true → s.pins.lidClosed = false → v = unknown (lost cause code u))
    (∀ code, s.att.present = false → exec (.encoderCodeChange code) s = .next (finish (at_ code))) ∧
    (∀ code, s.att.present = true → (code = 0#3 ∨ code = 7#3) → code ≠ s.pins.code →
      ∃ v, exec (.encoderCodeChange code) s = .next (finish v) ∧
        faulted .invalidCode code { at_ code with posture := { s.posture with resync := true } } v) ∧
    (∀ code pos, s.att.present = true → codePosition code = some pos → code ≠ s.pins.code →
      let u : State := { at_ code with posture := { s.posture with lastCode := some pos, resync := false } }
      ((s.posture.lastCode = none ∨ s.posture.resync = true) → exec (.encoderCodeChange code) s = .next (finish (moved u))) ∧
      (∀ last, s.posture.lastCode = some last → s.posture.resync = false →
        ((pos + 6 - last) % 6 = 0 → exec (.encoderCodeChange code) s = .next (finish u)) ∧
        ((pos + 6 - last) % 6 = 3 →
          ∃ v, exec (.encoderCodeChange code) s = .next (finish v) ∧ faulted .oppositeJump code u v) ∧
        (∀ steps : Int, ((pos + 6 - last) % 6, steps) ∈ [(1, 1), (2, 2), (4, -2), (5, -1)] →
          (s.posture.count = none → exec (.encoderCodeChange code) s = .next (finish (moved u))) ∧
          (∀ n : Nat, s.posture.count = some n →
            let counted (m : Nat) : State := moved { u with posture := { u.posture with count := some m } }
            (∀ m : Nat, (n : Int) + steps = m → m ≤ 180 → exec (.encoderCodeChange code) s = .next (finish (counted m))) ∧
            ((n : Int) + steps < 0 → s.pins.lidClosed = true → exec (.encoderCodeChange code) s = .next (finish (counted 0))) ∧
            (180 < (n : Int) + steps → s.pins.foldFlat = true →
              exec (.encoderCodeChange code) s = .next (finish (counted 180))) ∧
            (((n : Int) + steps < 0 ∧ s.pins.lidClosed = false ∨ 180 < (n : Int) + steps ∧ s.pins.foldFlat = false) →
              ∃ v, exec (.encoderCodeChange code) s = .next (finish v) ∧ faulted .range code u v))))) ∧
    (s.posture.settle.isSome = true →
      ∃ t, exec .settleTimerExpiry s = .next (finish t) ∧ t.posture.moving = false ∧ t.posture.settle = none ∧
        t.posture.lidOpened = false ∧ t.posture.count = s.posture.count ∧ t.sleep.holds.hingeMoving = false ∧ PostureFollows s t ∧
        (s.att.present = true → s.pins.lidClosed = false → s.posture.count = none →
          t.posture.posture = .unknown ∧ t.posture.window = none) ∧
        (s.att.present = false → t.posture.posture = .slate ∧ t.posture.window = none) ∧
        (s.att.present = true → s.pins.lidClosed = true → t.posture.posture = .closed ∧ t.posture.window = none) ∧
        (∀ n, s.att.present = true → s.pins.lidClosed = false → s.posture.count = some n →
          let takes (w : Window) (widen : Nat) : Prop :=
            w.lower ≤ w.upper ∧ w.lower ≤ n + widen ∧ n ≤ w.upper + widen ∧
            (w.cond = .any ∨ w.cond = .upright ∧ s.orient.candidate = .landscape ∨
              w.cond = .inverted ∧ s.orient.candidate = .landscapeInverted)
          let kept : Prop := ∃ i w, s.posture.window = some i ∧ s.posture.windows[i]? = some w ∧ takes w w.hysteresis
          let chosen (i : Nat) (w : Window) : Prop :=
            t.posture.posture = w.posture ∧ t.posture.window = some i ∧
            (w.posture ≠ s.posture.posture →
              t.posture.previous = some s.posture.posture ∧ t.policy.events = [.postureChanged s.posture.posture w.posture])
          (∀ i w, s.posture.window = some i → s.posture.windows[i]? = some w → takes w w.hysteresis → chosen i w) ∧
          (∀ i w, ¬ kept → s.posture.windows[i]? = some w → takes w 0 →
            (∀ j v, j < i → s.posture.windows[j]? = some v → ¬ takes v 0) → chosen i w) ∧
          (¬ kept → (∀ w ∈ s.posture.windows, ¬ takes w 0) →
            (s.posture.posture ∈ [.laptop, .stand, .tent, .tablet] →
              t.posture.posture = s.posture.posture ∧ t.posture.window = s.posture.window) ∧
            (s.posture.posture ∉ [.laptop, .stand, .tent, .tablet] →
              t.posture.posture = .unknown ∧ t.posture.window = none))))

/-- The two end switches (R94, R95, R93, R103): with the base present the lid-closed switch gives the count 0 and the posture CLOSED, its
release marks the lid opened, moves the hinge and leaves the posture UNKNOWN, each with its policy event before POSTURE-CHANGED; the
fold-flat switch gives the count 180 unless the lid is closed. A reference more than 4 counts away is a slip, told with its source and the
counts before and after it (R93). A reference that changes the count, of a switch or of gravity, evaluates the posture, and each new
posture is told (R102 to R104); one that leaves the count leaves the posture. With the base absent a switch changes its level alone.
Gravity (R52, R96 to R98): an undamaged lid or base sample continues its run within 200 ms and 40 mg or starts one; a base sample counts
with the link up and a mount, corrected by it. With both units still for 400 ms, the check not yet made, SETTLED, both switches released
and both directions usable, the count from the two directions is a reference with source GRAVITY, or, within 4 counts of the count that
stands, none. The model's choice: the rounding of the angles is log 27. -/
def Obligations.SwitchesReferenceTheHinge : Prop :=
  ∀ s : State, Running s →
    let slipped (c : Nat) : Byte :=
      if ∃ n, s.posture.count = some n ∧ (c + 4 < n ∨ n + 4 < c) then satInc s.posture.slips else s.posture.slips
    let changed (new : Posture) : List PolicyEvent :=
      if s.posture.posture = new then [] else [.postureChanged s.posture.posture new]
    let slipTold (src : RefSource) (c : Nat) (t : State) : Prop :=
      (∀ n, s.posture.count = some n → (c + 4 < n ∨ n + 4 < c) → s.mgmt.enables.encoder = true →
        ∃ p, t.mgmt.notices.encoder = some p ∧ p.notice = .encoderSlip src n c) ∧
      ((∀ n, s.posture.count = some n → n ≤ c + 4 ∧ c ≤ n + 4) → t.mgmt.notices.encoder = s.mgmt.notices.encoder)
    let postureStays (t : State) : Prop :=
      t.posture.posture = s.posture.posture ∧ t.posture.window = s.posture.window ∧ t.posture.previous = s.posture.previous ∧
      t.mgmt.notices.posture = s.mgmt.notices.posture
    (s.pins.lidClosed = true → exec .lidSwitchAssert s = .next (finish s)) ∧
    (s.pins.lidClosed = false → exec .lidSwitchRelease s = .next (finish s)) ∧
    (s.pins.foldFlat = true → exec .foldFlatAssert s = .next (finish s)) ∧
    (s.att.present = false → s.pins.lidClosed = false →
      exec .lidSwitchAssert s = .next (finish { s with pins := { s.pins with lidClosed := true } })) ∧
    (s.att.present = false → s.pins.lidClosed = true →
      exec .lidSwitchRelease s = .next (finish { s with pins := { s.pins with lidClosed := false } })) ∧
    ((s.att.present = false ∨ s.pins.lidClosed = true) → s.pins.foldFlat = false →
      exec .foldFlatAssert s = .next (finish { s with pins := { s.pins with foldFlat := true } })) ∧
    exec .foldFlatRelease s = .next (finish { s with pins := { s.pins with foldFlat := false } }) ∧
    (s.att.present = true → s.pins.lidClosed = false →
      ∃ t, exec .lidSwitchAssert s = .next (finish t) ∧ t.pins = { s.pins with lidClosed := true } ∧ t.posture.count = some 0 ∧
        t.posture.refSource = some .lidSwitch ∧ t.posture.slips = slipped 0 ∧ t.posture.lidOpened = false ∧
        t.posture.posture = .closed ∧ t.posture.window = none ∧ t.policy.events = .lidClosed :: changed .closed ∧
        slipTold .lidSwitch 0 t ∧ PostureFollows s t) ∧
    (s.att.present = true → s.pins.lidClosed = true →
      ∃ t, exec .lidSwitchRelease s = .next (finish t) ∧ t.pins = { s.pins with lidClosed := false } ∧
        t.posture.count = s.posture.count ∧ t.posture.lidOpened = true ∧ t.posture.moving = true ∧
        t.posture.settle = some (10 * s.posture.settleTime) ∧ t.sleep.holds.hingeMoving = true ∧
        t.posture.posture = .unknown ∧ t.posture.window = none ∧ t.policy.events = .lidOpened :: changed .unknown ∧
        PostureFollows s t) ∧
    (s.att.present = true → s.pins.lidClosed = false → s.pins.foldFlat = false →
      ∃ t, exec .foldFlatAssert s = .next (finish t) ∧ t.pins = { s.pins with foldFlat := true } ∧ t.posture.count = some 180 ∧
        t.posture.refSource = some .flatSwitch ∧ t.posture.slips = slipped 180 ∧ slipTold .flatSwitch 180 t ∧
        t.posture.moving = s.posture.moving ∧ t.posture.lidOpened = s.posture.lidOpened ∧ t.posture.windows = s.posture.windows ∧
        t.orient = s.orient ∧ t.att = s.att ∧ t.policy.events = changed t.posture.posture ∧
        (s.posture.count ≠ some 180 → PostureFollows s t) ∧ (s.posture.count = some 180 → postureStays t)) ∧
    (let within (a b : Int) : Prop := (a - b).natAbs ≤ 40
     let continues (r : Option Run) (x y z : Int) : Prop :=
       ∃ q, r = some q ∧ s.now ≤ q.last + 2000 ∧ within x q.x ∧ within y q.y ∧ within z q.z
     let taken (r : Option Run) (x y z : Int) (n : Run) : Prop :=
       n.last = s.now ∧ n.x = x ∧ n.y = y ∧ n.z = z ∧ (continues r x y z → ∀ q, r = some q → n.first = q.first) ∧
       (¬ continues r x y z → n.first = s.now)
     let usable (r : Run) : Prop := r.x.natAbs ≤ 800 ∧ (100 ≤ r.y.natAbs ∨ 100 ≤ r.z.natAbs)
     let due (new : Prop) (this other : Run) : Prop :=
       (s.link.state = .ready ∨ s.link.state = .quiet) ∧ s.att.ident.mount.isSome = true ∧ this.first + 4000 ≤ this.last ∧
       other.first + 4000 ≤ other.last ∧ this.last ≤ other.last + 2000 ∧ (s.posture.checked = false ∨ new) ∧
       s.posture.moving = false ∧ s.pins.lidClosed = false ∧ s.pins.foldFlat = false ∧ usable this ∧ usable other
     let stays (new : Prop) (t : State) : Prop :=
       t.posture.count = s.posture.count ∧ t.posture.refSource = s.posture.refSource ∧ t.posture.slips = s.posture.slips ∧
       (t.posture.checked = true ↔ s.posture.checked = true ∧ ¬ new) ∧ t.mgmt.notices.encoder = s.mgmt.notices.encoder
     let referenced (lid base : Run) (t : State) : Prop :=
       let c := gravityCount lid base
       t.posture.checked = true ∧
       ((∃ n, s.posture.count = some n ∧ n ≤ c + 4 ∧ c ≤ n + 4) →
         t.posture.count = s.posture.count ∧ t.posture.refSource = s.posture.refSource ∧ t.posture.slips = s.posture.slips) ∧
       (¬ (∃ n, s.posture.count = some n ∧ n ≤ c + 4 ∧ c ≤ n + 4) →
         t.posture.count = some c ∧ t.posture.refSource = some .gravity ∧ t.posture.slips = slipped c) ∧
       slipTold .gravity c t
     let evaluates (t : State) : Prop :=
       (t.posture.count ≠ s.posture.count → PostureFollows s t) ∧ (t.posture.count = s.posture.count → postureStays t)
     (∀ x y z : Word16, s.store.state ≠ .starting →
       let new := ¬ continues s.posture.lidRun x.toInt y.toInt z.toInt
       ∃ t lid, exec (.lidMotion x y z false) s = .next (finish t) ∧ t.posture.lidRun = some lid ∧
         taken s.posture.lidRun x.toInt y.toInt z.toInt lid ∧ (t.orient.candidate = s.orient.candidate → evaluates t) ∧
         (s.posture.baseRun = none → stays new t) ∧
         (∀ base, s.posture.baseRun = some base →
           (¬ due new lid base → stays new t) ∧ (due new lid base → referenced lid base t))) ∧
     (∀ (x1 x0 y1 y0 z1 z0 : Byte) (m : Mount), s.store.state ≠ .starting →
       (s.link.state = .ready ∨ s.link.state = .quiet ∧ 0x12#8 ∈ s.att.ident.wakeKinds) → s.att.ident.mount = some m →
       let x := (x1 ++ x0).toInt
       let y := (y1 ++ y0).toInt
       let z := (z1 ++ z0).toInt
       let axes := match m.order with
         | 0 => (x, y, z) | 1 => (x, z, y) | 2 => (y, x, z) | 3 => (y, z, x) | 4 => (z, x, y) | _ => (z, y, x)
       let sign (n : Nat) (v : Int) : Int := if m.signs.testBit n then -v else v
       let cx := sign 0 axes.1
       let cy := sign 1 axes.2.1
       let cz := sign 2 axes.2.2
       let new := ¬ continues s.posture.baseRun cx cy cz
       let payload := [x1, x0, y1, y0, z1, z0]
       ∃ t base, exec (.baseTrafficFrame 0x12#8 payload (crc8 (0x12#8 :: 6#8 :: payload))) s = .next (finish t) ∧
         taken s.posture.baseRun cx cy cz base ∧ evaluates t ∧
         (s.posture.lidRun = none → t.posture.baseRun = some base ∧ stays new t) ∧
         (∀ lid, s.posture.lidRun = some lid →
           (¬ due new base lid → t.posture.baseRun = some base ∧ stays new t) ∧ (due new base lid → referenced lid base t)))) ∧
    (let quarter (r : Run) (k : Nat) : Prop :=
       (r.y = 0 ∧ 0 < r.z ∧ k = 0) ∨ (0 < r.y ∧ r.z = 0 ∧ k = 1) ∨ (r.y = 0 ∧ r.z < 0 ∧ k = 2) ∨ (r.y < 0 ∧ r.z = 0 ∧ k = 3)
     ∀ lid base k j, quarter lid k → quarter base j → gravityCount lid base = 45 * ((2 + k + 4 - j) % 4))

/-- Sampling and the orientation (R109 to R116): the period restarts at the rate's length with a read; a bus error changes nothing of the
two units; a good sample is recorded, with a read in progress or without (log 29), and is flat above 850 mg; a flat sample and one without
direction keep the candidate; another keeps it while its angle, halved and rounded to whole degrees (log 27), lies in the candidate's
widened range, and beyond it gives the quadrant of the angle with the stable time at 0; a new candidate with the motion SETTLED evaluates
the posture in the same change, with its notice and its event, and while MOVING, or with the candidate kept, the orientation unit leaves
the posture alone (R102, R114); the dwell reached makes a candidate current unless the lock is set. The model's choice: the dwell reached
as a command is log 28. -/
def Obligations.SamplesChooseTheCandidate : Prop :=
  ∀ s : State, Running s →
    let length : Nat := match s.poller.rate with | .hz12 => 800 | .hz25 => 400 | .hz50 => 200 | .hz100 => 100
    (s.poller.period.isSome = true →
      exec .samplePeriodExpiry s = .next (finish { s with poller := { s.poller with period := some length, reading := true } })) ∧
    (∀ x y z, s.store.state ≠ .starting →
      ∃ t, exec (.lidMotion x y z true) s = .next (finish t) ∧ t.orient = s.orient ∧ t.posture = s.posture ∧
        t.poller = { s.poller with reading := false } ∧
        t.route.ingress.lidMotion.received = s.route.ingress.lidMotion.received + 1#16) ∧
    (∀ (x y z : Word16), s.store.state ≠ .starting →
      let quadrant : Orientation :=
        if x.toInt.natAbs < y.toInt.natAbs ∨ x.toInt = -y.toInt then
          if 0 < y.toInt then .landscapeInverted else .landscape
        else if 0 < x.toInt then .portrait else .portraitInverted
      ∃ t, exec (.lidMotion x y z false) s = .next (finish t) ∧ t.orient.sample = some (x, y, z) ∧
        t.orient.flat = decide (850 < z.toInt.natAbs) ∧ t.poller = { s.poller with reading := false } ∧
        t.route.ingress.lidMotion.received = s.route.ingress.lidMotion.received + 1#16 ∧
        ((850 < z.toInt.natAbs ∨ x.toInt.natAbs < 200 ∧ y.toInt.natAbs < 200) →
          t.orient.candidate = s.orient.candidate ∧ t.orient.stable = s.orient.stable) ∧
        (z.toInt.natAbs ≤ 850 → (200 ≤ x.toInt.natAbs ∨ 200 ≤ y.toInt.natAbs) →
          let half := halfAngle y.toInt x.toInt
          let widened : Prop := match s.orient.candidate with
            | .landscapeInverted => half ≤ 27 ∨ 153 ≤ half
            | .portrait => 18 ≤ half ∧ half ≤ 72
            | .landscape => 63 ≤ half ∧ half ≤ 117
            | .portraitInverted => 108 ≤ half ∧ half ≤ 162
          (widened → t.orient.candidate = s.orient.candidate ∧ t.orient.stable = s.orient.stable) ∧
          (¬ widened → t.orient.candidate = quadrant ∧ t.orient.stable = 0 ∧ quadrant ≠ s.orient.candidate)) ∧
        (z.toInt.natAbs ≤ 850 → (x.toInt = 0 ∧ 200 ≤ y.toInt.natAbs ∨ y.toInt = 0 ∧ 200 ≤ x.toInt.natAbs) →
          t.orient.candidate = quadrant) ∧
        (s.posture.baseRun = none →
          (s.posture.moving = false → t.orient.candidate ≠ s.orient.candidate → PostureFollows s t) ∧
          (s.posture.moving = true ∨ t.orient.candidate = s.orient.candidate →
            t.posture.posture = s.posture.posture ∧ t.posture.window = s.posture.window ∧
            t.posture.previous = s.posture.previous ∧ t.mgmt.notices.posture = s.mgmt.notices.posture))) ∧
    (∀ (x y z : Word16),
      let u := orientSample x y z s
      (s.posture.moving = false → u.orient.candidate ≠ s.orient.candidate →
        PostureFollows s u ∧
        u.posture = { s.posture with
          posture := u.posture.posture, previous := u.posture.previous, window := u.posture.window } ∧
        u.policy.events = if s.posture.posture = u.posture.posture then []
          else [.postureChanged s.posture.posture u.posture.posture]) ∧
      (s.posture.moving = true ∨ u.orient.candidate = s.orient.candidate →
        u.posture = s.posture ∧ u.mgmt = s.mgmt ∧ u.policy = s.policy)) ∧
    (s.store.state ≠ .starting →
      let u := { s with orient := { s.orient with stable := max s.orient.stable (10 * s.orient.dwell), dwellDue := false } }
      ((s.orient.candidate = s.orient.current ∨ s.orient.lock.isSome = true) → exec .dwellReached s = .next (finish u)) ∧
      (s.orient.candidate ≠ s.orient.current → s.orient.lock = none →
        exec .dwellReached s =
          .next (finish (post (.orientation s.orient.candidate s.orient.current s.orient.candidate s.orient.flat false)
            { u with orient := { u.orient with current := s.orient.candidate, previous := some s.orient.current } }))))

/-! ## Events of the alarms and of the pen -/

/-- The alarms of the outputs (R135 to R139): a raw condition that appears with its output on starts the filter, or with filter time 0 is
detected as an expired filter is; one that goes away stops it, an unlatched cause being detected no more. A detection makes the cause
sticky and told unless masked, with the event SUPPLY-ALARM; a STOP latches it: the rail's link is FAULTED without grant, its requests GONE,
its queue flushed, its timers stopped and a diagnosis that ran ended by it, with ATTACH(FAULTED) and BASE-FAULT (R62, R68), and the pen
re-granted with BUDGET(BASE-RELEASE) (R127, R129); the coil's session in FAULT without grant, told by CHARGE and BUDGET (R147, R133); under
LIMIT the pen steps down below its cap, its session as it was. The model's choice: the order of the two events is log 4, a COIL-OC
condition that stays through a LIMIT is log 25, LIMIT with no pen grant is log 26. -/
def Obligations.AlarmsAreDetectedAndProtected : Prop :=
  ∀ (s : State) (c : OutCause), Running s →
    let a := s.guard.alarms.get (causeOf c)
    let rail : Prop := c = .railOc ∨ c = .railUv
    let on : Bool := match c with | .railOc | .railUv => s.guard.railOn | .coilOc | .coilUv => s.guard.coilOn
    let length : Nat := match c with | .railOc | .coilOc => [0, 2, 10, 40].getD a.choice 0 | .railUv | .coilUv => [0, 5, 20, 80].getD a.choice 0
    let with_ (b : Alarm) : State := { s with guard := { s.guard with alarms := s.guard.alarms.set (causeOf c) b } }
    let told (p : Protection) (t : State) : Prop :=
      (t.guard.alarms.get (causeOf c)).sticky = true ∧ .supplyAlarm (causeOf c) ∈ t.policy.events ∧
      (a.mask = false → s.mgmt.enables.alarm = true → ∃ q g, t.mgmt.notices.alarm = some q ∧ q.notice = .alarm (causeOf c) p g)
    ((on = false ∨ a.raw = true) → exec (.alarmRawAppears c) s = .next (finish s)) ∧
    (on = true → a.raw = false → 0 < length →
      exec (.alarmRawAppears c) s = .next (finish (with_ { a with raw := true, filter := some length }))) ∧
    (on = true → a.raw = false → length = 0 →
      exec (.alarmRawAppears c) s = exec (.filterTimerExpiry c) (with_ { a with raw := true, filter := some 0 })) ∧
    (let u := with_ { a with raw := false, filter := none, detected := a.detected && a.latch }
     exec (.alarmRawClears c) s =
       .next (finish (setInputs { s.policy.inputs with alarm := anyDetected u.guard.alarms } u))) ∧
    (a.filter.isSome = true → a.enabled = false →
      ∃ t, exec (.filterTimerExpiry c) s = .next (finish t) ∧ told .none t ∧
        t.guard = (with_ { a with detected := true, sticky := true, filter := none }).guard ∧ t.policy.inputs.alarm = true) ∧
    (a.filter.isSome = true → a.enabled = true → rail →
      ∃ t, exec (.filterTimerExpiry c) s = .next (finish t) ∧ told .stop t ∧ (t.guard.alarms.get (causeOf c)).latch = true ∧
        (t.guard.alarms.get (causeOf c)).detected = true ∧ t.guard.railOn = false ∧ t.link.state = .faulted ∧
        t.guard.baseGrant = 0 ∧ LinkEnded .faulted s t ∧ t.att.present = s.att.present ∧
        t.policy.events = [.supplyAlarm (causeOf c), .baseFault] ∧ PenFollows (afterRelease s.guard) s t ∧
        BudgetTold .baseRelease s t ∧
        (s.mgmt.enables.attach = true → ∃ p, t.mgmt.notices.attach = some p ∧ p.notice = .attach .faulted)) ∧
    (a.filter.isSome = true → a.enabled = true →
      (c = .coilUv ∨ c = .coilOc ∧ (s.guard.mode = .stop ∨ s.guard.penGrant ∉ [some .fast, some .steady])) →
      s.pen.session ∈ [.detect, .softStart, .charging, .topped] →
      ∃ t, exec (.filterTimerExpiry c) s = .next (finish t) ∧ told .stop t ∧ (t.guard.alarms.get (causeOf c)).latch = true ∧
        (t.guard.alarms.get (causeOf c)).detected = true ∧ t.guard.coilOn = false ∧ t.pen.session = .fault ∧
        t.pen.fault = some .coilLatch ∧ t.guard.penGrant = none ∧ t.guard.claimed = none ∧ t.guard.cap = s.guard.cap ∧
        SessionReleases .fault (some .coilLatch) s t ∧ BudgetTold .penRelease s t) ∧
    (∀ l cap, a.filter.isSome = true → a.enabled = true → c = .coilOc → s.guard.mode = .limit → s.guard.penGrant = some l →
      (l = .fast ∧ cap = .steady ∨ l = .steady ∧ cap = .trickle) → s.guard.claimed = some l →
      s.guard.baseGrant + levelMw l ≤ s.guard.budget → s.pen.session ≠ .paused →
      ∃ t, exec (.filterTimerExpiry c) s = .next (finish t) ∧ told (.limit cap) t ∧ t.guard.alarms.coilOc.latch = a.latch ∧
        t.guard.alarms.coilOc.detected = false ∧ t.guard.cap = some cap ∧ t.guard.penGrant = some cap ∧
        t.guard.claimed = some l ∧ t.pen.session = s.pen.session ∧ SessionStays s t ∧ BudgetTold .limit s t)

/-- Over-temperature (R140, R134): both outputs are off while it is detected, every grant, the claimed level, the link state and the
session kept; during start-up it is not told; when the die has cooled each output comes back as its other conditions allow. The model's
choice: the grant that its notice carries is log 24. -/
def Obligations.OverTemperatureStopsTheOutputs : Prop :=
  ∀ s : State, Running s →
    let kept (t : State) : Prop :=
      t.guard.baseGrant = s.guard.baseGrant ∧ t.guard.penGrant = s.guard.penGrant ∧ t.guard.claimed = s.guard.claimed ∧
      t.link = s.link ∧ t.pen.session = s.pen.session
    (s.guard.alarms.dieOt.raw = true → exec .dieOtDetected s = .next (finish s)) ∧
    (s.guard.alarms.dieOt.raw = false →
      ∃ t, exec .dieOtDetected s = .next (finish t) ∧ kept t ∧ t.guard.alarms.dieOt.raw = true ∧
        t.guard.alarms.dieOt.detected = true ∧ t.guard.alarms.dieOt.sticky = true ∧ t.guard.railOn = false ∧
        t.guard.coilOn = false ∧ t.policy.inputs.alarm = true ∧
        (s.store.state = .starting → t.mgmt = s.mgmt ∧ t.policy.events = []) ∧
        (s.store.state ≠ .starting → t.policy.events = [.supplyAlarm .dieOt] ∧
          (s.guard.alarms.dieOt.mask = false → s.mgmt.enables.alarm = true →
            ∃ q, t.mgmt.notices.alarm = some q ∧ q.notice = .alarm .dieOt .off .noOutput))) ∧
    (∃ t, exec .dieOtCleared s = .next (finish t) ∧ kept t ∧ t.guard.alarms.dieOt.raw = false ∧
      t.guard.alarms.dieOt.detected = false ∧ t.guard.alarms.dieOt.sticky = s.guard.alarms.dieOt.sticky ∧
      t.guard.railOn = (s.att.present && s.guard.baseGrant != 0 && !railLatched s) ∧
      t.guard.coilOn = (s.guard.penGrant.isSome && drawing s.pen.session && !coilLatched s) ∧ t.mgmt = s.mgmt ∧
      t.policy.events = [])

/-- The dock switch (R148, R149, R151): in NO-PEN an assertion is debounced for 100 ms, and its expiry goes to FAULT with the coil's latch
set, to HELD with a hold, else to DETECT with TRICKLE granted, or to PAUSED without room; a release ends the session in every state, hold,
requested level, battery and count kept, with PEN-REMOVED. Each change of session posts CHARGE and moves the indicator input (R147), its
claim or release posts BUDGET (R133). -/
def Obligations.DockOpensAndEndsASession : Prop :=
  ∀ s : State, Running s →
    let asserted : State := { s with pins := { s.pins with dock := true } }
    let released : State := { s with pins := { s.pins with dock := false }, pen := { s.pen with debounce := none } }
    (s.pins.dock = true → exec .dockSwitchAssert s = .next (finish s)) ∧
    (s.pins.dock = false → (s.store.state = .starting ∨ s.pen.session ≠ .noPen) →
      exec .dockSwitchAssert s = .next (finish asserted)) ∧
    (s.pins.dock = false → s.store.state ≠ .starting → s.pen.session = .noPen →
      exec .dockSwitchAssert s = .next (finish { asserted with pen := { s.pen with debounce := some 1000 } })) ∧
    (s.pen.debounce.isSome = true → s.pen.session ≠ .noPen →
      exec .dockDebounceExpiry s = .next (finish { s with pen := { s.pen with debounce := none } })) ∧
    (s.pen.debounce.isSome = true → s.pen.session = .noPen →
      ∃ t, exec .dockDebounceExpiry s = .next (finish t) ∧ t.pen.debounce = none ∧
        (coilLatched s = true → t.pen.session = .fault ∧ t.pen.fault = some .coilLatch ∧ t.guard.coilOn = false ∧
          SessionReleases .fault (some .coilLatch) s t ∧ BudgetTold .penRelease s t) ∧
        (coilLatched s = false → s.pen.hold.isSome = true → t.pen.session = .held ∧ t.guard.coilOn = false ∧
          SessionReleases .held none s t ∧ BudgetTold .penRelease s t) ∧
        (coilLatched s = false → s.pen.hold = none → SessionClaims .detect .trickle s t ∧ BudgetTold .penClaim s t) ∧
        (coilLatched s = false → s.pen.hold = none → levelMw .trickle + s.guard.baseGrant ≤ s.guard.budget →
          t.pen.session = .detect ∧ t.guard.penGrant = some .trickle ∧ t.guard.claimed = some .trickle) ∧
        (coilLatched s = false → s.pen.hold = none → s.guard.budget < levelMw .trickle + s.guard.baseGrant →
          t.pen.session = .paused ∧ t.guard.penGrant = none ∧ t.guard.claimed = some .trickle ∧ t.guard.coilOn = false)) ∧
    (s.pins.dock = false → exec .penRemoval s = .next (finish s)) ∧
    (s.pins.dock = true → s.pen.session = .noPen → exec .penRemoval s = .next (finish released)) ∧
    (s.pins.dock = true → s.pen.session ≠ .noPen →
      ∃ t, exec .penRemoval s = .next (finish t) ∧ t.pins = released.pins ∧
        t.pen = { s.pen with
          session := .noPen, fault := none, docked := false, debounce := none, detect := none, ramp := none, silence := none } ∧
        t.guard.penGrant = none ∧ t.guard.claimed = none ∧ t.guard.coilOn = false ∧ t.guard.baseGrant = s.guard.baseGrant ∧
        t.sleep.holds.chargeStarting = false ∧ t.policy.events = [.penRemoved] ∧
        SessionReleases .noPen none s t ∧ BudgetTold .penRelease s t)

/-- The pen's statuses and timers (R150 to R157): a status that is damaged, not 3 bytes or above 100 % changes nothing of the session; a
taken one is recorded and acted on by the session's state: an answer in DETECT docks the pen, counts a new one, and goes to FAULT, to
TOPPED, under a hold to HELD, or to SOFT-START with the highest level granted that fits below the cap, PAUSED without room (R151, R156,
R158); SOFT-START, CHARGING and TOPPED end or go on by the status (R153 to R155). Each change of session is told by CHARGE and the
indicator input (R147, R183), its claim or release by BUDGET (R133). The detect window ends in FOREIGN or FAULT by the docked mark, the
ramp in CHARGING, the silence in FAULT. The pen's first docking posts PEN-DOCKED and every entry to TOPPED CHARGE-DONE, taken in that order
by the policy table in the same change; the whole command is stated for a table without entries on the two. The model's choice: a status
with no read outstanding is log 29. -/
def Obligations.StatusesMoveTheSession : Prop :=
  ∀ s : State, Running s →
    let acted (p r : Byte) (t : State) : Prop :=
      let full := p.toNat = 100 ∨ r.getLsbD 0 = true
      let bad := r.getLsbD 1 = true
      let kept (silence : Timer) : Prop :=
        t.pen = { s.pen with battery := some p.toNat, silence := silence } ∧ t.guard = s.guard ∧ SessionStays s t
      t.pen.battery = some p.toNat ∧ t.guard.baseGrant = s.guard.baseGrant ∧ t.guard.cap = s.guard.cap ∧
      t.guard.profiles = s.guard.profiles ∧ t.guard.active = s.guard.active ∧
      (s.pen.session ∈ [.noPen, .foreign, .paused, .held, .fault] ∨ s.pen.session = .detect ∧ s.pen.detect = none →
        kept s.pen.silence) ∧
      (s.pen.session = .detect → s.pen.detect.isSome = true →
        let docked : State := { s with pen := { s.pen with docked := true } }
        t.pen.docked = true ∧ t.pen.detect = none ∧
        t.pen.count = (if s.pen.docked = true then s.pen.count else s.pen.count + 1#16) ∧
        (bad → SessionReleases .fault (some .penReported) s t ∧ BudgetTold .penRelease s t) ∧
        (¬ bad → full → t.pen.session = .topped ∧ t.guard.claimed = s.guard.claimed ∧ t.guard.penGrant = s.guard.penGrant ∧
          t.sleep.holds.chargeStarting = false ∧ SessionTold .detect s t) ∧
        (¬ bad → ¬ full → s.pen.hold.isSome = true → SessionReleases .held none s t ∧ BudgetTold .penRelease s t) ∧
        (¬ bad → ¬ full → s.pen.hold = none → SessionClaims .softStart s.pen.requested docked t ∧ BudgetTold .penClaim s t) ∧
        (¬ bad → ¬ full → s.pen.hold = none → s.guard.cap = none →
          levelMw s.pen.requested + s.guard.baseGrant ≤ s.guard.budget →
          t.pen.session = .softStart ∧ t.guard.penGrant = some s.pen.requested ∧ t.sleep.holds.chargeStarting = true)) ∧
      (s.pen.session ∈ [.softStart, .charging] →
        (bad → SessionReleases .fault (some .penReported) s t ∧ BudgetTold .penRelease s t) ∧
        (¬ bad → full → SessionClaims .topped .trickle s t ∧ BudgetTold .penClaim s t) ∧
        (¬ bad → full → levelMw .trickle + s.guard.baseGrant ≤ s.guard.budget →
          t.pen.session = .topped ∧ t.guard.penGrant = some .trickle ∧ t.sleep.holds.chargeStarting = false)) ∧
      (s.pen.session = .softStart → ¬ bad → ¬ full → kept s.pen.silence) ∧
      (s.pen.session = .charging → ¬ bad → ¬ full → kept (if s.guard.coilOn = true then some 20000 else s.pen.silence)) ∧
      (s.pen.session = .topped →
        (bad → SessionReleases .fault (some .penReported) s t ∧ BudgetTold .penRelease s t) ∧
        (¬ bad → p.toNat ≤ 92 → r.getLsbD 0 = false → SessionClaims .charging s.pen.requested s t ∧ BudgetTold .penClaim s t) ∧
        (¬ bad → p.toNat ≤ 92 → r.getLsbD 0 = false → s.guard.cap = none →
          levelMw s.pen.requested + s.guard.baseGrant ≤ s.guard.budget →
          t.pen.session = .charging ∧ t.guard.penGrant = some s.pen.requested) ∧
        (¬ bad → (92 < p.toNat ∨ r.getLsbD 0 = true) → kept (if s.guard.coilOn = true then some 20000 else s.pen.silence)))
    (∀ payload damaged, s.store.state ≠ .starting →
      (damaged = true ∨ ∀ p q r, payload = [p, q, r] → 100 < p.toNat) →
      ∃ t, exec (.penStatus payload damaged) s = .next (finish t) ∧ t.pen = s.pen ∧ t.guard = s.guard ∧ SessionStays s t) ∧
    (∀ (p q r : Byte), p.toNat ≤ 100 →
      let u := penStatusTap [p, q, r] s
      let answers : Prop := s.pen.session = .detect ∧ s.pen.detect.isSome = true
      let tops : Prop :=
        (answers ∨ s.pen.session ∈ [.softStart, .charging]) ∧ r.getLsbD 1 = false ∧ (p.toNat = 100 ∨ r.getLsbD 0 = true)
      acted p r u ∧
        u.policy.events =
          (if answers ∧ s.pen.docked = false then [.penDocked] else []) ++ (if tops then [.chargeDone] else []) ∧
        tapFrame .penStatus [p, q, r] s =
          u.policy.events.foldl (fun v e => takeEvent e v) { u with policy := { u.policy with events := [] } } ∧
        (s.store.state ≠ .starting → (∀ e ∈ s.policy.table, e.valid = true → e.event ≠ .penDocked ∧ e.event ≠ .chargeDone) →
          ∃ t, exec (.penStatus [p, q, r] false) s = .next (finish t) ∧ acted p r t)) ∧
    (s.pen.detect.isSome = true →
      (s.pen.docked = true →
        ∃ t, exec .detectWindowExpiry s = .next (finish t) ∧ SessionReleases .fault (some .penSilent) s t ∧ BudgetTold .penRelease s t) ∧
      (s.pen.docked = false →
        ∃ t, exec .detectWindowExpiry s = .next (finish t) ∧ SessionReleases .foreign none s t ∧ BudgetTold .penRelease s t)) ∧
    (s.pen.ramp.isSome = true → s.pen.session = .softStart → s.guard.coilOn = true → OutputsFollow s →
      ∃ t, exec .rampTimerExpiry s = .next (finish t) ∧ t.pen.session = .charging ∧ t.pen.ramp = none ∧
        t.pen.silence = some 20000 ∧ t.sleep.holds.chargeStarting = false ∧ t.guard.penGrant = s.guard.penGrant ∧
        t.guard.claimed = s.guard.claimed ∧ t.guard.coilOn = true ∧ SessionTold .softStart s t) ∧
    (s.pen.silence.isSome = true →
      ∃ t, exec .silenceTimerExpiry s = .next (finish t) ∧ SessionReleases .fault (some .penSilent) s t ∧ BudgetTold .penRelease s t)

/-! ## Events of the sleep controller and of the indicator lines -/

/-- The timers of the sleep controller and of the two lines (R173, R175, R178, R179, R184): the grace ends in the question, or with a
hold-off present in the expired mark; the confirm window ends AWAKE, abandoned; the wake line is pulsed four times and then held; a blink
phase turns its line over, a stretch ends with the input's level. The claims (R171, R172, R175, R178, R182): SLEEP-BEGIN begins a grace
from AWAKE alone, one of 0 expiring at once; SLEEP-CANCEL and wake claims end a grace or withdraw the question; in ASLEEP and WAKING a wake
claim records its reason, and from ASLEEP pulses the wake line. The removal of the last hold-off ends an expired grace (R173). The model's
choice: the first-seen time of a wake reason rounded down to ms is log 57. -/
def Obligations.SleepAndIndicatorTimersRun : Prop :=
  ∀ s : State, Running s →
    (s.sleep.grace.isSome = true → s.sleep.holds = ⟨false, false, false, false, false⟩ →
      exec .graceTimerExpiry s =
        .next (finish (post (.sleep .ask .sleepAsked)
          { s with sleep := { s.sleep with power := .sleepAsked, grace := none, expired := false, confirm := some 50000 } }))) ∧
    (s.sleep.grace.isSome = true → s.sleep.holds ≠ ⟨false, false, false, false, false⟩ →
      exec .graceTimerExpiry s = .next (finish { s with sleep := { s.sleep with grace := none, expired := true } })) ∧
    (s.sleep.confirm.isSome = true →
      exec .confirmWindowExpiry s =
        .next (finish (post (.sleep .abandoned .awake) { s with sleep := { s.sleep with power := .awake, confirm := none } }))) ∧
    (s.sleep.pulse.isSome = true →
      exec .wakePulseEnd s = .next (finish { s with sleep := { s.sleep with pulse := none, wakeLine := .released } })) ∧
    (s.sleep.wakeWindow.isSome = true → s.sleep.pulses < 4 →
      exec .wakeWindowExpiry s =
        .next (finish { s with sleep := { s.sleep with
          wakeLine := .pulsing, pulse := some 100, wakeWindow := some 10000, pulses := s.sleep.pulses + 1 } })) ∧
    (s.sleep.wakeWindow.isSome = true → 4 ≤ s.sleep.pulses →
      exec .wakeWindowExpiry s =
        .next (finish { s with sleep := { s.sleep with wakeWindow := none, pulse := none, wakeLine := .held } })) ∧
    (let turned (l : Line) : Line := if l.blink.isSome then { l with output := !l.output, blink := some 2500 } else l
     exec (.blinkPhaseExpiry .line1) s = .next (finish { s with policy := { s.policy with line1 := turned s.policy.line1 } }) ∧
     exec (.blinkPhaseExpiry .line2) s = .next (finish { s with policy := { s.policy with line2 := turned s.policy.line2 } })) ∧
    (let ended (l : Line) : Line :=
       if l.stretch.isSome then { l with output := l.output && s.policy.inputs.level l.source, stretch := none } else l
     exec (.stretchTimerExpiry .line1) s = .next (finish { s with policy := { s.policy with line1 := ended s.policy.line1 } }) ∧
     exec (.stretchTimerExpiry .line2) s = .next (finish { s with policy := { s.policy with line2 := ended s.policy.line2 } })) ∧
    (let none5 : HoldSet := ⟨false, false, false, false, false⟩
     let asked : State :=
       post (.sleep .ask .sleepAsked)
         { s with sleep := { s.sleep with power := .sleepAsked, grace := none, expired := false, confirm := some 50000 } }
     let awake : State := { s with sleep := { s.sleep with power := .awake, grace := none, expired := false } }
     let withdrawn (w : Withdrawal) : State :=
       post (.sleep (.withdrawn w) .awake) { s with sleep := { s.sleep with power := .awake, confirm := none } }
     let recorded (k : WakeKind) : Sleep :=
       let l := s.sleep.reasons
       let seen := min ((s.now - s.sleep.asleepAt.getD s.now) / 10) 4294967295
       if ∃ r ∈ l, r.kind = k then
         { s.sleep with reasons := l.map (fun r => if r.kind = k then { r with count := satInc r.count } else r) }
       else if l.length < 6 then { s.sleep with reasons := l ++ [⟨k, 1#8, seen⟩] }
       else { s.sleep with overflow := true }
     let wakes (k : WakeKind) (w : Withdrawal) (t : State) : Prop :=
       (s.sleep.power = .awake → t = s) ∧ (s.sleep.power = .grace → t = awake) ∧ (s.sleep.power = .sleepAsked → t = withdrawn w) ∧
       (s.sleep.power = .asleep →
         t = { s with sleep := { recorded k with
           power := .waking, pulses := 1, wakeLine := .pulsing, pulse := some 100, wakeWindow := some 10000 } }) ∧
       (s.sleep.power = .waking → t = { s with sleep := recorded k })
     (∀ ev,
       (s.sleep.power ≠ .awake → issueClaim ev .sleepBegin s = s) ∧
       (s.sleep.power = .awake →
         (s.sleep.graceTime ≠ 0 →
           issueClaim ev .sleepBegin s =
             { s with sleep := { s.sleep with power := .grace, expired := false, grace := some (10 * s.sleep.graceTime) } }) ∧
         (s.sleep.graceTime = 0 → s.sleep.holds = none5 → issueClaim ev .sleepBegin s = asked) ∧
         (s.sleep.graceTime = 0 → s.sleep.holds ≠ none5 →
           issueClaim ev .sleepBegin s = { s with sleep := { s.sleep with power := .grace, grace := none, expired := true } })) ∧
       (s.sleep.power = .grace → issueClaim ev .sleepCancel s = awake) ∧
       (s.sleep.power = .sleepAsked → issueClaim ev .sleepCancel s = withdrawn .sleepCancel) ∧
       (s.sleep.power ∉ [.grace, .sleepAsked] → issueClaim ev .sleepCancel s = s) ∧
       wakes (.event ev.kind) (.wake ev.kind) (issueClaim ev .wake s)) ∧
     (∀ src, wakes (.frame src) (.frame src) (wakeClaim (.frame src) s)) ∧
     (∀ r,
       let left := s.sleep.holds.put r false
       (s.sleep.holds.has r = true → left = none5 → s.sleep.power = .grace → s.sleep.expired = true →
         removeHold r s =
           post (.sleep .ask .sleepAsked) { s with sleep := { s.sleep with
             holds := none5, power := .sleepAsked, grace := none, expired := false, confirm := some 50000 } }) ∧
       ((s.sleep.holds.has r = false ∨ left ≠ none5 ∨ s.sleep.power ≠ .grace ∨ s.sleep.expired = false) →
         removeHold r s = { s with sleep := { s.sleep with holds := left } })) ∧
     (s.store.state = .erasing → s.store.exchange.isSome = true → s.mgmt.restart = .none → s.sleep.power = .grace →
       s.sleep.expired = true → s.sleep.holds = { none5 with storeBusy := true } →
       ∃ t, exec .storeExchangeUnanswered s = .next (finish t) ∧ t.store.state = .idle ∧
         t.sleep = { s.sleep with
           holds := none5, power := .sleepAsked, grace := none, expired := false, confirm := some 50000 }))

/-! ## Invariants -/

/-- Right after reset every invariant of the statements below holds. -/
def Obligations.ResetMeetsEveryInvariant : Prop :=
  let r := State.reset
  Memory.wf r.store.eeprom = true ∧ Dormant r ∧ GrantsFit r ∧ OutputsFollow r ∧ AlarmsHold r ∧ LinkHolds r ∧ PoolHolds r ∧ TableHolds r ∧
    PostureHolds r ∧ SleepHolds r ∧ r.policy.events = []

/-- Every step keeps the contents of the external store in their one canonical form: addresses strictly rising, no cell equal to what an
unlisted address reads as. The model's choice: the store as cells is log 12. -/
def Obligations.EveryStepKeepsTheStoreCanonical : Prop := EveryStepKeeps (fun s => Memory.wf s.store.eeprom = true)

/-- Every step keeps the two grants within the budget, the pen grant at or below the claimed level and the cap (R125), with start-up quiet. -/
def Obligations.EveryStepKeepsTheGrantsInTheBudget : Prop := EveryStepKeeps (fun s => Dormant s ∧ GrantsFit s)

/-- Every step keeps each output on exactly while all its conditions hold (R134), and off in reset (R209). -/
def Obligations.EveryStepKeepsTheOutputsToTheirConditions : Prop := EveryStepKeeps OutputsFollow

/-- Every step keeps each latched cause detected, each detected cause sticky, a latched output off and an output that is off without raw
condition and filter (R135 to R137, R141). -/
def Obligations.EveryStepKeepsTheAlarmRecords : Prop := EveryStepKeeps AlarmsHold

/-- Every step keeps each timer of the hinge link to its state, and a rate to the states that have one: a frame on the line and a keep-alive
that is due to READY, a QUIET that waits to an open keep-alive window, with start-up quiet. -/
def Obligations.EveryStepKeepsTheLinkTimersToTheirStates : Prop := EveryStepKeeps (fun s => Dormant s ∧ LinkHolds s)

/-- Every step keeps the slot pool whole: the shares in range, each queue within its share, no slot in two frames (R11, R13), with start-up
quiet. -/
def Obligations.EveryStepKeepsTheSlotPoolWhole : Prop := EveryStepKeeps (fun s => Dormant s ∧ PoolHolds s)

/-- Every step keeps the conditions of the Pending Request Table (R70), an entry that is not DONE below 32 attempts (R79), with start-up
quiet and the link's timers in their states. -/
def Obligations.EveryStepKeepsTheRequestTable : Prop := EveryStepKeeps (fun s => Dormant s ∧ LinkHolds s ∧ TableHolds s)

/-- Every step keeps the posture SLATE exactly while the base is absent, and CLOSED exactly while it is present with the lid switch
asserted (R103). Every step takes all the policy events of its change, so none is left for the next, as the statements above suppose; that
they are all taken within the change is the model's choice, log 4. -/
def Obligations.EveryStepKeepsThePosture : Prop :=
  EveryStepKeeps PostureHolds ∧ EveryStepKeeps (fun s => s.policy.events = [])

/-- Every step keeps the Wake Reason List short, without repetition and empty while the host listens, each sleep timer in its state
(R171 to R182), and the uplink silent but for replies while the host sleeps (R9). -/
def Obligations.EveryStepKeepsTheSleepRecords : Prop := EveryStepKeeps SleepHolds

end
end

