-- ==== Sys2Proof/Laws/Policy.lean ====
section
/-! SUPPORT. What the policy engine makes of an event: the reduction of the gathered actions to one for each switch, and the claims
(R167). -/
namespace Sys2Proof.Machine

/-- The reduction only takes actions away. -/
theorem reduceActions_sublist (l : List PolicyAction) : (reduceActions l).Sublist l := by
  induction l with
  | nil => exact List.Sublist.refl _
  | cons a r ih =>
    rw [reduceActions]; split
    · exact ih.cons a
    · exact ih.cons_cons a

/-- Every action that sets no switch stands. -/
theorem reduceActions_free (l : List PolicyAction) :
    (reduceActions l).filter (fun a => (switchOf a).isNone) = l.filter (fun a => (switchOf a).isNone) := by
  induction l with
  | nil => rfl
  | cons a r ih =>
    rw [reduceActions]; split
    · rename_i h
      have : (switchOf a).isNone = false := by
        simp only [overridden, Bool.and_eq_true] at h; cases hs : switchOf a <;> simp_all
      rw [List.filter_cons_of_neg (by simp [this]), ih]
    · cases hs : (switchOf a).isNone
      · rw [List.filter_cons_of_neg (by simp [hs]), List.filter_cons_of_neg (by simp [hs]), ih]
      · rw [List.filter_cons_of_pos (by simp [hs]), List.filter_cons_of_pos (by simp [hs]), ih]

/-- Of the actions of one switch the last gathered stands. -/
theorem reduceActions_switch (w : Switch) (l : List PolicyAction) :
    (reduceActions l).filter (fun a => switchOf a == some w) =
      (l.filter (fun a => switchOf a == some w)).getLast?.toList := by
  induction l with
  | nil => rfl
  | cons a r ih =>
    rw [reduceActions]
    by_cases hs : switchOf a = some w
    · rw [List.filter_cons_of_pos (l := r) (by simp [hs])]
      split
      · rename_i h
        rw [ih]
        simp only [overridden, Bool.and_eq_true, List.any_eq_true] at h
        obtain ⟨_, b, hb, hbs⟩ := h
        have hne : r.filter (fun a => switchOf a == some w) ≠ [] := by
          intro he
          have : b ∈ r.filter (fun a => switchOf a == some w) := by
            rw [List.mem_filter]; exact ⟨hb, by rw [← hs]; exact hbs⟩
          rw [he] at this; exact absurd this (by simp)
        obtain ⟨x, m, hx⟩ : ∃ x m, r.filter (fun a => switchOf a == some w) = x :: m := List.exists_cons_of_ne_nil hne
        rw [hx, List.getLast?_cons_cons]
      · rename_i h
        rw [List.filter_cons_of_pos (by simp [hs]), ih]
        have : r.filter (fun a => switchOf a == some w) = [] := by
          rw [List.filter_eq_nil_iff]
          intro b hb hc
          apply h
          simp only [overridden, Bool.and_eq_true, List.any_eq_true]
          exact ⟨by simp [hs], b, hb, by rw [hs]; exact hc⟩
        rw [this]; rfl
    · rw [List.filter_cons_of_neg (l := r) (by simp [hs])]
      split
      · exact ih
      · rw [List.filter_cons_of_neg (by simp [hs])]; exact ih

/-- An event that no entry matches gives no claim. -/
theorem takeEvent_unmatched (ev : PolicyEvent) (s : State) (h : ∀ e ∈ s.policy.table, policyMatches ev s e = false) :
    takeEvent ev s = s := by
  have : s.policy.table.filter (policyMatches ev s) = [] := by
    rw [List.filter_eq_nil_iff]; intro e he; simp [h e he]
  simp [takeEvent, actionsFor, this, reduceActions]

end Sys2Proof.Machine
end

