-- ==== Sys2Proof/Laws/Change.lean ====
section
/-! SUPPORT. What the end of a change does, what running a command's own effect is, and what the arrival of a request is when the management
engine is IDLE. -/
namespace Sys2Proof.Machine

/-- Outside reset a command is its own effect with the end of the change. -/
theorem run_of (s : State) (f : State → State) (h : s.held = false) : run f s = finish (f s) := by simp [run, h]

/-- Outside reset a change of a pin is its own effect with the end of the change. -/
theorem runPin_of (s : State) (p : Pins → Pins) (f : State → State) (h : s.held = false) : runPin p f s = finish (f s) := by
  simp [runPin, h]

/-- With no event posted the policy engine does nothing. -/
theorem drainEvents_none (s : State) (h : s.policy.events = []) : drainEvents s = s := by
  obtain ⟨⟩ := s; rename_i p _ _ _; obtain ⟨⟩ := p; simp_all [drainEvents]

/-- With no event posted the end of a change is the transmitters' next choice. -/
theorem finish_settled (s : State) (h : s.policy.events = []) : finish s = startTransmit (kickHinge s) := by
  rw [finish, drainEvents_none s h]

/-- The uplink transmitter's choice changes the sending and the notice set alone. -/
theorem startTransmit_eq (s : State) :
    startTransmit s =
      { s with tx := (startTransmit s).tx, mgmt := { s.mgmt with notices := (startTransmit s).mgmt.notices } } := by
  unfold startTransmit; (repeat' split) <;> rfl

/-- The hinge link transmitter's choice changes its mark and the wake time alone. -/
theorem kickHinge_eq (s : State) :
    kickHinge s =
      { s with pool := { s.pool with hingeBusy := (kickHinge s).pool.hingeBusy }
               link := { s.link with wake := (kickHinge s).link.wake } } := by
  unfold kickHinge; (repeat' split) <;> rfl

/-- An IDLE engine with nothing waiting takes a request as it arrives (R189). -/
theorem request_taken (s : State) (q : Request) (h : Attentive s) (hq : q ≠ .restart) :
    requestArrives q s =
      reply (requestCode q) (ownerAnswer q s).status (ownerAnswer q s).content (ownerAnswer q s).after := by
  obtain ⟨⟨hh, he⟩, hst, hi, hho, hr⟩ := h
  obtain ⟨⟩ := s; rename_i m st; obtain ⟨⟩ := m
  subst hi
  simp_all [requestArrives, engineTakes, takeRequest]

/-- A request command, its request and its owner's answer give the reply. -/
theorem replies_of {c : Instr} {q : Request} {s t : State} {st : Status} {content : List Byte} (h : Attentive s)
    (hc : exec c s = .next (run (requestArrives q) s)) (hq : q ≠ .restart) (ha : ownerAnswer q s = ⟨t, st, content⟩) :
    Replies c s (requestCode q) st content t := by
  rw [Replies, hc, run_of _ _ h.1.1, request_taken s q h hq, ha]; rfl

end Sys2Proof.Machine
end

