-- ==== Sys2Proof/Laws/State.lean ====
section
/-! SUPPORT. Frames: for each operation that changes the state, the records of State it leaves as they were, as @[simp] equations, so
that no proof unfolds a record update. The groups keep the statements short. This file holds the operations of Machine/Ops.lean. -/
namespace Sys2Proof.Machine
set_option linter.all false

/-- Nothing of the model's own fields, the generic profile and the store changes. -/
@[reducible] def KeepsWorld (t s : State) : Prop :=
  t.pending = s.pending ∧ t.now = s.now ∧ t.fresh = s.fresh ∧ t.held = s.held ∧ t.generic = s.generic ∧ t.store = s.store

/-- Nothing of the pins, the receiver, the uplink errors and the poller changes. -/
@[reducible] def KeepsPort (t s : State) : Prop :=
  t.pins = s.pins ∧ t.rx = s.rx ∧ t.uplinkErrors = s.uplinkErrors ∧ t.poller = s.poller

/-- Nothing of the transmitter, the slot pool and the route engine changes. -/
@[reducible] def KeepsTraffic (t s : State) : Prop :=
  t.tx = s.tx ∧ t.pool = s.pool ∧ t.route = s.route

/-- Nothing of the link, the attachment and the issuer changes. -/
@[reducible] def KeepsBase (t s : State) : Prop :=
  t.link = s.link ∧ t.att = s.att ∧ t.issuer = s.issuer

/-- Nothing of the posture and orientation units changes. -/
@[reducible] def KeepsHinge (t s : State) : Prop :=
  t.posture = s.posture ∧ t.orient = s.orient

/-- Nothing of the guard and the pen charger changes. -/
@[reducible] def KeepsPower (t s : State) : Prop :=
  t.guard = s.guard ∧ t.pen = s.pen

/-- Nothing of the policy engine, the sleep controller and the management engine changes. -/
@[reducible] def KeepsHost (t s : State) : Prop :=
  t.policy = s.policy ∧ t.sleep = s.sleep ∧ t.mgmt = s.mgmt

/-- What a step of a fold keeps, the fold keeps. -/
theorem foldl_keeps {α β γ : Type} (f : β → α → β) (g : β → γ) (h : ∀ b a, g (f b a) = g b) (l : List α) (b : β) :
    g (l.foldl f b) = g b := by
  induction l generalizing b with
  | nil => rfl
  | cons a r ih => rw [List.foldl_cons, ih, h]

@[simp] theorem post_frame (n : Notice) (s : State) :
    KeepsWorld (post n s) s ∧ KeepsPort (post n s) s ∧ KeepsTraffic (post n s) s ∧ KeepsBase (post n s) s ∧
    KeepsHinge (post n s) s ∧ KeepsPower (post n s) s ∧ (post n s).policy = s.policy ∧ (post n s).sleep = s.sleep := by
  unfold post; simp only [KeepsWorld, KeepsPort, KeepsTraffic, KeepsBase, KeepsHinge, KeepsPower]; (repeat' split) <;> first | done | (simp; done) | (simp_all; done) | rfl

@[simp] theorem returnNotice_frame (p : Pending) (s : State) :
    KeepsWorld (returnNotice p s) s ∧ KeepsPort (returnNotice p s) s ∧ KeepsTraffic (returnNotice p s) s ∧
    KeepsBase (returnNotice p s) s ∧ KeepsHinge (returnNotice p s) s ∧ KeepsPower (returnNotice p s) s ∧
    (returnNotice p s).policy = s.policy ∧ (returnNotice p s).sleep = s.sleep := by
  unfold returnNotice; simp only [KeepsWorld, KeepsPort, KeepsTraffic, KeepsBase, KeepsHinge, KeepsPower]; (repeat' split) <;> first | done | (simp; done) | (simp_all; done) | rfl

@[simp] theorem cutOff_frame (s : State) :
    KeepsWorld (cutOff s) s ∧ KeepsPort (cutOff s) s ∧ KeepsBase (cutOff s) s ∧ KeepsHinge (cutOff s) s ∧
    KeepsPower (cutOff s) s ∧ (cutOff s).pool = s.pool ∧ (cutOff s).route = s.route ∧ (cutOff s).policy = s.policy ∧
    (cutOff s).sleep = s.sleep := by
  unfold cutOff; simp only [KeepsWorld, KeepsPort, KeepsBase, KeepsHinge, KeepsPower]; (repeat' split) <;> first | done | (simp; done) | (simp_all; done) | rfl

@[simp] theorem startTransmit_frame (s : State) :
    KeepsWorld (startTransmit s) s ∧ KeepsPort (startTransmit s) s ∧ KeepsBase (startTransmit s) s ∧
    KeepsHinge (startTransmit s) s ∧ KeepsPower (startTransmit s) s ∧ (startTransmit s).pool = s.pool ∧
    (startTransmit s).route = s.route ∧ (startTransmit s).policy = s.policy ∧ (startTransmit s).sleep = s.sleep := by
  unfold startTransmit; simp only [KeepsWorld, KeepsPort, KeepsBase, KeepsHinge, KeepsPower]; (repeat' split) <;> first | done | (simp; done) | (simp_all; done) | rfl

@[simp] theorem postEvent_frame (e : PolicyEvent) (s : State) :
    KeepsWorld (postEvent e s) s ∧ KeepsPort (postEvent e s) s ∧ KeepsTraffic (postEvent e s) s ∧
    KeepsBase (postEvent e s) s ∧ KeepsHinge (postEvent e s) s ∧ KeepsPower (postEvent e s) s ∧
    (postEvent e s).sleep = s.sleep ∧ (postEvent e s).mgmt = s.mgmt := by
  unfold postEvent; simp only [KeepsWorld, KeepsPort, KeepsTraffic, KeepsBase, KeepsHinge, KeepsPower]; (repeat' split) <;> first | done | (simp; done) | (simp_all; done) | rfl

@[simp] theorem postSleep_frame (c : SleepCause) (s : State) :
    KeepsWorld (postSleep c s) s ∧ KeepsPort (postSleep c s) s ∧ KeepsTraffic (postSleep c s) s ∧
    KeepsBase (postSleep c s) s ∧ KeepsHinge (postSleep c s) s ∧ KeepsPower (postSleep c s) s ∧
    (postSleep c s).policy = s.policy ∧ (postSleep c s).sleep = s.sleep := by
  unfold postSleep; simp only [KeepsWorld, KeepsPort, KeepsTraffic, KeepsBase, KeepsHinge, KeepsPower]; (repeat' split) <;> first | done | (simp; done) | (simp_all; done) | rfl

@[simp] theorem sleepAsk_frame (s : State) :
    KeepsWorld (sleepAsk s) s ∧ KeepsPort (sleepAsk s) s ∧ KeepsTraffic (sleepAsk s) s ∧ KeepsBase (sleepAsk s) s ∧
    KeepsHinge (sleepAsk s) s ∧ KeepsPower (sleepAsk s) s ∧ (sleepAsk s).policy = s.policy := by
  unfold sleepAsk; simp only [KeepsWorld, KeepsPort, KeepsTraffic, KeepsBase, KeepsHinge, KeepsPower]; (repeat' split) <;> first | done | (simp; done) | (simp_all; done) | rfl

@[simp] theorem graceExpires_frame (s : State) :
    KeepsWorld (graceExpires s) s ∧ KeepsPort (graceExpires s) s ∧ KeepsTraffic (graceExpires s) s ∧
    KeepsBase (graceExpires s) s ∧ KeepsHinge (graceExpires s) s ∧ KeepsPower (graceExpires s) s ∧
    (graceExpires s).policy = s.policy := by
  unfold graceExpires; simp only [KeepsWorld, KeepsPort, KeepsTraffic, KeepsBase, KeepsHinge, KeepsPower]; (repeat' split) <;> first | done | (simp; done) | (simp_all; done) | rfl

@[simp] theorem addHold_frame (r : Holdoff) (s : State) :
    KeepsWorld (addHold r s) s ∧ KeepsPort (addHold r s) s ∧ KeepsTraffic (addHold r s) s ∧ KeepsBase (addHold r s) s ∧
    KeepsHinge (addHold r s) s ∧ KeepsPower (addHold r s) s ∧ (addHold r s).policy = s.policy ∧
    (addHold r s).mgmt = s.mgmt := by
  unfold addHold; simp only [KeepsWorld, KeepsPort, KeepsTraffic, KeepsBase, KeepsHinge, KeepsPower]; (repeat' split) <;> first | done | (simp; done) | (simp_all; done) | rfl

@[simp] theorem removeHold_frame (r : Holdoff) (s : State) :
    KeepsWorld (removeHold r s) s ∧ KeepsPort (removeHold r s) s ∧ KeepsTraffic (removeHold r s) s ∧
    KeepsBase (removeHold r s) s ∧ KeepsHinge (removeHold r s) s ∧ KeepsPower (removeHold r s) s ∧
    (removeHold r s).policy = s.policy := by
  unfold removeHold; simp only [KeepsWorld, KeepsPort, KeepsTraffic, KeepsBase, KeepsHinge, KeepsPower]; (repeat' split) <;> first | done | (simp; done) | (simp_all; done) | rfl

@[simp] theorem setHold_frame (r : Holdoff) (b : Bool) (s : State) :
    KeepsWorld (setHold r b s) s ∧ KeepsPort (setHold r b s) s ∧ KeepsTraffic (setHold r b s) s ∧
    KeepsBase (setHold r b s) s ∧ KeepsHinge (setHold r b s) s ∧ KeepsPower (setHold r b s) s ∧
    (setHold r b s).policy = s.policy := by
  unfold setHold; simp only [KeepsWorld, KeepsPort, KeepsTraffic, KeepsBase, KeepsHinge, KeepsPower]; (repeat' split) <;> first | done | (simp; done) | (simp_all; done) | rfl

@[simp] theorem sleepBegin_frame (s : State) :
    KeepsWorld (sleepBegin s) s ∧ KeepsPort (sleepBegin s) s ∧ KeepsTraffic (sleepBegin s) s ∧
    KeepsBase (sleepBegin s) s ∧ KeepsHinge (sleepBegin s) s ∧ KeepsPower (sleepBegin s) s ∧
    (sleepBegin s).policy = s.policy := by
  unfold sleepBegin; simp only [KeepsWorld, KeepsPort, KeepsTraffic, KeepsBase, KeepsHinge, KeepsPower]; (repeat' split) <;> first | done | (simp; done) | (simp_all; done) | rfl

@[simp] theorem cancelSleep_frame (w : Withdrawal) (s : State) :
    KeepsWorld (cancelSleep w s) s ∧ KeepsPort (cancelSleep w s) s ∧ KeepsTraffic (cancelSleep w s) s ∧
    KeepsBase (cancelSleep w s) s ∧ KeepsHinge (cancelSleep w s) s ∧ KeepsPower (cancelSleep w s) s ∧
    (cancelSleep w s).policy = s.policy := by
  unfold cancelSleep; simp only [KeepsWorld, KeepsPort, KeepsTraffic, KeepsBase, KeepsHinge, KeepsPower]; (repeat' split) <;> first | done | (simp; done) | (simp_all; done) | rfl

@[simp] theorem recordReason_frame (k : WakeKind) (s : State) :
    KeepsWorld (recordReason k s) s ∧ KeepsPort (recordReason k s) s ∧ KeepsTraffic (recordReason k s) s ∧
    KeepsBase (recordReason k s) s ∧ KeepsHinge (recordReason k s) s ∧ KeepsPower (recordReason k s) s ∧
    (recordReason k s).policy = s.policy ∧ (recordReason k s).mgmt = s.mgmt := by
  unfold recordReason; simp only [KeepsWorld, KeepsPort, KeepsTraffic, KeepsBase, KeepsHinge, KeepsPower]; (repeat' split) <;> first | done | (simp; done) | (simp_all; done) | rfl

@[simp] theorem pulseWakeLine_frame (s : State) :
    KeepsWorld (pulseWakeLine s) s ∧ KeepsPort (pulseWakeLine s) s ∧ KeepsTraffic (pulseWakeLine s) s ∧
    KeepsBase (pulseWakeLine s) s ∧ KeepsHinge (pulseWakeLine s) s ∧ KeepsPower (pulseWakeLine s) s ∧
    (pulseWakeLine s).policy = s.policy ∧ (pulseWakeLine s).mgmt = s.mgmt := by
  unfold pulseWakeLine; simp only [KeepsWorld, KeepsPort, KeepsTraffic, KeepsBase, KeepsHinge, KeepsPower]; (repeat' split) <;> first | done | (simp; done) | (simp_all; done) | rfl

@[simp] theorem wakeClaim_frame (k : WakeKind) (s : State) :
    KeepsWorld (wakeClaim k s) s ∧ KeepsPort (wakeClaim k s) s ∧ KeepsTraffic (wakeClaim k s) s ∧
    KeepsBase (wakeClaim k s) s ∧ KeepsHinge (wakeClaim k s) s ∧ KeepsPower (wakeClaim k s) s ∧
    (wakeClaim k s).policy = s.policy := by
  unfold wakeClaim; simp only [KeepsWorld, KeepsPort, KeepsTraffic, KeepsBase, KeepsHinge, KeepsPower]; (repeat' split) <;> first | done | (simp; done) | (simp_all; done) | rfl

@[simp] theorem enterAsleep_frame (s : State) :
    KeepsWorld (enterAsleep s) s ∧ KeepsPort (enterAsleep s) s ∧ KeepsBase (enterAsleep s) s ∧
    KeepsHinge (enterAsleep s) s ∧ KeepsPower (enterAsleep s) s ∧ (enterAsleep s).pool = s.pool ∧
    (enterAsleep s).route = s.route ∧ (enterAsleep s).policy = s.policy := by
  unfold enterAsleep; simp only [KeepsWorld, KeepsPort, KeepsBase, KeepsHinge, KeepsPower]; (repeat' split) <;> first | done | (simp; done) | (simp_all; done) | rfl

@[simp] theorem setInputs_frame (new : LedInputs) (s : State) :
    KeepsWorld (setInputs new s) s ∧ KeepsPort (setInputs new s) s ∧ KeepsTraffic (setInputs new s) s ∧
    KeepsBase (setInputs new s) s ∧ KeepsHinge (setInputs new s) s ∧ KeepsPower (setInputs new s) s ∧
    (setInputs new s).sleep = s.sleep ∧ (setInputs new s).mgmt = s.mgmt := by
  unfold setInputs; simp only [KeepsWorld, KeepsPort, KeepsTraffic, KeepsBase, KeepsHinge, KeepsPower]; (repeat' split) <;> first | done | (simp; done) | (simp_all; done) | rfl

@[simp] theorem indicate_frame (line : LedLine) (source : LedSource) (pattern : LedPattern) (s : State) :
    KeepsWorld (indicate line source pattern s) s ∧ KeepsPort (indicate line source pattern s) s ∧
    KeepsTraffic (indicate line source pattern s) s ∧ KeepsBase (indicate line source pattern s) s ∧
    KeepsHinge (indicate line source pattern s) s ∧ KeepsPower (indicate line source pattern s) s ∧
    (indicate line source pattern s).sleep = s.sleep ∧ (indicate line source pattern s).mgmt = s.mgmt := by
  unfold indicate; simp only [KeepsWorld, KeepsPort, KeepsTraffic, KeepsBase, KeepsHinge, KeepsPower]; (repeat' split) <;> first | done | (simp; done) | (simp_all; done) | rfl

@[simp] theorem flushDown_frame (s : State) :
    KeepsWorld (flushDown s) s ∧ KeepsPort (flushDown s) s ∧ KeepsBase (flushDown s) s ∧ KeepsHinge (flushDown s) s ∧
    KeepsPower (flushDown s) s ∧ KeepsHost (flushDown s) s ∧ (flushDown s).tx = s.tx ∧ (flushDown s).route = s.route := by
  unfold flushDown; simp only [KeepsWorld, KeepsPort, KeepsBase, KeepsHinge, KeepsPower, KeepsHost]; (repeat' split) <;> first | done | (simp; done) | (simp_all; done) | rfl

@[simp] theorem kickHinge_frame (s : State) :
    KeepsWorld (kickHinge s) s ∧ KeepsPort (kickHinge s) s ∧ KeepsHinge (kickHinge s) s ∧ KeepsPower (kickHinge s) s ∧
    KeepsHost (kickHinge s) s ∧ (kickHinge s).tx = s.tx ∧ (kickHinge s).route = s.route ∧ (kickHinge s).att = s.att ∧
    (kickHinge s).issuer = s.issuer := by
  unfold kickHinge; simp only [KeepsWorld, KeepsPort, KeepsHinge, KeepsPower, KeepsHost]; (repeat' split) <;> first | done | (simp; done) | (simp_all; done) | rfl

end Sys2Proof.Machine
end

