-- ==== Sys2Proof/Laws/Frames.lean ====
section
/-! SUPPORT. Frames of the blocks' operations, as in Laws/State.lean. -/
namespace Sys2Proof.Machine
set_option linter.all false

@[simp] theorem evaluate_frame (s : State) :
    KeepsWorld (evaluate s) s ∧ KeepsPort (evaluate s) s ∧ KeepsTraffic (evaluate s) s ∧ KeepsBase (evaluate s) s ∧
    KeepsPower (evaluate s) s ∧ (evaluate s).orient = s.orient ∧ (evaluate s).sleep = s.sleep := by
  unfold evaluate; simp only [KeepsWorld, KeepsPort, KeepsTraffic, KeepsBase, KeepsPower]; (repeat' split) <;> first | done | (simp; done) | (simp_all; done) | rfl

@[simp] theorem movement_frame (s : State) :
    KeepsWorld (movement s) s ∧ KeepsPort (movement s) s ∧ KeepsTraffic (movement s) s ∧ KeepsBase (movement s) s ∧
    KeepsPower (movement s) s ∧ (movement s).orient = s.orient ∧ (movement s).policy = s.policy ∧
    (movement s).mgmt = s.mgmt := by
  unfold movement; simp only [KeepsWorld, KeepsPort, KeepsTraffic, KeepsBase, KeepsPower]; (repeat' split) <;> first | done | (simp; done) | (simp_all; done) | rfl

@[simp] theorem settleExpires_frame (s : State) :
    KeepsWorld (settleExpires s) s ∧ KeepsPort (settleExpires s) s ∧ KeepsTraffic (settleExpires s) s ∧
    KeepsBase (settleExpires s) s ∧ KeepsPower (settleExpires s) s ∧ (settleExpires s).orient = s.orient := by
  unfold settleExpires; simp only [KeepsWorld, KeepsPort, KeepsTraffic, KeepsBase, KeepsPower]; (repeat' split) <;> first | done | (simp; done) | (simp_all; done) | rfl

@[simp] theorem applyReference_frame (src : RefSource) (count : Nat) (s : State) :
    KeepsWorld (applyReference src count s) s ∧ KeepsPort (applyReference src count s) s ∧
    KeepsTraffic (applyReference src count s) s ∧ KeepsBase (applyReference src count s) s ∧
    KeepsPower (applyReference src count s) s ∧ (applyReference src count s).orient = s.orient ∧
    (applyReference src count s).policy = s.policy ∧ (applyReference src count s).sleep = s.sleep := by
  unfold applyReference; simp only [KeepsWorld, KeepsPort, KeepsTraffic, KeepsBase, KeepsPower]; (repeat' split) <;> first | done | (simp; done) | (simp_all; done) | rfl

@[simp] theorem reference_frame (src : RefSource) (count : Nat) (s : State) :
    KeepsWorld (reference src count s) s ∧ KeepsPort (reference src count s) s ∧ KeepsTraffic (reference src count s) s ∧
    KeepsBase (reference src count s) s ∧ KeepsPower (reference src count s) s ∧
    (reference src count s).orient = s.orient ∧ (reference src count s).sleep = s.sleep := by
  unfold reference; simp only [KeepsWorld, KeepsPort, KeepsTraffic, KeepsBase, KeepsPower]; (repeat' split) <;> first | done | (simp; done) | (simp_all; done) | rfl

@[simp] theorem faultNoted_frame (c : EncoderCause) (code : BitVec 3) (s : State) :
    KeepsWorld (faultNoted c code s) s ∧ KeepsPort (faultNoted c code s) s ∧ KeepsTraffic (faultNoted c code s) s ∧
    KeepsBase (faultNoted c code s) s ∧ KeepsPower (faultNoted c code s) s ∧ (faultNoted c code s).orient = s.orient ∧
    (faultNoted c code s).policy = s.policy ∧ (faultNoted c code s).sleep = s.sleep := by
  unfold faultNoted; simp only [KeepsWorld, KeepsPort, KeepsTraffic, KeepsBase, KeepsPower]; (repeat' split) <;> first | done | (simp; done) | (simp_all; done) | rfl

@[simp] theorem encoderFault_frame (c : EncoderCause) (code : BitVec 3) (s : State) :
    KeepsWorld (encoderFault c code s) s ∧ KeepsPort (encoderFault c code s) s ∧ KeepsTraffic (encoderFault c code s) s ∧
    KeepsBase (encoderFault c code s) s ∧ KeepsPower (encoderFault c code s) s ∧ (encoderFault c code s).orient = s.orient := by
  unfold encoderFault; simp only [KeepsWorld, KeepsPort, KeepsTraffic, KeepsBase, KeepsPower]; (repeat' split) <;> first | done | (simp; done) | (simp_all; done) | rfl

@[simp] theorem moveBy_frame (code : BitVec 3) (steps : Int) (s : State) :
    KeepsWorld (moveBy code steps s) s ∧ KeepsPort (moveBy code steps s) s ∧ KeepsTraffic (moveBy code steps s) s ∧
    KeepsBase (moveBy code steps s) s ∧ KeepsPower (moveBy code steps s) s ∧ (moveBy code steps s).orient = s.orient := by
  unfold moveBy; simp only [KeepsWorld, KeepsPort, KeepsTraffic, KeepsBase, KeepsPower]; (repeat' split) <;> first | done | (simp; done) | (simp_all; done) | rfl

@[simp] theorem codeRead_frame (code : BitVec 3) (pos : Nat) (s : State) :
    KeepsWorld (codeRead code pos s) s ∧ KeepsPort (codeRead code pos s) s ∧ KeepsTraffic (codeRead code pos s) s ∧
    KeepsBase (codeRead code pos s) s ∧ KeepsPower (codeRead code pos s) s ∧ (codeRead code pos s).orient = s.orient := by
  unfold codeRead; simp only [KeepsWorld, KeepsPort, KeepsTraffic, KeepsBase, KeepsPower]; (repeat' split) <;> first | done | (simp; done) | (simp_all; done) | rfl

@[simp] theorem codeChanges_frame (code : BitVec 3) (s : State) :
    KeepsWorld (codeChanges code s) s ∧ KeepsTraffic (codeChanges code s) s ∧ KeepsBase (codeChanges code s) s ∧
    KeepsPower (codeChanges code s) s ∧ (codeChanges code s).rx = s.rx ∧
    (codeChanges code s).uplinkErrors = s.uplinkErrors ∧ (codeChanges code s).poller = s.poller ∧
    (codeChanges code s).orient = s.orient := by
  unfold codeChanges; simp only [KeepsWorld, KeepsTraffic, KeepsBase, KeepsPower]; (repeat' split) <;> first | done | (simp; done) | (simp_all; done) | rfl

@[simp] theorem lidCloses_frame (s : State) :
    KeepsWorld (lidCloses s) s ∧ KeepsPort (lidCloses s) s ∧ KeepsTraffic (lidCloses s) s ∧ KeepsBase (lidCloses s) s ∧
    KeepsPower (lidCloses s) s ∧ (lidCloses s).orient = s.orient ∧ (lidCloses s).sleep = s.sleep := by
  unfold lidCloses; simp only [KeepsWorld, KeepsPort, KeepsTraffic, KeepsBase, KeepsPower]; (repeat' split) <;> first | done | (simp; done) | (simp_all; done) | rfl

@[simp] theorem lidAsserts_frame (s : State) :
    KeepsWorld (lidAsserts s) s ∧ KeepsTraffic (lidAsserts s) s ∧ KeepsBase (lidAsserts s) s ∧
    KeepsPower (lidAsserts s) s ∧ (lidAsserts s).rx = s.rx ∧ (lidAsserts s).uplinkErrors = s.uplinkErrors ∧
    (lidAsserts s).poller = s.poller ∧ (lidAsserts s).orient = s.orient ∧ (lidAsserts s).sleep = s.sleep := by
  unfold lidAsserts; simp only [KeepsWorld, KeepsTraffic, KeepsBase, KeepsPower]; (repeat' split) <;> first | done | (simp; done) | (simp_all; done) | rfl

@[simp] theorem lidReleases_frame (s : State) :
    KeepsWorld (lidReleases s) s ∧ KeepsTraffic (lidReleases s) s ∧ KeepsBase (lidReleases s) s ∧
    KeepsPower (lidReleases s) s ∧ (lidReleases s).rx = s.rx ∧ (lidReleases s).uplinkErrors = s.uplinkErrors ∧
    (lidReleases s).poller = s.poller ∧ (lidReleases s).orient = s.orient := by
  unfold lidReleases; simp only [KeepsWorld, KeepsTraffic, KeepsBase, KeepsPower]; (repeat' split) <;> first | done | (simp; done) | (simp_all; done) | rfl

@[simp] theorem foldFlatAsserts_frame (s : State) :
    KeepsWorld (foldFlatAsserts s) s ∧ KeepsTraffic (foldFlatAsserts s) s ∧ KeepsBase (foldFlatAsserts s) s ∧
    KeepsPower (foldFlatAsserts s) s ∧ (foldFlatAsserts s).rx = s.rx ∧
    (foldFlatAsserts s).uplinkErrors = s.uplinkErrors ∧ (foldFlatAsserts s).poller = s.poller ∧
    (foldFlatAsserts s).orient = s.orient ∧ (foldFlatAsserts s).sleep = s.sleep := by
  unfold foldFlatAsserts; simp only [KeepsWorld, KeepsTraffic, KeepsBase, KeepsPower]; (repeat' split) <;> first | done | (simp; done) | (simp_all; done) | rfl

@[simp] theorem foldFlatReleases_frame (s : State) :
    KeepsWorld (foldFlatReleases s) s ∧ KeepsTraffic (foldFlatReleases s) s ∧ KeepsBase (foldFlatReleases s) s ∧
    KeepsHinge (foldFlatReleases s) s ∧ KeepsPower (foldFlatReleases s) s ∧ KeepsHost (foldFlatReleases s) s ∧
    (foldFlatReleases s).rx = s.rx ∧ (foldFlatReleases s).uplinkErrors = s.uplinkErrors ∧
    (foldFlatReleases s).poller = s.poller := by
  unfold foldFlatReleases; simp only [KeepsWorld, KeepsTraffic, KeepsBase, KeepsHinge, KeepsPower, KeepsHost]; (repeat' split) <;> first | done | (simp; done) | (simp_all; done) | rfl

@[simp] theorem readCode_frame (s : State) :
    KeepsWorld (readCode s) s ∧ KeepsPort (readCode s) s ∧ KeepsTraffic (readCode s) s ∧ KeepsBase (readCode s) s ∧
    KeepsPower (readCode s) s ∧ (readCode s).orient = s.orient ∧ (readCode s).policy = s.policy ∧
    (readCode s).sleep = s.sleep := by
  unfold readCode; simp only [KeepsWorld, KeepsPort, KeepsTraffic, KeepsBase, KeepsPower]; (repeat' split) <;> first | done | (simp; done) | (simp_all; done) | rfl

@[simp] theorem posturePresent_frame (s : State) :
    KeepsWorld (posturePresent s) s ∧ KeepsPort (posturePresent s) s ∧ KeepsTraffic (posturePresent s) s ∧
    KeepsBase (posturePresent s) s ∧ KeepsPower (posturePresent s) s ∧ (posturePresent s).orient = s.orient := by
  unfold posturePresent; simp only [KeepsWorld, KeepsPort, KeepsTraffic, KeepsBase, KeepsPower]; (repeat' split) <;> first | done | (simp; done) | (simp_all; done) | rfl

@[simp] theorem postureDetached_frame (s : State) :
    KeepsWorld (postureDetached s) s ∧ KeepsPort (postureDetached s) s ∧ KeepsTraffic (postureDetached s) s ∧
    KeepsBase (postureDetached s) s ∧ KeepsPower (postureDetached s) s ∧ (postureDetached s).orient = s.orient := by
  unfold postureDetached; simp only [KeepsWorld, KeepsPort, KeepsTraffic, KeepsBase, KeepsPower]; (repeat' split) <;> first | done | (simp; done) | (simp_all; done) | rfl

@[simp] theorem gravityCheck_frame (thisIsLid : Bool) (s : State) :
    KeepsWorld (gravityCheck thisIsLid s) s ∧ KeepsPort (gravityCheck thisIsLid s) s ∧
    KeepsTraffic (gravityCheck thisIsLid s) s ∧ KeepsBase (gravityCheck thisIsLid s) s ∧
    KeepsPower (gravityCheck thisIsLid s) s ∧ (gravityCheck thisIsLid s).orient = s.orient ∧
    (gravityCheck thisIsLid s).sleep = s.sleep := by
  unfold gravityCheck; simp only [KeepsWorld, KeepsPort, KeepsTraffic, KeepsBase, KeepsPower]; (repeat' split) <;> first | done | (simp; done) | (simp_all; done) | rfl

@[simp] theorem postureLidSample_frame (x y z : Int) (s : State) :
    KeepsWorld (postureLidSample x y z s) s ∧ KeepsPort (postureLidSample x y z s) s ∧
    KeepsTraffic (postureLidSample x y z s) s ∧ KeepsBase (postureLidSample x y z s) s ∧
    KeepsPower (postureLidSample x y z s) s ∧ (postureLidSample x y z s).orient = s.orient ∧
    (postureLidSample x y z s).sleep = s.sleep := by
  unfold postureLidSample; simp only [KeepsWorld, KeepsPort, KeepsTraffic, KeepsBase, KeepsPower]; (repeat' split) <;> first | done | (simp; done) | (simp_all; done) | rfl

@[simp] theorem postureBaseSample_frame (x y z : Int) (s : State) :
    KeepsWorld (postureBaseSample x y z s) s ∧ KeepsPort (postureBaseSample x y z s) s ∧
    KeepsTraffic (postureBaseSample x y z s) s ∧ KeepsBase (postureBaseSample x y z s) s ∧
    KeepsPower (postureBaseSample x y z s) s ∧ (postureBaseSample x y z s).orient = s.orient ∧
    (postureBaseSample x y z s).sleep = s.sleep := by
  unfold postureBaseSample; simp only [KeepsWorld, KeepsPort, KeepsTraffic, KeepsBase, KeepsPower]; (repeat' split) <;> first | done | (simp; done) | (simp_all; done) | rfl

@[simp] theorem takeCandidate_frame (s : State) :
    KeepsWorld (takeCandidate s) s ∧ KeepsPort (takeCandidate s) s ∧ KeepsTraffic (takeCandidate s) s ∧
    KeepsBase (takeCandidate s) s ∧ KeepsPower (takeCandidate s) s ∧ (takeCandidate s).posture = s.posture ∧
    (takeCandidate s).policy = s.policy ∧ (takeCandidate s).sleep = s.sleep := by
  unfold takeCandidate; simp only [KeepsWorld, KeepsPort, KeepsTraffic, KeepsBase, KeepsPower]; (repeat' split) <;> first | done | (simp; done) | (simp_all; done) | rfl

@[simp] theorem testDwell_frame (s : State) :
    KeepsWorld (testDwell s) s ∧ KeepsPort (testDwell s) s ∧ KeepsTraffic (testDwell s) s ∧ KeepsBase (testDwell s) s ∧
    KeepsPower (testDwell s) s ∧ (testDwell s).posture = s.posture ∧ (testDwell s).policy = s.policy ∧
    (testDwell s).sleep = s.sleep := by
  unfold testDwell; simp only [KeepsWorld, KeepsPort, KeepsTraffic, KeepsBase, KeepsPower]; (repeat' split) <;> first | done | (simp; done) | (simp_all; done) | rfl

@[simp] theorem setLock_frame (l : Option ClaimSource) (s : State) :
    KeepsWorld (setLock l s) s ∧ KeepsPort (setLock l s) s ∧ KeepsTraffic (setLock l s) s ∧ KeepsBase (setLock l s) s ∧
    KeepsPower (setLock l s) s ∧ (setLock l s).posture = s.posture ∧ (setLock l s).sleep = s.sleep ∧
    (setLock l s).mgmt = s.mgmt := by
  unfold setLock; simp only [KeepsWorld, KeepsPort, KeepsTraffic, KeepsBase, KeepsPower]; (repeat' split) <;> first | done | (simp; done) | (simp_all; done) | rfl

@[simp] theorem lockClaim_frame (src : ClaimSource) (s : State) :
    KeepsWorld (lockClaim src s) s ∧ KeepsPort (lockClaim src s) s ∧ KeepsTraffic (lockClaim src s) s ∧
    KeepsBase (lockClaim src s) s ∧ KeepsPower (lockClaim src s) s ∧ (lockClaim src s).posture = s.posture ∧
    (lockClaim src s).sleep = s.sleep ∧ (lockClaim src s).mgmt = s.mgmt := by
  unfold lockClaim; simp only [KeepsWorld, KeepsPort, KeepsTraffic, KeepsBase, KeepsPower]; (repeat' split) <;> first | done | (simp; done) | (simp_all; done) | rfl

@[simp] theorem freeClaim_frame (s : State) :
    KeepsWorld (freeClaim s) s ∧ KeepsPort (freeClaim s) s ∧ KeepsTraffic (freeClaim s) s ∧ KeepsBase (freeClaim s) s ∧
    KeepsPower (freeClaim s) s ∧ (freeClaim s).posture = s.posture ∧ (freeClaim s).sleep = s.sleep := by
  unfold freeClaim; simp only [KeepsWorld, KeepsPort, KeepsTraffic, KeepsBase, KeepsPower]; (repeat' split) <;> first | done | (simp; done) | (simp_all; done) | rfl

@[simp] theorem setCandidate_frame (c : Orientation) (s : State) :
    KeepsWorld (setCandidate c s) s ∧ KeepsPort (setCandidate c s) s ∧ KeepsTraffic (setCandidate c s) s ∧
    KeepsBase (setCandidate c s) s ∧ KeepsPower (setCandidate c s) s ∧ (setCandidate c s).sleep = s.sleep := by
  unfold setCandidate; simp only [KeepsWorld, KeepsPort, KeepsTraffic, KeepsBase, KeepsPower]; (repeat' split) <;> first | done | (simp; done) | (simp_all; done) | rfl

@[simp] theorem orientSample_frame (x y z : Word16) (s : State) :
    KeepsWorld (orientSample x y z s) s ∧ KeepsPort (orientSample x y z s) s ∧ KeepsTraffic (orientSample x y z s) s ∧
    KeepsBase (orientSample x y z s) s ∧ KeepsPower (orientSample x y z s) s ∧ (orientSample x y z s).sleep = s.sleep := by
  unfold orientSample; simp only [KeepsWorld, KeepsPort, KeepsTraffic, KeepsBase, KeepsPower]; (repeat' split) <;> first | done | (simp; done) | (simp_all; done) | rfl

@[simp] theorem dwellReached_frame (s : State) :
    KeepsWorld (dwellReached s) s ∧ KeepsPort (dwellReached s) s ∧ KeepsTraffic (dwellReached s) s ∧
    KeepsBase (dwellReached s) s ∧ KeepsPower (dwellReached s) s ∧ (dwellReached s).posture = s.posture ∧
    (dwellReached s).policy = s.policy ∧ (dwellReached s).sleep = s.sleep := by
  unfold dwellReached; simp only [KeepsWorld, KeepsPort, KeepsTraffic, KeepsBase, KeepsPower]; (repeat' split) <;> first | done | (simp; done) | (simp_all; done) | rfl

@[simp] theorem setDwell_frame (n : Nat) (s : State) :
    KeepsWorld (setDwell n s) s ∧ KeepsPort (setDwell n s) s ∧ KeepsTraffic (setDwell n s) s ∧
    KeepsBase (setDwell n s) s ∧ KeepsPower (setDwell n s) s ∧ (setDwell n s).posture = s.posture ∧
    (setDwell n s).policy = s.policy ∧ (setDwell n s).sleep = s.sleep := by
  unfold setDwell; simp only [KeepsWorld, KeepsPort, KeepsTraffic, KeepsBase, KeepsPower]; (repeat' split) <;> first | done | (simp; done) | (simp_all; done) | rfl

@[simp] theorem postBudget_frame (before : Guard) (cause : BudgetCause) (s : State) :
    KeepsWorld (postBudget before cause s) s ∧ KeepsPort (postBudget before cause s) s ∧
    KeepsTraffic (postBudget before cause s) s ∧ KeepsBase (postBudget before cause s) s ∧
    KeepsHinge (postBudget before cause s) s ∧ KeepsPower (postBudget before cause s) s ∧
    (postBudget before cause s).policy = s.policy ∧ (postBudget before cause s).sleep = s.sleep := by
  unfold postBudget; simp only [KeepsWorld, KeepsPort, KeepsTraffic, KeepsBase, KeepsHinge, KeepsPower]; (repeat' split) <;> first | done | (simp; done) | (simp_all; done) | rfl

@[simp] theorem reportAlarm_frame (s : State) :
    KeepsWorld (reportAlarm s) s ∧ KeepsPort (reportAlarm s) s ∧ KeepsTraffic (reportAlarm s) s ∧
    KeepsBase (reportAlarm s) s ∧ KeepsHinge (reportAlarm s) s ∧ KeepsPower (reportAlarm s) s ∧
    (reportAlarm s).sleep = s.sleep ∧ (reportAlarm s).mgmt = s.mgmt := by
  unfold reportAlarm; simp only [KeepsWorld, KeepsPort, KeepsTraffic, KeepsBase, KeepsHinge, KeepsPower]; (repeat' split) <;> first | done | (simp; done) | (simp_all; done) | rfl

@[simp] theorem armPenTimer_frame (s : State) :
    KeepsWorld (armPenTimer s) s ∧ KeepsPort (armPenTimer s) s ∧ KeepsTraffic (armPenTimer s) s ∧
    KeepsBase (armPenTimer s) s ∧ KeepsHinge (armPenTimer s) s ∧ KeepsHost (armPenTimer s) s ∧
    (armPenTimer s).guard = s.guard := by
  unfold armPenTimer; simp only [KeepsWorld, KeepsPort, KeepsTraffic, KeepsBase, KeepsHinge, KeepsHost]; (repeat' split) <;> first | done | (simp; done) | (simp_all; done) | rfl

@[simp] theorem stopPenTimers_frame (s : State) :
    KeepsWorld (stopPenTimers s) s ∧ KeepsPort (stopPenTimers s) s ∧ KeepsTraffic (stopPenTimers s) s ∧
    KeepsBase (stopPenTimers s) s ∧ KeepsHinge (stopPenTimers s) s ∧ KeepsHost (stopPenTimers s) s ∧
    (stopPenTimers s).guard = s.guard := by
  unfold stopPenTimers; simp only [KeepsWorld, KeepsPort, KeepsTraffic, KeepsBase, KeepsHinge, KeepsHost]; (repeat' split) <;> first | done | (simp; done) | (simp_all; done) | rfl

@[simp] theorem switchCoil_frame (s : State) :
    KeepsWorld (switchCoil s) s ∧ KeepsPort (switchCoil s) s ∧ KeepsTraffic (switchCoil s) s ∧
    KeepsBase (switchCoil s) s ∧ KeepsHinge (switchCoil s) s ∧ KeepsHost (switchCoil s) s := by
  unfold switchCoil; simp only [KeepsWorld, KeepsPort, KeepsTraffic, KeepsBase, KeepsHinge, KeepsHost]; (repeat' split) <;> first | done | (simp; done) | (simp_all; done) | rfl

@[simp] theorem switchRail_frame (s : State) :
    KeepsWorld (switchRail s) s ∧ KeepsPort (switchRail s) s ∧ KeepsTraffic (switchRail s) s ∧
    KeepsBase (switchRail s) s ∧ KeepsHinge (switchRail s) s ∧ KeepsHost (switchRail s) s ∧ (switchRail s).pen = s.pen := by
  unfold switchRail; simp only [KeepsWorld, KeepsPort, KeepsTraffic, KeepsBase, KeepsHinge, KeepsHost]; (repeat' split) <;> first | done | (simp; done) | (simp_all; done) | rfl

@[simp] theorem switchOutputs_frame (s : State) :
    KeepsWorld (switchOutputs s) s ∧ KeepsPort (switchOutputs s) s ∧ KeepsTraffic (switchOutputs s) s ∧
    KeepsBase (switchOutputs s) s ∧ KeepsHinge (switchOutputs s) s ∧ (switchOutputs s).sleep = s.sleep ∧
    (switchOutputs s).mgmt = s.mgmt := by
  unfold switchOutputs; simp only [KeepsWorld, KeepsPort, KeepsTraffic, KeepsBase, KeepsHinge]; (repeat' split) <;> first | done | (simp; done) | (simp_all; done) | rfl

@[simp] theorem claimStep_frame (c : ClaimStep) (s : State) :
    KeepsWorld (claimStep c s) s ∧ KeepsPort (claimStep c s) s ∧ KeepsTraffic (claimStep c s) s ∧
    KeepsBase (claimStep c s) s ∧ KeepsHinge (claimStep c s) s ∧ (claimStep c s).pen = s.pen ∧
    (claimStep c s).policy = s.policy ∧ (claimStep c s).sleep = s.sleep := by
  unfold claimStep; simp only [KeepsWorld, KeepsPort, KeepsTraffic, KeepsBase, KeepsHinge]; (repeat' split) <;> first | done | (simp; done) | (simp_all; done) | rfl

@[simp] theorem goSession_frame (new : PenState) (fault : Option FaultCause) (c : ClaimStep) (s : State) :
    KeepsWorld (goSession new fault c s) s ∧ KeepsPort (goSession new fault c s) s ∧
    KeepsTraffic (goSession new fault c s) s ∧ KeepsBase (goSession new fault c s) s ∧
    KeepsHinge (goSession new fault c s) s := by
  unfold goSession; simp only [KeepsWorld, KeepsPort, KeepsTraffic, KeepsBase, KeepsHinge]; (repeat' split) <;> first | done | (simp; done) | (simp_all; done) | rfl

@[simp] theorem claimSession_frame (new : PenState) (l : PenLevel) (s : State) :
    KeepsWorld (claimSession new l s) s ∧ KeepsPort (claimSession new l s) s ∧ KeepsTraffic (claimSession new l s) s ∧
    KeepsBase (claimSession new l s) s ∧ KeepsHinge (claimSession new l s) s := by
  unfold claimSession; simp only [KeepsWorld, KeepsPort, KeepsTraffic, KeepsBase, KeepsHinge]; (repeat' split) <;> first | done | (simp; done) | (simp_all; done) | rfl

@[simp] theorem enterDetect_frame (s : State) :
    KeepsWorld (enterDetect s) s ∧ KeepsPort (enterDetect s) s ∧ KeepsTraffic (enterDetect s) s ∧
    KeepsBase (enterDetect s) s ∧ KeepsHinge (enterDetect s) s := by
  unfold enterDetect; simp only [KeepsWorld, KeepsPort, KeepsTraffic, KeepsBase, KeepsHinge]; (repeat' split) <;> first | done | (simp; done) | (simp_all; done) | rfl

@[simp] theorem enterSoftStart_frame (s : State) :
    KeepsWorld (enterSoftStart s) s ∧ KeepsPort (enterSoftStart s) s ∧ KeepsTraffic (enterSoftStart s) s ∧
    KeepsBase (enterSoftStart s) s ∧ KeepsHinge (enterSoftStart s) s := by
  unfold enterSoftStart; simp only [KeepsWorld, KeepsPort, KeepsTraffic, KeepsBase, KeepsHinge]; (repeat' split) <;> first | done | (simp; done) | (simp_all; done) | rfl

@[simp] theorem resumeSession_frame (s : State) :
    KeepsWorld (resumeSession s) s ∧ KeepsPort (resumeSession s) s ∧ KeepsTraffic (resumeSession s) s ∧
    KeepsBase (resumeSession s) s ∧ KeepsHinge (resumeSession s) s := by
  unfold resumeSession; simp only [KeepsWorld, KeepsPort, KeepsTraffic, KeepsBase, KeepsHinge]; (repeat' split) <;> first | done | (simp; done) | (simp_all; done) | rfl

@[simp] theorem enterFault_frame (c : FaultCause) (s : State) :
    KeepsWorld (enterFault c s) s ∧ KeepsPort (enterFault c s) s ∧ KeepsTraffic (enterFault c s) s ∧
    KeepsBase (enterFault c s) s ∧ KeepsHinge (enterFault c s) s := by
  unfold enterFault; simp only [KeepsWorld, KeepsPort, KeepsTraffic, KeepsBase, KeepsHinge]; (repeat' split) <;> first | done | (simp; done) | (simp_all; done) | rfl

@[simp] theorem penTold_frame (before : Option PenLevel) (s : State) :
    KeepsWorld (penTold before s) s ∧ KeepsPort (penTold before s) s ∧ KeepsTraffic (penTold before s) s ∧
    KeepsBase (penTold before s) s ∧ KeepsHinge (penTold before s) s := by
  unfold penTold; simp only [KeepsWorld, KeepsPort, KeepsTraffic, KeepsBase, KeepsHinge]; (repeat' split) <;> first | done | (simp; done) | (simp_all; done) | rfl

@[simp] theorem coilLatchTold_frame (s : State) :
    KeepsWorld (coilLatchTold s) s ∧ KeepsPort (coilLatchTold s) s ∧ KeepsTraffic (coilLatchTold s) s ∧
    KeepsBase (coilLatchTold s) s ∧ KeepsHinge (coilLatchTold s) s := by
  unfold coilLatchTold; simp only [KeepsWorld, KeepsPort, KeepsTraffic, KeepsBase, KeepsHinge]; (repeat' split) <;> first | done | (simp; done) | (simp_all; done) | rfl

@[simp] theorem coilLatchGone_frame (s : State) :
    KeepsWorld (coilLatchGone s) s ∧ KeepsPort (coilLatchGone s) s ∧ KeepsTraffic (coilLatchGone s) s ∧
    KeepsBase (coilLatchGone s) s ∧ KeepsHinge (coilLatchGone s) s := by
  unfold coilLatchGone; simp only [KeepsWorld, KeepsPort, KeepsTraffic, KeepsBase, KeepsHinge]; (repeat' split) <;> first | done | (simp; done) | (simp_all; done) | rfl

@[simp] theorem dockAsserts_frame (s : State) :
    KeepsWorld (dockAsserts s) s ∧ KeepsTraffic (dockAsserts s) s ∧ KeepsBase (dockAsserts s) s ∧
    KeepsHinge (dockAsserts s) s ∧ KeepsHost (dockAsserts s) s ∧ (dockAsserts s).rx = s.rx ∧
    (dockAsserts s).uplinkErrors = s.uplinkErrors ∧ (dockAsserts s).poller = s.poller ∧ (dockAsserts s).guard = s.guard := by
  unfold dockAsserts; simp only [KeepsWorld, KeepsTraffic, KeepsBase, KeepsHinge, KeepsHost]; (repeat' split) <;> first | done | (simp; done) | (simp_all; done) | rfl

@[simp] theorem dockDebounceExpires_frame (s : State) :
    KeepsWorld (dockDebounceExpires s) s ∧ KeepsPort (dockDebounceExpires s) s ∧ KeepsTraffic (dockDebounceExpires s) s ∧
    KeepsBase (dockDebounceExpires s) s ∧ KeepsHinge (dockDebounceExpires s) s := by
  unfold dockDebounceExpires; simp only [KeepsWorld, KeepsPort, KeepsTraffic, KeepsBase, KeepsHinge]; (repeat' split) <;> first | done | (simp; done) | (simp_all; done) | rfl

@[simp] theorem dockReleases_frame (s : State) :
    KeepsWorld (dockReleases s) s ∧ KeepsTraffic (dockReleases s) s ∧ KeepsBase (dockReleases s) s ∧
    KeepsHinge (dockReleases s) s ∧ (dockReleases s).rx = s.rx ∧ (dockReleases s).uplinkErrors = s.uplinkErrors ∧
    (dockReleases s).poller = s.poller := by
  unfold dockReleases; simp only [KeepsWorld, KeepsTraffic, KeepsBase, KeepsHinge]; (repeat' split) <;> first | done | (simp; done) | (simp_all; done) | rfl

@[simp] theorem penDocks_frame (s : State) :
    KeepsWorld (penDocks s) s ∧ KeepsPort (penDocks s) s ∧ KeepsTraffic (penDocks s) s ∧ KeepsBase (penDocks s) s ∧
    KeepsHinge (penDocks s) s ∧ (penDocks s).guard = s.guard ∧ (penDocks s).sleep = s.sleep ∧ (penDocks s).mgmt = s.mgmt := by
  unfold penDocks; simp only [KeepsWorld, KeepsPort, KeepsTraffic, KeepsBase, KeepsHinge]; (repeat' split) <;> first | done | (simp; done) | (simp_all; done) | rfl

@[simp] theorem enterTopped_frame (s : State) :
    KeepsWorld (enterTopped s) s ∧ KeepsPort (enterTopped s) s ∧ KeepsTraffic (enterTopped s) s ∧
    KeepsBase (enterTopped s) s ∧ KeepsHinge (enterTopped s) s := by
  unfold enterTopped; simp only [KeepsWorld, KeepsPort, KeepsTraffic, KeepsBase, KeepsHinge]; (repeat' split) <;> first | done | (simp; done) | (simp_all; done) | rfl

@[simp] theorem actOnStatus_frame (percent : Nat) (fullFlag faultFlag : Bool) (s : State) :
    KeepsWorld (actOnStatus percent fullFlag faultFlag s) s ∧ KeepsPort (actOnStatus percent fullFlag faultFlag s) s ∧
    KeepsTraffic (actOnStatus percent fullFlag faultFlag s) s ∧ KeepsBase (actOnStatus percent fullFlag faultFlag s) s ∧
    KeepsHinge (actOnStatus percent fullFlag faultFlag s) s := by
  unfold actOnStatus; simp only [KeepsWorld, KeepsPort, KeepsTraffic, KeepsBase, KeepsHinge]; (repeat' split) <;> first | done | (simp; done) | (simp_all; done) | rfl

@[simp] theorem penStatusTap_frame (payload : List Byte) (s : State) :
    KeepsWorld (penStatusTap payload s) s ∧ KeepsPort (penStatusTap payload s) s ∧
    KeepsTraffic (penStatusTap payload s) s ∧ KeepsBase (penStatusTap payload s) s ∧ KeepsHinge (penStatusTap payload s) s := by
  unfold penStatusTap; simp only [KeepsWorld, KeepsPort, KeepsTraffic, KeepsBase, KeepsHinge]; (repeat' split) <;> first | done | (simp; done) | (simp_all; done) | rfl

@[simp] theorem detectExpires_frame (s : State) :
    KeepsWorld (detectExpires s) s ∧ KeepsPort (detectExpires s) s ∧ KeepsTraffic (detectExpires s) s ∧
    KeepsBase (detectExpires s) s ∧ KeepsHinge (detectExpires s) s := by
  unfold detectExpires; simp only [KeepsWorld, KeepsPort, KeepsTraffic, KeepsBase, KeepsHinge]; (repeat' split) <;> first | done | (simp; done) | (simp_all; done) | rfl

@[simp] theorem rampExpires_frame (s : State) :
    KeepsWorld (rampExpires s) s ∧ KeepsPort (rampExpires s) s ∧ KeepsTraffic (rampExpires s) s ∧
    KeepsBase (rampExpires s) s ∧ KeepsHinge (rampExpires s) s := by
  unfold rampExpires; simp only [KeepsWorld, KeepsPort, KeepsTraffic, KeepsBase, KeepsHinge]; (repeat' split) <;> first | done | (simp; done) | (simp_all; done) | rfl

@[simp] theorem silenceExpires_frame (s : State) :
    KeepsWorld (silenceExpires s) s ∧ KeepsPort (silenceExpires s) s ∧ KeepsTraffic (silenceExpires s) s ∧
    KeepsBase (silenceExpires s) s ∧ KeepsHinge (silenceExpires s) s := by
  unfold silenceExpires; simp only [KeepsWorld, KeepsPort, KeepsTraffic, KeepsBase, KeepsHinge]; (repeat' split) <;> first | done | (simp; done) | (simp_all; done) | rfl

@[simp] theorem holdClaim_frame (src : ClaimSource) (s : State) :
    KeepsWorld (holdClaim src s) s ∧ KeepsPort (holdClaim src s) s ∧ KeepsTraffic (holdClaim src s) s ∧
    KeepsBase (holdClaim src s) s ∧ KeepsHinge (holdClaim src s) s := by
  unfold holdClaim; simp only [KeepsWorld, KeepsPort, KeepsTraffic, KeepsBase, KeepsHinge]; (repeat' split) <;> first | done | (simp; done) | (simp_all; done) | rfl

@[simp] theorem releaseClaim_frame (src : ClaimSource) (s : State) :
    KeepsWorld (releaseClaim src s) s ∧ KeepsPort (releaseClaim src s) s ∧ KeepsTraffic (releaseClaim src s) s ∧
    KeepsBase (releaseClaim src s) s ∧ KeepsHinge (releaseClaim src s) s := by
  unfold releaseClaim; simp only [KeepsWorld, KeepsPort, KeepsTraffic, KeepsBase, KeepsHinge]; (repeat' split) <;> first | done | (simp; done) | (simp_all; done) | rfl

@[simp] theorem setRequested_frame (l : PenLevel) (s : State) :
    KeepsWorld (setRequested l s) s ∧ KeepsPort (setRequested l s) s ∧ KeepsTraffic (setRequested l s) s ∧
    KeepsBase (setRequested l s) s ∧ KeepsHinge (setRequested l s) s := by
  unfold setRequested; simp only [KeepsWorld, KeepsPort, KeepsTraffic, KeepsBase, KeepsHinge]; (repeat' split) <;> first | done | (simp; done) | (simp_all; done) | rfl

@[simp] theorem issuerHold_frame (s : State) :
    KeepsWorld (issuerHold s) s ∧ KeepsPort (issuerHold s) s ∧ KeepsTraffic (issuerHold s) s ∧
    KeepsBase (issuerHold s) s ∧ KeepsHinge (issuerHold s) s ∧ KeepsPower (issuerHold s) s ∧
    (issuerHold s).policy = s.policy := by
  unfold issuerHold; simp only [KeepsWorld, KeepsPort, KeepsTraffic, KeepsBase, KeepsHinge, KeepsPower]; (repeat' split) <;> first | done | (simp; done) | (simp_all; done) | rfl

@[simp] theorem changeEntry_frame (target : Nat) (command : Byte) (f : ReqEntry → ReqEntry) (s : State) :
    KeepsWorld (changeEntry target command f s) s ∧ KeepsPort (changeEntry target command f s) s ∧
    KeepsTraffic (changeEntry target command f s) s ∧ KeepsHinge (changeEntry target command f s) s ∧
    KeepsPower (changeEntry target command f s) s ∧ KeepsHost (changeEntry target command f s) s ∧
    (changeEntry target command f s).link = s.link ∧ (changeEntry target command f s).att = s.att := by
  unfold changeEntry; simp only [KeepsWorld, KeepsPort, KeepsTraffic, KeepsHinge, KeepsPower, KeepsHost]; (repeat' split) <;> first | done | (simp; done) | (simp_all; done) | rfl

@[simp] theorem offer_frame (e : ReqEntry) (s : State) :
    KeepsWorld (offer e s) s ∧ KeepsPort (offer e s) s ∧ KeepsHinge (offer e s) s ∧ KeepsPower (offer e s) s ∧
    KeepsHost (offer e s) s ∧ (offer e s).tx = s.tx ∧ (offer e s).route = s.route ∧ (offer e s).link = s.link ∧
    (offer e s).att = s.att := by
  unfold offer; simp only [KeepsWorld, KeepsPort, KeepsHinge, KeepsPower, KeepsHost]; (repeat' split) <;> first | done | (simp; done) | (simp_all; done) | rfl

@[simp] theorem tryOffer_frame (s : State) :
    KeepsWorld (tryOffer s) s ∧ KeepsPort (tryOffer s) s ∧ KeepsHinge (tryOffer s) s ∧ KeepsPower (tryOffer s) s ∧
    KeepsHost (tryOffer s) s ∧ (tryOffer s).tx = s.tx ∧ (tryOffer s).route = s.route ∧ (tryOffer s).link = s.link ∧
    (tryOffer s).att = s.att := by
  unfold tryOffer; simp only [KeepsWorld, KeepsPort, KeepsHinge, KeepsPower, KeepsHost]; (repeat' split) <;> first | done | (simp; done) | (simp_all; done) | rfl

@[simp] theorem reoffer_frame (s : State) :
    KeepsWorld (reoffer s) s ∧ KeepsPort (reoffer s) s ∧ KeepsHinge (reoffer s) s ∧ KeepsPower (reoffer s) s ∧
    KeepsHost (reoffer s) s ∧ (reoffer s).tx = s.tx ∧ (reoffer s).route = s.route ∧ (reoffer s).link = s.link ∧
    (reoffer s).att = s.att := by
  unfold reoffer; simp only [KeepsWorld, KeepsPort, KeepsHinge, KeepsPower, KeepsHost]; (repeat' split) <;> first | done | (simp; done) | (simp_all; done) | rfl

@[simp] theorem endIssued_frame (e : ReqEntry) (o : ReqOutcome) (response : Option (List Byte)) (s : State) :
    KeepsWorld (endIssued e o response s) s ∧ KeepsPort (endIssued e o response s) s ∧
    KeepsHinge (endIssued e o response s) s ∧ KeepsPower (endIssued e o response s) s ∧
    (endIssued e o response s).tx = s.tx ∧ (endIssued e o response s).route = s.route ∧
    (endIssued e o response s).link = s.link ∧ (endIssued e o response s).att = s.att ∧
    (endIssued e o response s).policy = s.policy := by
  unfold endIssued; simp only [KeepsWorld, KeepsPort, KeepsHinge, KeepsPower]; (repeat' split) <;> first | done | (simp; done) | (simp_all; done) | rfl

@[simp] theorem linkEnding_frame (s : State) :
    KeepsWorld (linkEnding s) s ∧ KeepsPort (linkEnding s) s ∧ KeepsTraffic (linkEnding s) s ∧
    KeepsHinge (linkEnding s) s ∧ KeepsPower (linkEnding s) s ∧ (linkEnding s).link = s.link ∧
    (linkEnding s).att = s.att ∧ (linkEnding s).policy = s.policy := by
  unfold linkEnding; simp only [KeepsWorld, KeepsPort, KeepsTraffic, KeepsHinge, KeepsPower]; (repeat' split) <;> first | done | (simp; done) | (simp_all; done) | rfl

@[simp] theorem strayAnswer_frame (s : State) :
    KeepsWorld (strayAnswer s) s ∧ KeepsPort (strayAnswer s) s ∧ KeepsTraffic (strayAnswer s) s ∧
    KeepsHinge (strayAnswer s) s ∧ KeepsPower (strayAnswer s) s ∧ KeepsHost (strayAnswer s) s ∧
    (strayAnswer s).link = s.link ∧ (strayAnswer s).att = s.att := by
  unfold strayAnswer; simp only [KeepsWorld, KeepsPort, KeepsTraffic, KeepsHinge, KeepsPower, KeepsHost]; (repeat' split) <;> first | done | (simp; done) | (simp_all; done) | rfl

@[simp] theorem takeResponse_frame (payload : List Byte) (s : State) :
    KeepsWorld (takeResponse payload s) s ∧ KeepsPort (takeResponse payload s) s ∧
    KeepsHinge (takeResponse payload s) s ∧ KeepsPower (takeResponse payload s) s ∧ (takeResponse payload s).tx = s.tx ∧
    (takeResponse payload s).route = s.route ∧ (takeResponse payload s).link = s.link ∧
    (takeResponse payload s).att = s.att ∧ (takeResponse payload s).policy = s.policy := by
  unfold takeResponse; simp only [KeepsWorld, KeepsPort, KeepsHinge, KeepsPower]; (repeat' split) <;> first | done | (simp; done) | (simp_all; done) | rfl

@[simp] theorem takeReject_frame (payload : List Byte) (s : State) :
    KeepsWorld (takeReject payload s) s ∧ KeepsPort (takeReject payload s) s ∧ KeepsHinge (takeReject payload s) s ∧
    KeepsPower (takeReject payload s) s ∧ (takeReject payload s).tx = s.tx ∧ (takeReject payload s).route = s.route ∧
    (takeReject payload s).link = s.link ∧ (takeReject payload s).att = s.att ∧ (takeReject payload s).policy = s.policy := by
  unfold takeReject; simp only [KeepsWorld, KeepsPort, KeepsHinge, KeepsPower]; (repeat' split) <;> first | done | (simp; done) | (simp_all; done) | rfl

@[simp] theorem takeBusy_frame (payload : List Byte) (s : State) :
    KeepsWorld (takeBusy payload s) s ∧ KeepsPort (takeBusy payload s) s ∧ KeepsHinge (takeBusy payload s) s ∧
    KeepsPower (takeBusy payload s) s ∧ (takeBusy payload s).tx = s.tx ∧ (takeBusy payload s).route = s.route ∧
    (takeBusy payload s).link = s.link ∧ (takeBusy payload s).att = s.att ∧ (takeBusy payload s).policy = s.policy := by
  unfold takeBusy; simp only [KeepsWorld, KeepsPort, KeepsHinge, KeepsPower]; (repeat' split) <;> first | done | (simp; done) | (simp_all; done) | rfl

@[simp] theorem responseWindowExpires_frame (s : State) :
    KeepsWorld (responseWindowExpires s) s ∧ KeepsPort (responseWindowExpires s) s ∧
    KeepsHinge (responseWindowExpires s) s ∧ KeepsPower (responseWindowExpires s) s ∧
    (responseWindowExpires s).tx = s.tx ∧ (responseWindowExpires s).route = s.route ∧
    (responseWindowExpires s).link = s.link ∧ (responseWindowExpires s).att = s.att ∧
    (responseWindowExpires s).policy = s.policy := by
  unfold responseWindowExpires; simp only [KeepsWorld, KeepsPort, KeepsHinge, KeepsPower]; (repeat' split) <;> first | done | (simp; done) | (simp_all; done) | rfl

@[simp] theorem discardExpires_frame (target : Nat) (command : Byte) (s : State) :
    KeepsWorld (discardExpires target command s) s ∧ KeepsPort (discardExpires target command s) s ∧
    KeepsTraffic (discardExpires target command s) s ∧ KeepsHinge (discardExpires target command s) s ∧
    KeepsPower (discardExpires target command s) s ∧ KeepsHost (discardExpires target command s) s ∧
    (discardExpires target command s).link = s.link ∧ (discardExpires target command s).att = s.att := by
  unfold discardExpires; simp only [KeepsWorld, KeepsPort, KeepsTraffic, KeepsHinge, KeepsPower, KeepsHost]; (repeat' split) <;> first | done | (simp; done) | (simp_all; done) | rfl

@[simp] theorem commandSent_frame (s : State) :
    KeepsWorld (commandSent s) s ∧ KeepsPort (commandSent s) s ∧ KeepsTraffic (commandSent s) s ∧
    KeepsHinge (commandSent s) s ∧ KeepsPower (commandSent s) s ∧ KeepsHost (commandSent s) s ∧
    (commandSent s).link = s.link ∧ (commandSent s).att = s.att := by
  unfold commandSent; simp only [KeepsWorld, KeepsPort, KeepsTraffic, KeepsHinge, KeepsPower, KeepsHost]; (repeat' split) <;> first | done | (simp; done) | (simp_all; done) | rfl

@[simp] theorem baseRequestTaken_frame (target : Nat) (command : Byte) (data : List Byte) (s : State) :
    KeepsWorld (baseRequestTaken target command data s).1 s ∧ KeepsPort (baseRequestTaken target command data s).1 s ∧
    KeepsHinge (baseRequestTaken target command data s).1 s ∧ KeepsPower (baseRequestTaken target command data s).1 s ∧
    (baseRequestTaken target command data s).1.tx = s.tx ∧ (baseRequestTaken target command data s).1.route = s.route ∧
    (baseRequestTaken target command data s).1.link = s.link ∧ (baseRequestTaken target command data s).1.att = s.att ∧
    (baseRequestTaken target command data s).1.policy = s.policy ∧
    (baseRequestTaken target command data s).1.mgmt = s.mgmt := by
  unfold baseRequestTaken; simp only [KeepsWorld, KeepsPort, KeepsHinge, KeepsPower]; (repeat' split) <;> first | done | (simp; done) | (simp_all; done) | rfl

@[simp] theorem setLinkState_frame (new : LinkState) (s : State) :
    KeepsWorld (setLinkState new s) s ∧ KeepsPort (setLinkState new s) s ∧ KeepsPower (setLinkState new s) s ∧
    (setLinkState new s).tx = s.tx ∧ (setLinkState new s).pool = s.pool ∧ (setLinkState new s).att = s.att ∧
    (setLinkState new s).issuer = s.issuer ∧ (setLinkState new s).orient = s.orient := by
  unfold setLinkState; simp only [KeepsWorld, KeepsPort, KeepsPower]; (repeat' split) <;> first | done | (simp; done) | (simp_all; done) | rfl

@[simp] theorem stopLinkTimers_frame (s : State) :
    KeepsWorld (stopLinkTimers s) s ∧ KeepsPort (stopLinkTimers s) s ∧ KeepsTraffic (stopLinkTimers s) s ∧
    KeepsHinge (stopLinkTimers s) s ∧ KeepsPower (stopLinkTimers s) s ∧ KeepsHost (stopLinkTimers s) s ∧
    (stopLinkTimers s).att = s.att ∧ (stopLinkTimers s).issuer = s.issuer := by
  unfold stopLinkTimers; simp only [KeepsWorld, KeepsPort, KeepsTraffic, KeepsHinge, KeepsPower, KeepsHost]; (repeat' split) <;> first | done | (simp; done) | (simp_all; done) | rfl

@[simp] theorem endDiagnosis_frame (cause : DiagEnd) (s : State) :
    KeepsWorld (endDiagnosis cause s) s ∧ KeepsPort (endDiagnosis cause s) s ∧ KeepsTraffic (endDiagnosis cause s) s ∧
    KeepsHinge (endDiagnosis cause s) s ∧ KeepsPower (endDiagnosis cause s) s ∧ KeepsHost (endDiagnosis cause s) s ∧
    (endDiagnosis cause s).link = s.link ∧ (endDiagnosis cause s).issuer = s.issuer := by
  unfold endDiagnosis; simp only [KeepsWorld, KeepsPort, KeepsTraffic, KeepsHinge, KeepsPower, KeepsHost]; (repeat' split) <;> first | done | (simp; done) | (simp_all; done) | rfl

@[simp] theorem releaseBase_frame (s : State) :
    KeepsWorld (releaseBase s) s ∧ KeepsPort (releaseBase s) s ∧ KeepsTraffic (releaseBase s) s ∧
    KeepsBase (releaseBase s) s ∧ KeepsHinge (releaseBase s) s := by
  unfold releaseBase; simp only [KeepsWorld, KeepsPort, KeepsTraffic, KeepsBase, KeepsHinge]; (repeat' split) <;> first | done | (simp; done) | (simp_all; done) | rfl

@[simp] theorem claimBase_frame (withinRaise : Bool) (amount : Nat) (s : State) :
    KeepsWorld (claimBase withinRaise amount s).1 s ∧ KeepsPort (claimBase withinRaise amount s).1 s ∧
    KeepsTraffic (claimBase withinRaise amount s).1 s ∧ KeepsBase (claimBase withinRaise amount s).1 s ∧
    KeepsHinge (claimBase withinRaise amount s).1 s := by
  unfold claimBase; simp only [KeepsWorld, KeepsPort, KeepsTraffic, KeepsBase, KeepsHinge]; (repeat' split) <;> first | done | (simp; done) | (simp_all; done) | rfl

@[simp] theorem enterUnpowered_frame (demand : Nat) (s : State) :
    KeepsWorld (enterUnpowered demand s) s ∧ KeepsPort (enterUnpowered demand s) s ∧
    (enterUnpowered demand s).tx = s.tx ∧ (enterUnpowered demand s).orient = s.orient := by
  unfold enterUnpowered; simp only [KeepsWorld, KeepsPort]; (repeat' split) <;> first | done | (simp; done) | (simp_all; done) | rfl

@[simp] theorem enterFaulted_frame (s : State) :
    KeepsWorld (enterFaulted s) s ∧ KeepsPort (enterFaulted s) s ∧ (enterFaulted s).tx = s.tx ∧
    (enterFaulted s).orient = s.orient := by
  unfold enterFaulted; simp only [KeepsWorld, KeepsPort]; (repeat' split) <;> first | done | (simp; done) | (simp_all; done) | rfl

@[simp] theorem enterPowering_frame (withinRaise : Bool) (s : State) :
    KeepsWorld (enterPowering withinRaise s) s ∧ KeepsPort (enterPowering withinRaise s) s ∧
    (enterPowering withinRaise s).tx = s.tx ∧ (enterPowering withinRaise s).orient = s.orient := by
  unfold enterPowering; simp only [KeepsWorld, KeepsPort]; (repeat' split) <;> first | done | (simp; done) | (simp_all; done) | rfl

@[simp] theorem attemptAt_frame (r : Rate) (n : Nat) (s : State) :
    KeepsWorld (attemptAt r n s) s ∧ KeepsPort (attemptAt r n s) s ∧ KeepsTraffic (attemptAt r n s) s ∧
    KeepsHinge (attemptAt r n s) s ∧ KeepsPower (attemptAt r n s) s ∧ KeepsHost (attemptAt r n s) s ∧
    (attemptAt r n s).att = s.att ∧ (attemptAt r n s).issuer = s.issuer := by
  unfold attemptAt; simp only [KeepsWorld, KeepsPort, KeepsTraffic, KeepsHinge, KeepsPower, KeepsHost]; (repeat' split) <;> first | done | (simp; done) | (simp_all; done) | rfl

@[simp] theorem startTraining_frame (s : State) :
    KeepsWorld (startTraining s) s ∧ KeepsPort (startTraining s) s ∧ KeepsPower (startTraining s) s ∧
    (startTraining s).tx = s.tx ∧ (startTraining s).pool = s.pool ∧ (startTraining s).att = s.att ∧
    (startTraining s).issuer = s.issuer ∧ (startTraining s).orient = s.orient := by
  unfold startTraining; simp only [KeepsWorld, KeepsPort, KeepsPower]; (repeat' split) <;> first | done | (simp; done) | (simp_all; done) | rfl

@[simp] theorem startResetDrive_frame (s : State) :
    KeepsWorld (startResetDrive s) s ∧ KeepsPort (startResetDrive s) s ∧ KeepsPower (startResetDrive s) s ∧
    (startResetDrive s).tx = s.tx ∧ (startResetDrive s).pool = s.pool ∧ (startResetDrive s).att = s.att ∧
    (startResetDrive s).issuer = s.issuer ∧ (startResetDrive s).orient = s.orient := by
  unfold startResetDrive; simp only [KeepsWorld, KeepsPort, KeepsPower]; (repeat' split) <;> first | done | (simp; done) | (simp_all; done) | rfl

@[simp] theorem enterUnreachable_frame (s : State) :
    KeepsWorld (enterUnreachable s) s ∧ KeepsPort (enterUnreachable s) s ∧ KeepsPower (enterUnreachable s) s ∧
    (enterUnreachable s).tx = s.tx ∧ (enterUnreachable s).pool = s.pool ∧ (enterUnreachable s).att = s.att ∧
    (enterUnreachable s).issuer = s.issuer ∧ (enterUnreachable s).orient = s.orient := by
  unfold enterUnreachable; simp only [KeepsWorld, KeepsPort, KeepsPower]; (repeat' split) <;> first | done | (simp; done) | (simp_all; done) | rfl

@[simp] theorem attemptFails_frame (s : State) :
    KeepsWorld (attemptFails s) s ∧ KeepsPort (attemptFails s) s ∧ KeepsPower (attemptFails s) s ∧
    (attemptFails s).tx = s.tx ∧ (attemptFails s).pool = s.pool ∧ (attemptFails s).att = s.att ∧
    (attemptFails s).issuer = s.issuer ∧ (attemptFails s).orient = s.orient := by
  unfold attemptFails; simp only [KeepsWorld, KeepsPort, KeepsPower]; (repeat' split) <;> first | done | (simp; done) | (simp_all; done) | rfl

@[simp] theorem askChunk_frame (chunk attempt : Nat) (s : State) :
    KeepsWorld (askChunk chunk attempt s) s ∧ KeepsPort (askChunk chunk attempt s) s ∧
    KeepsTraffic (askChunk chunk attempt s) s ∧ KeepsHinge (askChunk chunk attempt s) s ∧
    KeepsPower (askChunk chunk attempt s) s ∧ KeepsHost (askChunk chunk attempt s) s ∧
    (askChunk chunk attempt s).att = s.att ∧ (askChunk chunk attempt s).issuer = s.issuer := by
  unfold askChunk; simp only [KeepsWorld, KeepsPort, KeepsTraffic, KeepsHinge, KeepsPower, KeepsHost]; (repeat' split) <;> first | done | (simp; done) | (simp_all; done) | rfl

@[simp] theorem attemptSucceeds_frame (s : State) :
    KeepsWorld (attemptSucceeds s) s ∧ KeepsPort (attemptSucceeds s) s ∧ KeepsPower (attemptSucceeds s) s ∧
    (attemptSucceeds s).tx = s.tx ∧ (attemptSucceeds s).pool = s.pool ∧ (attemptSucceeds s).att = s.att ∧
    (attemptSucceeds s).issuer = s.issuer ∧ (attemptSucceeds s).orient = s.orient := by
  unfold attemptSucceeds; simp only [KeepsWorld, KeepsPort, KeepsPower]; (repeat' split) <;> first | done | (simp; done) | (simp_all; done) | rfl

@[simp] theorem enterReady_frame (s : State) :
    KeepsWorld (enterReady s) s ∧ KeepsPort (enterReady s) s ∧ KeepsPower (enterReady s) s ∧ (enterReady s).tx = s.tx ∧
    (enterReady s).att = s.att ∧ (enterReady s).orient = s.orient := by
  unfold enterReady; simp only [KeepsWorld, KeepsPort, KeepsPower]; (repeat' split) <;> first | done | (simp; done) | (simp_all; done) | rfl

@[simp] theorem identificationEnds_frame (i : Identity) (s : State) :
    KeepsWorld (identificationEnds i s) s ∧ KeepsPort (identificationEnds i s) s ∧ (identificationEnds i s).tx = s.tx ∧
    (identificationEnds i s).orient = s.orient := by
  unfold identificationEnds; simp only [KeepsWorld, KeepsPort]; (repeat' split) <;> first | done | (simp; done) | (simp_all; done) | rfl

@[simp] theorem describeExpires_frame (s : State) :
    KeepsWorld (describeExpires s) s ∧ KeepsPort (describeExpires s) s ∧ (describeExpires s).tx = s.tx ∧
    (describeExpires s).orient = s.orient := by
  unfold describeExpires; simp only [KeepsWorld, KeepsPort]; (repeat' split) <;> first | done | (simp; done) | (simp_all; done) | rfl

@[simp] theorem linkDrops_frame (s : State) :
    KeepsWorld (linkDrops s) s ∧ KeepsPort (linkDrops s) s ∧ KeepsTraffic (linkDrops s) s ∧ KeepsHinge (linkDrops s) s ∧
    KeepsPower (linkDrops s) s ∧ KeepsHost (linkDrops s) s ∧ (linkDrops s).link = s.link ∧ (linkDrops s).issuer = s.issuer := by
  unfold linkDrops; simp only [KeepsWorld, KeepsPort, KeepsTraffic, KeepsHinge, KeepsPower, KeepsHost]; (repeat' split) <;> first | done | (simp; done) | (simp_all; done) | rfl

@[simp] theorem takeChunk_frame (number : Byte) (bytes : List Byte) (s : State) :
    KeepsWorld (takeChunk number bytes s) s ∧ KeepsPort (takeChunk number bytes s) s ∧
    (takeChunk number bytes s).tx = s.tx ∧ (takeChunk number bytes s).orient = s.orient := by
  unfold takeChunk; simp only [KeepsWorld, KeepsPort]; (repeat' split) <;> first | done | (simp; done) | (simp_all; done) | rfl

@[simp] theorem linkLoss_frame (s : State) :
    KeepsWorld (linkLoss s) s ∧ KeepsPort (linkLoss s) s ∧ KeepsPower (linkLoss s) s ∧ (linkLoss s).tx = s.tx ∧
    (linkLoss s).att = s.att ∧ (linkLoss s).orient = s.orient := by
  unfold linkLoss; simp only [KeepsWorld, KeepsPort, KeepsPower]; (repeat' split) <;> first | done | (simp; done) | (simp_all; done) | rfl

@[simp] theorem enterQuiet_frame (s : State) :
    KeepsWorld (enterQuiet s) s ∧ KeepsPort (enterQuiet s) s ∧ KeepsPower (enterQuiet s) s ∧ (enterQuiet s).tx = s.tx ∧
    (enterQuiet s).pool = s.pool ∧ (enterQuiet s).att = s.att ∧ (enterQuiet s).issuer = s.issuer ∧
    (enterQuiet s).orient = s.orient := by
  unfold enterQuiet; simp only [KeepsWorld, KeepsPort, KeepsPower]; (repeat' split) <;> first | done | (simp; done) | (simp_all; done) | rfl

@[simp] theorem quietExpires_frame (s : State) :
    KeepsWorld (quietExpires s) s ∧ KeepsPort (quietExpires s) s ∧ KeepsPower (quietExpires s) s ∧
    (quietExpires s).tx = s.tx ∧ (quietExpires s).pool = s.pool ∧ (quietExpires s).att = s.att ∧
    (quietExpires s).issuer = s.issuer ∧ (quietExpires s).orient = s.orient := by
  unfold quietExpires; simp only [KeepsWorld, KeepsPort, KeepsPower]; (repeat' split) <;> first | done | (simp; done) | (simp_all; done) | rfl

@[simp] theorem wakeTimeExpires_frame (s : State) :
    KeepsWorld (wakeTimeExpires s) s ∧ KeepsPort (wakeTimeExpires s) s ∧ KeepsPower (wakeTimeExpires s) s ∧
    (wakeTimeExpires s).tx = s.tx ∧ (wakeTimeExpires s).att = s.att ∧ (wakeTimeExpires s).orient = s.orient := by
  unfold wakeTimeExpires; simp only [KeepsWorld, KeepsPort, KeepsPower]; (repeat' split) <;> first | done | (simp; done) | (simp_all; done) | rfl

@[simp] theorem wakeSignalled_frame (s : State) :
    KeepsWorld (wakeSignalled s) s ∧ KeepsPort (wakeSignalled s) s ∧ KeepsTraffic (wakeSignalled s) s ∧
    KeepsHinge (wakeSignalled s) s ∧ KeepsPower (wakeSignalled s) s ∧ KeepsHost (wakeSignalled s) s ∧
    (wakeSignalled s).att = s.att ∧ (wakeSignalled s).issuer = s.issuer := by
  unfold wakeSignalled; simp only [KeepsWorld, KeepsPort, KeepsTraffic, KeepsHinge, KeepsPower, KeepsHost]; (repeat' split) <;> first | done | (simp; done) | (simp_all; done) | rfl

@[simp] theorem sendKeepAlive_frame (s : State) :
    KeepsWorld (sendKeepAlive s) s ∧ KeepsPort (sendKeepAlive s) s ∧ KeepsTraffic (sendKeepAlive s) s ∧
    KeepsHinge (sendKeepAlive s) s ∧ KeepsPower (sendKeepAlive s) s ∧ KeepsHost (sendKeepAlive s) s ∧
    (sendKeepAlive s).att = s.att ∧ (sendKeepAlive s).issuer = s.issuer := by
  unfold sendKeepAlive; simp only [KeepsWorld, KeepsPort, KeepsTraffic, KeepsHinge, KeepsPower, KeepsHost]; (repeat' split) <;> first | done | (simp; done) | (simp_all; done) | rfl

@[simp] theorem keepAliveExpires_frame (s : State) :
    KeepsWorld (keepAliveExpires s) s ∧ KeepsPort (keepAliveExpires s) s ∧ KeepsTraffic (keepAliveExpires s) s ∧
    KeepsHinge (keepAliveExpires s) s ∧ KeepsPower (keepAliveExpires s) s ∧ KeepsHost (keepAliveExpires s) s ∧
    (keepAliveExpires s).att = s.att ∧ (keepAliveExpires s).issuer = s.issuer := by
  unfold keepAliveExpires; simp only [KeepsWorld, KeepsPort, KeepsTraffic, KeepsHinge, KeepsPower, KeepsHost]; (repeat' split) <;> first | done | (simp; done) | (simp_all; done) | rfl

@[simp] theorem keepAliveEchoes_frame (s : State) :
    KeepsWorld (keepAliveEchoes s) s ∧ KeepsPort (keepAliveEchoes s) s ∧ KeepsPower (keepAliveEchoes s) s ∧
    (keepAliveEchoes s).tx = s.tx ∧ (keepAliveEchoes s).pool = s.pool ∧ (keepAliveEchoes s).att = s.att ∧
    (keepAliveEchoes s).issuer = s.issuer ∧ (keepAliveEchoes s).orient = s.orient := by
  unfold keepAliveEchoes; simp only [KeepsWorld, KeepsPort, KeepsPower]; (repeat' split) <;> first | done | (simp; done) | (simp_all; done) | rfl

@[simp] theorem hingeFrameDone_frame (s : State) :
    KeepsWorld (hingeFrameDone s) s ∧ KeepsPort (hingeFrameDone s) s ∧ KeepsHinge (hingeFrameDone s) s ∧
    KeepsPower (hingeFrameDone s) s ∧ KeepsHost (hingeFrameDone s) s ∧ (hingeFrameDone s).tx = s.tx ∧
    (hingeFrameDone s).route = s.route ∧ (hingeFrameDone s).att = s.att := by
  unfold hingeFrameDone; simp only [KeepsWorld, KeepsPort, KeepsHinge, KeepsPower, KeepsHost]; (repeat' split) <;> first | done | (simp; done) | (simp_all; done) | rfl

@[simp] theorem presenceAsserts_frame (s : State) :
    KeepsWorld (presenceAsserts s) s ∧ KeepsPower (presenceAsserts s) s ∧ (presenceAsserts s).rx = s.rx ∧
    (presenceAsserts s).tx = s.tx ∧ (presenceAsserts s).uplinkErrors = s.uplinkErrors ∧
    (presenceAsserts s).pool = s.pool ∧ (presenceAsserts s).poller = s.poller ∧ (presenceAsserts s).att = s.att ∧
    (presenceAsserts s).issuer = s.issuer ∧ (presenceAsserts s).orient = s.orient := by
  unfold presenceAsserts; simp only [KeepsWorld, KeepsPower]; (repeat' split) <;> first | done | (simp; done) | (simp_all; done) | rfl

@[simp] theorem debounceExpires_frame (s : State) :
    KeepsWorld (debounceExpires s) s ∧ KeepsPort (debounceExpires s) s ∧ (debounceExpires s).tx = s.tx ∧
    (debounceExpires s).orient = s.orient := by
  unfold debounceExpires; simp only [KeepsWorld, KeepsPort]; (repeat' split) <;> first | done | (simp; done) | (simp_all; done) | rfl

@[simp] theorem detachBase_frame (s : State) :
    KeepsWorld (detachBase s) s ∧ KeepsPort (detachBase s) s ∧ (detachBase s).tx = s.tx ∧ (detachBase s).orient = s.orient := by
  unfold detachBase; simp only [KeepsWorld, KeepsPort]; (repeat' split) <;> first | done | (simp; done) | (simp_all; done) | rfl

@[simp] theorem presenceReleases_frame (s : State) :
    KeepsWorld (presenceReleases s) s ∧ (presenceReleases s).rx = s.rx ∧ (presenceReleases s).tx = s.tx ∧
    (presenceReleases s).uplinkErrors = s.uplinkErrors ∧ (presenceReleases s).poller = s.poller ∧
    (presenceReleases s).orient = s.orient := by
  unfold presenceReleases; simp only [KeepsWorld]; (repeat' split) <;> first | done | (simp; done) | (simp_all; done) | rfl

@[simp] theorem railUpExpires_frame (s : State) :
    KeepsWorld (railUpExpires s) s ∧ KeepsPort (railUpExpires s) s ∧ KeepsPower (railUpExpires s) s ∧
    (railUpExpires s).tx = s.tx ∧ (railUpExpires s).pool = s.pool ∧ (railUpExpires s).att = s.att ∧
    (railUpExpires s).issuer = s.issuer ∧ (railUpExpires s).orient = s.orient := by
  unfold railUpExpires; simp only [KeepsWorld, KeepsPort, KeepsPower]; (repeat' split) <;> first | done | (simp; done) | (simp_all; done) | rfl

@[simp] theorem retryExpires_frame (s : State) :
    KeepsWorld (retryExpires s) s ∧ KeepsPort (retryExpires s) s ∧ KeepsPower (retryExpires s) s ∧
    (retryExpires s).tx = s.tx ∧ (retryExpires s).pool = s.pool ∧ (retryExpires s).att = s.att ∧
    (retryExpires s).issuer = s.issuer ∧ (retryExpires s).orient = s.orient := by
  unfold retryExpires; simp only [KeepsWorld, KeepsPort, KeepsPower]; (repeat' split) <;> first | done | (simp; done) | (simp_all; done) | rfl

@[simp] theorem resetDriveExpires_frame (s : State) :
    KeepsWorld (resetDriveExpires s) s ∧ KeepsPort (resetDriveExpires s) s ∧ KeepsTraffic (resetDriveExpires s) s ∧
    KeepsHinge (resetDriveExpires s) s ∧ KeepsPower (resetDriveExpires s) s ∧ KeepsHost (resetDriveExpires s) s ∧
    (resetDriveExpires s).att = s.att ∧ (resetDriveExpires s).issuer = s.issuer := by
  unfold resetDriveExpires; simp only [KeepsWorld, KeepsPort, KeepsTraffic, KeepsHinge, KeepsPower, KeepsHost]; (repeat' split) <;> first | done | (simp; done) | (simp_all; done) | rfl

@[simp] theorem trainingEchoes_frame (unchanged : Bool) (s : State) :
    KeepsWorld (trainingEchoes unchanged s) s ∧ KeepsPort (trainingEchoes unchanged s) s ∧
    KeepsPower (trainingEchoes unchanged s) s ∧ (trainingEchoes unchanged s).tx = s.tx ∧
    (trainingEchoes unchanged s).pool = s.pool ∧ (trainingEchoes unchanged s).att = s.att ∧
    (trainingEchoes unchanged s).issuer = s.issuer ∧ (trainingEchoes unchanged s).orient = s.orient := by
  unfold trainingEchoes; simp only [KeepsWorld, KeepsPort, KeepsPower]; (repeat' split) <;> first | done | (simp; done) | (simp_all; done) | rfl

@[simp] theorem echoExpires_frame (s : State) :
    KeepsWorld (echoExpires s) s ∧ KeepsPort (echoExpires s) s ∧ KeepsPower (echoExpires s) s ∧
    (echoExpires s).tx = s.tx ∧ (echoExpires s).pool = s.pool ∧ (echoExpires s).att = s.att ∧
    (echoExpires s).issuer = s.issuer ∧ (echoExpires s).orient = s.orient := by
  unfold echoExpires; simp only [KeepsWorld, KeepsPort, KeepsPower]; (repeat' split) <;> first | done | (simp; done) | (simp_all; done) | rfl

@[simp] theorem keepAliveWindowExpires_frame (s : State) :
    KeepsWorld (keepAliveWindowExpires s) s ∧ KeepsPort (keepAliveWindowExpires s) s ∧
    KeepsPower (keepAliveWindowExpires s) s ∧ (keepAliveWindowExpires s).tx = s.tx ∧
    (keepAliveWindowExpires s).att = s.att ∧ (keepAliveWindowExpires s).orient = s.orient := by
  unfold keepAliveWindowExpires; simp only [KeepsWorld, KeepsPort, KeepsPower]; (repeat' split) <;> first | done | (simp; done) | (simp_all; done) | rfl

@[simp] theorem baseResetTaken_frame (s : State) :
    KeepsWorld (baseResetTaken s).1 s ∧ KeepsPort (baseResetTaken s).1 s ∧ (baseResetTaken s).1.tx = s.tx ∧
    (baseResetTaken s).1.orient = s.orient := by
  unfold baseResetTaken; simp only [KeepsWorld, KeepsPort]; (repeat' split) <;> first | done | (simp; done) | (simp_all; done) | rfl

@[simp] theorem linkDiagnoseTaken_frame (s : State) :
    KeepsWorld (linkDiagnoseTaken s).1 s ∧ KeepsPort (linkDiagnoseTaken s).1 s ∧ KeepsPower (linkDiagnoseTaken s).1 s ∧
    (linkDiagnoseTaken s).1.tx = s.tx ∧ (linkDiagnoseTaken s).1.issuer = s.issuer ∧
    (linkDiagnoseTaken s).1.orient = s.orient := by
  unfold linkDiagnoseTaken; simp only [KeepsWorld, KeepsPort, KeepsPower]; (repeat' split) <;> first | done | (simp; done) | (simp_all; done) | rfl

@[simp] theorem measurementEnds_frame (o : PinOutcome) (s : State) :
    KeepsWorld (measurementEnds o s) s ∧ KeepsPort (measurementEnds o s) s ∧ KeepsPower (measurementEnds o s) s ∧
    (measurementEnds o s).tx = s.tx ∧ (measurementEnds o s).pool = s.pool ∧ (measurementEnds o s).issuer = s.issuer ∧
    (measurementEnds o s).orient = s.orient := by
  unfold measurementEnds; simp only [KeepsWorld, KeepsPort, KeepsPower]; (repeat' split) <;> first | done | (simp; done) | (simp_all; done) | rfl

@[simp] theorem changeAlarm_frame (c : Cause) (f : Alarm → Alarm) (s : State) :
    KeepsWorld (changeAlarm c f s) s ∧ KeepsPort (changeAlarm c f s) s ∧ KeepsTraffic (changeAlarm c f s) s ∧
    KeepsBase (changeAlarm c f s) s ∧ KeepsHinge (changeAlarm c f s) s ∧ KeepsHost (changeAlarm c f s) s ∧
    (changeAlarm c f s).pen = s.pen := by
  unfold changeAlarm; simp only [KeepsWorld, KeepsPort, KeepsTraffic, KeepsBase, KeepsHinge, KeepsHost]; (repeat' split) <;> first | done | (simp; done) | (simp_all; done) | rfl

@[simp] theorem setLatch_frame (c : OutCause) (s : State) :
    KeepsWorld (setLatch c s) s ∧ KeepsPort (setLatch c s) s ∧ (setLatch c s).tx = s.tx ∧ (setLatch c s).orient = s.orient := by
  unfold setLatch; simp only [KeepsWorld, KeepsPort]; (repeat' split) <;> first | done | (simp; done) | (simp_all; done) | rfl

@[simp] theorem setCap_frame (cap : PenLevel) (s : State) :
    KeepsWorld (setCap cap s) s ∧ KeepsPort (setCap cap s) s ∧ KeepsTraffic (setCap cap s) s ∧
    KeepsBase (setCap cap s) s ∧ KeepsHinge (setCap cap s) s := by
  unfold setCap; simp only [KeepsWorld, KeepsPort, KeepsTraffic, KeepsBase, KeepsHinge]; (repeat' split) <;> first | done | (simp; done) | (simp_all; done) | rfl

@[simp] theorem applyProtection_frame (c : OutCause) (p : Protection) (s : State) :
    KeepsWorld (applyProtection c p s) s ∧ KeepsPort (applyProtection c p s) s ∧ (applyProtection c p s).tx = s.tx ∧
    (applyProtection c p s).orient = s.orient := by
  unfold applyProtection; simp only [KeepsWorld, KeepsPort]; (repeat' split) <;> first | done | (simp; done) | (simp_all; done) | rfl

@[simp] theorem tellAlarm_frame (c : Cause) (p : Protection) (g : AlarmGrant) (s : State) :
    KeepsWorld (tellAlarm c p g s) s ∧ KeepsPort (tellAlarm c p g s) s ∧ KeepsTraffic (tellAlarm c p g s) s ∧
    KeepsBase (tellAlarm c p g s) s ∧ KeepsHinge (tellAlarm c p g s) s ∧ KeepsPower (tellAlarm c p g s) s ∧
    (tellAlarm c p g s).sleep = s.sleep := by
  unfold tellAlarm; simp only [KeepsWorld, KeepsPort, KeepsTraffic, KeepsBase, KeepsHinge, KeepsPower]; (repeat' split) <;> first | done | (simp; done) | (simp_all; done) | rfl

@[simp] theorem becomesDetected_frame (c : OutCause) (s : State) :
    KeepsWorld (becomesDetected c s) s ∧ KeepsPort (becomesDetected c s) s ∧ (becomesDetected c s).tx = s.tx ∧
    (becomesDetected c s).orient = s.orient := by
  unfold becomesDetected; simp only [KeepsWorld, KeepsPort]; (repeat' split) <;> first | done | (simp; done) | (simp_all; done) | rfl

@[simp] theorem rawAppears_frame (c : OutCause) (s : State) :
    KeepsWorld (rawAppears c s) s ∧ KeepsPort (rawAppears c s) s ∧ (rawAppears c s).tx = s.tx ∧
    (rawAppears c s).orient = s.orient := by
  unfold rawAppears; simp only [KeepsWorld, KeepsPort]; (repeat' split) <;> first | done | (simp; done) | (simp_all; done) | rfl

@[simp] theorem rawClears_frame (c : OutCause) (s : State) :
    KeepsWorld (rawClears c s) s ∧ KeepsPort (rawClears c s) s ∧ KeepsTraffic (rawClears c s) s ∧
    KeepsBase (rawClears c s) s ∧ KeepsHinge (rawClears c s) s ∧ (rawClears c s).pen = s.pen ∧
    (rawClears c s).sleep = s.sleep ∧ (rawClears c s).mgmt = s.mgmt := by
  unfold rawClears; simp only [KeepsWorld, KeepsPort, KeepsTraffic, KeepsBase, KeepsHinge]; (repeat' split) <;> first | done | (simp; done) | (simp_all; done) | rfl

@[simp] theorem filterExpires_frame (c : OutCause) (s : State) :
    KeepsWorld (filterExpires c s) s ∧ KeepsPort (filterExpires c s) s ∧ (filterExpires c s).tx = s.tx ∧
    (filterExpires c s).orient = s.orient := by
  unfold filterExpires; simp only [KeepsWorld, KeepsPort]; (repeat' split) <;> first | done | (simp; done) | (simp_all; done) | rfl

@[simp] theorem dieOtTaken_frame (s : State) :
    KeepsWorld (dieOtTaken s) s ∧ KeepsPort (dieOtTaken s) s ∧ KeepsTraffic (dieOtTaken s) s ∧
    KeepsBase (dieOtTaken s) s ∧ KeepsHinge (dieOtTaken s) s ∧ (dieOtTaken s).sleep = s.sleep := by
  unfold dieOtTaken; simp only [KeepsWorld, KeepsPort, KeepsTraffic, KeepsBase, KeepsHinge]; (repeat' split) <;> first | done | (simp; done) | (simp_all; done) | rfl

@[simp] theorem dieOtAppears_frame (s : State) :
    KeepsWorld (dieOtAppears s) s ∧ KeepsPort (dieOtAppears s) s ∧ KeepsTraffic (dieOtAppears s) s ∧
    KeepsBase (dieOtAppears s) s ∧ KeepsHinge (dieOtAppears s) s ∧ (dieOtAppears s).sleep = s.sleep := by
  unfold dieOtAppears; simp only [KeepsWorld, KeepsPort, KeepsTraffic, KeepsBase, KeepsHinge]; (repeat' split) <;> first | done | (simp; done) | (simp_all; done) | rfl

@[simp] theorem dieOtClears_frame (s : State) :
    KeepsWorld (dieOtClears s) s ∧ KeepsPort (dieOtClears s) s ∧ KeepsTraffic (dieOtClears s) s ∧
    KeepsBase (dieOtClears s) s ∧ KeepsHinge (dieOtClears s) s ∧ (dieOtClears s).sleep = s.sleep ∧
    (dieOtClears s).mgmt = s.mgmt := by
  unfold dieOtClears; simp only [KeepsWorld, KeepsPort, KeepsTraffic, KeepsBase, KeepsHinge]; (repeat' split) <;> first | done | (simp; done) | (simp_all; done) | rfl

@[simp] theorem stickyRead_frame (s : State) :
    KeepsWorld (stickyRead s) s ∧ KeepsPort (stickyRead s) s ∧ KeepsTraffic (stickyRead s) s ∧
    KeepsBase (stickyRead s) s ∧ KeepsHinge (stickyRead s) s ∧ KeepsHost (stickyRead s) s ∧ (stickyRead s).pen = s.pen := by
  unfold stickyRead; simp only [KeepsWorld, KeepsPort, KeepsTraffic, KeepsBase, KeepsHinge, KeepsHost]; (repeat' split) <;> first | done | (simp; done) | (simp_all; done) | rfl

@[simp] theorem clearCause_frame (c : OutCause) (s : State) :
    KeepsWorld (clearCause c s) s ∧ KeepsPort (clearCause c s) s ∧ KeepsTraffic (clearCause c s) s ∧
    KeepsBase (clearCause c s) s ∧ KeepsHinge (clearCause c s) s ∧ KeepsHost (clearCause c s) s ∧
    (clearCause c s).pen = s.pen := by
  unfold clearCause; simp only [KeepsWorld, KeepsPort, KeepsTraffic, KeepsBase, KeepsHinge, KeepsHost]; (repeat' split) <;> first | done | (simp; done) | (simp_all; done) | rfl

@[simp] theorem clearNamed_frame (set : Nat) (s : State) :
    KeepsWorld (clearNamed set s) s ∧ KeepsPort (clearNamed set s) s ∧ KeepsTraffic (clearNamed set s) s ∧
    KeepsBase (clearNamed set s) s ∧ KeepsHinge (clearNamed set s) s ∧ KeepsHost (clearNamed set s) s ∧
    (clearNamed set s).pen = s.pen := by
  unfold clearNamed; simp only [KeepsWorld, KeepsPort, KeepsTraffic, KeepsBase, KeepsHinge, KeepsHost]; (repeat' split) <;> first | done | (simp; done) | (simp_all; done) | rfl

@[simp] theorem clearAlarms_frame (set : Nat) (s : State) :
    KeepsWorld (clearAlarms set s) s ∧ KeepsPort (clearAlarms set s) s ∧ (clearAlarms set s).tx = s.tx ∧
    (clearAlarms set s).orient = s.orient := by
  unfold clearAlarms; simp only [KeepsWorld, KeepsPort]; (repeat' split) <;> first | done | (simp; done) | (simp_all; done) | rfl

@[simp] theorem latchIfDue_frame (before : Guard) (s₀ : State) (c : OutCause) (s : State) :
    KeepsWorld (latchIfDue before s₀ c s) s ∧ KeepsPort (latchIfDue before s₀ c s) s ∧
    KeepsTraffic (latchIfDue before s₀ c s) s ∧ KeepsBase (latchIfDue before s₀ c s) s ∧
    KeepsHinge (latchIfDue before s₀ c s) s ∧ KeepsHost (latchIfDue before s₀ c s) s ∧
    (latchIfDue before s₀ c s).pen = s.pen := by
  unfold latchIfDue; simp only [KeepsWorld, KeepsPort, KeepsTraffic, KeepsBase, KeepsHinge, KeepsHost]; (repeat' split) <;> first | done | (simp; done) | (simp_all; done) | rfl

@[simp] theorem protectIfDue_frame (before : Guard) (s₀ : State) (c : OutCause) (s : State) :
    KeepsWorld (protectIfDue before s₀ c s) s ∧ KeepsPort (protectIfDue before s₀ c s) s ∧
    (protectIfDue before s₀ c s).tx = s.tx ∧ (protectIfDue before s₀ c s).orient = s.orient := by
  unfold protectIfDue; simp only [KeepsWorld, KeepsPort]; (repeat' split) <;> first | done | (simp; done) | (simp_all; done) | rfl

@[simp] theorem protectNow_frame (before : Guard) (s₀ : State) :
    KeepsWorld (protectNow before s₀) s₀ ∧ KeepsPort (protectNow before s₀) s₀ ∧ (protectNow before s₀).tx = s₀.tx ∧
    (protectNow before s₀).orient = s₀.orient := by
  unfold protectNow; simp only [KeepsWorld, KeepsPort]; (repeat' split) <;> first | done | (simp; done) | (simp_all; done) | rfl

@[simp] theorem guardSetTaken_frame (a : GuardArg) (s : State) :
    KeepsWorld (guardSetTaken a s).1 s ∧ KeepsPort (guardSetTaken a s).1 s ∧ (guardSetTaken a s).1.tx = s.tx ∧
    (guardSetTaken a s).1.orient = s.orient := by
  unfold guardSetTaken; simp only [KeepsWorld, KeepsPort]; (repeat' split) <;> first | done | (simp; done) | (simp_all; done) | rfl

@[simp] theorem lowerBudget_frame (profiles : Profiles) (active : Nat) (s : State) :
    KeepsWorld (lowerBudget profiles active s) s ∧ KeepsPort (lowerBudget profiles active s) s ∧
    (lowerBudget profiles active s).tx = s.tx ∧ (lowerBudget profiles active s).orient = s.orient := by
  unfold lowerBudget; simp only [KeepsWorld, KeepsPort]; (repeat' split) <;> first | done | (simp; done) | (simp_all; done) | rfl

@[simp] theorem raiseBudget_frame (profiles : Profiles) (active : Nat) (s : State) :
    KeepsWorld (raiseBudget profiles active s) s ∧ KeepsPort (raiseBudget profiles active s) s ∧
    (raiseBudget profiles active s).tx = s.tx ∧ (raiseBudget profiles active s).orient = s.orient := by
  unfold raiseBudget; simp only [KeepsWorld, KeepsPort]; (repeat' split) <;> first | done | (simp; done) | (simp_all; done) | rfl

@[simp] theorem changeBudget_frame (profiles : Profiles) (active : Nat) (s : State) :
    KeepsWorld (changeBudget profiles active s) s ∧ KeepsPort (changeBudget profiles active s) s ∧
    (changeBudget profiles active s).tx = s.tx ∧ (changeBudget profiles active s).orient = s.orient := by
  unfold changeBudget; simp only [KeepsWorld, KeepsPort]; (repeat' split) <;> first | done | (simp; done) | (simp_all; done) | rfl

@[simp] theorem budgetProfile_frame (n : Nat) (s : State) :
    KeepsWorld (budgetProfile n s) s ∧ KeepsPort (budgetProfile n s) s ∧ (budgetProfile n s).tx = s.tx ∧
    (budgetProfile n s).orient = s.orient := by
  unfold budgetProfile; simp only [KeepsWorld, KeepsPort]; (repeat' split) <;> first | done | (simp; done) | (simp_all; done) | rfl

@[simp] theorem budgetSetTaken_frame (a : BudgetArg) (s : State) :
    KeepsWorld (budgetSetTaken a s).1 s ∧ KeepsPort (budgetSetTaken a s).1 s ∧ (budgetSetTaken a s).1.tx = s.tx ∧
    (budgetSetTaken a s).1.orient = s.orient := by
  unfold budgetSetTaken; simp only [KeepsWorld, KeepsPort]; (repeat' split) <;> first | done | (simp; done) | (simp_all; done) | rfl

@[simp] theorem issueClaim_frame (ev : PolicyEvent) (a : PolicyAction) (s : State) :
    KeepsWorld (issueClaim ev a s) s ∧ KeepsPort (issueClaim ev a s) s ∧ (issueClaim ev a s).tx = s.tx := by
  unfold issueClaim; simp only [KeepsWorld, KeepsPort]; (repeat' split) <;> first | done | (simp; done) | (simp_all; done) | rfl

@[simp] theorem takeEvent_frame (ev : PolicyEvent) (s : State) :
    KeepsWorld (takeEvent ev s) s ∧ KeepsPort (takeEvent ev s) s ∧ (takeEvent ev s).tx = s.tx := by
  unfold takeEvent
  generalize actionsFor ev s = l
  simp only [KeepsWorld, KeepsPort]
  induction l generalizing s with
  | nil => simp
  | cons a r ih => have h := ih (issueClaim ev a s); simpa using h

@[simp] theorem drainEvents_frame (s : State) :
    KeepsWorld (drainEvents s) s ∧ KeepsPort (drainEvents s) s ∧ (drainEvents s).tx = s.tx := by
  simp only [drainEvents, KeepsWorld, KeepsPort]
  refine ⟨⟨foldl_keeps _ State.pending (by simp) _ _, foldl_keeps _ State.now (by simp) _ _, foldl_keeps _ State.fresh (by simp) _ _, foldl_keeps _ State.held (by simp) _ _, foldl_keeps _ State.generic (by simp) _ _, foldl_keeps _ State.store (by simp) _ _⟩,
    ⟨foldl_keeps _ State.pins (by simp) _ _, foldl_keeps _ State.rx (by simp) _ _, foldl_keeps _ State.uplinkErrors (by simp) _ _, foldl_keeps _ State.poller (by simp) _ _⟩,
    foldl_keeps _ State.tx (by simp) _ _⟩

@[simp] theorem changeIngress_frame (src : Source) (f : Ingress → Ingress) (s : State) :
    KeepsWorld (changeIngress src f s) s ∧ KeepsPort (changeIngress src f s) s ∧ KeepsBase (changeIngress src f s) s ∧
    KeepsHinge (changeIngress src f s) s ∧ KeepsPower (changeIngress src f s) s ∧ KeepsHost (changeIngress src f s) s ∧
    (changeIngress src f s).tx = s.tx ∧ (changeIngress src f s).pool = s.pool := by
  unfold changeIngress; simp only [KeepsWorld, KeepsPort, KeepsBase, KeepsHinge, KeepsPower, KeepsHost]; (repeat' split) <;> first | done | (simp; done) | (simp_all; done) | rfl

@[simp] theorem changeRoute_frame (i : Nat) (f : RouteEntry → RouteEntry) (s : State) :
    KeepsWorld (changeRoute i f s) s ∧ KeepsPort (changeRoute i f s) s ∧ KeepsBase (changeRoute i f s) s ∧
    KeepsHinge (changeRoute i f s) s ∧ KeepsPower (changeRoute i f s) s ∧ KeepsHost (changeRoute i f s) s ∧
    (changeRoute i f s).tx = s.tx ∧ (changeRoute i f s).pool = s.pool := by
  unfold changeRoute; simp only [KeepsWorld, KeepsPort, KeepsBase, KeepsHinge, KeepsPower, KeepsHost]; (repeat' split) <;> first | done | (simp; done) | (simp_all; done) | rfl

@[simp] theorem tapFrame_frame (src : Source) (payload : List Byte) (s : State) :
    KeepsWorld (tapFrame src payload s) s ∧ KeepsPort (tapFrame src payload s) s ∧ (tapFrame src payload s).tx = s.tx := by
  unfold tapFrame; simp only [KeepsWorld, KeepsPort]; (repeat' split) <;> first | done | (simp; done) | (simp_all; done) | rfl

@[simp] theorem dropForLink_frame (s : State) :
    KeepsWorld (dropForLink s) s ∧ KeepsPort (dropForLink s) s ∧ KeepsBase (dropForLink s) s ∧
    KeepsHinge (dropForLink s) s ∧ KeepsPower (dropForLink s) s ∧ (dropForLink s).tx = s.tx ∧
    (dropForLink s).pool = s.pool ∧ (dropForLink s).policy = s.policy ∧ (dropForLink s).sleep = s.sleep := by
  unfold dropForLink; simp only [KeepsWorld, KeepsPort, KeepsBase, KeepsHinge, KeepsPower]; (repeat' split) <;> first | done | (simp; done) | (simp_all; done) | rfl

@[simp] theorem forwardFrame_frame (src : Source) (kind : Byte) (payload : List Byte) (damaged : Bool) (i : Nat) (dest : Dest) (s : State) :
    KeepsWorld (forwardFrame src kind payload damaged i dest s) s ∧
    KeepsPort (forwardFrame src kind payload damaged i dest s) s ∧
    KeepsBase (forwardFrame src kind payload damaged i dest s) s ∧
    KeepsHinge (forwardFrame src kind payload damaged i dest s) s ∧
    KeepsPower (forwardFrame src kind payload damaged i dest s) s ∧
    KeepsHost (forwardFrame src kind payload damaged i dest s) s ∧
    (forwardFrame src kind payload damaged i dest s).tx = s.tx := by
  unfold forwardFrame; simp only [KeepsWorld, KeepsPort, KeepsBase, KeepsHinge, KeepsPower, KeepsHost]; (repeat' split) <;> first | done | (simp; done) | (simp_all; done) | rfl

@[simp] theorem actOnFrame_frame (src : Source) (kind : Byte) (payload : List Byte) (damaged : Bool) (i : Nat) (f : RouteFields) (s : State) :
    KeepsWorld (actOnFrame src kind payload damaged i f s) s ∧ KeepsPort (actOnFrame src kind payload damaged i f s) s ∧
    KeepsBase (actOnFrame src kind payload damaged i f s) s ∧ KeepsHinge (actOnFrame src kind payload damaged i f s) s ∧
    KeepsPower (actOnFrame src kind payload damaged i f s) s ∧ (actOnFrame src kind payload damaged i f s).tx = s.tx ∧
    (actOnFrame src kind payload damaged i f s).policy = s.policy := by
  unfold actOnFrame; simp only [KeepsWorld, KeepsPort, KeepsBase, KeepsHinge, KeepsPower]; (repeat' split) <;> first | done | (simp; done) | (simp_all; done) | rfl

@[simp] theorem thinFrame_frame (src : Source) (kind : Byte) (payload : List Byte) (damaged : Bool) (i : Nat) (e : RouteEntry) (s : State) :
    KeepsWorld (thinFrame src kind payload damaged i e s) s ∧ KeepsPort (thinFrame src kind payload damaged i e s) s ∧
    KeepsBase (thinFrame src kind payload damaged i e s) s ∧ KeepsHinge (thinFrame src kind payload damaged i e s) s ∧
    KeepsPower (thinFrame src kind payload damaged i e s) s ∧ (thinFrame src kind payload damaged i e s).tx = s.tx ∧
    (thinFrame src kind payload damaged i e s).policy = s.policy := by
  unfold thinFrame; simp only [KeepsWorld, KeepsPort, KeepsBase, KeepsHinge, KeepsPower]; (repeat' split) <;> first | done | (simp; done) | (simp_all; done) | rfl

@[simp] theorem classify_frame (src : Source) (kind : Byte) (payload : List Byte) (damaged : Bool) (s : State) :
    KeepsWorld (classify src kind payload damaged s) s ∧ KeepsPort (classify src kind payload damaged s) s ∧
    KeepsBase (classify src kind payload damaged s) s ∧ KeepsHinge (classify src kind payload damaged s) s ∧
    KeepsPower (classify src kind payload damaged s) s ∧ (classify src kind payload damaged s).tx = s.tx ∧
    (classify src kind payload damaged s).policy = s.policy := by
  unfold classify; simp only [KeepsWorld, KeepsPort, KeepsBase, KeepsHinge, KeepsPower]; (repeat' split) <;> first | done | (simp; done) | (simp_all; done) | rfl

@[simp] theorem decideFrame_frame (src : Source) (kind : Byte) (payload : List Byte) (damaged : Bool) (s : State) :
    KeepsWorld (decideFrame src kind payload damaged s) s ∧ KeepsPort (decideFrame src kind payload damaged s) s ∧
    KeepsBase (decideFrame src kind payload damaged s) s ∧ KeepsHinge (decideFrame src kind payload damaged s) s ∧
    KeepsPower (decideFrame src kind payload damaged s) s ∧ (decideFrame src kind payload damaged s).tx = s.tx ∧
    (decideFrame src kind payload damaged s).policy = s.policy := by
  unfold decideFrame; simp only [KeepsWorld, KeepsPort, KeepsBase, KeepsHinge, KeepsPower]; (repeat' split) <;> first | done | (simp; done) | (simp_all; done) | rfl

@[simp] theorem routeFrame_frame (src : Source) (kind : Byte) (payload : List Byte) (damaged : Bool) (s : State) :
    KeepsWorld (routeFrame src kind payload damaged s) s ∧ KeepsPort (routeFrame src kind payload damaged s) s ∧
    (routeFrame src kind payload damaged s).tx = s.tx := by
  unfold routeFrame; simp only [KeepsWorld, KeepsPort]; (repeat' split) <;> first | done | (simp; done) | (simp_all; done) | rfl

@[simp] theorem noteRun_frame (damaged : Bool) (s : State) :
    KeepsWorld (noteRun damaged s) s ∧ KeepsPort (noteRun damaged s) s ∧ KeepsTraffic (noteRun damaged s) s ∧
    KeepsHinge (noteRun damaged s) s ∧ KeepsPower (noteRun damaged s) s ∧ KeepsHost (noteRun damaged s) s ∧
    (noteRun damaged s).att = s.att ∧ (noteRun damaged s).issuer = s.issuer := by
  unfold noteRun; simp only [KeepsWorld, KeepsPort, KeepsTraffic, KeepsHinge, KeepsPower, KeepsHost]; (repeat' split) <;> first | done | (simp; done) | (simp_all; done) | rfl

@[simp] theorem restartTimers_frame (damaged : Bool) (s : State) :
    KeepsWorld (restartTimers damaged s) s ∧ KeepsPort (restartTimers damaged s) s ∧
    KeepsTraffic (restartTimers damaged s) s ∧ KeepsHinge (restartTimers damaged s) s ∧
    KeepsPower (restartTimers damaged s) s ∧ KeepsHost (restartTimers damaged s) s ∧
    (restartTimers damaged s).att = s.att ∧ (restartTimers damaged s).issuer = s.issuer := by
  unfold restartTimers; simp only [KeepsWorld, KeepsPort, KeepsTraffic, KeepsHinge, KeepsPower, KeepsHost]; (repeat' split) <;> first | done | (simp; done) | (simp_all; done) | rfl

@[simp] theorem lossByRun_frame (s : State) :
    KeepsWorld (lossByRun s) s ∧ KeepsPort (lossByRun s) s ∧ KeepsPower (lossByRun s) s ∧ (lossByRun s).tx = s.tx ∧
    (lossByRun s).att = s.att ∧ (lossByRun s).orient = s.orient := by
  unfold lossByRun; simp only [KeepsWorld, KeepsPort, KeepsPower]; (repeat' split) <;> first | done | (simp; done) | (simp_all; done) | rfl

@[simp] theorem trafficArrives_frame (kind : Byte) (payload : List Byte) (check : Byte) (s : State) :
    KeepsWorld (trafficArrives kind payload check s) s ∧ KeepsPort (trafficArrives kind payload check s) s ∧
    (trafficArrives kind payload check s).tx = s.tx := by
  simp only [trafficArrives, receivedReady, receivedQuiet, KeepsWorld, KeepsPort]; (repeat' split) <;> first | done | (simp; done) | (simp_all; done) | rfl

@[simp] theorem responseIdentifying_frame (payload : List Byte) (s : State) :
    KeepsWorld (responseIdentifying payload s) s ∧ KeepsPort (responseIdentifying payload s) s ∧
    (responseIdentifying payload s).tx = s.tx ∧ (responseIdentifying payload s).orient = s.orient := by
  unfold responseIdentifying; simp only [KeepsWorld, KeepsPort]; (repeat' split) <;> first | done | (simp; done) | (simp_all; done) | rfl

@[simp] theorem responseArrives_frame (payload : List Byte) (check : Byte) (s : State) :
    KeepsWorld (responseArrives payload check s) s ∧ KeepsPort (responseArrives payload check s) s ∧
    (responseArrives payload check s).tx = s.tx ∧ (responseArrives payload check s).orient = s.orient := by
  simp only [responseArrives, receivedReady, receivedQuiet, KeepsWorld, KeepsPort]; (repeat' split) <;> first | done | (simp; done) | (simp_all; done) | rfl

@[simp] theorem wakeSignalArrives_frame (payload : List Byte) (check : Byte) (s : State) :
    KeepsWorld (wakeSignalArrives payload check s) s ∧ KeepsPort (wakeSignalArrives payload check s) s ∧
    KeepsPower (wakeSignalArrives payload check s) s ∧ (wakeSignalArrives payload check s).tx = s.tx ∧
    (wakeSignalArrives payload check s).orient = s.orient := by
  simp only [wakeSignalArrives, receivedReady, receivedQuiet, KeepsWorld, KeepsPort, KeepsPower]; (repeat' split) <;> first | done | (simp; done) | (simp_all; done) | rfl

@[simp] theorem unlistedArrives_frame (kind : Byte) (payload : List Byte) (check : Byte) (s : State) :
    KeepsWorld (unlistedArrives kind payload check s) s ∧ KeepsPort (unlistedArrives kind payload check s) s ∧
    KeepsPower (unlistedArrives kind payload check s) s ∧ (unlistedArrives kind payload check s).tx = s.tx ∧
    (unlistedArrives kind payload check s).orient = s.orient := by
  simp only [unlistedArrives, receivedReady, receivedQuiet, KeepsWorld, KeepsPort, KeepsPower]; (repeat' split) <;> first | done | (simp; done) | (simp_all; done) | rfl

theorem applyType_frame (t : Nat) (c : List Byte) (s s' : State) (h : applyType t c s = some s') :
    s'.pending = s.pending ∧ s'.now = s.now ∧ s'.fresh = s.fresh ∧ s'.held = s.held ∧ s'.pins = s.pins ∧ s'.rx = s.rx ∧
    s'.tx = s.tx ∧ s'.uplinkErrors = s.uplinkErrors ∧ s'.link = s.link ∧ s'.att = s.att ∧ s'.pen = s.pen ∧
    s'.mgmt = s.mgmt ∧ s'.store = s.store := by
  unfold applyType at h
  split at h <;> simp only [Option.map_eq_some_iff, Option.some.injEq] at h <;>
    (first | obtain ⟨_, _, rfl⟩ := h | subst h) <;> simp

theorem foldl_invariant {α β : Type} (P : β → Prop) (f : β → α → β) (h : ∀ b a, P b → P (f b a)) (l : List α) (b : β)
    (hb : P b) : P (l.foldl f b) := by
  induction l generalizing b with
  | nil => exact hb
  | cons a r ih => exact ih _ (h b a hb)

@[simp] theorem applySections_frame (sections : List Section) (s : State) :
    (applySections sections s).pending = s.pending ∧ (applySections sections s).now = s.now ∧
    (applySections sections s).fresh = s.fresh ∧ (applySections sections s).held = s.held ∧
    (applySections sections s).pins = s.pins ∧ (applySections sections s).rx = s.rx ∧
    (applySections sections s).tx = s.tx ∧ (applySections sections s).uplinkErrors = s.uplinkErrors ∧
    (applySections sections s).link = s.link ∧ (applySections sections s).att = s.att ∧
    (applySections sections s).pen = s.pen ∧ (applySections sections s).mgmt = s.mgmt ∧
    (applySections sections s).store = s.store := by
  unfold applySections
  refine foldl_invariant (fun u : State => u.pending = s.pending ∧ u.now = s.now ∧ u.fresh = s.fresh ∧ u.held = s.held ∧
    u.pins = s.pins ∧ u.rx = s.rx ∧ u.tx = s.tx ∧ u.uplinkErrors = s.uplinkErrors ∧ u.link = s.link ∧ u.att = s.att ∧
    u.pen = s.pen ∧ u.mgmt = s.mgmt ∧ u.store = s.store) _ ?_ _ _ (by simp)
  intro u t hu
  dsimp only
  split
  · cases h : applyType t (joined sections (BitVec.ofNat 8 t)) u with
    | none => simpa using hu
    | some u' => have := applyType_frame _ _ _ _ h; simp_all
  · exact hu

@[simp] theorem samplePresence_frame (s : State) :
    KeepsWorld (samplePresence s) s ∧ KeepsPort (samplePresence s) s ∧ KeepsPower (samplePresence s) s ∧
    (samplePresence s).tx = s.tx ∧ (samplePresence s).pool = s.pool ∧ (samplePresence s).att = s.att ∧
    (samplePresence s).issuer = s.issuer ∧ (samplePresence s).orient = s.orient := by
  unfold samplePresence; simp only [KeepsWorld, KeepsPort, KeepsPower]; (repeat' split) <;> first | done | (simp; done) | (simp_all; done) | rfl

@[simp] theorem sampleDock_frame (s : State) :
    KeepsWorld (sampleDock s) s ∧ KeepsPort (sampleDock s) s ∧ KeepsTraffic (sampleDock s) s ∧
    KeepsBase (sampleDock s) s ∧ KeepsHinge (sampleDock s) s ∧ KeepsHost (sampleDock s) s ∧ (sampleDock s).guard = s.guard := by
  unfold sampleDock; simp only [KeepsWorld, KeepsPort, KeepsTraffic, KeepsBase, KeepsHinge, KeepsHost]; (repeat' split) <;> first | done | (simp; done) | (simp_all; done) | rfl

@[simp] theorem startUpEnds_frame (r : StartResult) (s : State) :
    (startUpEnds r s).pending = s.pending ∧ (startUpEnds r s).now = s.now ∧ (startUpEnds r s).fresh = s.fresh ∧
    (startUpEnds r s).held = s.held ∧ (startUpEnds r s).pins = s.pins ∧ (startUpEnds r s).rx = s.rx ∧
    (startUpEnds r s).tx = s.tx ∧ (startUpEnds r s).uplinkErrors = s.uplinkErrors ∧ (startUpEnds r s).pool = s.pool ∧
    (startUpEnds r s).att = s.att ∧ (startUpEnds r s).generic = s.generic ∧ (startUpEnds r s).issuer = s.issuer ∧
    (startUpEnds r s).orient = s.orient := by
  unfold startUpEnds; dsimp only; (repeat' split) <;> first | done | (simp; done) | (simp_all; done) | rfl

@[simp] theorem storeHolds_frame (offset : Nat) (bytes : List Byte) (s : State) :
    KeepsPort (storeHolds offset bytes s) s ∧ KeepsTraffic (storeHolds offset bytes s) s ∧
    KeepsBase (storeHolds offset bytes s) s ∧ KeepsHinge (storeHolds offset bytes s) s ∧
    KeepsPower (storeHolds offset bytes s) s ∧ KeepsHost (storeHolds offset bytes s) s ∧
    (storeHolds offset bytes s).pending = s.pending ∧ (storeHolds offset bytes s).now = s.now ∧
    (storeHolds offset bytes s).fresh = s.fresh ∧ (storeHolds offset bytes s).held = s.held ∧
    (storeHolds offset bytes s).generic = s.generic := by
  unfold storeHolds; simp only [KeepsPort, KeepsTraffic, KeepsBase, KeepsHinge, KeepsPower, KeepsHost]; (repeat' split) <;> first | done | (simp; done) | (simp_all; done) | rfl

@[simp] theorem imageRead_frame (length : Nat) (crc : Word16) (body : List Byte) (s : State) :
    (imageRead length crc body s).pending = s.pending ∧ (imageRead length crc body s).now = s.now ∧
    (imageRead length crc body s).fresh = s.fresh ∧ (imageRead length crc body s).held = s.held ∧
    (imageRead length crc body s).pins = s.pins ∧ (imageRead length crc body s).rx = s.rx ∧
    (imageRead length crc body s).tx = s.tx ∧ (imageRead length crc body s).uplinkErrors = s.uplinkErrors ∧
    (imageRead length crc body s).att = s.att := by
  unfold imageRead; dsimp only; (repeat' split) <;> first | done | (simp; done) | (simp_all; done) | rfl

@[simp] theorem headerRead_frame (header : List Byte) (s : State) :
    (headerRead header s).pending = s.pending ∧ (headerRead header s).now = s.now ∧
    (headerRead header s).fresh = s.fresh ∧ (headerRead header s).held = s.held ∧ (headerRead header s).pins = s.pins ∧
    (headerRead header s).rx = s.rx ∧ (headerRead header s).tx = s.tx ∧
    (headerRead header s).uplinkErrors = s.uplinkErrors ∧ (headerRead header s).att = s.att := by
  unfold headerRead; dsimp only; (repeat' split) <;> first | done | (simp; done) | (simp_all; done) | rfl

@[simp] theorem readAnswered_frame (bytes : List Byte) (s : State) :
    (readAnswered bytes s).pending = s.pending ∧ (readAnswered bytes s).now = s.now ∧
    (readAnswered bytes s).fresh = s.fresh ∧ (readAnswered bytes s).held = s.held ∧
    (readAnswered bytes s).pins = s.pins ∧ (readAnswered bytes s).rx = s.rx ∧ (readAnswered bytes s).tx = s.tx ∧
    (readAnswered bytes s).uplinkErrors = s.uplinkErrors ∧ (readAnswered bytes s).att = s.att := by
  unfold readAnswered; dsimp only; (repeat' split) <;> first | done | (simp; done) | (simp_all; done) | rfl

@[simp] theorem writePage_frame (page : Nat) (bytes : List Byte) (s : State) :
    KeepsPort (writePage page bytes s) s ∧ KeepsTraffic (writePage page bytes s) s ∧
    KeepsBase (writePage page bytes s) s ∧ KeepsHinge (writePage page bytes s) s ∧
    KeepsPower (writePage page bytes s) s ∧ KeepsHost (writePage page bytes s) s ∧
    (writePage page bytes s).pending = s.pending ∧ (writePage page bytes s).now = s.now ∧
    (writePage page bytes s).fresh = s.fresh ∧ (writePage page bytes s).held = s.held ∧
    (writePage page bytes s).generic = s.generic := by
  unfold writePage; simp only [KeepsPort, KeepsTraffic, KeepsBase, KeepsHinge, KeepsPower, KeepsHost]; (repeat' split) <;> first | done | (simp; done) | (simp_all; done) | rfl

@[simp] theorem beginSave_frame (s : State) :
    KeepsPort (beginSave s) s ∧ KeepsTraffic (beginSave s) s ∧ KeepsBase (beginSave s) s ∧ KeepsHinge (beginSave s) s ∧
    KeepsPower (beginSave s) s ∧ (beginSave s).pending = s.pending ∧ (beginSave s).now = s.now ∧
    (beginSave s).held = s.held ∧ (beginSave s).generic = s.generic ∧ (beginSave s).policy = s.policy ∧
    (beginSave s).mgmt = s.mgmt := by
  simp only [beginSave, KeepsPort, KeepsTraffic, KeepsBase, KeepsHinge, KeepsPower]; (repeat' split) <;> first | done | (simp; done) | (simp_all; done) | rfl

@[simp] theorem beginErase_frame (s : State) :
    KeepsPort (beginErase s) s ∧ KeepsTraffic (beginErase s) s ∧ KeepsBase (beginErase s) s ∧
    KeepsHinge (beginErase s) s ∧ KeepsPower (beginErase s) s ∧ (beginErase s).pending = s.pending ∧
    (beginErase s).now = s.now ∧ (beginErase s).fresh = s.fresh ∧ (beginErase s).held = s.held ∧
    (beginErase s).generic = s.generic ∧ (beginErase s).policy = s.policy ∧ (beginErase s).mgmt = s.mgmt := by
  unfold beginErase; simp only [KeepsPort, KeepsTraffic, KeepsBase, KeepsHinge, KeepsPower]; (repeat' split) <;> first | done | (simp; done) | (simp_all; done) | rfl

@[simp] theorem releaseRestart_frame (s : State) :
    KeepsWorld (releaseRestart s) s ∧ KeepsPort (releaseRestart s) s ∧ KeepsTraffic (releaseRestart s) s ∧
    KeepsBase (releaseRestart s) s ∧ KeepsHinge (releaseRestart s) s ∧ KeepsPower (releaseRestart s) s ∧
    (releaseRestart s).policy = s.policy ∧ (releaseRestart s).sleep = s.sleep := by
  unfold releaseRestart; simp only [KeepsWorld, KeepsPort, KeepsTraffic, KeepsBase, KeepsHinge, KeepsPower]; (repeat' split) <;> first | done | (simp; done) | (simp_all; done) | rfl

@[simp] theorem operationEnds_frame (op : StoreOp) (e : StoreEnd) (s : State) :
    KeepsPort (operationEnds op e s) s ∧ KeepsTraffic (operationEnds op e s) s ∧ KeepsBase (operationEnds op e s) s ∧
    KeepsHinge (operationEnds op e s) s ∧ KeepsPower (operationEnds op e s) s ∧
    (operationEnds op e s).pending = s.pending ∧ (operationEnds op e s).now = s.now ∧
    (operationEnds op e s).fresh = s.fresh ∧ (operationEnds op e s).held = s.held ∧
    (operationEnds op e s).generic = s.generic ∧ (operationEnds op e s).policy = s.policy := by
  unfold operationEnds; simp only [KeepsPort, KeepsTraffic, KeepsBase, KeepsHinge, KeepsPower]; (repeat' split) <;> first | done | (simp; done) | (simp_all; done) | rfl

@[simp] theorem nextPage_frame (k : Nat) (sv : Save) (s : State) :
    KeepsPort (nextPage k sv s) s ∧ KeepsTraffic (nextPage k sv s) s ∧ KeepsBase (nextPage k sv s) s ∧
    KeepsHinge (nextPage k sv s) s ∧ KeepsPower (nextPage k sv s) s ∧ KeepsHost (nextPage k sv s) s ∧
    (nextPage k sv s).pending = s.pending ∧ (nextPage k sv s).now = s.now ∧ (nextPage k sv s).fresh = s.fresh ∧
    (nextPage k sv s).held = s.held ∧ (nextPage k sv s).generic = s.generic := by
  unfold nextPage; simp only [KeepsPort, KeepsTraffic, KeepsBase, KeepsHinge, KeepsPower, KeepsHost]; (repeat' split) <;> first | done | (simp; done) | (simp_all; done) | rfl

@[simp] theorem afterPage_frame (k : Nat) (s : State) :
    KeepsPort (afterPage k s) s ∧ KeepsTraffic (afterPage k s) s ∧ KeepsBase (afterPage k s) s ∧
    KeepsHinge (afterPage k s) s ∧ KeepsPower (afterPage k s) s ∧ (afterPage k s).pending = s.pending ∧
    (afterPage k s).now = s.now ∧ (afterPage k s).fresh = s.fresh ∧ (afterPage k s).held = s.held ∧
    (afterPage k s).generic = s.generic ∧ (afterPage k s).policy = s.policy := by
  unfold afterPage; simp only [KeepsPort, KeepsTraffic, KeepsBase, KeepsHinge, KeepsPower]; (repeat' split) <;> first | done | (simp; done) | (simp_all; done) | rfl

@[simp] theorem pageTaken_frame (s : State) :
    KeepsPort (pageTaken s) s ∧ KeepsTraffic (pageTaken s) s ∧ KeepsBase (pageTaken s) s ∧ KeepsHinge (pageTaken s) s ∧
    KeepsPower (pageTaken s) s ∧ (pageTaken s).pending = s.pending ∧ (pageTaken s).now = s.now ∧
    (pageTaken s).fresh = s.fresh ∧ (pageTaken s).held = s.held ∧ (pageTaken s).generic = s.generic ∧
    (pageTaken s).policy = s.policy := by
  unfold pageTaken; simp only [KeepsPort, KeepsTraffic, KeepsBase, KeepsHinge, KeepsPower]; (repeat' split) <;> first | done | (simp; done) | (simp_all; done) | rfl

@[simp] theorem exchangeUnanswered_frame (s : State) :
    (exchangeUnanswered s).pending = s.pending ∧ (exchangeUnanswered s).now = s.now ∧
    (exchangeUnanswered s).fresh = s.fresh ∧ (exchangeUnanswered s).held = s.held ∧
    (exchangeUnanswered s).pins = s.pins ∧ (exchangeUnanswered s).rx = s.rx ∧ (exchangeUnanswered s).tx = s.tx ∧
    (exchangeUnanswered s).uplinkErrors = s.uplinkErrors ∧ (exchangeUnanswered s).pool = s.pool ∧
    (exchangeUnanswered s).att = s.att ∧ (exchangeUnanswered s).generic = s.generic ∧
    (exchangeUnanswered s).issuer = s.issuer ∧ (exchangeUnanswered s).orient = s.orient := by
  unfold exchangeUnanswered; (repeat' split) <;> first | done | (simp; done) | (simp_all; done) | rfl

@[simp] theorem helloTaken_frame (s : State) :
    KeepsWorld (helloTaken s) s ∧ KeepsPort (helloTaken s) s ∧ KeepsTraffic (helloTaken s) s ∧
    KeepsBase (helloTaken s) s ∧ KeepsHinge (helloTaken s) s ∧ KeepsPower (helloTaken s) s ∧
    (helloTaken s).policy = s.policy ∧ (helloTaken s).mgmt = s.mgmt := by
  unfold helloTaken; simp only [KeepsWorld, KeepsPort, KeepsTraffic, KeepsBase, KeepsHinge, KeepsPower]; (repeat' split) <;> first | done | (simp; done) | (simp_all; done) | rfl

@[simp] theorem answerHello_frame (s : State) :
    KeepsWorld (answerHello s).after s ∧ KeepsPort (answerHello s).after s ∧ KeepsTraffic (answerHello s).after s ∧
    KeepsBase (answerHello s).after s ∧ KeepsHinge (answerHello s).after s ∧ KeepsPower (answerHello s).after s ∧
    (answerHello s).after.policy = s.policy ∧ (answerHello s).after.mgmt = s.mgmt := by
  unfold answerHello; simp only [KeepsWorld, KeepsPort, KeepsTraffic, KeepsBase, KeepsHinge, KeepsPower]; (repeat' split) <;> first | done | (simp; done) | (simp_all; done) | rfl

@[simp] theorem answerRouteWrite_frame (i : Nat) (e : RawRoute) (s : State) :
    KeepsWorld (answerRouteWrite i e s).after s ∧ KeepsPort (answerRouteWrite i e s).after s ∧
    KeepsBase (answerRouteWrite i e s).after s ∧ KeepsHinge (answerRouteWrite i e s).after s ∧
    KeepsPower (answerRouteWrite i e s).after s ∧ KeepsHost (answerRouteWrite i e s).after s ∧
    (answerRouteWrite i e s).after.tx = s.tx ∧ (answerRouteWrite i e s).after.pool = s.pool := by
  unfold answerRouteWrite; simp only [KeepsWorld, KeepsPort, KeepsBase, KeepsHinge, KeepsPower, KeepsHost]; (repeat' split) <;> first | done | (simp; done) | (simp_all; done) | rfl

@[simp] theorem answerWindowWrite_frame (i : Nat) (w : RawWindow) (s : State) :
    KeepsWorld (answerWindowWrite i w s).after s ∧ KeepsPort (answerWindowWrite i w s).after s ∧
    KeepsTraffic (answerWindowWrite i w s).after s ∧ KeepsBase (answerWindowWrite i w s).after s ∧
    KeepsPower (answerWindowWrite i w s).after s ∧ KeepsHost (answerWindowWrite i w s).after s ∧
    (answerWindowWrite i w s).after.orient = s.orient := by
  unfold answerWindowWrite; simp only [KeepsWorld, KeepsPort, KeepsTraffic, KeepsBase, KeepsPower, KeepsHost]; (repeat' split) <;> first | done | (simp; done) | (simp_all; done) | rfl

@[simp] theorem answerPolicyWrite_frame (i : Nat) (e : RawPolicy) (s : State) :
    KeepsWorld (answerPolicyWrite i e s).after s ∧ KeepsPort (answerPolicyWrite i e s).after s ∧
    KeepsTraffic (answerPolicyWrite i e s).after s ∧ KeepsBase (answerPolicyWrite i e s).after s ∧
    KeepsHinge (answerPolicyWrite i e s).after s ∧ KeepsPower (answerPolicyWrite i e s).after s ∧
    (answerPolicyWrite i e s).after.sleep = s.sleep ∧ (answerPolicyWrite i e s).after.mgmt = s.mgmt := by
  unfold answerPolicyWrite; simp only [KeepsWorld, KeepsPort, KeepsTraffic, KeepsBase, KeepsHinge, KeepsPower]; (repeat' split) <;> first | done | (simp; done) | (simp_all; done) | rfl

@[simp] theorem answerCountersUplink_frame (s : State) :
    KeepsWorld (answerCountersUplink s).after s ∧ KeepsTraffic (answerCountersUplink s).after s ∧
    KeepsBase (answerCountersUplink s).after s ∧ KeepsHinge (answerCountersUplink s).after s ∧
    KeepsPower (answerCountersUplink s).after s ∧ (answerCountersUplink s).after.pins = s.pins ∧
    (answerCountersUplink s).after.rx = s.rx ∧ (answerCountersUplink s).after.poller = s.poller ∧
    (answerCountersUplink s).after.policy = s.policy ∧ (answerCountersUplink s).after.sleep = s.sleep := by
  unfold answerCountersUplink; simp only [KeepsWorld, KeepsTraffic, KeepsBase, KeepsHinge, KeepsPower]; (repeat' split) <;> first | done | (simp; done) | (simp_all; done) | rfl

@[simp] theorem answerCountersRoute_frame (s : State) :
    KeepsWorld (answerCountersRoute s).after s ∧ KeepsPort (answerCountersRoute s).after s ∧
    KeepsBase (answerCountersRoute s).after s ∧ KeepsHinge (answerCountersRoute s).after s ∧
    KeepsPower (answerCountersRoute s).after s ∧ KeepsHost (answerCountersRoute s).after s ∧
    (answerCountersRoute s).after.tx = s.tx ∧ (answerCountersRoute s).after.pool = s.pool := by
  unfold answerCountersRoute; simp only [KeepsWorld, KeepsPort, KeepsBase, KeepsHinge, KeepsPower, KeepsHost]; (repeat' split) <;> first | done | (simp; done) | (simp_all; done) | rfl

@[simp] theorem answerCountersIssuer_frame (s : State) :
    KeepsWorld (answerCountersIssuer s).after s ∧ KeepsPort (answerCountersIssuer s).after s ∧
    KeepsTraffic (answerCountersIssuer s).after s ∧ KeepsHinge (answerCountersIssuer s).after s ∧
    KeepsPower (answerCountersIssuer s).after s ∧ KeepsHost (answerCountersIssuer s).after s ∧
    (answerCountersIssuer s).after.link = s.link ∧ (answerCountersIssuer s).after.att = s.att := by
  unfold answerCountersIssuer; simp only [KeepsWorld, KeepsPort, KeepsTraffic, KeepsHinge, KeepsPower, KeepsHost]; (repeat' split) <;> first | done | (simp; done) | (simp_all; done) | rfl

@[simp] theorem answerCountersPosture_frame (s : State) :
    KeepsWorld (answerCountersPosture s).after s ∧ KeepsPort (answerCountersPosture s).after s ∧
    KeepsTraffic (answerCountersPosture s).after s ∧ KeepsBase (answerCountersPosture s).after s ∧
    KeepsPower (answerCountersPosture s).after s ∧ KeepsHost (answerCountersPosture s).after s ∧
    (answerCountersPosture s).after.orient = s.orient := by
  unfold answerCountersPosture; simp only [KeepsWorld, KeepsPort, KeepsTraffic, KeepsBase, KeepsPower, KeepsHost]; (repeat' split) <;> first | done | (simp; done) | (simp_all; done) | rfl

@[simp] theorem answerSplit_frame (d : Nat) (s : State) :
    KeepsWorld (answerSplit d s).after s ∧ KeepsPort (answerSplit d s).after s ∧ KeepsBase (answerSplit d s).after s ∧
    KeepsHinge (answerSplit d s).after s ∧ KeepsPower (answerSplit d s).after s ∧ KeepsHost (answerSplit d s).after s ∧
    (answerSplit d s).after.tx = s.tx ∧ (answerSplit d s).after.route = s.route := by
  unfold answerSplit; simp only [KeepsWorld, KeepsPort, KeepsBase, KeepsHinge, KeepsPower, KeepsHost]; (repeat' split) <;> first | done | (simp; done) | (simp_all; done) | rfl

@[simp] theorem setRate_frame (r : SampleRate) (s : State) :
    KeepsWorld (setRate r s) s ∧ KeepsTraffic (setRate r s) s ∧ KeepsBase (setRate r s) s ∧ KeepsHinge (setRate r s) s ∧
    KeepsPower (setRate r s) s ∧ KeepsHost (setRate r s) s ∧ (setRate r s).pins = s.pins ∧ (setRate r s).rx = s.rx ∧
    (setRate r s).uplinkErrors = s.uplinkErrors := by
  unfold setRate; simp only [KeepsWorld, KeepsTraffic, KeepsBase, KeepsHinge, KeepsPower, KeepsHost]; (repeat' split) <;> first | done | (simp; done) | (simp_all; done) | rfl

@[simp] theorem setEnables_frame (e : PerKind Bool) (s : State) :
    KeepsWorld (setEnables e s) s ∧ KeepsPort (setEnables e s) s ∧ KeepsTraffic (setEnables e s) s ∧
    KeepsBase (setEnables e s) s ∧ KeepsHinge (setEnables e s) s ∧ KeepsPower (setEnables e s) s ∧
    (setEnables e s).policy = s.policy ∧ (setEnables e s).sleep = s.sleep := by
  unfold setEnables; simp only [KeepsWorld, KeepsPort, KeepsTraffic, KeepsBase, KeepsHinge, KeepsPower]; (repeat' split) <;> first | done | (simp; done) | (simp_all; done) | rfl

@[simp] theorem applySettings_frame (a : SettingsArg) (s : State) :
    KeepsWorld (applySettings a s) s ∧ KeepsTraffic (applySettings a s) s ∧ KeepsPower (applySettings a s) s ∧
    (applySettings a s).pins = s.pins ∧ (applySettings a s).rx = s.rx ∧
    (applySettings a s).uplinkErrors = s.uplinkErrors ∧ (applySettings a s).link = s.link ∧
    (applySettings a s).att = s.att ∧ (applySettings a s).policy = s.policy := by
  simp only [applySettings, carried, KeepsWorld, KeepsTraffic, KeepsPower]; (repeat' split) <;> first | done | (simp; done) | (simp_all; done) | rfl

@[simp] theorem answerSettings_frame (a : SettingsArg) (s : State) :
    KeepsWorld (answerSettings a s).after s ∧ KeepsTraffic (answerSettings a s).after s ∧
    KeepsPower (answerSettings a s).after s ∧ (answerSettings a s).after.pins = s.pins ∧
    (answerSettings a s).after.rx = s.rx ∧ (answerSettings a s).after.uplinkErrors = s.uplinkErrors ∧
    (answerSettings a s).after.link = s.link ∧ (answerSettings a s).after.att = s.att ∧
    (answerSettings a s).after.policy = s.policy := by
  unfold answerSettings; simp only [KeepsWorld, KeepsTraffic, KeepsPower]; (repeat' split) <;> first | done | (simp; done) | (simp_all; done) | rfl

@[simp] theorem answerBaseRequest_frame (target : Nat) (command : Byte) (data : List Byte) (s : State) :
    KeepsWorld (answerBaseRequest target command data s).after s ∧
    KeepsPort (answerBaseRequest target command data s).after s ∧
    KeepsHinge (answerBaseRequest target command data s).after s ∧
    KeepsPower (answerBaseRequest target command data s).after s ∧
    (answerBaseRequest target command data s).after.tx = s.tx ∧
    (answerBaseRequest target command data s).after.route = s.route ∧
    (answerBaseRequest target command data s).after.link = s.link ∧
    (answerBaseRequest target command data s).after.att = s.att ∧
    (answerBaseRequest target command data s).after.policy = s.policy ∧
    (answerBaseRequest target command data s).after.mgmt = s.mgmt := by
  unfold answerBaseRequest; simp only [KeepsWorld, KeepsPort, KeepsHinge, KeepsPower]; (repeat' split) <;> first | done | (simp; done) | (simp_all; done) | rfl

@[simp] theorem answerAlarmRead_frame (s : State) :
    KeepsWorld (answerAlarmRead s).after s ∧ KeepsPort (answerAlarmRead s).after s ∧
    KeepsTraffic (answerAlarmRead s).after s ∧ KeepsBase (answerAlarmRead s).after s ∧
    KeepsHinge (answerAlarmRead s).after s ∧ KeepsHost (answerAlarmRead s).after s ∧ (answerAlarmRead s).after.pen = s.pen := by
  unfold answerAlarmRead; simp only [KeepsWorld, KeepsPort, KeepsTraffic, KeepsBase, KeepsHinge, KeepsHost]; (repeat' split) <;> first | done | (simp; done) | (simp_all; done) | rfl

@[simp] theorem answerAlarmClear_frame (causes : Nat) (s : State) :
    KeepsWorld (answerAlarmClear causes s).after s ∧ KeepsPort (answerAlarmClear causes s).after s ∧
    (answerAlarmClear causes s).after.tx = s.tx ∧ (answerAlarmClear causes s).after.orient = s.orient := by
  unfold answerAlarmClear; simp only [KeepsWorld, KeepsPort]; (repeat' split) <;> first | done | (simp; done) | (simp_all; done) | rfl

@[simp] theorem answerGuardSet_frame (a : GuardArg) (s : State) :
    KeepsWorld (answerGuardSet a s).after s ∧ KeepsPort (answerGuardSet a s).after s ∧
    (answerGuardSet a s).after.tx = s.tx ∧ (answerGuardSet a s).after.orient = s.orient := by
  unfold answerGuardSet; simp only [KeepsWorld, KeepsPort]; (repeat' split) <;> first | done | (simp; done) | (simp_all; done) | rfl

@[simp] theorem answerBudgetSet_frame (a : BudgetArg) (s : State) :
    KeepsWorld (answerBudgetSet a s).after s ∧ KeepsPort (answerBudgetSet a s).after s ∧
    (answerBudgetSet a s).after.tx = s.tx ∧ (answerBudgetSet a s).after.orient = s.orient := by
  unfold answerBudgetSet; simp only [KeepsWorld, KeepsPort]; (repeat' split) <;> first | done | (simp; done) | (simp_all; done) | rfl

@[simp] theorem answerChargeRestart_frame (s : State) :
    KeepsWorld (answerChargeRestart s).after s ∧ KeepsPort (answerChargeRestart s).after s ∧
    KeepsTraffic (answerChargeRestart s).after s ∧ KeepsBase (answerChargeRestart s).after s ∧
    KeepsHinge (answerChargeRestart s).after s := by
  simp only [answerChargeRestart, withChargeRecord, KeepsWorld, KeepsPort, KeepsTraffic, KeepsBase, KeepsHinge]; (repeat' split) <;> first | done | (simp; done) | (simp_all; done) | rfl

@[simp] theorem answerIndicate_frame (line source pattern : Nat) (s : State) :
    KeepsWorld (answerIndicate line source pattern s).after s ∧
    KeepsPort (answerIndicate line source pattern s).after s ∧
    KeepsTraffic (answerIndicate line source pattern s).after s ∧
    KeepsBase (answerIndicate line source pattern s).after s ∧
    KeepsHinge (answerIndicate line source pattern s).after s ∧
    KeepsPower (answerIndicate line source pattern s).after s ∧
    (answerIndicate line source pattern s).after.sleep = s.sleep ∧
    (answerIndicate line source pattern s).after.mgmt = s.mgmt := by
  unfold answerIndicate; simp only [KeepsWorld, KeepsPort, KeepsTraffic, KeepsBase, KeepsHinge, KeepsPower]; (repeat' split) <;> first | done | (simp; done) | (simp_all; done) | rfl

@[simp] theorem answerConfirm_frame (s : State) :
    KeepsWorld (answerConfirm s).after s ∧ KeepsPort (answerConfirm s).after s ∧ KeepsBase (answerConfirm s).after s ∧
    KeepsHinge (answerConfirm s).after s ∧ KeepsPower (answerConfirm s).after s ∧ (answerConfirm s).after.pool = s.pool ∧
    (answerConfirm s).after.route = s.route ∧ (answerConfirm s).after.policy = s.policy := by
  simp only [answerConfirm, withPower, KeepsWorld, KeepsPort, KeepsBase, KeepsHinge, KeepsPower]; (repeat' split) <;> first | done | (simp; done) | (simp_all; done) | rfl

@[simp] theorem answerDecline_frame (s : State) :
    KeepsWorld (answerDecline s).after s ∧ KeepsPort (answerDecline s).after s ∧ KeepsTraffic (answerDecline s).after s ∧
    KeepsBase (answerDecline s).after s ∧ KeepsHinge (answerDecline s).after s ∧ KeepsPower (answerDecline s).after s ∧
    (answerDecline s).after.policy = s.policy ∧ (answerDecline s).after.mgmt = s.mgmt := by
  simp only [answerDecline, withPower, KeepsWorld, KeepsPort, KeepsTraffic, KeepsBase, KeepsHinge, KeepsPower]; (repeat' split) <;> first | done | (simp; done) | (simp_all; done) | rfl

@[simp] theorem answerHostSleep_frame (s : State) :
    KeepsWorld (answerHostSleep s).after s ∧ KeepsPort (answerHostSleep s).after s ∧
    KeepsBase (answerHostSleep s).after s ∧ KeepsHinge (answerHostSleep s).after s ∧
    KeepsPower (answerHostSleep s).after s ∧ (answerHostSleep s).after.pool = s.pool ∧
    (answerHostSleep s).after.route = s.route ∧ (answerHostSleep s).after.policy = s.policy := by
  unfold answerHostSleep; simp only [KeepsWorld, KeepsPort, KeepsBase, KeepsHinge, KeepsPower]; (repeat' split) <;> first | done | (simp; done) | (simp_all; done) | rfl

@[simp] theorem answerSave_frame (s : State) :
    KeepsPort (answerSave s).after s ∧ KeepsTraffic (answerSave s).after s ∧ KeepsBase (answerSave s).after s ∧
    KeepsHinge (answerSave s).after s ∧ KeepsPower (answerSave s).after s ∧ (answerSave s).after.pending = s.pending ∧
    (answerSave s).after.now = s.now ∧ (answerSave s).after.held = s.held ∧ (answerSave s).after.generic = s.generic ∧
    (answerSave s).after.policy = s.policy ∧ (answerSave s).after.mgmt = s.mgmt := by
  unfold answerSave; simp only [KeepsPort, KeepsTraffic, KeepsBase, KeepsHinge, KeepsPower]; (repeat' split) <;> first | done | (simp; done) | (simp_all; done) | rfl

@[simp] theorem answerErase_frame (s : State) :
    KeepsPort (answerErase s).after s ∧ KeepsTraffic (answerErase s).after s ∧ KeepsBase (answerErase s).after s ∧
    KeepsHinge (answerErase s).after s ∧ KeepsPower (answerErase s).after s ∧ (answerErase s).after.pending = s.pending ∧
    (answerErase s).after.now = s.now ∧ (answerErase s).after.fresh = s.fresh ∧ (answerErase s).after.held = s.held ∧
    (answerErase s).after.generic = s.generic ∧ (answerErase s).after.policy = s.policy ∧
    (answerErase s).after.mgmt = s.mgmt := by
  unfold answerErase; simp only [KeepsPort, KeepsTraffic, KeepsBase, KeepsHinge, KeepsPower]; (repeat' split) <;> first | done | (simp; done) | (simp_all; done) | rfl

@[simp] theorem ownerAnswer_frame (q : Request) (s : State) :
    (ownerAnswer q s).after.pending = s.pending ∧ (ownerAnswer q s).after.now = s.now ∧
    (ownerAnswer q s).after.held = s.held ∧ (ownerAnswer q s).after.pins = s.pins ∧ (ownerAnswer q s).after.rx = s.rx ∧
    (ownerAnswer q s).after.generic = s.generic := by
  simp only [ownerAnswer, statusOnly, withChargeRecord, withOrientationRecord, answerEntry]; (repeat' split) <;> first | done | (simp; done) | (simp_all; done) | rfl

@[simp] theorem reply_frame (code : Byte) (st : Status) (content : List Byte) (s : State) :
    KeepsWorld (reply code st content s) s ∧ KeepsPort (reply code st content s) s ∧
    KeepsTraffic (reply code st content s) s ∧ KeepsBase (reply code st content s) s ∧
    KeepsHinge (reply code st content s) s ∧ KeepsPower (reply code st content s) s ∧
    (reply code st content s).policy = s.policy ∧ (reply code st content s).sleep = s.sleep := by
  unfold reply; simp only [KeepsWorld, KeepsPort, KeepsTraffic, KeepsBase, KeepsHinge, KeepsPower]; (repeat' split) <;> first | done | (simp; done) | (simp_all; done) | rfl

@[simp] theorem restartTaken_frame (s : State) :
    KeepsWorld (restartTaken s) s ∧ KeepsPort (restartTaken s) s ∧ KeepsTraffic (restartTaken s) s ∧
    KeepsBase (restartTaken s) s ∧ KeepsHinge (restartTaken s) s ∧ KeepsPower (restartTaken s) s ∧
    (restartTaken s).policy = s.policy ∧ (restartTaken s).sleep = s.sleep := by
  unfold restartTaken; simp only [KeepsWorld, KeepsPort, KeepsTraffic, KeepsBase, KeepsHinge, KeepsPower]; (repeat' split) <;> first | done | (simp; done) | (simp_all; done) | rfl

@[simp] theorem takeRequest_frame (q : Request) (s : State) :
    (takeRequest q s).pending = s.pending ∧ (takeRequest q s).now = s.now ∧ (takeRequest q s).held = s.held ∧
    (takeRequest q s).pins = s.pins ∧ (takeRequest q s).rx = s.rx ∧ (takeRequest q s).generic = s.generic := by
  unfold takeRequest; dsimp only; (repeat' split) <;> first | done | (simp; done) | (simp_all; done) | rfl

@[simp] theorem engineTakes_frame (s : State) :
    (engineTakes s).pending = s.pending ∧ (engineTakes s).now = s.now ∧ (engineTakes s).held = s.held ∧
    (engineTakes s).pins = s.pins ∧ (engineTakes s).rx = s.rx ∧ (engineTakes s).generic = s.generic := by
  unfold engineTakes; dsimp only; (repeat' split) <;> first | done | (simp; done) | (simp_all; done) | rfl

@[simp] theorem requestArrives_frame (q : Request) (s : State) :
    (requestArrives q s).pending = s.pending ∧ (requestArrives q s).now = s.now ∧ (requestArrives q s).held = s.held ∧
    (requestArrives q s).pins = s.pins ∧ (requestArrives q s).rx = s.rx ∧ (requestArrives q s).generic = s.generic := by
  unfold requestArrives; dsimp only; (repeat' split) <;> first | done | (simp; done) | (simp_all; done) | rfl

@[simp] theorem coldReset_frame (s : State) :
    (coldReset s).pending = s.pending ∧ (coldReset s).now = s.now ∧ (coldReset s).pins = s.pins := by
  exact ⟨rfl, rfl, rfl⟩

@[simp] theorem restartHub_frame (s : State) :
    (restartHub s).pending = s.pending ∧ (restartHub s).now = s.now ∧ (restartHub s).fresh = s.fresh ∧
    (restartHub s).pins = s.pins := by
  exact ⟨rfl, rfl, rfl, rfl⟩

@[simp] theorem holdInReset_frame (s : State) :
    KeepsPort (holdInReset s) s ∧ KeepsBase (holdInReset s) s ∧ KeepsHinge (holdInReset s) s ∧
    (holdInReset s).pending = s.pending ∧ (holdInReset s).now = s.now ∧ (holdInReset s).pool = s.pool ∧
    (holdInReset s).route = s.route ∧ (holdInReset s).generic = s.generic ∧ (holdInReset s).pen = s.pen ∧
    (holdInReset s).mgmt = s.mgmt := by
  unfold holdInReset; simp only [KeepsPort, KeepsBase, KeepsHinge]; (repeat' split) <;> first | done | (simp; done) | (simp_all; done) | rfl

@[simp] theorem dataHandedOn_frame (tag : Byte) (payload : List Byte) (s : State) :
    KeepsWorld (dataHandedOn tag payload s) s ∧ (dataHandedOn tag payload s).pins = s.pins ∧
    (dataHandedOn tag payload s).rx = s.rx ∧ (dataHandedOn tag payload s).tx = s.tx ∧
    (dataHandedOn tag payload s).poller = s.poller := by
  unfold dataHandedOn; simp only [KeepsWorld]; (repeat' split) <;> first | done | (simp; done) | (simp_all; done) | rfl

@[simp] theorem handOn_frame (kind tag : Byte) (payload : List Byte) (s : State) :
    (handOn kind tag payload s).pending = s.pending ∧ (handOn kind tag payload s).now = s.now ∧
    (handOn kind tag payload s).held = s.held ∧ (handOn kind tag payload s).pins = s.pins ∧
    (handOn kind tag payload s).rx = s.rx ∧ (handOn kind tag payload s).generic = s.generic := by
  simp only [handOn]; (repeat' split) <;> first | done | (simp; done) | (simp_all; done) | rfl

@[simp] theorem receiveFaults_frame (s : State) :
    KeepsWorld (receiveFaults s) s ∧ KeepsTraffic (receiveFaults s) s ∧ KeepsBase (receiveFaults s) s ∧
    KeepsHinge (receiveFaults s) s ∧ KeepsPower (receiveFaults s) s ∧ KeepsHost (receiveFaults s) s ∧
    (receiveFaults s).pins = s.pins ∧ (receiveFaults s).poller = s.poller := by
  unfold receiveFaults; simp only [KeepsWorld, KeepsTraffic, KeepsBase, KeepsHinge, KeepsPower, KeepsHost]; (repeat' split) <;> first | done | (simp; done) | (simp_all; done) | rfl

@[simp] theorem markerTaken_frame (s : State) :
    KeepsWorld (markerTaken s) s ∧ KeepsTraffic (markerTaken s) s ∧ KeepsBase (markerTaken s) s ∧
    KeepsHinge (markerTaken s) s ∧ KeepsPower (markerTaken s) s ∧ KeepsHost (markerTaken s) s ∧
    (markerTaken s).pins = s.pins ∧ (markerTaken s).uplinkErrors = s.uplinkErrors ∧ (markerTaken s).poller = s.poller := by
  unfold markerTaken; simp only [KeepsWorld, KeepsTraffic, KeepsBase, KeepsHinge, KeepsPower, KeepsHost]; (repeat' split) <;> first | done | (simp; done) | (simp_all; done) | rfl

@[simp] theorem parcelComplete_frame (buf : List Byte) (s : State) :
    (parcelComplete buf s).pending = s.pending ∧ (parcelComplete buf s).now = s.now ∧
    (parcelComplete buf s).held = s.held ∧ (parcelComplete buf s).pins = s.pins ∧
    (parcelComplete buf s).generic = s.generic := by
  unfold parcelComplete; dsimp only; (repeat' split) <;> first | done | (simp; done) | (simp_all; done) | rfl

@[simp] theorem byteAdded_frame (buf : List Byte) (s : State) :
    (byteAdded buf s).pending = s.pending ∧ (byteAdded buf s).now = s.now ∧ (byteAdded buf s).held = s.held ∧
    (byteAdded buf s).pins = s.pins ∧ (byteAdded buf s).generic = s.generic := by
  unfold byteAdded; dsimp only; (repeat' split) <;> first | done | (simp; done) | (simp_all; done) | rfl

@[simp] theorem byteArrives_frame (b : Byte) (s : State) :
    (byteArrives s b).pending = s.pending ∧ (byteArrives s b).now = s.now ∧ (byteArrives s b).held = s.held ∧
    (byteArrives s b).pins = s.pins ∧ (byteArrives s b).generic = s.generic := by
  simp only [byteArrives]; (repeat' split) <;> first | done | (simp; done) | (simp_all; done) | rfl

@[simp] theorem bytesArrive_frame (bytes : List Byte) (s : State) :
    (bytesArrive bytes s).pending = s.pending ∧ (bytesArrive bytes s).now = s.now ∧ (bytesArrive bytes s).held = s.held ∧
    (bytesArrive bytes s).pins = s.pins ∧ (bytesArrive bytes s).generic = s.generic := by
  simp only [bytesArrive, ]
  refine ⟨foldl_keeps _ State.pending (by simp) _ _,
    foldl_keeps _ State.now (by simp) _ _,
    foldl_keeps _ State.held (by simp) _ _,
    foldl_keeps _ State.pins (by simp) _ _,
    foldl_keeps _ State.generic (by simp) _ _⟩

@[simp] theorem parcelArrives_frame (kind tag : Byte) (payload : List Byte) (s : State) :
    (parcelArrives kind tag payload s).pending = s.pending ∧ (parcelArrives kind tag payload s).now = s.now ∧
    (parcelArrives kind tag payload s).held = s.held ∧ (parcelArrives kind tag payload s).pins = s.pins ∧
    (parcelArrives kind tag payload s).generic = s.generic := by
  unfold parcelArrives; (repeat' split) <;> first | done | (simp; done) | (simp_all; done) | rfl

@[simp] theorem parcelSent_frame (s : State) :
    (parcelSent s).pending = s.pending ∧ (parcelSent s).now = s.now ∧ (parcelSent s).pins = s.pins := by
  unfold parcelSent; dsimp only; (repeat' split) <;> first | done | (simp; done) | (simp_all; done) | rfl

@[simp] theorem finish_frame (s : State) :
    KeepsWorld (finish s) s ∧ KeepsPort (finish s) s := by
  unfold finish; simp only [KeepsWorld, KeepsPort]; (repeat' split) <;> first | done | (simp; done) | (simp_all; done) | rfl

@[simp] theorem samplePeriodExpires_frame (s : State) :
    KeepsWorld (samplePeriodExpires s) s ∧ KeepsTraffic (samplePeriodExpires s) s ∧ KeepsBase (samplePeriodExpires s) s ∧
    KeepsHinge (samplePeriodExpires s) s ∧ KeepsPower (samplePeriodExpires s) s ∧ KeepsHost (samplePeriodExpires s) s ∧
    (samplePeriodExpires s).pins = s.pins ∧ (samplePeriodExpires s).rx = s.rx ∧
    (samplePeriodExpires s).uplinkErrors = s.uplinkErrors := by
  unfold samplePeriodExpires; simp only [KeepsWorld, KeepsTraffic, KeepsBase, KeepsHinge, KeepsPower, KeepsHost]; (repeat' split) <;> first | done | (simp; done) | (simp_all; done) | rfl

@[simp] theorem lidMotionMade_frame (x y z : Word16) (busError : Bool) (s : State) :
    KeepsWorld (lidMotionMade x y z busError s) s ∧ (lidMotionMade x y z busError s).pins = s.pins ∧
    (lidMotionMade x y z busError s).rx = s.rx ∧ (lidMotionMade x y z busError s).tx = s.tx ∧
    (lidMotionMade x y z busError s).uplinkErrors = s.uplinkErrors := by
  unfold lidMotionMade; simp only [KeepsWorld]; (repeat' split) <;> first | done | (simp; done) | (simp_all; done) | rfl

@[simp] theorem confirmExpires_frame (s : State) :
    KeepsWorld (confirmExpires s) s ∧ KeepsPort (confirmExpires s) s ∧ KeepsTraffic (confirmExpires s) s ∧
    KeepsBase (confirmExpires s) s ∧ KeepsHinge (confirmExpires s) s ∧ KeepsPower (confirmExpires s) s ∧
    (confirmExpires s).policy = s.policy := by
  unfold confirmExpires; simp only [KeepsWorld, KeepsPort, KeepsTraffic, KeepsBase, KeepsHinge, KeepsPower]; (repeat' split) <;> first | done | (simp; done) | (simp_all; done) | rfl

@[simp] theorem wakePulseEnds_frame (s : State) :
    KeepsWorld (wakePulseEnds s) s ∧ KeepsPort (wakePulseEnds s) s ∧ KeepsTraffic (wakePulseEnds s) s ∧
    KeepsBase (wakePulseEnds s) s ∧ KeepsHinge (wakePulseEnds s) s ∧ KeepsPower (wakePulseEnds s) s ∧
    (wakePulseEnds s).policy = s.policy ∧ (wakePulseEnds s).mgmt = s.mgmt := by
  unfold wakePulseEnds; simp only [KeepsWorld, KeepsPort, KeepsTraffic, KeepsBase, KeepsHinge, KeepsPower]; (repeat' split) <;> first | done | (simp; done) | (simp_all; done) | rfl

@[simp] theorem wakeWindowExpires_frame (s : State) :
    KeepsWorld (wakeWindowExpires s) s ∧ KeepsPort (wakeWindowExpires s) s ∧ KeepsTraffic (wakeWindowExpires s) s ∧
    KeepsBase (wakeWindowExpires s) s ∧ KeepsHinge (wakeWindowExpires s) s ∧ KeepsPower (wakeWindowExpires s) s ∧
    (wakeWindowExpires s).policy = s.policy ∧ (wakeWindowExpires s).mgmt = s.mgmt := by
  unfold wakeWindowExpires; simp only [KeepsWorld, KeepsPort, KeepsTraffic, KeepsBase, KeepsHinge, KeepsPower]; (repeat' split) <;> first | done | (simp; done) | (simp_all; done) | rfl

@[simp] theorem blinkExpires_frame (line : LedLine) (s : State) :
    KeepsWorld (blinkExpires line s) s ∧ KeepsPort (blinkExpires line s) s ∧ KeepsTraffic (blinkExpires line s) s ∧
    KeepsBase (blinkExpires line s) s ∧ KeepsHinge (blinkExpires line s) s ∧ KeepsPower (blinkExpires line s) s ∧
    (blinkExpires line s).sleep = s.sleep ∧ (blinkExpires line s).mgmt = s.mgmt := by
  unfold blinkExpires; simp only [KeepsWorld, KeepsPort, KeepsTraffic, KeepsBase, KeepsHinge, KeepsPower]; (repeat' split) <;> first | done | (simp; done) | (simp_all; done) | rfl

@[simp] theorem stretchExpires_frame (line : LedLine) (s : State) :
    KeepsWorld (stretchExpires line s) s ∧ KeepsPort (stretchExpires line s) s ∧ KeepsTraffic (stretchExpires line s) s ∧
    KeepsBase (stretchExpires line s) s ∧ KeepsHinge (stretchExpires line s) s ∧ KeepsPower (stretchExpires line s) s ∧
    (stretchExpires line s).sleep = s.sleep ∧ (stretchExpires line s).mgmt = s.mgmt := by
  unfold stretchExpires; simp only [KeepsWorld, KeepsPort, KeepsTraffic, KeepsBase, KeepsHinge, KeepsPower]; (repeat' split) <;> first | done | (simp; done) | (simp_all; done) | rfl

@[simp] theorem advance_frame (s : State) :
    KeepsTraffic (advance s) s ∧ (advance s).pending = s.pending ∧ (advance s).fresh = s.fresh ∧
    (advance s).held = s.held ∧ (advance s).pins = s.pins ∧ (advance s).rx = s.rx ∧
    (advance s).uplinkErrors = s.uplinkErrors ∧ (advance s).att = s.att ∧ (advance s).generic = s.generic ∧
    (advance s).mgmt = s.mgmt := by
  unfold advance; simp only [KeepsTraffic]; (repeat' split) <;> first | done | (simp; done) | (simp_all; done) | rfl

end Sys2Proof.Machine
end

