-- ==== Sys2Proof/Laws/Claims.lean ====
section
/-! SUPPORT. What claims and the end of every change leave as it was inside the records they may touch: KeepsRecords, for each
operation that a policy claim or a transmitter can reach. -/
namespace Sys2Proof.Machine
set_option linter.all false

/-- What the policy engine's claims and the two transmitters never change inside a record they may touch (R164 to R167, R8, R15). -/
@[reducible] def KeepsRecords (t s : State) : Prop :=
  t.pool.share = s.pool.share ∧ t.pool.up = s.pool.up ∧ t.route.table = s.route.table ∧
  t.route.ingress = s.route.ingress ∧ t.link.session = s.link.session ∧ t.link.attempt = s.link.attempt ∧
  t.link.chunk = s.link.chunk ∧ t.link.chunkTry = s.link.chunkTry ∧ t.link.chunks = s.link.chunks ∧
  t.link.damagedRun = s.link.damagedRun ∧ t.att.present = s.att.present ∧ t.att.ident = s.att.ident ∧
  t.att.attachCount = s.att.attachCount ∧ t.att.linkDropped = s.att.linkDropped ∧
  t.issuer.discardTime = s.issuer.discardTime ∧ t.issuer.stray = s.issuer.stray ∧
  t.issuer.discarded = s.issuer.discarded ∧ t.posture.posture = s.posture.posture ∧
  t.posture.previous = s.posture.previous ∧ t.posture.lastCode = s.posture.lastCode ∧
  t.posture.resync = s.posture.resync ∧ t.posture.count = s.posture.count ∧ t.posture.refSource = s.posture.refSource ∧
  t.posture.moving = s.posture.moving ∧ t.posture.settle = s.posture.settle ∧
  t.posture.settleTime = s.posture.settleTime ∧ t.posture.lidOpened = s.posture.lidOpened ∧
  t.posture.window = s.posture.window ∧ t.posture.windows = s.posture.windows ∧ t.posture.lidRun = s.posture.lidRun ∧
  t.posture.checked = s.posture.checked ∧ t.posture.faults = s.posture.faults ∧ t.posture.slips = s.posture.slips ∧
  t.orient.candidate = s.orient.candidate ∧ t.orient.stable = s.orient.stable ∧ t.orient.flat = s.orient.flat ∧
  t.orient.sample = s.orient.sample ∧ t.orient.dwell = s.orient.dwell ∧ t.orient.dwellDue = s.orient.dwellDue ∧
  t.guard.cap = s.guard.cap ∧ t.guard.mode = s.guard.mode ∧ t.pen.docked = s.pen.docked ∧
  t.pen.requested = s.pen.requested ∧ t.pen.battery = s.pen.battery ∧ t.pen.count = s.pen.count ∧
  t.pen.debounce = s.pen.debounce ∧ t.policy.table = s.policy.table ∧ t.sleep.graceTime = s.sleep.graceTime ∧
  t.sleep.asleepAt = s.sleep.asleepAt ∧ t.mgmt.intake = s.mgmt.intake ∧ t.mgmt.holder = s.mgmt.holder ∧
  t.mgmt.enables = s.mgmt.enables ∧ t.mgmt.overrun = s.mgmt.overrun ∧ t.mgmt.restart = s.mgmt.restart

theorem keepsRecords_refl (s : State) : KeepsRecords s s := by simp [KeepsRecords]

theorem keepsRecords_trans {a b c : State} (h : KeepsRecords a b) (k : KeepsRecords b c) : KeepsRecords a c := by
  simp only [KeepsRecords] at h k ⊢; simp_all

/-! ## The guard's figures -/

@[simp] theorem regrant_frame (g : Guard) :
    g.regrant.profiles = g.profiles ∧ g.regrant.active = g.active ∧ g.regrant.baseGrant = g.baseGrant ∧
    g.regrant.claimed = g.claimed ∧ g.regrant.cap = g.cap ∧ g.regrant.railOn = g.railOn ∧ g.regrant.coilOn = g.coilOn ∧
    g.regrant.alarms = g.alarms ∧ g.regrant.mode = g.mode := by
  unfold Guard.regrant; (repeat' split) <;> simp

@[simp] theorem penClaim_frame (g : Guard) (l : PenLevel) :
    (g.penClaim l).profiles = g.profiles ∧ (g.penClaim l).active = g.active ∧ (g.penClaim l).baseGrant = g.baseGrant ∧
    (g.penClaim l).cap = g.cap ∧ (g.penClaim l).railOn = g.railOn ∧ (g.penClaim l).coilOn = g.coilOn ∧
    (g.penClaim l).alarms = g.alarms ∧ (g.penClaim l).mode = g.mode := ⟨rfl, rfl, rfl, rfl, rfl, rfl, rfl, rfl⟩

@[simp] theorem penRelease_frame (g : Guard) :
    g.penRelease.profiles = g.profiles ∧ g.penRelease.active = g.active ∧ g.penRelease.baseGrant = g.baseGrant ∧
    g.penRelease.cap = g.cap ∧ g.penRelease.railOn = g.railOn ∧ g.penRelease.coilOn = g.coilOn ∧
    g.penRelease.alarms = g.alarms ∧ g.penRelease.mode = g.mode := ⟨rfl, rfl, rfl, rfl, rfl, rfl, rfl, rfl⟩

theorem baseClaim_frame (g g' : Guard) (n : Nat) (h : g.baseClaim n = some g') :
    g'.profiles = g.profiles ∧ g'.active = g.active ∧ g'.claimed = g.claimed ∧ g'.cap = g.cap ∧ g'.railOn = g.railOn ∧
    g'.coilOn = g.coilOn ∧ g'.alarms = g.alarms ∧ g'.mode = g.mode := by
  unfold Guard.baseClaim at h
  split at h
  · simp_all
  · split at h
    · simp only [Option.some.injEq] at h; subst h; split <;> simp
    · split at h
      · simp only [Option.some.injEq] at h; subst h; simp
      · simp at h

@[simp] theorem baseRelease_frame (g : Guard) :
    g.baseRelease.profiles = g.profiles ∧ g.baseRelease.active = g.active ∧ g.baseRelease.claimed = g.claimed ∧
    g.baseRelease.cap = g.cap ∧ g.baseRelease.railOn = g.railOn ∧ g.baseRelease.coilOn = g.coilOn ∧
    g.baseRelease.alarms = g.alarms ∧ g.baseRelease.mode = g.mode := by
  unfold Guard.baseRelease; split <;> simp

@[simp] theorem lower_frame (g : Guard) (p : Profiles) (a : Nat) :
    (g.lower p a).1.profiles = p ∧ (g.lower p a).1.active = a ∧ (g.lower p a).1.claimed = g.claimed ∧
    (g.lower p a).1.cap = g.cap ∧ (g.lower p a).1.railOn = g.railOn ∧ (g.lower p a).1.coilOn = g.coilOn ∧
    (g.lower p a).1.alarms = g.alarms ∧ (g.lower p a).1.mode = g.mode := by
  unfold Guard.lower; dsimp only; split <;> simp

theorem foldl_rel {α β : Type} (R : β → β → Prop) (refl : ∀ b, R b b) (trans : ∀ {a b c}, R a b → R b c → R a c)
    {f : β → α → β} (h : ∀ b a, R (f b a) b) (l : List α) (b : β) : R (l.foldl f b) b := by
  induction l generalizing b with
  | nil => exact refl b
  | cons a r ih => exact trans (ih (f b a)) (h b a)

@[simp] theorem post_records (n : Notice) (s : State) : KeepsRecords (post n s) s := by
  unfold post; simp only [KeepsRecords]; (repeat' split) <;> first | done | (simp; done) | (simp_all; done) | rfl

@[simp] theorem startTransmit_records (s : State) : KeepsRecords (startTransmit s) s := by
  unfold startTransmit; simp only [KeepsRecords]; (repeat' split) <;> first | done | (simp; done) | (simp_all; done) | rfl

@[simp] theorem postSleep_records (c : SleepCause) (s : State) : KeepsRecords (postSleep c s) s := by
  unfold postSleep; simp only [KeepsRecords]; (repeat' split) <;> first | done | (simp; done) | (simp_all; done) | rfl

@[simp] theorem sleepAsk_records (s : State) : KeepsRecords (sleepAsk s) s := by
  unfold sleepAsk; simp only [KeepsRecords]; (repeat' split) <;> first | done | (simp; done) | (simp_all; done) | rfl

@[simp] theorem graceExpires_records (s : State) : KeepsRecords (graceExpires s) s := by
  unfold graceExpires; simp only [KeepsRecords]; (repeat' split) <;> first | done | (simp; done) | (simp_all; done) | rfl

@[simp] theorem addHold_records (r : Holdoff) (s : State) : KeepsRecords (addHold r s) s := by
  unfold addHold; simp only [KeepsRecords]; (repeat' split) <;> first | done | (simp; done) | (simp_all; done) | rfl

@[simp] theorem removeHold_records (r : Holdoff) (s : State) : KeepsRecords (removeHold r s) s := by
  unfold removeHold; simp only [KeepsRecords]; (repeat' split) <;> first | done | (simp; done) | (simp_all; done) | rfl

@[simp] theorem setHold_records (r : Holdoff) (b : Bool) (s : State) : KeepsRecords (setHold r b s) s := by
  unfold setHold; simp only [KeepsRecords]; (repeat' split) <;> first | done | (simp; done) | (simp_all; done) | rfl

@[simp] theorem sleepBegin_records (s : State) : KeepsRecords (sleepBegin s) s := by
  unfold sleepBegin; simp only [KeepsRecords]; (repeat' split) <;> first | done | (simp; done) | (simp_all; done) | rfl

@[simp] theorem cancelSleep_records (w : Withdrawal) (s : State) : KeepsRecords (cancelSleep w s) s := by
  unfold cancelSleep; simp only [KeepsRecords]; (repeat' split) <;> first | done | (simp; done) | (simp_all; done) | rfl

@[simp] theorem recordReason_records (k : WakeKind) (s : State) : KeepsRecords (recordReason k s) s := by
  unfold recordReason; simp only [KeepsRecords]; (repeat' split) <;> first | done | (simp; done) | (simp_all; done) | rfl

@[simp] theorem pulseWakeLine_records (s : State) : KeepsRecords (pulseWakeLine s) s := by
  unfold pulseWakeLine; simp only [KeepsRecords]; (repeat' split) <;> first | done | (simp; done) | (simp_all; done) | rfl

@[simp] theorem wakeClaim_records (k : WakeKind) (s : State) : KeepsRecords (wakeClaim k s) s := by
  unfold wakeClaim; simp only [KeepsRecords]; (repeat' split) <;> first | done | (simp; done) | (simp_all; done) | rfl

@[simp] theorem setInputs_records (new : LedInputs) (s : State) : KeepsRecords (setInputs new s) s := by
  unfold setInputs; simp only [KeepsRecords]; (repeat' split) <;> first | done | (simp; done) | (simp_all; done) | rfl

@[simp] theorem indicate_records (line : LedLine) (source : LedSource) (pattern : LedPattern) (s : State) : KeepsRecords (indicate line source pattern s) s := by
  unfold indicate; simp only [KeepsRecords]; (repeat' split) <;> first | done | (simp; done) | (simp_all; done) | rfl

@[simp] theorem flushDown_records (s : State) : KeepsRecords (flushDown s) s := by
  unfold flushDown; simp only [KeepsRecords]; (repeat' split) <;> first | done | (simp; done) | (simp_all; done) | rfl

@[simp] theorem kickHinge_records (s : State) : KeepsRecords (kickHinge s) s := by
  unfold kickHinge; simp only [KeepsRecords]; (repeat' split) <;> first | done | (simp; done) | (simp_all; done) | rfl

@[simp] theorem takeCandidate_records (s : State) : KeepsRecords (takeCandidate s) s := by
  unfold takeCandidate; simp only [KeepsRecords]; (repeat' split) <;> first | done | (simp; done) | (simp_all; done) | rfl

@[simp] theorem testDwell_records (s : State) : KeepsRecords (testDwell s) s := by
  unfold testDwell; simp only [KeepsRecords]; (repeat' split) <;> first | done | (simp; done) | (simp_all; done) | rfl

@[simp] theorem setLock_records (l : Option ClaimSource) (s : State) : KeepsRecords (setLock l s) s := by
  unfold setLock; simp only [KeepsRecords]; (repeat' split) <;> first | done | (simp; done) | (simp_all; done) | rfl

@[simp] theorem lockClaim_records (src : ClaimSource) (s : State) : KeepsRecords (lockClaim src s) s := by
  unfold lockClaim; simp only [KeepsRecords]; (repeat' split) <;> first | done | (simp; done) | (simp_all; done) | rfl

@[simp] theorem freeClaim_records (s : State) : KeepsRecords (freeClaim s) s := by
  unfold freeClaim; simp only [KeepsRecords]; (repeat' split) <;> first | done | (simp; done) | (simp_all; done) | rfl

@[simp] theorem postBudget_records (before : Guard) (cause : BudgetCause) (s : State) : KeepsRecords (postBudget before cause s) s := by
  unfold postBudget; simp only [KeepsRecords]; (repeat' split) <;> first | done | (simp; done) | (simp_all; done) | rfl

@[simp] theorem reportAlarm_records (s : State) : KeepsRecords (reportAlarm s) s := by
  unfold reportAlarm; simp only [KeepsRecords]; (repeat' split) <;> first | done | (simp; done) | (simp_all; done) | rfl

@[simp] theorem armPenTimer_records (s : State) : KeepsRecords (armPenTimer s) s := by
  unfold armPenTimer; simp only [KeepsRecords]; (repeat' split) <;> first | done | (simp; done) | (simp_all; done) | rfl

@[simp] theorem stopPenTimers_records (s : State) : KeepsRecords (stopPenTimers s) s := by
  unfold stopPenTimers; simp only [KeepsRecords]; (repeat' split) <;> first | done | (simp; done) | (simp_all; done) | rfl

@[simp] theorem switchCoil_records (s : State) : KeepsRecords (switchCoil s) s := by
  unfold switchCoil; simp only [KeepsRecords]; (repeat' split) <;> first | done | (simp; done) | (simp_all; done) | rfl

@[simp] theorem switchRail_records (s : State) : KeepsRecords (switchRail s) s := by
  unfold switchRail; simp only [KeepsRecords]; (repeat' split) <;> first | done | (simp; done) | (simp_all; done) | rfl

@[simp] theorem switchOutputs_records (s : State) : KeepsRecords (switchOutputs s) s := by
  unfold switchOutputs; simp only [KeepsRecords]; (repeat' split) <;> first | done | (simp; done) | (simp_all; done) | rfl

@[simp] theorem claimStep_records (c : ClaimStep) (s : State) : KeepsRecords (claimStep c s) s := by
  unfold claimStep; simp only [KeepsRecords]; (repeat' split) <;> first | done | (simp; done) | (simp_all; done) | rfl

@[simp] theorem goSession_records (new : PenState) (fault : Option FaultCause) (c : ClaimStep) (s : State) : KeepsRecords (goSession new fault c s) s := by
  unfold goSession; simp only [KeepsRecords]; (repeat' split) <;> first | done | (simp; done) | (simp_all; done) | rfl

@[simp] theorem claimSession_records (new : PenState) (l : PenLevel) (s : State) : KeepsRecords (claimSession new l s) s := by
  unfold claimSession; simp only [KeepsRecords]; (repeat' split) <;> first | done | (simp; done) | (simp_all; done) | rfl

@[simp] theorem enterDetect_records (s : State) : KeepsRecords (enterDetect s) s := by
  unfold enterDetect; simp only [KeepsRecords]; (repeat' split) <;> first | done | (simp; done) | (simp_all; done) | rfl

@[simp] theorem enterSoftStart_records (s : State) : KeepsRecords (enterSoftStart s) s := by
  unfold enterSoftStart; simp only [KeepsRecords]; (repeat' split) <;> first | done | (simp; done) | (simp_all; done) | rfl

@[simp] theorem resumeSession_records (s : State) : KeepsRecords (resumeSession s) s := by
  unfold resumeSession; simp only [KeepsRecords]; (repeat' split) <;> first | done | (simp; done) | (simp_all; done) | rfl

@[simp] theorem penTold_records (before : Option PenLevel) (s : State) : KeepsRecords (penTold before s) s := by
  unfold penTold; simp only [KeepsRecords]; (repeat' split) <;> first | done | (simp; done) | (simp_all; done) | rfl

@[simp] theorem holdClaim_records (src : ClaimSource) (s : State) : KeepsRecords (holdClaim src s) s := by
  unfold holdClaim; simp only [KeepsRecords]; (repeat' split) <;> first | done | (simp; done) | (simp_all; done) | rfl

@[simp] theorem releaseClaim_records (src : ClaimSource) (s : State) : KeepsRecords (releaseClaim src s) s := by
  unfold releaseClaim; simp only [KeepsRecords]; (repeat' split) <;> first | done | (simp; done) | (simp_all; done) | rfl

@[simp] theorem issuerHold_records (s : State) : KeepsRecords (issuerHold s) s := by
  unfold issuerHold; simp only [KeepsRecords]; (repeat' split) <;> first | done | (simp; done) | (simp_all; done) | rfl

@[simp] theorem linkEnding_records (s : State) : KeepsRecords (linkEnding s) s := by
  unfold linkEnding; simp only [KeepsRecords]; (repeat' split) <;> first | done | (simp; done) | (simp_all; done) | rfl

@[simp] theorem setLinkState_records (new : LinkState) (s : State) : KeepsRecords (setLinkState new s) s := by
  unfold setLinkState; simp only [KeepsRecords]; (repeat' split) <;> first | done | (simp; done) | (simp_all; done) | rfl

@[simp] theorem stopLinkTimers_records (s : State) : KeepsRecords (stopLinkTimers s) s := by
  unfold stopLinkTimers; simp only [KeepsRecords]; (repeat' split) <;> first | done | (simp; done) | (simp_all; done) | rfl

@[simp] theorem endDiagnosis_records (cause : DiagEnd) (s : State) : KeepsRecords (endDiagnosis cause s) s := by
  unfold endDiagnosis; simp only [KeepsRecords]; (repeat' split) <;> first | done | (simp; done) | (simp_all; done) | rfl

@[simp] theorem releaseBase_records (s : State) : KeepsRecords (releaseBase s) s := by
  unfold releaseBase; simp only [KeepsRecords]; (repeat' split) <;> first | done | (simp; done) | (simp_all; done) | rfl

@[simp] theorem claimBase_records (withinRaise : Bool) (amount : Nat) (s : State) : KeepsRecords (claimBase withinRaise amount s).1 s := by
  unfold claimBase; simp only [KeepsRecords]; split
  · rename_i g h; have := baseClaim_frame _ _ _ h; split <;> simp_all
  · simp

@[simp] theorem enterUnpowered_records (demand : Nat) (s : State) : KeepsRecords (enterUnpowered demand s) s := by
  unfold enterUnpowered; simp only [KeepsRecords]; (repeat' split) <;> first | done | (simp; done) | (simp_all; done) | rfl

@[simp] theorem enterPowering_records (withinRaise : Bool) (s : State) : KeepsRecords (enterPowering withinRaise s) s := by
  unfold enterPowering; simp only [KeepsRecords]; (repeat' split) <;> first | done | (simp; done) | (simp_all; done) | rfl

@[simp] theorem lowerBudget_records (profiles : Profiles) (active : Nat) (s : State) : KeepsRecords (lowerBudget profiles active s) s := by
  unfold lowerBudget; simp only [KeepsRecords]; (repeat' split) <;> first | done | (simp; done) | (simp_all; done) | rfl

@[simp] theorem raiseBudget_records (profiles : Profiles) (active : Nat) (s : State) : KeepsRecords (raiseBudget profiles active s) s := by
  unfold raiseBudget; simp only [KeepsRecords]; (repeat' split) <;> first | done | (simp; done) | (simp_all; done) | rfl

@[simp] theorem changeBudget_records (profiles : Profiles) (active : Nat) (s : State) : KeepsRecords (changeBudget profiles active s) s := by
  unfold changeBudget; simp only [KeepsRecords]; (repeat' split) <;> first | done | (simp; done) | (simp_all; done) | rfl

@[simp] theorem budgetProfile_records (n : Nat) (s : State) : KeepsRecords (budgetProfile n s) s := by
  unfold budgetProfile; simp only [KeepsRecords]; (repeat' split) <;> first | done | (simp; done) | (simp_all; done) | rfl

@[simp] theorem issueClaim_records (ev : PolicyEvent) (a : PolicyAction) (s : State) : KeepsRecords (issueClaim ev a s) s := by
  unfold issueClaim; simp only [KeepsRecords]; (repeat' split) <;> first | done | (simp; done) | (simp_all; done) | rfl

@[simp] theorem takeEvent_records (ev : PolicyEvent) (s : State) : KeepsRecords (takeEvent ev s) s := by
  unfold takeEvent
  exact foldl_rel KeepsRecords keepsRecords_refl keepsRecords_trans (fun u a => issueClaim_records ev a u) _ _

@[simp] theorem drainEvents_records (s : State) : KeepsRecords (drainEvents s) s := by
  unfold drainEvents
  exact keepsRecords_trans (foldl_rel KeepsRecords keepsRecords_refl keepsRecords_trans (fun u a => takeEvent_records a u) _ _) (by simp [KeepsRecords])

@[simp] theorem finish_records (s : State) : KeepsRecords (finish s) s := by
  unfold finish; simp only [KeepsRecords]; (repeat' split) <;> first | done | (simp; done) | (simp_all; done) | rfl

end Sys2Proof.Machine
end

