-- ==== Sys2Proof/Laws/Power.lean ====
section
/-! SUPPORT. What the operations on the guard and the charger keep of the guard: its settings, profiles, base grant and cap, and of each
alarm its latch, sticky state and settings; what a change of link state makes of the link; what the sleep claims keep. -/
namespace Sys2Proof.Machine
set_option linter.all false

/-- An alarm's latch, sticky state and settings are kept. -/
@[reducible] def KeepsMarks (a b : Alarm) : Prop :=
  a.latch = b.latch ∧ a.sticky = b.sticky ∧ a.mask = b.mask ∧ a.enabled = b.enabled ∧ a.choice = b.choice

/-- The guard's profiles, base grant, cap, mode and DIE-OT, and every alarm's latch, sticky state and settings, are kept. -/
@[reducible] def KeepsSettings (g h : Guard) : Prop :=
  g.profiles = h.profiles ∧ g.active = h.active ∧ g.baseGrant = h.baseGrant ∧ g.cap = h.cap ∧ g.mode = h.mode ∧
  g.alarms.dieOt = h.alarms.dieOt ∧ KeepsMarks g.alarms.railOc h.alarms.railOc ∧ KeepsMarks g.alarms.railUv h.alarms.railUv ∧
  KeepsMarks g.alarms.coilOc h.alarms.coilOc ∧ KeepsMarks g.alarms.coilUv h.alarms.coilUv

/-- An alarm whose output goes off keeps its latch, sticky state and settings. -/
@[simp] theorem outputOff_marks (a : Alarm) : KeepsMarks a.outputOff a := ⟨rfl, rfl, rfl, rfl, rfl⟩

/-- A pen claim leaves the level claimed. -/
@[simp] theorem penClaim_claimed (g : Guard) (l : PenLevel) : (g.penClaim l).claimed = some l := rfl

/-- A released pen has no claim and no grant. -/
@[simp] theorem penRelease_claimed (g : Guard) : g.penRelease.claimed = none ∧ g.penRelease.penGrant = none := ⟨rfl, rfl⟩

/-- The outputs' switching keeps the grants as well. -/
@[simp] theorem switchCoil_settings (s : State) :
    KeepsSettings (switchCoil s).guard s.guard ∧ (switchCoil s).guard.penGrant = s.guard.penGrant ∧
    (switchCoil s).guard.claimed = s.guard.claimed ∧ (switchCoil s).guard.railOn = s.guard.railOn ∧
    (switchCoil s).guard.alarms.railOc = s.guard.alarms.railOc ∧ (switchCoil s).guard.alarms.railUv = s.guard.alarms.railUv ∧
    (switchCoil s).guard.coilOn = coilConditions s ∧ (switchCoil s).pen.session = s.pen.session ∧
    (switchCoil s).pen.fault = s.pen.fault ∧ (switchCoil s).pen.docked = s.pen.docked ∧
    (switchCoil s).pen.requested = s.pen.requested ∧ (switchCoil s).pen.battery = s.pen.battery ∧
    (switchCoil s).pen.count = s.pen.count ∧ (switchCoil s).pen.hold = s.pen.hold ∧
    (switchCoil s).pen.debounce = s.pen.debounce := by
  unfold switchCoil armPenTimer stopPenTimers; dsimp only
  (repeat' split) <;> simp_all [KeepsSettings, KeepsMarks]

@[simp] theorem switchRail_settings (s : State) :
    KeepsSettings (switchRail s).guard s.guard ∧ (switchRail s).guard.penGrant = s.guard.penGrant ∧
    (switchRail s).guard.claimed = s.guard.claimed ∧ (switchRail s).guard.coilOn = s.guard.coilOn ∧
    (switchRail s).guard.alarms.coilOc = s.guard.alarms.coilOc ∧ (switchRail s).guard.alarms.coilUv = s.guard.alarms.coilUv ∧
    (switchRail s).guard.railOn = railConditions s := by
  unfold switchRail; dsimp only
  (repeat' split) <;> simp_all [KeepsSettings, KeepsMarks]

/-- After the outputs' switching the rail follows the conditions before it. -/
@[simp] theorem switchOutputs_settings (s : State) :
    KeepsSettings (switchOutputs s).guard s.guard ∧ (switchOutputs s).guard.penGrant = s.guard.penGrant ∧
    (switchOutputs s).guard.claimed = s.guard.claimed ∧ (switchOutputs s).guard.coilOn = coilConditions s ∧
    (switchOutputs s).guard.railOn = railConditions s ∧
    (switchOutputs s).pen.session = s.pen.session ∧ (switchOutputs s).pen.fault = s.pen.fault ∧
    (switchOutputs s).pen.docked = s.pen.docked ∧ (switchOutputs s).pen.requested = s.pen.requested ∧
    (switchOutputs s).pen.battery = s.pen.battery ∧ (switchOutputs s).pen.count = s.pen.count ∧
    (switchOutputs s).pen.hold = s.pen.hold ∧ (switchOutputs s).pen.debounce = s.pen.debounce := by
  have h : railConditions (switchCoil s) = railConditions s := by simp [railConditions, railLatched]
  simp [switchOutputs, h, KeepsSettings, KeepsMarks]

@[simp] theorem claimStep_settings (c : ClaimStep) (s : State) : KeepsSettings (claimStep c s).guard s.guard ∧
    (claimStep c s).guard.alarms = s.guard.alarms ∧ (claimStep c s).guard.railOn = s.guard.railOn ∧
    (claimStep c s).guard.coilOn = s.guard.coilOn := by
  cases c <;> simp [claimStep, KeepsSettings, KeepsMarks]

@[simp] theorem armPenTimer_pen (s : State) :
    (armPenTimer s).pen.session = s.pen.session ∧ (armPenTimer s).pen.fault = s.pen.fault ∧
    (armPenTimer s).pen.docked = s.pen.docked ∧ (armPenTimer s).pen.requested = s.pen.requested ∧
    (armPenTimer s).pen.battery = s.pen.battery ∧ (armPenTimer s).pen.count = s.pen.count ∧
    (armPenTimer s).pen.hold = s.pen.hold ∧ (armPenTimer s).pen.debounce = s.pen.debounce := by
  unfold armPenTimer; (repeat' split) <;> simp [KeepsSettings, KeepsMarks]

@[simp] theorem stopPenTimers_pen (s : State) :
    (stopPenTimers s).pen = { s.pen with detect := none, ramp := none, silence := none } := rfl

/-- What a change of session leaves of the guard, and the session it enters. -/
@[simp] theorem goSession_settings (new : PenState) (fault : Option FaultCause) (c : ClaimStep) (s : State) :
    KeepsSettings (goSession new fault c s).guard s.guard ∧ (goSession new fault c s).pen.session = new ∧
    (goSession new fault c s).pen.fault = fault ∧ (goSession new fault c s).pen.docked = s.pen.docked ∧
    (goSession new fault c s).pen.requested = s.pen.requested ∧ (goSession new fault c s).pen.battery = s.pen.battery ∧
    (goSession new fault c s).pen.count = s.pen.count ∧ (goSession new fault c s).pen.hold = s.pen.hold ∧
    (goSession new fault c s).pen.debounce = s.pen.debounce := by
  simp [goSession, KeepsSettings, KeepsMarks]

@[simp] theorem claimSession_settings (new : PenState) (l : PenLevel) (s : State) : KeepsSettings (claimSession new l s).guard s.guard := by
  unfold claimSession; (try dsimp only); (repeat' split) <;> simp_all [KeepsSettings, KeepsMarks]

@[simp] theorem enterDetect_settings (s : State) : KeepsSettings (enterDetect s).guard s.guard := by
  unfold enterDetect; (try dsimp only); (repeat' split) <;> simp_all [KeepsSettings, KeepsMarks]

@[simp] theorem enterSoftStart_settings (s : State) : KeepsSettings (enterSoftStart s).guard s.guard := by
  unfold enterSoftStart; (try dsimp only); (repeat' split) <;> simp_all [KeepsSettings, KeepsMarks]

@[simp] theorem resumeSession_settings (s : State) : KeepsSettings (resumeSession s).guard s.guard := by
  unfold resumeSession; (try dsimp only); (repeat' split) <;> simp_all [KeepsSettings, KeepsMarks]

@[simp] theorem enterFault_settings (c : FaultCause) (s : State) : KeepsSettings (enterFault c s).guard s.guard := by
  unfold enterFault; (try dsimp only); (repeat' split) <;> simp_all [KeepsSettings, KeepsMarks]

@[simp] theorem penTold_settings (before : Option PenLevel) (s : State) : KeepsSettings (penTold before s).guard s.guard := by
  unfold penTold; (try dsimp only); (repeat' split) <;> simp_all [KeepsSettings, KeepsMarks]

@[simp] theorem coilLatchTold_settings (s : State) : KeepsSettings (coilLatchTold s).guard s.guard := by
  unfold coilLatchTold; (try dsimp only); (repeat' split) <;> simp_all [KeepsSettings, KeepsMarks]

@[simp] theorem coilLatchGone_settings (s : State) : KeepsSettings (coilLatchGone s).guard s.guard := by
  unfold coilLatchGone; (try dsimp only); (repeat' split) <;> simp_all [KeepsSettings, KeepsMarks]

@[simp] theorem holdClaim_settings (src : ClaimSource) (s : State) : KeepsSettings (holdClaim src s).guard s.guard := by
  unfold holdClaim; (try dsimp only); (repeat' split) <;> simp_all [KeepsSettings, KeepsMarks]

@[simp] theorem releaseClaim_settings (src : ClaimSource) (s : State) : KeepsSettings (releaseClaim src s).guard s.guard := by
  unfold releaseClaim; (try dsimp only); (repeat' split) <;> simp_all [KeepsSettings, KeepsMarks]

@[simp] theorem setRequested_settings (l : PenLevel) (s : State) : KeepsSettings (setRequested l s).guard s.guard := by
  unfold setRequested; (try dsimp only); (repeat' split) <;> simp_all [KeepsSettings, KeepsMarks]

@[simp] theorem enterTopped_settings (s : State) : KeepsSettings (enterTopped s).guard s.guard := by
  unfold enterTopped; (try dsimp only); (repeat' split) <;> simp_all [KeepsSettings, KeepsMarks]

@[simp] theorem detectExpires_settings (s : State) : KeepsSettings (detectExpires s).guard s.guard := by
  unfold detectExpires; (try dsimp only); (repeat' split) <;> simp_all [KeepsSettings, KeepsMarks]

@[simp] theorem rampExpires_settings (s : State) : KeepsSettings (rampExpires s).guard s.guard := by
  unfold rampExpires; (try dsimp only); (repeat' split) <;> simp_all [KeepsSettings, KeepsMarks]

@[simp] theorem silenceExpires_settings (s : State) : KeepsSettings (silenceExpires s).guard s.guard := by
  unfold silenceExpires; (try dsimp only); (repeat' split) <;> simp_all [KeepsSettings, KeepsMarks]

@[simp] theorem dockDebounceExpires_settings (s : State) : KeepsSettings (dockDebounceExpires s).guard s.guard := by
  unfold dockDebounceExpires; (try dsimp only); (repeat' split) <;> simp_all [KeepsSettings, KeepsMarks]

@[simp] theorem dockReleases_settings (s : State) : KeepsSettings (dockReleases s).guard s.guard := by
  unfold dockReleases; (try dsimp only); (repeat' split) <;> simp_all [KeepsSettings, KeepsMarks]

@[simp] theorem dockAsserts_settings (s : State) : KeepsSettings (dockAsserts s).guard s.guard := by
  unfold dockAsserts; (try dsimp only); (repeat' split) <;> simp_all [KeepsSettings, KeepsMarks]

@[simp] theorem penDocks_settings (s : State) : KeepsSettings (penDocks s).guard s.guard := by
  unfold penDocks; (try dsimp only); (repeat' split) <;> simp_all [KeepsSettings, KeepsMarks]

/-! ## A cause that is not detected stays so -/

/-- An alarm that is not detected is not detected after. -/
@[reducible] def StaysQuiet (t s : State) : Prop :=
  ∀ c, (s.guard.alarms.get c).detected = false → (t.guard.alarms.get c).detected = false

theorem staysQuiet_of {t s : State} (h : t.guard.alarms = s.guard.alarms) : StaysQuiet t s := by intro c k; rw [h]; exact k

theorem staysQuiet_trans {a b c : State} (h : StaysQuiet a b) (k : StaysQuiet b c) : StaysQuiet a c := fun x y => h x (k x y)

theorem switchOutputs_quiet (s : State) : StaysQuiet (switchOutputs s) s := by
  have h : StaysQuiet (switchCoil s) s := by
    intro c k; unfold switchCoil armPenTimer; dsimp only
    (repeat' split) <;> first | exact k | (cases c <;> simp_all [PerCause.get, Alarm.outputOff])
  refine staysQuiet_trans ?_ h
  intro c k; unfold switchOutputs switchRail; dsimp only
  rw [(reportAlarm_frame _).2.2.2.2.2.1.1]
  (repeat' split) <;> first | exact k | (cases c <;> simp_all [PerCause.get, Alarm.outputOff])

theorem goSession_quiet (new : PenState) (fault : Option FaultCause) (c : ClaimStep) (s : State) :
    StaysQuiet (goSession new fault c s) s := by
  intro x k; simp only [goSession, post_frame, setInputs_frame, armPenTimer_frame]
  exact switchOutputs_quiet _ x (by simpa using k)

theorem claimSession_quiet (new : PenState) (l : PenLevel) (s : State) : StaysQuiet (claimSession new l s) s := by
  unfold claimSession; dsimp only; split
  · exact staysQuiet_trans (goSession_quiet _ _ _ _) (goSession_quiet _ _ _ _)
  · exact goSession_quiet _ _ _ _

theorem enterDetect_quiet (s : State) : StaysQuiet (enterDetect s) s := by
  unfold enterDetect; split
  · exact goSession_quiet _ _ _ _
  · exact claimSession_quiet _ _ _

theorem enterSoftStart_quiet (s : State) : StaysQuiet (enterSoftStart s) s := by
  unfold enterSoftStart; split
  · exact goSession_quiet _ _ _ _
  · exact claimSession_quiet _ _ _

theorem resumeSession_quiet (s : State) : StaysQuiet (resumeSession s) s := by
  unfold resumeSession; split
  · exact enterSoftStart_quiet _
  · exact enterDetect_quiet _

theorem penTold_quiet (before : Option PenLevel) (s : State) : StaysQuiet (penTold before s) s := by
  unfold penTold; (repeat' split) <;>
    first | exact goSession_quiet _ _ _ _ | exact resumeSession_quiet _ | exact staysQuiet_of rfl

theorem coilLatchGone_quiet (s : State) : StaysQuiet (coilLatchGone s) s := by
  unfold coilLatchGone; split
  · exact enterDetect_quiet _
  · exact staysQuiet_of rfl

/-- A change of link state makes of the link its new state, and a rate where the state can hold one. -/
@[simp] theorem setLinkState_link (new : LinkState) (s : State) :
    (setLinkState new s).link = { s.link with state := new, rate := if keepsRate new then s.link.rate else none } ∧
    (setLinkState new s).route = { s.route with noBase := false } ∧
    (setLinkState new s).posture = { s.posture with baseRun := none } := by
  simp [setLinkState]

/-- A notice of an enabled kind is pending once posted. -/
theorem post_pending (n : Notice) (s : State) (h : s.mgmt.enables.get n.kind = true) :
    ∃ p, (post n s).mgmt.notices.get n.kind = some p ∧ p.notice = n := by
  have hs : ∀ (m : PerKind (Option Pending)) k v, (m.set k v).get k = v := by intro m k v; cases k <;> rfl
  unfold post; rw [if_pos h]
  exact ⟨_, hs _ _ _, by split <;> rfl⟩

/-- A base release keeps all of the guard's settings but the base grant, which is 0. -/
theorem releaseBase_guard (s : State) :
    (releaseBase s).guard.baseGrant = 0 ∧ (releaseBase s).guard.profiles = s.guard.profiles ∧
    (releaseBase s).guard.active = s.guard.active ∧ (releaseBase s).guard.cap = s.guard.cap ∧
    (releaseBase s).guard.mode = s.guard.mode ∧ (releaseBase s).guard.alarms.dieOt = s.guard.alarms.dieOt ∧
    KeepsMarks (releaseBase s).guard.alarms.railOc s.guard.alarms.railOc ∧
    KeepsMarks (releaseBase s).guard.alarms.railUv s.guard.alarms.railUv ∧
    KeepsMarks (releaseBase s).guard.alarms.coilOc s.guard.alarms.coilOc ∧
    KeepsMarks (releaseBase s).guard.alarms.coilUv s.guard.alarms.coilUv := by
  have h : s.guard.baseRelease.baseGrant = 0 ∧ KeepsSettings { s.guard.baseRelease with baseGrant := s.guard.baseGrant } s.guard := by
    unfold Guard.baseRelease; split <;> simp_all [KeepsSettings, KeepsMarks]
  obtain ⟨h0, h⟩ := h
  simp only [KeepsSettings, KeepsMarks] at h ⊢
  simp_all [releaseBase]

/-- A base claim granted sets the base grant; its other effects on the guard are the pen's step down. -/
theorem claimBase_guard (withinRaise : Bool) (amount : Nat) (s : State) (h : (claimBase withinRaise amount s).2 = true) :
    (claimBase withinRaise amount s).1.guard.baseGrant = amount ∧
    (claimBase withinRaise amount s).1.guard.profiles = s.guard.profiles ∧
    (claimBase withinRaise amount s).1.guard.active = s.guard.active ∧
    (claimBase withinRaise amount s).1.guard.cap = s.guard.cap ∧
    (claimBase withinRaise amount s).1.guard.alarms.dieOt = s.guard.alarms.dieOt ∧
    KeepsMarks (claimBase withinRaise amount s).1.guard.alarms.railOc s.guard.alarms.railOc ∧
    KeepsMarks (claimBase withinRaise amount s).1.guard.alarms.railUv s.guard.alarms.railUv ∧
    KeepsMarks (claimBase withinRaise amount s).1.guard.alarms.coilOc s.guard.alarms.coilOc ∧
    KeepsMarks (claimBase withinRaise amount s).1.guard.alarms.coilUv s.guard.alarms.coilUv := by
  unfold claimBase at h ⊢
  split at h
  · rename_i g hg
    have hb : g.baseGrant = amount ∧ KeepsSettings { g with baseGrant := s.guard.baseGrant } s.guard := by
      unfold Guard.baseClaim at hg
      (repeat' split at hg) <;> simp_all [KeepsSettings, KeepsMarks]
      all_goals (subst hg; simp [KeepsSettings, KeepsMarks])
    obtain ⟨h0, hb⟩ := hb
    simp only [KeepsSettings, KeepsMarks] at hb ⊢
    cases withinRaise <;> simp_all [KeepsSettings, KeepsMarks]
  · simp at h

/-- A base claim is granted exactly when its amount is the grant in force or fits in the budget (R126), the grants fitting before. -/
theorem claimBase_granted (withinRaise : Bool) (amount : Nat) (s : State) :
    (claimBase withinRaise amount s).2 = true ↔
      amount = s.guard.baseGrant ∨ amount + grantMw s.guard.penGrant ≤ s.guard.budget ∨ amount ≤ s.guard.budget := by
  unfold claimBase
  split
  · rename_i g hg
    have : amount = s.guard.baseGrant ∨ amount + grantMw s.guard.penGrant ≤ s.guard.budget ∨ amount ≤ s.guard.budget := by
      unfold Guard.baseClaim at hg
      (repeat' split at hg) <;> simp_all [KeepsSettings, KeepsMarks]
    cases withinRaise <;> simp [this]
  · rename_i hg
    unfold Guard.baseClaim at hg
    (repeat' split at hg) <;> simp_all [KeepsSettings, KeepsMarks]

/-- A refused base claim changes nothing. -/
theorem claimBase_refused (withinRaise : Bool) (amount : Nat) (s : State) (h : (claimBase withinRaise amount s).2 = false) :
    (claimBase withinRaise amount s).1 = s := by
  unfold claimBase at h ⊢; (repeat' split) <;> simp_all [KeepsSettings, KeepsMarks]

/-- A hold-off removed without an expired grace is removed and nothing else. -/
theorem removeHold_quiet (r : Holdoff) (s : State) (h : s.sleep.expired = false ∨ s.sleep.power ≠ .grace) :
    removeHold r s = { s with sleep := { s.sleep with holds := s.sleep.holds.put r false } } := by
  have hp : ∀ x : HoldSet, x.has r = false → x.put r false = x := by
    intro x hx; obtain ⟨⟩ := x; cases r <;> simp_all [HoldSet.has, HoldSet.put]
  unfold removeHold
  split
  · rcases h with h | h <;> simp [h]
  · rename_i k; rw [hp _ (by simpa using k)]

/-- What a hold-off's removal keeps of the sleep controller. -/
@[simp] theorem removeHold_sleep (r : Holdoff) (s : State) :
    (removeHold r s).sleep.holds = s.sleep.holds.put r false ∧ (removeHold r s).sleep.reasons = s.sleep.reasons ∧
    (removeHold r s).sleep.graceTime = s.sleep.graceTime ∧ (removeHold r s).sleep.wakeLine = s.sleep.wakeLine := by
  have hp : ∀ x : HoldSet, x.has r = false → x.put r false = x := by
    intro x hx; obtain ⟨⟩ := x; cases r <;> simp_all [HoldSet.has, HoldSet.put]
  unfold removeHold; dsimp only
  (repeat' split)
  · simp [sleepAsk, postSleep]
  · simp
  · rename_i k; simp [hp _ (by simpa using k)]

/-! ## The rail after an operation of the charger -/

/-- The rail's conditions depend on the base, its grant, the rail's latches and DIE-OT alone. -/
theorem railConditions_of {t s : State} (h : KeepsSettings t.guard s.guard) (k : t.att = s.att) :
    railConditions t = railConditions s := by
  simp only [KeepsSettings, KeepsMarks] at h; simp [railConditions, railLatched, h, k]

theorem goSession_rail (new : PenState) (fault : Option FaultCause) (c : ClaimStep) (s : State) :
    (goSession new fault c s).guard.railOn = railConditions s := by
  have e : (goSession new fault c s).guard.railOn =
      (switchOutputs (claimStep c (setHold .chargeStarting (new == .softStart)
        (stopPenTimers { s with pen := { s.pen with session := new, fault := fault } })))).guard.railOn := by
    simp [goSession]
  rw [e, (switchOutputs_settings _).2.2.2.2.1]
  exact railConditions_of (by simp [KeepsSettings, KeepsMarks]) (by simp)

theorem claimSession_rail (new : PenState) (l : PenLevel) (s : State) : (claimSession new l s).guard.railOn = railConditions s := by
  unfold claimSession; dsimp only; split
  · rw [goSession_rail]; exact railConditions_of (by simp [KeepsSettings, KeepsMarks]) (by simp)
  · exact goSession_rail _ _ _ _

theorem enterDetect_rail (s : State) : (enterDetect s).guard.railOn = railConditions s := by
  unfold enterDetect; split
  · exact goSession_rail _ _ _ _
  · exact claimSession_rail _ _ _

theorem enterSoftStart_rail (s : State) : (enterSoftStart s).guard.railOn = railConditions s := by
  unfold enterSoftStart; split
  · exact goSession_rail _ _ _ _
  · exact claimSession_rail _ _ _

/-- What the guard tells the pen leaves the rail as it was or as its conditions say. -/
theorem penTold_rail (before : Option PenLevel) (s : State) :
    (penTold before s).guard.railOn = s.guard.railOn ∨ (penTold before s).guard.railOn = railConditions s := by
  unfold penTold resumeSession; (repeat' split) <;>
    first | exact Or.inl rfl | exact Or.inr (goSession_rail _ _ _ _) | exact Or.inr (enterSoftStart_rail _) | exact Or.inr (enterDetect_rail _)

/-- A released base has its rail off (R127, R134). -/
theorem releaseBase_rail (s : State) : (releaseBase s).guard.railOn = false := by
  have h0 : s.guard.baseRelease.baseGrant = 0 := by unfold Guard.baseRelease; split <;> simp_all
  have rc : ∀ t : State, t.guard.baseGrant = 0 → railConditions t = false := by intro t ht; simp [railConditions, ht]
  unfold releaseBase; dsimp only
  rcases penTold_rail s.guard.penGrant
    (switchOutputs (postBudget s.guard .baseRelease { s with guard := s.guard.baseRelease })) with h | h <;> rw [h]
  · rw [(switchOutputs_settings _).2.2.2.2.1]; exact rc _ (by simp [h0])
  · exact rc _ (by simp [h0])

/-! ## The base's claims and releases keep the alarms as well -/

theorem releaseBase_quiet (s : State) : StaysQuiet (releaseBase s) s := by
  unfold releaseBase; dsimp only
  refine staysQuiet_trans (penTold_quiet _ _) (staysQuiet_trans (switchOutputs_quiet _) (staysQuiet_of ?_))
  simp [Guard.baseRelease]; split <;> simp

theorem claimBase_quiet (withinRaise : Bool) (amount : Nat) (s : State) : StaysQuiet (claimBase withinRaise amount s).1 s := by
  unfold claimBase; split
  · rename_i g hg
    have := (baseClaim_frame _ _ _ hg).2.2.2.2.2.2.1
    dsimp only; split
    · exact staysQuiet_trans (switchOutputs_quiet _) (staysQuiet_of (by simpa using this))
    · exact staysQuiet_trans (penTold_quiet _ _) (staysQuiet_trans (switchOutputs_quiet _) (staysQuiet_of (by simpa using this)))
  · exact staysQuiet_of rfl

/-- An alarm's latch and sticky state, the cap and DIE-OT are kept, and what is not detected stays so. -/
@[reducible] def KeepsAlarms (t s : State) : Prop :=
  t.guard.cap = s.guard.cap ∧ t.guard.alarms.dieOt = s.guard.alarms.dieOt ∧
  KeepsMarks t.guard.alarms.railOc s.guard.alarms.railOc ∧ KeepsMarks t.guard.alarms.railUv s.guard.alarms.railUv ∧
  KeepsMarks t.guard.alarms.coilOc s.guard.alarms.coilOc ∧ KeepsMarks t.guard.alarms.coilUv s.guard.alarms.coilUv

@[simp] theorem enterUnpowered_alarms (demand : Nat) (s : State) : KeepsAlarms (enterUnpowered demand s) s := by
  have h := fun u => releaseBase_guard u
  simp only [KeepsMarks] at h
  simp [enterUnpowered, h, KeepsAlarms, KeepsMarks]

theorem enterUnpowered_quiet (demand : Nat) (s : State) : StaysQuiet (enterUnpowered demand s) s := by
  intro x k; simp only [enterUnpowered, post_frame]
  exact releaseBase_quiet _ x (by simpa using k)

@[simp] theorem enterPowering_alarms (withinRaise : Bool) (s : State) : KeepsAlarms (enterPowering withinRaise s) s := by
  unfold enterPowering; dsimp only
  split
  · rename_i h
    have := claimBase_guard _ _ _ h
    simp only [KeepsMarks] at this
    simp_all [KeepsAlarms, KeepsMarks]
  · rename_i h
    have hr := claimBase_refused _ _ _ (by simpa using h)
    simp [hr, KeepsAlarms, KeepsMarks]

theorem enterPowering_quiet (withinRaise : Bool) (s : State) : StaysQuiet (enterPowering withinRaise s) s := by
  unfold enterPowering; dsimp only
  split
  · exact staysQuiet_trans (staysQuiet_of rfl) (staysQuiet_trans (claimBase_quiet _ _ _) (staysQuiet_of (by simp)))
  · exact staysQuiet_trans (enterUnpowered_quiet _ _) (staysQuiet_trans (claimBase_quiet _ _ _) (staysQuiet_of (by simp)))

/-- Entry to POWERING: the rail-up time runs where the allowance fits in the budget, else the link is UNPOWERED (R45, R61). -/
theorem enterPowering_link (withinRaise : Bool) (s : State) (h : s.guard.baseGrant = 0) :
    (250 ≤ s.guard.budget → (enterPowering withinRaise s).link = { s.link with state := .powering, rate := none, railUp := some 200 } ∧
      (enterPowering withinRaise s).guard.baseGrant = 250) ∧
    (s.guard.budget < 250 → (enterPowering withinRaise s).link.state = .unpowered ∧
      (enterPowering withinRaise s).guard.baseGrant = 0) := by
  constructor
  · intro hb
    have hg : (claimBase withinRaise 250 (setLinkState .powering s)).2 = true := by rw [claimBase_granted]; simp; omega
    have := claimBase_guard _ _ _ hg
    simp [enterPowering, allowance, hg, this, ms, startMs, keepsRate]
  · intro hb
    have hg : (claimBase withinRaise 250 (setLinkState .powering s)).2 = false := by
      rw [← Bool.not_eq_true, claimBase_granted]; simp; omega
    have hr := claimBase_refused _ _ _ hg
    have h0 := fun u => (releaseBase_guard u).1
    simp [enterPowering, allowance, hg, hr, enterUnpowered, h0]

end Sys2Proof.Machine
end

