-- ==== Sys2Proof/Laws/Link.lean ====
section
/-! SUPPORT. The link's shared changes in closed form while no grace has expired: a change of link state, the end of every open request,
link loss; the issuer's offer and the ends of the link in closed form; and the quiet cases of the guard's operations. -/
namespace Sys2Proof.Machine
set_option linter.all false

/-- A change of link state with no grace expired (R42, R173). -/
theorem setLinkState_eq (new : LinkState) (s : State) (h : s.sleep.expired = false) : setLinkState new s = linkChanged new s := by
  unfold setLinkState setHold
  dsimp only
  split
  · cases new <;> simp_all [identifyingHeld, linkChanged, keepsRate, addHold, HoldSet.put, LinkState.isUp]
  · rw [removeHold_quiet _ _ (Or.inl (by exact h))]
    cases new <;> simp_all [identifyingHeld, linkChanged, keepsRate, HoldSet.put, LinkState.isUp]

/-- A link-ending report with no grace expired (R84, R173). -/
theorem linkEnding_eq (s : State) (h : s.sleep.expired = false) : linkEnding s = requestsGone s := by
  have hany : (s.issuer.table.map (fun e => if e.isOpen then e.finish .gone none s.issuer.discardTime else e)).any ReqEntry.isOpen = false := by
    rw [List.any_eq_false]; intro e he
    rw [List.mem_map] at he; obtain ⟨x, _, rfl⟩ := he
    by_cases k : x.state = .done <;> simp [k, ReqEntry.isOpen, ReqEntry.finish]
  have hmap : s.issuer.table.map (fun e => if e.isOpen then e.finish .gone none s.issuer.discardTime else e) = s.issuer.table.map (fun e => if e.state = .done then e
      else { e with state := .done, outcome := some .gone, response := none, discard := some (10 * s.issuer.discardTime) }) := by
    apply List.map_congr_left; intro e _; by_cases k : e.state = .done <;> simp [ReqEntry.isOpen, k, ReqEntry.finish, startMs, ms]
  simp only [linkEnding, issuerHold]
  rw [hany, setHold, if_neg (by simp), removeHold_quiet _ _ (Or.inl (by exact h))]
  simp [hmap, HoldSet.put, requestsGone]

/-- What a link-ending report leaves of the issuer, whatever the grace (R84). -/
theorem linkEnding_issuer (s : State) : (linkEnding s).issuer = (requestsGone s).issuer := by
  have : s.issuer.table.map (fun e => if e.isOpen then e.finish .gone none s.issuer.discardTime else e) = (requestsGone s).issuer.table := by
    apply List.map_congr_left; intro e _; by_cases k : e.state = .done <;> simp [k, ReqEntry.isOpen, ReqEntry.finish, startMs, ms]
  simp only [linkEnding, issuerHold, setHold_frame]
  rw [this]; rfl

/-- The issuer's offer is made when no offer waits, none is ISSUED and the link is READY or QUIET, and is then the oldest's (R75). -/
theorem tryOffer_eq (s : State) :
    tryOffer s =
      if s.issuer.waiting = none ∧ (∀ e ∈ s.issuer.table, e.state ≠ .issued) ∧ s.link.state.isUp = true then oldestOffered s else s := by
  have hm : ∀ (e : ReqEntry) (l : List ReqEntry),
      l.map (fun x => if x.hasKey e.target e.command then { x with state := .issued } else x) =
      l.map (fun x => if x.target = e.target ∧ x.command = e.command then { x with state := .issued } else x) := by
    intro e l; apply List.map_congr_left; intro x _; simp [ReqEntry.hasKey]
  have key : (s.issuer.waiting.isNone && s.issuer.table.all (fun e => e.state != .issued) && s.link.state.isUp) = true ↔
      (s.issuer.waiting = none ∧ (∀ e ∈ s.issuer.table, e.state ≠ .issued) ∧ s.link.state.isUp = true) := by
    simp [and_assoc]
  unfold tryOffer
  by_cases h : s.issuer.waiting = none ∧ (∀ e ∈ s.issuer.table, e.state ≠ .issued) ∧ s.link.state.isUp = true
  · rw [if_pos (key.mpr h), if_pos h]
    unfold oldestOffered offer commandFrame changeEntry
    cases s.issuer.table.find? (fun e => e.state == .queued) with
    | none => rfl
    | some e =>
      dsimp only
      split
      · rename_i p hp
        rw [hm]
        have : s.issuer = { s.issuer with waiting := none } := by rw [← h.1]
        try simp only [hp]
        congr 1; congr 1; exact h.1.symm
      · rename_i hp; first | (simp only [hp]; done) | rfl
  · rw [if_neg (fun k => h (key.mp k)), if_neg h]

/-- What the end of the link leaves of a diagnosis and of the timers, with the queue flushed (R61 to R63, R68). -/
theorem linkDown_ended (cause : DiagEnd) (new : LinkState) (s : State) (h : keepsRate new = false) :
    let v := setLinkState new (flushDown (linkEnding (stopLinkTimers (endDiagnosis cause s))))
    v.issuer = (requestsGone s).issuer ∧ v.pool = { s.pool with down := [], hingeBusy := false } ∧
    v.link = { s.link with
      state := new, rate := none, quietWaits := false, kaDue := false, resetAfterRail := false, debounce := none, railUp := none
      echo := none, retry := none, describe := none, quiet := none, wake := none, keepAlive := none, kaWindow := none
      resetDrive := none, diag := none } ∧
    v.route = { s.route with noBase := false } ∧ v.posture = { s.posture with baseRun := none } ∧
    v.att = { s.att with
      diagnosis :=
        if s.link.state = .diagnosing then s.att.diagnosis.map (fun d => { d with endedBy := some cause }) else s.att.diagnosis } := by
  intro v
  have e : ∀ u : State, u.issuer = s.issuer → (requestsGone u).issuer = (requestsGone s).issuer := by
    intro u hu; simp only [requestsGone, hu]
  have ed : (endDiagnosis cause s).issuer = s.issuer ∧ (endDiagnosis cause s).pool = s.pool ∧ (endDiagnosis cause s).link = s.link ∧
      (endDiagnosis cause s).route = s.route ∧ (endDiagnosis cause s).posture = s.posture ∧ (endDiagnosis cause s).att = { s.att with
      diagnosis :=
        if s.link.state = .diagnosing then s.att.diagnosis.map (fun d => { d with endedBy := some cause }) else s.att.diagnosis } := by
    unfold endDiagnosis; split <;> simp_all
  obtain ⟨e1, e2, e3, e4, e5, e6⟩ := ed
  have i := linkEnding_issuer (stopLinkTimers (endDiagnosis cause s))
  refine ⟨?_, ?_, ?_, ?_, ?_, ?_⟩
  · simp only [v, setLinkState, setInputs_frame, setHold_frame, flushDown]; rw [i]; exact e _ e1
  · simp [v, setLinkState, flushDown, stopLinkTimers, e2]
  · simp [v, setLinkState, flushDown, stopLinkTimers, e3, h]
  · simp [v, setLinkState, flushDown, stopLinkTimers, e4]
  · simp [v, setLinkState, flushDown, stopLinkTimers, e5]
  · simp [v, setLinkState, flushDown, stopLinkTimers, e6]

/-- The link has ended from s to any state with the ended parts of v. -/
theorem linkEnded_of {cause : DiagEnd} {s v t : State} (h : LinkEnded cause s v) (hi : t.issuer = v.issuer) (hp : t.pool = v.pool)
    (hl : t.link = v.link) (hr : t.route = v.route) (hb : t.posture.baseRun = v.posture.baseRun)
    (ha : t.att = { v.att with present := t.att.present }) : LinkEnded cause s t := by
  obtain ⟨h1, h2, h3, h4, h5, h6, h7, h8, h9, h10⟩ := h
  exact ⟨hi.trans h1, hp.trans h2, by rw [hl]; exact h3, by rw [hl]; exact h4, by rw [hl]; exact h5, by rw [hl]; exact h6,
    by rw [hl]; exact h7, hr.trans h8, hb.trans h9, by rw [ha, h10]⟩

/-- Entry to UNPOWERED ends the link (R61, R68). -/
theorem enterUnpowered_ended (d : Nat) (s : State) : LinkEnded .unpowered s (enterUnpowered d s) := by
  obtain ⟨h1, h2, h3, h4, h5, h6⟩ := linkDown_ended .unpowered .unpowered s rfl
  unfold enterUnpowered; dsimp only at *
  generalize setLinkState .unpowered (flushDown (linkEnding (stopLinkTimers (endDiagnosis .unpowered s)))) = v at *
  have p : (post (.attach (.unpowered d)) (releaseBase v)).issuer = v.issuer ∧ (post (.attach (.unpowered d)) (releaseBase v)).pool = v.pool ∧
      (post (.attach (.unpowered d)) (releaseBase v)).link = v.link ∧ (post (.attach (.unpowered d)) (releaseBase v)).route = v.route ∧
      (post (.attach (.unpowered d)) (releaseBase v)).posture = v.posture ∧ (post (.attach (.unpowered d)) (releaseBase v)).att = v.att := by simp
  obtain ⟨p1, p2, p3, p4, p5, p6⟩ := p
  unfold LinkEnded; rw [p1, p2, p3, p4, p5, p6, h1, h2, h3, h4, h5, h6]
  exact ⟨rfl, rfl, rfl, rfl, rfl, rfl, rfl, rfl, rfl, rfl⟩

/-- Entry to FAULTED ends the link (R62, R68). -/
theorem enterFaulted_ended (s : State) : LinkEnded .faulted s (enterFaulted s) := by
  obtain ⟨h1, h2, h3, h4, h5, h6⟩ := linkDown_ended .faulted .faulted s rfl
  unfold enterFaulted; dsimp only at *
  generalize setLinkState .faulted (flushDown (linkEnding (stopLinkTimers (endDiagnosis .faulted s)))) = v at *
  have p : (post (.attach .faulted) (releaseBase v)).issuer = v.issuer ∧ (post (.attach .faulted) (releaseBase v)).pool = v.pool ∧
      (post (.attach .faulted) (releaseBase v)).link = v.link ∧ (post (.attach .faulted) (releaseBase v)).route = v.route ∧
      (post (.attach .faulted) (releaseBase v)).posture = v.posture ∧ (post (.attach .faulted) (releaseBase v)).att = v.att := by simp
  obtain ⟨p1, p2, p3, p4, p5, p6⟩ := p
  unfold LinkEnded postEvent; dsimp only; rw [p1, p2, p3, p4, p5, p6, h1, h2, h3, h4, h5, h6]
  exact ⟨rfl, rfl, rfl, rfl, rfl, rfl, rfl, rfl, rfl, rfl⟩

/-- Link loss in closed form (R60). -/
theorem linkLoss_eq (s : State) (h : s.sleep.expired = false) :
    linkLoss s =
      (let l := s.link
       let v := requestsGone (post (.link .lost)
         { s with link := { l with
           quietWaits := false, kaDue := false, resetAfterRail := false, debounce := none, railUp := none, echo := none
           retry := none, describe := none, quiet := none, wake := none, keepAlive := none, kaWindow := none
           resetDrive := none, diag := none } })
       let u := linkChanged .training { v with pool := { v.pool with down := [], hingeBusy := false } }
       { u with link := { u.link with rate := some .fast, attempt := 1, echo := some 100 } }) := by
  simp only [linkLoss, startTraining, attemptAt]
  rw [linkEnding_eq _ (by simpa [stopLinkTimers] using h), setLinkState_eq _ _ (by simp [flushDown, requestsGone, stopLinkTimers, h])]
  rfl

/-- Outputs that follow their conditions are left as they are (R134). -/
theorem switchOutputs_still (s : State) (h : s.guard.coilOn = coilConditions s ∧ s.guard.railOn = railConditions s) :
    switchOutputs s = setInputs { s.policy.inputs with alarm := anyDetected s.guard.alarms } s := by
  have h1 : switchCoil s = s := by unfold switchCoil; simp [h.1]
  have h2 : switchRail s = s := by unfold switchRail; simp [h.2]
  rw [switchOutputs, h1, h2]; rfl

/-- A pen grant that fits a lowered budget stays (R130). -/
theorem lowerPen_fits (b g : Nat) (o : Option PenLevel) (h : g + grantMw o ≤ b) : lowerPen b g o = o := by
  cases o with
  | none => rfl
  | some l =>
    have : levelMw l + g ≤ b := by simp [grantMw] at h; omega
    cases l <;> simp [lowerPen, bestFit, rank, this] <;> simp [List.find?]

/-- The pen target below no cap is the claimed level (R125). -/
theorem target_uncapped (g : Guard) (l : PenLevel) (h : g.cap = none) : ({ g with claimed := some l } : Guard).target = some l := by
  simp [Guard.target, h]

/-- A level that fits is the best at or below itself. -/
theorem bestFit_self (b g : Nat) (l : PenLevel) (h : levelMw l + g ≤ b) : bestFit b g l = some l := by
  cases l <;> simp [bestFit, rank, h] <;> simp [List.find?]

/-- A claim below no cap that finds its room is granted in full (R128). -/
theorem penClaim_room (g : Guard) (l : PenLevel) (h : g.cap = none) (r : levelMw l + g.baseGrant ≤ g.budget) : (g.penClaim l).penGrant = some l := by
  simp only [Guard.penClaim]; rw [target_uncapped _ _ h]; exact bestFit_self _ _ _ r

/-- The pen grant after a change of session is the claim step's. -/
theorem goSession_grant (new : PenState) (f : Option FaultCause) (c : ClaimStep) (s : State) : (goSession new f c s).guard.penGrant = (claimStep c { s with pen := { s.pen with session := new } }).guard.penGrant := by
  cases c <;> simp [goSession, claimStep]

/-- The claimed level after a change of session is the claim step's. -/
theorem goSession_claimed (new : PenState) (f : Option FaultCause) (c : ClaimStep) (s : State) : (goSession new f c s).guard.claimed = (claimStep c s).guard.claimed := by
  cases c <;> simp [goSession, claimStep]

/-- SOFT-START with room: the requested level is granted (R153). -/
theorem enterSoftStart_room (s : State) (h : s.pen.hold = none) (c : s.guard.cap = none) (r : levelMw s.pen.requested + s.guard.baseGrant ≤ s.guard.budget) :
    (enterSoftStart s).pen.session = .softStart ∧ (enterSoftStart s).guard.penGrant = some s.pen.requested ∧ (enterSoftStart s).sleep.holds.chargeStarting = true := by
  have g : (goSession .softStart none (.claim s.pen.requested) s).guard.penGrant = some s.pen.requested := by
    rw [goSession_grant]; simp [claimStep, penClaim_room _ _ c r]
  simp [enterSoftStart, h, claimSession, g]
  simp [goSession, setHold, addHold, HoldSet.put]

/-- DETECT with room: TRICKLE is granted (R151). -/
theorem enterDetect_room (s : State) (h : s.pen.hold = none) (r : levelMw .trickle + s.guard.baseGrant ≤ s.guard.budget) :
    (enterDetect s).pen.session = .detect ∧ (enterDetect s).guard.penGrant = some .trickle ∧ (enterDetect s).guard.claimed = some .trickle ∧ (enterDetect s).pen.fault = none := by
  have pc : (s.guard.penClaim .trickle).penGrant = some .trickle := by
    have t : ({ s.guard with claimed := some .trickle } : Guard).target = some .trickle := by
      simp only [Guard.target]; cases s.guard.cap with
      | none => rfl
      | some c => cases c <;> simp [minLevel, rank]
    simp only [Guard.penClaim]; rw [t]; exact bestFit_self _ _ _ r
  have g : (goSession .detect none (.claim .trickle) s).guard.penGrant = some .trickle := by
    rw [goSession_grant]; simp [claimStep, pc]
  have g2 : (goSession .detect none (.claim .trickle) s).guard.claimed = some .trickle := by
    rw [goSession_claimed]; simp [claimStep]
  simp [enterDetect, h, claimSession, g, g2]

end Sys2Proof.Machine
end

