-- ==== Sys2Proof/Laws/Pen.lean ====
section
/-! SUPPORT. What a change of the pen's session leaves: the coil, the pen's timers, the hold-off, the events and the latches. -/
namespace Sys2Proof.Machine
set_option linter.all false

/-- PEN-COIL after a change of session (R134). -/
theorem goSession_coil (new : PenState) (f : Option FaultCause) (c : ClaimStep) (s : State) :
    (goSession new f c s).guard.coilOn =
      ((goSession new f c s).guard.penGrant.isSome && drawing new && !coilLatched s && !s.guard.alarms.dieOt.detected) := by
  have hc : coilLatched (claimStep c (setHold .chargeStarting (new == .softStart) (stopPenTimers { s with pen := { s.pen with session := new, fault := f } }))) = coilLatched s := by
    simp [coilLatched]
  simp [goSession, coilConditions, hc]

/-- A session that draws nothing has no timer of the pen running (section 8.1). -/
theorem goSession_idle (new : PenState) (f : Option FaultCause) (c : ClaimStep) (s : State) (h : drawing new = false) :
    (goSession new f c s).pen = { s.pen with session := new, fault := f, detect := none, ramp := none, silence := none } := by
  have ha : ∀ u : State, u.pen.session = new → armPenTimer u = u := by
    intro u hu; unfold armPenTimer; rw [hu]; split
    · cases new <;> simp_all [drawing]
    · rfl
  have hcoil : ∀ u : State, u.pen = { s.pen with session := new, fault := f, detect := none, ramp := none, silence := none } → (switchCoil u).pen = u.pen := by
    intro u hu
    have hs : u.pen.session = new := by rw [hu]
    have : coilConditions u = false := by simp [coilConditions, hs, h]
    unfold switchCoil; rw [this]; dsimp only
    split
    · rfl
    · simp [stopPenTimers, hu]
  have hrail : ∀ u : State, (switchRail u).pen = u.pen := by intro u; unfold switchRail; dsimp only; (repeat' split) <;> rfl
  have hout : ∀ u : State, u.pen = { s.pen with session := new, fault := f, detect := none, ramp := none, silence := none } → (switchOutputs u).pen = u.pen := by
    intro u hu; unfold switchOutputs; simp only [reportAlarm_frame]; rw [hrail, hcoil u hu]
  have hp : (claimStep c (setHold .chargeStarting (new == .softStart) (stopPenTimers { s with pen := { s.pen with session := new, fault := f } }))).pen = { s.pen with session := new, fault := f, detect := none, ramp := none, silence := none } := by
    cases c <;> simp [claimStep, stopPenTimers]
  have := hout _ hp
  simp only [goSession, post_frame, setInputs_frame]
  rw [ha _ (by rw [this, hp]), this, hp]

/-- The hold-off CHARGE-STARTING is held in SOFT-START alone (R153). -/
theorem goSession_hold (new : PenState) (f : Option FaultCause) (c : ClaimStep) (s : State) :
    (goSession new f c s).sleep.holds.chargeStarting = (new == .softStart) := by
  have : ∀ u : State, (claimStep c u).sleep = u.sleep := by intro u; cases c <;> simp [claimStep]
  cases new <;> simp [goSession, this, setHold, addHold, HoldSet.put]

/-- The outputs' switching posts no event. -/
@[simp] theorem switchOutputs_events (s : State) : (switchOutputs s).policy.events = s.policy.events := by
  unfold switchOutputs reportAlarm setInputs switchRail switchCoil armPenTimer stopPenTimers
  dsimp only; (repeat' split) <;> rfl

/-- A change of session posts no event. -/
@[simp] theorem goSession_events (new : PenState) (f : Option FaultCause) (c : ClaimStep) (s : State) :
    (goSession new f c s).policy.events = s.policy.events := by
  have h : ∀ u : State, (armPenTimer u).policy = u.policy := by intro u; unfold armPenTimer; (repeat' split) <;> rfl
  have : ∀ u : State, (claimStep c u).policy = u.policy := by intro u; cases c <;> simp [claimStep]
  simp [goSession, setInputs, h, this]

/-- A claiming session posts no event. -/
@[simp] theorem claimSession_events (new : PenState) (l : PenLevel) (s : State) : (claimSession new l s).policy.events = s.policy.events := by
  unfold claimSession; dsimp only; split <;> simp

@[simp] theorem enterDetect_events (s : State) : (enterDetect s).policy.events = s.policy.events := by unfold enterDetect; split <;> simp

@[simp] theorem enterSoftStart_events (s : State) : (enterSoftStart s).policy.events = s.policy.events := by unfold enterSoftStart; split <;> simp

@[simp] theorem resumeSession_events (s : State) : (resumeSession s).policy.events = s.policy.events := by unfold resumeSession; split <;> simp

@[simp] theorem penTold_events (before : Option PenLevel) (s : State) : (penTold before s).policy.events = s.policy.events := by
  unfold penTold; (repeat' split) <;> simp

@[simp] theorem coilLatchTold_events (s : State) : (coilLatchTold s).policy.events = s.policy.events := by
  unfold coilLatchTold enterFault; split <;> simp

@[simp] theorem setLinkState_events (new : LinkState) (s : State) : (setLinkState new s).policy.events = s.policy.events := by
  simp [setLinkState, setInputs]

@[simp] theorem releaseBase_events (s : State) : (releaseBase s).policy.events = s.policy.events := by
  simp [releaseBase]

/-! A latched cause that is detected stays detected (R136). -/


/-- A latched and detected alarm stays so. -/
@[reducible] def StaysLatched (t s : State) : Prop :=
  ∀ c, (s.guard.alarms.get c).latch = true → (s.guard.alarms.get c).detected = true →
    (t.guard.alarms.get c).latch = true ∧ (t.guard.alarms.get c).detected = true

theorem staysLatched_of {t s : State} (h : t.guard.alarms = s.guard.alarms) : StaysLatched t s := by intro c k l; rw [h]; exact ⟨k, l⟩

theorem staysLatched_trans {a b c : State} (h : StaysLatched a b) (k : StaysLatched b c) : StaysLatched a c :=
  fun x y z => let w := k x y z; h x w.1 w.2

theorem switchOutputs_latched (s : State) : StaysLatched (switchOutputs s) s := by
  have h : StaysLatched (switchCoil s) s := by
    intro c k l; unfold switchCoil armPenTimer; dsimp only
    (repeat' split) <;> first | exact ⟨k, l⟩ | (cases c <;> simp_all [PerCause.get, Alarm.outputOff, stopPenTimers])
  refine staysLatched_trans ?_ h
  intro c k l; unfold switchOutputs switchRail; dsimp only
  rw [(reportAlarm_frame _).2.2.2.2.2.1.1]
  (repeat' split) <;> first | exact ⟨k, l⟩ | (cases c <;> simp_all [PerCause.get, Alarm.outputOff])

theorem goSession_latched (new : PenState) (fault : Option FaultCause) (c : ClaimStep) (s : State) :
    StaysLatched (goSession new fault c s) s := by
  intro x k l; simp only [goSession, post_frame, setInputs_frame, armPenTimer_frame]
  exact switchOutputs_latched _ x (by simpa using k) (by simpa using l)

theorem claimSession_latched (new : PenState) (l : PenLevel) (s : State) : StaysLatched (claimSession new l s) s := by
  unfold claimSession; dsimp only; split
  · exact staysLatched_trans (goSession_latched _ _ _ _) (goSession_latched _ _ _ _)
  · exact goSession_latched _ _ _ _

theorem resumeSession_latched (s : State) : StaysLatched (resumeSession s) s := by
  unfold resumeSession enterSoftStart enterDetect; (repeat' split) <;> first | exact goSession_latched _ _ _ _ | exact claimSession_latched _ _ _

theorem penTold_latched (before : Option PenLevel) (s : State) : StaysLatched (penTold before s) s := by
  unfold penTold; (repeat' split) <;>
    first | exact goSession_latched _ _ _ _ | exact resumeSession_latched _ | exact staysLatched_of rfl

theorem coilLatchTold_latched (s : State) : StaysLatched (coilLatchTold s) s := by
  unfold coilLatchTold enterFault; split <;> first | exact goSession_latched _ _ _ _ | exact staysLatched_of rfl

theorem releaseBase_latched (s : State) : StaysLatched (releaseBase s) s := by
  unfold releaseBase; dsimp only
  refine staysLatched_trans (penTold_latched _ _) (staysLatched_trans (switchOutputs_latched _) (staysLatched_of ?_))
  simp [Guard.baseRelease]; split <;> simp

theorem enterFaulted_latched (s : State) : StaysLatched (enterFaulted s) s := by
  have eg : ∀ u, (endDiagnosis .faulted u).guard = u.guard := by intro u; unfold endDiagnosis; split <;> rfl
  intro x k l; simp only [enterFaulted, postEvent, post_frame]
  exact releaseBase_latched _ x (by simpa [eg] using k) (by simpa [eg] using l)


/-- The pen's timers after a change of session: the detect window runs in DETECT alone, the ramp in SOFT-START alone, and with the coil on
the silence timer is fresh in CHARGING and TOPPED (section 8.1). -/
theorem goSession_timers (new : PenState) (f : Option FaultCause) (c : ClaimStep) (s : State) :
    (new ≠ .detect → (goSession new f c s).pen.detect = none) ∧ (new ≠ .softStart → (goSession new f c s).pen.ramp = none) ∧
    ((goSession new f c s).guard.coilOn = true → new = .charging ∨ new = .topped → (goSession new f c s).pen.silence = some 20000) := by
  let u : State := claimStep c (setHold .chargeStarting (new == .softStart) (stopPenTimers { s with pen := { s.pen with session := new, fault := f } }))
  have up : u.pen = { s.pen with session := new, fault := f, detect := none, ramp := none, silence := none } := by
    cases c <;> simp [u, claimStep, stopPenTimers]
  have arm : ∀ v : State, v.pen.session = new →
      (new ≠ .detect → v.pen.detect = none → (armPenTimer v).pen.detect = none) ∧ (new ≠ .softStart → v.pen.ramp = none → (armPenTimer v).pen.ramp = none) ∧
      (v.guard.coilOn = true → new = .charging ∨ new = .topped → (armPenTimer v).pen.silence = some 20000) ∧ (armPenTimer v).pen.session = new := by
    intro v hv
    unfold armPenTimer; rw [hv]
    refine ⟨?_, ?_, ?_, ?_⟩
    · intro h1 h2; split
      · cases new <;> simp_all
      · exact h2
    · intro h1 h2; split
      · cases new <;> simp_all
      · exact h2
    · intro h1 h2; rw [if_pos h1]; rcases h2 with h2 | h2 <;> subst h2 <;> rfl
    · split
      · cases new <;> simp_all
      · exact hv
  have coil : (new ≠ .detect → (switchCoil u).pen.detect = none) ∧ (new ≠ .softStart → (switchCoil u).pen.ramp = none) ∧ (switchCoil u).pen.session = new := by
    have us : u.pen.session = new := by rw [up]
    have ud : u.pen.detect = none := by rw [up]
    have ur : u.pen.ramp = none := by rw [up]
    unfold switchCoil; dsimp only
    split
    · exact ⟨fun _ => ud, fun _ => ur, us⟩
    · split
      · have a := arm { u with guard := { u.guard with coilOn := true } } us
        exact ⟨fun h => a.1 h ud, fun h => a.2.1 h ur, a.2.2.2⟩
      · exact ⟨fun _ => rfl, fun _ => rfl, us⟩
  have hrail : ∀ u : State, (switchRail u).pen = u.pen := by intro u; unfold switchRail; dsimp only; (repeat' split) <;> rfl
  have out : (switchOutputs u).pen = (switchCoil u).pen := by unfold switchOutputs; simp only [reportAlarm_frame]; rw [hrail]
  have a := arm (switchOutputs u) (by rw [out]; exact coil.2.2)
  have e : (goSession new f c s).pen = (armPenTimer (switchOutputs u)).pen := by simp [goSession, u]
  have eg : (goSession new f c s).guard.coilOn = (switchOutputs u).guard.coilOn := by simp [goSession, u]
  rw [e, eg]
  exact ⟨fun h => a.1 h (by rw [out]; exact coil.1 h), fun h => a.2.1 h (by rw [out]; exact coil.2.1 h), a.2.2.1⟩

/-- The grant of a pen claim: the highest level at or below the claimed level and the cap that fits beside the base grant (R125, R128). -/
theorem penClaim_best (g : Guard) (l : PenLevel) :
    (g.penClaim l).penGrant = [PenLevel.fast, .steady, .trickle].find? (fun m =>
      decide (levelMw m ≤ levelMw l) && g.cap.all (fun c => decide (levelMw m ≤ levelMw c)) && decide (levelMw m + g.baseGrant ≤ g.budget)) := by
  have h : ∀ t, bestFit g.budget g.baseGrant t = [PenLevel.fast, .steady, .trickle].find? (fun m =>
      decide (levelMw m ≤ levelMw t) && decide (levelMw m + g.baseGrant ≤ g.budget)) := by
    intro t; unfold bestFit; congr 1; funext m; cases m <;> cases t <;> simp [rank, levelMw]
  simp only [Guard.penClaim, Guard.target]
  show Option.bind _ (bestFit g.budget g.baseGrant) = _
  cases g.cap with
  | none => simp only [Option.bind_some, h]; simp
  | some c =>
    simp only [Option.bind_some, h]
    congr 1; funext m; cases m <;> cases l <;> cases c <;> simp [minLevel, rank, levelMw]

/-- A claiming session that finds room is the session itself (R128). -/
theorem claimSession_room (new : PenState) (l g : PenLevel) (s : State) (h : (s.guard.penClaim l).penGrant = some g) :
    claimSession new l s = goSession new none (.claim l) s ∧ (claimSession new l s).pen.session = new ∧
    (claimSession new l s).guard.penGrant = some g ∧ (claimSession new l s).guard.claimed = some l := by
  have gr : (goSession new none (.claim l) s).guard.penGrant = some g := by rw [goSession_grant]; simp [claimStep, h]
  have e : claimSession new l s = goSession new none (.claim l) s := by simp [claimSession, gr]
  exact ⟨e, by rw [e]; simp [goSession], by rw [e, gr], by rw [e, goSession_claimed]; simp [claimStep]⟩

/-- A claiming session that finds no room is PAUSED with the claim kept (R128, R156). -/
theorem claimSession_noRoom (new : PenState) (l : PenLevel) (s : State) (h : (s.guard.penClaim l).penGrant = none) :
    (claimSession new l s).pen.session = .paused ∧ (claimSession new l s).pen.fault = none ∧ (claimSession new l s).guard.penGrant = none ∧
    (claimSession new l s).guard.claimed = some l ∧ (claimSession new l s).guard.coilOn = false ∧
    (claimSession new l s).sleep.holds.chargeStarting = false := by
  have gr : (goSession new none (.claim l) s).guard.penGrant = none := by rw [goSession_grant]; simp [claimStep, h]
  have cl : (goSession new none (.claim l) s).guard.claimed = some l := by rw [goSession_claimed]; simp [claimStep]
  have e : claimSession new l s = goSession .paused none .keep (goSession new none (.claim l) s) := by simp [claimSession, gr]
  rw [e]
  refine ⟨by simp [goSession], by simp [goSession], ?_, ?_, ?_, ?_⟩
  · rw [goSession_grant]; simpa [claimStep] using gr
  · rw [goSession_claimed]; simpa [claimStep] using cl
  · rw [goSession_coil]; simp [drawing]
  · rw [goSession_hold]; rfl

/-- A claiming session leaves the dock's mark, the hold and the requested level. -/
theorem claimSession_pen (new : PenState) (l : PenLevel) (s : State) :
    (claimSession new l s).pen.docked = s.pen.docked ∧ (claimSession new l s).pen.hold = s.pen.hold ∧
    (claimSession new l s).pen.requested = s.pen.requested := by
  have h : ∀ n f c (u : State), (goSession n f c u).pen.docked = u.pen.docked ∧ (goSession n f c u).pen.hold = u.pen.hold ∧
      (goSession n f c u).pen.requested = u.pen.requested := by
    intro n f c u; cases c <;> simp [goSession, claimStep]
  unfold claimSession; dsimp only; split
  · simp only [h, and_self]
  · exact h _ _ _ _

/-- A hold in force takes every entry to DETECT or SOFT-START to HELD (R158). -/
theorem goHeld (f : Option FaultCause) (s : State) :
    (goSession .held f .release s).pen.session = .held ∧ (goSession .held f .release s).pen.fault = f ∧
    (goSession .held f .release s).guard.penGrant = none ∧ (goSession .held f .release s).guard.claimed = none ∧
    (goSession .held f .release s).guard.coilOn = false ∧ (goSession .held f .release s).pen.hold = s.pen.hold := by
  refine ⟨by simp [goSession], by simp [goSession], ?_, ?_, ?_, by simp [goSession]⟩
  · rw [goSession_grant]; simp [claimStep]
  · rw [goSession_claimed]; simp [claimStep]
  · rw [goSession_coil]; simp [drawing]

end Sys2Proof.Machine
end

