-- ==== Sys2Proof/Laws/Alarm.lean ====
section
/-! SUPPORT. What ALARM-CLEAR clears, and what the protections of the supply guard do: the latches of the rail and of the coil, the LIMIT
step-down. -/
namespace Sys2Proof.Machine
set_option linter.all false

/-- The highest level, at or below a limit, that fits beside a base grant: it is below the limit, it fits, and none above it does (R125).
-/
theorem bestFit_spec (b g : Nat) (l : PenLevel) : rank (bestFit b g l) ≤ rank (some l) ∧
    (grantMw (bestFit b g l) = 0 ∨ g + grantMw (bestFit b g l) ≤ b) ∧ (∀ m, rank (some m) ≤ rank (some l) → g + levelMw m ≤ b →
    rank (some m) ≤ rank (bestFit b g l)) := by
  have h : ∀ m, levelMw m + g ≤ b ∨ ¬ levelMw m + g ≤ b := fun m => em _
  rcases h .fast with h1 | h1 <;> rcases h .steady with h2 | h2 <;> rcases h .trickle with h3 | h3 <;> cases l <;>
    simp [bestFit, List.find?, rank, h1, h2, h3, grantMw] <;>
    (simp only [levelMw] at h1 h2 h3; first | omega | (refine ⟨by simp [levelMw]; omega, ?_⟩; intro m; cases m <;> simp [levelMw] <;> omega) | (intro m; cases m <;> simp [levelMw] <;> omega))

/-- A cause is named by its bit. -/
theorem named_testBit (m i : Nat) : named m i = m.testBit i := by
  rw [named, Nat.testBit_eq_decide_div_mod_eq]

/-- A cause's record after the clear (R142): if it is cleared, its latch and detected state go and its filter starts again with raw present. -/
def clearedAlarm (clears : Bool) (c : OutCause) (a : Alarm) : Alarm :=
  if clears then { a with latch := false, detected := false, filter := if a.raw then some (filterLength c a) else a.filter } else a

/-- One cause of a set: its record alone changes, if it is named and has something to clear (R142). -/
theorem clearCause_eq (m i : Nat) (c : OutCause) (s : State) : (if named m i then clearCause c s else s) =
    changeAlarm (causeOf c) (clearedAlarm (m.testBit i && clearable c s) c) s := by
  rw [named_testBit]
  cases m.testBit i <;> cases h : clearable c s
  case true.true => simp only [clearCause, h, if_true, Bool.and_true]; rfl
  all_goals cases c <;> simp [clearCause, h, clearedAlarm, changeAlarm, causeOf, PerCause.set, PerCause.get]

/-- What one cause has to clear is its own. -/
theorem clearable_other (c : OutCause) (d : Cause) (f) (s : State) (h : d ≠ causeOf c) : clearable c (changeAlarm d f s) = clearable c s := by
  cases c <;> cases d <;> first | exact absurd rfl h | rfl

/-- The alarms after the named causes are cleared (R142). -/
def clearedAlarms (m : Nat) (s : State) : PerCause Alarm :=
  let a := s.guard.alarms
  ⟨clearedAlarm (m.testBit 0 && clearable .railOc s) .railOc a.railOc, clearedAlarm (m.testBit 1 && clearable .railUv s) .railUv a.railUv,
   clearedAlarm (m.testBit 2 && clearable .coilOc s) .coilOc a.coilOc, clearedAlarm (m.testBit 3 && clearable .coilUv s) .coilUv a.coilUv,
   a.dieOt⟩

/-- Clearing the named causes changes the alarms alone. -/
theorem clearNamed_alarms (m : Nat) (s : State) : clearNamed m s = { s with guard := { s.guard with alarms := clearedAlarms m s } } := by
  unfold clearNamed
  simp only [clearCause_eq]
  rw [clearable_other .coilUv _ _ _ (show causeOf .coilOc ≠ _ by decide), clearable_other .coilUv _ _ _ (show causeOf .railUv ≠ _ by decide),
    clearable_other .coilUv _ _ _ (show causeOf .railOc ≠ _ by decide), clearable_other .coilOc _ _ _ (show causeOf .railUv ≠ _ by decide),
    clearable_other .coilOc _ _ _ (show causeOf .railOc ≠ _ by decide), clearable_other .railUv _ _ _ (show causeOf .railOc ≠ _ by decide)]
  simp only [changeAlarm, causeOf, PerCause.set, PerCause.get, clearedAlarms]

/-- A cause with nothing to clear has no latch and is not detected. -/
theorem clearable_none (c : OutCause) (s : State) : clearable c s = false → (s.guard.alarms.get (causeOf c)).latch = false ∧
    (s.guard.alarms.get (causeOf c)).detected = false := by
      intro hc; simp [clearable, alarmOf] at hc; exact hc.1

/-- A cause named has neither latch nor detected state afterwards. -/
theorem clearedAlarms_named (m : Nat) (s : State) (c : OutCause) (h : m.testBit (match c with | .railOc => 0 | .railUv => 1 | .coilOc => 2 | .coilUv => 3) = true) :
    ((clearedAlarms m s).get (causeOf c)).latch = false ∧ ((clearedAlarms m s).get (causeOf c)).detected = false := by
  have := clearable_none c s
  cases c <;> simp only at h <;> cases hcl : clearable _ s <;> rw [hcl] at this <;> simp_all [clearedAlarms, clearedAlarm, PerCause.get, causeOf]

/-- A cause not named is left as it was. -/
theorem clearedAlarms_other (m : Nat) (s : State) (c : OutCause) (h : m.testBit (match c with | .railOc => 0 | .railUv => 1 | .coilOc => 2 | .coilUv => 3) = false) :
    (clearedAlarms m s).get (causeOf c) = s.guard.alarms.get (causeOf c) := by
  cases c <;> simp only at h <;> simp [clearedAlarms, clearedAlarm, PerCause.get, causeOf, h]

/-- A latch due is a latch set. -/
theorem latchIfDue_eq (b : Guard) (s0 : State) (c : OutCause) (s : State) : latchIfDue b s0 c s = changeAlarm (causeOf c) (fun a => { a with latch := a.latch || (newlyProtected b c s0 && decide (protectionFor c s0 = .stop)) }) s := by
  unfold latchIfDue; split <;> rename_i h
  · simp [h]
  · have : (newlyProtected b c s0 && decide (protectionFor c s0 = .stop)) = false := by
      rw [← Bool.not_eq_true]; simpa using h
    rw [this]; cases c <;> simp [changeAlarm, causeOf, PerCause.set, PerCause.get]

/-- The alarms with the latch of each newly protected cause set (R139). -/
def latchedAlarms (b : Guard) (s : State) : PerCause Alarm :=
  let f (c : OutCause) (a : Alarm) : Alarm := { a with latch := a.latch || (newlyProtected b c s && decide (protectionFor c s = .stop)) }
  ⟨f .railOc s.guard.alarms.railOc, f .railUv s.guard.alarms.railUv, f .coilOc s.guard.alarms.coilOc, f .coilUv s.guard.alarms.coilUv, s.guard.alarms.dieOt⟩

/-- The latches due change the alarms alone. -/
theorem latchIfDue_all (b : Guard) (s : State) : latchIfDue b s .coilUv (latchIfDue b s .coilOc (latchIfDue b s .railUv (latchIfDue b s .railOc s))) = { s with guard := { s.guard with alarms := latchedAlarms b s } } := by
  simp only [latchIfDue_eq, causeOf, changeAlarm, PerCause.set, PerCause.get, latchedAlarms]

/-- What the guard tells the pen makes of no session NO-PEN, FOREIGN or FAULT. -/
theorem penTold_session (b : Option PenLevel) (u : State) : (u.pen.session ∉ [PenState.noPen, .foreign] →
    (penTold b u).pen.session ∉ [PenState.noPen, .foreign]) ∧
   (u.pen.session ≠ .fault → (penTold b u).pen.session ≠ .fault) := by
  have gs : ∀ n f c u, (goSession n f c u).pen.session = n := by intro n f c u; simp [goSession]
  unfold penTold resumeSession enterSoftStart enterDetect claimSession; dsimp only
  (repeat' split) <;> simp_all

/-- A base release makes of no session NO-PEN, FOREIGN or FAULT. -/
theorem releaseBase_session (u : State) : (u.pen.session ∉ [PenState.noPen, .foreign] →
    (releaseBase u).pen.session ∉ [PenState.noPen, .foreign]) ∧
   (u.pen.session ≠ .fault → (releaseBase u).pen.session ≠ .fault) := by
  have := penTold_session u.guard.penGrant (switchOutputs (postBudget u.guard .baseRelease { u with guard := u.guard.baseRelease }))
  simp only [releaseBase]
  simpa using this

/-- Entry to FAULTED: the rail off, the base grant 0, the latches and the cap kept (R62, R127). -/
theorem enterFaulted_effect (u : State) : (enterFaulted u).link.state = .faulted ∧ (enterFaulted u).guard.baseGrant = 0 ∧
    (enterFaulted u).guard.railOn = false ∧ KeepsAlarms (enterFaulted u) u ∧
    (u.pen.session ∉ [PenState.noPen, .foreign] → (enterFaulted u).pen.session ∉ [PenState.noPen, .foreign]) ∧
   (u.pen.session ≠ .fault → (enterFaulted u).pen.session ≠ .fault) := by
  have h := fun v => releaseBase_guard v
  have hr := fun v => releaseBase_rail v
  have hs := releaseBase_session (setLinkState .faulted (flushDown (linkEnding (stopLinkTimers (endDiagnosis .faulted u)))))
  simp only [KeepsMarks] at h
  have ed : (endDiagnosis .faulted u).guard = u.guard := by unfold endDiagnosis; split <;> rfl
  refine ⟨by simp [enterFaulted], by simp [enterFaulted, h], by simp [enterFaulted, hr], by simp [enterFaulted, h, KeepsAlarms, KeepsMarks], ?_, ?_⟩
  · simpa [enterFaulted] using hs.1
  · simpa [enterFaulted] using hs.2

/-- A latch of the rail: the rail is off, the base grant 0 and the link FAULTED (R137). -/
theorem setLatch_rail (c : OutCause) (u : State) (hc : c = .railOc ∨ c = .railUv) : let v := setLatch c u
    v.link.state = .faulted ∧ v.guard.baseGrant = 0 ∧ v.guard.railOn = false ∧ v.guard.cap = u.guard.cap ∧
    (v.guard.alarms.get (causeOf c)).latch = true ∧ (∀ d, (u.guard.alarms.get d).latch = true → (v.guard.alarms.get d).latch = true) ∧
    v.guard.alarms.coilOc.latch = u.guard.alarms.coilOc.latch ∧ v.guard.alarms.coilUv.latch = u.guard.alarms.coilUv.latch ∧
    (u.pen.session ∉ [PenState.noPen, .foreign] → v.pen.session ∉ [PenState.noPen, .foreign]) ∧
   (u.pen.session ≠ .fault → v.pen.session ≠ .fault) := by
  intro v
  let w := switchOutputs (changeAlarm (causeOf c) (fun a => { a with latch := true, detected := true }) u)
  have e : v = enterFaulted w := by rcases hc with rfl | rfl <;> rfl
  have f := enterFaulted_effect w
  have k : KeepsAlarms w (changeAlarm (causeOf c) (fun a => { a with latch := true, detected := true }) u) := by simp [w, KeepsAlarms, KeepsMarks]
  have pw : w.pen.session = u.pen.session := by simp [w]
  rw [e]
  simp only [KeepsAlarms, KeepsMarks] at f k
  obtain ⟨f1, f2, f3, f4, f5, f6⟩ := f
  rw [pw] at f5 f6
  refine ⟨f1, f2, f3, by simp [f4, k, changeAlarm], ?_, ?_, ?_, ?_, f5, f6⟩
  · rcases hc with rfl | rfl <;> simp [causeOf, PerCause.get, f4, k, changeAlarm, PerCause.set]
  · intro d hd; rcases hc with rfl | rfl <;> cases d <;> simp [causeOf, PerCause.get, f4, k, changeAlarm, PerCause.set] at hd ⊢ <;> exact hd
  · rcases hc with rfl | rfl <;> simp [f4, k, changeAlarm, PerCause.set, causeOf]
  · rcases hc with rfl | rfl <;> simp [f4, k, changeAlarm, PerCause.set, causeOf]

/-- The charger told of a latch of the coil: the session is in FAULT and holds no claim (R157). -/
theorem coilLatchTold_effect (u : State) (hl : coilLatched u = true) (ho : u.guard.coilOn = false) (hr : railLatched u = true →
    u.guard.railOn = false) : let v := coilLatchTold u
    KeepsSettings v.guard u.guard ∧ v.guard.coilOn = false ∧ (railLatched u = true → v.guard.railOn = false) ∧
    (u.pen.session ∉ [PenState.noPen, .foreign] → v.pen.session = .fault ∧ v.pen.fault = some .coilLatch) ∧
    (u.pen.session ∉ [PenState.noPen, .foreign, .fault] → v.guard.claimed = none ∧ v.guard.penGrant = none) := by
  intro v
  refine ⟨by simp [v, KeepsSettings, KeepsMarks], ?_, ?_, ?_, ?_⟩
  · simp only [v, coilLatchTold, enterFault]; split <;> first | exact ho | (rw [goSession_coil]; simp [hl])
  · intro h; simp only [v, coilLatchTold, enterFault]; split <;> first | exact hr h | (rw [goSession_rail]; simp [railConditions, h])
  · intro h; simp only [v, coilLatchTold, enterFault]; split <;> simp_all [goSession]
  · intro h; simp only [v, coilLatchTold, enterFault]; split <;> first | simp_all; done | (rw [goSession_claimed, goSession_grant]; simp [claimStep])

/-- A latch of the coil: the coil is off and the session in FAULT (R137, R157). -/
theorem setLatch_coil (c : OutCause) (u : State) (hc : c = .coilOc ∨ c = .coilUv) : let v := setLatch c u
    v.link = u.link ∧ v.guard.baseGrant = u.guard.baseGrant ∧ v.guard.coilOn = false ∧ (railLatched u = true → v.guard.railOn = false) ∧
        v.guard.cap = u.guard.cap ∧
    (v.guard.alarms.get (causeOf c)).latch = true ∧ (∀ d, (u.guard.alarms.get d).latch = true → (v.guard.alarms.get d).latch = true) ∧
    (u.pen.session ∉ [PenState.noPen, .foreign] → v.pen.session = .fault ∧ v.pen.fault = some .coilLatch) ∧
    (u.pen.session ∉ [PenState.noPen, .foreign, .fault] → v.guard.claimed = none ∧ v.guard.penGrant = none) := by
  intro v
  let w0 := changeAlarm (causeOf c) (fun a => { a with latch := true, detected := true }) u
  let w := switchOutputs w0
  have e : v = coilLatchTold w := by rcases hc with rfl | rfl <;> rfl
  have k : KeepsSettings w.guard w0.guard := by simp [w, KeepsSettings, KeepsMarks]
  have cl0 : coilLatched w0 = true := by rcases hc with rfl | rfl <;> simp [w0, coilLatched, changeAlarm, PerCause.set, causeOf]
  have rl0 : railLatched w0 = railLatched u := by rcases hc with rfl | rfl <;> simp [w0, railLatched, changeAlarm, PerCause.set, causeOf]
  have cl : coilLatched w = true := by simp only [KeepsSettings, KeepsMarks] at k; rw [← cl0]; simp [coilLatched, k]
  have rl : railLatched w = railLatched u := by simp only [KeepsSettings, KeepsMarks] at k; rw [← rl0]; simp [railLatched, k]
  have co : w.guard.coilOn = false := by simp [w, coilConditions, cl0]
  have ro : railLatched w = true → w.guard.railOn = false := by intro h; rw [rl, ← rl0] at h; simp [w, railConditions, h]
  have f := coilLatchTold_effect w cl co ro
  have pw : w.pen.session = u.pen.session := by simp [w, w0]
  have pl : w.link = u.link := by simp [w, w0]
  dsimp only at f
  rw [← e, pw, rl] at f
  simp only [KeepsSettings, KeepsMarks] at f k
  obtain ⟨f1, f2, f3, f4, f5⟩ := f
  refine ⟨by rw [e]; simp [pl], by simp [f1, k, w0, changeAlarm], f2, f3, by simp [f1, k, w0, changeAlarm], ?_, ?_, f4, f5⟩
  · rcases hc with rfl | rfl <;> simp [causeOf, PerCause.get, f1, k, w0, changeAlarm, PerCause.set]
  · intro d hd; rcases hc with rfl | rfl <;> cases d <;> simp [causeOf, PerCause.get, f1, k, w0, changeAlarm, PerCause.set] at hd ⊢ <;> exact hd

set_option maxHeartbeats 1000000 in
/-- A LIMIT step-down: the cap set, COIL-OC no longer detected, the pen at the cap where that fits (R138). -/
theorem setCap_effect (cap : PenLevel) (u : State) : let v := setCap cap u
    v.link = u.link ∧ v.guard.baseGrant = u.guard.baseGrant ∧ (railLatched u = true → v.guard.railOn = false) ∧ v.guard.cap = some cap ∧
    v.guard.alarms.coilOc.detected = false ∧ (∀ d, (v.guard.alarms.get d).latch = (u.guard.alarms.get d).latch) ∧
    (∀ l, u.guard.claimed = some l → minLevel l cap = cap → u.pen.session ≠ .paused → levelMw cap + u.guard.baseGrant ≤ u.guard.budget →
      v.guard.penGrant = some cap ∧ v.pen.session = u.pen.session) := by
  intro v
  let g1 : Guard := { u.guard with cap := some cap }
  let u1 : State := { u with guard := { g1 with penGrant := g1.target.bind (bestFit g1.budget g1.baseGrant) } }
  let u2 := postBudget u.guard .limit u1
  let u3 := changeAlarm .coilOc (fun a => { a with detected := false, filter := if a.raw then some (filterLength .coilOc a) else none }) u2
  let u4 := switchOutputs u3
  have e : v = penTold u.guard.penGrant u4 := rfl
  have l4 : u4.link = u.link ∧ u4.pen.session = u.pen.session := by simp [u4, u3, u2, u1]
  have g2 : u2.guard = u1.guard := by simp [u2]
  have k : KeepsSettings v.guard u3.guard := by rw [e]; simp [u4, KeepsSettings, KeepsMarks]
  have rl : railLatched u3 = railLatched u := by simp [u3, railLatched, changeAlarm, PerCause.set, g2, u1, g1]
  have ro : railLatched u = true → u4.guard.railOn = false := by
    intro h; rw [← rl] at h; simp [u4, railConditions, h]
  have rl4 : railLatched u4 = railLatched u := by
    have : KeepsSettings u4.guard u3.guard := by simp [u4, KeepsSettings, KeepsMarks]
    simp only [KeepsSettings, KeepsMarks] at this
    rw [← rl]; simp [railLatched, this]
  simp only [KeepsSettings, KeepsMarks] at k
  refine ⟨by rw [e]; simp [l4], by simp [k, u3, changeAlarm, g2, u1, g1], ?_, by simp [k, u3, changeAlarm, g2, u1, g1], ?_, ?_, ?_⟩
  · intro h; rw [e]
    rcases penTold_rail u.guard.penGrant u4 with h' | h' <;> rw [h']
    · exact ro h
    · simp [railConditions, rl4, h]
  · rw [e]
    exact penTold_quiet _ _ .coilOc (switchOutputs_quiet _ .coilOc (by simp [u3, changeAlarm, PerCause.set, PerCause.get]))
  · intro d; cases d <;> simp [PerCause.get, k, u3, changeAlarm, PerCause.set, g2, u1, g1]
  · intro l hc hm hs hf
    have t : g1.target = some cap := by simp [g1, Guard.target, hc, hm]
    have pg : u4.guard.penGrant = some cap := by
      have : u4.guard.penGrant = u1.guard.penGrant := by simp [u4, u3, changeAlarm, g2]
      rw [this]; simp only [u1, t]; exact bestFit_self _ _ _ hf
    have : penTold u.guard.penGrant u4 = u4 := by
      unfold penTold; split
      · rfl
      · split
        · rw [if_neg (by simp [pg])]
        · rw [if_neg (by simp [pg])]
        · rw [if_neg (by simp [pg])]
        · rw [if_neg (by simp [pg])]
        · rename_i h; rw [l4.2] at h; exact absurd h hs
        · rfl
    rw [e, this]; exact ⟨pg, l4.2⟩

/-- A LIMIT step-down makes of no session NO-PEN, FOREIGN or FAULT. -/
theorem setCap_session (cap : PenLevel) (u : State) : (u.pen.session ∉ [PenState.noPen, .foreign] →
    (setCap cap u).pen.session ∉ [PenState.noPen, .foreign]) ∧ (u.pen.session ≠ .fault → (setCap cap u).pen.session ≠ .fault) := by
  unfold setCap
  dsimp only
  refine ⟨fun h => (penTold_session _ _).1 ?_, fun h => (penTold_session _ _).2 ?_⟩ <;> simpa [changeAlarm] using h

/-- A latch of COIL-UV leaves COIL-OC without its latch and undetected, if it was so (R137). -/
theorem setLatch_uv (u : State) : (setLatch .coilUv u).guard.alarms.coilOc.latch = u.guard.alarms.coilOc.latch ∧
    (u.guard.alarms.coilOc.detected = false → (setLatch .coilUv u).guard.alarms.coilOc.detected = false) := by
  have told : ∀ w : State, KeepsSettings (coilLatchTold w).guard w.guard ∧ StaysQuiet (coilLatchTold w) w := by
    intro w
    refine ⟨by simp [KeepsSettings, KeepsMarks], ?_⟩
    unfold coilLatchTold; split
    · exact staysQuiet_of rfl
    · exact staysQuiet_of rfl
    · exact staysQuiet_of rfl
    · exact goSession_quiet _ _ _ _
  let w := changeAlarm .coilUv (fun a => { a with latch := true, detected := true }) u
  have e : setLatch .coilUv u = coilLatchTold (switchOutputs w) := rfl
  have t := told (switchOutputs w)
  have k : KeepsSettings (switchOutputs w).guard w.guard := by simp [KeepsSettings, KeepsMarks]
  simp only [KeepsSettings, KeepsMarks] at t k
  rw [e]
  refine ⟨by simp [t, k, w, changeAlarm, PerCause.set], fun h => t.2 .coilOc (switchOutputs_quiet w .coilOc ?_)⟩
  simpa [w, changeAlarm, PerCause.set, PerCause.get] using h

/-- The rail's part of the protections applied at once: the coil's latches stay, and no session becomes NO-PEN, FOREIGN or FAULT (R139). -/
theorem protectRail_coil (b : Guard) (s u : State) :
    let v := if newlyProtected b .railOc s then protectIfDue b s .railOc u else protectIfDue b s .railUv u
    v.guard.alarms.coilOc.latch = u.guard.alarms.coilOc.latch ∧ v.guard.alarms.coilUv.latch = u.guard.alarms.coilUv.latch ∧
    (u.pen.session ∉ [PenState.noPen, .foreign] → v.pen.session ∉ [PenState.noPen, .foreign]) ∧
    (u.pen.session ≠ .fault → v.pen.session ≠ .fault) := by
  have one : ∀ c, c = OutCause.railOc ∨ c = .railUv → let v := protectIfDue b s c u
      v.guard.alarms.coilOc.latch = u.guard.alarms.coilOc.latch ∧ v.guard.alarms.coilUv.latch = u.guard.alarms.coilUv.latch ∧
      (u.pen.session ∉ [PenState.noPen, .foreign] → v.pen.session ∉ [PenState.noPen, .foreign]) ∧
      (u.pen.session ≠ .fault → v.pen.session ≠ .fault) := by
    intro c hc
    have r := setLatch_rail c u hc
    simp only [protectIfDue]
    split
    · have : applyProtection c (protectionFor c s) u = setLatch c u ∨ applyProtection c (protectionFor c s) u = u := by
        rcases hc with rfl | rfl <;> simp only [protectionFor] <;> split <;> simp [applyProtection]
      rcases this with h | h <;> rw [h]
      · exact ⟨r.2.2.2.2.2.2.1, r.2.2.2.2.2.2.2.1, r.2.2.2.2.2.2.2.2.1, r.2.2.2.2.2.2.2.2.2⟩
      · exact ⟨rfl, rfl, id, id⟩
    · exact ⟨rfl, rfl, id, id⟩
  intro v
  by_cases h : newlyProtected b .railOc s = true
  · have e : v = protectIfDue b s .railOc u := if_pos h
    rw [e]; exact one _ (.inl rfl)
  · have e : v = protectIfDue b s .railUv u := if_neg h
    rw [e]; exact one _ (.inr rfl)

/-- COIL-UV is protected by its latch or not at all, COIL-OC by its latch, a cap or not at all. -/
theorem newlyProtected_uv (b : Guard) (s : State) (h : newlyProtected b .coilUv s = true) : protectionFor .coilUv s = .stop := by
  simp [newlyProtected, causeOf] at h
  simp [protectionFor, causeOf, h]

/-- Protection enabled on the coil's detected causes (R139): a LIMIT of COIL-OC sets the cap and ends the detection, beside a latch of COIL-UV
as well; a STOP of either latches, the coil is off and the session in FAULT. -/
theorem protectNow_coil (b : Guard) (s : State) : let v := protectNow b s
    (∀ cap, newlyProtected b .coilOc s = true → protectionFor .coilOc s = .limit cap →
      v.guard.cap = some cap ∧ v.guard.alarms.coilOc.latch = false ∧ v.guard.alarms.coilOc.detected = false) ∧
    (newlyProtected b .coilUv s = true ∨ (newlyProtected b .coilOc s = true ∧ protectionFor .coilOc s = .stop) →
      v.guard.coilOn = false ∧ (newlyProtected b .coilUv s = true → v.guard.alarms.coilUv.latch = true) ∧
      (newlyProtected b .coilOc s = true → protectionFor .coilOc s = .stop → v.guard.alarms.coilOc.latch = true) ∧
      (s.pen.session ∉ [PenState.noPen, .foreign] → v.pen.session = .fault ∧ v.pen.fault = some .coilLatch) ∧
      (s.pen.session ∉ [PenState.noPen, .foreign, .fault] → v.guard.claimed = none ∧ v.guard.penGrant = none)) := by
  intro v
  let s1 : State := { s with guard := { s.guard with alarms := latchedAlarms b s } }
  let s2 := if newlyProtected b .railOc s then protectIfDue b s .railOc s1 else protectIfDue b s .railUv s1
  let s3 := if newlyProtected b .coilUv s = true ∧ protectionFor .coilOc s = .stop then s2 else protectIfDue b s .coilOc s2
  have e : v = protectIfDue b s .coilUv s3 := by
    show protectNow b s = _
    unfold protectNow; dsimp only; rw [latchIfDue_all]
  have r := protectRail_coil b s s1
  have r2 : s2.guard.alarms.coilOc.latch = s1.guard.alarms.coilOc.latch ∧ s2.guard.alarms.coilUv.latch = s1.guard.alarms.coilUv.latch ∧
    (s.pen.session ∉ [PenState.noPen, .foreign] → s2.pen.session ∉ [PenState.noPen, .foreign]) ∧
    (s.pen.session ≠ .fault → s2.pen.session ≠ .fault) := r
  have sess : ∀ u : State, (s.pen.session ∉ [PenState.noPen, .foreign] → u.pen.session ∉ [PenState.noPen, .foreign]) →
      (s.pen.session ≠ .fault → u.pen.session ≠ .fault) → s.pen.session ∉ [PenState.noPen, .foreign, .fault] →
      u.pen.session ∉ [PenState.noPen, .foreign, .fault] := by
    intro u h1 h2 h; simp_all
  constructor
  · intro cap hn hp
    have e3 : s3 = setCap cap s2 := by simp [s3, protectIfDue, hn, hp, applyProtection]
    have c := setCap_effect cap s2
    have l : s.guard.alarms.coilOc.latch = false := by simp [newlyProtected, alarmOf, causeOf, PerCause.get] at hn; exact hn.2
    have l1 : s1.guard.alarms.coilOc.latch = false := by simp [s1, latchedAlarms, hp, l]
    have l3 : s3.guard.alarms.coilOc.latch = false := by
      rw [e3]; have := c.2.2.2.2.2.1 .coilOc; simp only [PerCause.get] at this; rw [this, r2.1, l1]
    have d3 : s3.guard.alarms.coilOc.detected = false := by rw [e3]; exact c.2.2.2.2.1
    have p3 : s3.guard.cap = some cap := by rw [e3]; exact c.2.2.2.1
    rw [e]; unfold protectIfDue; split
    · rename_i hu
      rw [newlyProtected_uv b s hu]
      have u := setLatch_uv s3
      have k := setLatch_coil .coilUv s3 (.inr rfl)
      exact ⟨k.2.2.2.2.1.trans p3, u.1.trans l3, u.2 d3⟩
    · exact ⟨p3, l3, d3⟩
  · intro h
    by_cases hu : newlyProtected b .coilUv s = true
    · have s3s : (s.pen.session ∉ [PenState.noPen, .foreign] → s3.pen.session ∉ [PenState.noPen, .foreign]) ∧
          (s.pen.session ≠ .fault → s3.pen.session ≠ .fault) ∧
          (newlyProtected b .coilOc s = true → protectionFor .coilOc s = .stop → s3.guard.alarms.coilOc.latch = true) := by
        by_cases hs : protectionFor .coilOc s = .stop
        · have e3 : s3 = s2 := if_pos ⟨hu, hs⟩
          rw [e3]
          exact ⟨r2.2.2.1, r2.2.2.2, fun hn _ => by rw [r2.1]; simp [s1, latchedAlarms, hn, hs]⟩
        · have e3 : s3 = protectIfDue b s .coilOc s2 := if_neg (fun k => hs k.2)
          rw [e3]; unfold protectIfDue
          split
          · cases hp : protectionFor .coilOc s with
            | stop => exact absurd hp hs
            | limit cap =>
              have k := setCap_session cap s2
              exact ⟨fun h => k.1 (r2.2.2.1 h), fun h => k.2 (r2.2.2.2 h), fun _ h => by simp at h⟩
            | off => exact ⟨r2.2.2.1, r2.2.2.2, fun _ h => by simp at h⟩
            | none => exact ⟨r2.2.2.1, r2.2.2.2, fun _ h => by simp at h⟩
          · exact ⟨r2.2.2.1, r2.2.2.2, fun _ h => absurd h hs⟩
      have ev : v = setLatch .coilUv s3 := by
        rw [e, protectIfDue, if_pos hu, newlyProtected_uv b s hu]; rfl
      have k := setLatch_coil .coilUv s3 (.inr rfl)
      rw [ev]
      exact ⟨k.2.2.1, fun _ => k.2.2.2.2.2.1, fun hn hs => (setLatch_uv s3).1.trans (s3s.2.2 hn hs), fun h => k.2.2.2.2.2.2.2.1 (s3s.1 h),
        fun h => k.2.2.2.2.2.2.2.2 (sess s3 s3s.1 s3s.2.1 h)⟩
    · have ⟨hn, hs⟩ := h.resolve_left hu
      have e3 : s3 = setLatch .coilOc s2 := by
        have : s3 = protectIfDue b s .coilOc s2 := if_neg (fun k => hu k.1)
        rw [this, protectIfDue, if_pos hn, hs]; rfl
      have ev : v = s3 := by rw [e, protectIfDue, if_neg hu]
      have k := setLatch_coil .coilOc s2 (.inl rfl)
      rw [ev, e3]
      exact ⟨k.2.2.1, fun h => absurd h hu, fun _ _ => k.2.2.2.2.2.1, fun h => k.2.2.2.2.2.2.2.1 (r2.2.2.1 h),
        fun h => k.2.2.2.2.2.2.2.2 (sess s2 r2.2.2.1 r2.2.2.2 h)⟩

end Sys2Proof.Machine
end

