-- ==== Sys2Proof/Laws/Notices.lean ====
section
/-! SUPPORT. Which notices the operations on the guard, the charger and the link leave pending as they were: an operation that posts only
notices of other kinds keeps the pending notice of a kind, and the enables. -/
namespace Sys2Proof.Machine
set_option linter.all false

/-- The pending notice of a kind and the enables are kept. -/
def KeepsNotice (k : NoticeKind) (t s : State) : Prop :=
  t.mgmt.notices.get k = s.mgmt.notices.get k ∧ t.mgmt.enables = s.mgmt.enables

theorem keepsNotice_of {k : NoticeKind} {t s : State} (h : t.mgmt = s.mgmt) : KeepsNotice k t s := by simp [KeepsNotice, h]

theorem keepsNotice_trans {k : NoticeKind} {a b c : State} (h : KeepsNotice k a b) (g : KeepsNotice k b c) : KeepsNotice k a c :=
  ⟨h.1.trans g.1, h.2.trans g.2⟩

/-- A notice posted keeps the pending notices of the other kinds (R199). -/
theorem post_notice (k : NoticeKind) (n : Notice) (s : State) (h : k ≠ n.kind) : KeepsNotice k (post n s) s := by
  have hs : ∀ (m : PerKind (Option Pending)) j v, k ≠ j → (m.set j v).get k = m.get k := by
    intro m j v hj; cases k <;> cases j <;> first | exact absurd rfl hj | rfl
  unfold post; split
  · exact ⟨hs _ _ _ h, rfl⟩
  · exact ⟨rfl, rfl⟩

theorem postBudget_notice (k : NoticeKind) (before : Guard) (c : BudgetCause) (s : State) (h : k ≠ .budget) :
    KeepsNotice k (postBudget before c s) s := by
  unfold postBudget; split
  · exact keepsNotice_of rfl
  · exact post_notice _ _ _ (by simpa [Notice.kind] using h)

/-- The outputs' switching posts nothing. -/
theorem switchOutputs_notice (k : NoticeKind) (s : State) : KeepsNotice k (switchOutputs s) s := keepsNotice_of (by simp)

theorem removeHold_notice (k : NoticeKind) (r : Holdoff) (s : State) (h : k ≠ .sleep) : KeepsNotice k (removeHold r s) s := by
  unfold removeHold; dsimp only; (repeat' split)
  · exact keepsNotice_trans (post_notice _ _ _ (by simpa [Notice.kind] using h)) (keepsNotice_of rfl)
  · exact keepsNotice_of rfl
  · exact keepsNotice_of rfl

theorem setHold_notice (k : NoticeKind) (r : Holdoff) (b : Bool) (s : State) (h : k ≠ .sleep) : KeepsNotice k (setHold r b s) s := by
  unfold setHold; split
  · exact keepsNotice_of rfl
  · exact removeHold_notice _ _ _ h

/-- A claim step posts a BUDGET notice at most (R133). -/
theorem claimStep_notice (k : NoticeKind) (c : ClaimStep) (s : State) (h : c = .keep ∨ k ≠ .budget) : KeepsNotice k (claimStep c s) s := by
  cases c with
  | keep => exact keepsNotice_of rfl
  | claim l => exact keepsNotice_trans (postBudget_notice _ _ _ _ (by simpa using h)) (keepsNotice_of rfl)
  | release => exact keepsNotice_trans (postBudget_notice _ _ _ _ (by simpa using h)) (keepsNotice_of rfl)

/-- A change of session posts its CHARGE notice, a BUDGET notice where it claims or releases, and may end a grace (R147, R133, R173). -/
theorem goSession_notice (k : NoticeKind) (new : PenState) (f : Option FaultCause) (c : ClaimStep) (s : State)
    (h : k ≠ .charge ∧ k ≠ .sleep ∧ (c = .keep ∨ k ≠ .budget)) : KeepsNotice k (goSession new f c s) s := by
  unfold goSession; dsimp only
  refine keepsNotice_trans (post_notice _ _ _ (by simpa [Notice.kind] using h.1)) ?_
  refine keepsNotice_trans (b := claimStep c (setHold .chargeStarting (new == .softStart)
    (stopPenTimers { s with pen := { s.pen with session := new, fault := f } }))) (keepsNotice_of (by simp)) ?_
  exact keepsNotice_trans (claimStep_notice _ _ _ h.2.2) (keepsNotice_trans (setHold_notice _ _ _ _ h.2.1) (keepsNotice_of rfl))

theorem penTold_notice (k : NoticeKind) (before : Option PenLevel) (s : State) (h : k ≠ .charge ∧ k ≠ .sleep ∧ k ≠ .budget) :
    KeepsNotice k (penTold before s) s := by
  have g : ∀ n f c u, KeepsNotice k (goSession n f c u) u := fun n f c u => goSession_notice _ _ _ _ _ ⟨h.1, h.2.1, Or.inr h.2.2⟩
  have cl : ∀ n l u, KeepsNotice k (claimSession n l u) u := by
    intro n l u; unfold claimSession; dsimp only; split
    · exact keepsNotice_trans (g _ _ _ _) (g _ _ _ _)
    · exact g _ _ _ _
  unfold penTold resumeSession enterSoftStart enterDetect
  (repeat' split) <;> first | exact g _ _ _ _ | exact cl _ _ _ | exact keepsNotice_of rfl

theorem releaseBase_notice (k : NoticeKind) (s : State) (h : k ≠ .charge ∧ k ≠ .sleep ∧ k ≠ .budget) :
    KeepsNotice k (releaseBase s) s := by
  unfold releaseBase
  exact keepsNotice_trans (penTold_notice _ _ _ h) (keepsNotice_trans (switchOutputs_notice _ _)
    (keepsNotice_trans (postBudget_notice _ _ _ _ h.2.2) (keepsNotice_of rfl)))

/-- A change of link state posts nothing but the end of a grace (R42, R173). -/
theorem setLinkState_notice (k : NoticeKind) (new : LinkState) (s : State) (h : k ≠ .sleep) : KeepsNotice k (setLinkState new s) s := by
  have hold : ∀ u : State, u.mgmt = s.mgmt → KeepsNotice k (setHold .baseIdentifying (identifyingHeld new) u) s :=
    fun u hu => keepsNotice_trans (setHold_notice _ _ _ _ h) (keepsNotice_of hu)
  have inputs : ∀ i (u : State), KeepsNotice k u s → KeepsNotice k (setInputs i u) s := by
    intro i u hu; exact keepsNotice_trans (keepsNotice_of (by simp)) hu
  exact inputs _ _ (hold _ rfl)

/-- The kinds that no entry to a link state of chapter 3 posts. -/
def aside (k : NoticeKind) : Prop := k ≠ .charge ∧ k ≠ .sleep ∧ k ≠ .budget ∧ k ≠ .attach

theorem linkEnding_notice (k : NoticeKind) (s : State) (h : k ≠ .sleep) : KeepsNotice k (linkEnding s) s := by
  unfold linkEnding issuerHold
  exact keepsNotice_trans (setHold_notice _ _ _ _ h) (keepsNotice_of rfl)

theorem postEvent_notice (k : NoticeKind) (e : PolicyEvent) (s : State) : KeepsNotice k (postEvent e s) s := by
  unfold postEvent; exact ⟨rfl, rfl⟩

/-- What an entry to UNPOWERED or FAULTED does before the release of the base's claim keeps every notice but SLEEP (R42, R66). -/
theorem enteredDown_notice (k : NoticeKind) (d : DiagEnd) (new : LinkState) (s : State) (h : k ≠ .sleep) :
    KeepsNotice k (setLinkState new (flushDown (linkEnding (stopLinkTimers (endDiagnosis d s))))) s := by
  have e : KeepsNotice k (stopLinkTimers (endDiagnosis d s)) s := keepsNotice_of (by unfold endDiagnosis; split <;> rfl)
  have l := linkEnding_notice k (stopLinkTimers (endDiagnosis d s)) h
  generalize linkEnding (stopLinkTimers (endDiagnosis d s)) = u at l ⊢
  have f : KeepsNotice k (flushDown u) u := keepsNotice_of (by simp [flushDown])
  have c := setLinkState_notice k new (flushDown u) h
  exact keepsNotice_trans c (keepsNotice_trans f (keepsNotice_trans l e))

theorem enterUnpowered_notice (k : NoticeKind) (d : Nat) (s : State) (h : aside k) : KeepsNotice k (enterUnpowered d s) s := by
  obtain ⟨h1, h2, h3, h4⟩ := h
  have e := enteredDown_notice k .unpowered .unpowered s h2
  unfold enterUnpowered; dsimp only
  generalize setLinkState .unpowered (flushDown (linkEnding (stopLinkTimers (endDiagnosis .unpowered s)))) = u at e ⊢
  have r := releaseBase_notice k u ⟨h1, h2, h3⟩
  generalize releaseBase u = v at r ⊢
  exact keepsNotice_trans (post_notice _ _ _ (by simpa [Notice.kind] using h4)) (keepsNotice_trans r e)

theorem enterFaulted_notice (k : NoticeKind) (s : State) (h : aside k) : KeepsNotice k (enterFaulted s) s := by
  obtain ⟨h1, h2, h3, h4⟩ := h
  have e := enteredDown_notice k .faulted .faulted s h2
  unfold enterFaulted; dsimp only
  generalize setLinkState .faulted (flushDown (linkEnding (stopLinkTimers (endDiagnosis .faulted s)))) = u at e ⊢
  have r := releaseBase_notice k u ⟨h1, h2, h3⟩
  generalize releaseBase u = v at r ⊢
  have p := post_notice k (.attach .faulted) v (by simpa [Notice.kind] using h4)
  generalize post (.attach .faulted) v = w at p ⊢
  exact keepsNotice_trans (postEvent_notice _ _ _) (keepsNotice_trans p (keepsNotice_trans r e))

theorem enterPowering_notice (k : NoticeKind) (b : Bool) (s : State) (h : aside k) : KeepsNotice k (enterPowering b s) s := by
  have ⟨h1, h2, h3, h4⟩ := h
  have c : ∀ n u, KeepsNotice k (claimBase b n u).1 u := by
    intro n u; unfold claimBase; dsimp only
    (repeat' split)
    · exact keepsNotice_trans (switchOutputs_notice _ _) (keepsNotice_of rfl)
    · exact keepsNotice_trans (penTold_notice _ _ _ ⟨h1, h2, h3⟩) (keepsNotice_trans (switchOutputs_notice _ _)
        (keepsNotice_trans (postBudget_notice _ _ _ _ h3) (keepsNotice_of rfl)))
    · exact keepsNotice_of rfl
  have l := setLinkState_notice k .powering s h2
  unfold enterPowering; dsimp only
  generalize setLinkState .powering s = u at l ⊢
  have g := c allowance u
  generalize claimBase b allowance u = v at g ⊢
  split
  · exact keepsNotice_trans (keepsNotice_of rfl) (keepsNotice_trans g l)
  · exact keepsNotice_trans (enterUnpowered_notice _ _ _ h) (keepsNotice_trans g l)

/-- An enabled notice is pending once posted, and stays so through what keeps its kind. -/
theorem posted_stays {n : Notice} {t s : State} (h : KeepsNotice n.kind t (post n s)) (e : s.mgmt.enables.get n.kind = true) :
    ∃ p, t.mgmt.notices.get n.kind = some p ∧ p.notice = n := by
  rw [h.1]; exact post_pending n s e

end Sys2Proof.Machine
end

