-- ==== Sys2Proof/Laws/Hinge.lean ====
section
/-! SUPPORT. The posture and orientation units: what an evaluation leaves (R103), the window chosen (R100), the stillness runs and the
gravity check (R96 to R98), the half angle and the quadrants (R113). -/
namespace Sys2Proof.Machine
set_option linter.all false

/-- What an evaluation that gives a posture and a window leaves. -/
theorem evaluate_gives (s : State) (new : Posture) (w : Option Nat) (h : evaluated s = (new, w)) :
    (evaluate s).posture = { s.posture with posture := new, window := w, previous := if new = s.posture.posture then s.posture.previous else some s.posture.posture } ∧
    (evaluate s).policy.events = s.policy.events ++ (if s.posture.posture = new then [] else [.postureChanged s.posture.posture new]) ∧
    (evaluate s).pins = s.pins ∧ (evaluate s).sleep = s.sleep ∧ (evaluate s).att = s.att := by
  unfold evaluate; simp only [h]
  split
  · rename_i k; subst k; simp
  · rename_i k; have k' : ¬ s.posture.posture = new := fun x => k x.symm
    simp [postEvent, k, k']

/-! ## Windows (R99, R100) -/

/-- A window takes a count: enabled, its condition holds, its widened range holds the count. -/
theorem windowTakes_iff (w : Window) (widen n : Nat) (o : Orientation) : windowTakes w widen n o = true ↔
    w.lower ≤ w.upper ∧ w.lower ≤ n + widen ∧ n ≤ w.upper + widen ∧
      (w.cond = .any ∨ w.cond = .upright ∧ o = .landscape ∨ w.cond = .inverted ∧ o = .landscapeInverted) := by
  have : condHolds w.cond o = true ↔ (w.cond = .any ∨ w.cond = .upright ∧ o = .landscape ∨ w.cond = .inverted ∧
      o = .landscapeInverted) := by
    cases w.cond <;> cases o <;> simp [condHolds]
  simp only [windowTakes, Bool.and_eq_true, decide_eq_true_eq, this]
  constructor
  · rintro ⟨⟨⟨a, b⟩, c⟩, d⟩; exact ⟨a, by omega, d, b⟩
  · rintro ⟨a, c, d, b⟩; exact ⟨⟨⟨a, b⟩, by omega⟩, d⟩

/-- The window in force is kept while its widened range holds the count. -/
theorem chooseWindow_kept (l : List Window) (i n : Nat) (w : Window) (o : Orientation) (hi : l[i]? = some w)
    (h : windowTakes w w.hysteresis n o = true) : chooseWindow l (some i) n o = some i := by
  simp [chooseWindow, Option.filter, hi, h]

/-- Else the lowest window that holds the count. -/
theorem chooseWindow_lowest (l : List Window) (k : Option Nat) (i n : Nat) (w : Window) (o : Orientation)
    (hk : ∀ j v, k = some j → l[j]? = some v → windowTakes v v.hysteresis n o = false) (hi : l[i]? = some w)
    (h : windowTakes w 0 n o = true) (hlow : ∀ j v, j < i → l[j]? = some v → windowTakes v 0 n o = false) :
    chooseWindow l k n o = some i := by
  have a : k.filter (fun i => (l[i]?).any (fun w => windowTakes w w.hysteresis n o)) = none := by
    cases k with
    | none => rfl
    | some j =>
      cases hj : l[j]? with
      | none => simp [Option.filter, hj]
      | some v => simp [Option.filter, hj, hk j v rfl hj]
  have b : l.findIdx? (fun w => windowTakes w 0 n o) = some i := by
    rw [List.findIdx?_eq_some_iff_getElem]
    obtain ⟨hi1, hi2⟩ := List.getElem?_eq_some_iff.mp hi
    refine ⟨hi1, by rw [hi2]; exact h, ?_⟩
    intro j hj
    have := hlow j _ hj (List.getElem?_eq_getElem (by omega))
    simp [this]
  rw [chooseWindow, a, b]; rfl

/-- Else none. -/
theorem chooseWindow_none (l : List Window) (k : Option Nat) (n : Nat) (o : Orientation)
    (hk : ∀ j v, k = some j → l[j]? = some v → windowTakes v v.hysteresis n o = false)
    (h : ∀ w ∈ l, windowTakes w 0 n o = false) : chooseWindow l k n o = none := by
  have a : k.filter (fun i => (l[i]?).any (fun w => windowTakes w w.hysteresis n o)) = none := by
    cases k with
    | none => rfl
    | some j =>
      cases hj : l[j]? with
      | none => simp [Option.filter, hj]
      | some v => simp [Option.filter, hj, hk j v rfl hj]
  have b : l.findIdx? (fun w => windowTakes w 0 n o) = none := by
    rw [List.findIdx?_eq_none_iff]; exact h
  rw [chooseWindow, a, b]; rfl

/-! ## References and gravity (R93, R96 to R98) -/

/-- A switch reference (R93). -/
theorem applyReference_switch (src : RefSource) (c : Nat) (s : State) (hs : src ≠ .gravity) :
    (applyReference src c s).posture =
      { s.posture with count := some c, refSource := some src, slips := if ∃ n, s.posture.count = some n ∧
          (c + 4 < n ∨ n + 4 < c) then satInc s.posture.slips else s.posture.slips } ∧
    (applyReference src c s).policy = s.policy ∧ (applyReference src c s).pins = s.pins ∧ (applyReference src c s).att = s.att ∧
        (applyReference src c s).sleep = s.sleep := by
  unfold applyReference
  split
  · rename_i k; simp [k]
  · rename_i n k
    have e : (∃ m, s.posture.count = some m ∧ (c + 4 < m ∨ m + 4 < c)) ↔ farApart n c = true := by
      simp [k, farApart]
    split
    · rename_i hf; simp [e, hf]
    · rename_i hf; simp [hs, e, hf]

/-- A gravity reference (R98). -/
theorem applyReference_gravity (c : Nat) (s : State) :
    (applyReference .gravity c s).posture =
      if ∃ n, s.posture.count = some n ∧ n ≤ c + 4 ∧ c ≤ n + 4 then s.posture
      else { s.posture with count := some c, refSource := some .gravity, slips := if s.posture.count.isSome then satInc s.posture.slips else s.posture.slips } := by
  unfold applyReference
  split
  · rename_i k; simp [k]
  · rename_i n k
    have e : (∃ m, s.posture.count = some m ∧ m ≤ c + 4 ∧ c ≤ m + 4) ↔ farApart n c = false := by
      simp [k, farApart]
    split
    · rename_i hf; rw [if_neg (by rw [e, hf]; simp)]; simp [k]
    · rename_i hf; rw [if_pos rfl, if_pos (e.2 (by simpa using hf))]

/-- What an evaluation leaves of the posture record. -/
theorem evaluate_keeps (s : State) :
    (evaluate s).posture.count = s.posture.count ∧ (evaluate s).posture.refSource = s.posture.refSource ∧
    (evaluate s).posture.slips = s.posture.slips ∧ (evaluate s).posture.checked = s.posture.checked ∧
    (evaluate s).posture.lidRun = s.posture.lidRun ∧ (evaluate s).posture.baseRun = s.posture.baseRun ∧ (evaluate s).pins = s.pins := by
  have g := evaluate_gives s _ _ (show evaluated s = ((evaluated s).1, (evaluated s).2) from rfl)
  rw [g.1, g.2.2.1]; exact ⟨rfl, rfl, rfl, rfl, rfl, rfl, rfl⟩

/-- A reference writes what applyReference writes. -/
theorem reference_keeps (src : RefSource) (c : Nat) (s : State) :
    let p := (reference src c s).posture
    let q := (applyReference src c s).posture
    p.count = q.count ∧ p.refSource = q.refSource ∧ p.slips = q.slips ∧ p.checked = q.checked ∧ p.lidRun = q.lidRun ∧
        p.baseRun = q.baseRun := by
  unfold reference; dsimp only
  split
  · exact ⟨rfl, rfl, rfl, rfl, rfl, rfl⟩
  · have := evaluate_keeps (applyReference src c s)
    exact ⟨this.1, this.2.1, this.2.2.1, this.2.2.2.1, this.2.2.2.2.1, this.2.2.2.2.2.1⟩

/-- A sample continues the run within 200 ms and 40 mg, or starts one (R96). -/
theorem takeSample_spec (r : Option Run) (now : Nat) (x y z : Int) :
    let continues : Prop := ∃ q, r = some q ∧ now ≤ q.last + 2000 ∧ (x - q.x).natAbs ≤ 40 ∧ (y - q.y).natAbs ≤ 40 ∧ (z - q.z).natAbs ≤ 40
    let n := takeSample r now x y z
    n.1.last = now ∧ n.1.x = x ∧ n.1.y = y ∧ n.1.z = z ∧ (continues → ∀ q, r = some q → n.1.first = q.first) ∧
    (¬ continues → n.1.first = now) ∧ (n.2 = true ↔ ¬ continues) := by
  intro continues n
  cases r with
  | none => simp [n, takeSample, continues]
  | some q =>
    have k : continuesRun q now x y z = true ↔ continues := by
      have m2 : ms 200 = 2000 := rfl
      simp only [continuesRun, near, m2, Bool.and_eq_true, decide_eq_true_eq, continues, Option.some.injEq]
      constructor
      · rintro ⟨⟨⟨a, b⟩, c⟩, d⟩; exact ⟨q, rfl, by omega, b, c, d⟩
      · rintro ⟨_, rfl, a, b, c, d⟩; exact ⟨⟨⟨by omega, b⟩, c⟩, d⟩
    by_cases h : continuesRun q now x y z = true
    · have hc := k.1 h
      simp only [n, takeSample, Option.filter, h, if_true]
      simp [hc]
    · have hc : ¬ continues := fun c => h (k.2 c)
      simp only [n, takeSample, Option.filter, h, if_false]
      simp [hc]

/-- When a gravity check is made (R97). -/
theorem checkIsDue_iff (s : State) (this other : Run) : checkIsDue s this other = true ↔
    (s.link.state = .ready ∨ s.link.state = .quiet) ∧ s.att.ident.mount.isSome = true ∧ this.first + 4000 ≤ this.last ∧
    other.first + 4000 ≤ other.last ∧ this.last ≤ other.last + 2000 ∧ s.posture.checked = false ∧
    s.posture.moving = false ∧ s.pins.lidClosed = false ∧ s.pins.foldFlat = false ∧ usable this = true ∧ usable other = true := by
  have u : s.link.state.isUp = true ↔ (s.link.state = .ready ∨ s.link.state = .quiet) := by cases s.link.state <;> simp [LinkState.isUp]
  have m2 : ms 200 = 2000 := rfl
  have m4 : ms 400 = 4000 := rfl
  simp only [checkIsDue, isStill, m2, m4, Bool.and_eq_true, decide_eq_true_eq, Bool.not_eq_true', u]
  constructor
  · rintro ⟨⟨⟨⟨⟨⟨⟨⟨⟨⟨a, b⟩, c⟩, d⟩, e⟩, f⟩, g⟩, h⟩, i⟩, j⟩, k⟩; exact ⟨a, b, by omega, by omega, by omega, f, g, h, i, j, k⟩
  · rintro ⟨a, b, c, d, e, f, g, h, i, j, k⟩; exact ⟨⟨⟨⟨⟨⟨⟨⟨⟨⟨a, b⟩, by omega⟩, by omega⟩, by omega⟩, f⟩, g⟩, h⟩, i⟩, j⟩, k⟩

/-- What a gravity check leaves of the posture record: the mark and the reference when one is due, nothing else. -/
theorem gravityCheck_posture (b : Bool) (s : State) (lid base : Run) (hl : s.posture.lidRun = some lid) (hb : s.posture.baseRun = some base) :
    let this := if b then lid else base
    let other := if b then base else lid
    let c := gravityCount lid base
    let p := (gravityCheck b s).posture
    p.lidRun = s.posture.lidRun ∧ p.baseRun = s.posture.baseRun ∧
    (checkIsDue s this other = false → gravityCheck b s = s) ∧
    (checkIsDue s this other = true → p.checked = true ∧
      ((∃ n, s.posture.count = some n ∧ n ≤ c + 4 ∧ c ≤ n + 4) →
        p.count = s.posture.count ∧ p.refSource = s.posture.refSource ∧ p.slips = s.posture.slips) ∧
      (¬ (∃ n, s.posture.count = some n ∧ n ≤ c + 4 ∧ c ≤ n + 4) →
        p.count = some c ∧ p.refSource = some .gravity ∧
        p.slips = if ∃ n, s.posture.count = some n ∧ (c + 4 < n ∨ n + 4 < c) then satInc s.posture.slips else s.posture.slips)) := by
  intro this other c p
  have e : gravityCheck b s = if checkIsDue s this other then reference .gravity c { s with posture := { s.posture with checked := true } } else s := by
    simp only [gravityCheck, hl, hb]; rfl
  have rk := reference_keeps .gravity c { s with posture := { s.posture with checked := true } }
  have ag := applyReference_gravity c { s with posture := { s.posture with checked := true } }
  dsimp only at rk ag
  by_cases hd : checkIsDue s this other = true
  · have ep : gravityCheck b s = reference .gravity c { s with posture := { s.posture with checked := true } } := by rw [e, if_pos hd]
    have hf : checkIsDue s this other = false → gravityCheck b s = s := fun h => absurd h (by rw [hd]; simp)
    have hp : p = (reference .gravity c { s with posture := { s.posture with checked := true } }).posture := congrArg State.posture ep
    clear_value p
    subst hp
    obtain ⟨r1, r2, r3, r4, r5, r6⟩ := rk
    rw [r1, r2, r3, r4, r5, r6, ag]
    by_cases hn : ∃ n, s.posture.count = some n ∧ n ≤ c + 4 ∧ c ≤ n + 4
    · rw [if_pos hn]
      exact ⟨rfl, rfl, hf, fun _ => ⟨rfl, fun _ => ⟨rfl, rfl, rfl⟩, fun h => absurd hn h⟩⟩
    · rw [if_neg hn]
      refine ⟨rfl, rfl, hf, fun _ => ⟨rfl, fun h => absurd h hn, fun _ => ⟨rfl, rfl, ?_⟩⟩⟩
      cases hk : s.posture.count with
      | none => simp
      | some n =>
        have : c + 4 < n ∨ n + 4 < c := by
          by_contra h; exact hn ⟨n, hk, by omega, by omega⟩
        simp [this]
  · have hd : checkIsDue s this other = false := by simpa using hd
    have ep : gravityCheck b s = s := by rw [e, hd]; rfl
    have hp : p = s.posture := by simp only [p, ep]
    rw [hp]
    exact ⟨rfl, rfl, fun _ => ep, fun h => absurd h (by rw [hd]; simp)⟩

/-- Without both runs no gravity check is made. -/
theorem gravityCheck_none (b : Bool) (s : State) (h : s.posture.lidRun = none ∨ s.posture.baseRun = none) : gravityCheck b s = s := by
  unfold gravityCheck
  rcases h with h | h
  · rw [h]
  · rw [h]; cases s.posture.lidRun <;> rfl

/-! ## The half angle (R97, R113, log 27) -/

/-- The steps in a quadrant lie on their side of 45°. -/
theorem oddSteps_half (x y : Int) (hx : 0 < x) (hy : 0 ≤ y) : (y < x → oddStepsInQuadrant x y < 23) ∧ (x ≤ y →
    23 ≤ oddStepsInQuadrant x y) := by
  have hsplit : oddTangents = oddTangents.take 22 ++ oddTangents.drop 22 := by simp
  constructor
  · intro h
    unfold oddStepsInQuadrant
    rw [hsplit, List.filter_append, List.length_append]
    have : (oddTangents.drop 22).filter (fun (t : Nat) => decide (x * (t : Int) ≤ y * (tangentScale : Int))) = [] := by
      rw [List.filter_eq_nil_iff]; intro t ht
      have ht2 : tangentScale ≤ t := by
        have : ∀ t ∈ oddTangents.drop 22, tangentScale ≤ t := by decide
        exact this t ht
      simp only [decide_eq_true_eq, not_le]
      have h1 : x * (tangentScale : Int) ≤ x * (t : Int) := by
        apply Int.mul_le_mul_of_nonneg_left (by exact_mod_cast ht2) hx.le
      have h2 : y * (tangentScale : Int) < x * (tangentScale : Int) := by
        apply Int.mul_lt_mul_of_pos_right h (by decide)
      omega
    rw [this]
    have := List.length_filter_le (fun (t : Nat) => decide (x * (t : Int) ≤ y * (tangentScale : Int))) (oddTangents.take 22)
    have h3 : (oddTangents.take 22).length = 22 := by decide
    simp only [List.length_nil]; omega
  · intro h
    unfold oddStepsInQuadrant
    have hs : oddTangents = oddTangents.take 23 ++ oddTangents.drop 23 := by simp
    rw [hs, List.filter_append, List.length_append]
    have : (oddTangents.take 23).filter (fun (t : Nat) => decide (x * (t : Int) ≤ y * (tangentScale : Int))) = oddTangents.take 23 := by
      rw [List.filter_eq_self]; intro t ht
      have ht2 : t ≤ tangentScale := by
        have : ∀ t ∈ oddTangents.take 23, t ≤ tangentScale := by decide
        exact this t ht
      simp only [decide_eq_true_eq]
      have h1 : x * (t : Int) ≤ x * (tangentScale : Int) := by
        apply Int.mul_le_mul_of_nonneg_left (by exact_mod_cast ht2) hx.le
      have h2 : x * (tangentScale : Int) ≤ y * (tangentScale : Int) := by
        apply Int.mul_le_mul_of_nonneg_right h (by decide)
      omega
    rw [this]
    have h3 : (oddTangents.take 23).length = 23 := by decide
    omega
/-- There are 45 steps in a quadrant. -/
theorem oddSteps_le (x y : Int) : oddStepsInQuadrant x y ≤ 45 := by
  unfold oddStepsInQuadrant
  have := List.length_filter_le (fun (t : Nat) => decide (x * (t : Int) ≤ y * (tangentScale : Int))) oddTangents
  have h3 : oddTangents.length = 45 := by decide
  omega
/-- The quadrant of an angle, from the larger of the two components (R113). -/
theorem quadrant_of (x y : Int) (h : ¬ (x = 0 ∧ y = 0)) :
    quadrant (halfAngle y x) = (if x.natAbs < y.natAbs ∨ x = -y then if 0 < y then .landscapeInverted else .landscape
      else if 0 < x then .portrait else .portraitInverted) := by
  unfold halfAngle
  by_cases c1 : 0 < y ∧ 0 ≤ x
  · rw [if_pos c1]
    have o := oddSteps_half y x c1.1 c1.2
    have l := oddSteps_le y x
    by_cases k : x < y
    · have := o.1 k; rw [if_pos (by omega), if_pos (by omega)]; unfold quadrant; rw [if_pos (by omega)]
    · have := o.2 (by omega); rw [if_neg (by omega), if_pos (by omega)]; unfold quadrant; rw [if_neg (by omega), if_pos (by omega)]
  · rw [if_neg c1]
    by_cases c2 : y ≤ 0 ∧ 0 < x
    · rw [if_pos c2]
      have o := oddSteps_half x (-y) c2.2 (by omega)
      have l := oddSteps_le x (-y)
      by_cases k : -y < x
      · have := o.1 k; rw [if_neg (by omega), if_pos (by omega)]; unfold quadrant; rw [if_neg (by omega), if_pos (by omega)]
      · have := o.2 (by omega); rw [if_pos (by omega), if_neg (by omega)]; unfold quadrant; rw [if_neg (by omega), if_neg (by omega), if_pos (by omega)]
    · rw [if_neg c2]
      by_cases c3 : y < 0 ∧ x ≤ 0
      · rw [if_pos c3]
        have o := oddSteps_half (-y) (-x) (by omega) (by omega)
        have l := oddSteps_le (-y) (-x)
        by_cases k : -x < -y
        · have := o.1 k; rw [if_pos (by omega), if_neg (by omega)]; unfold quadrant; rw [if_neg (by omega), if_neg (by omega), if_pos (by omega)]
        · have := o.2 (by omega); rw [if_neg (by omega), if_neg (by omega)]; unfold quadrant; rw [if_neg (by omega), if_neg (by omega), if_neg (by omega)]
      · rw [if_neg c3]
        have o := oddSteps_half (-x) y (by omega) (by omega)
        have l := oddSteps_le (-x) y
        by_cases k : y < -x
        · have := o.1 k; rw [if_neg (by omega), if_neg (by omega)]; unfold quadrant; rw [if_neg (by omega), if_neg (by omega), if_neg (by omega)]
        · have := o.2 (by omega); rw [if_pos (by omega), if_pos (by omega)]; unfold quadrant; rw [if_pos (by omega)]
/-- A direction along an axis lies in the widened range of its own quadrant alone. -/
theorem quadrant_axis (x y : Int) (h : (x = 0 ∧ 200 ≤ y.natAbs) ∨ (y = 0 ∧ 200 ≤ x.natAbs)) : ∀ o, inWidened o (halfAngle y x) = true →
    o = quadrant (halfAngle y x) := by
  have z : ∀ a : Int, 0 < a → oddStepsInQuadrant a 0 = 0 := by
    intro a ha; unfold oddStepsInQuadrant
    have : oddTangents.filter (fun (t : Nat) => decide (a * (t : Int) ≤ 0 * (tangentScale : Int))) = [] := by
      rw [List.filter_eq_nil_iff]; intro t ht
      have ht2 : 0 < t := by
        have : ∀ t ∈ oddTangents, 0 < t := by decide
        exact this t ht
      simp only [decide_eq_true_eq, not_le, Int.zero_mul]
      exact Int.mul_pos ha (by exact_mod_cast ht2)
    rw [this]; rfl
  have : halfAngle y x = 0 ∨ halfAngle y x = 45 ∨ halfAngle y x = 90 ∨ halfAngle y x = 135 := by
    unfold halfAngle
    rcases h with ⟨rfl, h⟩ | ⟨rfl, h⟩
    · by_cases k : 0 < y
      · rw [if_pos ⟨k, le_refl _⟩, z _ k]; simp
      · rw [if_neg (by omega), if_neg (by omega), if_pos ⟨by omega, le_refl _⟩]; simp [z (-y) (by omega)]
    · by_cases k : 0 < x
      · rw [if_neg (by omega), if_pos ⟨le_refl _, k⟩]; simp [z x k]
      · rw [if_neg (by omega), if_neg (by omega), if_neg (by omega), z (-x) (by omega)]; simp
  intro o ho
  rcases this with e | e | e | e <;> rw [e] at ho ⊢ <;> cases o <;> simp [inWidened, quadrant] at ho ⊢
/-- The sample of a motion frame as it is encoded. -/
theorem motionOf_enc (x y z : Word16) : motionOf (encWord x ++ encWord y ++ encWord z) = some (x, y, z) := by
  have : ∀ w : Word16, BitVec.ofNat 8 (w.toNat / 256) ++ BitVec.ofNat 8 w.toNat = w := by
    intro w; apply BitVec.eq_of_toNat_eq
    simp only [BitVec.toNat_append, BitVec.toNat_ofNat]
    have := w.isLt
    rw [← Nat.shiftLeft_add_eq_or_of_lt (by omega)]
    simp [Nat.shiftLeft_eq]; omega
  simp only [encWord, enc16, List.cons_append, List.nil_append, motionOf, this]

/-- Classification does not count the lid's frames as received. -/
theorem decideFrame_received (kind : Byte) (payload : List Byte) (damaged : Bool) (s : State) :
    (decideFrame .lidMotion kind payload damaged s).route.ingress.lidMotion.received = s.route.ingress.lidMotion.received := by
  have wk : ∀ k (u : State), (wakeClaim k u).route = u.route := by
    intro k u; simp
  have fw : ∀ k p d i de (u : State), (forwardFrame .lidMotion k p d i de u).route.ingress.lidMotion.received = u.route.ingress.lidMotion.received := by
    intro k p d i de u; unfold forwardFrame; dsimp only; split <;> rfl
  have ac : ∀ k p d i f (u : State), (actOnFrame .lidMotion k p d i f u).route.ingress.lidMotion.received = u.route.ingress.lidMotion.received := by
    intro k p d i f u; unfold actOnFrame; dsimp only; split
    · rw [fw]; rfl
    · rfl
    · rw [wk]; rfl
    · rw [wk, fw]; rfl
  have th : ∀ k p d i e (u : State), (thinFrame .lidMotion k p d i e u).route.ingress.lidMotion.received = u.route.ingress.lidMotion.received := by
    intro k p d i e u; unfold thinFrame; split
    · rw [ac]; rfl
    · rfl
  unfold decideFrame; split
  · rfl
  · rw [if_neg (by simp)]; unfold classify; split
    · rfl
    · split
      · rfl
      · split
        · rfl
        · rw [th]

/-- No step lies at an axis. -/
theorem oddSteps_zero (a : Int) (ha : 0 < a) : oddStepsInQuadrant a 0 = 0 := by
  unfold oddStepsInQuadrant
  have : oddTangents.filter (fun (t : Nat) => decide (a * (t : Int) ≤ 0 * (tangentScale : Int))) = [] := by
    rw [List.filter_eq_nil_iff]; intro t ht
    have ht2 : 0 < t := by
      have : ∀ t ∈ oddTangents, 0 < t := by decide
      exact this t ht
    simp only [decide_eq_true_eq, not_le, Int.zero_mul]
    exact Int.mul_pos ha (by exact_mod_cast ht2)
  rw [this]; rfl
/-- The half angle along the axes. -/
theorem halfAngle_axes (a : Int) (ha : 0 < a) : halfAngle a 0 = 0 ∧ halfAngle 0 a = 45 ∧ halfAngle (-a) 0 = 90 ∧
    halfAngle 0 (-a) = 135 := by
  refine ⟨?_, ?_, ?_, ?_⟩ <;> unfold halfAngle
  · rw [if_pos ⟨ha, le_refl _⟩, oddSteps_zero _ ha]
  · rw [if_neg (by omega), if_pos ⟨le_refl _, ha⟩]; simp [oddSteps_zero _ ha]
  · rw [if_neg (by omega), if_neg (by omega), if_pos ⟨by omega, le_refl _⟩]; simp [oddSteps_zero _ ha]
  · rw [if_neg (by omega), if_neg (by omega), if_neg (by omega)]; simp [oddSteps_zero _ ha]
/-- The hinge count of two directions along the axes (R97). -/
theorem gravityCount_axes (lid base : Run) (k j : Nat)
    (hl : (lid.y = 0 ∧ 0 < lid.z ∧ k = 0) ∨ (0 < lid.y ∧ lid.z = 0 ∧ k = 1) ∨ (lid.y = 0 ∧ lid.z < 0 ∧ k = 2) ∨ (lid.y < 0 ∧ lid.z = 0 ∧
        k = 3))
    (hb : (base.y = 0 ∧ 0 < base.z ∧ j = 0) ∨ (0 < base.y ∧ base.z = 0 ∧ j = 1) ∨ (base.y = 0 ∧ base.z < 0 ∧ j = 2) ∨ (base.y < 0 ∧
        base.z = 0 ∧ j = 3)) :
    gravityCount lid base = 45 * ((2 + k + 4 - j) % 4) := by
  have key : ∀ re im a : Int, 0 < a → ∀ n, (re = a ∧ im = 0 ∧ n = 0 ∨ re = 0 ∧ im = a ∧ n = 1 ∨ re = -a ∧ im = 0 ∧ n = 2 ∨ re = 0 ∧
      im = -a ∧ n = 3) → halfAngle re im = 45 * n := by
    intro re im a ha n h
    have := halfAngle_axes a ha
    rcases h with ⟨rfl, rfl, rfl⟩ | ⟨rfl, rfl, rfl⟩ | ⟨rfl, rfl, rfl⟩ | ⟨rfl, rfl, rfl⟩
    · simp [this.1]
    · simp [this.2.1]
    · simp [this.2.2.1]
    · simp [this.2.2.2]
  unfold gravityCount
  rcases hl with ⟨a, b, rfl⟩ | ⟨a, b, rfl⟩ | ⟨a, b, rfl⟩ | ⟨a, b, rfl⟩ <;> rcases hb with ⟨c, d, rfl⟩ | ⟨c, d, rfl⟩ | ⟨c, d, rfl⟩ | ⟨c, d, rfl⟩ <;> simp only [a, b, c, d, zero_mul, mul_zero, add_zero, zero_add, sub_zero, zero_sub, neg_neg, neg_zero]
  · exact key _ _ (lid.z * base.z) (by positivity) 2 (by simp)
  · exact key _ _ (lid.z * base.y) (by positivity) 1 (by simp)
  · exact key _ _ (-(lid.z * base.z)) (by nlinarith) 0 (by simp)
  · exact key _ _ (-(lid.z * base.y)) (by nlinarith) 3 (by simp)
  · exact key _ _ (lid.y * base.z) (by positivity) 3 (by simp)
  · exact key _ _ (lid.y * base.y) (by positivity) 2 (by simp)
  · exact key _ _ (-(lid.y * base.z)) (by nlinarith) 1 (by simp)
  · exact key _ _ (-(lid.y * base.y)) (by nlinarith) 0 (by simp)
  · exact key _ _ (-(lid.z * base.z)) (by nlinarith) 0 (by simp)
  · exact key _ _ (-(lid.z * base.y)) (by nlinarith) 3 (by simp)
  · exact key _ _ (lid.z * base.z) (by nlinarith) 2 (by simp)
  · exact key _ _ (lid.z * base.y) (by nlinarith) 1 (by simp)
  · exact key _ _ (-(lid.y * base.z)) (by nlinarith) 1 (by simp)
  · exact key _ _ (-(lid.y * base.y)) (by nlinarith) 0 (by simp)
  · exact key _ _ (lid.y * base.z) (by nlinarith) 3 (by simp)
  · exact key _ _ (lid.y * base.y) (by nlinarith) 2 (by simp)

/-! ## Presence and detach (R106) -/

/-- Removing HINGE-MOVING changes the sleep record alone, and the notices where it ends a grace. -/
theorem hingeMoving_removed (s : State) :
    (removeHold .hingeMoving s).posture = s.posture ∧ (removeHold .hingeMoving s).policy = s.policy ∧
    (removeHold .hingeMoving s).pins = s.pins ∧ (removeHold .hingeMoving s).att = s.att ∧ (removeHold .hingeMoving s).orient = s.orient ∧
    (removeHold .hingeMoving s).sleep.holds.hingeMoving = false := by
  refine ⟨by simp, by simp, by simp, by simp, by simp, ?_⟩
  unfold removeHold
  split
  · dsimp only; split <;> simp [HoldSet.put, sleepAsk, postSleep]
  · rename_i h; simpa [HoldSet.has] using h

/-- What the evaluation gives a lid that is closed, and an unreferenced hinge. -/
theorem evaluated_of (s : State) :
    (s.att.present = false → evaluated s = (.slate, none)) ∧
    (s.att.present = true → s.pins.lidClosed = true → evaluated s = (.closed, none)) ∧
    (s.att.present = true → s.pins.lidClosed = false → s.posture.lidOpened = false → s.posture.count = none →
      evaluated s = (.unknown, none)) ∧
    (∀ n, s.att.present = true → s.pins.lidClosed = false → s.posture.lidOpened = false → s.posture.count = some n →
      s.posture.moving = false → s.posture.window = none →
      (∀ i w, s.posture.windows.findIdx? (fun w => windowTakes w 0 n s.orient.candidate) = some i → s.posture.windows[i]? = some w →
        evaluated s = (w.posture, some i)) ∧
      (s.posture.windows.findIdx? (fun w => windowTakes w 0 n s.orient.candidate) = none →
        evaluated s = (if s.posture.posture ∈ [.laptop, .stand, .tent, .tablet] then s.posture.posture else .unknown, none))) := by
  refine ⟨?_, ?_, ?_, ?_⟩
  · intro h; simp [evaluated, h]
  · intro h k; simp [evaluated, h, k, State.lidIsClosed]
  · intro h k l c; simp [evaluated, h, k, l, c, State.lidIsClosed]
  · intro n h k l c m w
    constructor
    · intro i v hi hv; simp [evaluated, h, k, l, c, m, w, State.lidIsClosed, chooseWindow, hi, hv]
    · intro hi
      simp only [evaluated, h, k, l, c, m, w, State.lidIsClosed, chooseWindow, hi]
      cases hp : s.posture.posture <;> simp [isWindowPosture]

/-- What the posture unit does when the base becomes present. -/
theorem posturePresent_spec (s : State) (hp : s.att.present = true) :
    let t := posturePresent s
    let code := codePosition s.pins.code
    let old := s.posture.posture
    t.posture.lastCode = code ∧ t.posture.resync = code.isNone ∧
    t.posture.faults = (if code.isNone then satInc s.posture.faults else s.posture.faults) ∧ t.posture.slips = s.posture.slips ∧
    t.posture.moving = false ∧ t.posture.settle = none ∧ t.posture.lidOpened = false ∧ t.sleep.holds.hingeMoving = false ∧
    t.policy.events = s.policy.events ++ (if s.pins.lidClosed then [.lidClosed] else []) ++
      (if old = t.posture.posture then [] else [.postureChanged old t.posture.posture]) ∧
    (s.pins.lidClosed = true → t.posture.count = some 0 ∧ t.posture.refSource = some .lidSwitch ∧ t.posture.posture = .closed ∧
      t.posture.window = none) ∧
    (s.pins.lidClosed = false → s.pins.foldFlat = false → t.posture.count = none ∧ t.posture.posture = .unknown ∧
      t.posture.window = none) ∧
    (s.pins.lidClosed = false → s.pins.foldFlat = true → t.posture.count = some 180 ∧ t.posture.refSource = some .flatSwitch ∧
      (∀ i w, s.posture.windows.findIdx? (fun w => windowTakes w 0 180 s.orient.candidate) = some i → s.posture.windows[i]? = some w →
        t.posture.posture = w.posture ∧ t.posture.window = some i) ∧
      (s.posture.windows.findIdx? (fun w => windowTakes w 0 180 s.orient.candidate) = none →
        t.posture.posture = (if old ∈ [.laptop, .stand, .tent, .tablet] then old else .unknown) ∧ t.posture.window = none)) := by
  intro t code old
  have rc : (readCode s).posture = { s.posture with
      lastCode := code, resync := code.isNone, count := if code.isNone then none else s.posture.count
      faults := if code.isNone then satInc s.posture.faults else s.posture.faults } := by
    unfold readCode; cases hc : codePosition s.pins.code <;> simp [code, hc, faultNoted]
  let v : State := { readCode s with posture := { (readCode s).posture with count := none, moving := false, settle := none, lidOpened := false, window := none } }
  let u : State := removeHold .hingeMoving v
  have hu := hingeMoving_removed v
  have up : u.posture = { s.posture with
      lastCode := code, resync := code.isNone, count := none, moving := false, settle := none, lidOpened := false, window := none
      faults := if code.isNone then satInc s.posture.faults else s.posture.faults } := by
    rw [show u.posture = v.posture from hu.1]; simp [v, rc]
  have ue : u.policy = s.policy := by rw [show u.policy = v.policy from hu.2.1]; simp [v]
  have ui : u.pins = s.pins := by rw [show u.pins = v.pins from hu.2.2.1]; simp [v]
  have ua : u.att = s.att := by rw [show u.att = v.att from hu.2.2.2.1]; simp [v]
  have uo : u.orient = s.orient := by rw [show u.orient = v.orient from hu.2.2.2.2.1]; simp [v]
  have uh : u.sleep.holds.hingeMoving = false := hu.2.2.2.2.2
  have te : t = if s.pins.lidClosed then evaluate (lidCloses u) else if s.pins.foldFlat then evaluate (applyReference .flatSwitch 180 u) else evaluate u := by
    show posturePresent s = _
    rw [← ui]; rfl
  clear_value u
  cases hl : s.pins.lidClosed
  · cases hf : s.pins.foldFlat
    · have ev := (evaluated_of u).2.2.1 (by rw [ua, hp]) (by rw [ui, hl]) (by rw [up]) (by rw [up])
      have g := evaluate_gives u _ _ ev
      have tt : t = evaluate u := by rw [te, hl, hf]; rfl
      rw [tt, g.1, g.2.1, g.2.2.2.1, up, ue]
      simp [uh, old]
    · have ar := applyReference_switch .flatSwitch 180 u (by simp)
      have tt : t = evaluate (applyReference .flatSwitch 180 u) := by rw [te, hl, hf]; rfl
      have ao : (applyReference .flatSwitch 180 u).orient = s.orient := by rw [← uo]; simp
      generalize applyReference .flatSwitch 180 u = w at ar tt ao
      have wp : w.posture = { s.posture with
          lastCode := code, resync := code.isNone, count := some 180, refSource := some .flatSwitch, moving := false, settle := none
          lidOpened := false, window := none, faults := if code.isNone then satInc s.posture.faults else s.posture.faults } := by
        rw [ar.1, up]; simp
      have ev := (evaluated_of w).2.2.2 180 (by rw [ar.2.2.2.1, ua, hp]) (by rw [ar.2.2.1, ui, hl]) (by rw [wp]) (by rw [wp]) (by rw [wp]) (by rw [wp])
      have g := evaluate_gives w _ _ (show evaluated w = ((evaluated w).1, (evaluated w).2) from rfl)
      rw [wp, ao] at ev
      rw [tt, g.1, g.2.1, g.2.2.2.1, ar.2.2.2.2, ar.2.1, ue, wp]
      refine ⟨rfl, rfl, rfl, rfl, rfl, rfl, rfl, uh, by simp [old], by simp, by simp, fun _ _ => ⟨rfl, rfl, ?_, ?_⟩⟩
      · intro i x hi hx; rw [ev.1 i x hi hx]; exact ⟨rfl, rfl⟩
      · intro hi; rw [ev.2 hi]; exact ⟨rfl, rfl⟩
  · have ar := applyReference_switch .lidSwitch 0 { u with posture := { u.posture with lidOpened := false } } (by simp)
    have tt : t = evaluate (lidCloses u) := by rw [te, hl]; rfl
    have lc : lidCloses u = postEvent .lidClosed (applyReference .lidSwitch 0 { u with posture := { u.posture with lidOpened := false } }) := rfl
    generalize applyReference .lidSwitch 0 { u with posture := { u.posture with lidOpened := false } } = w at ar lc
    have wp : w.posture = { s.posture with
        lastCode := code, resync := code.isNone, count := some 0, refSource := some .lidSwitch, moving := false, settle := none
        lidOpened := false, window := none, faults := if code.isNone then satInc s.posture.faults else s.posture.faults } := by
      rw [ar.1]; simp [up]
    have ev := (evaluated_of (lidCloses u)).2.1 (by rw [lc]; simp [postEvent, ar, ua, hp]) (by rw [lc]; simp [postEvent, ar, ui, hl])
    have g := evaluate_gives _ _ _ ev
    have lp : (lidCloses u).posture = w.posture := by rw [lc]; rfl
    have le : (lidCloses u).policy.events = s.policy.events ++ [.lidClosed] := by rw [lc]; simp [postEvent, ar, ue]
    have ls : (lidCloses u).sleep = u.sleep := by rw [lc]; simp [postEvent, ar]
    rw [tt, g.1, g.2.1, g.2.2.2.1, ls, le, lp, wp]
    refine ⟨rfl, rfl, rfl, rfl, rfl, rfl, rfl, uh, by simp [old], fun _ => ⟨rfl, rfl, rfl, rfl⟩, by simp, by simp⟩

/-- An evaluation that changes the posture leaves its POSTURE notice pending (R104); the other kinds are kept. -/
theorem evaluate_posts (s : State) :
    ((evaluate s).posture.posture ≠ s.posture.posture → s.mgmt.enables.posture = true →
      ∃ p, (evaluate s).mgmt.notices.posture = some p ∧
        p.notice = .posture (evaluate s).posture.posture s.posture.posture s.posture.count s.posture.moving) ∧
    ∀ k, k ≠ .posture → KeepsNotice k (evaluate s) s := by
  have g := evaluate_gives s _ _ (show evaluated s = ((evaluated s).1, (evaluated s).2) from rfl)
  constructor
  · intro h he
    have hne : (evaluated s).1 ≠ s.posture.posture := by rw [g.1] at h; exact h
    obtain ⟨p, h1, h2⟩ := post_pending (.posture (evaluated s).1 s.posture.posture s.posture.count s.posture.moving)
      { s with posture := { s.posture with posture := (evaluated s).1, previous := some s.posture.posture, window := (evaluated s).2 } } he
    refine ⟨p, ?_, by rw [g.1]; exact h2⟩
    unfold evaluate; dsimp only; rw [if_neg hne]; exact h1
  · intro k hk
    unfold evaluate; dsimp only; split
    · exact keepsNotice_of rfl
    · exact keepsNotice_trans (keepsNotice_of rfl) (keepsNotice_trans (post_notice _ _ _ (by simpa [Notice.kind] using hk)) (keepsNotice_of rfl))

/-- The notices of presence: ENCODER for a code without a position, POSTURE for a posture that changes (R90, R104). -/
theorem posturePresent_notices (s : State) :
    let t := posturePresent s
    (codePosition s.pins.code = none → s.mgmt.enables.encoder = true →
      ∃ p, t.mgmt.notices.encoder = some p ∧ p.notice = .encoderFault .invalidCode s.pins.code s.posture.count) ∧
    (t.posture.posture ≠ s.posture.posture → s.mgmt.enables.posture = true →
      ∃ p, t.mgmt.notices.posture = some p ∧
        p.notice = .posture t.posture.posture s.posture.posture t.posture.count t.posture.moving) := by
  intro t
  let v : State := { readCode s with posture := { (readCode s).posture with count := none, moving := false, settle := none, lidOpened := false, window := none } }
  let u : State := removeHold .hingeMoving v
  have hu := hingeMoving_removed v
  have ref : ∀ src n (w : State), w.posture.count = none → (applyReference src n w).mgmt = w.mgmt := by
    intro src n w h; unfold applyReference; rw [h]
  let w : State := if u.pins.lidClosed then lidCloses u else if u.pins.foldFlat then applyReference .flatSwitch 180 u else u
  have tw : t = evaluate w := by
    show posturePresent s = _
    simp only [w]
    have : posturePresent s = if u.pins.lidClosed then evaluate (lidCloses u) else if u.pins.foldFlat then evaluate (applyReference .flatSwitch 180 u) else evaluate u := rfl
    rw [this]; (repeat' split) <;> rfl
  have uc : u.posture.count = none := by rw [show u.posture = v.posture from hu.1]
  have wm : w.mgmt = u.mgmt := by
    simp only [w]; split
    · have e : lidCloses u = postEvent .lidClosed (applyReference .lidSwitch 0 { u with posture := { u.posture with lidOpened := false } }) := rfl
      rw [e]; exact ref _ _ _ uc
    · split
      · exact ref _ _ _ uc
      · rfl
  have wp : w.posture.posture = s.posture.posture := by
    have up : u.posture.posture = s.posture.posture := by
      rw [show u.posture = v.posture from hu.1]; simp only [v]; unfold readCode; split <;> simp [faultNoted]
    have ar := fun src n x (h : src ≠ .gravity) => congrArg PostureUnit.posture (applyReference_switch src n x h).1
    simp only [w]; split
    · exact (ar .lidSwitch 0 { u with posture := { u.posture with lidOpened := false } } (by simp)).trans up
    · split
      · exact (ar .flatSwitch 180 u (by simp)).trans up
      · exact up
  have keep : ∀ k, k ≠ .sleep → KeepsNotice k w (readCode s) := fun k hk =>
    keepsNotice_trans (keepsNotice_of wm) (keepsNotice_trans (removeHold_notice _ _ _ hk) (keepsNotice_of rfl))
  have ep := evaluate_posts w
  constructor
  · intro hc he
    have rc : readCode s = faultNoted .invalidCode s.pins.code { s with posture := { s.posture with lastCode := none, resync := true } } := by
      unfold readCode; rw [hc]
    have k := keepsNotice_trans (ep.2 .encoder (by simp)) (keep .encoder (by simp))
    rw [← tw, rc] at k
    obtain ⟨q, h1, h2⟩ := posted_stays (n := .encoderFault .invalidCode s.pins.code s.posture.count) (t := t)
      (s := { s with posture := { s.posture with lastCode := none, resync := true, count := none, faults := satInc s.posture.faults } })
      k he
    exact ⟨q, h1, h2⟩
  · intro hne he
    have en : w.mgmt.enables = s.mgmt.enables := by
      rw [(keep .posture (by simp)).2]; unfold readCode; split <;> simp [faultNoted]
    obtain ⟨p, h1, h2⟩ := ep.1 (by rw [← tw, wp]; exact hne) (by rw [en]; exact he)
    refine ⟨p, by rw [tw]; exact h1, ?_⟩
    have g := evaluate_gives w _ _ (show evaluated w = ((evaluated w).1, (evaluated w).2) from rfl)
    have e : (evaluate w).posture.moving = w.posture.moving := by rw [g.1]
    rw [h2, tw, wp, (evaluate_keeps w).1, e]

/-- What the posture unit does at a detach. -/
theorem postureDetached_spec (s : State) (hp : s.att.present = false) :
    let t := postureDetached s
    let old := s.posture.posture
    t.posture.posture = .slate ∧ t.posture.window = none ∧ t.posture.count = none ∧ t.posture.moving = false ∧ t.posture.settle = none ∧
    t.posture.lidOpened = false ∧ t.posture.lidRun = none ∧ t.posture.baseRun = none ∧ t.posture.faults = s.posture.faults ∧
    t.posture.slips = s.posture.slips ∧ t.sleep.holds.hingeMoving = false ∧
    t.policy.events = s.policy.events ++ (if s.pins.lidClosed then [.lidOpened] else []) ++
      (if old = .slate then [] else [.postureChanged old .slate]) := by
  intro t old
  let v : State := { s with posture := { s.posture with count := none, moving := false, settle := none, lidOpened := false, lastCode := none, resync := false, lidRun := none, baseRun := none } }
  have hu := hingeMoving_removed v
  let u : State := if (removeHold .hingeMoving v).pins.lidClosed then postEvent .lidOpened (removeHold .hingeMoving v) else removeHold .hingeMoving v
  have te : t = evaluate u := rfl
  have up : u.posture = v.posture := by simp only [u]; split <;> simp [postEvent, hu]
  have ua : u.att = s.att := by simp only [u]; split <;> simp [postEvent, hu, v]
  have us : u.sleep = (removeHold .hingeMoving v).sleep := by simp only [u]; split <;> simp [postEvent]
  have ue : u.policy.events = s.policy.events ++ (if s.pins.lidClosed then [.lidOpened] else []) := by
    simp only [u, hu.2.2.1]; split <;> rename_i h <;> simp_all [postEvent, v]
  have g := evaluate_gives u _ _ ((evaluated_of u).1 (by rw [ua, hp]))
  rw [te, g.1, g.2.1, g.2.2.2.1, us, ue, up]
  exact ⟨rfl, rfl, rfl, rfl, rfl, rfl, rfl, rfl, rfl, rfl, hu.2.2.2.2.2, rfl⟩

/-! ## HINGE-MOVING and the events of presence through the entries of the link (R42, R45, R61, R62) -/

/-- Another block's hold-off leaves HINGE-MOVING. -/
theorem setHold_moving (r : Holdoff) (b : Bool) (s : State) (h : r ≠ .hingeMoving) :
    (setHold r b s).sleep.holds.hingeMoving = s.sleep.holds.hingeMoving := by
  unfold setHold removeHold addHold
  cases r <;> first | exact absurd rfl h | (dsimp only; (repeat' split) <;> simp [HoldSet.put, sleepAsk, postSleep])

theorem goSession_moving (new : PenState) (f : Option FaultCause) (c : ClaimStep) (s : State) :
    (goSession new f c s).sleep.holds.hingeMoving = s.sleep.holds.hingeMoving := by
  simp [goSession, setHold_moving]

theorem penTold_moving (b : Option PenLevel) (s : State) : (penTold b s).sleep.holds.hingeMoving = s.sleep.holds.hingeMoving := by
  unfold penTold resumeSession enterSoftStart enterDetect claimSession
  dsimp only; (repeat' split) <;> simp [goSession_moving]

theorem releaseBase_moving (s : State) : (releaseBase s).sleep.holds.hingeMoving = s.sleep.holds.hingeMoving := by
  unfold releaseBase; dsimp only; rw [penTold_moving]; simp

theorem setLinkState_moving (new : LinkState) (s : State) : (setLinkState new s).sleep.holds.hingeMoving = s.sleep.holds.hingeMoving := by
  simp [setLinkState, setHold_moving]

theorem linkEnding_moving (s : State) : (linkEnding s).sleep.holds.hingeMoving = s.sleep.holds.hingeMoving := by
  simp [linkEnding, issuerHold, setHold_moving]

theorem linkEnding_events (s : State) : (linkEnding s).policy.events = s.policy.events := by simp [linkEnding, issuerHold]

theorem enterUnpowered_moving (d : Nat) (s : State) : (enterUnpowered d s).sleep.holds.hingeMoving = s.sleep.holds.hingeMoving ∧
    (enterUnpowered d s).policy.events = s.policy.events := by
  have e : (endDiagnosis .unpowered s).sleep = s.sleep ∧ (endDiagnosis .unpowered s).policy = s.policy := by
    unfold endDiagnosis; split <;> exact ⟨rfl, rfl⟩
  simp [enterUnpowered, releaseBase_moving, setLinkState_moving, linkEnding_moving, linkEnding_events, flushDown, stopLinkTimers, e]

theorem enterFaulted_moving (s : State) : (enterFaulted s).sleep.holds.hingeMoving = s.sleep.holds.hingeMoving ∧
    (enterFaulted s).policy.events = s.policy.events ++ [.baseFault] := by
  have e : (endDiagnosis .faulted s).sleep = s.sleep ∧ (endDiagnosis .faulted s).policy = s.policy := by
    unfold endDiagnosis; split <;> exact ⟨rfl, rfl⟩
  simp [enterFaulted, postEvent, releaseBase_moving, setLinkState_moving, linkEnding_moving, linkEnding_events, flushDown, stopLinkTimers, e]

theorem enterPowering_moving (b : Bool) (s : State) : (enterPowering b s).sleep.holds.hingeMoving = s.sleep.holds.hingeMoving ∧
    (enterPowering b s).policy.events = s.policy.events := by
  have c : ∀ n u, (claimBase b n u).1.sleep.holds.hingeMoving = u.sleep.holds.hingeMoving ∧
      (claimBase b n u).1.policy.events = u.policy.events := by
    intro n u; unfold claimBase; dsimp only; (repeat' split) <;> simp [penTold_moving]
  unfold enterPowering; dsimp only; split <;> simp [c, setLinkState_moving, enterUnpowered_moving]

/-- A claim of the policy engine posts no event (R164, R167). -/
theorem issueClaim_events (ev : PolicyEvent) (a : PolicyAction) (s : State) : (issueClaim ev a s).policy.events = s.policy.events := by
  have lo : ∀ p n (u : State), (lowerBudget p n u).policy.events = u.policy.events := by
    intro p n u; unfold lowerBudget; dsimp only; split <;> simp [enterUnpowered_moving]
  have ra : ∀ p n (u : State), (raiseBudget p n u).policy.events = u.policy.events := by
    intro p n u; unfold raiseBudget; dsimp only; split <;> simp [enterPowering_moving]
  cases a <;> simp only [issueClaim]
  case sleepBegin => unfold sleepBegin graceExpires sleepAsk postSleep; dsimp only; (repeat' split) <;> simp
  case sleepCancel => simp
  case wake => simp
  case orientLock => simp [lockClaim, setLock, setInputs]
  case orientFree => unfold freeClaim; split <;> simp [setLock, setInputs]
  case chargeHold => unfold holdClaim; dsimp only; (repeat' split) <;> simp
  case chargeAllow => unfold releaseClaim; dsimp only; (repeat' split) <;> simp
  case budgetProfile n => unfold budgetProfile changeBudget; dsimp only; (repeat' split) <;> simp [lo, ra]
  case indicate l src p => cases l <;> simp [indicate]

/-- After a change no event is left (R164, log 4). -/
theorem finish_events (s : State) : (finish s).policy.events = [] := by
  have te : ∀ ev (u : State), (takeEvent ev u).policy.events = u.policy.events := by
    intro ev u; unfold takeEvent
    generalize actionsFor ev u = l
    induction l generalizing u with
    | nil => rfl
    | cons a r ih => rw [List.foldl_cons, ih, issueClaim_events]
  have fe : ∀ (l : List PolicyEvent) (u : State), (l.foldl (fun s ev => takeEvent ev s) u).policy.events = u.policy.events := by
    intro l; induction l with
    | nil => intro u; rfl
    | cons a r ih => intro u; rw [List.foldl_cons, ih, te]
  have de : (drainEvents s).policy.events = [] := by unfold drainEvents; rw [fe]
  rw [finish, startTransmit_eq, kickHinge_eq]; exact de

/-- What the expiry of the debounce leaves of what the posture unit did: the base run is discarded, BASE-FAULT comes after its events. -/
theorem presence_facts (s : State) (hd : s.link.debounce.isSome = true) :
    let w := posturePresent { s with link := { s.link with debounce := none, session := .opened }
                                     att := { s.att with present := true, attachCount := wrapInc s.att.attachCount } }
    let t := debounceExpires s
    t.posture = { w.posture with baseRun := none } ∧ t.policy.events = w.policy.events ++ (if railLatched s then [.baseFault] else []) ∧
      t.sleep.holds.hingeMoving = w.sleep.holds.hingeMoving ∧ t.pins = s.pins ∧ KeepsNotice .encoder t w ∧ KeepsNotice .posture t w := by
  intro w t
  have e : t = if railLatched (switchOutputs w) then enterFaulted (switchOutputs w) else enterPowering false (switchOutputs w) := by
    show debounceExpires s = _
    simp only [debounceExpires, hd, if_true]; rfl
  have g := posturePresent_frame { s with link := { s.link with debounce := none, session := .opened }, att := { s.att with present := true, attachCount := wrapInc s.att.attachCount } }
  have st := switchOutputs_settings w
  have rl : railLatched (switchOutputs w) = railLatched s := by
    simp only [KeepsWorld, KeepsPort, KeepsTraffic, KeepsBase, KeepsPower, KeepsSettings, KeepsMarks] at g st
    simp_all [railLatched, w]
  have wp : w.pins = s.pins := by simp [w]
  have ef : ∀ u : State, (enterFaulted u).posture = { u.posture with baseRun := none } := by
    intro u
    have : (endDiagnosis .faulted u).posture = u.posture := by unfold endDiagnosis; split <;> rfl
    simp [enterFaulted, postEvent, setLinkState, this, flushDown, stopLinkTimers]
  have ep : ∀ u : State, (enterPowering false u).posture = { u.posture with baseRun := none } := by
    intro u
    unfold enterPowering; dsimp only; split
    · simp [setLinkState]
    · have : ∀ v : State, (endDiagnosis .unpowered v).posture = v.posture := by intro v; unfold endDiagnosis; split <;> rfl
      simp [enterUnpowered, setLinkState, this, flushDown, stopLinkTimers]
  rw [e, rl]
  cases railLatched s
  · simp only [Bool.false_eq_true, if_false]
    refine ⟨by rw [ep]; simp, ?_, ?_, by simp [wp], ?_, ?_⟩
    · rw [(enterPowering_moving _ _).2]; simp
    · rw [(enterPowering_moving _ _).1]; simp
    · exact keepsNotice_trans (enterPowering_notice _ _ _ (by simp [aside])) (switchOutputs_notice _ _)
    · exact keepsNotice_trans (enterPowering_notice _ _ _ (by simp [aside])) (switchOutputs_notice _ _)
  · simp only [if_true]
    refine ⟨by rw [ef]; simp, ?_, ?_, by simp [wp], ?_, ?_⟩
    · rw [(enterFaulted_moving _).2]; simp
    · rw [(enterFaulted_moving _).1]; simp
    · exact keepsNotice_trans (enterFaulted_notice _ _ (by simp [aside])) (switchOutputs_notice _ _)
    · exact keepsNotice_trans (enterFaulted_notice _ _ (by simp [aside])) (switchOutputs_notice _ _)

/-- A detach that changes the posture leaves its POSTURE notice pending (R104, R106). -/
theorem postureDetached_posts (s : State) (hp : s.att.present = false) (h : s.posture.posture ≠ .slate) (he : s.mgmt.enables.posture = true) :
    ∃ p, (postureDetached s).mgmt.notices.posture = some p ∧ p.notice = .posture .slate s.posture.posture none false := by
  let v : State := { s with posture := { s.posture with count := none, moving := false, settle := none, lidOpened := false, lastCode := none, resync := false, lidRun := none, baseRun := none } }
  have hu := hingeMoving_removed v
  let u : State := if (removeHold .hingeMoving v).pins.lidClosed then postEvent .lidOpened (removeHold .hingeMoving v) else removeHold .hingeMoving v
  have te : postureDetached s = evaluate u := rfl
  have up : u.posture = v.posture := by simp only [u]; split <;> simp [postEvent, hu]
  have ua : u.att = s.att := by simp only [u]; split <;> simp [postEvent, hu, v]
  have um : u.mgmt.enables = s.mgmt.enables := by
    have := (removeHold_notice .posture .hingeMoving v (by simp)).2
    simp only [u]; split <;> simpa [postEvent, v] using this
  have g := evaluate_gives u _ _ ((evaluated_of u).1 (by rw [ua, hp]))
  have gp : (evaluate u).posture.posture = .slate := by rw [g.1]
  obtain ⟨p, x, y⟩ := (evaluate_posts u).1 (by rw [gp, up]; exact fun k => h k.symm) (by rw [um]; exact he)
  exact ⟨p, by rw [te]; exact x, by rw [y, gp, up]⟩

end Sys2Proof.Machine
end

