-- ==== Sys2Proof/Laws/Session.lean ====
section
/-! SUPPORT. What a session's states begin and end with: the issuer's offer, entering READY, the notices of UNPOWERED and FAULTED, and the end
of the link at a detach. -/
namespace Sys2Proof.Machine
set_option linter.all false

/-- An offer changes the issuer and the downstream queue alone, and looks at nothing else (R75). -/
theorem oldestOffered_frame (s : State) :
    oldestOffered s = { s with issuer := (oldestOffered s).issuer, pool := (oldestOffered s).pool } := by
  unfold oldestOffered; (repeat' split) <;> rfl

theorem oldestOffered_congr {s t : State} (h1 : t.issuer = s.issuer) (h2 : t.pool = s.pool) :
    (oldestOffered t).issuer = (oldestOffered s).issuer ∧ (oldestOffered t).pool = (oldestOffered s).pool := by
  unfold oldestOffered; rw [h1, h2]
  cases s.issuer.table.find? (fun e => e.state == .queued) with
  | none => exact ⟨h1, h2⟩
  | some e =>
    dsimp only
    cases s.pool.admitDown ⟨none, 0x40#8, .base, BitVec.ofNat 8 e.target :: e.command :: e.data, false, .issuer, []⟩ <;> simp [h1, h2]

/-- What entering READY at the end of an identification leaves: the timers and the damaged-frame run at their starts; for the session's first
READY the ATTACH notice and BASE-ATTACHED, for a later one the LINK notice; and the issuer's offer (R54, R75). -/
theorem enterReady_spec (u : State) :
    let t := enterReady u
    t.link.state = .ready ∧ t.att = u.att ∧ t.link.session = .hasBeenReady ∧ t.link.quiet = some 2500 ∧ t.link.keepAlive = some 5000 ∧
    t.link.damagedRun = 0 ∧ t.link.rate = u.link.rate ∧ t.link.describe = u.link.describe ∧ t.guard = u.guard ∧
    (u.link.session ≠ .hasBeenReady → t.policy.events = u.policy.events ++ [.baseAttached] ∧ KeepsNotice .link t u ∧
      (u.mgmt.enables.attach = true → ∃ p, t.mgmt.notices.attach = some p ∧
        p.notice = .attach (.attached u.att.ident.idSource u.att.ident.model))) ∧
    (u.link.session = .hasBeenReady → t.policy.events = u.policy.events ∧ KeepsNotice .attach t u ∧
      (u.mgmt.enables.link = true → ∃ p, t.mgmt.notices.link = some p ∧ p.notice = .link (.restored u.link.rate))) ∧
    (u.issuer.waiting = none → (∀ e ∈ u.issuer.table, e.state ≠ .issued) →
      t.issuer = (oldestOffered u).issuer ∧ t.pool = (oldestOffered u).pool) ∧
    ((u.issuer.waiting.isSome = true ∨ ∃ e ∈ u.issuer.table, e.state = .issued) → t.issuer = u.issuer ∧ t.pool = u.pool) := by
  intro t
  let v := setLinkState .ready u
  let w : State := { v with link := { v.link with damagedRun := 0, quiet := startMs 250, keepAlive := startMs 500, session := .hasBeenReady } }
  let x : State := if (v.link.session != .hasBeenReady) = true then postEvent .baseAttached (post (.attach (.attached w.att.ident.idSource w.att.ident.model)) w) else post (.link (.restored w.link.rate)) w
  have tx : t = tryOffer x := rfl
  have vl : v.link = { u.link with state := .ready } := by simp [v, keepsRate]
  have xl : x.link = w.link := by simp only [x]; split <;> simp [postEvent]
  have xi : x.issuer = u.issuer ∧ x.pool = u.pool ∧ x.att = u.att ∧ x.guard = u.guard := by
    simp only [x, w, v]; split <;> simp [postEvent]
  have keep : ∀ y : State, (oldestOffered y).link = y.link ∧ (oldestOffered y).att = y.att ∧ (oldestOffered y).guard = y.guard ∧
      (oldestOffered y).policy = y.policy ∧ (oldestOffered y).mgmt = y.mgmt := by
    intro y; rw [oldestOffered_frame]; simp
  have tk : t.link = x.link ∧ t.att = x.att ∧ t.guard = x.guard ∧ t.policy = x.policy ∧ t.mgmt = x.mgmt := by
    rw [tx, tryOffer_eq]; split
    · exact keep x
    · simp
  obtain ⟨k1, k2, k3, k4, k5⟩ := tk
  have wl : w.link = { u.link with state := .ready, damagedRun := 0, quiet := startMs 250, keepAlive := startMs 500, session := .hasBeenReady } := by simp only [w]; rw [vl]
  have vn : ∀ k, k ≠ .sleep → KeepsNotice k w u := by intro k hk; exact keepsNotice_trans (keepsNotice_of rfl) (setLinkState_notice k .ready u hk)
  have wa : w.att = u.att := by simp [w, v]
  have we : w.policy.events = u.policy.events := by simp [w, v]
  refine ⟨by rw [k1, xl, wl], by rw [k2, xi.2.2.1], by rw [k1, xl, wl], by rw [k1, xl, wl]; rfl, by rw [k1, xl, wl]; rfl, by rw [k1, xl, wl], by rw [k1, xl, wl], by rw [k1, xl, wl], by rw [k3, xi.2.2.2], ?_, ?_, ?_, ?_⟩
  · intro h
    have xe : x = postEvent .baseAttached (post (.attach (.attached w.att.ident.idSource w.att.ident.model)) w) := by
      simp only [x]; rw [if_pos]; rw [vl]; simpa using h
    refine ⟨by rw [k4, xe]; simp [postEvent, we], ?_, ?_⟩
    · have : KeepsNotice .link x w := by rw [xe]; exact keepsNotice_trans (postEvent_notice _ _ _) (post_notice _ _ _ (by simp [Notice.kind]))
      exact keepsNotice_trans (keepsNotice_of k5) (keepsNotice_trans this (vn _ (by simp)))
    · intro he
      have := post_pending (.attach (.attached w.att.ident.idSource w.att.ident.model)) w (by have := (vn .attach (by simp)).2; rw [this]; exact he)
      obtain ⟨p, hp, hn⟩ := this
      refine ⟨p, ?_, by rw [hn, wa]⟩
      rw [k5, xe]; exact hp
  · intro h
    have xe : x = post (.link (.restored w.link.rate)) w := by
      simp only [x]; rw [if_neg]; rw [vl]; simpa using h
    refine ⟨by rw [k4, xe]; simp [we], ?_, ?_⟩
    · have : KeepsNotice .attach x w := by rw [xe]; exact post_notice _ _ _ (by simp [Notice.kind])
      exact keepsNotice_trans (keepsNotice_of k5) (keepsNotice_trans this (vn _ (by simp)))
    · intro he
      have := post_pending (.link (.restored w.link.rate)) w (by have := (vn .link (by simp)).2; rw [this]; exact he)
      obtain ⟨p, hp, hn⟩ := this
      refine ⟨p, ?_, by rw [hn, wl]⟩
      rw [k5, xe]; exact hp
  · intro h1 h2
    rw [tx, tryOffer_eq, if_pos ⟨by rw [xi.1]; exact h1, by rw [xi.1]; exact h2, by rw [xl, wl]; rfl⟩]
    exact oldestOffered_congr xi.1 xi.2.1
  · intro h
    rw [tx, tryOffer_eq, if_neg]
    · exact ⟨xi.1, xi.2.1⟩
    · rintro ⟨a, b, _⟩; rw [xi.1] at a b
      rcases h with h | ⟨e, m, k⟩
      · simp [a] at h
      · exact b e m k

/-- UNPOWERED leaves ATTACH(UNPOWERED) pending, the demand with it (R61). -/
theorem enterUnpowered_posts (d : Nat) (s : State) (h : s.mgmt.enables.attach = true) :
    ∃ p, (enterUnpowered d s).mgmt.notices.attach = some p ∧ p.notice = .attach (.unpowered d) := by
  refine post_pending (.attach (.unpowered d)) _ ?_
  have k := keepsNotice_trans (releaseBase_notice .attach _ (by simp)) (enteredDown_notice .attach .unpowered .unpowered s (by simp))
  rw [k.2]; exact h

/-- FAULTED leaves ATTACH(FAULTED) pending (R62). -/
theorem enterFaulted_posts (s : State) (h : s.mgmt.enables.attach = true) :
    ∃ p, (enterFaulted s).mgmt.notices.attach = some p ∧ p.notice = .attach .faulted := by
  refine post_pending (.attach .faulted) _ ?_
  have k := keepsNotice_trans (releaseBase_notice .attach _ (by simp)) (enteredDown_notice .attach .faulted .faulted s (by simp))
  rw [k.2]; exact h

/-- What ends the link in a state ends it in every state that it shares the link's parts with. -/
theorem linkEnded_from {cause : DiagEnd} {s u t : State} (h : LinkEnded cause u t) (hi : u.issuer = s.issuer) (hp : u.pool = s.pool)
    (hl : u.link = s.link) (hr : u.route = s.route) (ha : u.att = s.att) : LinkEnded cause s t := by
  obtain ⟨h1, h2, h3, h4, h5, h6, h7, h8, h9, h10⟩ := h
  refine ⟨?_, by rw [h2, hp], h3, h4, h5, h6, h7, by rw [h8, hr], h9, by rw [h10, ha, hl]⟩
  rw [h1]; simp only [requestsGone, hi]

/-- POWERING without room for the allowance ends in UNPOWERED with its notice (R45, R61). -/
theorem enterPowering_refused (b : Bool) (s : State) (h0 : s.guard.baseGrant = 0) (hb : s.guard.budget < 250) (hs : s.link.state ≠ .diagnosing) :
    LinkEnded .unpowered s (enterPowering b s) ∧ (enterPowering b s).att.present = s.att.present ∧
    (s.mgmt.enables.attach = true → ∃ p, (enterPowering b s).mgmt.notices.attach = some p ∧ p.notice = .attach (.unpowered 250)) := by
  have cl : (claimBase b allowance (setLinkState .powering s)).2 = false := by
    by_contra h
    have := (claimBase_granted b allowance (setLinkState .powering s)).mp (by simpa using h)
    have g : (setLinkState .powering s).guard = s.guard := by simp
    simp only [Guard.budget] at *
    rw [g] at this; simp only [allowance] at this; omega
  have e : enterPowering b s = enterUnpowered allowance (setLinkState .powering s) := by
    have c := claimBase_refused _ _ _ cl
    unfold enterPowering; dsimp only; rw [cl, c]; rfl
  rw [e]
  have en := enterUnpowered_ended allowance (setLinkState .powering s)
  refine ⟨?_, ?_, fun h => enterUnpowered_posts _ _ (by rw [(setLinkState_notice .attach _ _ (by simp)).2]; exact h)⟩
  · obtain ⟨h1, h2, h3, h4, h5, h6, h7, h8, h9, h10⟩ := en
    refine ⟨?_, by rw [h2]; simp, h3, h4, h5, h6, h7, by rw [h8]; simp [setLinkState], h9, ?_⟩
    · rw [h1]; simp [requestsGone]
    · rw [h10]; simp [hs]
  · simp [enterUnpowered, flushDown, stopLinkTimers]

/-- A detach ends the link (R63, R68). -/
theorem detachBase_ended (s : State) : LinkEnded .detach s (detachBase s) ∧ (detachBase s).att.present = false := by
  have ed : (endDiagnosis .detach s).issuer = s.issuer ∧ (endDiagnosis .detach s).pool = s.pool ∧ (endDiagnosis .detach s).link = s.link ∧
      (endDiagnosis .detach s).route = s.route ∧ (endDiagnosis .detach s).posture = s.posture ∧ (endDiagnosis .detach s).att = { s.att with
      diagnosis :=
        if s.link.state = .diagnosing then s.att.diagnosis.map (fun d => { d with endedBy := some .detach }) else s.att.diagnosis } := by
    unfold endDiagnosis; split <;> simp_all
  unfold detachBase; dsimp only
  generalize endDiagnosis .detach s = u at *
  obtain ⟨e1, e2, e3, e4, e5, e6⟩ := ed
  have i := linkEnding_issuer (stopLinkTimers { u with att := { u.att with present := false }, link := { u.link with session := .none } })
  have j : (requestsGone (stopLinkTimers { u with att := { u.att with present := false }, link := { u.link with session := .none } })).issuer =
      (requestsGone s).issuer := by simp only [requestsGone, stopLinkTimers, e1]
  have w : ∀ v : State, v.att.present = false → (postureDetached v).posture.baseRun = none := fun v hv =>
    (postureDetached_spec v hv).2.2.2.2.2.2.2.1
  unfold LinkEnded postEvent
  refine ⟨⟨?_, ?_, ?_, ?_, ?_, ?_, ?_, ?_, ?_, ?_⟩, ?_⟩
  · simp [flushDown, i, j]
  · simp [flushDown, stopLinkTimers, e2]
  · simp [keepsRate]
  · simp [flushDown, stopLinkTimers]
  · simp [flushDown, stopLinkTimers]
  · simp [flushDown, stopLinkTimers]
  · simp [flushDown, stopLinkTimers]
  · simp [flushDown, stopLinkTimers, setLinkState, e4]
  · simp only [post_frame]; exact w _ (by simp [flushDown, stopLinkTimers])
  · simp [flushDown, stopLinkTimers, e6]
  · simp [flushDown, stopLinkTimers]

end Sys2Proof.Machine
end

