-- ==== Sys2Proof/Laws/Told.lean ====
section
/-! SUPPORT. What is told of the pen and of the posture: the CHARGE notice and the indicator input of a change of session, the pen grant after
a claim, a release or a step down, what the charger makes of it, and the evaluation of the posture. -/
namespace Sys2Proof.Machine
set_option linter.all false

/-! ## Sessions -/

/-- Every change of session is told (R147, R183). -/
theorem goSession_told (new : PenState) (f : Option FaultCause) (c : ClaimStep) (s : State) :
    SessionTold s.pen.session s (goSession new f c s) := by
  have hc : ∀ u : State, (claimStep c u).mgmt.enables = u.mgmt.enables ∧ (claimStep c u).pen = u.pen := by
    intro u
    cases c with
    | keep => exact ⟨rfl, rfl⟩
    | claim l => exact ⟨(postBudget_notice .charge _ _ _ (by simp)).2, by simp [claimStep]⟩
    | release => exact ⟨(postBudget_notice .charge _ _ _ (by simp)).2, by simp [claimStep]⟩
  have ha : ∀ u : State, (armPenTimer u).mgmt = u.mgmt := by intro u; unfold armPenTimer; (repeat' split) <;> rfl
  have hh : ∀ u : State, (setHold .chargeStarting (new == .softStart) u).mgmt.enables = u.mgmt.enables :=
    fun u => (setHold_notice .charge _ _ u (by simp)).2
  have e : ∃ u : State, goSession new f c s = post (.charge new s.pen.session f u.pen.docked u.guard.penGrant u.pen.battery) u ∧
      u.mgmt.enables = s.mgmt.enables ∧ u.pen.session = new ∧ u.pen.fault = f ∧ u.policy.inputs.charge = chargeLevelOn new :=
    ⟨_, rfl, by simp [ha, hc, hh, stopPenTimers], by simp [hc, stopPenTimers], by simp [hc, stopPenTimers], by simp [setInputs]⟩
  obtain ⟨u, e, hu, h1, h2, h3⟩ := e
  rw [e]
  refine ⟨?_, fun he => ?_⟩
  · simp only [post_frame, h1, h3]; cases new <;> simp [chargeLevelOn]
  · obtain ⟨p, hp, hn⟩ := post_pending (.charge new s.pen.session f u.pen.docked u.guard.penGrant u.pen.battery) u (by rw [hu]; exact he)
    exact ⟨p, hp, by rw [hn]; simp [h1, h2]⟩

/-- What is told is of the state before alone by the enable of its notice. -/
theorem sessionTold_congr {old : PenState} {s s' t : State} (h : s'.mgmt.enables = s.mgmt.enables) (k : SessionTold old s t) :
    SessionTold old s' t := ⟨k.1, fun he => k.2 (by rw [← h]; exact he)⟩

/-- A change of session keeps the enables. -/
theorem goSession_enables (new : PenState) (f : Option FaultCause) (c : ClaimStep) (s : State) :
    (goSession new f c s).mgmt.enables = s.mgmt.enables := by
  cases c with
  | keep => exact (goSession_notice .start _ _ _ _ (by simp)).2
  | claim l => exact (goSession_notice .start _ _ _ _ (by simp)).2
  | release => exact (goSession_notice .start _ _ _ _ (by simp)).2

/-- A claim is granted the highest level that fits (R125, R128). -/
theorem penClaim_highest (g : Guard) (l : PenLevel) : (g.penClaim l).penGrant = highestFit g g.baseGrant l := penClaim_best g l

theorem highestFit_congr {g h : Guard} (hc : g.cap = h.cap) (hp : g.profiles = h.profiles) (ha : g.active = h.active) (base : Nat) (l : PenLevel) :
    highestFit g base l = highestFit h base l := by
  unfold highestFit Guard.budget; rw [hc, hp, ha]

/-- A session that releases its claim is told (R149, R157, R158). -/
theorem goSession_releases (new : PenState) (f : Option FaultCause) (s : State) (h : drawing new = false) :
    SessionReleases new f s (goSession new f .release s) := by
  refine ⟨by simp, by simp, by rw [goSession_claimed]; simp [claimStep], by rw [goSession_grant]; simp [claimStep],
    by rw [goSession_coil]; simp [h], ?_, goSession_told _ _ _ _⟩
  rw [goSession_hold]; cases new <;> first | rfl | simp [drawing] at h

/-- A session that claims is told with its claim where it finds room, and else PAUSED with the claim kept (R128, R156). -/
theorem claimSession_claims (new : PenState) (l : PenLevel) (s : State) : SessionClaims new l s (claimSession new l s) := by
  have k := penClaim_highest s.guard l
  have st : KeepsSettings (claimSession new l s).guard s.guard := by simp [KeepsSettings, KeepsMarks]
  simp only [KeepsSettings] at st
  have eb : highestFit (claimSession new l s).guard (claimSession new l s).guard.baseGrant l = highestFit s.guard s.guard.baseGrant l := by
    rw [highestFit_congr st.2.2.2.1 st.1 st.2.1, st.2.2.1]
  refine ⟨?_, (claimSession_pen new l s).1, ?_⟩
  · cases h : (s.guard.penClaim l).penGrant with
    | none => exact (claimSession_noRoom new l s h).2.2.2.1
    | some g => exact (claimSession_room new l g s h).2.2.2
  · rw [eb]
    cases hb : highestFit s.guard s.guard.baseGrant l with
    | some g =>
      have r := claimSession_room new l g s (k.trans hb)
      refine ⟨r.2.2.1, r.2.1, ?_, ?_⟩
      · rw [r.1, goSession_hold]; cases new <;> rfl
      · rw [r.1]; exact goSession_told _ _ _ _
    | none =>
      have r := claimSession_noRoom new l s (k.trans hb)
      refine ⟨r.2.2.1, r.1, r.2.2.2.2.1, r.2.2.2.2.2, ?_⟩
      have gr : (goSession new none (.claim l) s).guard.penGrant = none := by rw [goSession_grant]; simp [claimStep, k, hb]
      have e : claimSession new l s = goSession .paused none .keep (goSession new none (.claim l) s) := by simp [claimSession, gr]
      have h := goSession_told .paused none .keep (goSession new none (.claim l) s)
      have hs : (goSession new none (.claim l) s).pen.session = new := by simp
      rw [hs] at h
      rw [e]
      exact sessionTold_congr (goSession_enables _ _ _ _).symm h

/-- Entry to DETECT, or to HELD under a hold (R151, R158). -/
theorem enterDetect_told (s : State) :
    (s.pen.hold.isSome = true → SessionReleases .held none s (enterDetect s)) ∧
    (s.pen.hold.isSome = false → SessionClaims .detect .trickle s (enterDetect s)) := by
  unfold enterDetect
  refine ⟨fun h => ?_, fun h => ?_⟩
  · rw [if_pos h]; exact goSession_releases _ _ _ rfl
  · rw [if_neg (by simp [h])]; exact claimSession_claims _ _ _

/-- Entry to SOFT-START, or to HELD under a hold (R153, R158). -/
theorem enterSoftStart_told (s : State) :
    (s.pen.hold.isSome = true → SessionReleases .held none s (enterSoftStart s)) ∧
    (s.pen.hold.isSome = false → SessionClaims .softStart s.pen.requested s (enterSoftStart s)) := by
  unfold enterSoftStart
  refine ⟨fun h => ?_, fun h => ?_⟩
  · rw [if_pos h]; exact goSession_releases _ _ _ rfl
  · rw [if_neg (by simp [h])]; exact claimSession_claims _ _ _

theorem resumeSession_resumes (s : State) : SessionResumes s (resumeSession s) := by
  unfold SessionResumes resumeSession
  cases hh : s.pen.hold.isSome <;> cases hd : s.pen.docked
  · exact (enterDetect_told s).2 hh
  · exact (enterSoftStart_told s).2 hh
  · exact (enterDetect_told s).1 hh
  · exact (enterSoftStart_told s).1 hh

/-! ## The guard's change of the pen grant (R156) -/

/-- What the charger's answer to the guard reads of the state is as it was, but for the grants. -/
@[reducible] def KeepsSession (u s : State) : Prop :=
  u.pen.session = s.pen.session ∧ u.pen.docked = s.pen.docked ∧ u.pen.hold = s.pen.hold ∧ u.pen.requested = s.pen.requested ∧
  u.guard.claimed = s.guard.claimed ∧ u.sleep.holds.chargeStarting = s.sleep.holds.chargeStarting ∧
  u.policy.inputs.charge = s.policy.inputs.charge ∧ u.mgmt.notices.charge = s.mgmt.notices.charge ∧ u.mgmt.enables = s.mgmt.enables

/-- What an operation beside the pen leaves of its session, its grants and what is told of it. -/
@[reducible] def KeepsTold (v t : State) : Prop :=
  v.guard.penGrant = t.guard.penGrant ∧ v.guard.claimed = t.guard.claimed ∧ v.guard.coilOn = t.guard.coilOn ∧
  v.guard.baseGrant = t.guard.baseGrant ∧ v.guard.cap = t.guard.cap ∧ v.guard.profiles = t.guard.profiles ∧
  v.guard.active = t.guard.active ∧ v.pen.session = t.pen.session ∧ v.pen.fault = t.pen.fault ∧ v.pen.docked = t.pen.docked ∧
  v.pen.battery = t.pen.battery ∧ v.sleep.holds.chargeStarting = t.sleep.holds.chargeStarting ∧
  v.policy.inputs.charge = t.policy.inputs.charge ∧ v.mgmt.notices.charge = t.mgmt.notices.charge

theorem keepsSession_trans {a b c : State} (h : KeepsSession a b) (k : KeepsSession b c) : KeepsSession a c := by
  simp only [KeepsSession] at *; simp_all

theorem keepsTold_trans {a b c : State} (h : KeepsTold a b) (k : KeepsTold b c) : KeepsTold a c := by
  simp only [KeepsTold] at *; simp_all

/-- A session's claim, release or resumption carries over between states that agree on what it reads and tells. -/
theorem sessionClaims_congr {new : PenState} {l : PenLevel} {s s' t t' : State} (h : s'.pen.session = s.pen.session)
    (hd : s'.pen.docked = s.pen.docked) (he : s'.mgmt.enables = s.mgmt.enables) (k : KeepsTold t' t) (c : SessionClaims new l s t) :
    SessionClaims new l s' t' := by
  obtain ⟨k1, k2, k3, k4, k5, k6, k7, k8, k9, k10, k11, k12, k13, k14⟩ := k
  simp only [SessionClaims, SessionTold, highestFit_congr k5 k6 k7] at c ⊢
  rw [k1, k2, k3, k4, k8, k9, k10, k11, k12, k13, k14, h, hd, he]
  exact c

theorem sessionReleases_congr {new : PenState} {f : Option FaultCause} {s s' t t' : State} (h : s'.pen.session = s.pen.session)
    (he : s'.mgmt.enables = s.mgmt.enables) (k : KeepsTold t' t) (c : SessionReleases new f s t) : SessionReleases new f s' t' := by
  obtain ⟨k1, k2, k3, k4, k5, k6, k7, k8, k9, k10, k11, k12, k13, k14⟩ := k
  simp only [SessionReleases, SessionTold] at c ⊢
  rw [k1, k2, k3, k8, k9, k10, k11, k12, k13, k14, h, he]
  exact c

theorem keepsTold_refl (t : State) : KeepsTold t t := by simp [KeepsTold]

theorem sessionResumes_congr {s s' t t' : State} (h : KeepsSession s' s) (k : KeepsTold t' t) (c : SessionResumes s t) :
    SessionResumes s' t' := by
  obtain ⟨h1, h2, h3, h4, h5, h6, h7, h8, h9⟩ := h
  unfold SessionResumes at c ⊢
  rw [h3, h2, h4]
  split at c
  · rename_i e; rw [if_pos e]; exact sessionReleases_congr h1 h9 k c
  · rename_i e
    rw [if_neg e]
    split at c
    · rename_i d; rw [if_pos d]; exact sessionClaims_congr h1 h2 h9 k c
    · rename_i d; rw [if_neg d]; exact sessionClaims_congr h1 h2 h9 k c

/-- The charger's answer carries over to what an operation beside the pen makes of the state. -/
theorem penFollows_after {g : Option PenLevel} {s t v : State} (k : KeepsTold v t) (h : PenFollows g s t) : PenFollows g s v := by
  have kk := k
  obtain ⟨k1, k2, k3, k4, k5, k6, k7, k8, k9, k10, k11, k12, k13, k14⟩ := k
  unfold PenFollows at h ⊢
  (repeat' split at h) <;> rename_i h'
  · rw [if_pos h']; simp only [SessionStays] at h ⊢; rw [k1, k2, k8, k12, k13, k14]; exact h
  all_goals rename_i e1
  · rw [if_neg e1, if_pos h']; simp only [SessionTold] at h ⊢; rw [k1, k2, k3, k8, k9, k10, k11, k12, k13, k14]; exact h
  all_goals rename_i e2
  · rw [if_neg e2, if_neg e1, if_pos h']; exact sessionResumes_congr (by simp [KeepsSession]) kk h
  · rw [if_neg e2, if_neg e1, if_neg h']; simp only [SessionStays] at h ⊢; rw [k1, k2, k8, k12, k13, k14]; exact h

/-- The charger's answer by cases (R156). -/
theorem penTold_eq (b : Option PenLevel) (u : State) : penTold b u =
    if u.guard.penGrant = b then u
    else if u.pen.session ∈ [.detect, .softStart, .charging, .topped] ∧ u.guard.penGrant = none then goSession .paused none .keep u
    else if u.pen.session = .paused ∧ u.guard.penGrant.isSome = true then resumeSession u
    else u := by
  unfold penTold
  split
  · rfl
  · cases u.pen.session <;> simp

/-- The charger's answer to a grant that the guard has written (R156). -/
theorem penTold_follows (s u : State) (k : KeepsSession u s) : PenFollows u.guard.penGrant s (penTold s.guard.penGrant u) := by
  have kk : KeepsSession s u := by simp only [KeepsSession] at k ⊢; simp [k]
  obtain ⟨k1, k2, k3, k4, k5, k6, k7, k8, k9⟩ := k
  have stays : SessionStays s u := ⟨k1, k5, k6, k7, k8⟩
  unfold PenFollows
  rw [penTold_eq, k1]
  split
  · exact ⟨rfl, stays⟩
  split
  · rename_i h
    have told := goSession_told .paused none .keep u
    rw [k1] at told
    exact ⟨by simp, by rw [goSession_claimed]; simpa [claimStep] using k5, by rw [goSession_grant]; simpa [claimStep] using h.2,
      by rw [goSession_coil]; simp [drawing], goSession_hold _ _ _ _, sessionTold_congr k9.symm told⟩
  split
  · exact sessionResumes_congr kk (keepsTold_refl _) (resumeSession_resumes u)
  · exact ⟨rfl, stays⟩

/-! ## The guard's figures (R126 to R131) -/

theorem bestFit_levels (b g : Nat) (l : PenLevel) : bestFit b g l = [PenLevel.fast, .steady, .trickle].find? (fun m =>
    decide (levelMw m ≤ levelMw l) && decide (levelMw m + g ≤ b)) := by
  unfold bestFit; congr 1; funext m; cases m <;> cases l <;> simp [rank, levelMw]

/-- A re-grant raises the pen grant as far as it fits (R129). -/
theorem regrant_grant (g : Guard) : g.regrant.penGrant = regranted g g.baseGrant := by
  unfold Guard.regrant Guard.target regranted
  cases hc : g.claimed with
  | none => rfl
  | some l =>
    cases hp : g.cap with
    | none =>
      have e : rank g.penGrant < rank (some l) ↔ grantMw g.penGrant < levelMw l := by
        cases g.penGrant with
        | none => cases l <;> simp [rank, grantMw, levelMw]
        | some p => cases p <;> cases l <;> simp [rank, grantMw, levelMw]
      simp only [e, Option.all_none, and_true]
      split
      · rw [bestFit_levels]; unfold highestFit; rw [hp]; simp
      · rfl
    | some c =>
      have e : rank g.penGrant < rank (some (minLevel l c)) ↔ grantMw g.penGrant < levelMw l ∧
          Option.all (fun c => decide (grantMw g.penGrant < levelMw c)) (some c) = true := by
        cases g.penGrant with
        | none => cases l <;> cases c <;> simp [rank, grantMw, levelMw, minLevel]
        | some p => cases p <;> cases l <;> cases c <;> simp [rank, grantMw, levelMw, minLevel]
      simp only [e]
      split
      · show bestFit _ _ _ = _
        rw [bestFit_levels]; unfold highestFit; rw [hp]
        congr 1; funext m; cases m <;> cases l <;> cases c <;> simp [minLevel, rank, levelMw]
      · rfl

theorem regrant_rest (g : Guard) : g.regrant = { g with penGrant := regranted g g.baseGrant } := by
  rw [← regrant_grant]; unfold Guard.regrant; (repeat' split) <;> rfl

/-- A pen grant beside which the other output no longer fits is stepped down (R126 step 2). -/
theorem stepDown_grant (b n : Nat) (p : Option PenLevel) (h : b < n + grantMw p) : stepDown b n p = steppedDown b n p := by
  unfold stepDown steppedDown
  cases p with
  | none =>
    simp only [Option.bind_none, grantMw]
    rfl
  | some l =>
    simp only [Option.bind_some, grantMw] at h ⊢
    cases l <;> simp only [stepLower]
    · have : ¬ 150 + n ≤ b := by simp only [levelMw] at h; omega
      simp [List.find?, levelMw, this]
    · rw [bestFit_levels]
      have : ¬ 500 + n ≤ b := by simp only [levelMw] at h; omega
      simp [List.find?, levelMw, this]
    · rw [bestFit_levels]
      have : ¬ 900 + n ≤ b := by simp only [levelMw] at h; omega
      simp [List.find?, levelMw, this]

theorem lowerPen_grant (b n : Nat) (p : Option PenLevel) : lowerPen b n p = steppedDown b n p := by
  unfold lowerPen steppedDown
  cases p with
  | none => rfl
  | some l => exact bestFit_levels _ _ _

/-- The guard after a base claim within the budget (R126). -/
theorem baseClaim_granted (g : Guard) (n : Nat) (h : n ≤ g.budget) :
    g.baseClaim n = some { g with baseGrant := n, penGrant := besideClaim g n } := by
  unfold Guard.baseClaim besideClaim
  by_cases hn : n = g.baseGrant
  · subst hn; rw [if_pos rfl, if_neg (fun k => k.2 rfl), if_neg (lt_irrefl _)]
  · rw [if_neg hn]
    by_cases hf : n + grantMw g.penGrant ≤ g.budget
    · rw [if_pos hf, if_neg (fun k => absurd hf (by omega))]
      dsimp only
      split
      · rw [regrant_rest]; rfl
      · rfl
    · rw [if_neg hf, if_pos h, if_pos ⟨by omega, hn⟩, stepDown_grant _ _ _ (by omega)]

theorem baseClaim_refused (g : Guard) (n : Nat) (h : g.budget < n) (hb : g.baseGrant ≤ g.budget) : g.baseClaim n = none := by
  unfold Guard.baseClaim
  rw [if_neg (by omega), if_neg (by omega), if_neg (by omega)]

/-- The guard after a release of the base grant (R127). -/
theorem baseRelease_grant (g : Guard) : g.baseRelease = { g with baseGrant := 0, penGrant := afterRelease g } := by
  unfold Guard.baseRelease afterRelease
  split
  · rename_i h; cases g; simp_all
  · rw [regrant_rest]; rfl

/-- The guard after a lowered budget (R130). -/
theorem lower_grant (g : Guard) (p : Profiles) (a : Nat) :
    let b := p.get a
    let g' : Guard := { g with profiles := p, active := a, penGrant := steppedDown b g.baseGrant g.penGrant }
    g.lower p a = if b < g.baseGrant then ({ g' with baseGrant := 0, penGrant := regranted g' 0 }, some g.baseGrant) else (g', none) := by
  intro b g'
  unfold Guard.lower; dsimp only
  rw [lowerPen_grant]
  split
  · rw [regrant_rest]; rfl
  · rfl

/-! ## The base's claims and releases, with the pen's answer and the BUDGET notice -/

/-- What the guard writes, switches and tells before the charger answers leaves the session as it was. -/
theorem written_keeps (s : State) (g : Guard) (before : Guard) (c : BudgetCause) (hg : g.claimed = s.guard.claimed) :
    KeepsSession (switchOutputs (postBudget before c { s with guard := g })) s := by
  have n := keepsNotice_trans (switchOutputs_notice .charge (postBudget before c { s with guard := g }))
    (postBudget_notice .charge before c { s with guard := g } (by simp))
  have i : (switchOutputs (postBudget before c { s with guard := g })).policy.inputs.charge = s.policy.inputs.charge := by
    unfold switchOutputs reportAlarm switchRail switchCoil armPenTimer stopPenTimers
    dsimp only [setInputs]; (repeat' split) <;> simp
  refine ⟨by simp, by simp, by simp, by simp, by simp [hg], by simp, i, ?_, n.2⟩
  exact n.1

/-- A BUDGET notice for the figures that a change writes, or none where they stay (R133). -/
theorem postBudget_told (before : Guard) (c : BudgetCause) (u : State) (he : u.mgmt.enables.budget = true) :
    (u.guard.figures = before.figures → (postBudget before c u).mgmt.notices.budget = u.mgmt.notices.budget) ∧
    (u.guard.figures ≠ before.figures → ∃ p, (postBudget before c u).mgmt.notices.budget = some p ∧
      p.notice = .budget u.guard.active u.guard.budget u.guard.baseGrant u.guard.penGrant u.guard.claimed u.guard.cap c) := by
  unfold postBudget
  refine ⟨fun h => by rw [if_pos h], fun h => ?_⟩
  rw [if_neg h]
  exact post_pending (.budget u.guard.active u.guard.budget u.guard.baseGrant u.guard.penGrant u.guard.claimed u.guard.cap c) u he

/-- What postBudget leaves of the BUDGET notice reads the guard, the enable and the notice that stands. -/
theorem postBudget_congr (before : Guard) (c : BudgetCause) (u v : State) (hg : u.guard = v.guard) (he : u.mgmt.enables = v.mgmt.enables)
    (hn : u.mgmt.notices.budget = v.mgmt.notices.budget) :
    (postBudget before c u).mgmt.notices.budget = (postBudget before c v).mgmt.notices.budget := by
  have ge : ∀ n : Notice, n.kind = .budget → (post n u).mgmt.notices.budget = (post n v).mgmt.notices.budget := by
    intro n h
    unfold post; dsimp only; rw [h, he]
    split
    · simp only [PerKind.get, PerKind.set, hn]
    · exact hn
  unfold postBudget
  rw [hg]
  split
  · exact hn
  · exact ge _ rfl

/-- The charger's answer of a session that is not PAUSED keeps the figures and posts no BUDGET notice. -/
theorem penTold_figures (b : Option PenLevel) (u : State) (h : u.pen.session ≠ .paused) :
    (penTold b u).guard.figures = u.guard.figures ∧ KeepsNotice .budget (penTold b u) u := by
  rw [penTold_eq]
  split
  · exact ⟨rfl, rfl, rfl⟩
  split
  · refine ⟨?_, goSession_notice _ _ _ _ _ (by simp)⟩
    have k : KeepsSettings (goSession .paused none .keep u).guard u.guard := by simp [KeepsSettings, KeepsMarks]
    simp only [KeepsSettings] at k
    have h1 := goSession_claimed .paused none .keep u
    have h2 := goSession_grant .paused none .keep u
    simp only [claimStep] at h1 h2
    simp only [Guard.figures, Guard.budget, h1, h2]
    rw [k.1, k.2.1, k.2.2.1, k.2.2.2.1]
  · rw [if_neg (fun k => h k.1)]; exact ⟨rfl, rfl, rfl⟩

/-- The outputs' switching leaves the session, the figures and what is told. -/
theorem switchOutputs_keeps (s : State) : KeepsSession (switchOutputs s) s ∧ (switchOutputs s).guard.figures = s.guard.figures ∧
    (switchOutputs s).mgmt.notices.budget = s.mgmt.notices.budget := by
  have i : (switchOutputs s).policy.inputs.charge = s.policy.inputs.charge := by
    unfold switchOutputs reportAlarm switchRail switchCoil armPenTimer stopPenTimers
    dsimp only [setInputs]; (repeat' split) <;> rfl
  have st : KeepsSettings (switchOutputs s).guard s.guard := by simp [KeepsSettings, KeepsMarks]
  simp only [KeepsSettings] at st
  refine ⟨⟨by simp, by simp, by simp, by simp, by simp, by simp, i, by simp, by simp⟩, ?_, by simp⟩
  simp only [Guard.figures, Guard.budget]; rw [st.1, st.2.1, st.2.2.1, st.2.2.2.1]; simp

/-- The guard has written its figures and posted them, and the charger is told (R133, R156). -/
theorem guardTold (s w : State) (g : Guard) (c : BudgetCause) (k : KeepsSession w s) (hf : w.guard.figures = g.figures)
    (hn : w.mgmt.notices.budget = (postBudget s.guard c { s with guard := g }).mgmt.notices.budget) :
    PenFollows g.penGrant s (penTold s.guard.penGrant w) ∧ BudgetTold c s (penTold s.guard.penGrant w) := by
  have f := penTold_follows s w k
  have e : w.guard.penGrant = g.penGrant := by simp only [Guard.figures, Prod.mk.injEq] at hf; exact hf.2.2.2.1
  rw [e] at f
  refine ⟨f, fun hs he => ?_⟩
  have p := postBudget_told s.guard c { s with guard := g } he
  have q := penTold_figures s.guard.penGrant w (by rw [k.1]; exact hs)
  have fig := q.1.trans hf
  have n := q.2.1.trans hn
  simp only [PerKind.get] at n
  have ff := fig
  simp only [Guard.figures, Prod.mk.injEq] at ff
  obtain ⟨f1, f2, f3, f4, f5, f6⟩ := ff
  rw [fig, n, f1, f2, f3, f4, f5, f6]
  exact p

/-- A change of the guard's figures, written, switched, told to the charger and posted (R133, R134, R156). -/
theorem guardChange_told (s : State) (g : Guard) (c : BudgetCause) (hg : g.claimed = s.guard.claimed) :
    let t := penTold s.guard.penGrant (switchOutputs (postBudget s.guard c { s with guard := g }))
    PenFollows g.penGrant s t ∧ BudgetTold c s t := by
  have o := switchOutputs_keeps (postBudget s.guard c { s with guard := g })
  exact guardTold s _ g c (written_keeps s g s.guard c hg) (by rw [o.2.1]; simp) o.2.2

/-- A release of the base grant, with the pen re-granted (R127, R129). -/
theorem releaseBase_told (s : State) : PenFollows (afterRelease s.guard) s (releaseBase s) ∧ BudgetTold .baseRelease s (releaseBase s) := by
  have h := guardChange_told s s.guard.baseRelease .baseRelease (by rw [baseRelease_grant])
  rw [show s.guard.baseRelease.penGrant = afterRelease s.guard by rw [baseRelease_grant]] at h
  exact h

/-- A base claim within the budget, with the pen stepped down or re-granted (R126). -/
theorem claimBase_told (n : Nat) (s : State) (h : n ≤ s.guard.budget) : let r := claimBase false n s
    r.2 = true ∧ PenFollows (besideClaim s.guard n) s r.1 ∧ BudgetTold .baseClaim s r.1 := by
  intro r
  have e : r = (penTold s.guard.penGrant (switchOutputs (postBudget s.guard .baseClaim
      { s with guard := { s.guard with baseGrant := n, penGrant := besideClaim s.guard n } })), true) := by
    simp [r, claimBase, baseClaim_granted s.guard n h]
  rw [e]
  exact ⟨rfl, guardChange_told s { s.guard with baseGrant := n, penGrant := besideClaim s.guard n } .baseClaim rfl⟩

/-! ## Operations beside the pen -/

/-- An operation beside the guard and the pen: nothing of the two, and nothing that is told of them, changes. -/
@[reducible] def Beside (u s : State) : Prop :=
  u.guard = s.guard ∧ u.pen = s.pen ∧ u.sleep.holds.chargeStarting = s.sleep.holds.chargeStarting ∧
  u.policy.inputs.charge = s.policy.inputs.charge ∧ u.mgmt.notices.charge = s.mgmt.notices.charge ∧
  u.mgmt.notices.budget = s.mgmt.notices.budget ∧ u.mgmt.enables = s.mgmt.enables

theorem beside_trans {a b c : State} (h : Beside a b) (k : Beside b c) : Beside a c := by simp only [Beside] at *; simp_all

theorem beside_of {u s : State} (hg : u.guard = s.guard) (hp : u.pen = s.pen) (hs : u.sleep = s.sleep) (hi : u.policy.inputs = s.policy.inputs)
    (hm : u.mgmt = s.mgmt) : Beside u s := ⟨hg, hp, by rw [hs], by rw [hi], by rw [hm], by rw [hm], by rw [hm]⟩

theorem post_beside (n : Notice) (s : State) (h : n.kind ≠ .charge ∧ n.kind ≠ .budget) : Beside (post n s) s :=
  ⟨by simp, by simp, by simp, by simp, (post_notice .charge n s h.1.symm).1, (post_notice .budget n s h.2.symm).1,
    (post_notice .charge n s h.1.symm).2⟩

theorem postEvent_beside (e : PolicyEvent) (s : State) : Beside (postEvent e s) s := beside_of rfl rfl rfl rfl rfl

theorem removeHold_beside (r : Holdoff) (s : State) (h : r ≠ .chargeStarting) : Beside (removeHold r s) s := by
  refine ⟨by simp, by simp, ?_, by simp, (removeHold_notice .charge r s (by simp)).1, (removeHold_notice .budget r s (by simp)).1,
    (removeHold_notice .charge r s (by simp)).2⟩
  unfold removeHold sleepAsk
  dsimp only
  (repeat' split) <;> (try simp) <;> cases r <;> first | rfl | exact absurd rfl h

theorem setHold_beside (r : Holdoff) (b : Bool) (s : State) (h : r ≠ .chargeStarting) : Beside (setHold r b s) s := by
  unfold setHold; split
  · refine ⟨rfl, rfl, ?_, rfl, rfl, rfl, rfl⟩
    cases r <;> first | rfl | exact absurd rfl h
  · exact removeHold_beside r s h

theorem setInputs_beside (n : LedInputs) (s : State) (h : n.charge = s.policy.inputs.charge) : Beside (setInputs n s) s :=
  ⟨rfl, rfl, rfl, h, rfl, rfl, rfl⟩

theorem setLinkState_beside (new : LinkState) (s : State) : Beside (setLinkState new s) s := by
  have h : ∀ u : State, Beside u s → Beside (setInputs { (setHold .baseIdentifying (identifyingHeld new) u).policy.inputs with
      attach := new.isUp } (setHold .baseIdentifying (identifyingHeld new) u)) s := by
    intro u hu
    exact beside_trans (setInputs_beside _ _ rfl) (beside_trans (setHold_beside _ _ _ (by simp)) hu)
  exact h _ (beside_of rfl rfl rfl rfl rfl)

theorem linkEnding_beside (s : State) : Beside (linkEnding s) s :=
  beside_trans (setHold_beside .requestPending _ _ (by simp)) (beside_of rfl rfl rfl rfl rfl)

/-- What an entry to a state without a link does before the base's grant is released. -/
theorem entered_beside (d : DiagEnd) (new : LinkState) (s : State) :
    Beside (setLinkState new (flushDown (linkEnding (stopLinkTimers (endDiagnosis d s))))) s := by
  have e : Beside (endDiagnosis d s) s := by unfold endDiagnosis; split <;> exact beside_of rfl rfl rfl rfl rfl
  have f : ∀ u : State, Beside (flushDown u) u := fun u => beside_of (by simp [flushDown]) (by simp [flushDown]) (by simp [flushDown])
    (by simp [flushDown]) (by simp [flushDown])
  exact beside_trans (setLinkState_beside _ _) (beside_trans (f _) (beside_trans (linkEnding_beside _) (beside_trans (beside_of rfl rfl rfl rfl rfl) e)))

theorem evaluate_beside (s : State) : Beside (evaluate s) s := by
  unfold evaluate; dsimp only; split
  · exact beside_of rfl rfl rfl rfl rfl
  · exact beside_trans (postEvent_beside _ _) (beside_trans (post_beside _ _ (by simp [Notice.kind])) (beside_of rfl rfl rfl rfl rfl))

theorem applyReference_beside (src : RefSource) (n : Nat) (s : State) : Beside (applyReference src n s) s := by
  unfold applyReference
  (repeat' split) <;>
    first
    | exact beside_trans (post_beside _ _ (by simp [Notice.kind])) (beside_of rfl rfl rfl rfl rfl)
    | exact beside_of rfl rfl rfl rfl rfl

theorem posturePresent_beside (s : State) : Beside (posturePresent s) s := by
  have r : Beside (readCode s) s := by
    unfold readCode faultNoted; split
    · exact beside_of rfl rfl rfl rfl rfl
    · exact beside_trans (post_beside _ _ (by simp [Notice.kind])) (beside_of rfl rfl rfl rfl rfl)
  have h : ∀ u : State, Beside u s → Beside (removeHold .hingeMoving
      { u with posture := { u.posture with count := none, moving := false, settle := none, lidOpened := false, window := none } }) s :=
    fun u hu => beside_trans (removeHold_beside _ _ (by simp)) (beside_trans (beside_of rfl rfl rfl rfl rfl) hu)
  unfold posturePresent; dsimp only
  have k := h _ r
  generalize removeHold .hingeMoving _ = v at k ⊢
  split
  · exact beside_trans (evaluate_beside _) (beside_trans (postEvent_beside _ _) (beside_trans (applyReference_beside _ _ _)
      (beside_trans (beside_of rfl rfl rfl rfl rfl) k)))
  · split
    · exact beside_trans (evaluate_beside _) (beside_trans (applyReference_beside _ _ _) k)
    · exact beside_trans (evaluate_beside _) k

theorem postureDetached_beside (s : State) : Beside (postureDetached s) s := by
  have h : ∀ u : State, Beside u s → Beside (removeHold .hingeMoving u) s := fun u hu => beside_trans (removeHold_beside _ _ (by simp)) hu
  have e : ∀ v : State, Beside v s → Beside (evaluate (if v.pins.lidClosed then postEvent .lidOpened v else v)) s := by
    intro v hv
    refine beside_trans (evaluate_beside _) ?_
    split
    · exact beside_trans (postEvent_beside _ _) hv
    · exact hv
  exact e _ (h _ (beside_of rfl rfl rfl rfl rfl))

theorem enterReady_beside (s : State) : Beside (enterReady s) s := by
  have t : ∀ u : State, Beside (tryOffer u) u := fun u => beside_of (by simp) (by simp) (by simp) (by simp) (by simp)
  have k := setLinkState_beside .ready s
  unfold enterReady; dsimp only
  generalize setLinkState .ready s = u at k ⊢
  refine beside_trans (t _) ?_
  split
  · exact beside_trans (postEvent_beside _ _) (beside_trans (post_beside _ _ (by simp [Notice.kind])) (beside_trans (beside_of rfl rfl rfl rfl rfl) k))
  · exact beside_trans (post_beside _ _ (by simp [Notice.kind])) (beside_trans (beside_of rfl rfl rfl rfl rfl) k)

theorem beside_told {u s : State} (h : Beside u s) : KeepsTold u s := by
  obtain ⟨h1, h2, h3, h4, h5, h6, h7⟩ := h
  simp [KeepsTold, h1, h2, h3, h4, h5]

theorem beside_session {u s : State} (h : Beside u s) : KeepsSession u s := by
  obtain ⟨h1, h2, h3, h4, h5, h6, h7⟩ := h
  simp [KeepsSession, h1, h2, h3, h4, h5, h7]

/-- What the guard did to the pen between two states, seen from before and after operations beside them. -/
theorem penFollows_between {g : Option PenLevel} {s u t v : State} (a : KeepsSession u s) (ag : u.guard.penGrant = s.guard.penGrant)
    (k : KeepsTold v t) (h : PenFollows g u t) : PenFollows g s v := by
  refine penFollows_after k ?_
  have aa : KeepsSession s u := by simp only [KeepsSession] at a ⊢; simp [a]
  obtain ⟨a1, a2, a3, a4, a5, a6, a7, a8, a9⟩ := a
  unfold PenFollows at h ⊢
  rw [← ag, ← a1]
  (repeat' split at h) <;> rename_i h'
  · rw [if_pos h']; simp only [SessionStays] at h ⊢; rw [← a1, ← a5, ← a6, ← a7, ← a8]; exact h
  all_goals rename_i e1
  · rw [if_neg e1, if_pos h']; refine ⟨h.1, by rw [← a5]; exact h.2.1, h.2.2.1, h.2.2.2.1, h.2.2.2.2.1, sessionTold_congr a9.symm h.2.2.2.2.2⟩
  all_goals rename_i e2
  · rw [if_neg e2, if_neg e1, if_pos h']; exact sessionResumes_congr aa (keepsTold_refl _) h
  · rw [if_neg e2, if_neg e1, if_neg h']; simp only [SessionStays] at h ⊢; rw [← a1, ← a5, ← a6, ← a7, ← a8]; exact h

theorem budgetTold_between {c : BudgetCause} {s u t v : State} (a : u.guard.figures = s.guard.figures) (ab : u.mgmt.notices.budget = s.mgmt.notices.budget)
    (ae : u.mgmt.enables = s.mgmt.enables) (as : u.pen.session = s.pen.session) (k : v.guard.figures = t.guard.figures)
    (kb : v.mgmt.notices.budget = t.mgmt.notices.budget) (h : BudgetTold c u t) : BudgetTold c s v := by
  intro hs he
  have h' := h (by rw [as]; exact hs) (by rw [ae]; exact he)
  have kk := k
  simp only [Guard.figures, Prod.mk.injEq] at kk
  obtain ⟨f1, f2, f3, f4, f5, f6⟩ := kk
  rw [k, kb, ← a, ← ab, f1, f2, f3, f4, f5, f6]
  exact h'

/-- The base's claims and releases, seen from before and after operations beside the guard and the pen. -/
theorem told_between {g : Option PenLevel} {c : BudgetCause} {s u t v : State} (a : Beside u s) (k : Beside v t)
    (h : PenFollows g u t ∧ BudgetTold c u t) : PenFollows g s v ∧ BudgetTold c s v :=
  ⟨penFollows_between (beside_session a) (by rw [a.1]) (beside_told k) h.1,
    budgetTold_between (by rw [a.1]) a.2.2.2.2.2.1 a.2.2.2.2.2.2 (by rw [a.2.1]) (by rw [k.1]) k.2.2.2.2.2.1 h.2⟩

/-- UNPOWERED releases the base's grant (R61, R127). -/
theorem enterUnpowered_told (d : Nat) (s : State) :
    PenFollows (afterRelease s.guard) s (enterUnpowered d s) ∧ BudgetTold .baseRelease s (enterUnpowered d s) := by
  have e := entered_beside .unpowered .unpowered s
  have r := releaseBase_told (setLinkState .unpowered (flushDown (linkEnding (stopLinkTimers (endDiagnosis .unpowered s)))))
  rw [e.1] at r
  exact told_between e (post_beside _ _ (by simp [Notice.kind])) r

/-- FAULTED releases the base's grant (R62, R127). -/
theorem enterFaulted_told (s : State) :
    PenFollows (afterRelease s.guard) s (enterFaulted s) ∧ BudgetTold .baseRelease s (enterFaulted s) := by
  have e := entered_beside .faulted .faulted s
  have r := releaseBase_told (setLinkState .faulted (flushDown (linkEnding (stopLinkTimers (endDiagnosis .faulted s)))))
  rw [e.1] at r
  exact told_between e (beside_trans (postEvent_beside _ _) (post_beside _ _ (by simp [Notice.kind]))) r

/-- A detach releases the base's grant (R63, R127). -/
theorem detachBase_told (s : State) :
    PenFollows (afterRelease s.guard) s (detachBase s) ∧ BudgetTold .baseRelease s (detachBase s) := by
  let u := setLinkState .absent (flushDown (linkEnding (stopLinkTimers
    { endDiagnosis .detach s with att := { (endDiagnosis .detach s).att with present := false }
                                  link := { (endDiagnosis .detach s).link with session := .none } })))
  have e : Beside u s := by
    have d : Beside (endDiagnosis .detach s) s := by unfold endDiagnosis; split <;> exact beside_of rfl rfl rfl rfl rfl
    have f : ∀ u : State, Beside (flushDown u) u := fun u => beside_of (by simp [flushDown]) (by simp [flushDown]) (by simp [flushDown])
      (by simp [flushDown]) (by simp [flushDown])
    exact beside_trans (setLinkState_beside _ _) (beside_trans (f _) (beside_trans (linkEnding_beside _) (beside_trans (beside_of rfl rfl rfl rfl rfl) d)))
  have r := releaseBase_told u
  rw [e.1] at r
  exact told_between e (beside_trans (post_beside _ _ (by simp [Notice.kind])) (beside_trans (postEvent_beside _ _) (postureDetached_beside _))) r

/-- POWERING claims the allowance (R45, R126). -/
theorem enterPowering_told (s : State) (h : 250 ≤ s.guard.budget) :
    PenFollows (besideClaim s.guard 250) s (enterPowering false s) ∧ BudgetTold .baseClaim s (enterPowering false s) := by
  have e := setLinkState_beside .powering s
  have c := claimBase_told allowance (setLinkState .powering s) (by rw [e.1]; exact h)
  have p : enterPowering false s = { (claimBase false allowance (setLinkState .powering s)).1 with
      link := { (claimBase false allowance (setLinkState .powering s)).1.link with railUp := startMs 20 } } := by
    unfold enterPowering; dsimp only; rw [c.1]; rfl
  rw [p]
  have r := c.2
  rw [e.1] at r
  exact told_between e (beside_of rfl rfl rfl rfl rfl) r

/-- POWERING without room for the allowance leaves the pen what the release of the base's grant gives it (R126, R127). -/
theorem enterPowering_refused_told (b : Bool) (s : State) (h : s.guard.budget < 250) (hb : s.guard.baseGrant ≤ s.guard.budget) :
    PenFollows (afterRelease s.guard) s (enterPowering b s) ∧ BudgetTold .baseRelease s (enterPowering b s) := by
  have e := setLinkState_beside .powering s
  have c : claimBase b allowance (setLinkState .powering s) = (setLinkState .powering s, false) := by
    simp [claimBase, baseClaim_refused s.guard allowance h hb]
  have p : enterPowering b s = enterUnpowered allowance (setLinkState .powering s) := by
    unfold enterPowering; dsimp only; rw [c]; rfl
  rw [p]
  have r := enterUnpowered_told allowance (setLinkState .powering s)
  rw [e.1] at r
  exact told_between e (beside_of rfl rfl rfl rfl rfl) r

/-- The end of an identification settles the rail (R54, R126, R127). -/
theorem identificationEnds_told (i : Identity) (s : State) : let t := identificationEnds i s
    (i.selfPowered = true → PenFollows (afterRelease s.guard) s t ∧ BudgetTold .baseRelease s t) ∧
    (i.selfPowered = false → i.railDemand ≤ s.guard.budget → PenFollows (besideClaim s.guard i.railDemand) s t ∧ BudgetTold .baseClaim s t) ∧
    (i.selfPowered = false → s.guard.budget < i.railDemand → s.guard.baseGrant ≤ s.guard.budget →
      PenFollows (afterRelease s.guard) s t ∧ BudgetTold .baseRelease s t) := by
  intro t
  let u : State := { s with att := { s.att with ident := i }, link := { s.link with describe := none } }
  have e : Beside u s := beside_of rfl rfl rfl rfl rfl
  refine ⟨fun h => ?_, fun h hb => ?_, fun h hb hg => ?_⟩
  · have p : t = enterReady (releaseBase u) := by simp only [t, identificationEnds, h, if_true]; rfl
    rw [p]; exact told_between e (enterReady_beside _) (releaseBase_told u)
  · have c := claimBase_told i.railDemand u hb
    have p : t = enterReady (claimBase false i.railDemand u).1 := by
      simp only [t, identificationEnds, h]
      rw [if_neg (by simp), if_pos c.1]
    rw [p]; exact told_between e (enterReady_beside _) c.2
  · have c : claimBase false i.railDemand u = (u, false) := by
      simp [claimBase, baseClaim_refused u.guard i.railDemand hb hg]
    have p : t = enterUnpowered i.railDemand u := by
      simp only [t, identificationEnds, h]
      rw [if_neg (by simp)]
      show (if (claimBase false i.railDemand u).2 = true then _ else _) = _
      rw [c]; simp
    rw [p]; exact told_between e (beside_of rfl rfl rfl rfl rfl) (enterUnpowered_told _ u)

/-! ## Changes of the budget (R130, R131) -/

/-- UNPOWERED with no base grant to release leaves the pen and the figures (R61, R127). -/
theorem enterUnpowered_ungranted (d : Nat) (u : State) (h : u.guard.baseGrant = 0) : KeepsSession (enterUnpowered d u) u ∧
    (enterUnpowered d u).guard.figures = u.guard.figures ∧ (enterUnpowered d u).mgmt.notices.budget = u.mgmt.notices.budget := by
  have ev := entered_beside .unpowered .unpowered u
  unfold enterUnpowered; dsimp only
  generalize setLinkState .unpowered (flushDown (linkEnding (stopLinkTimers (endDiagnosis .unpowered u)))) = v at ev ⊢
  have r : releaseBase v = switchOutputs v := by
    have b : v.guard.baseRelease = v.guard := by unfold Guard.baseRelease; rw [ev.1, if_pos h]
    have pb : postBudget v.guard .baseRelease v = v := by unfold postBudget; rw [if_pos rfl]
    unfold releaseBase; dsimp only; rw [b]
    show penTold v.guard.penGrant (switchOutputs (postBudget v.guard .baseRelease v)) = _
    rw [pb, penTold_eq, if_pos (by simp)]
  have o := switchOutputs_keeps v
  rw [r]
  generalize switchOutputs v = x at o ⊢
  have k := post_beside (.attach (.unpowered d)) x (by simp [Notice.kind])
  exact ⟨keepsSession_trans (beside_session k) (keepsSession_trans o.1 (beside_session ev)), by rw [k.1, o.2.1, ev.1],
    by rw [k.2.2.2.2.2.1, o.2.2, ev.2.2.2.2.2.1]⟩

/-- A lowered budget: the pen stepped down, and re-granted where the base is cut (R130). -/
theorem lowerBudget_told (p : Profiles) (a : Nat) (s : State) :
    let g : Guard := { s.guard with profiles := p, active := a, penGrant := steppedDown (p.get a) s.guard.baseGrant s.guard.penGrant }
    (s.guard.baseGrant ≤ p.get a → PenFollows g.penGrant s (lowerBudget p a s) ∧ BudgetTold .budget s (lowerBudget p a s)) ∧
    (p.get a < s.guard.baseGrant → PenFollows (regranted g 0) s (lowerBudget p a s) ∧ BudgetTold .budget s (lowerBudget p a s)) := by
  intro g
  have e := lower_grant s.guard p a
  dsimp only at e
  refine ⟨fun h => ?_, fun h => ?_⟩
  · rw [if_neg (by omega)] at e
    have x : lowerBudget p a s = penTold s.guard.penGrant (switchOutputs (postBudget s.guard .budget { s with guard := g })) := by
      unfold lowerBudget; dsimp only; rw [e]
    rw [x]; exact guardChange_told s g .budget rfl
  · rw [if_pos h] at e
    let g' : Guard := { g with baseGrant := 0, penGrant := regranted g 0 }
    have x : lowerBudget p a s = penTold s.guard.penGrant (enterUnpowered s.guard.baseGrant
        (switchOutputs (postBudget s.guard .budget { s with guard := g' }))) := by
      unfold lowerBudget; dsimp only; rw [e]
    have k := written_keeps s g' s.guard .budget rfl
    have o := switchOutputs_keeps (postBudget s.guard .budget { s with guard := g' })
    have fg : (postBudget s.guard .budget { s with guard := g' }).guard = g' := by simp
    rw [fg] at o
    rw [x]
    generalize switchOutputs (postBudget s.guard .budget { s with guard := g' }) = u at k o ⊢
    have z : u.guard.baseGrant = 0 := by have := o.2.1; simp only [Guard.figures, Prod.mk.injEq] at this; exact this.2.2.1
    have w := enterUnpowered_ungranted s.guard.baseGrant u z
    exact guardTold s _ g' .budget (keepsSession_trans w.1 k) (w.2.1.trans o.2.1) (w.2.2.trans o.2.2)

/-- A raised budget: a base that waits UNPOWERED claims the allowance first, then the pen is re-granted (R131). -/
theorem raiseBudget_told (p : Profiles) (a : Nat) (s : State) :
    let g : Guard := { s.guard with profiles := p, active := a }
    (¬ (s.link.state = .unpowered ∧ s.att.present = true) →
      PenFollows (regranted g s.guard.baseGrant) s (raiseBudget p a s) ∧ BudgetTold .budget s (raiseBudget p a s)) ∧
    (s.link.state = .unpowered → s.att.present = true → s.guard.baseGrant = 0 →
      (250 ≤ p.get a → PenFollows (regranted { g with penGrant := besideClaim g 250 } 250) s (raiseBudget p a s) ∧
        BudgetTold .budget s (raiseBudget p a s)) ∧
      (p.get a < 250 → PenFollows (regranted g 0) s (raiseBudget p a s) ∧ BudgetTold .budget s (raiseBudget p a s))) := by
  intro g
  let s0 : State := { s with guard := g }
  have b0 : KeepsSession s0 s := by simp [s0, g, KeepsSession]
  -- what the base's part of the raise leaves
  have last : ∀ (v : State) (h : Guard), KeepsSession v s → v.guard.figures = h.figures → v.mgmt.notices.budget = s.mgmt.notices.budget →
      PenFollows (regranted h h.baseGrant) s (penTold s.guard.penGrant (switchOutputs (postBudget s.guard .budget { v with guard := v.guard.regrant }))) ∧
      BudgetTold .budget s (penTold s.guard.penGrant (switchOutputs (postBudget s.guard .budget { v with guard := v.guard.regrant }))) := by
    intro v h kv fv nv
    have fv' := fv
    simp only [Guard.figures, Prod.mk.injEq] at fv'
    obtain ⟨f1, f2, f3, f4, f5, f6⟩ := fv'
    have hf : ∀ (b : Nat) (l : PenLevel), highestFit v.guard b l = highestFit h b l := by
      intro b l; unfold highestFit; rw [f2, f6]
    have rg : regranted v.guard v.guard.baseGrant = regranted h h.baseGrant := by
      unfold regranted; simp only [hf]; rw [f3, f4, f5, f6]
    have gg : v.guard.regrant = { v.guard with penGrant := regranted h h.baseGrant } := by rw [regrant_rest, rg]
    rw [gg]
    let w : State := { v with guard := { v.guard with penGrant := regranted h h.baseGrant } }
    have o := switchOutputs_keeps (postBudget s.guard .budget w)
    have kw : KeepsSession (switchOutputs (postBudget s.guard .budget w)) s :=
      keepsSession_trans (written_keeps v w.guard s.guard .budget rfl) kv
    have pw : (postBudget s.guard .budget w).guard = w.guard := by simp
    have pn : (postBudget s.guard .budget w).mgmt.notices.budget =
        (postBudget s.guard .budget { s with guard := w.guard }).mgmt.notices.budget := postBudget_congr _ _ _ _ rfl kv.2.2.2.2.2.2.2.2 nv
    exact guardTold s _ w.guard .budget kw (o.2.1.trans (by rw [pw])) (o.2.2.trans pn)
  refine ⟨fun h => ?_, fun h1 h2 h0 => ⟨fun hb => ?_, fun hb => ?_⟩⟩
  · have x : raiseBudget p a s = penTold s.guard.penGrant (switchOutputs (postBudget s.guard .budget { s0 with guard := s0.guard.regrant })) := by
      unfold raiseBudget; dsimp only; rw [if_neg h]
    rw [x]; exact last s0 g b0 rfl rfl
  · let u := setLinkState .powering s0
    have eu : Beside u s0 := setLinkState_beside _ _
    let g1 : Guard := { g with baseGrant := 250, penGrant := besideClaim g 250 }
    have c : claimBase true allowance u = (switchOutputs { u with guard := g1 }, true) := by
      have := baseClaim_granted u.guard allowance (by rw [eu.1]; exact hb)
      rw [eu.1] at this
      have e1 : u.guard = g := eu.1
      simp only [claimBase, e1]
      rw [show g.baseClaim allowance = some g1 from this]
      rfl
    have x : raiseBudget p a s = penTold s.guard.penGrant (switchOutputs (postBudget s.guard .budget
        { ({ switchOutputs { u with guard := g1 } with link := { (switchOutputs { u with guard := g1 }).link with railUp := startMs 20 } } : State) with
          guard := (switchOutputs { u with guard := g1 }).guard.regrant })) := by
      unfold raiseBudget; dsimp only; rw [if_pos ⟨h1, h2⟩]
      show penTold _ (switchOutputs (postBudget _ _ { enterPowering true s0 with guard := (enterPowering true s0).guard.regrant })) = _
      have ep : enterPowering true s0 = { switchOutputs { u with guard := g1 } with link := { (switchOutputs { u with guard := g1 }).link with railUp := startMs 20 } } := by
        unfold enterPowering; dsimp only; rw [show claimBase true allowance (setLinkState .powering s0) = _ from c]; rfl
      rw [ep]
    rw [x]
    have o := switchOutputs_keeps { u with guard := g1 }
    have ku : KeepsSession { u with guard := g1 } s := by
      have := keepsSession_trans (beside_session eu) b0
      simp only [KeepsSession] at this ⊢
      exact ⟨this.1, this.2.1, this.2.2.1, this.2.2.2.1, rfl, this.2.2.2.2.2.1, this.2.2.2.2.2.2.1, this.2.2.2.2.2.2.2.1, this.2.2.2.2.2.2.2.2⟩
    exact last { switchOutputs { u with guard := g1 } with link := { (switchOutputs { u with guard := g1 }).link with railUp := startMs 20 } } g1
      (keepsSession_trans o.1 ku) o.2.1 (o.2.2.trans eu.2.2.2.2.2.1)
  · let u := setLinkState .powering s0
    have eu : Beside u s0 := setLinkState_beside _ _
    have c : claimBase true allowance u = (u, false) := by
      have := baseClaim_refused u.guard allowance (by rw [eu.1]; exact hb) (by rw [eu.1]; show s.guard.baseGrant ≤ _; rw [h0]; exact Nat.zero_le _)
      simp [claimBase, this]
    have ep : enterPowering true s0 = enterUnpowered allowance u := by
      unfold enterPowering; dsimp only; rw [show claimBase true allowance (setLinkState .powering s0) = _ from c]; rfl
    have x : raiseBudget p a s = penTold s.guard.penGrant (switchOutputs (postBudget s.guard .budget
        { enterUnpowered allowance u with guard := (enterUnpowered allowance u).guard.regrant })) := by
      unfold raiseBudget; dsimp only; rw [if_pos ⟨h1, h2⟩]
      show penTold _ (switchOutputs (postBudget _ _ { enterPowering true s0 with guard := (enterPowering true s0).guard.regrant })) = _
      rw [ep]
    rw [x]
    have w := enterUnpowered_ungranted allowance u (by rw [eu.1]; exact h0)
    have := last (enterUnpowered allowance u) g (keepsSession_trans w.1 (keepsSession_trans (beside_session eu) b0))
      (w.2.1.trans (by rw [eu.1])) (w.2.2.trans eu.2.2.2.2.2.1)
    rwa [show g.baseGrant = 0 from h0] at this

/-! ## The evaluation of the posture (R99 to R104) -/

/-- An evaluation, and beside it what the posture, its window and its notice are as before (R99 to R104). -/
theorem evaluate_follows (s u : State) (hp : u.posture.posture = s.posture.posture) (hw : u.posture.window = s.posture.window)
    (hv : u.posture.previous = s.posture.previous) (hn : u.mgmt.notices.posture = s.mgmt.notices.posture)
    (he : u.mgmt.enables.posture = s.mgmt.enables.posture) : PostureFollows s (evaluate u) := by
  have g := evaluate_gives u _ _ (show evaluated u = ((evaluated u).1, (evaluated u).2) from rfl)
  have o : (evaluate u).orient = u.orient := by unfold evaluate; dsimp only; split <;> simp [postEvent]
  have posts := (evaluate_posts u).1
  have stays : (evaluated u).1 = u.posture.posture → (evaluate u).mgmt = u.mgmt := by
    intro h; unfold evaluate; dsimp only; rw [if_pos h]
  unfold PostureFollows
  dsimp only
  simp only [g.1, g.2.2.1, g.2.2.2.2, o]
  refine ⟨fun h => ?_, fun h hl => ?_, fun h hl => ?_, fun n h hl hc => ⟨fun hm => ?_, fun hm i w hi hx ht => ?_, fun hm hk i w hx ht hj => ?_,
    fun hm hk hj => ?_⟩, fun h => ?_, fun h => ⟨?_, fun hen => ?_⟩⟩
  · simp [evaluated, h]
  · simp [evaluated, h, hl, State.lidIsClosed]
  · rcases hl with hl | hl
    · simp [evaluated, h.1, h.2, hl, State.lidIsClosed]
    · simp only [evaluated, h.1, h.2, hl, State.lidIsClosed]; cases u.posture.lidOpened <;> simp
  · simp [evaluated, h.1, h.2, hl, hc, hm, State.lidIsClosed, hp, hw]
  · have c := chooseWindow_kept u.posture.windows i n w u.orient.candidate hx ((windowTakes_iff _ _ _ _).2 ht)
    rw [← hw] at hi
    simp [evaluated, h.1, h.2, hl, hc, hm, State.lidIsClosed, hi, c, hx]
  · have c := chooseWindow_lowest u.posture.windows u.posture.window i n w u.orient.candidate
      (fun j v hj' hv' => Bool.eq_false_iff.2 fun y => hk ⟨j, v, by rw [← hw]; exact hj', hv', (windowTakes_iff _ _ _ _).1 y⟩)
      hx ((windowTakes_iff _ _ _ _).2 ht)
      (fun j v hj' hv' => Bool.eq_false_iff.2 fun y => hj j v hj' hv' ((windowTakes_iff _ _ _ _).1 y))
    simp [evaluated, h.1, h.2, hl, hc, hm, State.lidIsClosed, c, hx]
  · have c := chooseWindow_none u.posture.windows u.posture.window n u.orient.candidate
      (fun j v hj' hv' => Bool.eq_false_iff.2 fun y => hk ⟨j, v, by rw [← hw]; exact hj', hv', (windowTakes_iff _ _ _ _).1 y⟩)
      (fun v hv' => Bool.eq_false_iff.2 fun y => hj v hv' ((windowTakes_iff _ _ _ _).1 y))
    rw [← hp, ← hw]
    cases hpp : u.posture.posture <;> simp [evaluated, h.1, h.2, hl, hc, hm, State.lidIsClosed, c, isWindowPosture, hpp]
  · rw [← hp] at h
    rw [if_pos h, stays h]; exact ⟨hv, hn⟩
  · rw [← hp] at h; rw [if_neg h, hp]
  · rw [← hp] at h
    obtain ⟨p, e1, e2⟩ := posts (by rw [g.1]; exact h) (by rw [he]; exact hen)
    exact ⟨p, e1, by rw [e2, g.1, hp]⟩

end Sys2Proof.Machine
end

