-- ==== Sys2Proof/Laws/Acts.lean ====
section
/-! SUPPORT. What the commands of the pen, of the guard and of the hinge tell: one lemma for each operation over the changes of session
(R147, R151 to R160), the base's claims and the alarms (R126 to R142) and the posture (R93 to R104). -/
namespace Sys2Proof.Machine
set_option linter.all false

/-! ## BUDGET with the session's claim (R133) -/

/-- A change of session posts BUDGET for its claim or release alone (R133). -/
theorem goSession_budget (new : PenState) (f : Option FaultCause) (c : ClaimStep) (cause : BudgetCause) (g : Guard) (s : State)
    (h : ∀ v : State, v.guard = s.guard → claimStep c v = postBudget s.guard cause { v with guard := g })
    (hf : (goSession new f c s).guard.figures = g.figures) : BudgetTold cause s (goSession new f c s) := by
  intro _ he
  have p := postBudget_told s.guard cause { s with guard := g } he
  have n : (goSession new f c s).mgmt.notices.budget = (postBudget s.guard cause { s with guard := g }).mgmt.notices.budget := by
    have ha : ∀ u : State, (armPenTimer u).mgmt = u.mgmt := by intro u; unfold armPenTimer; (repeat' split) <;> rfl
    let base : State := stopPenTimers { s with pen := { s.pen with session := new, fault := f } }
    let v : State := setHold .chargeStarting (new == .softStart) base
    have kv := setHold_notice .budget .chargeStarting (new == .softStart) base (by simp)
    have gv : v.guard = s.guard := by simp [v, base, stopPenTimers]
    have cc := postBudget_congr s.guard cause { v with guard := g } { s with guard := g } rfl kv.2 kv.1
    rw [← cc, ← h v gv]
    let w : State := armPenTimer (switchOutputs (claimStep c v))
    let u : State := setInputs { w.policy.inputs with charge := chargeLevelOn new } w
    have q := (post_notice .budget (.charge new s.pen.session f u.pen.docked u.guard.penGrant u.pen.battery) u (by simp [Notice.kind])).1
    exact q.trans (by simp [u, w, PerKind.get, ha])
  have ff := hf
  simp only [Guard.figures, Prod.mk.injEq] at ff
  obtain ⟨f1, f2, f3, f4, f5, f6⟩ := ff
  rw [hf, n, f1, f2, f3, f4, f5, f6]
  exact p

theorem goSession_figures (new : PenState) (f : Option FaultCause) (c : ClaimStep) (s : State) (p : Option PenLevel) (l : Option PenLevel)
    (hp : (goSession new f c s).guard.penGrant = p) (hl : (goSession new f c s).guard.claimed = l) :
    (goSession new f c s).guard.figures = { s.guard with penGrant := p, claimed := l }.figures := by
  have k : KeepsSettings (goSession new f c s).guard s.guard := by simp [KeepsSettings, KeepsMarks]
  simp only [KeepsSettings] at k
  simp only [Guard.figures, Guard.budget, hp, hl]
  rw [k.1, k.2.1, k.2.2.1, k.2.2.2.1]

/-- A session that releases its claim: BUDGET with PEN-RELEASE (R133). -/
theorem goSession_releaseBudget (new : PenState) (f : Option FaultCause) (s : State) : BudgetTold .penRelease s (goSession new f .release s) := by
  refine goSession_budget new f .release .penRelease s.guard.penRelease s (fun v hv => by simp only [claimStep, hv]) ?_
  have h := goSession_figures new f .release s none none (by rw [goSession_grant]; simp [claimStep]) (by rw [goSession_claimed]; simp [claimStep])
  rw [h]; simp [Guard.figures, Guard.budget, Guard.penRelease]

/-- A session that claims: BUDGET with PEN-CLAIM (R133). -/
theorem claimSession_budget (new : PenState) (l : PenLevel) (s : State) : BudgetTold .penClaim s (claimSession new l s) := by
  have first : BudgetTold .penClaim s (goSession new none (.claim l) s) := by
    refine goSession_budget new none (.claim l) .penClaim (s.guard.penClaim l) s (fun v hv => by simp only [claimStep, hv]) ?_
    have h := goSession_figures new none (.claim l) s (s.guard.penClaim l).penGrant (some l) (by rw [goSession_grant]; simp [claimStep])
      (by rw [goSession_claimed]; simp [claimStep])
    rw [h]; simp [Guard.figures, Guard.budget, Guard.penClaim]
  unfold claimSession; dsimp only; split
  · have k := goSession_notice .budget .paused none .keep (goSession new none (.claim l) s) (by simp)
    have h := goSession_figures .paused none .keep (goSession new none (.claim l) s) (goSession new none (.claim l) s).guard.penGrant
      (goSession new none (.claim l) s).guard.claimed (by rw [goSession_grant]; simp [claimStep]) (by rw [goSession_claimed]; simp [claimStep])
    exact budgetTold_between rfl rfl rfl rfl h k.1 first
  · exact first

/-! ## The session's operations -/

/-- Entry to DETECT with its BUDGET notice: HELD under a hold (R151, R158). -/
theorem enterDetect_acts (s : State) :
    (s.pen.hold.isSome = true → SessionReleases .held none s (enterDetect s) ∧ BudgetTold .penRelease s (enterDetect s)) ∧
    (s.pen.hold = none → SessionClaims .detect .trickle s (enterDetect s) ∧ BudgetTold .penClaim s (enterDetect s)) := by
  have k := enterDetect_told s
  refine ⟨fun h => ⟨k.1 h, ?_⟩, fun h => ⟨k.2 (by rw [h]; rfl), ?_⟩⟩
  · unfold enterDetect; rw [if_pos h]; exact goSession_releaseBudget _ _ _
  · unfold enterDetect; rw [if_neg (by rw [h]; simp)]; exact claimSession_budget _ _ _

/-- Entry to SOFT-START with its BUDGET notice: HELD under a hold (R153, R158). -/
theorem enterSoftStart_acts (s : State) :
    (s.pen.hold.isSome = true → SessionReleases .held none s (enterSoftStart s) ∧ BudgetTold .penRelease s (enterSoftStart s)) ∧
    (s.pen.hold = none →
      SessionClaims .softStart s.pen.requested s (enterSoftStart s) ∧ BudgetTold .penClaim s (enterSoftStart s)) := by
  have k := enterSoftStart_told s
  refine ⟨fun h => ⟨k.1 h, ?_⟩, fun h => ⟨k.2 (by rw [h]; rfl), ?_⟩⟩
  · unfold enterSoftStart; rw [if_pos h]; exact goSession_releaseBudget _ _ _
  · unfold enterSoftStart; rw [if_neg (by rw [h]; simp)]; exact claimSession_budget _ _ _

/-- A release or entry seen from a state beside which the operation starts. -/
theorem releases_from {new : PenState} {f : Option FaultCause} {s u t : State} (hs : u.pen.session = s.pen.session)
    (he : u.mgmt.enables = s.mgmt.enables) (hg : u.guard.figures = s.guard.figures) (hn : u.mgmt.notices.budget = s.mgmt.notices.budget)
    (h : SessionReleases new f u t ∧ BudgetTold .penRelease u t) : SessionReleases new f s t ∧ BudgetTold .penRelease s t :=
  ⟨sessionReleases_congr hs.symm he.symm (keepsTold_refl t) h.1, budgetTold_between hg hn he hs rfl rfl h.2⟩

theorem claims_from {new : PenState} {l : PenLevel} {s u t : State} (hs : u.pen.session = s.pen.session) (hd : u.pen.docked = s.pen.docked)
    (he : u.mgmt.enables = s.mgmt.enables) (hg : u.guard.figures = s.guard.figures) (hn : u.mgmt.notices.budget = s.mgmt.notices.budget)
    (h : SessionClaims new l u t ∧ BudgetTold .penClaim u t) : SessionClaims new l s t ∧ BudgetTold .penClaim s t :=
  ⟨sessionClaims_congr hs.symm hd.symm he.symm (keepsTold_refl t) h.1, budgetTold_between hg hn he hs rfl rfl h.2⟩

/-- Entry to FAULT (R157). -/
theorem enterFault_acts (c : FaultCause) (s : State) :
    SessionReleases .fault (some c) s (enterFault c s) ∧ BudgetTold .penRelease s (enterFault c s) :=
  ⟨goSession_releases _ _ _ rfl, goSession_releaseBudget _ _ _⟩

/-- The dock debounce's expiry in NO-PEN (R148). -/
theorem dockDebounceExpires_acts (s : State) (hd : s.pen.debounce.isSome = true) (hn : s.pen.session = .noPen) :
    let t := dockDebounceExpires s
    (coilLatched s = true → SessionReleases .fault (some .coilLatch) s t ∧ BudgetTold .penRelease s t) ∧
    (coilLatched s = false → s.pen.hold.isSome = true → SessionReleases .held none s t ∧ BudgetTold .penRelease s t) ∧
    (coilLatched s = false → s.pen.hold = none → SessionClaims .detect .trickle s t ∧ BudgetTold .penClaim s t) := by
  intro t
  let u : State := { s with pen := { s.pen with debounce := none } }
  have e : t = if coilLatched u then enterFault .coilLatch u else enterDetect u := by
    simp only [t, dockDebounceExpires, hd, if_true]
    rw [if_neg (by simp [hn])]
  have k := enterDetect_acts u
  refine ⟨fun h => ?_, fun h hh => ?_, fun h hh => ?_⟩
  · rw [e, if_pos (show coilLatched u = true from h)]; exact releases_from (u := u) rfl rfl rfl rfl (enterFault_acts _ u)
  · rw [e, if_neg (by rw [show coilLatched u = coilLatched s from rfl, h]; simp)]; exact releases_from (u := u) rfl rfl rfl rfl (k.1 hh)
  · rw [e, if_neg (by rw [show coilLatched u = coilLatched s from rfl, h]; simp)]; exact claims_from (u := u) rfl rfl rfl rfl rfl (k.2 hh)

/-- The dock's release in a session (R149). -/
theorem dockReleases_acts (s : State) (hd : s.pins.dock = true) (hn : s.pen.session ≠ .noPen) :
    SessionReleases .noPen none s (dockReleases s) ∧ BudgetTold .penRelease s (dockReleases s) := by
  let u : State := { s with pins := { s.pins with dock := false }, pen := { s.pen with debounce := none, docked := false } }
  have e : dockReleases s = postEvent .penRemoved (goSession .noPen none .release u) := by
    unfold dockReleases; rw [if_neg (by simp [hd])]; dsimp only; rw [if_neg hn]
  have b := postEvent_beside .penRemoved (goSession .noPen none .release u)
  rw [e]
  exact ⟨sessionReleases_congr (s := u) rfl rfl (beside_told b) (goSession_releases _ _ _ rfl),
    budgetTold_between (u := u) (t := goSession .noPen none .release u) rfl rfl rfl rfl (by rw [b.1]) b.2.2.2.2.2.1 (goSession_releaseBudget _ _ u)⟩

/-- A hold that stops the session (R158). -/
theorem holdClaim_acts (src : ClaimSource) (s : State) (h : s.pen.hold = none) (hs : holdStops s.pen.session = true) :
    SessionReleases .held none s (holdClaim src s) ∧ BudgetTold .penRelease s (holdClaim src s) := by
  let u : State := { s with pen := { s.pen with hold := some src } }
  have e : holdClaim src s = goSession .held none .release u := by unfold holdClaim; rw [h]; dsimp only; rw [if_pos hs]
  rw [e]
  exact releases_from (u := u) rfl rfl rfl rfl ⟨goSession_releases _ _ _ rfl, goSession_releaseBudget _ _ _⟩

/-- A release of a HELD session by a request (R159). -/
theorem releaseClaim_acts (s : State) (h : s.pen.hold.isSome = true) (hs : s.pen.session = .held) :
    SessionResumes { s with pen := { s.pen with hold := none } } (releaseClaim .request s) ∧
    BudgetTold .penClaim s (releaseClaim .request s) := by
  let u : State := { s with pen := { s.pen with hold := none } }
  have e : releaseClaim .request s = resumeSession u := by
    unfold releaseClaim
    rw [if_neg (by rintro (k | ⟨k, _⟩); · rw [k] at h; simp at h
                   · simp at k)]
    dsimp only; rw [if_pos hs]
  rw [e]
  refine ⟨resumeSession_resumes u, ?_⟩
  have k : BudgetTold .penClaim u (resumeSession u) := by
    unfold resumeSession; split
    · exact ((enterSoftStart_acts u).2 rfl).2
    · exact ((enterDetect_acts u).2 rfl).2
  exact budgetTold_between (u := u) rfl rfl rfl rfl rfl rfl k

/-- A claim of a level writes the claim and its grant, and posts BUDGET (R128, R133). -/
theorem claimStep_acts (l : PenLevel) (v : State) :
    KeepsSession (claimStep (.claim l) v) { v with guard := { v.guard with claimed := some l } } ∧
    (claimStep (.claim l) v).guard.penGrant = highestFit v.guard v.guard.baseGrant l ∧
    BudgetTold .penClaim v (claimStep (.claim l) v) := by
  have n := postBudget_notice .charge v.guard .penClaim { v with guard := v.guard.penClaim l } (by simp)
  refine ⟨⟨by simp [claimStep], by simp [claimStep], by simp [claimStep], by simp [claimStep], by simp [claimStep, Guard.penClaim],
    by simp [claimStep], by simp [claimStep], n.1, n.2⟩, by rw [← penClaim_highest]; simp [claimStep], fun _ he => ?_⟩
  have p := postBudget_told v.guard .penClaim { v with guard := v.guard.penClaim l } he
  have e : (claimStep (.claim l) v).guard = v.guard.penClaim l := by simp [claimStep]
  rw [e]; exact p

/-- The claim of a new level by a session that charges (R160). -/
theorem setRequested_charging (l : PenLevel) (s : State) (hs : s.pen.session = .softStart ∨ s.pen.session = .charging)
    (hl : l ≠ s.pen.requested) : let t := setRequested l s
    (∀ g, highestFit s.guard s.guard.baseGrant l = some g →
      t.guard.penGrant = some g ∧ SessionStays { s with guard := { s.guard with claimed := some l } } t) ∧
    (highestFit s.guard s.guard.baseGrant l = none →
      t.pen.session = .paused ∧ t.guard.claimed = some l ∧ t.guard.penGrant = none ∧ SessionTold s.pen.session s t) ∧
    BudgetTold .penClaim s t := by
  intro t
  let v : State := { s with pen := { s.pen with requested := l } }
  have c := claimStep_acts l v
  have o := switchOutputs_keeps (claimStep (.claim l) v)
  have e : t = if (switchOutputs (claimStep (.claim l) v)).guard.penGrant = none then
      goSession .paused none .keep (switchOutputs (claimStep (.claim l) v)) else switchOutputs (claimStep (.claim l) v) := by
    simp only [t]; unfold setRequested; dsimp only
    split <;> rename_i h
    · rw [if_neg hl]
    · rw [if_neg hl]
    · rw [h] at hs; simp at hs
    · rcases hs with k | k <;> exact absurd k (by assumption)
  generalize claimStep (.claim l) v = x at c o e
  generalize switchOutputs x = w at o e
  have kw := keepsSession_trans o.1 c.1
  have wg : w.guard.penGrant = highestFit s.guard s.guard.baseGrant l := by
    have := o.2.1; simp only [Guard.figures, Prod.mk.injEq] at this; rw [this.2.2.2.1]; exact c.2.1
  have bw : BudgetTold .penClaim s w := budgetTold_between (u := v) (t := x) rfl rfl rfl rfl o.2.1 o.2.2 c.2.2
  obtain ⟨k1, k2, k3, k4, k5, k6, k7, k8, k9⟩ := kw
  refine ⟨fun g hg => ?_, fun hg => ?_, ?_⟩
  · rw [e, if_neg (by rw [wg, hg]; simp)]; exact ⟨wg.trans hg, k1, k5, k6, k7, k8⟩
  · rw [e, if_pos (wg.trans hg)]
    have told := goSession_told .paused none .keep w
    rw [k1] at told
    exact ⟨by simp, by rw [goSession_claimed]; simpa [claimStep] using k5, by rw [goSession_grant]; simpa [claimStep] using wg.trans hg,
      sessionTold_congr k9.symm told⟩
  · rw [e]; split
    · have n := goSession_notice .budget .paused none .keep w (by simp)
      have h := goSession_figures .paused none .keep w w.guard.penGrant w.guard.claimed (by rw [goSession_grant]; simp [claimStep])
        (by rw [goSession_claimed]; simp [claimStep])
      exact budgetTold_between (u := s) (t := w) rfl rfl rfl rfl h n.1 bw
    · exact bw

/-- The claim of a level by a session that waits docked for room (R160). -/
theorem setRequested_paused (l : PenLevel) (s : State) (hs : s.pen.session = .paused) (hd : s.pen.docked = true) (hh : s.pen.hold = none) :
    let t := setRequested l s
    (∀ g, highestFit s.guard s.guard.baseGrant l = some g → t.pen.session = .softStart ∧ t.guard.penGrant = some g ∧
      t.guard.claimed = some l ∧ SessionTold .paused s t) ∧
    (highestFit s.guard s.guard.baseGrant l = none → SessionStays { s with guard := { s.guard with claimed := some l } } t) := by
  intro t
  let v : State := { s with pen := { s.pen with requested := l } }
  have c := claimStep_acts l v
  have gg : (claimStep (.claim l) v).guard = s.guard.penClaim l := by simp [claimStep, v]
  have e : t = if (claimStep (.claim l) v).guard.penGrant.isSome then enterSoftStart (claimStep (.claim l) v) else claimStep (.claim l) v := by
    simp only [t]; unfold setRequested; dsimp only
    split <;> rename_i h
    · rw [h] at hs; simp at hs
    · rw [h] at hs; simp at hs
    · rw [if_pos hd]
    · exact absurd hs (by assumption)
  generalize claimStep (.claim l) v = x at c e gg
  obtain ⟨⟨k1, k2, k3, k4, k5, k6, k7, k8, k9⟩, c2, c3⟩ := c
  refine ⟨fun g hg => ?_, fun hg => ?_⟩
  · rw [e, if_pos (by rw [c2]; show (highestFit s.guard s.guard.baseGrant l).isSome = true; rw [hg]; rfl)]
    have a := ((enterSoftStart_acts x).2 (k3.trans hh)).1
    obtain ⟨a1, a2, a3⟩ := a
    have st : KeepsSettings (enterSoftStart x).guard x.guard := by simp [KeepsSettings, KeepsMarks]
    simp only [KeepsSettings] at st
    have f : highestFit (enterSoftStart x).guard (enterSoftStart x).guard.baseGrant x.pen.requested = some g := by
      rw [highestFit_congr st.2.2.2.1 st.1 st.2.1, st.2.2.1, gg, k4]; exact hg
    rw [f] at a3
    rw [k4] at a1
    exact ⟨a3.2.1, a3.1, a1, sessionTold_congr k9.symm (by have := a3.2.2.2; rwa [k1, show v.pen.session = .paused from hs] at this)⟩
  · rw [e, if_neg (by rw [c2]; show ¬ (highestFit s.guard s.guard.baseGrant l).isSome = true; rw [hg]; simp)]
    exact ⟨k1, k5, k6, k7, k8⟩

/-! ## Statuses (R150 to R155) -/

/-- The figures stay through a session's claims and releases but for the claim and its grant. -/
@[reducible] def KeepsFigures (t s : State) : Prop :=
  t.guard.baseGrant = s.guard.baseGrant ∧ t.guard.cap = s.guard.cap ∧ t.guard.profiles = s.guard.profiles ∧
  t.guard.active = s.guard.active

/-- A status changes no figure but the claim and its grant. -/
theorem penStatusTap_figures (payload : List Byte) (s : State) : KeepsFigures (penStatusTap payload s) s := by
  have k : KeepsSettings (penStatusTap payload s).guard s.guard := by
    unfold penStatusTap actOnStatus penDocks enterTopped enterFault
    dsimp only [postEvent]
    (repeat' split) <;> simp [KeepsSettings, KeepsMarks]
  simp only [KeepsSettings] at k
  exact ⟨k.2.2.1, k.2.2.2.1, k.1, k.2.1⟩

/-- The state a status is acted on in: the pen has answered. -/
def answeredState (p : Byte) (s : State) : State := penDocks { s with pen := { s.pen with battery := some p.toNat } }

theorem penStatusTap_range (p q r : Byte) (s : State) (hp : p.toNat ≤ 100) : penStatusTap [p, q, r] s =
    actOnStatus p.toNat (r.getLsbD 0) (r.getLsbD 1) { s with pen := { s.pen with battery := some p.toNat } } := by
  simp [penStatusTap, hp]

/-- A status in DETECT with its window running (R151). -/
theorem penStatusTap_detect (p q r : Byte) (s : State) (hp : p.toNat ≤ 100) (hs : s.pen.session = .detect) (hd : s.pen.detect.isSome = true) :
    let t := penStatusTap [p, q, r] s
    let full := p.toNat = 100 ∨ r.getLsbD 0 = true
    let docked : State := { s with pen := { s.pen with docked := true } }
    t.pen.battery = some p.toNat ∧ t.pen.docked = true ∧ t.pen.detect = none ∧
    t.pen.count = (if s.pen.docked = true then s.pen.count else s.pen.count + 1#16) ∧
    (r.getLsbD 1 = true → SessionReleases .fault (some .penReported) s t ∧ BudgetTold .penRelease s t) ∧
    (r.getLsbD 1 = false → full → t.pen.session = .topped ∧ t.guard.claimed = s.guard.claimed ∧ t.guard.penGrant = s.guard.penGrant ∧
      t.sleep.holds.chargeStarting = false ∧ SessionTold .detect s t) ∧
    (r.getLsbD 1 = false → ¬ full → s.pen.hold.isSome = true → SessionReleases .held none s t ∧ BudgetTold .penRelease s t) ∧
    (r.getLsbD 1 = false → ¬ full → s.pen.hold = none →
      SessionClaims .softStart s.pen.requested docked t ∧ BudgetTold .penClaim s t) ∧
    t.policy.events = s.policy.events ++ ((if s.pen.docked = false then [.penDocked] else []) ++
      (if r.getLsbD 1 = false ∧ full then [.chargeDone] else [])) := by
  intro t full docked
  let a := answeredState p s
  have ap : a.pen = { s.pen with battery := some p.toNat, docked := true, count := if s.pen.docked = true then s.pen.count else s.pen.count + 1#16 } := by
    simp only [a, answeredState, penDocks]; cases h : s.pen.docked <;> simp [postEvent, wrapInc, h]
  have ag : a.guard = s.guard := by simp only [a, answeredState, penDocks]; split <;> rfl
  have am : a.mgmt = s.mgmt := by simp only [a, answeredState, penDocks]; split <;> rfl
  have ae : a.policy.events = s.policy.events ++ (if s.pen.docked = false then [.penDocked] else []) := by
    simp only [a, answeredState, penDocks]; cases h : s.pen.docked <;> simp [postEvent]
  have e : t = if r.getLsbD 1 = true then enterFault .penReported a
      else if full then postEvent .chargeDone (goSession .topped none .keep a) else enterSoftStart a := by
    simp only [t]; rw [penStatusTap_range p q r s hp]; unfold actOnStatus; dsimp only; split
    · rw [if_neg (by simpa using Option.isSome_iff_ne_none.1 hd)]; rfl
    all_goals first | exact absurd hs (by assumption) | simp_all
  have as : a.pen.session = s.pen.session := by rw [ap]
  have f := enterFault_acts .penReported a
  have o := enterSoftStart_acts a
  have keeps : ∀ n fl c (u : State), (goSession n fl c u).pen.docked = u.pen.docked ∧ (goSession n fl c u).pen.count = u.pen.count ∧
      (goSession n fl c u).pen.battery = u.pen.battery := by intro n fl c u; cases c <;> simp [goSession, claimStep]
  have keepsS : (enterSoftStart a).pen.docked = a.pen.docked ∧ (enterSoftStart a).pen.count = a.pen.count ∧
      (enterSoftStart a).pen.battery = a.pen.battery ∧ (enterSoftStart a).pen.detect = none := by
    unfold enterSoftStart claimSession; dsimp only
    (repeat' split) <;> simp only [keeps, and_self, true_and] <;> exact (goSession_timers _ _ _ _).1 (by simp)
  rw [e]
  refine ⟨?_, ?_, ?_, ?_, fun hb => ?_, fun hb hf => ?_, fun hb hf hh => ?_, fun hb hf hh => ?_, ?_⟩
  · split; · simp only [enterFault, keeps, ap]
    split
    · simp only [postEvent, keeps, ap]
    · simp only [keepsS, ap]
  · split; · simp only [enterFault, keeps, ap]
    split
    · simp only [postEvent, keeps, ap]
    · simp only [keepsS, ap]
  · split; · exact (goSession_timers _ _ _ _).1 (by simp)
    split
    · exact (goSession_timers _ _ _ _).1 (by simp)
    · exact keepsS.2.2.2
  · split; · simp only [enterFault, keeps, ap]
    split
    · simp only [postEvent, keeps, ap]
    · simp only [keepsS, ap]
  · rw [if_pos hb]; exact releases_from (u := a) as (by rw [am]) (by rw [ag]) (by rw [am]) f
  · rw [if_neg (by rw [hb]; simp), if_pos hf]
    have told := goSession_told .topped none .keep a
    have b := postEvent_beside .chargeDone (goSession .topped none .keep a)
    rw [as, hs] at told
    refine ⟨by simp [postEvent], by rw [b.1, goSession_claimed]; simp [claimStep, ag], by rw [b.1, goSession_grant]; simp [claimStep, ag],
      by rw [b.2.2.1, goSession_hold]; rfl, sessionTold_congr (s := a) (by rw [am]) ?_⟩
    have kt := beside_told b
    simp only [KeepsTold] at kt
    simp only [SessionTold] at told ⊢
    rw [kt.1, kt.2.2.2.2.2.2.2.1, kt.2.2.2.2.2.2.2.2.1, kt.2.2.2.2.2.2.2.2.2.1, kt.2.2.2.2.2.2.2.2.2.2.1, kt.2.2.2.2.2.2.2.2.2.2.2.2.1,
      kt.2.2.2.2.2.2.2.2.2.2.2.2.2]
    exact told
  · rw [if_neg (by rw [hb]; simp), if_neg hf]
    exact releases_from (u := a) as (by rw [am]) (by rw [ag]) (by rw [am]) (o.1 (by rw [ap]; exact hh))
  · rw [if_neg (by rw [hb]; simp), if_neg hf]
    have k := o.2 (by rw [ap]; exact hh)
    rw [show a.pen.requested = s.pen.requested by rw [ap]] at k
    exact ⟨sessionClaims_congr (s := a) (by rw [ap]) (by rw [ap]) (by rw [am]) (keepsTold_refl _) k.1,
      budgetTold_between (u := a) (by rw [ag]) (by rw [am]) (by rw [am]) as rfl rfl k.2⟩
  · rw [← List.append_assoc, ← ae]
    cases hb : r.getLsbD 1
    · rw [if_neg (by simp)]
      by_cases hf : full
      · rw [if_pos hf, if_pos ⟨rfl, hf⟩]; simp [postEvent]
      · rw [if_neg hf, if_neg (fun k => hf k.2)]; simp
    · rw [if_pos rfl, if_neg (by simp)]; simp [enterFault]

/-- A status in SOFT-START and CHARGING (R153, R154). -/
theorem penStatusTap_charging (p q r : Byte) (s : State) (hp : p.toNat ≤ 100) (hs : s.pen.session = .softStart ∨ s.pen.session = .charging) :
    let t := penStatusTap [p, q, r] s
    let full := p.toNat = 100 ∨ r.getLsbD 0 = true
    (r.getLsbD 1 = true → SessionReleases .fault (some .penReported) s t ∧ BudgetTold .penRelease s t) ∧
    (r.getLsbD 1 = false → full → SessionClaims .topped .trickle s t ∧ BudgetTold .penClaim s t) ∧
    (r.getLsbD 1 = false → ¬ full →
      let silence := if s.pen.session = .charging ∧ s.guard.coilOn = true then some 20000 else s.pen.silence
      t.pen = { s.pen with battery := some p.toNat, silence := silence } ∧ t.guard = s.guard ∧ SessionStays s t) ∧
    t.policy.events = s.policy.events ++ (if r.getLsbD 1 = false ∧ full then [.chargeDone] else []) := by
  intro t full
  let a : State := { s with pen := { s.pen with battery := some p.toNat } }
  have e : t = if r.getLsbD 1 = true then enterFault .penReported a else if full then enterTopped a
      else if s.pen.session = .charging then armPenTimer a else a := by
    simp only [t]; rw [penStatusTap_range p q r s hp]; unfold actOnStatus; dsimp only; split <;> rename_i h
    · simp_all
    · rw [if_neg (show ¬ s.pen.session = .charging by rw [h]; simp)]
    · rw [if_pos h]
    · simp_all
    · rcases hs with k | k <;> exact absurd k (by assumption)
  have b := postEvent_beside .chargeDone (claimSession .topped .trickle a)
  rw [e]
  refine ⟨fun hb => ?_, fun hb hf => ?_, fun hb hf => ?_, ?_⟩
  · rw [if_pos hb]; exact releases_from (u := a) rfl rfl rfl rfl (enterFault_acts _ a)
  · rw [if_neg (by rw [hb]; simp), if_pos hf]
    exact ⟨sessionClaims_congr (s := a) rfl rfl rfl (beside_told b) (claimSession_claims _ _ a),
      budgetTold_between (u := a) (t := claimSession .topped .trickle a) rfl rfl rfl rfl (by unfold enterTopped; rw [b.1]) b.2.2.2.2.2.1
        (claimSession_budget _ _ a)⟩
  · rw [if_neg (show ¬ r.getLsbD 1 = true by rw [hb]; simp), if_neg hf]
    rcases hs with h | h <;> simp only [h]
    · simp [a, SessionStays, h]
    · cases hc : s.guard.coilOn <;> simp [armPenTimer, a, hc, h, SessionStays, startMs, ms]
  · cases hb : r.getLsbD 1
    · rw [if_neg (by simp)]
      by_cases hf : full
      · rw [if_pos hf, if_pos ⟨rfl, hf⟩]; simp [enterTopped, postEvent, a]
      · rw [if_neg hf, if_neg (show ¬ (false = false ∧ full) from fun k => hf k.2), List.append_nil]
        unfold armPenTimer; (repeat' split) <;> rfl
    · rw [if_pos rfl, if_neg (by simp)]; simp [enterFault, a]

/-- A status in TOPPED (R155). -/
theorem penStatusTap_topped (p q r : Byte) (s : State) (hp : p.toNat ≤ 100) (hs : s.pen.session = .topped) :
    let t := penStatusTap [p, q, r] s
    (r.getLsbD 1 = true → SessionReleases .fault (some .penReported) s t ∧ BudgetTold .penRelease s t) ∧
    (r.getLsbD 1 = false → p.toNat ≤ 92 → r.getLsbD 0 = false →
      SessionClaims .charging s.pen.requested s t ∧ BudgetTold .penClaim s t) ∧
    (r.getLsbD 1 = false → (92 < p.toNat ∨ r.getLsbD 0 = true) →
      t.pen = { s.pen with battery := some p.toNat, silence := if s.guard.coilOn = true then some 20000 else s.pen.silence } ∧
      t.guard = s.guard ∧ SessionStays s t) ∧
    t.policy.events = s.policy.events := by
  intro t
  let a : State := { s with pen := { s.pen with battery := some p.toNat } }
  have e : t = if r.getLsbD 1 = true then enterFault .penReported a
      else if p.toNat ≤ 92 ∧ r.getLsbD 0 = false then claimSession .charging s.pen.requested a else armPenTimer a := by
    simp only [t]; rw [penStatusTap_range p q r s hp]; unfold actOnStatus; dsimp only; split
    iterate 3 simp_all
    · simp [a]
    · exact absurd hs (by assumption)
  rw [e]
  refine ⟨fun hb => ?_, fun hb h1 h2 => ?_, fun hb h => ?_, ?_⟩
  · rw [if_pos hb]; exact releases_from (u := a) rfl rfl rfl rfl (enterFault_acts _ a)
  · rw [if_neg (by rw [hb]; simp), if_pos ⟨h1, h2⟩]
    exact claims_from (u := a) rfl rfl rfl rfl rfl ⟨claimSession_claims _ _ a, claimSession_budget _ _ a⟩
  · rw [if_neg (by rw [hb]; simp), if_neg (fun k => h.elim (fun h => absurd k.1 (by omega)) (fun h => absurd (k.2.symm.trans h) (by simp)))]
    cases hc : s.guard.coilOn <;> simp [armPenTimer, a, hc, hs, SessionStays, startMs, ms]
  · split; · simp [enterFault, a]
    split
    · simp [a]
    · unfold armPenTimer; (repeat' split) <;> rfl

/-- A status in every other session, and in DETECT with its window stopped: the battery alone (R150). -/
theorem penStatusTap_other (p q r : Byte) (s : State) (hp : p.toNat ≤ 100)
    (hs : s.pen.session ∈ [.noPen, .foreign, .paused, .held, .fault] ∨ s.pen.session = .detect ∧ s.pen.detect = none) :
    penStatusTap [p, q, r] s = { s with pen := { s.pen with battery := some p.toNat } } := by
  rw [penStatusTap_range p q r s hp]; unfold actOnStatus; dsimp only; split <;> rename_i h
  · rcases hs with k | ⟨_, k⟩
    · rw [h] at k; simp at k
    · rw [if_pos (by rw [k]; rfl)]
  all_goals first | rfl | (rcases hs with k | ⟨k, _⟩ <;> rw [h] at k <;> simp at k)

/-! ## The pen's timers (R152, R153, R157) -/

/-- The detect window's expiry (R152). -/
theorem detectExpires_acts (s : State) (hd : s.pen.detect.isSome = true) :
    (s.pen.docked = true → SessionReleases .fault (some .penSilent) s (detectExpires s) ∧ BudgetTold .penRelease s (detectExpires s)) ∧
    (s.pen.docked = false → SessionReleases .foreign none s (detectExpires s) ∧ BudgetTold .penRelease s (detectExpires s)) := by
  unfold detectExpires; rw [if_pos hd]
  refine ⟨fun h => ?_, fun h => ?_⟩
  · rw [if_pos h]; exact enterFault_acts _ s
  · rw [if_neg (by simp [h])]; exact ⟨goSession_releases _ _ _ rfl, goSession_releaseBudget _ _ _⟩

/-! ## The guard's operations (R126 to R142, R156, R157) -/

/-- What a release or a claim of the base gives the pen is read from the figures. -/
theorem afterRelease_congr {g h : Guard} (k : g.figures = h.figures) : afterRelease g = afterRelease h := by
  simp only [Guard.figures, Prod.mk.injEq] at k
  obtain ⟨_, k2, k3, k4, k5, k6⟩ := k
  simp only [afterRelease, regranted, highestFit, k2, k3, k4, k5, k6]

theorem besideClaim_congr {g h : Guard} (n : Nat) (k : g.figures = h.figures) : besideClaim g n = besideClaim h n := by
  simp only [Guard.figures, Prod.mk.injEq] at k
  obtain ⟨_, k2, k3, k4, k5, k6⟩ := k
  simp only [besideClaim, regranted, highestFit, k2, k3, k4, k5, k6]

/-- What the guard did to the pen, seen from a state with the same session and figures. -/
theorem told_from {g : Option PenLevel} {c : BudgetCause} {s u t : State} (k : KeepsSession u s) (kg : u.guard.figures = s.guard.figures)
    (kn : u.mgmt.notices.budget = s.mgmt.notices.budget) (h : PenFollows g u t ∧ BudgetTold c u t) : PenFollows g s t ∧ BudgetTold c s t :=
  ⟨penFollows_between k (by have := kg; simp only [Guard.figures, Prod.mk.injEq] at this; exact this.2.2.2.1) (keepsTold_refl t) h.1,
    budgetTold_between kg kn k.2.2.2.2.2.2.2.2 k.1 rfl rfl h.2⟩

/-- The debounce's expiry: the base's claim, or none of it (R44, R45, R62, R126). -/
theorem debounceExpires_acts (s : State) (hd : s.link.debounce.isSome = true) (h0 : s.guard.baseGrant = 0) : let t := debounceExpires s
    (railLatched s = true → PenFollows s.guard.penGrant s t) ∧
    (railLatched s = false → 250 ≤ s.guard.budget → PenFollows (besideClaim s.guard 250) s t ∧ BudgetTold .baseClaim s t) ∧
    (railLatched s = false → s.guard.budget < 250 → PenFollows s.guard.penGrant s t) := by
  intro t
  let a : State := { s with link := { s.link with debounce := none, session := .opened }
                            att := { s.att with present := true, attachCount := wrapInc s.att.attachCount } }
  let u : State := switchOutputs (posturePresent a)
  have b : Beside (posturePresent a) s := beside_trans (posturePresent_beside a) (beside_of rfl rfl rfl rfl rfl)
  have o := switchOutputs_keeps (posturePresent a)
  have k : KeepsSession u s := keepsSession_trans o.1 (beside_session b)
  have kf : u.guard.figures = s.guard.figures := o.2.1.trans (by rw [b.1])
  have kn : u.mgmt.notices.budget = s.mgmt.notices.budget := o.2.2.trans b.2.2.2.2.2.1
  have st : KeepsSettings u.guard (posturePresent a).guard := by simp [u, KeepsSettings, KeepsMarks]
  have rl : railLatched u = railLatched s := by
    simp only [KeepsSettings, KeepsMarks] at st; rw [b.1] at st; simp [railLatched, st]
  have e : t = if railLatched u = true then enterFaulted u else enterPowering false u := by
    simp only [t, debounceExpires, hd, if_true]; rfl
  have kk := kf
  simp only [Guard.figures, Prod.mk.injEq] at kk
  have ar : afterRelease u.guard = s.guard.penGrant := by rw [afterRelease_congr kf, afterRelease, if_pos h0]
  refine ⟨fun h => ?_, fun h hb => ?_, fun h hb => ?_⟩
  · rw [e, if_pos (by rw [rl, h])]
    have := told_from k kf kn (enterFaulted_told u); rw [ar] at this; exact this.1
  · rw [e, if_neg (by rw [rl, h]; simp), ← besideClaim_congr 250 kf]
    exact told_from k kf kn (enterPowering_told u (by rw [kk.2.1]; exact hb))
  · rw [e, if_neg (by rw [rl, h]; simp)]
    have := told_from k kf kn (enterPowering_refused_told false u (by rw [kk.2.1]; exact hb) (by rw [kk.2.2.1, h0]; exact Nat.zero_le _))
    rw [ar] at this; exact this.1

/-- A detach by the pin (R63, R127). -/
theorem presenceReleases_acts (s : State) (hp : s.pins.presence = true) (hl : s.link.state ∉ [.absent, .settling]) :
    PenFollows (afterRelease s.guard) s (presenceReleases s) ∧ BudgetTold .baseRelease s (presenceReleases s) := by
  let u : State := { s with pins := { s.pins with presence := false } }
  have e : presenceReleases s = detachBase u := by
    unfold presenceReleases; rw [if_neg (by simp [hp])]; dsimp only
    split <;> rename_i h
    · rw [h] at hl; simp at hl
    · rw [h] at hl; simp at hl
    · rfl
  rw [e]
  exact told_between (u := u) (beside_of rfl rfl rfl rfl rfl) (beside_of rfl rfl rfl rfl rfl) (detachBase_told u)

/-- BASE-RESET from UNPOWERED (R65, R126). -/
theorem baseReset_acts (s : State) (hs : s.link.state = .unpowered) (h0 : s.guard.baseGrant = 0) : let t := (baseResetTaken s).1
    (250 ≤ s.guard.budget → PenFollows (besideClaim s.guard 250) s t ∧ BudgetTold .baseClaim s t) ∧
    (s.guard.budget < 250 → PenFollows s.guard.penGrant s t) := by
  intro t
  have e : Beside t (enterPowering false s) := by
    simp only [t, baseResetTaken, hs]; split <;> exact beside_of rfl rfl rfl rfl rfl
  refine ⟨fun h => told_between (beside_of rfl rfl rfl rfl rfl) e (enterPowering_told s h), fun h => ?_⟩
  have := told_between (beside_of rfl rfl rfl rfl rfl) e (enterPowering_refused_told false s h (by rw [h0]; exact Nat.zero_le _))
  rw [show afterRelease s.guard = s.guard.penGrant by rw [afterRelease, if_pos h0]] at this
  exact this.1

/-- A latch of the rail: the base's grant is released (R62, R127, R137). -/
theorem setLatch_railTold (c : OutCause) (s : State) (hc : c = .railOc ∨ c = .railUv) :
    PenFollows (afterRelease s.guard) s (setLatch c s) ∧ BudgetTold .baseRelease s (setLatch c s) := by
  let x : State := changeAlarm (causeOf c) (fun a => { a with latch := true, detected := true }) s
  have e : setLatch c s = enterFaulted (switchOutputs x) := by rcases hc with rfl | rfl <;> rfl
  have o := switchOutputs_keeps x
  have k : KeepsSession (switchOutputs x) s := keepsSession_trans o.1 (by simp [x, KeepsSession, changeAlarm])
  have kf : (switchOutputs x).guard.figures = s.guard.figures := o.2.1
  rw [e, ← afterRelease_congr kf]
  exact told_from k kf o.2.2 (enterFaulted_told _)

/-- A latch of the coil in a session that is not over: FAULT, its claim released (R137, R157). -/
theorem setLatch_coilTold (c : OutCause) (s : State) (hc : c = .coilOc ∨ c = .coilUv) (hs : s.pen.session ∉ [.noPen, .foreign, .fault]) :
    SessionReleases .fault (some .coilLatch) s (setLatch c s) ∧ BudgetTold .penRelease s (setLatch c s) := by
  let x : State := changeAlarm (causeOf c) (fun a => { a with latch := true, detected := true }) s
  have o := switchOutputs_keeps x
  have hx : (switchOutputs x).pen.session = s.pen.session := o.1.1
  have e : setLatch c s = enterFault .coilLatch (switchOutputs x) := by
    have : setLatch c s = coilLatchTold (switchOutputs x) := by rcases hc with rfl | rfl <;> rfl
    rw [this]; unfold coilLatchTold
    split <;> rename_i h <;> first | rfl | (rw [hx] at h; rw [h] at hs; simp at hs)
  rw [e]
  exact releases_from (u := switchOutputs x) hx o.1.2.2.2.2.2.2.2.2 o.2.1 o.2.2 (enterFault_acts _ _)

/-- A LIMIT step-down that leaves the pen a grant keeps the session (R138). -/
theorem setCap_told (cap : PenLevel) (s : State) : let capped : Guard := { s.guard with cap := some cap }
    BudgetTold .limit s (setCap cap s) ∧
    (s.pen.session ≠ .paused → capped.target.bind (bestFit capped.budget capped.baseGrant) ≠ none → SessionStays s (setCap cap s)) := by
  intro capped
  let g : Guard := { capped with penGrant := capped.target.bind (bestFit capped.budget capped.baseGrant) }
  let x : State := changeAlarm .coilOc (fun a => { a with detected := false, filter := if a.raw then some (filterLength .coilOc a) else none })
    (postBudget s.guard .limit { s with guard := g })
  have o := switchOutputs_keeps x
  have n := postBudget_notice .charge s.guard .limit { s with guard := g } (by simp)
  have k : KeepsSession (switchOutputs x) s := keepsSession_trans o.1
    ⟨by simp [x, changeAlarm], by simp [x, changeAlarm], by simp [x, changeAlarm], by simp [x, changeAlarm], by simp [x, changeAlarm, g, capped],
      by simp [x, changeAlarm], by simp [x, changeAlarm], n.1, n.2⟩
  have f : (switchOutputs x).guard.figures = g.figures := o.2.1.trans (by
    have : (postBudget s.guard .limit { s with guard := g }).guard = g := by simp
    simp [x, changeAlarm, Guard.figures, Guard.budget, this])
  have h := guardTold s (switchOutputs x) g .limit k f o.2.2
  refine ⟨h.2, fun hs hg => ?_⟩
  have p := h.1
  unfold PenFollows at p
  split at p
  · exact p.2
  split at p
  · rename_i k2; exact absurd k2.2 hg
  split at p
  · rename_i k3; exact absurd k3.1 hs
  · exact p.2

/-- What a detection tells before its protection is applied leaves the session and the figures. -/
theorem detectedTold_keeps (c : Cause) (p : Protection) (g : AlarmGrant) (f : Alarm → Alarm) (s : State) :
    let u := tellAlarm c p g (reportAlarm (changeAlarm c f s))
    KeepsSession u s ∧ u.guard.figures = s.guard.figures ∧ u.mgmt.notices.budget = s.mgmt.notices.budget := by
  intro u
  let x : State := reportAlarm (changeAlarm c f s)
  have hx : KeepsSession x s ∧ x.guard.figures = s.guard.figures ∧ x.mgmt.notices.budget = s.mgmt.notices.budget := by
    refine ⟨⟨by simp [x], by simp [x], by simp [x], by simp [x], by simp [x, changeAlarm], by simp [x], ?_, by simp [x], by simp [x]⟩, ?_,
      by simp [x]⟩
    · simp [x, reportAlarm, setInputs, changeAlarm]
    · simp [x, Guard.figures, Guard.budget, changeAlarm]
  have b : Beside u x := by
    simp only [u, tellAlarm]
    split
    · exact postEvent_beside _ _
    · exact beside_trans (postEvent_beside _ _) (post_beside _ _ (by simp [Notice.kind]))
  exact ⟨keepsSession_trans (beside_session b) hx.1, by rw [b.1]; exact hx.2.1, b.2.2.2.2.2.1.trans hx.2.2⟩

/-- A filter's expiry with its protection (R136 to R138). -/
theorem filterExpires_acts (c : OutCause) (s : State) (hf : (s.guard.alarms.get (causeOf c)).filter.isSome = true)
    (he : (s.guard.alarms.get (causeOf c)).enabled = true) : let t := filterExpires c s
    (c = .railOc ∨ c = .railUv → PenFollows (afterRelease s.guard) s t ∧ BudgetTold .baseRelease s t) ∧
    (c = .coilUv ∨ c = .coilOc ∧ (s.guard.mode = .stop ∨ s.guard.penGrant ∉ [some .fast, some .steady]) →
      s.pen.session ∉ [.noPen, .foreign, .fault] → SessionReleases .fault (some .coilLatch) s t ∧ BudgetTold .penRelease s t) ∧
    (∀ l cap : PenLevel, c = .coilOc → s.guard.mode = .limit → s.guard.penGrant = some l → (l = .fast ∧ cap = .steady ∨ l = .steady ∧ cap = .trickle) →
      s.guard.claimed = some l → s.guard.baseGrant + levelMw l ≤ s.guard.budget → s.pen.session ≠ .paused →
      SessionStays s t ∧ BudgetTold .limit s t) := by
  intro t
  let p := protectionFor c s
  let u := tellAlarm (causeOf c) p (grantOf c s)
    (reportAlarm (changeAlarm (causeOf c) (fun a => { a with detected := true, sticky := true, filter := none }) s))
  have k := detectedTold_keeps (causeOf c) p (grantOf c s) (fun a => { a with detected := true, sticky := true, filter := none }) s
  have e : t = applyProtection c p u := by
    simp only [t, filterExpires, alarmOf, hf, if_true]; rfl
  refine ⟨fun hc => ?_, fun hc hs => ?_, fun l cap hc hm hg hl hcl hb hs => ?_⟩
  · have hp : p = .stop := by rcases hc with rfl | rfl <;> simp [p, protectionFor, alarmOf, he]
    rw [e, hp]
    have := told_from k.1 k.2.1 k.2.2 (setLatch_railTold c u hc)
    rw [afterRelease_congr k.2.1] at this; exact this
  · have hp : p = .stop := by
      rcases hc with rfl | ⟨rfl, h | h⟩
      · simp [p, protectionFor, alarmOf, he]
      · simp [p, protectionFor, alarmOf, he, h]
      · simp only [p, protectionFor, alarmOf, he, if_true]
        split <;> first | rfl | (rename_i k1 k2; rw [k2] at h; simp at h)
    rw [e, hp]
    exact releases_from (u := u) k.1.1 k.1.2.2.2.2.2.2.2.2 k.2.1 k.2.2
      (setLatch_coilTold c u (hc.elim Or.inr (fun h => Or.inl h.1)) (by rw [k.1.1]; exact hs))
  · subst hc
    have hp : p = .limit cap := by
      rcases hl with ⟨rfl, rfl⟩ | ⟨rfl, rfl⟩ <;> simp [p, protectionFor, alarmOf, he, hm, hg]
    rw [e, hp]
    have kf := k.2.1
    simp only [Guard.figures, Prod.mk.injEq] at kf
    obtain ⟨f1, f2, f3, f4, f5, f6⟩ := kf
    have c1 := setCap_told cap u
    have room : (Guard.target { u.guard with cap := some cap }).bind (bestFit (Guard.budget { u.guard with cap := some cap }) u.guard.baseGrant) ≠ none := by
      have hbud : Guard.budget { u.guard with cap := some cap } = s.guard.budget := f2
      rw [hbud, f3]
      have tg : Guard.target { u.guard with cap := some cap } = some cap := by
        have f5' : u.guard.claimed = some l := f5.trans hcl
        rcases hl with ⟨rfl, rfl⟩ | ⟨rfl, rfl⟩ <;> simp only [Guard.target, f5'] <;> rfl
      rw [tg]
      have le : levelMw cap + s.guard.baseGrant ≤ s.guard.budget := by
        rcases hl with ⟨rfl, rfl⟩ | ⟨rfl, rfl⟩ <;> simp only [levelMw] at hb ⊢ <;> omega
      have := (bestFit_spec s.guard.budget s.guard.baseGrant cap).2.2 cap le_rfl (by omega)
      intro hn
      simp only [Option.bind_some] at hn
      rw [hn] at this; cases cap <;> simp [rank] at this
    have st := c1.2 (by rw [k.1.1]; exact hs) room
    exact ⟨⟨st.1.trans k.1.1, st.2.1.trans k.1.2.2.2.2.1, st.2.2.1.trans k.1.2.2.2.2.2.1, st.2.2.2.1.trans k.1.2.2.2.2.2.2.1,
      st.2.2.2.2.trans k.1.2.2.2.2.2.2.2.1⟩, budgetTold_between (u := u) k.2.1 k.2.2 k.1.2.2.2.2.2.2.2.2 k.1.1 rfl rfl c1.1⟩

/-! ## ALARM-CLEAR (R142) -/

/-- What a session in FAULT keeps through the guard's operations beside it. -/
@[reducible] def KeepsFault (t s : State) : Prop :=
  t.pen.session = s.pen.session ∧ t.pen.fault = s.pen.fault ∧ t.pen.hold = s.pen.hold ∧ t.pen.docked = s.pen.docked

theorem keepsFault_trans {a b c : State} (h : KeepsFault a b) (k : KeepsFault b c) : KeepsFault a c := by
  simp only [KeepsFault] at *; simp_all

/-- A session in FAULT is told nothing by a change of its grant. -/
theorem penTold_inFault (b : Option PenLevel) (u : State) (h : u.pen.session = .fault) : penTold b u = u := by
  rw [penTold_eq, h]; simp

/-- No change of a grant makes a session one in FAULT by the coil's latch. -/
theorem penTold_latchFault (b : Option PenLevel) (u : State)
    (h : (penTold b u).pen.session = .fault ∧ (penTold b u).pen.fault = some .coilLatch) :
    u.pen.session = .fault ∧ u.pen.fault = some .coilLatch := by
  by_cases k : u.pen.session = .fault
  · rw [penTold_inFault b u k] at h; exact h
  · exact absurd h.1 ((penTold_session b u).2 k)

theorem releaseBase_inFault (s : State) (h : s.pen.session = .fault) : KeepsFault (releaseBase s) s := by
  unfold releaseBase; dsimp only
  rw [penTold_inFault _ _ (by simpa using h)]
  simp [KeepsFault]

/-- The base's claim of its allowance keeps a session in FAULT, and makes none of another. -/
theorem enterPowering_inFault (s : State) : (s.pen.session = .fault → KeepsFault (enterPowering false s) s) ∧
    (250 ≤ s.guard.budget → (enterPowering false s).pen.session = .fault ∧ (enterPowering false s).pen.fault = some .coilLatch →
      s.pen.session = .fault ∧ s.pen.fault = some .coilLatch) := by
  have b := setLinkState_beside .powering s
  unfold enterPowering; dsimp only
  generalize setLinkState .powering s = u at b ⊢
  have cb : ∀ g, u.guard.baseClaim allowance = some g → claimBase false allowance u =
      (penTold u.guard.penGrant (switchOutputs (postBudget u.guard .baseClaim { u with guard := g })), true) := by
    intro g hg; simp [claimBase, hg]
  refine ⟨fun h => ?_, fun hb h => ?_⟩
  · cases hg : u.guard.baseClaim allowance with
    | some g =>
      rw [cb g hg]; dsimp only; rw [if_pos rfl, penTold_inFault _ _ (by simp [b.2.1, h])]
      simp [KeepsFault, b.2.1]
    | none =>
      have c : claimBase false allowance u = (u, false) := by simp [claimBase, hg]
      rw [c]; dsimp only; rw [if_neg (by simp)]
      have e := entered_beside .unpowered .unpowered u
      unfold enterUnpowered; dsimp only
      generalize setLinkState .unpowered (flushDown (linkEnding (stopLinkTimers (endDiagnosis .unpowered u)))) = v at e ⊢
      have r := releaseBase_inFault v (by rw [e.2.1, b.2.1]; exact h)
      simp only [KeepsFault, post_frame] at r ⊢
      rw [e.2.1, b.2.1] at r
      exact r
  · rw [cb _ (baseClaim_granted u.guard allowance (by rw [b.1]; exact hb))] at h
    simp only [if_true] at h
    have := penTold_latchFault _ _ h
    simpa [b.2.1] using this

/-- A clear with the cap removed re-grants the pen; the rail's return claims for the base, and the coil's return restarts the session. -/
theorem clearAlarms_acts (m : Nat) (s : State) : let t := clearAlarms m s
    let railGoes := railLatched s = true ∧ railLatched t = false ∧ s.link.state = .faulted ∧ s.att.present = true
    let coilGoes := coilLatched s = true ∧ coilLatched t = false ∧ s.pen.session = .fault ∧ s.pen.fault = some .coilLatch
    (m.testBit 2 = true → s.guard.cap.isSome = true → ¬ railGoes → ¬ coilGoes →
      PenFollows (regranted { s.guard with cap := none } s.guard.baseGrant) s t ∧ BudgetTold .clear s t) ∧
    ((m.testBit 2 = false ∨ s.guard.cap = none) → ¬ railGoes → ¬ coilGoes →
      PenFollows s.guard.penGrant s t ∧ t.mgmt.notices.budget = s.mgmt.notices.budget) ∧
    ((m.testBit 2 = false ∨ s.guard.cap = none) → railGoes → ¬ coilGoes → 250 ≤ s.guard.budget →
      PenFollows (besideClaim s.guard 250) s t ∧ BudgetTold .baseClaim s t) ∧
    (coilGoes → s.pen.hold.isSome = true → SessionReleases .held none s t) ∧
    (coilGoes → s.pen.hold = none → SessionClaims .detect .trickle s t) := by
  intro t railGoes coilGoes
  let g0 : Guard := { s.guard with alarms := clearedAlarms m s }
  let g : Guard := if (m.testBit 2 && s.guard.cap.isSome) = true then Guard.regrant { g0 with cap := none } else g0
  let w : State := switchOutputs (postBudget s.guard .clear { s with guard := g })
  let x : State := penTold s.guard.penGrant w
  let y : State := if (railLatched s && !railLatched x && x.link.state = .faulted && x.att.present) = true then enterPowering false x else x
  have e : t = if (coilLatched s && !coilLatched y) = true then coilLatchGone y else y := by
    have hg : (if (m.testBit 2 && s.guard.cap.isSome) = true then
        ({ s with guard := Guard.regrant { g0 with cap := none } } : State) else { s with guard := g0 }) = { s with guard := g } := by
      simp only [g]; split <;> rfl
    simp only [t, clearAlarms, clearNamed_alarms, named_testBit]
    rw [show (if (m.testBit 2 && s.guard.cap.isSome) = true then
        ({ s with guard := Guard.regrant { s.guard with cap := none, alarms := clearedAlarms m s } } : State)
        else { s with guard := { s.guard with alarms := clearedAlarms m s } }) = { s with guard := g } from hg]
  have gc : g.claimed = s.guard.claimed := by simp only [g]; split <;> simp [g0]
  have px : PenFollows g.penGrant s x ∧ BudgetTold .clear s x := guardChange_told s g .clear gc
  have kw : KeepsSession w s := written_keeps s g s.guard .clear gc
  have kp : w.pen.hold = s.pen.hold ∧ w.pen.docked = s.pen.docked ∧ w.pen.fault = s.pen.fault ∧ w.pen.session = s.pen.session := by simp [w]
  have xf : s.pen.session = .fault → x = w := fun h => penTold_inFault _ w (kp.2.2.2.trans h)
  have xl : x.link = s.link ∧ x.att = s.att := by simp [x, w]
  have yx : KeepsAlarms y x := by
    simp only [y]; split
    · exact enterPowering_alarms false x
    · simp [KeepsAlarms, KeepsMarks]
  have ry : railLatched y = railLatched x := by simp only [KeepsAlarms, KeepsMarks] at yx; simp [railLatched, yx]
  have rt : railLatched t = railLatched x ∧ coilLatched t = coilLatched y := by
    rw [← ry, e]; split
    · have k := coilLatchGone_settings y
      simp only [KeepsSettings, KeepsMarks] at k; simp [railLatched, coilLatched, k]
    · exact ⟨rfl, rfl⟩
  have ey : railGoes → y = enterPowering false x := fun h => by
    simp only [y]; rw [if_pos]; simp [h.1, ← rt.1, h.2.1, xl.1, xl.2, h.2.2.1, h.2.2.2]
  have ex : ¬ railGoes → y = x := fun h => by
    simp only [y]; rw [if_neg]; intro k; apply h
    simp only [Bool.and_eq_true, decide_eq_true_eq, Bool.not_eq_true', xl.1, xl.2] at k
    exact ⟨k.1.1.1, rt.1.trans k.1.1.2, k.1.2, k.2⟩
  -- what FAULT by the coil's latch keeps, to and from y
  have fy : s.pen.session = .fault → KeepsFault y s := fun h => by
    have kx : KeepsFault x s := by rw [xf h]; exact ⟨kp.2.2.2, kp.2.2.1, kp.1, kp.2.1⟩
    by_cases r : railGoes
    · rw [ey r]; exact keepsFault_trans ((enterPowering_inFault x).1 (kx.1.trans h)) kx
    · rw [ex r]; exact kx
  have et : coilGoes → t = enterDetect y := fun h => by
    have k := fy h.2.2.1
    rw [e, if_pos (by simp [h.1, ← rt.2, h.2.1]), coilLatchGone, if_pos ⟨k.1.trans h.2.2.1, k.2.1.trans h.2.2.2⟩]
  have en : ¬ coilGoes → (railGoes → 250 ≤ x.guard.budget) → t = y := fun h hb => by
    rw [e]; split
    · rename_i c
      simp only [Bool.and_eq_true, Bool.not_eq_true'] at c
      unfold coilLatchGone; rw [if_neg]; intro k
      apply h
      have kx : x.pen.session = .fault ∧ x.pen.fault = some .coilLatch := by
        by_cases r : railGoes
        · rw [ey r] at k; exact (enterPowering_inFault x).2 (hb r) k
        · rw [ex r] at k; exact k
      have kk := penTold_latchFault _ w kx
      exact ⟨c.1, rt.2.trans c.2, kp.2.2.2.symm.trans kk.1, kp.2.2.1.symm.trans kk.2⟩
    · rfl
  have ye : y.mgmt.enables = s.mgmt.enables := by
    have : x.mgmt.enables = s.mgmt.enables := by simp [x, w]
    rw [← this]; simp only [y]; split
    · exact (enterPowering_notice .posture false x (by simp [aside])).2
    · rfl
  have keptCap : m.testBit 2 = false ∨ s.guard.cap = none → g = g0 := fun h => by
    simp only [g]; rw [if_neg]; rcases h with h | h <;> simp [h]
  have same : m.testBit 2 = false ∨ s.guard.cap = none → x = w ∧ w.guard.figures = s.guard.figures ∧
      w.mgmt.notices.budget = s.mgmt.notices.budget := fun h => by
    have hg := keptCap h
    have o := switchOutputs_keeps (postBudget s.guard .clear { s with guard := g })
    have f : (postBudget s.guard .clear { s with guard := g }) = { s with guard := g } := by
      unfold postBudget; rw [if_pos (by rw [hg]; rfl)]
    have wf : w.guard.figures = s.guard.figures := o.2.1.trans (by rw [f, hg]; rfl)
    refine ⟨?_, wf, o.2.2.trans (by rw [f])⟩
    have wg : w.guard.penGrant = s.guard.penGrant := by simp only [Guard.figures, Prod.mk.injEq] at wf; exact wf.2.2.2.1
    exact (penTold_eq s.guard.penGrant w).trans (if_pos wg)
  refine ⟨fun hm hcap hr hc => ?_, fun h hr hc => ?_, fun h hr hc hb => ?_, fun h hh => ?_, fun h hh => ?_⟩
  · rw [en hc (fun r => absurd r hr), ex hr]
    have hg : g = Guard.regrant { g0 with cap := none } := by simp only [g]; rw [if_pos (by simp [hm, hcap])]
    rw [hg, regrant_grant] at px; exact px
  · rw [en hc (fun r => absurd r hr), ex hr]
    refine ⟨?_, by rw [(same h).1]; exact (same h).2.2⟩
    rw [keptCap h] at px; exact px.1
  · have k := same h
    have kf := k.2.1
    simp only [Guard.figures, Prod.mk.injEq] at kf
    have hx : 250 ≤ x.guard.budget := by rw [k.1, kf.2.1]; exact hb
    rw [en hc (fun _ => hx), ey hr, k.1]
    rw [k.1] at hx
    have p := told_from kw k.2.1 k.2.2 (enterPowering_told w hx)
    rw [besideClaim_congr 250 k.2.1] at p; exact p
  · have k := fy h.2.2.1
    rw [et h]
    exact sessionReleases_congr k.1.symm ye.symm (keepsTold_refl _) ((enterDetect_acts y).1 (by rw [k.2.2.1]; exact hh)).1
  · have k := fy h.2.2.1
    rw [et h]
    exact sessionClaims_congr k.1.symm k.2.2.2.symm ye.symm (keepsTold_refl _) ((enterDetect_acts y).2 (by rw [k.2.2.1]; exact hh)).1

/-! ## The posture (R93 to R104) -/

/-- What stands of the posture and of its notice through what an operation does before it evaluates. -/
@[reducible] def KeepsPosture (u s : State) : Prop :=
  u.posture.posture = s.posture.posture ∧ u.posture.window = s.posture.window ∧ u.posture.previous = s.posture.previous ∧
  KeepsNotice .posture u s

theorem evaluate_after {u s : State} (h : KeepsPosture u s) : PostureFollows s (evaluate u) :=
  evaluate_follows s u h.1 h.2.1 h.2.2.1 h.2.2.2.1 (by rw [h.2.2.2.2])

theorem applyReference_keeps (src : RefSource) (c : Nat) (s : State) : KeepsPosture (applyReference src c s) s := by
  unfold applyReference; (repeat' split)
  · exact ⟨rfl, rfl, rfl, rfl, rfl⟩
  · exact ⟨by simp, by simp, by simp, post_notice _ _ _ (by simp [Notice.kind])⟩
  · exact ⟨rfl, rfl, rfl, rfl, rfl⟩
  · exact ⟨rfl, rfl, rfl, rfl, rfl⟩

/-- A reference that changes the count evaluates; one that leaves it changes nothing of the posture (R93, R102). -/
theorem reference_follows (src : RefSource) (c : Nat) (s : State) :
    ((applyReference src c s).posture.count ≠ s.posture.count → PostureFollows s (reference src c s)) ∧
    ((applyReference src c s).posture.count = s.posture.count → KeepsPosture (reference src c s) s) := by
  have k := applyReference_keeps src c s
  refine ⟨fun h => ?_, fun h => ?_⟩
  · unfold reference; dsimp only; rw [if_neg h]; exact evaluate_after k
  · unfold reference; dsimp only; rw [if_pos h]; exact k

/-- A reference more than 4 counts away is told as a slip, and no other is (R93). -/
theorem applyReference_slip (src : RefSource) (c : Nat) (s : State) : let t := applyReference src c s
    (∀ n, s.posture.count = some n → (c + 4 < n ∨ n + 4 < c) → s.mgmt.enables.encoder = true →
      ∃ p, t.mgmt.notices.encoder = some p ∧ p.notice = .encoderSlip src n c) ∧
    ((∀ n, s.posture.count = some n → n ≤ c + 4 ∧ c ≤ n + 4) → t.mgmt.notices.encoder = s.mgmt.notices.encoder) := by
  intro t
  refine ⟨fun n hn hf he => ?_, fun h => ?_⟩
  · have f : farApart n c = true := by simp only [farApart, Bool.or_eq_true, decide_eq_true_eq]; omega
    simp only [t, applyReference, hn, f, if_true, post, Notice.kind, PerKind.get, he, PerKind.set]
    cases s.mgmt.notices.encoder <;> exact ⟨_, rfl, rfl⟩
  · simp only [t, applyReference]
    split
    · rfl
    · rename_i n hn
      have f : farApart n c = false := by have := h n hn; simp only [farApart, Bool.or_eq_false_iff, decide_eq_false_iff_not]; omega
      rw [f]; (repeat' split) <;> first | rfl | contradiction

/-- The lid-closed switch with the base present (R94, R103). -/
theorem lidAsserts_follows (s : State) (hp : s.att.present = true) (hl : s.pins.lidClosed = false) : PostureFollows s (lidAsserts s) := by
  let u : State := { s with pins := { s.pins with lidClosed := true }, posture := { s.posture with lidOpened := false } }
  have e : lidAsserts s = evaluate (postEvent .lidClosed (applyReference .lidSwitch 0 u)) := by
    unfold lidAsserts lidCloses; simp only [hl, hp, if_true, Bool.false_eq_true, if_false]; rfl
  have k : KeepsPosture (applyReference .lidSwitch 0 u) s := applyReference_keeps .lidSwitch 0 u
  rw [e]; exact evaluate_after ⟨k.1, k.2.1, k.2.2.1, k.2.2.2⟩

theorem lidReleases_follows (s : State) (hp : s.att.present = true) (hl : s.pins.lidClosed = true) : PostureFollows s (lidReleases s) := by
  unfold lidReleases movement; simp only [hl, hp, if_true, Bool.not_true, Bool.false_eq_true, if_false]
  exact evaluate_after ⟨rfl, rfl, rfl, rfl, rfl⟩

/-- The fold-flat switch with the lid open (R95). -/
theorem foldFlatAsserts_follows (s : State) (hp : s.att.present = true) (hl : s.pins.lidClosed = false) (hf : s.pins.foldFlat = false) :
    (s.posture.count ≠ some 180 → PostureFollows s (foldFlatAsserts s)) ∧
    (s.posture.count = some 180 → KeepsPosture (foldFlatAsserts s) s) := by
  let u : State := { s with pins := { s.pins with foldFlat := true } }
  have e : foldFlatAsserts s = reference .flatSwitch 180 u := by
    unfold foldFlatAsserts; simp [hp, hl, hf, u]
  have k := reference_follows .flatSwitch 180 u
  have c : (applyReference .flatSwitch 180 u).posture.count = some 180 := by
    unfold applyReference; (repeat' split) <;> simp_all
  rw [e]
  rw [c] at k
  exact ⟨fun h => k.1 (Ne.symm h), fun h => k.2 h.symm⟩

/-- A gravity check evaluates where its reference changes the count (R97, R98, R102). -/
theorem gravityCheck_follows (b : Bool) (s : State) :
    ((gravityCheck b s).posture.count ≠ s.posture.count → PostureFollows s (gravityCheck b s)) ∧
    ((gravityCheck b s).posture.count = s.posture.count → KeepsPosture (gravityCheck b s) s) := by
  have rc : ∀ c u, (reference .gravity c u).posture.count = (applyReference .gravity c u).posture.count := by
    intro c u; unfold reference evaluate; dsimp only; (repeat' split) <;> simp [postEvent]
  have keeps : KeepsPosture s s := ⟨rfl, rfl, rfl, rfl, rfl⟩
  unfold gravityCheck; split
  · split
    · dsimp only; split
      · have r := fun c => reference_follows .gravity c { s with posture := { s.posture with checked := true } }
        refine ⟨fun h => (r _).1 (by rw [← rc]; exact h), fun h => (r _).2 (by rw [← rc]; exact h)⟩
      · exact ⟨fun h => absurd rfl h, fun _ => keeps⟩
    · dsimp only; split
      · have r := fun c => reference_follows .gravity c { s with posture := { s.posture with checked := true } }
        refine ⟨fun h => (r _).1 (by rw [← rc]; exact h), fun h => (r _).2 (by rw [← rc]; exact h)⟩
      · exact ⟨fun h => absurd rfl h, fun _ => keeps⟩
  · exact ⟨fun h => absurd rfl h, fun _ => keeps⟩

/-- A change of candidate with the motion SETTLED evaluates the posture in the same change, and nothing else of it is touched (R102, R114). -/
theorem orientSample_follows (x y z : Word16) (s : State) : let u := orientSample x y z s
    (s.posture.moving = false → u.orient.candidate ≠ s.orient.candidate →
      PostureFollows s u ∧
      u.posture = { s.posture with posture := u.posture.posture, previous := u.posture.previous, window := u.posture.window } ∧
      u.policy.events = s.policy.events ++
        (if s.posture.posture = u.posture.posture then [] else [.postureChanged s.posture.posture u.posture.posture])) ∧
    (s.posture.moving = true ∨ u.orient.candidate = s.orient.candidate →
      u.posture = s.posture ∧ u.mgmt = s.mgmt ∧ u.policy = s.policy) := by
  intro u
  have ho : ∀ v : State, (evaluate v).orient = v.orient := by intro v; unfold evaluate; dsimp only; split <;> simp [postEvent]
  simp only [u, orientSample, setCandidate]
  generalize candidateAfter s.orient.candidate x.toInt y.toInt z.toInt = c
  by_cases hc : c = s.orient.candidate
  · simp [hc]
  · simp only [if_neg hc]
    cases hm : s.posture.moving
    · simp only [Bool.false_eq_true, if_false]
      let v : State := { s with orient := { s.orient with sample := some (x, y, z), flat := isFlat z.toInt, candidate := c, stable := 0, dwellDue := false } }
      have f : PostureFollows s (evaluate v) := evaluate_after ⟨rfl, rfl, rfl, rfl, rfl⟩
      refine ⟨fun _ _ => ⟨f, ?_, ?_⟩, fun h => ?_⟩
      · show (evaluate v).posture = _
        by_cases k : (evaluated v).1 = v.posture.posture
        · simp [evaluate, k, v, hm]
        · simp [evaluate, k, v, hm, postEvent]
      · show (evaluate v).policy.events = s.policy.events ++ (if s.posture.posture = (evaluate v).posture.posture then []
          else [.postureChanged s.posture.posture (evaluate v).posture.posture])
        by_cases k : (evaluated v).1 = v.posture.posture
        · have q : evaluate v = { v with posture := { v.posture with window := (evaluated v).2 } } := by simp [evaluate, k]
          rw [q]; simp [v]
        · have k' : ¬ (s.posture.posture = (evaluated v).1) := fun q => k q.symm
          have q : (evaluate v).posture.posture = (evaluated v).1 ∧
              (evaluate v).policy.events = s.policy.events ++ [.postureChanged s.posture.posture (evaluated v).1] := by
            simp [evaluate, k, postEvent, v]
          rw [q.1, q.2, if_neg k']
      · rcases h with h | h
        · exact absurd h (by simp)
        · exact absurd (h.symm.trans (congrArg OrientUnit.candidate (ho v))).symm hc
    · simp [hm]

end Sys2Proof.Machine
end

