-- ==== Sys2Proof/Laws/Codec.lean ====
section
/-! SUPPORT. Reading what was written (R194): each reader of Machine/Operands.lean gives back the value its encoding was made of, and leaves
the bytes after it. -/
namespace Sys2Proof.Machine
set_option linter.all false

/-- A reader takes the bytes of a value off the front and leaves the rest. -/
def Reads {α : Type} (p : Parse α) (bytes : List Byte) (a : α) : Prop := ∀ r, p (bytes ++ r) = some (a, r)

theorem reads_8 (n : Nat) (h : n < 256) : Reads parse8 (enc8 n) n := by
  intro r; simp [enc8, parse8]; omega

theorem reads_16 (n : Nat) (h : n < 65536) : Reads parse16 (enc16 n) n := by
  intro r; simp [enc16, parse16]; omega

theorem reads_two (b : Bool) : Reads parseTwo (encTwo b) b := by
  intro r; cases b <;> simp [encTwo, parseTwo]

theorem reads_opt {α β : Type} {p : Parse β} {enc : α → List Byte} (f : α → β) (o : Option α) (h : ∀ a, o = some a →
    Reads p (enc a) (f a)) :
    Reads (parseOpt p) (encOpt enc o) (o.map f) := by
  intro r
  cases o with
  | none => simp [encOpt, parseOpt]
  | some a => simp [encOpt, parseOpt, h a rfl r]

theorem reads_many {α β : Type} {p : Parse β} {enc : α → List Byte} (f : α → β) (l : List α) (h : ∀ a ∈ l, Reads p (enc a) (f a)) :
    Reads (parseMany p l.length) (l.flatMap enc) (l.map f) := by
  induction l with
  | nil => intro r; simp [parseMany]
  | cons a l ih =>
    intro r
    have ih := ih (fun b hb => h b (by simp [hb])) r
    have ha := h a (by simp) (l.flatMap enc ++ r)
    simp only [List.length_cons, parseMany, List.flatMap_cons, List.append_assoc, ha, ih, bind, Option.bind_some, List.map_cons]

theorem reads_list {α β : Type} {p : Parse β} {enc : α → List Byte} (f : α →
    β) (l : List α) (hl : l.length < 256) (h : ∀ a ∈ l, Reads p (enc a) (f a)) :
    Reads (parseList p) (encList enc l) (l.map f) := by
  intro r
  have := reads_many f l h r
  have h8 := reads_8 l.length hl (l.flatMap enc ++ r)
  simp only [enc8, List.cons_append, List.nil_append] at h8
  simp only [parseList, encList, List.cons_append, h8]
  exact this

theorem reads_run (l : List Byte) (hl : l.length < 256) : Reads parseRun (encRun l) l := by
  intro r
  have h8 := reads_8 l.length hl (l ++ r)
  simp only [enc8, List.cons_append, List.nil_append] at h8
  simp only [parseRun, encRun, List.cons_append, h8]
  simp

/-- A named value is picked again by its position. -/
theorem pick_position {α : Type} [DecidableEq α] (l : List α) (a : α) (h : a ∈ l) : pick l (position l a) = some a := by
  simp only [position, pick]
  rw [List.getElem?_eq_getElem (List.idxOf_lt_length_iff.2 h)]; simp

theorem asSet_toNat (w : Nat) (v : BitVec w) : asSet w v.toNat = some v := by
  simp [asSet, v.isLt]

/-! ## The entries of the three tables -/

/-- A destination as the host writes it. -/
def rawDest : Dest → Option Nat
  | .base => none
  | .channel n => some n

/-- The fields of a route entry as the host writes them. -/
def rawRoute (f : RouteFields) : RawRoute :=
  ⟨f.valid, position sourceList f.source, f.kind, f.postures.toNat, f.views.toNat, f.model.map BitVec.toNat, position actionList f.action,
   rawDest f.dest, f.keepN, position damageList f.damage⟩

/-- A route entry that some TABLE-WRITE leaves: its fields as written pass the checks of R37 and give it, and its bytes read back. -/
theorem route_raw (e : RawRoute) (f : RouteFields) (h : checkRoute e = some f) :
    checkRoute (rawRoute f) = some f ∧ Reads parseRoute (encRoute f) (rawRoute f) := by
  simp only [checkRoute, bind, Option.bind_eq_some_iff] at h
  obtain ⟨a, ha, b, hb, c, hc, d, hd, g, hg, x, hx, h⟩ := h
  split at h
  · rename_i hh
    simp at h hh; obtain rfl := h
    have hx' : checkDest a (rawDest x) = some x := by
      cases a <;> cases he : e.dest <;> simp [checkDest, he] at hx ⊢ <;> first | (subst hx; rfl) | (obtain ⟨h0, h1⟩ := hx; subst h1; simp [checkDest, rawDest, h0])
    have hk : ∀ k, e.kind = some k → k < 256 := by
      intro k hk; have := hh.1.1; rw [hk] at this; simp at this
      cases a <;> simp [kindSuits] at this <;> omega
    have hm : Option.map (BitVec.ofNat 16) (Option.map BitVec.toNat (e.model.map (BitVec.ofNat 16))) = e.model.map (BitVec.ofNat 16) := by
      cases e.model with
      | none => rfl
      | some n => simp only [Option.map_some, Option.some.injEq]; apply BitVec.eq_of_toNat_eq; simp
    constructor
    · simp only [checkRoute, rawRoute, pick_position sourceList a (by cases a <;> simp [sourceList]),
        pick_position actionList b (by cases b <;> simp [actionList]), pick_position damageList c (by cases c <;> simp [damageList]),
        asSet_toNat, hx', Option.bind_some, bind, hm]
      exact if_pos (by simp [hh])
    · intro r
      have p8 : ∀ n, n < 256 → ∀ r, parse8 (enc8 n ++ r) = some (n, r) := fun n h r => reads_8 n h r
      have h1 := reads_two e.valid
      have h2 : ∀ r, parse8 (encNamed sourceList a ++ r) = some (position sourceList a, r) := by
        intro r; exact p8 _ (by cases a <;> simp [position, sourceList]) r
      have h3 : ∀ r, parseOpt parse8 (encOpt enc8 e.kind ++ r) = some (e.kind, r) := by
        intro r; have := reads_opt (enc := enc8) (p := parse8) id e.kind (fun n hn => reads_8 n (hk n hn)) r; simpa using this
      have h6 : ∀ r, parseOpt parse16 (encOpt encWord (e.model.map (BitVec.ofNat 16)) ++ r) = some ((e.model.map (BitVec.ofNat 16)).map BitVec.toNat, r) := by
        intro r; exact reads_opt (enc := encWord) (p := parse16) BitVec.toNat _ (fun w _ => reads_16 w.toNat (by omega)) r
      have h7 : ∀ r, parse8 (encNamed actionList b ++ r) = some (position actionList b, r) := by
        intro r; exact p8 _ (by cases b <;> simp [position, actionList]) r
      have h8 : ∀ r, parseOpt parse8 (encDest x ++ r) = some (rawDest x, r) := by
        intro r
        cases x with
        | base => simp [encDest, parseOpt, rawDest]
        | channel n =>
          have hn : n < 256 := by
            cases a <;> cases he : e.dest <;> simp [checkDest, he] at hx
            all_goals omega
          simp [encDest, parseOpt, rawDest, p8 n hn]
      have h10 : ∀ r, parse8 (encNamed damageList c ++ r) = some (position damageList c, r) := by
        intro r; exact p8 _ (by cases c <;> simp [position, damageList]) r
      simp only [encRoute, parseRoute, List.append_assoc, h1 _, h2, h3, p8 d.toNat (by omega), p8 g.toNat (by omega), h6, h7, h8, p8 e.keepN (by omega), h10,
        bind, Option.bind_some, rawRoute]
  · simp at h

/-- The fields of a window as the host writes them. -/
def rawWindow (w : Window) : RawWindow :=
  ⟨w.lower, w.upper, w.hysteresis, position windowPostureList w.posture, position windowCondList w.cond⟩

theorem window_raw (e : RawWindow) (w : Window) (h : checkWindow e = some w) :
    checkWindow (rawWindow w) = some w ∧ Reads parseWindow (encWindow w) (rawWindow w) := by
  simp only [checkWindow, bind, Option.bind_eq_some_iff] at h
  obtain ⟨a, ha, b, hb, h⟩ := h
  split at h
  · rename_i hh
    simp at h; obtain rfl := h
    have pm : ∀ {α} (l : List α) (n : Nat) (x : α), pick l n = some x → x ∈ l := by
      intro α l n x h; rcases n with _|n
      · simp [pick] at h
      · exact List.mem_of_getElem? h
    have ma := pm _ _ _ ha
    have mb := pm _ _ _ hb
    constructor
    · simp only [checkWindow, rawWindow, pick_position _ a ma, pick_position _ b mb, bind, Option.bind_some]
      exact if_pos hh
    · intro r
      have p8 : ∀ n, n < 256 → ∀ r, parse8 (enc8 n ++ r) = some (n, r) := fun n h r => reads_8 n h r
      have pa : position windowPostureList a < 256 := by
        have := List.idxOf_lt_length_iff.2 ma; simp [windowPostureList, position] at this ⊢; omega
      have pb : position windowCondList b < 256 := by
        have := List.idxOf_lt_length_iff.2 mb; simp [windowCondList, position] at this ⊢; omega
      simp only [encWindow, parseWindow, encNamed, List.append_assoc, p8 e.lower (by omega), p8 e.upper (by omega), p8 e.hysteresis (by omega), p8 _ pa, p8 _ pb,
        bind, Option.bind_some, rawWindow]
  · simp at h

/-- An action as the host writes it. -/
def rawAction : PolicyAction → RawAction
  | .sleepBegin => .plain 1 | .sleepCancel => .plain 2 | .wake => .plain 3 | .orientLock => .plain 4 | .orientFree => .plain 5
  | .chargeHold => .plain 6 | .chargeAllow => .plain 7
  | .budgetProfile n => .budgetProfile n
  | .indicate l s p => .indicate (position lineList l) (position ledSourceList s) (position ledPatternList p)

theorem action_raw (e : RawAction) (a : PolicyAction) (h : checkAction e = some a) :
    checkAction (rawAction a) = some a ∧ Reads parseAction (encAction a) (rawAction a) := by
  have p8 : ∀ n, n < 256 → ∀ r, parse8 (enc8 n ++ r) = some (n, r) := fun n h r => reads_8 n h r
  cases a with
  | budgetProfile n =>
    have hn : n ≤ 3 := by
      cases e with
      | plain c => rcases c with _|_|_|_|_|_|_|_|c <;> simp [checkAction] at h
      | budgetProfile m => simp only [checkAction] at h; split at h <;> simp at h; omega
      | indicate l s p => simp [checkAction] at h
    refine ⟨by simp [checkAction, rawAction, hn], ?_⟩
    intro r
    have := p8 n (by omega) r
    simp only [encAction, parseAction, List.cons_append, parse8, bind, Option.bind_some, rawAction]
    simp only [parse8] at this
    simp [this]
  | indicate l s p =>
    refine ⟨?_, ?_⟩
    · simp [checkAction, checkIndicate, rawAction, pick_position lineList l (by cases l <;> simp [lineList]),
        pick_position ledSourceList s (by cases s <;> simp [ledSourceList]), pick_position ledPatternList p (by cases p <;> simp [ledPatternList])]
    · intro r; cases l <;> cases s <;> cases p <;> rfl
  | _ => exact ⟨rfl, fun r => rfl⟩

/-- The fields of a policy entry as the host writes them. -/
def rawPolicy (e : PolicyEntry) : RawPolicy :=
  ⟨e.valid, position eventList e.event, e.fromSet.toNat, e.toSet.toNat, position baseCondList e.baseCond, position penCondList e.penCond,
   e.hosts.toNat, e.actions.map rawAction⟩

theorem mapM_mem {α β : Type} (f : α → Option β) (l : List α) (m : List β) (h : l.mapM f = some m) :
    m.length = l.length ∧ ∀ b ∈ m, ∃ a ∈ l, f a = some b := by
  induction l generalizing m with
  | nil => simp [pure] at h; subst h; simp
  | cons a l ih =>
    simp only [List.mapM_cons, bind, Option.bind_eq_some_iff, pure] at h
    obtain ⟨b, hb, c, hc, h⟩ := h
    simp at h; subst h
    have := ih c hc
    refine ⟨by simp [this.1], ?_⟩
    intro x hx; simp at hx; rcases hx with rfl | hx
    · exact ⟨a, by simp, hb⟩
    · obtain ⟨y, hy, e⟩ := this.2 x hx; exact ⟨y, by simp [hy], e⟩

theorem mapM_of {α β : Type} (f : α → Option β) (g : β → α) (m : List β) (h : ∀ b ∈ m, f (g b) = some b) : (m.map g).mapM f = some m := by
  induction m with
  | nil => rfl
  | cons b m ih =>
    have h1 := h b (by simp)
    have h2 := ih (fun c hc => h c (by simp [hc]))
    simp [List.mapM_cons, h1, h2]

theorem policy_raw (e : RawPolicy) (f : PolicyEntry) (h : checkPolicy e = some f) :
    checkPolicy (rawPolicy f) = some f ∧ Reads parsePolicy (encPolicy f) (rawPolicy f) := by
  simp only [checkPolicy, bind, Option.bind_eq_some_iff] at h
  obtain ⟨a, ha, b, hb, c, hc, d, hd, g, hg, x, hx, y, hy, h⟩ := h
  split at h
  · rename_i hh
    simp at h; obtain rfl := h
    have ym := mapM_mem _ _ _ hy
    have yr : ∀ z ∈ y, checkAction (rawAction z) = some z ∧ Reads parseAction (encAction z) (rawAction z) := by
      intro z hz; obtain ⟨w, _, hw⟩ := ym.2 z hz; exact action_raw w z hw
    have ma : a ∈ eventList := by cases a <;> simp [eventList]
    have md : d ∈ baseCondList := by cases d <;> simp [baseCondList]
    have mg : g ∈ penCondList := by cases g <;> simp [penCondList]
    constructor
    · simp only [checkPolicy, rawPolicy, pick_position _ a ma, pick_position _ d md, pick_position _ g mg, asSet_toNat, bind, Option.bind_some,
        mapM_of checkAction rawAction y (fun z hz => (yr z hz).1)]
      exact if_pos (by simp [ym.1, hh])
    · intro r
      have p8 : ∀ n, n < 256 → ∀ r, parse8 (enc8 n ++ r) = some (n, r) := fun n h r => reads_8 n h r
      have h1 := reads_two e.valid
      have pa : position eventList a < 256 := by cases a <;> simp [position, eventList]
      have pd : position baseCondList d < 256 := by cases d <;> simp [position, baseCondList]
      have pg : position penCondList g < 256 := by cases g <;> simp [position, penCondList]
      have hl := reads_list (enc := encAction) (p := parseAction) rawAction y (by omega) (fun z hz => (yr z hz).2)
      simp only [encPolicy, parsePolicy, encNamed, List.append_assoc, h1 _, p8 _ pa, p8 b.toNat (by omega), p8 c.toNat (by omega), p8 _ pd, p8 _ pg, p8 x.toNat (by omega), hl _,
        bind, Option.bind_some, rawPolicy]
  · simp at h

/-! ## What a payload can say: a reader takes exactly the bytes of a value in range -/

/-- A reader reads a value exactly where the value is in range and its bytes stand in front. -/
def ReadsExactly {α : Type} (p : Parse α) (ok : α → Prop) (enc : α → List Byte) : Prop :=
  ∀ r a t, p r = some (a, t) ↔ ok a ∧ r = enc a ++ t

theorem exactly_8 : ReadsExactly parse8 (fun n => n < 256) enc8 := by
  intro r a t
  constructor
  · intro h
    cases r with
    | nil => simp [parse8] at h
    | cons b r =>
      simp only [parse8, Option.some.injEq, Prod.mk.injEq] at h
      obtain ⟨rfl, rfl⟩ := h
      exact ⟨b.isLt, by simp [enc8]⟩
  · rintro ⟨h, rfl⟩; exact reads_8 a h t

theorem exactly_16 : ReadsExactly parse16 (fun n => n < 65536) enc16 := by
  intro r a t
  constructor
  · intro h
    rcases r with _ | ⟨b, _ | ⟨c, r⟩⟩ <;> simp only [parse16, Option.some.injEq, Prod.mk.injEq, reduceCtorEq] at h
    obtain ⟨rfl, rfl⟩ := h
    have hb := b.isLt
    have hc := c.isLt
    refine ⟨by omega, ?_⟩
    simp only [enc16, List.cons_append, List.nil_append, List.cons.injEq, and_true]
    constructor <;> apply BitVec.eq_of_toNat_eq <;> simp <;> omega
  · rintro ⟨h, rfl⟩; exact reads_16 a h t

theorem exactly_two : ReadsExactly parseTwo (fun _ => True) encTwo := by
  intro r a t
  constructor
  · intro h
    cases r with
    | nil => simp [parseTwo] at h
    | cons b r =>
      simp only [parseTwo] at h
      split at h
      · rename_i hb; simp at h; obtain ⟨rfl, rfl⟩ := h; simp [encTwo, hb]
      · split at h
        · rename_i hb; simp at h; obtain ⟨rfl, rfl⟩ := h; simp [encTwo, hb]
        · simp at h
  · rintro ⟨_, rfl⟩; exact reads_two a t

theorem exactly_opt {α : Type} {p : Parse α} {ok : α → Prop} {enc : α → List Byte} (h : ReadsExactly p ok enc) :
    ReadsExactly (parseOpt p) (fun o => ∀ a, o = some a → ok a) (encOpt enc) := by
  intro r o t
  constructor
  · intro k
    cases r with
    | nil => simp [parseOpt] at k
    | cons b r =>
      simp only [parseOpt] at k
      split at k
      · rename_i hb; simp at k; obtain ⟨rfl, rfl⟩ := k; simp [encOpt, hb]
      · split at k
        · rename_i hb
          simp only [Option.map_eq_some_iff, Prod.mk.injEq, Prod.exists] at k
          obtain ⟨a, u, h1, rfl, rfl⟩ := k
          obtain ⟨h2, rfl⟩ := (h _ _ _).1 h1
          exact ⟨fun x hx => by simp at hx; exact hx ▸ h2, by simp [encOpt, hb]⟩
        · simp at k
  · rintro ⟨k, rfl⟩
    cases o with
    | none => simp [encOpt, parseOpt]
    | some a => simp [encOpt, parseOpt, (h _ _ _).2 ⟨k a rfl, rfl⟩]

theorem exactly_many {α : Type} {p : Parse α} {ok : α → Prop} {enc : α → List Byte} (h : ReadsExactly p ok enc) (n : Nat) :
    ReadsExactly (parseMany p n) (fun l => l.length = n ∧ ∀ a ∈ l, ok a) (fun l => l.flatMap enc) := by
  induction n with
  | zero =>
    intro r l t
    simp only [parseMany, Option.some.injEq, Prod.mk.injEq, List.length_eq_zero_iff]
    constructor
    · rintro ⟨rfl, rfl⟩; simp
    · rintro ⟨⟨rfl, _⟩, k⟩; exact ⟨rfl, by simpa using k⟩
  | succ n ih =>
    intro r l t
    simp only [parseMany, bind, Option.bind_eq_some_iff, Prod.exists, h _ _ _, ih _ _ _, Option.some.injEq, Prod.mk.injEq]
    constructor
    · rintro ⟨a, u, ⟨ha, rfl⟩, m, v, ⟨⟨hm, hmo⟩, rfl⟩, rfl, rfl⟩
      exact ⟨⟨by simp [hm], by simp; exact ⟨ha, hmo⟩⟩, by simp⟩
    · rintro ⟨⟨hl, ho⟩, rfl⟩
      cases l with
      | nil => simp at hl
      | cons a m =>
        exact ⟨a, _, ⟨ho a (by simp), by simp [List.append_assoc]⟩, m, t, ⟨⟨by simpa using hl, fun b hb => ho b (by simp [hb])⟩, rfl⟩, rfl, rfl⟩

theorem exactly_list {α : Type} {p : Parse α} {ok : α → Prop} {enc : α → List Byte} (h : ReadsExactly p ok enc) :
    ReadsExactly (parseList p) (fun l => l.length < 256 ∧ ∀ a ∈ l, ok a) (encList enc) := by
  intro r l t
  simp only [parseList, bind, Option.bind_eq_some_iff, Prod.exists, exactly_8 _ _ _, exactly_many h _ _ _ _]
  constructor
  · rintro ⟨n, u, ⟨hn, rfl⟩, ⟨rfl, ho⟩, rfl⟩; exact ⟨⟨hn, ho⟩, by simp [encList, enc8]⟩
  · rintro ⟨⟨hn, ho⟩, rfl⟩; exact ⟨l.length, l.flatMap enc ++ t, ⟨hn, by simp [encList, enc8]⟩, ⟨rfl, ho⟩, rfl⟩

theorem exactly_run : ReadsExactly parseRun (fun l => l.length < 256) encRun := by
  intro r l t
  simp only [parseRun, bind, Option.bind_eq_some_iff, Prod.exists, exactly_8 _ _ _]
  constructor
  · rintro ⟨n, u, ⟨hn, rfl⟩, k⟩
    split at k
    · simp at k
    · rename_i hlt
      simp at k; obtain ⟨rfl, rfl⟩ := k
      have hlen : (u.take n).length = n := by simp; omega
      refine ⟨by omega, ?_⟩
      simp only [encRun, hlen, enc8, List.cons_append, List.nil_append, List.take_append_drop]
  · rintro ⟨hn, rfl⟩
    exact ⟨l.length, l ++ t, ⟨hn, by simp [encRun, enc8]⟩, by simp⟩

/-- An action of a policy entry as bytes (R165, R167, R194). -/
def encRawAction : RawAction → List Byte
  | .plain c => enc8 c
  | .budgetProfile n => 8#8 :: enc8 n
  | .indicate l s p => 9#8 :: enc8 l ++ enc8 s ++ enc8 p

theorem exactly_action : ReadsExactly parseAction (fun a => a.wf = true) encRawAction := by
  intro r a t
  simp only [parseAction, bind, Option.bind_eq_some_iff, Prod.exists, exactly_8 _ _ _]
  constructor
  · rintro ⟨c, u, ⟨hc, rfl⟩, k⟩
    split at k
    · rename_i h8; subst h8
      simp only [Option.bind_eq_some_iff, Prod.exists, exactly_8 _ _ _, Option.some.injEq, Prod.mk.injEq] at k
      obtain ⟨n, v, ⟨hn, rfl⟩, rfl, rfl⟩ := k
      exact ⟨by simp [RawAction.wf, fits8, hn], by simp [enc8, encRawAction]⟩
    · split at k
      · rename_i h9; subst h9
        simp only [Option.bind_eq_some_iff, Prod.exists, exactly_8 _ _ _, Option.some.injEq, Prod.mk.injEq] at k
        obtain ⟨l, v, ⟨hl, rfl⟩, s, w, ⟨hs, rfl⟩, p, x, ⟨hp, rfl⟩, rfl, rfl⟩ := k
        exact ⟨by simp [RawAction.wf, fits8, hl, hs, hp], by simp [enc8, encRawAction]⟩
      · rename_i h8 h9
        simp at k; obtain ⟨rfl, rfl⟩ := k
        exact ⟨by simp [RawAction.wf, fits8, hc, h8, h9], rfl⟩
  · rintro ⟨hw, rfl⟩
    cases a with
    | plain c =>
      simp [RawAction.wf, fits8] at hw
      exact ⟨c, t, ⟨hw.1.1, rfl⟩, by simp [hw]⟩
    | budgetProfile n =>
      simp [RawAction.wf, fits8] at hw
      refine ⟨8, enc8 n ++ t, ⟨by omega, by simp [enc8, encRawAction]⟩, ?_⟩
      simp [Option.bind_eq_some_iff, exactly_8 _ _ _, hw]
    | indicate l s p =>
      simp [RawAction.wf, fits8] at hw
      refine ⟨9, enc8 l ++ (enc8 s ++ (enc8 p ++ t)), ⟨by omega, by simp [enc8, encRawAction]⟩, ?_⟩
      rw [if_neg (by omega), if_pos rfl]
      simp only [Option.bind_eq_some_iff, Prod.exists, exactly_8 _ _ _, Option.some.injEq, Prod.mk.injEq]
      exact ⟨l, _, ⟨hw.1.1, rfl⟩, s, _, ⟨hw.1.2, rfl⟩, p, _, ⟨hw.2, rfl⟩, rfl, rfl⟩

/-- Reading a part of a payload and then the rest of it. -/
theorem exactly_then {α β : Type} {p : Parse α} {ok : α → Prop} {enc : α → List Byte} (h : ReadsExactly p ok enc)
    (k : α × List Byte → Option (β × List Byte)) (r : List Byte) (b : β) (t : List Byte) :
    (p r).bind k = some (b, t) ↔ ∃ a u, ok a ∧ r = enc a ++ u ∧ k (a, u) = some (b, t) := by
  simp only [Option.bind_eq_some_iff, Prod.exists, h _ _ _, and_assoc]

/-- The fields of a route entry as bytes (R20, R194). -/
def encRawRoute (e : RawRoute) : List Byte :=
  encTwo e.valid ++ (enc8 e.source ++ (encOpt enc8 e.kind ++ (enc8 e.postures ++ (enc8 e.views ++ (encOpt enc16 e.model ++
    (enc8 e.action ++ (encOpt enc8 e.dest ++ (enc8 e.keepN ++ enc8 e.damage))))))))

theorem fitsOpt_iff (f : Nat → Bool) (o : Option Nat) : fitsOpt f o = true ↔ ∀ a, o = some a → f a = true := by
  cases o <;> simp [fitsOpt]

theorem exactly_route : ReadsExactly parseRoute (fun e => e.wf = true) encRawRoute := by
  intro r e t
  simp only [parseRoute, bind, exactly_then exactly_8, exactly_then exactly_two, exactly_then (exactly_opt exactly_8),
    exactly_then (exactly_opt exactly_16), Option.some.injEq, Prod.mk.injEq, true_and]
  constructor
  · rintro ⟨a1, u1, rfl, a2, u2, h2, rfl, a3, u3, h3, rfl, a4, u4, h4, rfl, a5, u5, h5, rfl, a6, u6, h6, rfl, a7, u7, h7, rfl,
      a8, u8, h8, rfl, a9, u9, h9, rfl, a10, u10, h10, rfl, rfl, rfl⟩
    refine ⟨?_, by simp only [encRawRoute, List.append_assoc]⟩
    simp only [RawRoute.wf, Bool.and_eq_true, fitsOpt_iff, fits8, fits16, decide_eq_true_eq]
    exact ⟨⟨⟨⟨⟨⟨⟨⟨h2, h3⟩, h4⟩, h5⟩, h6⟩, h7⟩, h8⟩, h9⟩, h10⟩
  · rintro ⟨hw, rfl⟩
    simp only [RawRoute.wf, Bool.and_eq_true, fitsOpt_iff, fits8, fits16, decide_eq_true_eq] at hw
    obtain ⟨⟨⟨⟨⟨⟨⟨⟨h2, h3⟩, h4⟩, h5⟩, h6⟩, h7⟩, h8⟩, h9⟩, h10⟩ := hw
    simp only [encRawRoute, List.append_assoc]
    exact ⟨_, _, rfl, _, _, h2, rfl, _, _, h3, rfl, _, _, h4, rfl, _, _, h5, rfl, _, _, h6, rfl, _, _, h7, rfl, _, _, h8, rfl,
      _, _, h9, rfl, _, _, h10, rfl, rfl, rfl⟩

/-- The fields of a window as bytes (R99, R194). -/
def encRawWindow (w : RawWindow) : List Byte :=
  enc8 w.lower ++ (enc8 w.upper ++ (enc8 w.hysteresis ++ (enc8 w.posture ++ enc8 w.cond)))

theorem exactly_window : ReadsExactly parseWindow (fun w => w.wf = true) encRawWindow := by
  intro r e t
  simp only [parseWindow, bind, exactly_then exactly_8, Option.some.injEq, Prod.mk.injEq]
  constructor
  · rintro ⟨a1, u1, h1, rfl, a2, u2, h2, rfl, a3, u3, h3, rfl, a4, u4, h4, rfl, a5, u5, h5, rfl, rfl, rfl⟩
    exact ⟨by simp [RawWindow.wf, fits8, h1, h2, h3, h4, h5], by simp only [encRawWindow, List.append_assoc]⟩
  · rintro ⟨hw, rfl⟩
    simp only [RawWindow.wf, Bool.and_eq_true, fits8, decide_eq_true_eq] at hw
    obtain ⟨⟨⟨⟨h1, h2⟩, h3⟩, h4⟩, h5⟩ := hw
    simp only [encRawWindow, List.append_assoc]
    exact ⟨_, _, h1, rfl, _, _, h2, rfl, _, _, h3, rfl, _, _, h4, rfl, _, _, h5, rfl, rfl, rfl⟩

/-- The fields of a policy entry as bytes (R165, R194). -/
def encRawPolicy (e : RawPolicy) : List Byte :=
  encTwo e.valid ++ (enc8 e.event ++ (enc8 e.fromSet ++ (enc8 e.toSet ++ (enc8 e.baseCond ++ (enc8 e.penCond ++ (enc8 e.hosts ++
    encList encRawAction e.actions))))))

theorem exactly_policy : ReadsExactly parsePolicy (fun e => e.wf = true) encRawPolicy := by
  intro r e t
  simp only [parsePolicy, bind, exactly_then exactly_8, exactly_then exactly_two, exactly_then (exactly_list exactly_action),
    Option.some.injEq, Prod.mk.injEq, true_and]
  constructor
  · rintro ⟨a1, u1, rfl, a2, u2, h2, rfl, a3, u3, h3, rfl, a4, u4, h4, rfl, a5, u5, h5, rfl, a6, u6, h6, rfl, a7, u7, h7, rfl,
      a8, u8, h8, rfl, rfl, rfl⟩
    refine ⟨?_, by simp only [encRawPolicy, List.append_assoc]⟩
    simp only [RawPolicy.wf, Bool.and_eq_true, fits8, decide_eq_true_eq, List.all_eq_true]
    exact ⟨⟨⟨⟨⟨⟨⟨h2, h3⟩, h4⟩, h5⟩, h6⟩, h7⟩, h8.1⟩, h8.2⟩
  · rintro ⟨hw, rfl⟩
    simp only [RawPolicy.wf, Bool.and_eq_true, fits8, decide_eq_true_eq, List.all_eq_true] at hw
    obtain ⟨⟨⟨⟨⟨⟨⟨h2, h3⟩, h4⟩, h5⟩, h6⟩, h7⟩, h8⟩, h9⟩ := hw
    simp only [encRawPolicy, List.append_assoc]
    exact ⟨_, _, rfl, _, _, h2, rfl, _, _, h3, rfl, _, _, h4, rfl, _, _, h5, rfl, _, _, h6, rfl, _, _, h7, rfl, _, _, ⟨h8, h9⟩, rfl,
      rfl, rfl⟩

/-- The arguments of SETTINGS-SET as bytes (R195). -/
def encRawSettings (a : SettingsArg) : List Byte :=
  encOpt enc16 a.grace ++ (encOpt enc16 a.settle ++ (encOpt enc16 a.dwell ++ (encOpt enc8 a.rate ++ (encOpt enc16 a.discard ++
    encOpt enc16 a.enables))))

theorem exactly_settings : ReadsExactly parseSettings (fun a => a.wf = true) encRawSettings := by
  intro r e t
  simp only [parseSettings, bind, exactly_then (exactly_opt exactly_8), exactly_then (exactly_opt exactly_16),
    Option.some.injEq, Prod.mk.injEq]
  constructor
  · rintro ⟨a1, u1, h1, rfl, a2, u2, h2, rfl, a3, u3, h3, rfl, a4, u4, h4, rfl, a5, u5, h5, rfl, a6, u6, h6, rfl, rfl, rfl⟩
    refine ⟨?_, by simp only [encRawSettings, List.append_assoc]⟩
    simp only [SettingsArg.wf, Bool.and_eq_true, fitsOpt_iff, fits8, fits16, decide_eq_true_eq]
    exact ⟨⟨⟨⟨⟨h1, h2⟩, h3⟩, h4⟩, h5⟩, h6⟩
  · rintro ⟨hw, rfl⟩
    simp only [SettingsArg.wf, Bool.and_eq_true, fitsOpt_iff, fits8, fits16, decide_eq_true_eq] at hw
    obtain ⟨⟨⟨⟨⟨h1, h2⟩, h3⟩, h4⟩, h5⟩, h6⟩ := hw
    simp only [encRawSettings, List.append_assoc]
    exact ⟨_, _, h1, rfl, _, _, h2, rfl, _, _, h3, rfl, _, _, h4, rfl, _, _, h5, rfl, _, _, h6, rfl, rfl, rfl⟩

/-- The arguments of GUARD-SET as bytes (R144). -/
def encRawGuard (a : GuardArg) : List Byte :=
  encOpt enc8 a.filterRailOc ++ (encOpt enc8 a.filterRailUv ++ (encOpt enc8 a.filterCoilOc ++ (encOpt enc8 a.filterCoilUv ++
    (encOpt encTwo a.enableRailOc ++ (encOpt encTwo a.enableRailUv ++ (encOpt encTwo a.enableCoilOc ++ (encOpt encTwo a.enableCoilUv ++
    (encOpt enc8 a.mode ++ (encOpt encTwo a.maskRailOc ++ (encOpt encTwo a.maskRailUv ++ (encOpt encTwo a.maskCoilOc ++
    (encOpt encTwo a.maskCoilUv ++ encOpt encTwo a.maskDieOt))))))))))))

theorem exactly_guard : ReadsExactly parseGuard (fun a => a.wf = true) encRawGuard := by
  intro r e t
  constructor
  · intro h
    unfold parseGuard at h
    obtain ⟨a1, u1, h1, e1, k1⟩ := (exactly_then (exactly_opt exactly_8) _ _ _ _).1 h
    obtain ⟨a2, u2, h2, e2, k2⟩ := (exactly_then (exactly_opt exactly_8) _ _ _ _).1 k1
    obtain ⟨a3, u3, h3, e3, k3⟩ := (exactly_then (exactly_opt exactly_8) _ _ _ _).1 k2
    obtain ⟨a4, u4, h4, e4, k4⟩ := (exactly_then (exactly_opt exactly_8) _ _ _ _).1 k3
    obtain ⟨a5, u5, -, e5, k5⟩ := (exactly_then (exactly_opt exactly_two) _ _ _ _).1 k4
    obtain ⟨a6, u6, -, e6, k6⟩ := (exactly_then (exactly_opt exactly_two) _ _ _ _).1 k5
    obtain ⟨a7, u7, -, e7, k7⟩ := (exactly_then (exactly_opt exactly_two) _ _ _ _).1 k6
    obtain ⟨a8, u8, -, e8, k8⟩ := (exactly_then (exactly_opt exactly_two) _ _ _ _).1 k7
    obtain ⟨a9, u9, h9, e9, k9⟩ := (exactly_then (exactly_opt exactly_8) _ _ _ _).1 k8
    obtain ⟨a10, u10, -, e10, k10⟩ := (exactly_then (exactly_opt exactly_two) _ _ _ _).1 k9
    obtain ⟨a11, u11, -, e11, k11⟩ := (exactly_then (exactly_opt exactly_two) _ _ _ _).1 k10
    obtain ⟨a12, u12, -, e12, k12⟩ := (exactly_then (exactly_opt exactly_two) _ _ _ _).1 k11
    obtain ⟨a13, u13, -, e13, k13⟩ := (exactly_then (exactly_opt exactly_two) _ _ _ _).1 k12
    obtain ⟨a14, u14, -, e14, k14⟩ := (exactly_then (exactly_opt exactly_two) _ _ _ _).1 k13
    simp only [Option.some.injEq, Prod.mk.injEq] at k14
    obtain ⟨rfl, rfl⟩ := k14
    subst e1 e2 e3 e4 e5 e6 e7 e8 e9 e10 e11 e12 e13 e14
    refine ⟨?_, by simp only [encRawGuard, List.append_assoc]⟩
    simp only [GuardArg.wf, Bool.and_eq_true, fitsOpt_iff, fits8, decide_eq_true_eq]
    exact ⟨⟨⟨⟨h1, h2⟩, h3⟩, h4⟩, h9⟩
  · rintro ⟨hw, rfl⟩
    simp only [GuardArg.wf, Bool.and_eq_true, fitsOpt_iff, fits8, decide_eq_true_eq] at hw
    obtain ⟨⟨⟨⟨h1, h2⟩, h3⟩, h4⟩, h9⟩ := hw
    simp only [encRawGuard, List.append_assoc]
    unfold parseGuard
    refine (exactly_then (exactly_opt exactly_8) _ _ _ _).2 ⟨_, _, h1, rfl, ?_⟩
    refine (exactly_then (exactly_opt exactly_8) _ _ _ _).2 ⟨_, _, h2, rfl, ?_⟩
    refine (exactly_then (exactly_opt exactly_8) _ _ _ _).2 ⟨_, _, h3, rfl, ?_⟩
    refine (exactly_then (exactly_opt exactly_8) _ _ _ _).2 ⟨_, _, h4, rfl, ?_⟩
    refine (exactly_then (exactly_opt exactly_two) _ _ _ _).2 ⟨_, _, fun _ _ => trivial, rfl, ?_⟩
    refine (exactly_then (exactly_opt exactly_two) _ _ _ _).2 ⟨_, _, fun _ _ => trivial, rfl, ?_⟩
    refine (exactly_then (exactly_opt exactly_two) _ _ _ _).2 ⟨_, _, fun _ _ => trivial, rfl, ?_⟩
    refine (exactly_then (exactly_opt exactly_two) _ _ _ _).2 ⟨_, _, fun _ _ => trivial, rfl, ?_⟩
    refine (exactly_then (exactly_opt exactly_8) _ _ _ _).2 ⟨_, _, h9, rfl, ?_⟩
    refine (exactly_then (exactly_opt exactly_two) _ _ _ _).2 ⟨_, _, fun _ _ => trivial, rfl, ?_⟩
    refine (exactly_then (exactly_opt exactly_two) _ _ _ _).2 ⟨_, _, fun _ _ => trivial, rfl, ?_⟩
    refine (exactly_then (exactly_opt exactly_two) _ _ _ _).2 ⟨_, _, fun _ _ => trivial, rfl, ?_⟩
    refine (exactly_then (exactly_opt exactly_two) _ _ _ _).2 ⟨_, _, fun _ _ => trivial, rfl, ?_⟩
    refine (exactly_then (exactly_opt exactly_two) _ _ _ _).2 ⟨_, _, fun _ _ => trivial, rfl, ?_⟩
    rfl

/-- The arguments of BUDGET-SET as bytes (R124). -/
def encRawBudget (a : BudgetArg) : List Byte :=
  encOpt enc8 a.profile ++ (encOpt enc16 a.value0 ++ (encOpt enc16 a.value1 ++ (encOpt enc16 a.value2 ++ encOpt enc16 a.value3)))

theorem exactly_budget : ReadsExactly parseBudget (fun a => a.wf = true) encRawBudget := by
  intro r e t
  simp only [parseBudget, bind, exactly_then (exactly_opt exactly_8), exactly_then (exactly_opt exactly_16),
    Option.some.injEq, Prod.mk.injEq]
  constructor
  · rintro ⟨a1, u1, h1, rfl, a2, u2, h2, rfl, a3, u3, h3, rfl, a4, u4, h4, rfl, a5, u5, h5, rfl, rfl, rfl⟩
    refine ⟨?_, by simp only [encRawBudget, List.append_assoc]⟩
    simp only [BudgetArg.wf, Bool.and_eq_true, fitsOpt_iff, fits8, fits16, decide_eq_true_eq]
    exact ⟨⟨⟨⟨h1, h2⟩, h3⟩, h4⟩, h5⟩
  · rintro ⟨hw, rfl⟩
    simp only [BudgetArg.wf, Bool.and_eq_true, fitsOpt_iff, fits8, fits16, decide_eq_true_eq] at hw
    obtain ⟨⟨⟨⟨h1, h2⟩, h3⟩, h4⟩, h5⟩ := hw
    simp only [encRawBudget, List.append_assoc]
    exact ⟨_, _, h1, rfl, _, _, h2, rfl, _, _, h3, rfl, _, _, h4, rfl, _, _, h5, rfl, rfl, rfl⟩

/-! ## A readable payload and its request (R192, R193) -/

/-- The operands of a request fit their fields. -/
def requestFits : Request → Prop
  | .routeWrite i e => i < 256 ∧ e.wf = true
  | .windowWrite i w => i < 256 ∧ w.wf = true
  | .policyWrite i e => i < 256 ∧ e.wf = true
  | .routeRead i | .windowRead i | .policyRead i => i < 256
  | .splitSet d => d < 256
  | .settingsSet a => a.wf = true
  | .baseRequest t _ data => t < 256 ∧ data.length < 256
  | .alarmClear m => m < 256
  | .guardSet a => a.wf = true
  | .budgetSet a => a.wf = true
  | .indicateSet l s p => l < 256 ∧ s < 256 ∧ p < 256
  | .refused _ | .unknown _ => False
  | _ => True

/-- The payload that a request has in its parcel (R193, R194). -/
def requestBytes : Request → List Byte
  | .routeWrite i e => enc8 1 ++ (enc8 i ++ encRawRoute e)
  | .windowWrite i w => enc8 2 ++ (enc8 i ++ encRawWindow w)
  | .policyWrite i e => enc8 3 ++ (enc8 i ++ encRawPolicy e)
  | .routeRead i => enc8 1 ++ enc8 i
  | .windowRead i => enc8 2 ++ enc8 i
  | .policyRead i => enc8 3 ++ enc8 i
  | .countersUplink | .recordPosture | .chargeLevel .fast | .orientLock => enc8 1
  | .countersRoute | .recordOrientation | .chargeLevel .steady | .orientFree => enc8 2
  | .countersIssuer | .recordAttachment | .chargeLevel .trickle => enc8 3
  | .countersPosture | .recordCharge | .chargeHold => enc8 4
  | .recordSupply | .chargeRelease => enc8 5
  | .recordSleep | .chargeRestart => enc8 6
  | .recordStore => enc8 7
  | .splitSet d => enc8 d
  | .settingsSet a => encRawSettings a
  | .baseRequest t k data => enc8 t ++ (enc8 k.toNat ++ encRun data)
  | .alarmClear m => enc8 m
  | .guardSet a => encRawGuard a
  | .budgetSet a => encRawBudget a
  | .indicateSet l s p => enc8 l ++ (enc8 s ++ enc8 p)
  | _ => []

theorem pick_lt {α : Type} {l : List α} {n : Nat} {a : α} (h : pick l n = some a) : 1 ≤ n ∧ n ≤ l.length := by
  cases n with
  | zero => simp [pick] at h
  | succ n => have := (List.getElem?_eq_some_iff.1 h).1; omega

/-- One byte that picks a request of a list: the request is the one at that place. -/
theorem picked (l : List Request) (hl : l.length < 256) (r : List Byte) (q : Request) (t : List Byte) :
    parsePick l r = some (q, t) ↔ ∃ n, pick l n = some q ∧ r = enc8 n ++ t := by
  unfold parsePick
  constructor
  · intro h
    obtain ⟨n, u, hn, e, h⟩ := (exactly_then exactly_8 _ _ _ _).1 h
    simp only [bind, Option.bind_eq_some_iff, Option.some.injEq, Prod.mk.injEq] at h
    obtain ⟨a, ha, rfl, rfl⟩ := h
    exact ⟨n, ha, e⟩
  · rintro ⟨n, ha, rfl⟩
    have := pick_lt ha
    refine (exactly_then exactly_8 _ _ _ _).2 ⟨n, t, by omega, rfl, ?_⟩
    simp [ha]

/-- What a payload is read as fits, belongs to its code and has that payload as its bytes. -/
theorem parseBody_exactly (code : Nat) (payload : List Byte) (q : Request) (h : parseBody code payload = some (q, [])) :
    requestFits q ∧ (requestCode q).toNat = code ∧ requestBytes q = payload := by
  have pk : ∀ l : List Request, l.length < 256 → parsePick l payload = some (q, []) → ∃ n, pick l n = some q ∧ payload = enc8 n := by
    intro l hl h; simpa using (picked l hl payload q []).1 h
  unfold parseBody at h
  split at h
  case h_2 =>
    unfold parseTableWrite at h
    obtain ⟨n, u, hn, e1, k1⟩ := (exactly_then exactly_8 _ _ _ _).1 h
    obtain ⟨i, v, hi, e2, k2⟩ := (exactly_then exactly_8 _ _ _ _).1 k1
    subst e1 e2
    dsimp only at k2
    split at k2
    · rename_i hn; subst hn
      obtain ⟨x, w, hx, e3, k3⟩ := (exactly_then exactly_route _ _ _ _).1 k2
      simp only [Option.some.injEq, Prod.mk.injEq] at k3
      obtain ⟨rfl, rfl⟩ := k3; subst e3; exact ⟨⟨hi, hx⟩, rfl, by simp [requestBytes]⟩
    · split at k2
      · rename_i hn; subst hn
        obtain ⟨x, w, hx, e3, k3⟩ := (exactly_then exactly_window _ _ _ _).1 k2
        simp only [Option.some.injEq, Prod.mk.injEq] at k3
        obtain ⟨rfl, rfl⟩ := k3; subst e3; exact ⟨⟨hi, hx⟩, rfl, by simp [requestBytes]⟩
      · split at k2
        · rename_i hn; subst hn
          obtain ⟨x, w, hx, e3, k3⟩ := (exactly_then exactly_policy _ _ _ _).1 k2
          simp only [Option.some.injEq, Prod.mk.injEq] at k3
          obtain ⟨rfl, rfl⟩ := k3; subst e3; exact ⟨⟨hi, hx⟩, rfl, by simp [requestBytes]⟩
        · simp at k2
  case h_3 =>
    unfold parseTableRead at h
    obtain ⟨n, u, hn, e1, k1⟩ := (exactly_then exactly_8 _ _ _ _).1 h
    obtain ⟨i, v, hi, e2, k2⟩ := (exactly_then exactly_8 _ _ _ _).1 k1
    subst e1 e2
    dsimp only at k2
    (repeat' split at k2) <;> simp only [Option.some.injEq, Prod.mk.injEq, reduceCtorEq] at k2 <;> rename_i hn <;> subst hn <;>
      obtain ⟨rfl, rfl⟩ := k2 <;> exact ⟨hi, rfl, by simp [requestBytes]⟩
  case h_8 =>
    unfold parseBaseRequest at h
    obtain ⟨n, u, hn, e1, k1⟩ := (exactly_then exactly_8 _ _ _ _).1 h
    obtain ⟨i, v, hi, e2, k2⟩ := (exactly_then exactly_8 _ _ _ _).1 k1
    obtain ⟨d, w, hd, e3, k3⟩ := (exactly_then exactly_run _ _ _ _).1 k2
    simp only [Option.some.injEq, Prod.mk.injEq] at k3
    obtain ⟨rfl, rfl⟩ := k3; subst e1 e2 e3
    refine ⟨⟨hn, hd⟩, rfl, ?_⟩
    simp [requestBytes, Nat.mod_eq_of_lt hi]
  case h_17 =>
    unfold parseIndicate at h
    obtain ⟨n, u, hn, e1, k1⟩ := (exactly_then exactly_8 _ _ _ _).1 h
    obtain ⟨i, v, hi, e2, k2⟩ := (exactly_then exactly_8 _ _ _ _).1 k1
    obtain ⟨d, w, hd, e3, k3⟩ := (exactly_then exactly_8 _ _ _ _).1 k2
    simp only [Option.some.injEq, Prod.mk.injEq] at k3
    obtain ⟨rfl, rfl⟩ := k3; subst e1 e2 e3
    exact ⟨⟨hn, hi, hd⟩, rfl, by simp [requestBytes]⟩
  case h_4 | h_5 | h_15 | h_16 =>
    obtain ⟨n, hn, rfl⟩ := pk _ (by decide) h
    have := pick_lt hn
    simp only [List.length_cons, List.length_nil] at this
    obtain ⟨h1, h2⟩ := this
    interval_cases n <;> (simp [pick] at hn; subst hn; exact ⟨trivial, rfl, rfl⟩)
  case h_6 | h_12 =>
    simp only [Option.map_eq_some_iff, Prod.exists, exactly_8 _ _ _, Prod.mk.injEq] at h
    obtain ⟨n, u, ⟨hn, rfl⟩, rfl, rfl⟩ := h
    exact ⟨hn, rfl, by simp [requestBytes]⟩
  case h_7 =>
    simp only [Option.map_eq_some_iff, Prod.exists, exactly_settings _ _ _, Prod.mk.injEq] at h
    obtain ⟨n, u, ⟨hn, rfl⟩, rfl, rfl⟩ := h
    exact ⟨hn, rfl, by simp [requestBytes]⟩
  case h_13 =>
    simp only [Option.map_eq_some_iff, Prod.exists, exactly_guard _ _ _, Prod.mk.injEq] at h
    obtain ⟨n, u, ⟨hn, rfl⟩, rfl, rfl⟩ := h
    exact ⟨hn, rfl, by simp [requestBytes]⟩
  case h_14 =>
    simp only [Option.map_eq_some_iff, Prod.exists, exactly_budget _ _ _, Prod.mk.injEq] at h
    obtain ⟨n, u, ⟨hn, rfl⟩, rfl, rfl⟩ := h
    exact ⟨hn, rfl, by simp [requestBytes]⟩
  case h_24 => simp at h
  all_goals
    simp only [Option.some.injEq, Prod.mk.injEq] at h
    obtain ⟨rfl, rfl⟩ := h
    exact ⟨trivial, rfl, rfl⟩

/-- The bytes of a request that fits are read as that request. -/
theorem parseBody_reads (q : Request) (h : requestFits q) : parseBody (requestCode q).toNat (requestBytes q) = some (q, []) := by
  have pk : ∀ (l : List Request) (n : Nat) (q : Request), pick l n = some q → l.length < 256 → parsePick l (enc8 n) = some (q, []) := by
    intro l n q hq hl; exact (picked l hl (enc8 n) q []).2 ⟨n, hq, by simp⟩
  have nil {α : Type} {p : Parse α} {ok : α → Prop} {enc : α → List Byte} (hp : ReadsExactly p ok enc) (a : α) (ha : ok a) :
      p (enc a) = some (a, []) := (hp _ _ _).2 ⟨ha, by simp⟩
  cases q with
  | refused | unknown => exact absurd h id
  | routeWrite i e =>
    show parseTableWrite (enc8 1 ++ (enc8 i ++ encRawRoute e)) = _
    unfold parseTableWrite
    refine (exactly_then exactly_8 _ _ _ _).2 ⟨1, _, by omega, rfl, ?_⟩
    refine (exactly_then exactly_8 _ _ _ _).2 ⟨i, _, h.1, rfl, ?_⟩
    refine (exactly_then exactly_route _ _ _ _).2 ⟨e, [], h.2, (List.append_nil _).symm, ?_⟩
    rfl
  | windowWrite i e =>
    show parseTableWrite (enc8 2 ++ (enc8 i ++ encRawWindow e)) = _
    unfold parseTableWrite
    refine (exactly_then exactly_8 _ _ _ _).2 ⟨2, _, by omega, rfl, ?_⟩
    refine (exactly_then exactly_8 _ _ _ _).2 ⟨i, _, h.1, rfl, ?_⟩
    dsimp only
    rw [if_neg (by omega), if_pos rfl]
    refine (exactly_then exactly_window _ _ _ _).2 ⟨e, [], h.2, (List.append_nil _).symm, ?_⟩
    rfl
  | policyWrite i e =>
    show parseTableWrite (enc8 3 ++ (enc8 i ++ encRawPolicy e)) = _
    unfold parseTableWrite
    refine (exactly_then exactly_8 _ _ _ _).2 ⟨3, _, by omega, rfl, ?_⟩
    refine (exactly_then exactly_8 _ _ _ _).2 ⟨i, _, h.1, rfl, ?_⟩
    dsimp only
    rw [if_neg (by omega), if_neg (by omega), if_pos rfl]
    refine (exactly_then exactly_policy _ _ _ _).2 ⟨e, [], h.2, (List.append_nil _).symm, ?_⟩
    rfl
  | routeRead i =>
    show parseTableRead (enc8 1 ++ enc8 i) = _
    unfold parseTableRead
    refine (exactly_then exactly_8 _ _ _ _).2 ⟨1, _, by omega, rfl, ?_⟩
    refine (exactly_then exactly_8 _ _ _ _).2 ⟨i, [], h, (List.append_nil _).symm, ?_⟩
    rfl
  | windowRead i =>
    show parseTableRead (enc8 2 ++ enc8 i) = _
    unfold parseTableRead
    refine (exactly_then exactly_8 _ _ _ _).2 ⟨2, _, by omega, rfl, ?_⟩
    refine (exactly_then exactly_8 _ _ _ _).2 ⟨i, [], h, (List.append_nil _).symm, ?_⟩
    rfl
  | policyRead i =>
    show parseTableRead (enc8 3 ++ enc8 i) = _
    unfold parseTableRead
    refine (exactly_then exactly_8 _ _ _ _).2 ⟨3, _, by omega, rfl, ?_⟩
    refine (exactly_then exactly_8 _ _ _ _).2 ⟨i, [], h, (List.append_nil _).symm, ?_⟩
    rfl
  | baseRequest t k d =>
    show parseBaseRequest (enc8 t ++ (enc8 k.toNat ++ encRun d)) = _
    unfold parseBaseRequest
    refine (exactly_then exactly_8 _ _ _ _).2 ⟨t, _, h.1, rfl, ?_⟩
    refine (exactly_then exactly_8 _ _ _ _).2 ⟨k.toNat, _, k.isLt, rfl, ?_⟩
    refine (exactly_then exactly_run _ _ _ _).2 ⟨d, [], h.2, (List.append_nil _).symm, ?_⟩
    simp
  | indicateSet l s p =>
    show parseIndicate (enc8 l ++ (enc8 s ++ enc8 p)) = _
    unfold parseIndicate
    refine (exactly_then exactly_8 _ _ _ _).2 ⟨l, _, h.1, rfl, ?_⟩
    refine (exactly_then exactly_8 _ _ _ _).2 ⟨s, _, h.2.1, rfl, ?_⟩
    refine (exactly_then exactly_8 _ _ _ _).2 ⟨p, [], h.2.2, (List.append_nil _).symm, ?_⟩
    rfl
  | splitSet d =>
    show (parse8 (enc8 d)).map (fun x => (Request.splitSet x.1, x.2)) = _
    rw [nil exactly_8 d h]; rfl
  | alarmClear d =>
    show (parse8 (enc8 d)).map (fun x => (Request.alarmClear x.1, x.2)) = _
    rw [nil exactly_8 d h]; rfl
  | settingsSet a => exact congrArg (Option.map _) (nil exactly_settings a h)
  | guardSet a => exact congrArg (Option.map _) (nil exactly_guard a h)
  | budgetSet a => exact congrArg (Option.map _) (nil exactly_budget a h)
  | chargeLevel l => cases l <;> exact pk _ _ _ rfl (by decide)
  | countersUplink | countersRoute | countersIssuer | countersPosture | recordPosture | recordOrientation | recordAttachment
  | recordCharge | recordSupply | recordSleep | recordStore | chargeHold | chargeRelease | chargeRestart | orientLock
  | orientFree => exact pk _ _ _ rfl (by decide)
  | _ => rfl

/-- A payload reads as a request of its code, or the code's request is REFUSED (R192). -/
theorem parseRequest_reads (q : Request) (h : requestFits q) : parseRequest (requestCode q) (requestBytes q) = q := by
  have hc : isRequestCode (requestCode q) = true := by cases q <;> first | rfl | exact absurd h id
  simp [parseRequest, hc, parseBody_reads q h]

theorem parseRequest_refused (code : Byte) (payload : List Byte) (hc : isRequestCode code = true)
    (h : ∀ q, requestFits q → requestCode q = code → requestBytes q ≠ payload) : parseRequest code payload = .refused code := by
  rw [parseRequest, if_pos hc]
  split
  · rename_i q hq
    obtain ⟨h1, h2, h3⟩ := parseBody_exactly _ _ _ hq
    exact absurd h3 (h q h1 (BitVec.eq_of_toNat_eq h2))
  · rfl

end Sys2Proof.Machine
end

