-- ==== Sys2Proof/Laws/Loaded.lean ====
section
/-! SUPPORT. The walk of an image with one type of sections (R4, R205), and the reading of each type's content as a save writes it. -/
namespace Sys2Proof.Machine
set_option linter.all false

/-- A content cut into sections of one type. -/
def sectionBytes (type : Byte) (pieces : List (List Byte)) : List Byte :=
  pieces.flatMap (fun p => type :: BitVec.ofNat 8 p.length :: p)

/-- The walk goes through whole sections; those of length 0 leave nothing (R4). -/
theorem walk_sections (type : Byte) (ht : type ≠ 0#8) (pieces : List (List Byte)) (hp : ∀ p ∈ pieces, p.length ≤ 255) (tail : List Byte)
    (fuel : Nat) (hf : pieces.length ≤ fuel) :
    walk fuel (sectionBytes type pieces ++ tail) = (pieces.filter (· ≠ [])).map (.whole type) ++ walk (fuel - pieces.length) tail := by
  induction pieces generalizing fuel with
  | nil => simp [sectionBytes]
  | cons p l ih =>
    obtain ⟨f, rfl⟩ : ∃ f, fuel = f + 1 := ⟨fuel - 1, by simp at hf; omega⟩
    have hl := hp p (by simp)
    have hn : (BitVec.ofNat 8 p.length).toNat = p.length := by simp; omega
    have ih := ih (fun q hq => hp q (by simp [hq])) f (by simpa using hf)
    have e : sectionBytes type (p :: l) ++ tail = type :: BitVec.ofNat 8 p.length :: (p ++ (sectionBytes type l ++ tail)) := by simp [sectionBytes]
    rw [e, walk, if_neg ht, if_neg (by rw [hn]; simp)]
    simp only [hn, List.take_left', List.drop_left', ih, List.length_cons, Nat.add_sub_add_right]
    by_cases h0 : p = []
    · subst h0; simp [ih]
    · have : BitVec.ofNat 8 p.length ≠ 0#8 := by
        intro h; have := congrArg BitVec.toNat h; rw [hn] at this; simp at this; exact h0 this
      rw [if_neg this]; simp [h0]

/-- The walk of a list of sections of one type that an end byte closes. -/
theorem sectionsOf_one (type : Byte) (ht : type ≠ 0#8) (pieces : List (List Byte)) (hp : ∀ p ∈ pieces, p.length ≤ 255) :
    sectionsOf (sectionBytes type pieces ++ [0#8]) = (pieces.filter (· ≠ [])).map (.whole type) := by
  have len : pieces.length ≤ (sectionBytes type pieces ++ [0#8]).length := by
    have : pieces.length ≤ (sectionBytes type pieces).length := by
      induction pieces with
      | nil => simp
      | cons p l ih =>
        have := ih (fun q hq => hp q (by simp [hq]))
        simp [sectionBytes] at this ⊢; omega
    simp; omega
  rw [sectionsOf, walk_sections type ht pieces hp _ _ len]
  have : ∀ f, walk f [0#8] = [] := by intro f; cases f <;> simp [walk]
  rw [this, List.append_nil]

/-- Sections of one type and nothing malformed: what is joined is the content, and no other type is present. -/
theorem joined_one (type : Byte) (pieces : List (List Byte)) :
    joined ((pieces.filter (· ≠ [])).map (.whole type)) type = pieces.flatten ∧
    (∀ t, stoppedAt ((pieces.filter (· ≠ [])).map (.whole type)) t = false) ∧
    (∀ t, ((pieces.filter (· ≠ [])).map (Section.whole type)).any (fun x => x.type = t) = (decide (type = t) && decide (pieces.flatten ≠ []))) := by
  refine ⟨?_, ?_, ?_⟩
  · induction pieces with
    | nil => rfl
    | cons p l ih =>
      by_cases h : p = []
      · subst h; simpa using ih
      · simp only [joined] at ih
        simp [h, joined, Section.type, Section.body?] at ih ⊢; exact ih
  · intro t; simp [stoppedAt]
  · intro t
    induction pieces with
    | nil => simp
    | cons p l ih =>
      by_cases h : p = []
      · subst h; simpa using ih
      · simp only [List.filter_cons, h]
        simp [Section.type]
        by_cases e : type = t <;> simp [e, h]

/-- A list of one byte over and over is kept as one. -/
theorem keepOnce_same (b : Byte) (n : Nat) : keepOnce (List.replicate (n + 1) b) = [b] := by
  have : ∀ n, (List.replicate n b).foldl (fun acc x => if acc.contains x then acc else acc ++ [x]) [b] = [b] := by
    intro n; induction n with
    | zero => rfl
    | succ n ih => simp only [List.replicate_succ, List.foldl_cons]; rw [if_pos (by simp)]; exact ih
  simp only [keepOnce, List.replicate_succ, List.foldl_cons]
  exact this n

/-- An image of one type: the type is skipped, or its content is applied (R205). -/
theorem applied_one (t : Nat) (h1 : 1 ≤ t) (h8 : t ≤ 8) (pieces : List (List Byte)) (hc : pieces.flatten ≠ []) (s : State) :
    let sections := (pieces.filter (· ≠ [])).map (Section.whole (BitVec.ofNat 8 t))
    (∀ u, applyType t pieces.flatten s = some u → skippedTypes sections s = [] ∧ applySections sections s = u) ∧
    (applyType t pieces.flatten s = none → skippedTypes sections s = [BitVec.ofNat 8 t] ∧ applySections sections s = s) := by
  intro sections
  obtain ⟨j1, j2, j3⟩ : joined sections (BitVec.ofNat 8 t) = pieces.flatten ∧ (∀ u, stoppedAt sections u = false) ∧
      (∀ u, sections.any (fun x => x.type = u) = (decide (BitVec.ofNat 8 t = u) && decide (pieces.flatten ≠ []))) :=
    joined_one (BitVec.ofNat 8 t) pieces
  have tn : (BitVec.ofNat 8 t).toNat = t := by simp; omega
  have hs : sections.map Section.type = List.replicate (pieces.filter (· ≠ [])).length (BitVec.ofNat 8 t) := by
    simp only [sections, List.map_map]
    rw [List.eq_replicate_iff]
    refine ⟨by simp, ?_⟩
    intro b hb; simp [Section.type] at hb; obtain ⟨x, _, rfl⟩ := hb; rfl
  have hne : ∃ n, (pieces.filter (· ≠ [])).length = n + 1 := by
    refine ⟨(pieces.filter (· ≠ [])).length - 1, ?_⟩
    have : pieces.filter (· ≠ []) ≠ [] := by
      intro h; apply hc
      rw [List.filter_eq_nil_iff] at h; rw [List.flatten_eq_nil_iff]; intro l hl; simpa using h l hl
    have := List.length_pos_of_ne_nil this; omega
  obtain ⟨n, hn⟩ := hne
  clear_value sections
  have sk : skippedTypes sections s = if (applyType t pieces.flatten s).isNone then [BitVec.ofNat 8 t] else [] := by
    simp only [skippedTypes, hs, hn, keepOnce_same, List.filter_cons, List.filter_nil, skips, j1, j2, tn, Bool.false_or]
  have ap : applySections sections s = (applyType t pieces.flatten s).getD s := by
    simp only [applySections, List.foldl, j3, j2]
    have hc' : decide (pieces.flatten ≠ []) = true := by simpa using hc
    simp only [hc', Bool.and_true, Bool.not_false]
    have hd : t = 1 ∨ t = 2 ∨ t = 3 ∨ t = 4 ∨ t = 5 ∨ t = 6 ∨ t = 7 ∨ t = 8 := by omega
    rcases hd with rfl | rfl | rfl | rfl | rfl | rfl | rfl | rfl <;> simp [j1]
  rw [sk, ap]
  constructor
  · intro u hu; simp [hu]
  · intro hu; simp [hu]

/-! ## The contents -/

/-- A table read back from its entries' bytes: it must have its length (R205). -/
theorem readTable_of {α β : Type} (p : Parse α) (check : α → Option β) (enc : β → List Byte) (raw : β → α) (n : Nat) (l : List β)
    (h : ∀ b ∈ l, check (raw b) = some b ∧ Reads p (enc b) (raw b)) (hp : p [] = none) (he : ∀ b ∈ l, enc b ≠ []) :
    (l.length = n → readTable p check n (l.flatMap enc) = some l) ∧ (l.length ≠ n → readTable p check n (l.flatMap enc) = none) := by
  constructor
  · rintro rfl
    have := reads_many (enc := enc) (p := p) raw l (fun b hb => (h b hb).2) []
    rw [List.append_nil] at this
    simp only [readTable, this]
    exact mapM_of check raw l (fun b hb => (h b hb).1)
  · intro hl
    rcases Nat.lt_or_gt_of_ne hl with hl | hl
    · have few : ∀ (l : List β) n, (∀ b ∈ l, Reads p (enc b) (raw b)) → l.length < n → parseMany p n (l.flatMap enc) = none := by
        intro l
        induction l with
        | nil => intro n _ hn; obtain ⟨m, rfl⟩ : ∃ m, n = m + 1 := ⟨n - 1, by simp at hn; omega⟩; simp [parseMany, hp]
        | cons b l ih =>
          intro n hb hn
          obtain ⟨m, rfl⟩ : ∃ m, n = m + 1 := ⟨n - 1, by simp at hn; omega⟩
          have := hb b (by simp) (l.flatMap enc)
          have ih := ih m (fun c hc => hb c (by simp [hc])) (by simpa using hn)
          simp [parseMany, this, ih]
      simp [readTable, few l n (fun b hb => (h b hb).2) hl]
    · have e : l.flatMap enc = (l.take n).flatMap enc ++ (l.drop n).flatMap enc := by
        rw [← List.flatMap_append, List.take_append_drop]
      have hn : (l.take n).length = n := by simp; omega
      have := reads_many (enc := enc) (p := p) raw (l.take n) (fun b hb => (h b (List.mem_of_mem_take hb)).2) ((l.drop n).flatMap enc)
      rw [hn] at this
      have ne : (l.drop n).flatMap enc ≠ [] := by
        intro hh
        have hd : l.drop n ≠ [] := by intro k; rw [List.drop_eq_nil_iff] at k; omega
        obtain ⟨b, hb⟩ := List.exists_mem_of_ne_nil _ hd
        rw [List.flatMap_eq_nil_iff] at hh
        exact he b (List.mem_of_mem_drop hb) (hh b hb)
      rw [readTable, e, this]
      cases hx : (l.drop n).flatMap enc with
      | nil => exact absurd hx ne
      | cons a r => rfl

theorem bind_read {α β : Type} {p : Option α} {f : α → Option β} {a : α} {z : Option β} (h : p = some a) (k : f a = z) : (p >>= f) = z := by
  subst h; exact k

/-- The GUARD content as a save writes it (R205, R207). -/
theorem readGuard_of (g h : Guard) (c1 : g.alarms.railOc.choice < 4) (c2 : g.alarms.railUv.choice < 4) (c3 : g.alarms.coilOc.choice < 4)
    (c4 : g.alarms.coilUv.choice < 4) :
    let n : GuardSettings :=
      ⟨⟨g.alarms.railOc.choice, g.alarms.railOc.enabled, g.alarms.railOc.mask⟩, ⟨g.alarms.railUv.choice, g.alarms.railUv.enabled,
          g.alarms.railUv.mask⟩,
       ⟨g.alarms.coilOc.choice, g.alarms.coilOc.enabled, g.alarms.coilOc.mask⟩, ⟨g.alarms.coilUv.choice, g.alarms.coilUv.enabled,
           g.alarms.coilUv.mask⟩,
       g.mode, g.alarms.dieOt.mask⟩
    readGuard h (encGuardSettings g) = if n.bad then none else some n := by
  intro n
  have f : ∀ c, c < 4 → ∀ r, parseOpt parse8 (encOpt enc8 (some (c + 1)) ++ r) = some (some (c + 1), r) := by
    intro c hc r; exact reads_opt (enc := enc8) (p := parse8) id (some (c + 1)) (fun a ha => by simp at ha; subst ha; exact reads_8 _ (by omega)) r
  have b : ∀ b r, parseOpt parseTwo (encOpt encTwo (some b) ++ r) = some (some b, r) := by
    intro b r; exact reads_opt (enc := encTwo) (p := parseTwo) id (some b) (fun a ha => by simp at ha; subst ha; exact reads_two _) r
  have m : ∀ m : OcMode, ∀ r, parseOpt parse8 (encOpt (encNamed ocModeList) (some m) ++ r) = some (some (position ocModeList m), r) := by
    intro m r; cases m <;> rfl
  have e : parseGuard (encGuardSettings g) = some (⟨some (g.alarms.railOc.choice + 1), some (g.alarms.railUv.choice + 1),
      some (g.alarms.coilOc.choice + 1), some (g.alarms.coilUv.choice + 1),
      some g.alarms.railOc.enabled, some g.alarms.railUv.enabled, some g.alarms.coilOc.enabled, some g.alarms.coilUv.enabled,
          some (position ocModeList g.mode),
      some g.alarms.railOc.mask, some g.alarms.railUv.mask, some g.alarms.coilOc.mask, some g.alarms.coilUv.mask,
          some g.alarms.dieOt.mask⟩, []) := by
    have last := b g.alarms.dieOt.mask []
    rw [List.append_nil] at last
    simp only [encGuardSettings, List.append_assoc]
    unfold parseGuard
    refine bind_read (f _ c1 _) (bind_read (f _ c2 _) (bind_read (f _ c3 _) (bind_read (f _ c4 _) ?_)))
    refine bind_read (b _ _) (bind_read (b _ _) (bind_read (b _ _) (bind_read (b _ _) (bind_read (m _ _) ?_))))
    exact bind_read (b _ _) (bind_read (b _ _) (bind_read (b _ _) (bind_read (b _ _) (bind_read last rfl))))
  have sa : settingsAfter ⟨some (g.alarms.railOc.choice + 1), some (g.alarms.railUv.choice + 1), some (g.alarms.coilOc.choice + 1),
      some (g.alarms.coilUv.choice + 1),
      some g.alarms.railOc.enabled, some g.alarms.railUv.enabled, some g.alarms.coilOc.enabled, some g.alarms.coilUv.enabled,
          some (position ocModeList g.mode),
      some g.alarms.railOc.mask, some g.alarms.railUv.mask, some g.alarms.coilOc.mask, some g.alarms.coilUv.mask,
          some g.alarms.dieOt.mask⟩ h = some n := by
    simp only [settingsAfter, filterInList, pick_position ocModeList g.mode (by cases g.mode <;> simp [ocModeList])]
    rw [if_pos (by simp; omega)]
    simp [settingsAfter.build, settingOf, n]
  rw [readGuard, e]
  simp only [guardComplete, Option.isSome_some, Bool.and_true, if_true, sa, Option.filter]
  clear_value n
  split <;> rename_i hb
  · rw [if_neg (by simpa using hb)]
  · rw [if_pos (by simpa using hb)]

/-- The SETTINGS content as a save writes it. -/
theorem readSettings_of (grace settle dwell discard : Nat) (rate : SampleRate) (h1 : grace < 65536) (h2 : settle < 65536) (h3 : dwell < 65536)
    (h4 : discard < 65536) :
    readSettings (enc16 grace ++ enc16 settle ++ enc16 dwell ++ encNamed rateList rate ++ enc16 discard) =
      if graceOk grace ∧ settleOk settle ∧ dwellOk dwell ∧ discardOk discard then some (grace, settle, dwell, rate, discard) else none := by
  have p16 : ∀ n, n < 65536 → ∀ r, parse16 (enc16 n ++ r) = some (n, r) := fun n h r => reads_16 n h r
  have last := p16 discard h4 []
  rw [List.append_nil] at last
  have pr : ∀ r, parse8 (encNamed rateList rate ++ r) = some (position rateList rate, r) := by
    intro r; exact reads_8 _ (by cases rate <;> simp [position, rateList]) r
  have pk := pick_position rateList rate (by cases rate <;> simp [rateList])
  simp only [readSettings, List.append_assoc, p16 _ h1, p16 _ h2, p16 _ h3, pr, pk, last, bind, Option.bind_some, true_and]

theorem keepOnce_nodup (l : List Byte) (h : l.Nodup) : keepOnce l = l := by
  have : ∀ l acc : List Byte, (acc ++ l).Nodup → l.foldl (fun acc b => if acc.contains b then acc else acc ++ [b]) acc = acc ++ l := by
    intro l
    induction l with
    | nil => simp
    | cons a l ih =>
      intro acc hn
      have : a ∉ acc := by
        rw [List.nodup_append] at hn; intro k; exact hn.2.2 a k a (by simp) rfl
      simp only [List.foldl_cons]
      rw [if_neg (by simpa using this), ih _ (by simpa using hn)]; simp
  have := this l [] (by simpa using h)
  rw [List.nil_append] at this
  exact this

/-- Kind codes of a base, each once, are at most four. -/
theorem kinds_short (l : List Byte) (h : ∀ k ∈ l, 0x10 ≤ k.toNat ∧ k.toNat ≤ 0x13) (n : l.Nodup) : l.length ≤ 4 := by
  have : l ⊆ [0x10#8, 0x11#8, 0x12#8, 0x13#8] := by
    intro k hk
    have := h k hk
    have : k.toNat = 16 ∨ k.toNat = 17 ∨ k.toNat = 18 ∨ k.toNat = 19 := by omega
    rcases this with e | e | e | e <;> (have : k = BitVec.ofNat 8 k.toNat := by simp) <;> rw [this, e] <;> simp
  exact (n.subperm this).length_le

/-- The GENERIC-BASE content as a save writes it (R53, R205). -/
theorem readGeneric_of (g : GenericProfile) (d : Nat) (hd : d < 256) (hg : g.demand = 50 * d)
    (h1 : ∀ k ∈ g.declared, 0x10 ≤ k.toNat ∧ k.toNat ≤ 0x13) (h2 : g.declared ≠ []) (h3 : g.declared.Nodup) (h4 : g.wakeKinds.Nodup)
    (h5 : ∀ k ∈ g.wakeKinds, k ∈ g.declared) (h6 : ∀ m, g.mount = some m → m.order ≤ 5 ∧ m.signs ≤ 7) :
    readGeneric (encGeneric g) = if 5 ≤ d ∧ d ≤ 40 then some g else none := by
  have hw : encWord g.model = [BitVec.ofNat 8 (g.model.toNat / 256), BitVec.ofNat 8 g.model.toNat] := rfl
  have hm : beWord (BitVec.ofNat 8 (g.model.toNat / 256)) (BitVec.ofNat 8 g.model.toNat) = g.model := by
    apply BitVec.eq_of_toNat_eq
    have := g.model.isLt
    simp only [beWord, BitVec.toNat_append]
    rw [← Nat.shiftLeft_add_eq_or_of_lt (by omega)]
    simp [Nat.shiftLeft_eq]; omega
  have dv : g.demand / 50 = d := by omega
  have l1 := kinds_short _ h1 h3
  have l2 := kinds_short g.wakeKinds (fun k hk => h1 k (h5 k hk)) h4
  have ps : ∀ l : List Byte, l ≠ [] → l.length ≤ 4 → (∀ k ∈ l, 0x10 ≤ k.toNat ∧ k.toNat ≤ 0x13) → l.Nodup → parseSources l = some l := by
    intro l a b c n
    have := List.length_pos_of_ne_nil a
    rw [parseSources, if_pos ⟨by omega, by omega, by simpa using c⟩, keepOnce_nodup l n]
  have r1 : ∀ r, parseRun (encRun g.declared ++ r) = some (g.declared, r) := fun r => reads_run _ (by omega) r
  have r2 : ∀ r, parseRun (encRun g.wakeKinds ++ r) = some (g.wakeKinds, r) := fun r => reads_run _ (by omega) r
  have wk : (if g.wakeKinds = [] then some [] else parseWake g.declared g.wakeKinds) = some g.wakeKinds := by
    split
    · rename_i h; rw [h]
    · rename_i h
      rw [parseWake, ps _ h l2 (fun k hk => h1 k (h5 k hk)) h4]
      simp [Option.filter]; exact h5
  have mt : readMount (encOpt (fun m : Mount => enc8 m.order ++ enc8 m.signs) g.mount) = some g.mount := by
    cases e : g.mount with
    | none => rfl
    | some m =>
      have := h6 m e
      obtain ⟨o, sg⟩ := m
      have a1 : (BitVec.ofNat 8 o).toNat = o := by simp at this ⊢; omega
      have a2 : (BitVec.ofNat 8 sg).toNat = sg := by simp at this ⊢; omega
      simp only [encOpt, enc8, List.cons_append, List.nil_append, readMount, if_true, parseMount, a1, a2]
      rw [if_pos this]; rfl
  have rl : parseRail [BitVec.ofNat 8 d, if g.selfPowered then 1#8 else 0#8] = if 5 ≤ d ∧ d ≤ 40 then some (g.demand,
      g.selfPowered) else none := by
    have a1 : (BitVec.ofNat 8 d).toNat = d := by simp; omega
    cases g.selfPowered <;> simp [parseRail, a1, hg]
    all_goals (by_cases x : 5 ≤ d ∧ d ≤ 40 <;> simp [x, Nat.mod_eq_of_lt hd])
  have e : encGeneric g = BitVec.ofNat 8 (g.model.toNat / 256) :: BitVec.ofNat 8 g.model.toNat :: BitVec.ofNat 8 d ::
      (if g.selfPowered then 1#8 else 0#8) :: (encRun g.declared ++ (encRun g.wakeKinds ++ encOpt (fun m : Mount => enc8 m.order ++ enc8 m.signs) g.mount)) := by
    simp [encGeneric, hw, dv, enc8]
  rw [e]
  unfold readGeneric
  by_cases x : 5 ≤ d ∧ d ≤ 40
  · rw [if_pos x] at rl ⊢
    refine bind_read rl (bind_read (r1 _) (bind_read (ps _ h2 l1 h1 h3) (bind_read (r2 _) ?_)))
    dsimp only
    split
    · rename_i hk
      refine bind_read rfl (bind_read mt ?_)
      rw [hm, ← hk]
    · rename_i hk
      rw [if_neg hk] at wk
      refine bind_read wk (bind_read mt ?_)
      rw [hm]
  · rw [if_neg x] at rl ⊢
    show ((parseRail _).bind _) = none
    rw [rl]; rfl

/-! ## What the end of start-up keeps -/

/-- The tables and settings that the store holds, of the state t, are those of s. -/
def SameConfig (t s : State) : Prop :=
  t.route.table = s.route.table ∧ t.posture.windows = s.posture.windows ∧ t.policy.table = s.policy.table ∧
  t.guard.profiles = s.guard.profiles ∧ t.guard.mode = s.guard.mode ∧
  (∀ c, (t.guard.alarms.get c).choice = (s.guard.alarms.get c).choice ∧
    (t.guard.alarms.get c).enabled = (s.guard.alarms.get c).enabled ∧ (t.guard.alarms.get c).mask = (s.guard.alarms.get c).mask) ∧
  t.sleep.graceTime = s.sleep.graceTime ∧ t.posture.settleTime = s.posture.settleTime ∧ t.orient.dwell = s.orient.dwell ∧
  t.poller.rate = s.poller.rate ∧ t.issuer.discardTime = s.issuer.discardTime ∧ t.pool.share = s.pool.share ∧ t.generic = s.generic

theorem sameConfig_refl (s : State) : SameConfig s s := by simp [SameConfig]

theorem sameConfig_trans {a b c : State} (h : SameConfig a b) (k : SameConfig b c) : SameConfig a c := by
  obtain ⟨h1, h2, h3, h4, h5, h6, h7, h8, h9, h10, h11, h12, h13⟩ := h
  obtain ⟨k1, k2, k3, k4, k5, k6, k7, k8, k9, k10, k11, k12, k13⟩ := k
  refine ⟨h1.trans k1, h2.trans k2, h3.trans k3, h4.trans k4, h5.trans k5, fun c => ?_, h7.trans k7, h8.trans k8, h9.trans k9,
      h10.trans k10,
    h11.trans k11, h12.trans k12, h13.trans k13⟩
  obtain ⟨x1, x2, x3⟩ := h6 c
  obtain ⟨y1, y2, y3⟩ := k6 c
  exact ⟨x1.trans y1, x2.trans y2, x3.trans y3⟩

/-- What keeps the records and the guard keeps the configuration. -/
theorem sameConfig_of {t s : State} (r : KeepsRecords t s) (g : t.guard = s.guard) (p : t.poller = s.poller) (n : t.generic = s.generic) :
    SameConfig t s := by
  simp only [KeepsRecords] at r
  simp [SameConfig, r, g, p, n]

theorem post_config (n : Notice) (s : State) : SameConfig (post n s) s := sameConfig_of (post_records n s) (by simp) (by simp) (by simp)

theorem setLinkState_config (n : LinkState) (s : State) : SameConfig (setLinkState n s) s :=
  sameConfig_of (setLinkState_records n s) (by simp) (by simp) (by simp)

theorem switchOutputs_config (s : State) : SameConfig (switchOutputs s) s := by
  have r := switchOutputs_records s
  have g := (switchOutputs_settings s).1
  have f := switchOutputs_frame s
  simp only [KeepsRecords] at r
  simp only [KeepsSettings, KeepsMarks] at g
  simp only [KeepsWorld, KeepsPort] at f
  refine ⟨?_, ?_, ?_, ?_, ?_, fun c => ?_, ?_, ?_, ?_, ?_, ?_, ?_, ?_⟩
  case refine_6 => cases c <;> simp [PerCause.get, g]
  all_goals simp [r, g, f]

theorem dieOtTaken_config (s : State) : SameConfig (dieOtTaken s) s := by
  have t : ∀ g (u : State), SameConfig (tellAlarm .dieOt .off g u) u := by
    intro g u; unfold tellAlarm; dsimp only [postEvent]; split
    · exact sameConfig_refl _
    · exact sameConfig_trans (sameConfig_refl _) (post_config _ _)
  unfold dieOtTaken
  refine sameConfig_trans (t _ _) (sameConfig_trans (switchOutputs_config _) ?_)
  refine ⟨rfl, rfl, rfl, rfl, rfl, fun c => ?_, rfl, rfl, rfl, rfl, rfl, rfl, rfl⟩
  cases c <;> exact ⟨rfl, rfl, rfl⟩

/-- The end of start-up changes no table and no setting of the configuration (R206). -/
theorem startUpEnds_config (r : StartResult) (s : State) : SameConfig (startUpEnds r s) s := by
  have p : ∀ u : State, SameConfig (samplePresence u) u := by
    intro u; unfold samplePresence; split
    · exact sameConfig_trans (sameConfig_refl _) (setLinkState_config _ _)
    · exact sameConfig_refl _
  have d : ∀ u : State, SameConfig (sampleDock u) u := by
    intro u; unfold sampleDock; split <;> exact sameConfig_refl _
  have e := post_config (.start r) { s with store := { s.store with state := .idle, result := some r, exchange := none, timer := none } }
  unfold startUpEnds; dsimp only
  have k := sameConfig_trans (d _) (sameConfig_trans (p _) (sameConfig_trans e (b := _) (c := s) (sameConfig_refl _)))
  split
  · exact sameConfig_trans (dieOtTaken_config _) (sameConfig_trans (sameConfig_refl _) k)
  · exact sameConfig_trans (sameConfig_refl _) k

end Sys2Proof.Machine
end

