-- ==== Sys2Proof/Laws/Descriptor.lean ====
section
/-! SUPPORT. The reading of a base's descriptor: the notes and values of the five types (R50), the bodies their rules accept (R51), the walk
of its sections (R4). -/
namespace Sys2Proof.Machine
set_option linter.all false

/-- The value and the note of one type (R50): nothing found, one section that keeps the type's rules or breaks them, several. -/
theorem valueAndNote_spec {α : Type} (parse : List Byte → Option α) (found : List (Option (List Byte))) (keeps : List Byte →
    Prop) (hk : ∀ b, (∃ v, parse b = some v) ↔ keeps b) :
    let bad : Prop := ∀ b, found.head?.join = some b → ¬ keeps b
    let r := valueAndNote parse found
    ((found = [] → r.2 = .absent) ∧ (found.length = 1 → bad → r.2 = .badBody) ∧
      (found.length = 1 → ¬ bad → r.2 = .taken) ∧ (2 ≤ found.length → r.2 = .badRepeat)) ∧
    (bad → r.1 = none) ∧ (∀ b v, found.head?.join = some b → parse b = some v → r.1 = some v) ∧
    (r.2 = .taken → ¬ bad) ∧ (r.2 = .absent → found = []) := by
  have nb : ∀ b, ¬ keeps b → parse b = none := by
    intro b h; cases e : parse b with
    | none => rfl
    | some v => exact absurd ((hk b).1 ⟨v, e⟩) h
  rcases found with _ | ⟨x, _ | ⟨y, l⟩⟩
  · simp [valueAndNote]
  · cases x with
    | none => simp [valueAndNote]
    | some b =>
      cases e : parse b with
      | none =>
        have : ¬ keeps b := fun h => by obtain ⟨v, hv⟩ := (hk b).2 h; rw [hv] at e; cases e
        simp [this, e, valueAndNote]; rintro b v rfl h; rw [e] at h; cases h
      | some v => have := (hk b).1 ⟨v, e⟩; simp [this, e, valueAndNote]; rintro b v rfl h; rw [e] at h; cases h; rfl
  · cases x with
    | none => simp [valueAndNote]
    | some b =>
      cases e : parse b with
      | none =>
        have : ¬ keeps b := fun h => by obtain ⟨v, hv⟩ := (hk b).2 h; rw [hv] at e; cases e
        simp [this, e, valueAndNote]; rintro b v rfl h; rw [e] at h; cases h
      | some v => have := (hk b).1 ⟨v, e⟩; simp [this, e, valueAndNote]; rintro b v rfl h; rw [e] at h; cases h; rfl

/-- A list kept once holds what it held, each once. -/
theorem keepOnce_spec (l : List Byte) : (keepOnce l).Nodup ∧ ∀ k, k ∈ keepOnce l ↔ k ∈ l := by
  have : ∀ (l acc : List Byte), acc.Nodup → (l.foldl (fun acc b => if acc.contains b then acc else acc ++ [b]) acc).Nodup ∧ ∀ k,
      k ∈ l.foldl (fun acc b => if acc.contains b then acc else acc ++ [b]) acc ↔ k ∈ acc ∨ k ∈ l := by
    intro l
    induction l with
    | nil => intro acc h; exact ⟨h, by simp⟩
    | cons a l ih =>
      intro acc h
      simp only [List.foldl_cons]
      split
      · rename_i hc
        have hc : a ∈ acc := by simpa using hc
        obtain ⟨x, y⟩ := ih acc h
        refine ⟨x, fun k => ?_⟩
        rw [y]; simp only [List.mem_cons]
        constructor
        · rintro (h | h) <;> simp [h]
        · rintro (h | rfl | h) <;> simp [*]
      · rename_i hc
        have hc : a ∉ acc := by simpa using hc
        obtain ⟨x, y⟩ := ih (acc ++ [a]) (by rw [List.nodup_append]; exact ⟨h, by simp,
            by intro b hb c hc2; simp at hc2; subst hc2; rintro rfl; exact hc hb⟩)
        refine ⟨x, fun k => ?_⟩
        rw [y]; simp [or_assoc]
  have := this l [] (by simp)
  exact ⟨this.1, fun k => by have := this.2 k; simpa [keepOnce] using this⟩

/-- Which bodies each type's rules accept (R51). -/
theorem parse_rules :
    (∀ b : List Byte, (∃ v, parseIdentity b = some v) ↔ b.length = 7) ∧
    (∀ b : List Byte, (∃ v, parseRail b = some v) ↔ ∃ p f, b = [p, f] ∧ 5 ≤ p.toNat ∧ p.toNat ≤ 40 ∧ f.toNat ≤ 1) ∧
    (∀ b : List Byte, (∃ v, parseSources b = some v) ↔ 1 ≤ b.length ∧ b.length ≤ 8 ∧ ∀ k ∈ b, 0x10 ≤ k.toNat ∧ k.toNat ≤ 0x13) ∧
    (∀ d b : List Byte, (∃ v, parseWake d b = some v) ↔ (1 ≤ b.length ∧ b.length ≤ 8 ∧ ∀ k ∈ b, 0x10 ≤ k.toNat ∧ k.toNat ≤ 0x13) ∧
        ∀ k ∈ b, k ∈ d) ∧
    (∀ b : List Byte, (∃ v, parseMount b = some v) ↔ ∃ o x, b = [o, x] ∧ o.toNat ≤ 5 ∧ x.toNat ≤ 7) := by
  refine ⟨?_, ?_, ?_, ?_, ?_⟩
  · intro b
    match b with
    | [m1, m0, rev, s3, s2, s1, s0] => simp [parseIdentity]
    | [] | [_] | [_, _] | [_, _, _] | [_, _, _, _] | [_, _, _, _, _] | [_, _, _, _, _, _] => simp [parseIdentity]
    | _ :: _ :: _ :: _ :: _ :: _ :: _ :: _ :: _ => simp [parseIdentity]
  · intro b
    match b with
    | [p, f] => simp [parseRail]
    | [] | [_] => simp [parseRail]
    | _ :: _ :: _ :: _ => simp [parseRail]
  · intro b; simp [parseSources]
  · intro d b
    simp only [parseWake, parseSources]
    split
    · rename_i h
      have k := (keepOnce_spec b).2
      simp only [List.all_eq_true, Bool.and_eq_true, decide_eq_true_eq] at h
      simp [Option.filter, k]
      intro _; exact ⟨by omega, h.2.1, h.2.2⟩
    · rename_i h
      have : ¬ (1 ≤ b.length ∧ b.length ≤ 8 ∧ ∀ k ∈ b, 0x10 ≤ k.toNat ∧ k.toNat ≤ 0x13) := fun k => h ⟨k.1, k.2.1, by simpa using k.2.2⟩
      constructor
      · rintro ⟨v, hv⟩; simp [Option.filter] at hv
      · rintro ⟨k, _⟩; exact absurd k this
  · intro b
    match b with
    | [p, f] => simp [parseMount]
    | [] | [_] => simp [parseMount]
    | _ :: _ :: _ :: _ => simp [parseMount]

/-- The walk goes through whole sections of any types (R4). -/
theorem walk_many (l : List (Byte × List Byte)) (hl : ∀ x ∈ l, x.1 ≠ 0#8 ∧
    x.2.length ≤ 255) (tail : List Byte) (fuel : Nat) (hf : l.length ≤ fuel) :
    walk fuel (l.flatMap (fun x => x.1 :: BitVec.ofNat 8 x.2.length :: x.2) ++ tail) =
      (l.filter (fun x => x.2 ≠ [])).map (fun x => .whole x.1 x.2) ++ walk (fuel - l.length) tail := by
  induction l generalizing fuel with
  | nil => simp
  | cons x l ih =>
    have hx := hl x (by simp)
    have := walk_sections x.1 hx.1 [x.2] (by simpa using hx.2) (l.flatMap (fun x => x.1 :: BitVec.ofNat 8 x.2.length :: x.2) ++ tail) fuel (by simp at hf ⊢; omega)
    have e : (x :: l).flatMap (fun x => x.1 :: BitVec.ofNat 8 x.2.length :: x.2) ++ tail = sectionBytes x.1 [x.2] ++ (l.flatMap (fun x => x.1 :: BitVec.ofNat 8 x.2.length :: x.2) ++ tail) := by simp [sectionBytes]
    rw [e, this, ih (fun y hy => hl y (by simp [hy])) _ (by simp at hf ⊢; omega)]
    have a : fuel - [x.2].length - l.length = fuel - (x :: l).length := by simp; omega
    rw [a]
    by_cases h : x.2 = [] <;> simp [h]

end Sys2Proof.Machine
end

