-- ==== Sys2Proof/Laws/Memory.lean ====
section
/-! SUPPORT. The external store as memory: a write keeps the canonical form, and a read after a write. -/
namespace Sys2Proof.Machine

theorem memory_wfFrom_mono (m : List Host.Cell) (a b : Nat) (h : a ≤ b) (w : Memory.wfFrom b m = true) :
    Memory.wfFrom a m = true := by
  cases m with
  | nil => rfl
  | cons c r =>
    obtain ⟨x, v⟩ := c
    simp only [Memory.wfFrom, Bool.and_eq_true, decide_eq_true_eq] at w ⊢
    exact ⟨⟨by omega, w.1.2⟩, w.2⟩

/-- Below its bound a canonical list reads as erased. -/
theorem memory_read_below (m : List Host.Cell) (a b : Nat) (h : a < b) (w : Memory.wfFrom b m = true) :
    Memory.read m a = eraseByte := by
  induction m generalizing b with
  | nil => rfl
  | cons c r ih =>
    obtain ⟨x, v⟩ := c
    simp only [Memory.wfFrom, Bool.and_eq_true, decide_eq_true_eq] at w
    rw [Memory.read, if_neg (by omega)]
    exact ih (x + 1) (by omega) w.2

theorem memory_write_wfFrom (m : List Host.Cell) (a b : Nat) (v : Byte) (h : b ≤ a) (w : Memory.wfFrom b m = true) :
    Memory.wfFrom b (Memory.write m a v) = true := by
  induction m generalizing b with
  | nil => simp only [Memory.write]; split <;> simp_all [Memory.wfFrom]
  | cons c r ih =>
    obtain ⟨x, u⟩ := c
    simp only [Memory.wfFrom, Bool.and_eq_true, decide_eq_true_eq] at w
    simp only [Memory.write]
    split
    · split
      · simp only [Memory.wfFrom, Bool.and_eq_true, decide_eq_true_eq]; exact w
      · simp_all [Memory.wfFrom]
    · split
      · split
        · exact memory_wfFrom_mono r b (x + 1) (by omega) w.2
        · subst_vars; simp_all [Memory.wfFrom]
      · simp only [Memory.wfFrom, Bool.and_eq_true, decide_eq_true_eq]
        exact ⟨w.1, ih (x + 1) (by omega) w.2⟩

/-- Writing one byte keeps the canonical form. -/
theorem memory_write_wf (m : List Host.Cell) (a : Nat) (v : Byte) (w : Memory.wf m = true) :
    Memory.wf (Memory.write m a v) = true := memory_write_wfFrom m a 0 v (Nat.zero_le a) w

/-- Writing a run of bytes keeps the canonical form. -/
theorem memory_writeBytes_wf (m : List Host.Cell) (a : Nat) (l : List Byte) (w : Memory.wf m = true) :
    Memory.wf (Memory.writeBytes m a l) = true := by
  induction l generalizing m a with
  | nil => exact w
  | cons v r ih => exact ih _ _ (memory_write_wf m a v w)

theorem memory_read_cons (x b : Nat) (u : Byte) (r : List Host.Cell) :
    Memory.read ((x, u) :: r) b = if x = b then u else Memory.read r b := rfl

theorem memory_read_write_from (m : List Host.Cell) (a b c : Nat) (v : Byte) (w : Memory.wfFrom c m = true) (h : c ≤ a) :
    Memory.read (Memory.write m a v) b = if b = a then v else Memory.read m b := by
  induction m generalizing c with
  | nil =>
    by_cases hv : v = eraseByte <;> by_cases hb : b = a
    · simp [Memory.write, hv, hb, Memory.read]
    · simp [Memory.write, hv, hb, Memory.read]
    · simp [Memory.write, hv, hb, Memory.read]
    · have : ¬ a = b := fun e => hb e.symm
      simp [Memory.write, hv, hb, Memory.read, this]
  | cons d r ih =>
    obtain ⟨x, u⟩ := d
    simp only [Memory.wfFrom, Bool.and_eq_true, decide_eq_true_eq] at w
    have low : ∀ y, y < x + 1 → Memory.read r y = eraseByte := fun y hy => memory_read_below r y (x + 1) hy w.2
    by_cases hax : a < x
    · by_cases hv : v = eraseByte
      · rw [Memory.write, if_pos hax, if_pos hv]
        by_cases hb : b = a
        · rw [if_pos hb, memory_read_cons, if_neg (by omega), low b (by omega), hv]
        · rw [if_neg hb]
      · rw [Memory.write, if_pos hax, if_neg hv, memory_read_cons]
        by_cases hb : b = a
        · rw [if_pos hb, if_pos hb.symm]
        · rw [if_neg hb, if_neg (fun e => hb e.symm)]
    · by_cases he : a = x
      · by_cases hv : v = eraseByte
        · rw [Memory.write, if_neg hax, if_pos he, if_pos hv]
          by_cases hb : b = a
          · rw [if_pos hb, low b (by omega), hv]
          · rw [if_neg hb, memory_read_cons, if_neg (by omega)]
        · rw [Memory.write, if_neg hax, if_pos he, if_neg hv, memory_read_cons]
          by_cases hb : b = a
          · rw [if_pos hb, if_pos hb.symm]
          · rw [if_neg hb, if_neg (fun e => hb e.symm), memory_read_cons, if_neg (by omega)]
      · rw [Memory.write, if_neg hax, if_neg he, memory_read_cons, memory_read_cons, ih (x + 1) w.2 (by omega)]
        by_cases hb : b = a
        · rw [if_pos hb, if_pos hb, if_neg (by omega)]
        · rw [if_neg hb, if_neg hb]

/-- Reading after writing: the byte written at its address, every other byte as before. -/
theorem memory_read_write (m : List Host.Cell) (a b : Nat) (v : Byte) (w : Memory.wf m = true) :
    Memory.read (Memory.write m a v) b = if b = a then v else Memory.read m b :=
  memory_read_write_from m a b 0 v w (Nat.zero_le a)

/-- Reading after writing a run: a byte of the run inside it, every other byte as before. -/
theorem memory_read_writeBytes (m : List Host.Cell) (a b : Nat) (l : List Byte) (w : Memory.wf m = true) :
    Memory.read (Memory.writeBytes m a l) b =
      if a ≤ b ∧ b < a + l.length then l.getD (b - a) eraseByte else Memory.read m b := by
  induction l generalizing m a with
  | nil => rw [Memory.writeBytes, if_neg (by simp)]
  | cons v r ih =>
    rw [Memory.writeBytes, ih _ _ (memory_write_wf m a v w), memory_read_write m a b v w]
    simp only [List.length_cons]
    by_cases h : b = a
    · subst h; rw [if_neg (by omega), if_pos rfl, if_pos (by omega)]; simp
    · by_cases k : a + 1 ≤ b ∧ b < a + 1 + r.length
      · rw [if_pos k, if_pos (by omega)]
        obtain ⟨d, rfl⟩ : ∃ d, b = a + 1 + d := ⟨b - (a + 1), by omega⟩
        rw [show a + 1 + d - (a + 1) = d by omega, show a + 1 + d - a = d + 1 by omega]; simp
      · rw [if_neg k, if_neg h, if_neg (by omega)]
end Sys2Proof.Machine
end

