-- ==== Sys2Proof/Laws/Image.lean ====
section
/-! SUPPORT. The contents of the external store after a page write cut off (R209), and the image that a save builds (R207). -/
namespace Sys2Proof.Machine

/-! ## A page write cut off -/

theorem partlyWritten_upto (draw page : Nat) (bytes : List Byte) (m : List Host.Cell) (w : Memory.wf m = true) (n : Nat) :
    let f := (List.range n).foldl
      (fun m i => if Config.partPage draw i then Memory.write m (32 * page + i) (bytes.getD i eraseByte) else m) m
    Memory.wf f = true ∧
    ∀ a, Memory.read f a = Memory.read m a ∨
      (32 * page ≤ a ∧ a < 32 * page + n ∧ Memory.read f a = bytes.getD (a - 32 * page) eraseByte) := by
  induction n with
  | zero => exact ⟨w, fun a => Or.inl rfl⟩
  | succ n ih =>
    dsimp only at ih ⊢
    rw [List.range_succ, List.foldl_append, List.foldl_cons, List.foldl_nil]
    generalize (List.range n).foldl _ m = f at ih ⊢
    obtain ⟨w', ih⟩ := ih
    split
    · refine ⟨memory_write_wf _ _ _ w', fun a => ?_⟩
      rw [memory_read_write _ _ _ _ w']
      by_cases h : a = 32 * page + n
      · subst h; right; refine ⟨by omega, by omega, ?_⟩
        rw [if_pos rfl, Nat.add_sub_cancel_left]
      · rw [if_neg h]
        rcases ih a with i | ⟨i, j, k⟩
        · exact Or.inl i
        · exact Or.inr ⟨i, by omega, k⟩
    · refine ⟨w', fun a => ?_⟩
      rcases ih a with i | ⟨i, j, k⟩
      · exact Or.inl i
      · exact Or.inr ⟨i, by omega, k⟩

/-- A page write taken in part keeps the canonical form. -/
theorem partlyWritten_wf (draw page : Nat) (bytes : List Byte) (m : List Host.Cell) (w : Memory.wf m = true) :
    Memory.wf (partlyWritten draw page bytes m) = true := (partlyWritten_upto draw page bytes m w 32).1

/-- After a page write taken in part each byte is the old one or, in the page, the new one. -/
theorem partlyWritten_read (draw page : Nat) (bytes : List Byte) (m : List Host.Cell) (w : Memory.wf m = true) (a : Nat) :
    Memory.read (partlyWritten draw page bytes m) a = Memory.read m a ∨
      (32 * page ≤ a ∧ a < 32 * page + 32 ∧
        Memory.read (partlyWritten draw page bytes m) a = bytes.getD (a - 32 * page) eraseByte) :=
  (partlyWritten_upto draw page bytes m w 32).2 a

/-- A mark byte that reads 0xFF: no valid image. -/
theorem markBroken_holdsNone (draw : Nat) (m : List Host.Cell) (w : Memory.wf m = true) : holdsImage (markBroken draw m) = false := by
  unfold holdsImage markBroken
  simp only [memory_read_write _ _ _ _ w]
  split <;> simp [eraseByte]

/-- A cold reset keeps the canonical form of the store's contents. -/
theorem cutOffContents_wf (s : State) (w : Memory.wf s.store.eeprom = true) : Memory.wf (cutOffContents s) = true := by
  unfold cutOffContents
  split
  · dsimp only
    split
    · exact memory_write_wf _ _ _ (partlyWritten_wf _ _ _ _ w)
    · exact partlyWritten_wf _ _ _ _ w
  · exact w

/-- A save cut off leaves no valid image. -/
theorem cutOffContents_saving (s : State) (k : Nat) (bytes : List Byte) (h : s.store.exchange = some (.writePage k bytes))
    (hs : s.store.state = .saving) (w : Memory.wf s.store.eeprom = true) : holdsImage (cutOffContents s) = false := by
  simp only [cutOffContents, h, hs]
  split
  · exact markBroken_holdsNone _ _ (partlyWritten_wf _ _ _ _ w)
  · rename_i hn; simpa using hn

/-- What a page write cut off leaves is the old contents or no valid image. -/
theorem cutOffContents_oldOrNone (s : State) (w : Memory.wf s.store.eeprom = true) :
    cutOffContents s = s.store.eeprom ∨ holdsImage (cutOffContents s) = false := by
  unfold cutOffContents
  split
  · dsimp only
    split
    · exact Or.inr (markBroken_holdsNone _ _ (partlyWritten_wf _ _ _ _ w))
    · rename_i hn
      rw [Bool.and_eq_true, Bool.or_eq_true] at hn
      by_cases hm : partlyWritten s.fresh ‹Nat› ‹List Byte› s.store.eeprom = s.store.eeprom
      · exact Or.inl hm
      · right
        cases hi : holdsImage (partlyWritten s.fresh ‹Nat› ‹List Byte› s.store.eeprom)
        · rfl
        · exact absurd ⟨hi, Or.inr (by simpa using hm)⟩ hn
  · exact Or.inl rfl

/-- Each byte after a page write cut off: the old one, in the page the new one, or a mark byte that reads 0xFF. -/
theorem cutOffContents_read (s : State) (k : Nat) (bytes : List Byte) (h : s.store.exchange = some (.writePage k bytes))
    (w : Memory.wf s.store.eeprom = true) (a : Nat) :
    Memory.read (cutOffContents s) a = Memory.read s.store.eeprom a ∨
      (32 * k ≤ a ∧ a < 32 * k + 32 ∧ Memory.read (cutOffContents s) a = bytes.getD (a - 32 * k) eraseByte) ∨
      (a < 2 ∧ Memory.read (cutOffContents s) a = eraseByte) := by
  have p := partlyWritten_read s.fresh k bytes _ w a
  have q := partlyWritten_wf s.fresh k bytes _ w
  simp only [cutOffContents, h]
  split
  · rw [markBroken]
    generalize hx : (if Config.partPage s.fresh 32 = true then 0 else 1) = x
    have hx2 : x < 2 := by subst hx; split <;> omega
    rw [memory_read_write _ _ _ _ q]
    by_cases ha : a = x
    · exact Or.inr (Or.inr ⟨by omega, by rw [if_pos ha]⟩)
    · rw [if_neg ha]
      rcases p with p | p
      · exact Or.inl p
      · exact Or.inr (Or.inl p)
  · rcases p with p | p
    · exact Or.inl p
    · exact Or.inr (Or.inl p)

/-! ## The image that a save builds -/

/-- What is built does not depend on the store. -/
theorem buildTo_store (s : State) (st : Store) (n f : Nat) (sv : Save) : buildTo n { s with store := st } f sv = buildTo n s f sv := by
  have bt : ∀ t, beginType t { s with store := st } = beginType t s := by
    intro t; unfold beginType
    have : typeContent t { s with store := st } = typeContent t s := by unfold typeContent; split <;> rfl
    rw [this]
  induction f generalizing sv with
  | zero => rfl
  | succ f ih => simp only [buildTo, bt, ih]

/-- A content is cut into sections of at most 255 bytes, none empty (R207). -/
theorem splitSections_pieces (t : Nat) : ∀ (fuel : Nat) (content : List Byte), content.length < fuel →
    ∃ pieces : List (List Byte), pieces.flatten = content ∧
      (∀ p ∈ pieces, p ≠ [] ∧ p.length ≤ 255) ∧
      splitSections t fuel content = pieces.flatMap (fun p => BitVec.ofNat 8 t :: BitVec.ofNat 8 p.length :: p) := by
  intro fuel
  induction fuel with
  | zero => intro c h; omega
  | succ f ih =>
    intro c h
    by_cases hc : c = []
    · exact ⟨[], by simp [hc], by simp, by simp [splitSections, hc]⟩
    · have hl := List.length_pos_of_ne_nil hc
      obtain ⟨l, a, b, d⟩ := ih (c.drop 255) (by simp; omega)
      refine ⟨c.take 255 :: l, by simp [a], ?_, ?_⟩
      · intro p hp
        rcases List.mem_cons.1 hp with rfl | hp
        · exact ⟨by intro k; rw [List.take_eq_nil_iff] at k; rcases k with k | k <;> first | omega | exact hc k, by simp⟩
        · exact b p hp
      · rw [splitSections, if_neg hc, d]; simp [encRun]

/-- Building goes through the types in order: each is begun when its first byte is needed and taken whole at that moment (R207). -/
theorem buildTo_spec (s : State) (n : Nat) : ∀ (f : Nat) (sv : Save), 1 ≤ sv.nextType → sv.nextType ≤ 10 → sv.built.length ≤ n →
    10 < sv.nextType + f →
    let sv' := buildTo n s f sv
    let types (k : Nat) : List Byte := (List.range k).flatMap (fun i => beginType (sv.nextType + i) s)
    ∃ k, sv'.nextType = sv.nextType + k ∧ sv'.nextType ≤ 10 ∧ sv'.final = sv.final ∧
      sv'.built ++ sv'.backlog = sv.built ++ sv.backlog ++ types k ∧ sv'.built.length ≤ n ∧
      (sv'.built.length < n → sv'.nextType = 10 ∧ sv'.backlog = []) ∧
      (∀ j, j < k → (sv.built ++ sv.backlog ++ types j).length < n) := by
  intro f
  induction f with
  | zero => intro sv a b c d; omega
  | succ f ih =>
    intro sv h1 h2 h3 h4
    have ta : sv.backlog.take (n - sv.built.length) ++ sv.backlog.drop (n - sv.built.length) = sv.backlog := List.take_append_drop _ _
    have tl : (sv.built ++ sv.backlog.take (n - sv.built.length)).length ≤ n := by simp; omega
    have td : (sv.built ++ sv.backlog.take (n - sv.built.length)).length < n → sv.backlog.drop (n - sv.built.length) = [] := by
      intro k; rw [List.drop_eq_nil_iff]; simp at k; omega
    simp only [buildTo]
    by_cases hc : n ≤ (sv.built ++ sv.backlog.take (n - sv.built.length)).length ∨ 10 ≤ sv.nextType
    · rw [if_pos hc]
      refine ⟨0, by simp, h2, rfl, by simp [List.append_assoc], tl, ?_, by intro j hj; omega⟩
      intro k; dsimp only at k ⊢; exact ⟨by omega, td k⟩
    · rw [if_neg hc]
      obtain ⟨hc1, hc2⟩ := not_or.1 hc
      have dn := td (by omega)
      have tn : sv.backlog.take (n - sv.built.length) = sv.backlog := by rw [dn, List.append_nil] at ta; exact ta
      rw [tn] at hc1 ⊢
      obtain ⟨k, e1, e2, e3, e4, e5, e6, e7⟩ := ih { sv with built := sv.built ++ sv.backlog, backlog := beginType sv.nextType s, nextType := sv.nextType + 1 } (by simp) (by simp; omega) (by simp at hc1 ⊢; omega) (by simp; omega)
      have sh : ∀ m, (List.range (m + 1)).flatMap (fun i => beginType (sv.nextType + i) s) = beginType sv.nextType s ++ (List.range m).flatMap (fun i => beginType (sv.nextType + 1 + i) s) := by
        intro m; rw [List.range_succ_eq_map, List.flatMap_cons, List.flatMap_map]
        simp [Nat.add_assoc, Nat.add_comm 1]
      refine ⟨k + 1, by rw [e1]; simp; omega, e2, e3, ?_, e5, e6, ?_⟩
      · rw [e4, sh]; simp
      · intro j hj
        cases j with
        | zero => simp at hc1 ⊢; omega
        | succ j =>
          have := e7 j (by omega)
          rw [sh]; simp at this ⊢; omega

end Sys2Proof.Machine
end

