-- ==== Sys2Proof/Laws/Route.lean ====
section
/-! SUPPORT. What the route engine does with a frame once its entry is found: thinning, the action, and a queue with or without room (R28,
R31 to R35). -/
namespace Sys2Proof.Machine

theorem modify_at {α : Type} (l : List α) (i : Nat) (a : α) (f : α → α) (h : l[i]? = some a) : l.modify i f = l.set i (f a) := by
  rw [List.modify_eq_set_getElem?, h]; rfl

/-- The entry at an index after it was written there. -/
theorem set_modify {α : Type} (l : List α) (i : Nat) (a b : α) (f : α → α) (h : l[i]? = some a) :
    (l.set i b).modify i f = l.set i (f b) := by
  obtain ⟨hi, _⟩ := List.getElem?_eq_some_iff.mp h
  rw [modify_at _ _ b] <;> simp [hi]

/-- The lowest entry that matches is the matched entry (R28). -/
theorem matchedEntry_lowest (src : Source) (kind : Byte) (s : State) (i : Nat) (e : RouteEntry) (he : s.route.table[i]? = some e)
    (hm : routeMatches src kind s e = true)
    (hlow : ∀ (j : Nat) e', j < i → s.route.table[j]? = some e' → routeMatches src kind s e' = false) :
    matchedEntry src kind s = some i := by
  unfold matchedEntry; rw [List.findIdx?_eq_some_iff_getElem]
  obtain ⟨hi, hei⟩ := List.getElem?_eq_some_iff.mp he
  refine ⟨hi, by rw [hei]; exact hm, fun j hj => ?_⟩
  simp [hlow j _ hj (List.getElem?_eq_getElem (by omega))]

/-- No entry matches. -/
theorem matchedEntry_none (src : Source) (kind : Byte) (s : State) (h : ∀ e ∈ s.route.table, routeMatches src kind s e = false) :
    matchedEntry src kind s = none := by
  unfold matchedEntry; rw [List.findIdx?_eq_none_iff]; exact h

/-- A frame thinned out: the phase alone (R31). -/
theorem thinFrame_thins (src : Source) (kind : Byte) (payload : List Byte) (damaged : Bool) (i : Nat) (e : RouteEntry) (s : State)
    (he : s.route.table[i]? = some e) (hk : e.phase + 1 < e.fields.keepN) :
    thinFrame src kind payload damaged i e s =
      { s with route := { s.route with table := s.route.table.set i { e with phase := e.phase + 1 } } } := by
  rw [thinFrame, if_neg (by omega), changeRoute, modify_at _ _ _ _ he]

/-- A frame acted on: the phase starts again, it is counted, and the action follows (R31 to R34). -/
theorem thinFrame_acts (src : Source) (kind : Byte) (payload : List Byte) (damaged : Bool) (i : Nat) (e : RouteEntry) (s : State)
    (he : s.route.table[i]? = some e) (hk : e.fields.keepN ≤ e.phase + 1) :
    thinFrame src kind payload damaged i e s =
      let t : State := { s with route := { s.route with table := s.route.table.set i { e with phase := 0, passed := e.passed + 1#16 } } }
      match e.fields.action with
      | .forward => forwardFrame src kind payload damaged i e.fields.dest t
      | .drop => t
      | .wake => wakeClaim (.frame src) t
      | .forwardWake => wakeClaim (.frame src) (forwardFrame src kind payload damaged i e.fields.dest t) := by
  rw [thinFrame, if_pos hk, actOnFrame]
  have : changeRoute i (fun e => { e with passed := wrapInc e.passed }) (changeRoute i (fun e => { e with phase := 0 }) s) =
      { s with route := { s.route with table := s.route.table.set i { e with phase := 0, passed := e.passed + 1#16 } } } := by
    simp only [changeRoute, modify_at _ _ _ _ he, set_modify _ _ _ _ _ he, wrapInc]
  cases e.fields.action <;> simp only [this]

/-- A frame for the host with room upstream (R32, R13). -/
theorem forwardFrame_up (src : Source) (kind : Byte) (payload : List Byte) (damaged : Bool) (i : Nat) (dest : Dest) (s : State) (p : Pool)
    (hs : src ≠ .uplink) (h : s.pool.admitUp ⟨some src, kind, dest, payload, damaged, .routed, []⟩ = some p) :
    forwardFrame src kind payload damaged i dest s = { s with pool := p } := by
  simp [forwardFrame, hs, h]

/-- A frame for the base with room downstream (R32, R13). -/
theorem forwardFrame_down (kind : Byte) (payload : List Byte) (damaged : Bool) (i : Nat) (dest : Dest) (s : State) (p : Pool)
    (h : s.pool.admitDown ⟨some .uplink, kind, .base, payload, false, .routed, []⟩ = some p) :
    forwardFrame .uplink kind payload damaged i dest s = { s with pool := p } := by
  simp [forwardFrame, h]

/-- A frame without room in its queue is counted at its entry and as overrun (R32, R35). -/
theorem forwardFrame_full (src : Source) (kind : Byte) (payload : List Byte) (damaged : Bool) (i : Nat) (dest : Dest) (s : State)
    (e : RouteEntry) (he : s.route.table[i]? = some e)
    (h : if src = .uplink then s.pool.admitDown ⟨some src, kind, .base, payload, false, .routed, []⟩ = none
      else s.pool.admitUp ⟨some src, kind, dest, payload, damaged, .routed, []⟩ = none) :
    forwardFrame src kind payload damaged i dest s =
      { s with route := { s.route with
          table := s.route.table.set i { e with queueFull := satInc e.queueFull }
          ingress := s.route.ingress.set src
            { s.route.ingress.get src with overrun := satInc (s.route.ingress.get src).overrun } } } := by
  rw [forwardFrame]
  split at h
  · rename_i hs; subst hs; rw [if_pos rfl, h]
    simp [changeRoute, changeIngress, modify_at _ _ _ _ he]
  · rename_i hs; rw [if_neg hs, h]
    simp [changeRoute, changeIngress, modify_at _ _ _ _ he]

end Sys2Proof.Machine
end

