-- ==== Sys2Proof/Tests/Slice0.lean ====
section
/-! SUPPORT. The model's own tests: an ill-formed command for each check of WellFormed, some figures worked out by hand from the
manual, and for every statement a state and operands that meet its hypotheses, clause by clause. -/
namespace Sys2Proof.Tests
open Sys2Proof Sys2Proof.Machine

-- One test after the other: a test that the kernel decides waits for all that stands before it, and many at once take a thread each.
set_option Elab.async false

/-! ## Each check of WellFormed refuses an ill-formed command -/

def route0 : RawRoute := ⟨true, 2, some 0x10, 1, 1, some 7, 1, some 1, 1, 1⟩
def policy0 : RawPolicy := ⟨true, 1, 0, 0, 1, 1, 1, [.plain 1, .budgetProfile 1, .indicate 1 1 1]⟩
def guard0 : GuardArg := ⟨some 1, some 1, some 1, some 1, none, none, none, none, some 1, none, none, none, none, none⟩

theorem test_wf_storeRead : (Instr.storeReadAnswered (List.replicate 2049 0)).wf = false := by decide +kernel
theorem test_wf_dataParcel : (Instr.dataParcel 1 (List.replicate 241 0)).wf = false := by decide +kernel
theorem test_wf_requestParcel : (Instr.requestParcel 1 (List.replicate 241 0)).wf = false := by decide +kernel
theorem test_wf_unknownRequest : (Instr.unknownRequest 0x17).wf = false ∧ (Instr.unknownRequest 0x18).wf = true := by decide
theorem test_wf_tableIndex :
    (Instr.routeTableWrite 256 route0).wf = false ∧ (Instr.windowTableWrite 256 ⟨0, 0, 0, 1, 1⟩).wf = false ∧
    (Instr.policyTableWrite 256 policy0).wf = false ∧ (Instr.routeTableRead 256).wf = false ∧
    (Instr.windowTableRead 256).wf = false ∧ (Instr.policyTableRead 256).wf = false := by decide
theorem test_wf_route :
    (Instr.routeTableWrite 0 route0).wf = true ∧
    (Instr.routeTableWrite 0 { route0 with source := 256 }).wf = false ∧
    (Instr.routeTableWrite 0 { route0 with kind := some 256 }).wf = false ∧
    (Instr.routeTableWrite 0 { route0 with postures := 256 }).wf = false ∧
    (Instr.routeTableWrite 0 { route0 with views := 256 }).wf = false ∧
    (Instr.routeTableWrite 0 { route0 with model := some 65536 }).wf = false ∧
    (Instr.routeTableWrite 0 { route0 with action := 256 }).wf = false ∧
    (Instr.routeTableWrite 0 { route0 with dest := some 256 }).wf = false ∧
    (Instr.routeTableWrite 0 { route0 with keepN := 256 }).wf = false ∧
    (Instr.routeTableWrite 0 { route0 with damage := 256 }).wf = false := by decide
theorem test_wf_window :
    (Instr.windowTableWrite 0 ⟨256, 0, 0, 1, 1⟩).wf = false ∧ (Instr.windowTableWrite 0 ⟨0, 256, 0, 1, 1⟩).wf = false ∧
    (Instr.windowTableWrite 0 ⟨0, 0, 256, 1, 1⟩).wf = false ∧ (Instr.windowTableWrite 0 ⟨0, 0, 0, 256, 1⟩).wf = false ∧
    (Instr.windowTableWrite 0 ⟨0, 0, 0, 1, 256⟩).wf = false := by decide
theorem test_wf_policy :
    (Instr.policyTableWrite 0 policy0).wf = true ∧
    (Instr.policyTableWrite 0 { policy0 with event := 256 }).wf = false ∧
    (Instr.policyTableWrite 0 { policy0 with fromSet := 256 }).wf = false ∧
    (Instr.policyTableWrite 0 { policy0 with toSet := 256 }).wf = false ∧
    (Instr.policyTableWrite 0 { policy0 with baseCond := 256 }).wf = false ∧
    (Instr.policyTableWrite 0 { policy0 with penCond := 256 }).wf = false ∧
    (Instr.policyTableWrite 0 { policy0 with hosts := 256 }).wf = false ∧
    (Instr.policyTableWrite 0 { policy0 with actions := List.replicate 256 (.plain 1) }).wf = false ∧
    (Instr.policyTableWrite 0 { policy0 with actions := [.plain 8] }).wf = false ∧
    (Instr.policyTableWrite 0 { policy0 with actions := [.plain 9] }).wf = false ∧
    (Instr.policyTableWrite 0 { policy0 with actions := [.plain 256] }).wf = false ∧
    (Instr.policyTableWrite 0 { policy0 with actions := [.budgetProfile 256] }).wf = false ∧
    (Instr.policyTableWrite 0 { policy0 with actions := [.indicate 256 1 1] }).wf = false ∧
    (Instr.policyTableWrite 0 { policy0 with actions := [.indicate 1 256 1] }).wf = false ∧
    (Instr.policyTableWrite 0 { policy0 with actions := [.indicate 1 1 256] }).wf = false := by decide +kernel
theorem test_wf_splitAndSettings :
    (Instr.splitSet 256).wf = false ∧ (Instr.settingsSet ⟨some 65536, none, none, none, none, none⟩).wf = false ∧
    (Instr.settingsSet ⟨none, some 65536, none, none, none, none⟩).wf = false ∧
    (Instr.settingsSet ⟨none, none, some 65536, none, none, none⟩).wf = false ∧
    (Instr.settingsSet ⟨none, none, none, some 256, none, none⟩).wf = false ∧
    (Instr.settingsSet ⟨none, none, none, none, some 65536, none⟩).wf = false ∧
    (Instr.settingsSet ⟨none, none, none, none, none, some 65536⟩).wf = false := by decide
theorem test_wf_baseRequest :
    (Instr.baseRequest 256 0 []).wf = false ∧ (Instr.baseRequest 0 0 (List.replicate 256 0)).wf = false := by decide +kernel
theorem test_wf_alarmClear : (Instr.alarmClear 256).wf = false := by decide
theorem test_wf_guard :
    (Instr.guardSet guard0).wf = true ∧ (Instr.guardSet { guard0 with filterRailOc := some 256 }).wf = false ∧
    (Instr.guardSet { guard0 with filterRailUv := some 256 }).wf = false ∧
    (Instr.guardSet { guard0 with filterCoilOc := some 256 }).wf = false ∧
    (Instr.guardSet { guard0 with filterCoilUv := some 256 }).wf = false ∧
    (Instr.guardSet { guard0 with mode := some 256 }).wf = false := by decide
theorem test_wf_budget :
    (Instr.budgetSet ⟨some 256, none, none, none, none⟩).wf = false ∧
    (Instr.budgetSet ⟨none, some 65536, none, none, none⟩).wf = false ∧
    (Instr.budgetSet ⟨none, none, some 65536, none, none⟩).wf = false ∧
    (Instr.budgetSet ⟨none, none, none, some 65536, none⟩).wf = false ∧
    (Instr.budgetSet ⟨none, none, none, none, some 65536⟩).wf = false := by decide
theorem test_wf_indicate :
    (Instr.indicateSet 256 1 1).wf = false ∧ (Instr.indicateSet 1 256 1).wf = false ∧
    (Instr.indicateSet 1 1 256).wf = false := by decide
theorem test_wf_frames :
    (Instr.baseTrafficFrame 0x14 [] 0).wf = false ∧ (Instr.baseTrafficFrame 0x10 (List.replicate 256 0) 0).wf = false ∧
    (Instr.response (List.replicate 256 0) 0).wf = false ∧ (Instr.busyResponse (List.replicate 256 0) 0).wf = false ∧
    (Instr.reject (List.replicate 256 0) 0).wf = false ∧ (Instr.wakeSignal (List.replicate 256 0) 0).wf = false ∧
    (Instr.unlistedKindFrame 0x30 [] 0).wf = false ∧
    (Instr.unlistedKindFrame 0x40 (List.replicate 256 0) 0).wf = false ∧
    (Instr.penStatus (List.replicate 256 0) false).wf = false := by decide +kernel
theorem test_wf_discard : (Instr.discardTimerExpiry 16 0).wf = false := by decide

/-! ## Figures worked out by hand -/

/-- The check value of the CRC that R1 describes: polynomial 0x1021, initial value 0xFFFF, over the digits 1 to 9. -/
theorem test_crc16 : crc16 [0x31, 0x32, 0x33, 0x34, 0x35, 0x36, 0x37, 0x38, 0x39] = 0x29B1#16 := by decide +kernel
/-- The check value of the CRC that R3 describes: polynomial 0x07, initial value 0x00, over the digits 1 to 9. -/
theorem test_crc8 : crc8 [0x31, 0x32, 0x33, 0x34, 0x35, 0x36, 0x37, 0x38, 0x39] = 0xF4#8 := by decide +kernel
/-- Counters saturate at 255 and wrap at 65535. -/
theorem test_counters : satInc 254 = 255#8 ∧ satInc 255 = 255#8 ∧ wrapInc 65535 = 0#16 := by decide
/-- A payload of 0 to 16 bytes holds one slot, of 64 bytes four (R12). -/
theorem test_slots : slotsFor 0 = 1 ∧ slotsFor 16 = 1 ∧ slotsFor 17 = 2 ∧ slotsFor 64 = 4 := by decide
/-- The cycle of the hinge code (R88): six valid codes, two invalid. -/
theorem test_codes : codePosition 0b000#3 = none ∧ codePosition 0b111#3 = none ∧ (codePosition 0b100#3).isSome = true := by decide
/-- A display held upright, turned and upside down (R113). -/
theorem test_quadrants :
    candidateAfter .portrait 0 (-1000) 0 = .landscape ∧ candidateAfter .landscape 0 1000 0 = .landscapeInverted ∧
    candidateAfter .landscape 1000 0 0 = .portrait ∧ candidateAfter .landscape (-1000) 0 0 = .portraitInverted ∧
    candidateAfter .portrait 0 (-500) 851 = .portrait ∧ candidateAfter .portrait 199 199 0 = .portrait := by decide +kernel
/-- A section list: a whole section, an empty one that is absent, the end byte (R4). -/
theorem test_walk :
    sectionsOf [7, 1, 32, 5, 0, 0, 9] = [.whole 7 [32]] ∧ sectionsOf [2, 2, 10] = [.malformed 2] := by decide
/-- Cells of the store stay canonical through a write and an erasing write. -/
theorem test_memory :
    Memory.wf (Memory.write (Memory.write [] 5 1) 2 7) = true ∧ Memory.write (Memory.write [] 5 1) 5 0xFF = [] ∧
    Memory.read (Memory.write [] 5 1) 5 = 1#8 ∧ Memory.read [] 2047 = 0xFF#8 := by decide

/-! ## States that meet the hypotheses -/

/-- Start-up over, no image. -/
def sIdle : State :=
  { State.reset with store := { Store.cold with state := .idle, exchange := none, timer := none, result := some .storeAbsent } }

/-- A base attached with its link in a state, its rail on at 500 mW. -/
def sLink (l : LinkState) : State :=
  { sIdle with
    link := { Link.cold with state := l, rate := some .fast, session := .hasBeenReady }
    att := { Attachment.cold with present := true, attachCount := 1 }
    posture := { PostureUnit.cold with posture := .laptop, previous := some .slate, lastCode := some 0, count := some 50 }
    pins := { sIdle.pins with presence := true }
    guard := { Guard.cold with baseGrant := 500, railOn := true }
    policy := { Policy.cold with inputs := ⟨false, l.isUp, false, false⟩ } }

def sReady : State := sLink .ready

/-- The same with the lid closed. -/
def sClosed : State :=
  { sReady with pins := { sReady.pins with lidClosed := true }, posture := { sReady.posture with posture := .closed, count := some 0 } }

/-- A pen session in a state at a level, its coil on. -/
def sPen (p : PenState) (l : PenLevel) : State :=
  { sIdle with
    pen := { Charger.cold with session := p, docked := true }
    pins := { sIdle.pins with dock := true }
    guard := { Guard.cold with penGrant := some l, claimed := some l, coilOn := true } }

/-- A pen session in a state that draws nothing. -/
def sPenOff (p : PenState) : State :=
  { sIdle with
    pen := { Charger.cold with session := p, docked := true }
    pins := { sIdle.pins with dock := true }
    guard := { Guard.cold with claimed := if p = .paused then some .steady else none } }

def entry (st : ReqState) (attempts : Nat) : ReqEntry := ⟨15, 1, [], st, none, none, attempts, none⟩
def doneEntry : ReqEntry := ⟨3, 4, [], .done, some .ok, some [], 0, some 20000⟩

def queuedEntry : ReqEntry := ⟨2, 7, [], .queued, none, none, 0, none⟩

/-- READY with a table of requests. -/
def sTable (t : List ReqEntry) (window : Timer) : State :=
  { sReady with issuer := { Issuer.cold with table := t, window := window } }

def sRx (m : RxMode) (buf : List Byte) : State := { sIdle with rx := ⟨m, buf⟩ }

def bigFrame : Frame := ⟨none, 0x40, .base, [], false, .issuer, List.range 24⟩
/-- READY with the downstream share full. -/
def sFull : State := { sReady with pool := { sReady.pool with down := [bigFrame] } }

def sSending (waiting : Option (Nat × Byte)) (t : List ReqEntry) : State :=
  { sFull with pool := { sFull.pool with hingeBusy := true }, issuer := { Issuer.cold with table := t, waiting := waiting } }

/-! ## One step each -/

/-- The state after a command, for the tests below. -/
def after (c : Instr) (s : State) : State := match exec c s with | .next t => t | _ => s

/-- No answer from the store: start-up ends ABSENT and the START notice is being sent (R204, R206, R8). -/
theorem test_startUp_absent :
    (after .storeExchangeUnanswered State.reset).store.state = .idle ∧
    parcelOnLine (after .storeExchangeUnanswered State.reset) = some (parcelBytes 0x04 1 [1, 1]) := by decide +kernel
/-- A base asserts presence: debounced, then powered at 250 mW (R43 to R45). -/
theorem test_presence_powers :
    let t := after .debounceExpiry (after .presenceAssert sIdle)
    t.link.state = .powering ∧ t.guard.baseGrant = 250 ∧ t.guard.railOn = true ∧ t.posture.posture = .unknown := by decide +kernel
/-- Closing the lid with a base attached begins the grace under the factory Policy Table (R94, R186, R171). -/
theorem test_lidCloses :
    let t := after .lidSwitchAssert sReady
    t.posture.posture = .closed ∧ t.sleep.power = .grace ∧ t.sleep.grace = some 40000 := by decide +kernel
/-- A base request in READY is answered RETRY and its COMMAND is being sent (R73, R75, R15). -/
theorem test_baseRequest_goes_out :
    let t := after (.baseRequest 1 0x20 [7]) sReady
    t.mgmt.holder = some ⟨0x08, .retry, [1, 0x20, 0, 1, 0, 2, 0]⟩ ∧ frameOnHinge t = some (hingeBytes 0x40 [1, 0x20, 7]) := by
  decide +kernel
/-- A pen on the dock is detected at TRICKLE (R148, R151). -/
theorem test_pen_detected :
    let t := after .dockDebounceExpiry (after .dockSwitchAssert sIdle)
    t.pen.session = .detect ∧ t.guard.penGrant = some .trickle ∧ t.guard.coilOn = true ∧ t.pen.detect = some 8000 := by
  decide +kernel
/-- The host's REQUEST parcel for the sleep controller, taken byte by byte (R1, R5, R193). -/
theorem test_request_by_bytes :
    (after (.receiveFault (parcelBytes 0x02 0x14 [])) sIdle).sleep.power = .asleep := by decide +kernel

/-- ALARM-CLEAR of a cause that is present but not detected, without latch or cap, leaves its filter running (R142). -/
theorem test_alarmClear_leavesAnUndetectedCause :
    let s : State := { sReady with guard := { sReady.guard with alarms := { sReady.guard.alarms with
      railOc := { Alarm.cold with raw := true, filter := some 1 } } } }
    (after (.alarmClear 1) s).guard.alarms.railOc = { Alarm.cold with raw := true, filter := some 1 } := by decide +kernel
/-- With an echo a QUIET that waits is entered, though a frame was queued meanwhile, whose wake time then starts (R57, R58, log 20). -/
theorem test_echo_entersTheQuietThatWaits :
    let s : State := { sFull with link := { sReady.link with kaWindow := some 50, quietWaits := true } }
    (after .keepaliveEcho s).link.state = .quiet ∧ (after .keepaliveEcho s).link.wake = some 20 := by decide +kernel
/-- A base noted ABSENT has no mount in the attachment record, whatever the generic profile's is (R52, log 44). -/
theorem test_mount_absent :
    (identityOf { factoryGeneric with mount := some ⟨1, 2⟩ } [0x5A, 1, 3]).mount = none ∧
    (identityOf factoryGeneric [0x5A, 1, 7, 5, 2, 3, 4]).mount = some ⟨3, 4⟩ ∧
    (identityOf { factoryGeneric with mount := some ⟨1, 2⟩ } [0x5A, 1, 11, 5, 2, 6, 4, 5, 2, 0, 0]).mount = some ⟨1, 2⟩ := by
  decide +kernel
/-- Named values that are always present have no mark before them, the model code of ATTACHED has (R194, R201). -/
theorem test_notice_contents :
    noticeContent (.attach (.attached (some .generic) none)) = [1, 2, 0] ∧ noticeContent (.link (.restored (some .fast))) = [4, 1] ∧
    noticeContent (.attach (.attached (some .descriptor) (some 0x1234))) = [1, 1, 1, 0x12, 0x34] := by decide
/-- A valid image by its mark, length and CRC; page 0 cut off within a save holds none (R203, R209). -/
theorem test_holdsImage :
    let m := Memory.writeBytes [] 0 [0x6B, 0x2D, 0, 6, 0xFF, 0xFF]
    holdsImage m = true ∧ holdsImage [] = false ∧ holdsImage (Memory.write m 0 0xFF) = false := by decide +kernel

theorem test_aState_keeps_invariants :
    Dormant sReady ∧ GrantsFit sReady ∧ OutputsFollow sReady ∧ PoolHolds sReady ∧ PostureHolds sReady ∧ SleepHolds sReady ∧
    GrantsFit (sPen .charging .fast) ∧ OutputsFollow (sPen .charging .fast) ∧ Memory.wf sReady.store.eeprom = true := by
  refine ⟨?_, ?_, ?_, ?_, ?_, ?_, ?_, ?_, ?_⟩ <;> decide +kernel
theorem test_aState_keeps_alarms : AlarmsHold sReady := by
  refine ⟨fun c => ?_, by decide, by decide⟩
  cases c <;> decide
theorem test_aState_keeps_link_and_table :
    LinkHolds { sReady with link := { sReady.link with quiet := some 0 } } ∧
    TableHolds (sTable [entry .issued 31, doneEntry] (some 0)) ∧ Dormant (sTable [entry .issued 31, doneEntry] (some 0)) ∧
    LinkHolds (sTable [entry .issued 31, doneEntry] (some 0)) ∧
    LinkHolds { sSending none [] with link := { sReady.link with quiet := some 0, kaDue := true } } ∧
    LinkHolds { sReady with link := { sReady.link with kaWindow := some 0, quietWaits := true } } := by
  refine ⟨by decide, ⟨by decide, by decide, by decide, by decide, by decide, ?_⟩, by decide, by decide, by decide, by decide⟩
  intro t c h
  exact absurd h (by simp [sTable, Issuer.cold])

/-! ## Witnesses: the machine, the uplink -/

theorem witness_StepTakesTheFrontCommand :
    ({ sIdle with pending := [.hello, .restart] }).pending = .hello :: [.restart] := rfl
def sDue (a b : Timer) : State :=
  { sIdle with posture := { sIdle.posture with settle := a }, pen := { sIdle.pen with debounce := b } }
theorem witness_IdleStepIsTheTimeBase :
    ({ sIdle with held := true } : State).pending = [] ∧ dueCommands (sDue (some 1) none) = [] ∧
    dueCommands (sDue (some 0) (some 1)) = [.settleTimerExpiry] ∧ 2 ≤ (dueCommands (sDue (some 0) (some 0))).length := by
  and_intros <;> decide +kernel
theorem witness_EndOfChangeFrame :
    let s : State := { sReady with policy := { sReady.policy with events := [.lidClosed] } }
    sReady.policy.events = [] ∧ s.policy.events = [.lidClosed] ∧ s.policy.events = .lidClosed :: [] ∧
    (∃ e ∈ s.policy.table, policyMatches .lidClosed s e = true) ∧
    (∀ e ∈ s.policy.table, policyMatches .chargeDone s e = false) := by
  refine ⟨rfl, rfl, rfl, by decide, by decide⟩
/-- Of two actions that set one switch the later stands, in the order gathered; the sleep actions all stand (R167). -/
theorem test_reduceActions :
    reduceActions [.orientLock, .sleepBegin, .budgetProfile 1, .orientFree, .sleepBegin, .indicate .line1 .charge .blink] =
      [.sleepBegin, .budgetProfile 1, .orientFree, .sleepBegin, .indicate .line1 .charge .blink] := by decide
def sNotice : State := { sIdle with mgmt := { sIdle.mgmt with notices := (PerKind.all none).set .start (some ⟨.start .storeAbsent, 1⟩) } }
theorem witness_TransmitterChoosesInOrder :
    ({ sIdle with tx := .data } : State).tx ≠ .idle ∧
    ({ sIdle with mgmt := { sIdle.mgmt with holder := some ⟨1, .ok, []⟩ } } : State).mgmt.holder.isSome = true ∧
    hostListens ({ sIdle with sleep := { sIdle.sleep with power := .waking } } : State).sleep.power = false ∧
    (sNotice.tx = .idle ∧ sNotice.mgmt.holder = none ∧ hostListens sNotice.sleep.power = true ∧
      sNotice.mgmt.notices.get .start = some ⟨.start .storeAbsent, 1⟩ ∧ (Notice.start .storeAbsent).kind = .start ∧
      ∀ j, NoticeKind.inOrder.idxOf j < NoticeKind.inOrder.idxOf .start → sNotice.mgmt.notices.get j = none) ∧
    (sIdle.tx = .idle ∧ sIdle.mgmt.holder = none ∧ ∀ k, sIdle.mgmt.notices.get k = none) := by
  refine ⟨by decide, by decide, by decide, ⟨rfl, rfl, rfl, rfl, rfl, ?_⟩, rfl, rfl, ?_⟩ <;> (intro j; cases j <;> decide)
theorem witness_TransmitterChoosesInOrder_hinge :
    let k (l : Link) : State := { sFull with link := l }
    sReady.pool.down = [] ∧ sFull.pool.down ≠ [] ∧
    (sFull.link.state = .ready ∧ sFull.link.kaDue = false ∧ sFull.link.kaWindow = none) ∧
    ((k { sReady.link with kaDue := true }).link.kaDue = true ∧ (k { sReady.link with kaWindow := some 1 }).link.kaWindow.isSome = true) ∧
    ((k (sLink .quiet).link).link.state = .quiet ∧ (k (sLink .quiet).link).link.wake = none ∧
      (k { (sLink .quiet).link with wake := some 20 }).link.wake.isSome = true) ∧
    ((k (sLink .training).link).link.state ≠ .ready ∧ (k (sLink .training).link).link.state ≠ .quiet) := by
  and_intros <;> decide
theorem witness_ColdResetLeavesTheResetState :
    let s : State := { sIdle with store := { sIdle.store with state := .saving, exchange := some (.writePage 0 (List.replicate 32 1)) } }
    (∀ k bytes, sIdle.store.exchange ≠ some (.writePage k bytes)) ∧ s.store.exchange = some (.writePage 0 (List.replicate 32 1)) ∧
    Memory.wf s.store.eeprom = true ∧ s.store.state = .saving := ⟨fun _ _ h => (by cases h), rfl, rfl, rfl⟩
theorem witness_RestartKeepsWhatTheChaptersKeep :
    let s : State := { sIdle with tx := .reply, mgmt := { sIdle.mgmt with restart := .armed } }
    s.held = false ∧ s.mgmt.restart = .armed ∧ s.tx = .reply := by decide
theorem witness_ResetLineHoldsTheHub :
    ({ sIdle with held := true } : State).held = true ∧ sIdle.held = false ∧ Instr.detach ≠ .coldReset ∧
    (∀ k b, sIdle.store.exchange ≠ some (.writePage k b)) := ⟨rfl, rfl, by decide, fun _ _ h => by cases h⟩
theorem witness_BytesMakeTheParcel :
    sIdle.held = false ∧ sIdle.rx.mode ≠ .receiving ∧ (List.replicate 240 (0 : Byte)).length ≤ 240 ∧
    (sRx .idle []).rx.mode ≠ .receiving := by
  and_intros <;> decide +kernel
def upFrame : Frame := ⟨some .baseKeys, 0x10, .channel 15, [7], true, .routed, [0]⟩
theorem witness_BytesMakeTheParcel_sent :
    (sIdle.tx = .idle ∧ sIdle.pool.hingeBusy = false ∧ sIdle.link.describe = none) ∧
    (let s : State := { sIdle with tx := .reply, mgmt := { sIdle.mgmt with holder := some ⟨1, .starting, []⟩ } }
     s.tx = .reply ∧ s.mgmt.holder = some ⟨1, .starting, []⟩) ∧
    (({ sIdle with tx := .notice ⟨.link .lost, 2⟩ } : State).tx = .notice ⟨.link .lost, 2⟩) ∧
    (let s : State := { sIdle with tx := .data, pool := { sIdle.pool with up := [upFrame] } }
     s.tx = .data ∧ s.pool.up = upFrame :: [] ∧ upFrame.source = some .baseKeys ∧ upFrame.dest = .channel 15) ∧
    ((sSending none []).pool.hingeBusy = true ∧ (sSending none []).pool.down = bigFrame :: []) ∧
    ({ sIdle with link := { sIdle.link with describe := some 1 } } : State).link.describe.isSome = true := by
  and_intros <;> decide
/-- A damaged frame of BASE-KEYS on channel 15, and the notice that the link was lost twice, as they stand on the uplink (R1, R2, R201). -/
theorem test_parcels_sent :
    dataParcel upFrame = [0xD3, 1, 15, 4, 2, 0x10, 1, 7] ++ encWord (crc16 [1, 15, 4, 2, 0x10, 1, 7]) ∧
    noticeParcel ⟨.link .lost, 2⟩ = [0xD3, 4, 5, 2, 2, 2] ++ encWord (crc16 [4, 5, 2, 2, 2]) := by decide +kernel
theorem witness_BadBytesAndParcelsAreCounted :
    Running (sRx .idle []) ∧ (sRx .idle []).rx.mode = .idle ∧ (0xD2#8 : Byte) ≠ 0xD3#8 ∧ (sRx .hunting []).rx.mode = .hunting ∧
    (sRx .receiving [0xD3]).rx = ⟨.receiving, [0xD3#8]⟩ ∧ (3#8 : Byte) ≠ 1#8 ∧ (3#8 : Byte) ≠ 2#8 ∧
    (sRx .receiving [0xD3, 1, 0]).rx = ⟨.receiving, [0xD3#8, 1, 0]⟩ ∧ 240 < (241#8 : Byte).toNat ∧
    (let s := sRx .receiving [0xD3, 1, 0, 0, 0xFF]
     s.rx = ⟨.receiving, 0xD3#8 :: 1#8 :: 0#8 :: 0#8 :: [0xFF#8]⟩ ∧ [0xFF#8].length + 1 = (0#8 : Byte).toNat + 2 ∧
     encWord (crc16 (1#8 :: 0#8 :: 0#8 :: ([0xFF#8] ++ [0xFF#8]).take 0)) ≠ ([0xFF#8] ++ [0xFF#8]).drop 0) ∧
    (15 < (16#8 : Byte).toNat ∧ (0x4F#8 : Byte).toNat < 0x50 ∧ 0x7F < (0x80#8 : Byte).toNat) ∧
    (1 ≤ (1#8 : Byte).toNat ∧ (15#8 : Byte).toNat ≤ 15 ∧ 0x50 ≤ (0x50#8 : Byte).toNat ∧ (0x7F#8 : Byte).toNat ≤ 0x7F ∧
      Running State.reset ∧ State.reset.store.state = .starting ∧ State.reset.rx.mode ≠ .receiving) := by
  and_intros <;> decide +kernel
theorem witness_TooLongFramesAreDropped :
    sIdle.store.state ≠ .starting ∧ 64 < (List.replicate 65 (0 : Byte)).length ∧ Running sIdle ∧ sIdle.rx.mode ≠ .receiving ∧
    (sLink .identifying).link.state = .identifying ∧ Running (sLink .identifying) ∧ isTrafficKind 0x10 = true ∧
    isTrafficKind 0x13 = true := by
  and_intros <;> decide +kernel
/-- READY with one entry for the host's frames, that keeps one of N. -/
def sRoute (n phase : Nat) : State :=
  { sReady with route := { sReady.route with
      table := [⟨⟨true, .uplink, none, 0x7F#7, 3#2, none, .forward, .base, n, .dropDamaged⟩, phase, 0, 0⟩] } }
theorem witness_HostFramesAreRouted :
    (Running sIdle ∧ sIdle.store.state ≠ .starting ∧ sIdle.rx.mode ≠ .receiving ∧ sIdle.link.state.isUp = false ∧
      sIdle.route.noBase = false ∧ (List.replicate 64 (0 : Byte)).length ≤ 64) ∧
    (let s : State := { sIdle with route := { sIdle.route with noBase := true } }
     s.link.state.isUp = false ∧ s.route.noBase = true) ∧
    (let s : State := { sReady with route := { sReady.route with table := [] } }
     Running s ∧ s.link.state.isUp = true ∧ ∀ e ∈ s.route.table, routeMatches .uplink 0x50 s e = false) ∧
    (∀ n phase, (n, phase) ∈ [(1, 0), (16, 0), (16, 15)] →
      let s := sRoute n phase
      Running s ∧ s.link.state.isUp = true ∧ ∃ e, s.route.table[0]? = some e ∧ routeMatches .uplink 0x50 s e = true ∧
        e.fields.action = .forward ∧ (∀ j e', j < 0 → s.route.table[j]? = some e' → routeMatches .uplink 0x50 s e' = false) ∧
        (e.phase + 1 < e.fields.keepN ∨ e.fields.keepN ≤ e.phase + 1)) ∧
    ((sRoute 1 0).pool.admitDown ⟨some .uplink, 0x50, .base, [], false, .routed, []⟩).isSome = true ∧
    sFull.pool.admitDown ⟨some .uplink, 0x50, .base, [], false, .routed, []⟩ = none := by
  refine ⟨by decide +kernel, by decide, ⟨by decide, by decide, by decide⟩, ?_, by decide +kernel, by decide +kernel⟩
  intro n phase h
  simp only [List.mem_cons, Prod.mk.injEq, List.not_mem_nil, or_false] at h
  rcases h with ⟨rfl, rfl⟩ | ⟨rfl, rfl⟩ | ⟨rfl, rfl⟩ <;>
    exact ⟨by decide, by decide, _, rfl, by decide, by decide, fun j _ h => absurd h (Nat.not_lt_zero j), by decide⟩
/-- READY with one entry for the host's frames that does something else than forward them. -/
def sRouteDo (a : RouteAction) : State :=
  { sReady with route := { sReady.route with
      table := [⟨⟨true, .uplink, none, 0x7F#7, 3#2, none, a, .base, 1, .dropDamaged⟩, 0, 0, 0⟩] } }
theorem witness_HostFramesAreRouted_actions :
    ∀ a : RouteAction, let s := sRouteDo a
      Running s ∧ s.link.state.isUp = true ∧ ∃ e, s.route.table[0]? = some e ∧ routeMatches .uplink 0x50 s e = true ∧
        e.fields.action = a ∧ e.fields.keepN ≤ e.phase + 1 ∧
        (s.pool.admitDown ⟨some .uplink, 0x50, .base, [], false, .routed, []⟩).isSome = true := by
  intro a
  cases a <;> exact ⟨by decide, by decide, _, rfl, by decide, rfl, by decide, by decide +kernel⟩
theorem witness_ParcelSentReleasesItsSource :
    Running sIdle ∧ sIdle.tx = .idle ∧ ({ sIdle with tx := .data } : State).tx = .data ∧
    ({ sIdle with tx := .notice ⟨.attach .detached, 1⟩ } : State).tx = .notice ⟨.attach .detached, 1⟩ ∧
    (let s : State := { sIdle with tx := .reply }
     s.tx = .reply ∧ s.mgmt.restart = .none ∧ s.mgmt.intake = []) ∧
    (let s : State := { sIdle with tx := .reply, mgmt := { sIdle.mgmt with intake := [.hello] } }
     s.tx = .reply ∧ s.mgmt.restart = .none ∧ s.mgmt.intake = .hello :: [] ∧ s.store.state ≠ .starting ∧ Request.hello ≠ .restart) := by
  and_intros <;> decide +kernel
def sIntake (n : Nat) : State :=
  { sIdle with mgmt := { sIdle.mgmt with intake := List.replicate n .hello, holder := some ⟨1, .ok, []⟩ } }
theorem witness_RequestParcelsReachTheEngine :
    (Running (sIntake 4) ∧ (sIntake 4).rx.mode ≠ .receiving ∧ 4 ≤ (sIntake 4).mgmt.intake.length) ∧
    ((sIntake 3).mgmt.intake.length < 4 ∧ (sIntake 3).mgmt.holder.isSome = true) ∧
    (State.reset.mgmt.intake = [] ∧ State.reset.mgmt.holder = none ∧ State.reset.mgmt.restart = .none ∧
      State.reset.store.state = .starting ∧ Running State.reset) ∧
    Attentive sIdle ∧ isRequestCode 0 = false ∧ isRequestCode 0x18 = false := by
  and_intros <;> decide +kernel

/-- Payloads that hold the arguments of their code, and payloads of the same codes that do not (R192 to R195). -/
theorem witness_RequestParcelsReachTheEngine_payloads :
    ((Instr.splitSet 255).wf = true ∧ (Instr.settingsSet ⟨none, none, some 300, none, none, none⟩).wf = true) ∧
    parseRequest 0x06 [255] = .splitSet 255 ∧ parseRequest 0x06 [] = .refused 0x06 ∧ parseRequest 0x06 [1, 2] = .refused 0x06 ∧
    parseRequest 0x07 [0, 0, 1, 1, 44, 0, 0, 0] = .settingsSet ⟨none, none, some 300, none, none, none⟩ ∧
    parseRequest 0x07 [0, 0, 2, 0, 0, 0] = .refused 0x07 ∧ parseRequest 0x08 [1, 0x20, 1, 7] = .baseRequest 1 0x20 [7] ∧
    parseRequest 0x02 [4, 0] = .refused 0x02 ∧ parseRequest 0x0F [6] = .chargeRestart ∧ parseRequest 0x0F [7] = .refused 0x0F ∧
    (∀ d : Nat, [BitVec.ofNat 8 d] ≠ []) := by
  refine ⟨by decide, by decide, by decide, by decide, by decide, by decide, by decide, by decide, by decide, by decide, fun _ h => by cases h⟩
/-! ## Witnesses: the requests -/

/-- The engine is IDLE in each of these states. -/
theorem witness_Attentive :
    Attentive sIdle ∧ Attentive sReady ∧ Attentive sFull ∧ Attentive (sPen .charging .fast) ∧ Attentive (sPenOff .held) := by
  and_intros <;> decide
theorem witness_ReadsAnswerAndOnlyCountersClear :
    (∃ e, (47 : Nat) < 48 ∧ sIdle.route.table[47]? = some e) ∧ (∃ w, (7 : Nat) < 8 ∧ sIdle.posture.windows[7]? = some w) ∧
    ∃ e, (23 : Nat) < 24 ∧ sIdle.policy.table[23]? = some e := by
  refine ⟨⟨_, by decide, rfl⟩, ⟨_, by decide, rfl⟩, ⟨_, by decide, rfl⟩⟩
theorem witness_TableWritesReplaceOneEntry :
    47 < sIdle.route.table.length ∧ (checkRoute route0).isSome = true ∧ checkRoute { route0 with keepN := 17 } = none ∧
    (checkWindow ⟨0, 180, 10, 4, 3⟩).isSome = true ∧ checkWindow ⟨0, 181, 10, 4, 3⟩ = none ∧
    (checkPolicy policy0).isSome = true ∧ checkPolicy { policy0 with event := 11 } = none := by
  and_intros <;> decide +kernel
/-- The bounds of R20, R37, R99, R101 and R165, and a set with a bit beyond its list (log 10). -/
theorem test_tableChecks :
    (checkRoute { route0 with keepN := 16 }).isSome = true ∧ checkRoute { route0 with keepN := 0 } = none ∧
    (checkRoute { route0 with postures := 127 }).isSome = true ∧ checkRoute { route0 with postures := 128 } = none ∧
    checkRoute { route0 with kind := some 0x11 } = none ∧ checkRoute { route0 with dest := none } = none ∧
    checkRoute { route0 with dest := some 16 } = none ∧ checkRoute { route0 with source := 7, kind := none } = none ∧
    (checkRoute { route0 with source := 7, kind := some 0x7F, dest := none }).isSome = true ∧
    checkWindow ⟨0, 180, 11, 4, 3⟩ = none ∧ checkWindow ⟨0, 180, 10, 5, 3⟩ = none ∧
    checkPolicy { policy0 with hosts := 32 } = none ∧ checkPolicy { policy0 with actions := [.budgetProfile 4] } = none ∧
    checkPolicy { policy0 with actions := List.replicate 4 (.plain 1) } = none := by
  and_intros <;> decide +kernel
def sPower (p : Power) : State := { sIdle with sleep := { sIdle.sleep with power := p } }
theorem witness_HelloWakesTheHost :
    sIdle.store.result = some .storeAbsent ∧ Attentive (sPower .grace) ∧ (sPower .grace).sleep.power = .grace ∧
    Attentive (sPower .waking) ∧ (sPower .waking).sleep.power = .waking := by
  and_intros <;> decide
theorem witness_SplitAndSettingsAreWritten :
    (sIdle.pool.up = [] ∧ sIdle.pool.down = [] ∧ sFull.pool.down ≠ []) ∧ (600 ∈ [25, 50, 75, 100, 150, 250, 400, 600] ∧
        601 ∉ [25, 50, 75, 100, 150, 250, 400, 600]) ∧
    (pick rateList 4 = some .hz100 ∧ SampleRate.hz100 ≠ sIdle.poller.rate) ∧
    ({ sIdle with orient := { sIdle.orient with lock := some .request } } : State).orient.lock.isSome = true := by
  and_intros <;> decide
/-- The display stable for so long on another candidate, the lock released. -/
def sTurned (stable : Nat) : State := { sIdle with orient := { sIdle.orient with stable := stable, candidate := .portrait } }
theorem witness_SplitAndSettingsAreWritten_several :
    (Attentive (sTurned 20000) ∧ ms 2000 ≤ (sTurned 20000).orient.stable ∧ ¬ ms 2000 ≤ (sTurned 19999).orient.stable ∧
      (sTurned 20000).orient.candidate ≠ (sTurned 20000).orient.current ∧ (sTurned 20000).orient.lock = none) ∧
    (pick rateList 2 = some (sTurned 0).poller.rate ∧ 2047 < 2048 ∧ 60000 ≤ 60000 ∧ 500 ≤ 8000) := by decide
/-- Six settings in one request: the display turns at once, the rate in force leaves its period running (R195, R115, R109). -/
theorem test_settings_together :
    let s : State := { sTurned 20000 with poller := { sIdle.poller with period := some 7 } }
    let t := after (.settingsSet ⟨some 60000, some 600, some 2000, some 2, some 8000, some 0⟩) s
    t.orient.current = .portrait ∧ t.orient.dwell = 2000 ∧ t.poller.period = some 7 ∧ t.sleep.graceTime = 60000 ∧
    t.posture.settleTime = 600 ∧ t.issuer.discardTime = 8000 ∧ t.mgmt.enables = PerKind.all false ∧ t.mgmt.notices.orientation = none ∧
    after (.settingsSet ⟨none, none, none, none, none, none⟩) s =
      finish { s with mgmt := { s.mgmt with holder := some ⟨0x07, .ok, allSettings s⟩ } } := by decide +kernel
theorem witness_BaseRequestIsChecked :
    (15 < 16 ∧ 32 < (List.replicate 33 (0 : Byte)).length ∧ (List.replicate 32 (0 : Byte)).length ≤ 32) ∧
    (let s := sTable [entry .issued 0] (some 0)
     Attentive s ∧ s.issuer.table.find? (fun e => e.target == 15 && e.command == 1#8) = some (entry .issued 0) ∧
     ¬ ((entry .issued 0).data.length = [0#8].length)) := by
  and_intros <;> decide +kernel
theorem witness_BaseRequestEntersTheTable :
    (Attentive sIdle ∧ sIdle.link.state.isUp = false) ∧
    (let s := sTable [] none
     Attentive s ∧ s.link.state.isUp = true ∧ s.issuer.table.length < 6 ∧ (∀ e ∈ s.issuer.table, e.state = .done) ∧
         s.issuer.waiting = none ∧
     (s.pool.admitDown ⟨none, 0x40, .base, [15, 1], false, .issuer, []⟩).isSome = true) ∧
    (let s := sTable [doneEntry] none
     (∀ e ∈ s.issuer.table, ¬ (e.target = 15 ∧ e.command = 1#8)) ∧ s.issuer.table.length < 6) ∧
    (let s := sTable (List.replicate 6 doneEntry) none
     6 ≤ s.issuer.table.length ∧ s.link.state.isUp = true ∧ ∀ e ∈ s.issuer.table, ¬ (e.target = 15 ∧ e.command = 1#8)) ∧
    (Attentive sFull ∧ sFull.pool.admitDown ⟨none, 0x40, .base, [15, 1], false, .issuer, []⟩ = none) := by
  and_intros <;> decide +kernel
/-- The requests that find no entry to make: out of range, and with other data than the entry of their key (R71, R72). -/
theorem witness_BaseRequestEntersTheTable_turnedAway :
    (15 < 16 ∧ 32 < (List.replicate 33 (0 : Byte)).length) ∧
    (let s := sTable [entry .issued 0] (some 0)
     Attentive s ∧ s.issuer.table.find? (fun e => e.target == 15 && e.command == 1#8) = some (entry .issued 0) ∧ (entry .issued 0).data ≠ [0]) := by
  and_intros <;> decide +kernel
/-- What those replies carry (R74): the key, the counts of QUEUED, ISSUED and DONE, and with MISMATCH the entry's state. -/
theorem test_baseRequest_turnedAway :
    let held (c : Instr) (s : State) := (after c s).mgmt.holder.map (fun r => (r.status, r.content))
    let s := sTable [entry .issued 0, doneEntry] (some 0)
    held (.baseRequest 15 1 [0]) s = some (.mismatch, [15, 1, 0, 1, 1, 2]) ∧
    held (.baseRequest 16 9 []) s = some (.refused, [16, 9, 0, 1, 1]) ∧
    held (.baseRequest 3 9 []) (sTable (List.replicate 6 doneEntry) none) = some (.full, [3, 9, 0, 0, 6]) ∧
    held (.baseRequest 3 9 []) sIdle = some (.notAttached, [3, 9, 0, 0, 0]) := by decide +kernel
theorem witness_BaseRequestEntersTheTable_waits :
    let other (st : ReqState) : ReqEntry := { entry st 0 with target := 3 }
    (let s := sTable [other .issued] (some 0)
     Attentive s ∧ s.link.state.isUp = true ∧ s.issuer.table.length < 6 ∧ (∃ e ∈ s.issuer.table, e.state = .issued) ∧
     ∀ e ∈ s.issuer.table, ¬ (e.target = 15 ∧ e.command = 1#8)) ∧
    (let s : State := { sFull with issuer := { Issuer.cold with table := [other .queued], waiting := some (3, 1#8) } }
     Attentive s ∧ s.link.state.isUp = true ∧ s.issuer.waiting.isSome = true) := by
  and_intros <;> decide +kernel
theorem witness_BaseRequestEntersTheTable_repeats :
    ∀ e, e ∈ [entry .queued 3, entry .issued 31, { entry .done 0 with outcome := some .ok, response := some [1] },
        { entry .done 32 with outcome := some .gaveUp }] →
      let s := sTable ([doneEntry] ++ e :: []) none
      Attentive s ∧ e.target = 15 ∧ e.command = 1#8 ∧ e.data = [] ∧ (∀ y ∈ [doneEntry] ++ [], ¬ (y.target = 15 ∧ y.command = 1#8)) ∧
      (e.state = .queued ∨ e.state = .issued ∨ e.state = .done ∧ e.outcome.isSome = true) := by
  intro e h
  simp only [List.mem_cons, List.not_mem_nil, or_false] at h
  rcases h with rfl | rfl | rfl | rfl <;> (and_intros <;> decide)
def sUnpowered (profile : Nat) : State :=
  { sLink .unpowered with guard := { Guard.cold with active := profile } }
theorem witness_BaseResetRestartsTheBase :
    (Attentive sReady ∧ sReady.link.state = .ready ∧ sReady.sleep.expired = false) ∧
    (Attentive (sUnpowered 0) ∧ (sUnpowered 0).link.state = .unpowered ∧ (sUnpowered 0).guard.baseGrant = 0 ∧
        250 ≤ (sUnpowered 0).guard.budget) ∧
    ((sUnpowered 3).guard.budget < 250 ∧ (sUnpowered 3).mgmt.enables.attach = true) ∧
    (Attentive (sLink .faulted) ∧ (sLink .faulted).link.state = .faulted) ∧
    (Attentive (sLink .training) ∧ (sLink .training).link.state ∉ [.ready, .quiet, .unreachable, .unpowered, .faulted]) := by
  and_intros <;> decide +kernel
def sDiag (d : Diagnosis) : State :=
  { sLink .diagnosing with att := { sReady.att with diagnosis := some d }, link := { sReady.link with state := .diagnosing, diag := some 0 } }
theorem witness_DiagnosisMeasuresFourPins :
    (Attentive sIdle ∧ sIdle.link.state ∉ [.ready, .quiet, .unreachable]) ∧
    (let s := sTable [entry .queued 0] none
     Attentive s ∧ ∃ e ∈ s.issuer.table, e.state ≠ .done) ∧
    (let s := sTable [doneEntry] none
     Attentive s ∧ s.link.state ∈ [.ready, .quiet, .unreachable] ∧ (∀ e ∈ s.issuer.table, e.state = .done) ∧
     s.sleep.holds.baseIdentifying = false) ∧
    (∀ d, Running (sDiag d) ∧ (sDiag d).att.diagnosis = some d ∧ (sDiag d).link.diag.isSome = true) := by
  refine ⟨?_, ?_, ?_, fun d => ⟨⟨rfl, rfl⟩, rfl, rfl⟩⟩ <;> and_intros <;> decide +kernel
def sLatched : State :=
  { sLink .faulted with
    guard := { Guard.cold with alarms := { Guard.cold.alarms with
      railOc := { Alarm.cold with latch := true, detected := true, sticky := true }
      coilOc := { Alarm.cold with latch := true, detected := true, sticky := true } } }
    pen := { Charger.cold with session := .fault, fault := some .coilLatch, hold := some .request } }
theorem witness_AlarmClearClearsTheNamedCauses :
    (Attentive sLatched ∧ railLatched sLatched = true ∧ coilLatched sLatched = true ∧ sLatched.link.state = .faulted ∧
      sLatched.att.present = true ∧ sLatched.guard.baseGrant = 0 ∧ 250 ≤ sLatched.guard.budget ∧ sLatched.pen.session = .fault ∧
      sLatched.pen.fault = some .coilLatch ∧ sLatched.pen.hold.isSome = true) ∧
    railLatched (clearAlarms 15 sLatched) = false ∧ coilLatched (clearAlarms 15 sLatched) = false ∧
    (railLatched sReady = false ∧ coilLatched sReady = false ∧ sReady.guard.cap = none ∧ OutputsFollow sReady) ∧
    Nat.testBit 15 0 = true ∧ Nat.testBit 8 0 = false := by
  and_intros <;> decide +kernel
/-- The coil's latch alone, in FAULT for it, without a hold. -/
def sCoilLatched : State :=
  { sIdle with
    guard := { Guard.cold with alarms := { Guard.cold.alarms with coilUv := { Alarm.cold with latch := true, detected := true, sticky := true } } }
    pen := { Charger.cold with session := .fault, fault := some .coilLatch } }
theorem witness_AlarmClearClearsTheNamedCauses_detect :
    Attentive sCoilLatched ∧ railLatched sCoilLatched = false ∧ coilLatched sCoilLatched = true ∧ sCoilLatched.pen.session = .fault ∧
    sCoilLatched.pen.fault = some .coilLatch ∧ sCoilLatched.pen.hold = none ∧
    sCoilLatched.guard.baseGrant + 150 ≤ sCoilLatched.guard.budget ∧ coilLatched (clearAlarms 8 sCoilLatched) = false := by
  and_intros <;> decide +kernel
/-- A cap, with STEADY granted of the FAST claimed; a rail's latch alone. -/
def sCapped (session : PenState) : State :=
  { sIdle with
    pen := { Charger.cold with session := session, docked := true }
    guard := { Guard.cold with penGrant := some .steady, claimed := some .fast, cap := some .steady, coilOn := true } }
def sRailLatched : State :=
  { sLink .faulted with guard := { Guard.cold with alarms := { Guard.cold.alarms with railOc := { Alarm.cold with latch := true, detected := true } } } }
theorem witness_AlarmClearClearsTheNamedCauses_told :
    (Attentive (sCapped .charging) ∧ Nat.testBit 4 2 = true ∧ (sCapped .charging).guard.cap.isSome = true ∧
      railLatched (sCapped .charging) = false ∧ coilLatched (sCapped .charging) = false) ∧
    (Nat.testBit 1 2 = false ∧ sReady.guard.cap = none) ∧
    (Attentive sRailLatched ∧ railLatched sRailLatched = true ∧ railLatched (clearAlarms 1 sRailLatched) = false ∧
      sRailLatched.link.state = .faulted ∧ sRailLatched.att.present = true ∧ coilLatched sRailLatched = false ∧
      250 ≤ sRailLatched.guard.budget ∧ sRailLatched.guard.cap = none) := by
  and_intros <;> decide +kernel
/-- The cap gone, the pen is re-granted and told of, and the reply names no latch and no cap (R129, R133, R142). -/
theorem test_capCleared :
    let t := after (.alarmClear 4) (sCapped .charging)
    t.guard.penGrant = some .fast ∧ t.pen.session = .charging ∧ t.mgmt.holder.map (fun r => r.content) = some [0, 0] ∧
    t.mgmt.notices.budget = some ⟨.budget 0 2500 0 (some .fast) (some .fast) none .clear, 1⟩ := by decide +kernel
def noGuard : GuardArg := ⟨none, none, none, none, none, none, none, none, none, none, none, none, none, none⟩
/-- The rail's over-current cause detected with its protection disabled. -/
def sUnguarded : State :=
  { sReady with guard := { sReady.guard with alarms := { sReady.guard.alarms with
      railOc := { Alarm.cold with raw := true, detected := true, sticky := true, enabled := false } } } }
theorem witness_GuardSetWritesTheSettings :
    (∃ n, ({ noGuard with filterRailOc := some 5 } : GuardArg).filterRailOc = some n ∧ (n < 1 ∨ 4 < n)) ∧
    (∃ n, ({ noGuard with mode := some 3 } : GuardArg).mode = some n ∧ (n < 1 ∨ 2 < n)) ∧
    (¬ ∃ n, noGuard.mode = some n ∧ (n < 1 ∨ 2 < n)) ∧
    (let a : GuardArg := { noGuard with filterRailOc := some 1, enableRailOc := some false }
     (a.filterRailOc.map (· - 1)).getD sReady.guard.alarms.railOc.choice = 0 ∧
     a.enableRailOc.getD sReady.guard.alarms.railOc.enabled = false) ∧
    (sReady.guard.railOn = true ∧ ((some 4).map (· - 1)).getD sReady.guard.alarms.railOc.choice ≠ sReady.guard.alarms.railOc.choice) ∧
    (Attentive sUnguarded ∧ sUnguarded.guard.alarms.railOc.enabled = false ∧ sUnguarded.guard.alarms.railOc.detected = true ∧
      sUnguarded.guard.alarms.railOc.latch = false) := by
  refine ⟨⟨5, rfl, by decide⟩, ⟨3, rfl, by decide⟩, by simp [noGuard], ?_, ?_, ?_⟩ <;> and_intros <;> decide
/-- A pen that charges, the coil's causes detected with their protection disabled. -/
def sCoilUnguarded (l : PenLevel) (oc uv : Bool) : State :=
  { sPen .charging l with guard := { (sPen .charging l).guard with
      coilOn := false
      alarms := { Guard.cold.alarms with
        coilOc := { Alarm.cold with detected := oc, sticky := oc, enabled := !oc }
        coilUv := { Alarm.cold with detected := uv, sticky := uv, enabled := !uv } } } }
theorem witness_GuardSetWritesTheSettings_coil :
    (∀ l, (l, PenLevel.steady) = (.fast, .steady) ∨ (l, PenLevel.trickle) = (.steady, .trickle) →
      let s := sCoilUnguarded l true false
      Attentive s ∧ s.guard.alarms.coilOc.enabled = false ∧ s.guard.alarms.coilOc.detected = true ∧ s.guard.alarms.coilOc.latch = false ∧
      s.guard.mode = .limit ∧ s.guard.penGrant = some l ∧ s.guard.claimed = s.guard.penGrant ∧ s.pen.session ≠ .paused ∧
      levelMw .steady + s.guard.baseGrant ≤ s.guard.budget) ∧
    (let s := sCoilUnguarded .trickle true false
     Attentive s ∧ s.guard.penGrant = some .trickle ∧ s.guard.alarms.coilOc.enabled = false ∧ s.guard.alarms.coilOc.detected = true) ∧
    (let s := sCoilUnguarded .fast false true
     Attentive s ∧ s.guard.alarms.coilUv.enabled = false ∧ s.guard.alarms.coilUv.detected = true ∧ s.guard.alarms.coilUv.latch = false ∧
     s.pen.session ∉ [.noPen, .foreign, .fault]) := by
  refine ⟨fun l h => ?_, by and_intros <;> decide, by and_intros <;> decide⟩
  cases l <;> simp at h <;> (and_intros <;> decide)
theorem witness_GuardSetWritesTheSettings_both :
    let s := sCoilUnguarded .fast true true
    Attentive s ∧ s.guard.alarms.coilUv.enabled = false ∧ s.guard.alarms.coilUv.detected = true ∧ s.guard.alarms.coilUv.latch = false ∧
    s.guard.alarms.coilOc.enabled = false ∧ s.guard.alarms.coilOc.detected = true ∧ s.guard.alarms.coilOc.latch = false ∧
    s.guard.mode = .limit ∧ s.guard.penGrant = some .fast ∧ s.pen.session ∉ [.noPen, .foreign, .fault] := by
  and_intros <;> decide
/-- COIL-UV and COIL-OC under LIMIT enabled by one request: the cap stands beside the latch (R137, R138, R139). -/
theorem test_capBesideLatch :
    let t := (guardSetTaken { noGuard with enableCoilOc := some true, enableCoilUv := some true } (sCoilUnguarded .fast true true)).1
    t.guard.cap = some .steady ∧ t.guard.alarms.coilUv.latch = true ∧ t.guard.alarms.coilOc.latch = false ∧
    t.guard.alarms.coilOc.detected = false ∧ t.pen.session = .fault ∧ t.guard.penGrant = none := by
  and_intros <;> decide +kernel
def sRaise : State :=
  { sPen .charging .trickle with
    guard := { Guard.cold with active := 2, baseGrant := 400, penGrant := some .trickle, claimed := some .fast, coilOn := true }
    pen := { Charger.cold with session := .charging, docked := true, requested := .fast } }
theorem witness_BudgetSetReplacesTheProfiles :
    (4500 < 4550 ∧ 4499 % 50 ≠ 0 ∧ 3 < 4) ∧
    (Attentive sReady ∧ (⟨2500, 0, 0, 0⟩ : Profiles).get 0 = sReady.guard.budget) ∧
    ((⟨500, 0, 0, 0⟩ : Profiles).get 0 < sReady.guard.budget ∧
      sReady.guard.baseGrant + grantMw sReady.guard.penGrant ≤ (⟨500, 0, 0, 0⟩ : Profiles).get 0 ∧ OutputsFollow sReady) ∧
    ((⟨450, 0, 0, 0⟩ : Profiles).get 0 < sReady.guard.baseGrant ∧ sReady.guard.baseGrant ≤ sReady.guard.budget) ∧
    (Attentive sRaise ∧ sRaise.guard.budget < 1300 ∧ sRaise.link.state ≠ .unpowered ∧ sRaise.pen.session = .charging ∧
      sRaise.pen.requested = .fast ∧ sRaise.guard.claimed = some .fast ∧ sRaise.guard.cap = none ∧
      sRaise.guard.baseGrant + 900 ≤ 1300) := by
  and_intros <;> decide
/-- A pen at FAST beside a base at 500 mW, and an UNPOWERED base beside a pen whose claim waits for room. -/
def sBoth : State := { sReady with pen := { Charger.cold with session := .charging }, guard :=
  { sReady.guard with penGrant := some .fast, claimed := some .fast, coilOn := true } }
def sWaiting : State := { sUnpowered 3 with
  pen := { Charger.cold with session := .charging }, guard := { Guard.cold with active := 3, claimed := some .fast } }
theorem witness_BudgetSetReplacesTheProfiles_moves :
    (Attentive sBoth ∧ sBoth.guard.baseGrant ≤ 650 ∧ 650 < sBoth.guard.baseGrant + grantMw sBoth.guard.penGrant ∧ 650 < sBoth.guard.budget ∧
      sBoth.pen.session ≠ .paused ∧ sBoth.pen.session ∈ [.detect, .softStart, .charging, .topped] ∧
      sBoth.guard.baseGrant + grantMw sBoth.guard.penGrant ≤ 1400 ∧ 1400 < sBoth.guard.baseGrant + grantMw sBoth.guard.penGrant + 1) ∧
    (Attentive sWaiting ∧ sWaiting.guard.budget < 200 ∧ sWaiting.link.state = .unpowered ∧ sWaiting.att.present = true ∧
      sWaiting.guard.baseGrant = 0 ∧ sWaiting.mgmt.enables.attach = true ∧ sWaiting.pen.session = .charging ∧
      sWaiting.guard.claimed = some .fast ∧ sWaiting.guard.cap = none) ∧
    (250 ≤ (⟨0, 0, 0, 1150⟩ : Profiles).get 3 ∧ 1150 ≤ (⟨0, 0, 0, 1150⟩ : Profiles).get 3 ∧ (⟨0, 0, 0, 200⟩ : Profiles).get 3 < 250) := by
  and_intros <;> decide
/-- A PAUSED session beside a base that holds 500 mW of the budget. -/
def sPaused (docked : Bool) (profile : Nat) : State :=
  { sReady with
    pen := { Charger.cold with session := .paused, docked := docked }
    guard := { Guard.cold with active := profile, baseGrant := 500, claimed := some .trickle, railOn := true } }
theorem witness_BudgetSetReplacesTheProfiles_resumes :
    (∀ d, Attentive (sPaused d 0) ∧ (sPaused d 0).pen.session = .paused ∧ (⟨450, 0, 0, 0⟩ : Profiles).get 0 < (sPaused d 0).guard.baseGrant ∧
      (sPaused d 0).guard.baseGrant ≤ (sPaused d 0).guard.budget ∧ (sPaused d 0).guard.baseGrant ≤ (⟨500, 0, 0, 0⟩ : Profiles).get 0 ∧
      (⟨500, 0, 0, 0⟩ : Profiles).get 0 < (sPaused d 0).guard.budget ∧ (sPaused d 0).guard.budget < (⟨2550, 0, 0, 0⟩ : Profiles).get 0 ∧
      (sPaused d 0).link.state ≠ .unpowered) ∧
    regranted { (sPaused true 0).guard with profiles := ⟨2550, 0, 0, 0⟩ } 500 = some .trickle ∧
    steppedDown 500 500 none = none ∧ regranted { (sPaused true 0).guard with profiles := ⟨450, 0, 0, 0⟩ } 0 = some .trickle := by
  refine ⟨fun d => by cases d <;> (and_intros <;> decide), by decide, by decide, by decide⟩
/-- A raise, and the cut of the base, resume a PAUSED session by its docked mark (R131, R156). -/
theorem test_paused_resumes :
    (after (.budgetSet ⟨none, some 2550, none, none, none⟩) (sPaused true 0)).pen.session = .softStart ∧
    (after (.budgetSet ⟨none, some 2550, none, none, none⟩) (sPaused false 0)).pen.session = .detect ∧
    (after (.budgetSet ⟨none, some 450, none, none, none⟩) (sPaused true 0)).pen.session = .softStart ∧
    (after (.budgetSet ⟨none, some 450, none, none, none⟩) (sPaused true 0)).link.state = .unpowered := by decide +kernel
def sHeld (docked : Bool) : State :=
  { sPenOff .held with pen := { Charger.cold with session := .held, docked := docked, hold := some .request } }
theorem witness_ChargeRequestsMoveTheSession :
    (Attentive sIdle ∧ sIdle.pen.session ∉ [.softStart, .charging, .paused]) ∧
    (let s := sPen .charging .steady
     Attentive s ∧ s.pen.session ∈ [.softStart, .charging] ∧ PenLevel.fast ≠ s.pen.requested ∧ s.guard.cap = none ∧
     levelMw .fast + s.guard.baseGrant ≤ s.guard.budget ∧ s.pen.hold = none) ∧
    (let s := sPenOff .paused
     Attentive s ∧ s.pen.session = .paused ∧ s.pen.docked = true ∧ s.pen.hold = none ∧ s.guard.cap = none) ∧
    (∀ d, Attentive (sHeld d) ∧ (sHeld d).pen.hold.isSome = true ∧ (sHeld d).pen.session = .held ∧ (sHeld d).guard.cap = none ∧
      levelMw (sHeld d).pen.requested + (sHeld d).guard.baseGrant ≤ (sHeld d).guard.budget) ∧
    (let s : State := { sPenOff .fault with pen := { Charger.cold with session := .fault, fault := some .penSilent } }
     Attentive s ∧ s.pen.session = .fault ∧ s.pen.fault ≠ some .coilLatch ∧ s.pen.hold = none) ∧
    (Attentive sLatched ∧ sLatched.pen.session = .fault ∧ sLatched.pen.fault = some .coilLatch) ∧
    (Attentive (sPenOff .foreign) ∧ (sPenOff .foreign).pen.session = .foreign) := by
  refine ⟨?_, ?_, ?_, fun d => by cases d <;> (and_intros <;> decide), ?_, ?_, ?_⟩ <;> and_intros <;> decide
/-- A state under a budget in force. -/
def sBudget (mw : Nat) (s : State) : State := { s with guard := { s.guard with active := 0, profiles := ⟨mw, 0, 0, 0⟩ } }
/-- At 149 mW no level fits, at 150 mW TRICKLE does, under the cap no more than it (R125, R128). -/
theorem witness_ChargeRequestsMoveTheSession_room :
    let best (l : PenLevel) (s : State) : Option PenLevel :=
      [PenLevel.fast, .steady, .trickle].find? (fun m =>
        decide (levelMw m ≤ levelMw l) && s.guard.cap.all (fun c => decide (levelMw m ≤ levelMw c)) &&
        decide (levelMw m + s.guard.baseGrant ≤ s.guard.budget))
    let failed : State := { sPenOff .fault with pen := { Charger.cold with session := .fault, fault := some .penReported, hold := some .policy } }
    let capped : State := { sIdle with guard := { Guard.cold with cap := some .steady } }
    (best .fast (sBudget 149 sIdle) = none ∧ best .fast (sBudget 150 sIdle) = some .trickle ∧ best .fast sIdle = some .fast ∧
      best .fast capped = some .steady) ∧
    (let s := sBudget 149 (sPen .charging .steady)
     Attentive s ∧ s.pen.session ∈ [.softStart, .charging] ∧ PenLevel.fast ≠ s.pen.requested) ∧
    (let s := sBudget 149 (sPenOff .paused)
     Attentive s ∧ s.pen.session = .paused ∧ s.pen.docked = true ∧ s.pen.hold = none) ∧
    (Attentive (sBudget 149 (sHeld true)) ∧ (sBudget 149 (sHeld true)).pen.session = .held) ∧
    (Attentive failed ∧ failed.pen.session = .fault ∧ failed.pen.fault ≠ some .coilLatch ∧ failed.pen.hold.isSome = true) := by
  and_intros <;> decide
theorem witness_ChargeRequestsMoveTheSession_claims :
    ((sPen .charging .steady).pen.hold = none ∧ (sHeld true).pen.hold ≠ some .policy ∧ (sHeld true).pen.hold.isSome = true) ∧
    (let s : State := { sHeld true with pen := { (sHeld true).pen with hold := some .policy } }
     Attentive s ∧ s.pen.hold = some .policy ∧ s.pen.session = .held) := by
  and_intros <;> decide
def sLocked (stable : Nat) (c : Orientation) : State :=
  { sIdle with orient := { sIdle.orient with lock := some .policy, stable := stable, candidate := c } }
theorem witness_LockAndLinesAreSet :
    (Attentive sIdle ∧ sIdle.orient.lock = none) ∧
    (Attentive (sLocked 2999 .portrait) ∧ (sLocked 2999 .portrait).orient.lock.isSome = true ∧
      (sLocked 2999 .portrait).orient.stable < 10 * (sLocked 2999 .portrait).orient.dwell) ∧
    (10 * (sLocked 3000 .portrait).orient.dwell ≤ (sLocked 3000 .portrait).orient.stable ∧
      (sLocked 3000 .portrait).orient.candidate ≠ (sLocked 3000 .portrait).orient.current) ∧
    (3 ∉ [1, 2] ∧ 6 < 7 ∧ 3 < 4) ∧ pick ledSourceList 1 = some .charge ∧ pick ledSourceList 6 = some .off ∧
    pick ledPatternList 1 = some .steady ∧ pick ledPatternList 3 = some .stretch := by
  and_intros <;> decide
def sAsked (tx : Sending) (pending : Option Pending) (enabled : Bool) : State :=
  { sPower .sleepAsked with tx := tx, mgmt := { sIdle.mgmt with
      notices := (PerKind.all none).set .attach pending, enables := (PerKind.all true).set .attach enabled } }
theorem witness_SleepRequestsMoveTheHost :
    let p : Pending := ⟨.attach .detached, 255⟩
    (Attentive (sAsked .idle none true) ∧ (sAsked .idle none true).sleep.power = .sleepAsked ∧ (sAsked .reply none true).tx = .reply ∧
      (sAsked .data none true).tx = .data) ∧
    ((sAsked (.notice p) none false).tx = .notice p ∧ (sAsked (.notice p) none false).mgmt.enables.get p.notice.kind = false) ∧
    ((sAsked (.notice p) none true).mgmt.enables.get p.notice.kind = true ∧
      (sAsked (.notice p) none true).mgmt.notices.get p.notice.kind = none) ∧
    (sAsked (.notice p) (some p) true).mgmt.notices.get p.notice.kind = some p ∧
    (Attentive (sPower .asleep) ∧ (sPower .asleep).sleep.power = .asleep) ∧ Attentive (sPower .waking) ∧
    (Attentive sIdle ∧ sIdle.sleep.power ≠ .sleepAsked ∧ sIdle.sleep.power ∈ [.awake, .grace, .sleepAsked]) := by
  and_intros <;> decide
def sStore (st : StoreState) (x : Option Exchange) (sv : Option Save) : State :=
  { sIdle with store := { sIdle.store with state := st, exchange := x, save := sv } }
theorem witness_StoreRequestsBeginTheirWrites :
    Attentive sIdle ∧ sIdle.store.state = .idle ∧ Attentive (sStore .saving none none) ∧
        (sStore .saving none none).store.state ≠ .idle := by
  and_intros <;> decide

/-! ## Witnesses: the events -/

def sBody (n : Nat) (crc : Word16) : State := { State.reset with store := { Store.cold with exchange := some (.readBody n crc) } }
theorem witness_StartUpReadsTheImage :
    (Running State.reset ∧ State.reset.store.state = .starting ∧ State.reset.mgmt.enables.start = true ∧
      State.reset.store.exchange = some .readHeader) ∧
    (6 < (0 : Byte).toNat * 256 + (7 : Byte).toNat ∧ (8 : Byte).toNat * 256 + (0 : Byte).toNat ≤ 2048 ∧
      2048 < (8 : Byte).toNat * 256 + (1 : Byte).toNat ∧ (0 : Byte).toNat * 256 + (5 : Byte).toNat < 6) ∧
    (Running (sBody 10 0) ∧ (sBody 10 0).store.exchange = some (.readBody 10 0) ∧ [7, 1, 8, (0 : Byte)].length = 10 - 6 ∧
      crc16 [7, 1, 8, 0] ≠ 0) ∧
    (8 ≤ (8#8 : Byte).toNat ∧ (64#8 : Byte).toNat ≤ 64 ∧ (7#8 : Byte).toNat < 8 ∧ 64 < (65#8 : Byte).toNat) := by
  and_intros <;> decide +kernel
/-- Every body is read under its own CRC. -/
theorem witness_StartUpReadsTheImage_crc (body : List Byte) :
    Running (sBody (body.length + 6) (crc16 body)) ∧ (sBody (body.length + 6) (crc16 body)).store.state = .starting ∧
    (sBody (body.length + 6) (crc16 body)).store.exchange = some (.readBody (body.length + 6) (crc16 body)) := ⟨⟨rfl, rfl⟩, rfl, rfl⟩
/-- Every content stands in sections: in one each byte. -/
theorem witness_StartUpReadsTheImage_sections (content : List Byte) :
    ∃ pieces : List (List Byte), pieces.flatten = content ∧ ∀ p ∈ pieces, p.length ≤ 255 :=
  ⟨content.map (fun b => [b]), by induction content <;> simp_all, by simp⟩
/-- The content of the factory tables meets its rules; a table with one entry fewer has another length. -/
theorem witness_StartUpReadsTheImage_tables :
    (factoryRoutes.length = 48 ∧ (factoryRoutes.take 47).length ≠ 48) ∧ (factoryWindows.length = 8 ∧ (factoryWindows.take 7).length ≠ 8) ∧
    (factoryPolicy.length = 24 ∧ (factoryPolicy.take 23).length ≠ 24) ∧
    ((checkRoute route0).isSome = true ∧ (checkWindow ⟨180, 0, 0, 1, 1⟩).isSome = true ∧ (checkPolicy policy0).isSome = true) ∧
    (Guard.cold.alarms.railOc.choice < 4 ∧ Guard.cold.alarms.coilUv.choice < 4 ∧
      ¬ (Guard.cold.alarms.railOc.choice = 0 ∧ Guard.cold.alarms.railOc.enabled = false)) ∧
    ((90#8 : Byte).toNat ≤ 90 ∧ 90 < (91#8 : Byte).toNat) ∧ (60000 < 65536 ∧ 2000 < 65536 ∧ 8000 < 65536 ∧ 60001 < 65536) ∧
    (factoryGeneric.demand = 50 * 10 ∧ (∀ k ∈ factoryGeneric.declared, 0x10 ≤ k.toNat ∧ k.toNat ≤ 0x13) ∧ factoryGeneric.declared ≠ [] ∧
      factoryGeneric.declared.Nodup ∧ factoryGeneric.wakeKinds.Nodup ∧ factoryGeneric.mount = none) ∧
    (5 ≤ 5 ∧ 40 ≤ 40 ∧ 4 < 5 ∧ 40 < 41) ∧ (9 ≤ (9#8 : Byte).toNat ∧ ([] : List Byte).length < (1#8 : Byte).toNat) := by
  and_intros <;> decide +kernel
theorem witness_PageWritesCarryTheImage :
    let x := Exchange.writePage 63 (List.replicate 32 0)
    (Running (sStore .erasing (some x) none) ∧ (sStore .erasing (some x) none).store.exchange = some x ∧
      (sStore .erasing (some x) none).mgmt.restart = .none ∧ (sStore .erasing (some x) none).sleep.expired = false) ∧
    (∀ f, (sStore .saving (some x) (some ⟨[], [], 1, f⟩)).store.state = .saving ∧
      (sStore .saving (some x) (some ⟨[], [], 1, f⟩)).store.save = some ⟨[], [], 1, f⟩) ∧
    (let s : State := { sStore .erasing (some x) none with mgmt := { sIdle.mgmt with restart := .waiting } }
     Running s ∧ s.mgmt.restart = .waiting ∧ s.store.state = .erasing) := by
  intro x
  refine ⟨?_, fun _ => ⟨rfl, rfl⟩, ?_⟩ <;> and_intros <;> rfl
theorem witness_PageWritesCarryTheImage_build :
    (1 ≤ (1 : Nat) ∧ (1 : Nat) ≤ 10 ∧ ([] : List Byte).length ≤ 58) ∧ (1 ≤ (10 : Nat) ∧ (10 : Nat) ≤ 10) ∧
    typeContent 7 sIdle = [24] ∧ beginType 7 sIdle = [7, 1, 24] ∧ beginType 9 sIdle = [0] ∧ (typeContent 1 sIdle).length > 255 := by
  and_intros <;> decide +kernel
theorem witness_PresenceOpensAndEndsASession :
    (Running sIdle ∧ sIdle.store.state ≠ .starting ∧ sIdle.sleep.expired = false ∧ sIdle.pins.presence = false ∧
        sIdle.link.state = .absent) ∧
    (let s := { sLink .settling with link := { Link.cold with state := .settling, debounce := some 0 }, guard := Guard.cold }
     Running s ∧ s.pins.presence = true ∧ s.link.state = .settling ∧ s.link.debounce.isSome = true ∧ s.guard.baseGrant = 0 ∧
     railLatched s = false ∧ 250 ≤ s.guard.budget) ∧
    (railLatched sLatched = true ∧ (sUnpowered 3).guard.budget < 250) ∧
    (sReady.pins.presence = true ∧ sReady.link.state ∉ [.absent, .settling] ∧ sReady.mgmt.enables.attach = true) := by
  and_intros <;> decide
/-- The debounce of a base about to expire, with the switches and the code as given. -/
def sSeated (lid flat : Bool) (code : BitVec 3) : State :=
  { sIdle with
    link := { Link.cold with state := .settling, debounce := some 0 }
    pins := { sIdle.pins with presence := true, lidClosed := lid, foldFlat := flat, code := code } }
theorem witness_PresenceOpensAndEndsASession_posture :
    (∀ lid flat, Running (sSeated lid flat 0b111#3) ∧ (sSeated lid flat 0b111#3).link.debounce.isSome = true ∧
      (sSeated lid flat 0b111#3).pins.lidClosed = lid ∧ (sSeated lid flat 0b111#3).pins.foldFlat = flat) ∧
    (codePosition (sSeated true false 0b111#3).pins.code = none ∧ (codePosition (sSeated true false 0b101#3).pins.code).isSome = true ∧
      (sSeated true false 0b111#3).mgmt.enables.encoder = true ∧ (sSeated true false 0b111#3).mgmt.enables.posture = true) ∧
    (∃ i w, factoryWindows.findIdx? (fun w => windowTakes w 0 180 .landscape) = some i ∧ factoryWindows[i]? = some w ∧
      w.posture = .tablet) ∧
    ([] : List Window).findIdx? (fun w => windowTakes w 0 180 .landscape) = none ∧
    (Running sClosed ∧ sClosed.pins.presence = true ∧ sClosed.pins.lidClosed = true ∧ sClosed.posture.posture ≠ .slate) := by
  refine ⟨fun lid flat => ⟨⟨rfl, rfl⟩, rfl, rfl, rfl⟩, by decide, ⟨_, _, rfl, rfl, rfl⟩, rfl, by decide⟩
/-- A base seated folded flat is TABLET at once; a closed base pulled off is SLATE (R106). -/
theorem test_seated_and_pulled_off :
    (after .debounceExpiry (sSeated false true 0b100#3)).posture.posture = .tablet ∧
    (after .debounceExpiry (sSeated true true 0b100#3)).posture.posture = .closed ∧
    (after .debounceExpiry (sSeated true false 0b000#3)).posture.faults = 1#8 ∧
    (after .detach sClosed).posture.posture = .slate := by decide +kernel
/-- A base seated beside a pen that charges at FAST, with room for the allowance and STEADY alone: the pen is stepped down and told of, and
a detach re-grants it (R126, R127, R129). -/
theorem test_pen_beside_the_base :
    let s : State := { sSeated false false 0b100#3 with
      pen := { Charger.cold with session := .charging, docked := true }
      guard := { Guard.cold with profiles := ⟨900, 0, 0, 0⟩, penGrant := some .fast, claimed := some .fast, coilOn := true } }
    let t := after .debounceExpiry s
    Running s ∧ besideClaim s.guard 250 = some .steady ∧ t.guard.penGrant = some .steady ∧
    t.mgmt.notices.budget = some ⟨.budget 0 900 250 (some .steady) (some .fast) none .baseClaim, 1⟩ ∧
    (after .detach t).guard.penGrant = some .fast := by decide +kernel
def sTimers (l : LinkState) (r : Option Rate) (n : Nat) : State :=
  { sLink l with link := { Link.cold with
      state := l, rate := r, attempt := n, railUp := some 0, resetDrive := some 0, retry := some 0, echo := some 0, describe := some 0
      quiet := some 0, wake := some 0, keepAlive := some 0, kaWindow := some 0 } }
theorem witness_TrainingTriesEachRate :
    (Running (sTimers .powering none 0) ∧ (sTimers .powering none 0).link.railUp.isSome = true ∧
      (sTimers .powering none 0).link.resetAfterRail = false ∧ (sTimers .powering none 0).sleep.expired = false) ∧
    ({ sTimers .powering none 0 with link := { (sTimers .powering none 0).link with resetAfterRail := true } } : State).link.resetAfterRail = true ∧
    ((sTimers .training none 0).link.resetDrive.isSome = true ∧ (sTimers .unreachable none 0).link.retry.isSome = true) ∧
    ((sTimers .training (some .fast) 2).link.echo.isSome = true ∧ (sTimers .training (some .fast) 2).link.rate = some .fast ∧
      (sTimers .training (some .fast) 2).link.attempt < 3) ∧
    (3 ≤ (sTimers .training (some .middle) 3).link.attempt ∧ (sTimers .training (some .slow) 3).link.rate = some .slow) := by
  and_intros <;> decide
def sChunk (k : Nat) (n : Nat) (bytes : List Byte) : State :=
  { sLink .identifying with link := { Link.cold with state := .identifying, rate := some .fast, chunk := k, chunkTry := n, chunks := bytes, describe := some 0 } }
theorem witness_IdentificationReadsTheDescriptor :
    (Running (sChunk 0 3 []) ∧ (sChunk 0 3 []).sleep.expired = false ∧ (sChunk 0 3 []).link.state = .identifying ∧
      (sChunk 0 3 []).link.describe.isSome = true ∧ (sChunk 0 3 []).link.chunkTry < 4) ∧
    4 ≤ (sChunk 0 4 []).link.chunkTry ∧
    ((sChunk 0 1 []).link.chunk = 0 ∧ (sChunk 0 1 []).link.chunks = [] ∧ 3 ≤ (3#8 : Byte).toNat ∧ (128#8 : Byte).toNat ≤ 128 ∧
      ([] : List Byte).length + 3 = min 32 (3#8 : Byte).toNat ∧ (List.replicate 29 (0 : Byte)).length + 3 = min 32 (33#8 : Byte).toNat) ∧
    ((2#8 : Byte).toNat < 3 ∧ 128 < (129#8 : Byte).toNat) ∧
    (let s := sChunk 1 1 (0x5A :: 0x01 :: 64 :: List.replicate 29 0)
     (1#8 : Byte).toNat = s.link.chunk ∧ 1 ≤ s.link.chunk ∧ s.link.chunks = 0x5A#8 :: 0x01#8 :: 64#8 :: List.replicate 29 0 ∧
     (List.replicate 32 (0 : Byte)).length = min 32 ((64#8 : Byte).toNat - 32 * (1#8 : Byte).toNat) ∧
     (64#8 : Byte).toNat ≤ 32 * (1#8 : Byte).toNat + 32 ∧ 32 * (1#8 : Byte).toNat + 32 < (65#8 : Byte).toNat) ∧
    (2#8 : Byte).toNat ≠ (sChunk 1 1 []).link.chunk := by
  and_intros <;> decide +kernel
/-- The end of an identification: into a first READY and a later one, with a request to offer, with one ISSUED and with one that waits, and
without room for the demand. -/
theorem witness_IdentificationReadsTheDescriptor_ready :
    let s := sChunk 0 4 []
    let i := genericIdentity s.generic (.chunkFailed 0)
    let later : State := { s with link := { s.link with session := .hasBeenReady } }
    let table (l : List ReqEntry) (w : Option (Nat × Byte)) : State := { s with issuer := { Issuer.cold with table := l, waiting := w } }
    let poor : State := { s with guard := { Guard.cold with active := 3 } }
    (i.selfPowered = false ∧ i.railDemand ≤ s.guard.budget ∧ s.link.session ≠ .hasBeenReady ∧ s.mgmt.enables.attach = true) ∧
    (later.link.session = .hasBeenReady ∧ later.mgmt.enables.link = true) ∧
    ((table [queuedEntry] none).issuer.waiting = none ∧ ∀ e ∈ (table [queuedEntry] none).issuer.table, e.state ≠ .issued) ∧
    ((table [queuedEntry] (some (2, 7))).issuer.waiting.isSome = true ∧
      ∃ e ∈ (table [entry .issued 0] none).issuer.table, e.state = .issued) ∧
    (poor.guard.budget < i.railDemand ∧ poor.guard.baseGrant ≤ poor.guard.budget) ∧
    ((identityOf s.generic [0x5A, 1, 7, 2, 2, 40, 1]).selfPowered = true) := by
  and_intros <;> decide +kernel
/-- A later READY says so and offers the oldest QUEUED request (R54, R75). -/
theorem test_readyAgain :
    let s := sChunk 0 4 []
    let t := after .describeWindowExpiry
      { s with link := { s.link with session := .hasBeenReady }, issuer := { Issuer.cold with table := [doneEntry, queuedEntry] } }
    t.link.state = .ready ∧ t.tx = .notice ⟨.link (.restored (some .fast)), 1⟩ ∧
    t.issuer.table = [doneEntry, { queuedEntry with state := .issued }] ∧ frameOnHinge t = some (hingeBytes 0x40 [2, 7]) := by
  decide +kernel
/-- A descriptor with a section of each type, one without any, one with a repeated and one with a bad section, one that is cut short. -/
theorem witness_IdentificationReadsTheDescriptor_sections :
    let found (d : List Byte) (t : Byte) : List (Option (List Byte)) := foundOf (sectionsOf (d.drop 3)) t
    (let d : List Byte := [0x5A, 1, 30, 1, 7, 1, 2, 3, 4, 5, 6, 7, 2, 2, 40, 1, 3, 2, 0x10, 0x13, 4, 1, 0x10, 5, 2, 5, 7, 0]
     found d 1 = [some [1, 2, 3, 4, 5, 6, 7]] ∧ found d 2 = [some [40, 1]] ∧ found d 3 = [some [0x10, 0x13]] ∧ found d 4 = [some [0x10]] ∧
     found d 5 = [some [5, 7]]) ∧
    (∀ t, found [0x5A, 1, 3] t = []) ∧ (found [0x5A, 1, 9, 2, 2, 41, 0, 2, 1, 0] 2).length = 2 ∧
    (found [0x5A, 1, 5, 5, 2, 6, 0] 5 = [some [6, 0]] ∧ found [0x5A, 1, 5, 5, 2, 6] 5 = [none] ∧ found [0x5A, 1, 4, 3] 3 = [none]) ∧
    ((1 : Byte) ≠ 0#8 ∧ ([] : List Byte).length < (1#8 : Byte).toNat) := by
  refine ⟨by decide +kernel, fun t => rfl, by decide +kernel, by decide +kernel, by decide⟩
theorem witness_RunningLinkRestsAndChecks :
    let s := sTimers .ready (some .fast) 0
    let q : State := { s with link := { s.link with kaWindow := none } }
    let f : State := { s with pool := { s.pool with down := [bigFrame], hingeBusy := true } }
    let w : State := { s with link := { s.link with quietWaits := true } }
    (Running s ∧ s.sleep.expired = false ∧ s.link.quiet.isSome = true ∧ s.pool.down = [] ∧ s.link.kaWindow.isSome = true) ∧
    q.link.kaWindow = none ∧ (f.pool.down ≠ [] ∧ f.pool.hingeBusy = true) ∧ s.pool.hingeBusy = false ∧ s.link.quietWaits = false ∧
    (w.link.quietWaits = true ∧ w.pool.down = []) ∧
    (s.link.wake.isSome = true ∧ s.issuer.waiting = none ∧ ∀ e ∈ s.issuer.table, e.state ≠ .issued) ∧
    (let p : State := { s with issuer := { Issuer.cold with table := [queuedEntry] } }
     p.issuer.waiting = none ∧ (∃ e ∈ p.issuer.table, e.state = .queued) ∧ ∀ e ∈ p.issuer.table, e.state ≠ .issued) ∧
    (∃ e ∈ ({ s with issuer := { Issuer.cold with table := [entry .issued 0] } } : State).issuer.table, e.state = .issued) ∧
    ({ s with issuer := { Issuer.cold with waiting := some (2, 7) } } : State).issuer.waiting.isSome = true := by
  and_intros <;> decide
theorem witness_RejectEndsTheRequest :
    (let s := sTable [entry .issued 5, doneEntry] (some 0)
     Running s ∧ s.link.state = .ready ∧ entry .issued 5 ∈ s.issuer.table ∧ (entry .issued 5).target = (15#8 : Byte).toNat ∧
     (entry .issued 5).command = 1#8 ∧ s.issuer.window.isSome = true ∧ (s.issuer.table.map (fun e => (e.target, e.command))).Nodup) ∧
    (sTable [entry .issued 5] none).issuer.window = none ∧
    (∀ e ∈ (sTable [doneEntry] (some 0)).issuer.table, ¬ (e.state = .issued ∧ e.target = 15 ∧ e.command = 1#8)) := by
  and_intros <;> decide
theorem witness_AnswersEndTheRequest :
    (∀ n, n ∈ [0, 30, 31] →
      let s := sTable ([doneEntry] ++ entry .issued n :: []) (some 0)
      Running s ∧ s.sleep.expired = false ∧ s.issuer.table = [doneEntry] ++ entry .issued n :: [] ∧
      (∀ x ∈ [doneEntry] ++ [], x.state ≠ .issued ∧ ¬ (x.target = 15 ∧ x.command = 1#8)) ∧ (entry .issued n).target = (15#8 : Byte).toNat ∧
      s.issuer.window.isSome = true ∧ s.issuer.waiting = none ∧ s.link.state = .ready) ∧
    ((List.replicate 32 (0 : Byte)).length ≤ 32 ∧ 32 < (List.replicate 33 (0 : Byte)).length) ∧
    (sReady.pool.admitDown ⟨none, 0x40, .base, [15, 1], false, .issuer, []⟩).isSome = true ∧
    sFull.pool.admitDown ⟨none, 0x40, .base, [15, 1], false, .issuer, []⟩ = none := by
  refine ⟨?_, by decide +kernel, by decide +kernel, by decide +kernel⟩
  intro n h
  simp only [List.mem_cons, List.not_mem_nil, or_false] at h
  rcases h with rfl | rfl | rfl <;> (refine ⟨?_, ?_, ?_, ?_, ?_, ?_, ?_, ?_⟩ <;> decide)
/-- Another request that waits for its turn, before the answered one and after it, and a window that expires with the link down. -/
theorem witness_AnswersEndTheRequest_queued :
    (let s := sTable ([queuedEntry] ++ entry .issued 3 :: [doneEntry]) (some 0)
     Running s ∧ s.issuer.table = [queuedEntry] ++ entry .issued 3 :: [doneEntry] ∧
     (∀ x ∈ [queuedEntry] ++ [doneEntry], x.state ≠ .issued ∧ ¬ (x.target = 15 ∧ x.command = 1#8)) ∧ s.link.state.isUp = true) ∧
    (let s := sTable ([] ++ entry .issued 3 :: [queuedEntry]) (some 0)
     (∀ x ∈ [] ++ [queuedEntry], x.state ≠ .issued ∧ ¬ (x.target = 15 ∧ x.command = 1#8)) ∧
     (∀ x ∈ ([] : List ReqEntry), x.state ≠ .queued) ∧ s.issuer.waiting = none) ∧
    (sLink .training).link.state.isUp = false := by
  and_intros <;> decide
/-- The request that waited is offered when the one before it is rejected (R75, R78). -/
theorem test_rejectOffersTheNext :
    (after (.reject [15, 1] (crc8 [0x22, 2, 15, 1])) (sTable [entry .issued 0, queuedEntry] (some 5))).issuer.table =
      [⟨15, 1, [], .done, some .baseRefused, none, 0, some 20000⟩, { queuedEntry with state := .issued }] := by decide +kernel
/-- An answer with no window running, and one that names another entry than the ISSUED one (R81). -/
theorem witness_AnswersEndTheRequest_stray :
    (let s := sTable [entry .issued 0] none
     Running s ∧ s.issuer.window = none ∧ s.link.state = .ready) ∧
    (let s := sTable [entry .issued 0, queuedEntry] (some 0)
     ∀ e ∈ s.issuer.table, ¬ (e.state = .issued ∧ e.target = (2#8 : Byte).toNat ∧ e.command = 7#8)) ∧
    (Running (sLink .identifying) ∧ (sLink .identifying).issuer.window = none ∧ (sLink .identifying).link.state = .identifying) ∧
    ¬ (2#8 = 0xFF#8 ∧ 7#8 = 0x41#8) := by
  and_intros <;> decide
theorem test_strayAnswers :
    let s := sTable [entry .issued 0] none
    (after (.response [15, 1] (crc8 [0x20, 2, 15, 1])) s).issuer = { s.issuer with stray := 1#8 } ∧
    (after (.busyResponse [15, 1] (crc8 [0x21, 2, 15, 1])) s).issuer = { s.issuer with stray := 1#8 } := by decide +kernel
def sRun (l : LinkState) (n : Nat) : State := { sLink l with link := { (sLink l).link with damagedRun := n } }
theorem witness_OtherFramesAreCounted :
    (Running (sRun .ready 1) ∧ (sRun .ready 1).sleep.expired = false ∧ (sRun .ready 1).link.state = .ready ∧
        (sRun .ready 1).link.damagedRun < 2) ∧
    2 ≤ (sRun .ready 2).link.damagedRun ∧ (sRun .quiet 0).link.state = .quiet ∧ (sRun .identifying 0).link.state = .identifying ∧
    (sRun .training 0).link.state ∉ [.ready, .quiet, .identifying] ∧ [0xFF#8, 0x41#8, 0#8].take 2 = [0xFF#8, 0x41#8] ∧
    (0#8 : Byte) ≠ crc8 (0x30 :: BitVec.ofNat 8 ([] : List Byte).length :: []) := by
  and_intros <;> decide +kernel
theorem witness_OtherFramesAreCounted_quiet :
    (Running (sRun .quiet 1) ∧ (sRun .quiet 1).link.state = .quiet ∧ (sRun .quiet 1).link.damagedRun < 2 ∧
      2 ≤ (sRun .quiet 2).link.damagedRun ∧ (sRun .quiet 2).sleep.expired = false) ∧
    (1#8 : Byte) ≠ crc8 (0x21#8 :: BitVec.ofNat 8 ([] : List Byte).length :: []) ∧
    ¬ crc8 [0x30#8, 1, 9] ≠ crc8 (0x30#8 :: BitVec.ofNat 8 [9#8].length :: [9#8]) := by
  and_intros <;> decide +kernel
/-- READY with one entry for the base's keys. -/
def sKeys : State :=
  { sReady with route := { sReady.route with
      table := [⟨⟨true, .baseKeys, some 0x10, 0x7F#7, 3#2, none, .forward, .channel 15, 1, .dropDamaged⟩, 0, 0, 0⟩] } }
theorem witness_BaseTrafficIsRouted :
    (Running sKeys ∧ sKeys.store.state ≠ .starting ∧ sKeys.link.state = .ready ∧ (0x10#8 : Byte).toNat ∈ [0x10, 0x11, 0x12, 0x13] ∧
      sKeys.att.ident.mount = none ∧ sKeys.att.ident.declared.contains 0x10#8 = true ∧ sKeys.att.ident.declared.contains 0x12#8 = false) ∧
    (∀ e ∈ sKeys.route.table, routeMatches .basePointer 0x11 sKeys e = false) ∧
    (∃ e, sKeys.route.table[0]? = some e ∧ routeMatches .baseKeys 0x10 sKeys e = true ∧ e.fields.keepN ≤ e.phase + 1 ∧
      e.fields.action = .forward ∧ ∀ j e', j < 0 → sKeys.route.table[j]? = some e' → routeMatches .baseKeys 0x10 sKeys e' = false) ∧
    (sKeys.pool.admitUp ⟨some .baseKeys, 0x10, .channel 15, [], false, .routed, []⟩).isSome = true ∧
    (let full : Frame := { bigFrame with slots := List.range 72 }
     ({ sKeys.pool with up := [full] } : Pool).admitUp ⟨some .baseKeys, 0x10, .channel 15, [], false, .routed, []⟩ = none) := by
  refine ⟨by and_intros <;> decide +kernel, by decide +kernel, ⟨_, rfl, by decide, by decide, by decide, fun j _ h => absurd h (Nat.not_lt_zero j)⟩,
    by decide +kernel, by decide +kernel⟩
/-- A link in a state, with one entry for the base's keys. -/
def sKeysDo (l : LinkState) (n phase : Nat) (a : RouteAction) (d : DamagePolicy) : State :=
  { sLink l with
    att := { (sLink l).att with ident := { (sLink l).att.ident with declared := [0x10, 0x12], wakeKinds := [0x10] } }
    route := { sReady.route with
      table := [⟨⟨true, .baseKeys, some 0x10, 0x7F#7, 3#2, none, a, .channel 15, n, d⟩, phase, 0, 0⟩] } }
theorem witness_BaseTrafficIsRouted_actions :
    ∀ (l : LinkState) (n phase : Nat) (a : RouteAction) (d : DamagePolicy), l ∈ [.ready, .quiet] →
        (n, phase) ∈ [(1, 0), (16, 14), (16, 15)] →
      let s := sKeysDo l n phase a d
      Running s ∧ s.sleep.expired = false ∧ s.store.state ≠ .starting ∧ s.link.state = l ∧ 0x10#8 ∈ s.att.ident.wakeKinds ∧
      0x11#8 ∉ s.att.ident.wakeKinds ∧ 0x10#8 ∈ s.att.ident.declared ∧
      ∃ e, s.route.table[0]? = some e ∧ routeMatches .baseKeys 0x10 s e = true ∧ e.fields.damage = d ∧ e.fields.action = a ∧
        (e.phase + 1 < e.fields.keepN ∨ e.fields.keepN ≤ e.phase + 1) := by
  intro l n phase a d hl hn
  simp only [List.mem_cons, Prod.mk.injEq, List.not_mem_nil, or_false] at hl hn
  rcases hl with rfl | rfl <;> rcases hn with ⟨rfl, rfl⟩ | ⟨rfl, rfl⟩ | ⟨rfl, rfl⟩ <;> cases a <;> cases d <;>
    exact ⟨by decide, rfl, by decide, rfl, by decide, by decide, by decide, _, rfl, by decide, rfl, rfl, by decide⟩
theorem witness_BaseTrafficIsRouted_others :
    (let s := sKeysDo .identifying 1 0 .forward .passMarked
     Running s ∧ s.link.state = .identifying ∧ s.link.state ∉ [.ready, .quiet]) ∧
    (let s : State := { sLink .ready with store := Store.cold }
     Running s ∧ s.store.state = .starting ∧ s.link.state = .ready) ∧
    (∀ n, n ∈ [1, 2] →
      let s : State := { sKeysDo .ready 1 0 .forward .passMarked with link := { sReady.link with damagedRun := n } }
      Running s ∧ s.sleep.expired = false ∧ (decide (2 ≤ s.link.damagedRun) = decide (n = 2))) ∧
    (sLink .training).link.state ∉ [.identifying, .ready, .quiet] ∧ 64 < (List.replicate 65 (0 : Byte)).length ∧
    (0#8 : Byte) ≠ crc8 (0x10 :: BitVec.ofNat 8 ([] : List Byte).length :: []) := by
  refine ⟨by decide, by decide, fun n h => ?_, by decide, by decide, by decide +kernel⟩
  simp only [List.mem_cons, List.not_mem_nil, or_false] at h
  rcases h with rfl | rfl <;> decide
theorem witness_SentFramesLeaveTheQueue :
    (Running (sSending none []) ∧ (sSending none []).pool.hingeBusy = true ∧ (sSending none []).pool.down = bigFrame :: [] ∧
      (sSending none []).issuer.waiting = none) ∧
    (let s := sSending (some (15, 1)) ([doneEntry] ++ entry .queued 0 :: [])
     s.issuer.waiting = some ((entry .queued 0).target, (entry .queued 0).command) ∧
     (∀ x ∈ [doneEntry] ++ [], ¬ (x.target = (entry .queued 0).target ∧ x.command = (entry .queued 0).command)) ∧
     (({ s.pool with down := [], hingeBusy := false } : Pool).admitDown ⟨none, 0x40, .base, [15, 1], false, .issuer, []⟩).isSome = true) ∧
    ({ sFull.pool with down := [bigFrame], hingeBusy := false } : Pool).admitDown ⟨none, 0x40, .base, [15, 1], false, .issuer, []⟩ = none ∧
    sReady.pool.hingeBusy = false ∧
    (doneEntry ∈ (sTable [doneEntry] none).issuer.table ∧ doneEntry.state = .done ∧ doneEntry.discard.isSome = true) := by
  and_intros <;> decide +kernel
def sHinge (last : Option Nat) (count : Option Nat) (resync : Bool) : State :=
  { sReady with posture := { sReady.posture with lastCode := last, count := count, resync := resync, settle := some 0 } }
theorem witness_EncoderCountsTheHinge :
    (Running sIdle ∧ sIdle.att.present = false) ∧
    (Running sReady ∧ sReady.att.present = true ∧ (7#3 : BitVec 3) ≠ sReady.pins.code ∧ sReady.pins.lidClosed = false) ∧
    (∀ pos, pos < 6 → ∃ code, codePosition code = some pos) ∧
    ((sHinge none none false).posture.lastCode = none ∧ (sHinge (some 0) none true).posture.resync = true) ∧
    (let s := sHinge (some 0) (some 179) false
     s.posture.lastCode = some 0 ∧ s.posture.resync = false ∧ s.posture.count = some 179 ∧
         ((1 + 6 - 0) % 6, (1 : Int)) ∈ [(1, 1), (2, 2), (4, -2), (5, -1)] ∧
     (179 : Int) + 1 = (180 : Nat) ∧ 180 < (179 : Int) + 2 ∧ s.pins.foldFlat = false) ∧
    ((1 : Int) + (-2) < 0 ∧ (1 : Int) + (-1) = (0 : Nat)) ∧
    ({ sReady with pins := { sReady.pins with lidClosed := true } } : State).pins.lidClosed = true ∧
    ({ sReady with pins := { sReady.pins with foldFlat := true } } : State).pins.foldFlat = true ∧
    ((sHinge none none false).posture.settle.isSome = true ∧ (sHinge none none false).posture.count = none) ∧
    (let s := sHinge (some 0) (some 95) false
     ∃ w, s.posture.window = none ∧ s.posture.windows[0]? = some w ∧ w.lower ≤ 95 ∧ 95 ≤ w.upper ∧ w.cond = .any ∧
       ∀ j v, j < 0 → s.posture.windows[j]? = some v → v.lower ≤ 95 → 95 ≤ v.upper → False) := by
  refine ⟨by decide, by decide, ?_, by decide, by decide, by decide, rfl, rfl, by decide,
    ⟨_, rfl, rfl, by decide, by decide, rfl, fun j _ h => absurd h (Nat.not_lt_zero j)⟩⟩
  intro pos h
  match pos, h with
  | 0, _ => exact ⟨0b100#3, by decide⟩
  | 1, _ => exact ⟨0b110#3, by decide⟩
  | 2, _ => exact ⟨0b010#3, by decide⟩
  | 3, _ => exact ⟨0b011#3, by decide⟩
  | 4, _ => exact ⟨0b001#3, by decide⟩
  | 5, _ => exact ⟨0b101#3, by decide⟩
/-- The window in force is kept at the ends of its widened range, and left one count beyond; below the lowest window none is chosen. -/
theorem witness_EncoderCountsTheHinge_windows :
    let s (n : Nat) (w : Option Nat) (p : Posture) : State :=
      { sHinge (some 0) (some n) false with posture := { (sHinge (some 0) (some n) false).posture with window := w, posture := p } }
    let takes (w : Window) (n widen : Nat) : Prop := w.lower ≤ w.upper ∧ w.lower ≤ n + widen ∧ n ≤ w.upper + widen
    (Running (s 97 (some 0) .laptop) ∧ (s 97 (some 0) .laptop).posture.settle.isSome = true ∧
      (s 97 (some 0) .laptop).att.present = true ∧ (s 97 (some 0) .laptop).pins.lidClosed = false) ∧
    (∃ w, factoryWindows[0]? = some w ∧ takes w 97 w.hysteresis ∧ takes w 3 w.hysteresis ∧ ¬ takes w 98 w.hysteresis ∧ w.cond = .any) ∧
    (∃ w, factoryWindows[1]? = some w ∧ takes w 98 0 ∧ w.cond = .upright ∧ (s 98 (some 0) .laptop).orient.candidate = .landscape) ∧
    ((s 4 none .laptop).posture.windows = factoryWindows ∧ ∀ w ∈ factoryWindows, ¬ takes w 4 0) ∧
    ((s 4 none .stand).posture.posture ∈ [.laptop, .stand, .tent, .tablet] ∧
      (s 4 none .unknown).posture.posture ∉ [.laptop, .stand, .tent, .tablet]) := by
  refine ⟨by decide, ⟨_, rfl, by decide, by decide, by decide, rfl⟩, ⟨_, rfl, by decide, rfl, rfl⟩, ⟨rfl, by decide⟩, by decide⟩
theorem witness_EncoderCountsTheHinge_settled :
    let s : State := { sIdle with posture := { sIdle.posture with settle := some 0 } }
    let c : State := { sHinge none (some 0) false with pins := { sReady.pins with lidClosed := true } }
    (Running s ∧ s.posture.settle.isSome = true ∧ s.att.present = false) ∧
    (Running c ∧ c.posture.settle.isSome = true ∧ c.att.present = true ∧ c.pins.lidClosed = true) := by decide
theorem witness_SwitchesReferenceTheHinge :
    (Running sClosed ∧ sClosed.pins.lidClosed = true ∧ sClosed.att.present = true ∧ sClosed.pins.foldFlat = false) ∧
    (Running sReady ∧ sReady.pins.lidClosed = false ∧ sReady.pins.foldFlat = false ∧ sReady.att.present = true) ∧
    (Running sIdle ∧ sIdle.att.present = false ∧ sIdle.pins.lidClosed = false) ∧
    ({ sReady with pins := { sReady.pins with foldFlat := true } } : State).pins.foldFlat = true ∧
    (∃ n, (sHinge (some 0) (some 5) false).posture.count = some n ∧ (0 + 4 < n ∨ n + 4 < 0)) ∧
    ({ sIdle with pins := { sIdle.pins with lidClosed := true } } : State).pins.lidClosed = true := by
  refine ⟨by decide, by decide, by decide, rfl, ⟨5, rfl, by decide⟩, rfl⟩
/-- Both units still for 400 ms at right angles, the check not yet made. -/
def sStill (count : Option Nat) : State :=
  { sReady with
    now := 10000
    att := { sReady.att with ident := { sReady.att.ident with mount := some ⟨5, 7⟩, wakeKinds := [0x12] } }
    posture := { sReady.posture with
      count := count, lidRun := some ⟨5000, 9000, 0, 1000, 0⟩, baseRun := some ⟨6000, 8000, 0, 0, 1000⟩, checked := false } }
theorem witness_SwitchesReferenceTheHinge_gravity :
    let s := sStill (some 90)
    (Running s ∧ s.store.state ≠ .starting ∧ s.link.state = .ready ∧ s.att.ident.mount = some ⟨5, 7⟩ ∧ s.posture.checked = false ∧
      s.posture.moving = false ∧ s.pins.lidClosed = false ∧ s.pins.foldFlat = false) ∧
    (let lid : Run := ⟨5000, 10000, 0, 1000, 0⟩
     let base : Run := ⟨6000, 8000, 0, 0, 1000⟩
     lid.first + 4000 ≤ lid.last ∧ base.first + 4000 ≤ base.last + 2000 ∧ lid.last ≤ base.last + 2000 ∧
     (lid.x.natAbs ≤ 800 ∧ 100 ≤ lid.y.natAbs) ∧ (base.x.natAbs ≤ 800 ∧ 100 ≤ base.z.natAbs) ∧ gravityCount lid base = 135) ∧
    ((sReady.posture.lidRun = none ∧ sReady.posture.baseRun = none) ∧ (sStill none).posture.count = none ∧
      ∃ n, (sStill (some 131)).posture.count = some n ∧ n ≤ 135 + 4 ∧ 135 ≤ n + 4) ∧
    (let r : Run := ⟨5000, 9000, 0, 1000, 0⟩
     s.now ≤ r.last + 2000 ∧ ((1040 : Int) - r.y).natAbs ≤ 40 ∧ ¬ ((1041 : Int) - r.y).natAbs ≤ 40) := by
  refine ⟨by decide, by decide +kernel, ⟨by decide, rfl, 131, rfl, by decide⟩, by decide⟩
/-- A lid sample that completes the stillness gives the count from gravity, and the frame of a base sample does (R97, R98). -/
theorem test_gravity_references :
    let s : State := { sStill none with posture := { (sStill none).posture with baseRun := some ⟨4000, 9000, 0, 0, 1000⟩ } }
    (after (.lidMotion 0 1000 0 false) s).posture.count = some 135 ∧
        (after (.lidMotion 0 1000 0 false) s).posture.refSource = some .gravity := by
  decide +kernel
/-- A fold-flat switch far from the count tells its slip and evaluates; the lid's two events tell their postures (R93, R95, R104). -/
theorem test_switches_told :
    let s : State := { sReady with posture := { sReady.posture with windows := factoryWindows } }
    let t := foldFlatAsserts s
    t.mgmt.notices.encoder = some ⟨.encoderSlip .flatSwitch 50 180, 1⟩ ∧ t.posture.posture = .tablet ∧
    t.mgmt.notices.posture = some ⟨.posture .tablet .laptop (some 180) false, 1⟩ ∧
    (lidAsserts s).mgmt.notices.posture = some ⟨.posture .closed .laptop (some 0) false, 1⟩ ∧
    (lidReleases sClosed).mgmt.notices.posture = some ⟨.posture .unknown .closed (some 0) true, 1⟩ := by decide +kernel
theorem witness_SamplesChooseTheCandidate :
    (let s : State := { sIdle with poller := { sIdle.poller with period := some 0 } }
     Running s ∧ s.poller.period.isSome = true ∧ s.store.state ≠ .starting) ∧
    (850 < (851#16 : Word16).toInt.natAbs ∧ (850#16 : Word16).toInt.natAbs ≤ 850 ∧ (199#16 : Word16).toInt.natAbs < 200 ∧
      (0#16 : Word16).toInt = 0 ∧ 200 ≤ (200#16 : Word16).toInt.natAbs) ∧
    (sIdle.orient.candidate = sIdle.orient.current ∧ (sLocked 0 .portrait).orient.lock.isSome = true) ∧
    (let s : State := { sIdle with orient := { sIdle.orient with candidate := .portrait } }
     Running s ∧ s.orient.candidate ≠ s.orient.current ∧ s.orient.lock = none) := by
  and_intros <;> decide
/-- The ends of PORTRAIT's widened range, 35° and 145°, and samples beyond them (R114). -/
theorem witness_SamplesChooseTheCandidate_widened :
    (18 ≤ halfAngle 819 574 ∧ halfAngle 819 574 ≤ 72) ∧ halfAngle 829 559 < 18 ∧ halfAngle (-819) 574 ≤ 72 ∧ 72 < halfAngle (-829) 559 ∧
    200 ≤ (574#16 : Word16).toInt.natAbs := by
  and_intros <;> decide +kernel
/-- SETTLED at count 130 in a window that wants LANDSCAPE, the lid turned over. -/
def sTurnedOver (moving : Bool) : State :=
  { sReady with posture := { sReady.posture with
      windows := factoryWindows, posture := .stand, moving := moving, count := some 130
      window := factoryWindows.findIdx? (fun w => windowTakes w 0 130 .landscape) } }
theorem witness_SamplesChooseTheCandidate_evaluates :
    let u (m : Bool) := orientSample 0 1000 0 (sTurnedOver m)
    (Running (sTurnedOver false) ∧ (sTurnedOver false).store.state ≠ .starting ∧ (sTurnedOver false).posture.moving = false ∧
      (sTurnedOver false).posture.baseRun = none ∧ (u false).orient.candidate ≠ (sTurnedOver false).orient.candidate) ∧
    (sTurnedOver true).posture.moving = true ∧
    (orientSample 0 0 1000 (sTurnedOver false)).orient.candidate = (sTurnedOver false).orient.candidate := by
  and_intros <;> decide +kernel
/-- STAND turned over is TENT in the same change, and told; while MOVING the posture waits (R102, R114). -/
theorem test_turnedOver :
    (sTurnedOver false).posture.window.isSome = true ∧ (orientSample 0 1000 0 (sTurnedOver false)).posture.posture = .tent ∧
    (orientSample 0 1000 0 (sTurnedOver false)).policy.events = [.postureChanged .stand .tent] ∧
    (orientSample 0 1000 0 (sTurnedOver true)).posture = (sTurnedOver true).posture := by decide +kernel
/-- An alarm of the rail or of the coil, filtered or about to be. -/
def sAlarm (a : Alarm) (mode : OcMode) (l : PenLevel) : State :=
  { sPen .charging l with
    att := sReady.att
    guard := { Guard.cold with
      baseGrant := 500, railOn := true, coilOn := true, penGrant := some l, claimed := some l, mode := mode, alarms := ⟨a, a, a, a, Alarm.coldOt⟩ } }
theorem witness_AlarmsAreDetectedAndProtected :
    (let s := sAlarm Alarm.cold .limit .fast
     Running s ∧ s.guard.railOn = true ∧ s.guard.coilOn = true ∧ s.guard.alarms.railOc.raw = false ∧
         0 < [0, 2, 10, 40].getD s.guard.alarms.railOc.choice 0) ∧
    (sIdle.guard.railOn = false ∧ (sAlarm { Alarm.cold with raw := true } .limit .fast).guard.alarms.coilUv.raw = true) ∧
    (let s := sAlarm { Alarm.cold with choice := 0 } .limit .fast
     [0, 5, 20, 80].getD s.guard.alarms.coilUv.choice 0 = 0 ∧ s.guard.alarms.coilUv.raw = false) ∧
    (let s := sAlarm { Alarm.cold with filter := some 0, enabled := false } .limit .fast
     s.guard.alarms.railUv.filter.isSome = true ∧ s.guard.alarms.railUv.enabled = false) ∧
    (∀ m l, (m, l) ∈ [(OcMode.stop, PenLevel.fast), (.limit, .trickle), (.limit, .steady), (.limit, .fast)] →
      let s := sAlarm { Alarm.cold with raw := true, filter := some 0 } m l
      Running s ∧ s.guard.alarms.coilOc.filter.isSome = true ∧ s.guard.alarms.coilOc.enabled = true ∧
      s.pen.session ∈ [.detect, .softStart, .charging, .topped] ∧ s.guard.claimed = some l ∧
      s.guard.baseGrant + levelMw l ≤ s.guard.budget ∧ s.pen.session ≠ .paused ∧
      (s.guard.mode = .stop ∨ s.guard.penGrant ∉ [some .fast, some .steady] ∨ s.guard.mode = .limit ∧ s.guard.penGrant = some l)) := by
  refine ⟨by decide, by decide, by decide, by decide, ?_⟩
  intro m l h
  simp only [List.mem_cons, Prod.mk.injEq, List.not_mem_nil, or_false] at h
  rcases h with ⟨rfl, rfl⟩ | ⟨rfl, rfl⟩ | ⟨rfl, rfl⟩ | ⟨rfl, rfl⟩ <;> decide
/-- A link that diagnoses while its rail is at fault, and one whose grant a lowered budget cuts: both end the diagnosis (R61, R62, R68). -/
def sDiagAlarm : State :=
  { sDiag ⟨.ready, some .good, none, none, none, false, none⟩ with
    guard := (sAlarm { Alarm.cold with raw := true, filter := some 0 } .stop .fast).guard }
theorem witness_LinkEnded :
    (Running sDiagAlarm ∧ sDiagAlarm.guard.alarms.railOc.filter.isSome = true ∧ sDiagAlarm.guard.alarms.railOc.enabled = true ∧
      sDiagAlarm.mgmt.enables.attach = true ∧ sDiagAlarm.link.state = .diagnosing) ∧
    (Attentive sDiagAlarm ∧ (⟨450, 0, 0, 0⟩ : Profiles).get 0 < sDiagAlarm.guard.baseGrant ∧
      sDiagAlarm.guard.baseGrant ≤ sDiagAlarm.guard.budget) := by
  and_intros <;> decide
theorem test_diagnosis_ended_early :
    (after (.filterTimerExpiry .railOc) sDiagAlarm).att.diagnosis = some ⟨.ready, some .good, none, none, none, false, some .faulted⟩ ∧
    (after (.budgetSet ⟨none, some 450, none, none, none⟩) sDiagAlarm).att.diagnosis =
      some ⟨.ready, some .good, none, none, none, false, some .unpowered⟩ ∧
    (after .detach sDiagAlarm).att.diagnosis = some ⟨.ready, some .good, none, none, none, false, some .detach⟩ := by decide +kernel
def sHot : State := { sIdle with guard := { Guard.cold with alarms := { Guard.cold.alarms with dieOt := { Alarm.coldOt with raw := true, detected := true, sticky := true } } } }
theorem witness_OverTemperatureStopsTheOutputs :
    (Running sHot ∧ sHot.guard.alarms.dieOt.raw = true) ∧
    (Running sReady ∧ sReady.guard.alarms.dieOt.raw = false ∧ sReady.store.state ≠ .starting ∧ sReady.guard.alarms.dieOt.mask = false ∧
      sReady.mgmt.enables.alarm = true) ∧
    (Running State.reset ∧ State.reset.store.state = .starting ∧ State.reset.guard.alarms.dieOt.raw = false) := by
  and_intros <;> decide
def sDock (hold : Option ClaimSource) (profile : Nat) (latched : Bool) : State :=
  { sIdle with
    pins := { sIdle.pins with dock := true }
    pen := { Charger.cold with debounce := some 0, hold := hold }
    guard := { Guard.cold with active := profile, alarms := { Guard.cold.alarms with coilUv := { Alarm.cold with latch := latched } } } }
theorem witness_DockOpensAndEndsASession :
    (Running (sDock none 0 false) ∧ (sDock none 0 false).pins.dock = true ∧ (sDock none 0 false).pen.debounce.isSome = true ∧
      (sDock none 0 false).pen.session = .noPen ∧ coilLatched (sDock none 0 false) = false ∧ (sDock none 0 false).pen.hold = none ∧
      levelMw .trickle + (sDock none 0 false).guard.baseGrant ≤ (sDock none 0 false).guard.budget) ∧
    coilLatched (sDock none 0 true) = true ∧ (sDock (some .policy) 0 false).pen.hold.isSome = true ∧
    (sDock none 3 false).guard.budget < levelMw .trickle + (sDock none 3 false).guard.baseGrant ∧
    (sIdle.pins.dock = false ∧ sIdle.store.state ≠ .starting ∧ sIdle.pen.session = .noPen) ∧
    (State.reset.pins.dock = false ∧ State.reset.store.state = .starting ∧ Running State.reset) ∧
    (let s := sPen .charging .fast
     Running s ∧ s.pins.dock = true ∧ s.pen.session ≠ .noPen) := by
  and_intros <;> decide
/-- A pen session in a state with the coil on and every timer running, under a policy table without entries. -/
def sStatus (p : PenState) (docked : Bool) : State :=
  { sPen p .trickle with
    pen := { Charger.cold with session := p, docked := docked, detect := some 0, ramp := some 0, silence := some 0 }
    policy := { Policy.cold with table := [] } }
theorem witness_StatusesMoveTheSession :
    (∀ p, p ∈ [PenState.noPen, .detect, .softStart, .charging, .topped] →
      let s := sStatus p false
      Running s ∧ s.store.state ≠ .starting ∧ (∀ e ∈ s.policy.table, e.valid = true → e.event ≠ .penDocked ∧ e.event ≠ .chargeDone) ∧
      s.pen.session = p ∧ s.pen.detect.isSome = true ∧ s.pen.ramp.isSome = true ∧ s.pen.silence.isSome = true ∧ s.guard.coilOn = true ∧
      s.pen.hold = none ∧ s.guard.cap = none ∧ levelMw s.pen.requested + s.guard.baseGrant ≤ s.guard.budget) ∧
    OutputsFollow (sStatus .softStart true) ∧ (sStatus .detect true).pen.docked = true ∧
    (100 < (101#8 : Byte).toNat ∧ (100#8 : Byte).toNat ≤ 100 ∧ (92#8 : Byte).toNat ≤ 92 ∧ 92 < (93#8 : Byte).toNat) ∧
    ((0#8 : Byte).getLsbD 0 = false ∧ (1#8 : Byte).getLsbD 0 = true ∧ (2#8 : Byte).getLsbD 1 = true) := by
  refine ⟨?_, by decide, by decide, by decide, by decide⟩
  intro p h
  simp only [List.mem_cons, List.not_mem_nil, or_false] at h
  rcases h with rfl | rfl | rfl | rfl | rfl <;> (refine ⟨?_, ?_, ?_, ?_, ?_, ?_, ?_, ?_, ?_, ?_, ?_⟩ <;> decide)
/-- A first answer in DETECT, full or not, under a hold, under a cap and without room (R151, R156, R158). -/
def sAnswer (hold : Option ClaimSource) (cap : Option PenLevel) (mw : Nat) : State :=
  let s := sBudget mw (sStatus .detect false)
  { s with pen := { s.pen with hold := hold }, guard := { s.guard with cap := cap } }
theorem witness_StatusesMoveTheSession_answers :
    (∀ hold cap mw, let s := sAnswer hold cap mw
      Running s ∧ s.store.state ≠ .starting ∧ s.pen.session = .detect ∧ s.pen.detect.isSome = true ∧ s.pen.docked = false ∧
      s.pen.hold = hold ∧ s.guard.cap = cap ∧ s.guard.budget = mw) ∧
    highestFit { (sAnswer none (some .steady) 2500).guard with claimed := none } 0 .fast = some .steady ∧
    highestFit (sAnswer none none 149).guard 0 .fast = none ∧ sReady.pen.session = .noPen ∧
    (∀ p, p ∈ [PenState.foreign, .paused, .held, .fault] → (sStatus p true).pen.session = p) := by
  refine ⟨fun _ _ _ => ⟨⟨rfl, rfl⟩, fun h => StoreState.noConfusion h, rfl, rfl, rfl, rfl, rfl, rfl⟩, by decide, by decide, rfl, fun _ _ => rfl⟩
/-- The events of an answer, and where the session goes. -/
theorem test_answers :
    let answer (hold : Option ClaimSource) (cap : Option PenLevel) (mw : Nat) (r : Byte) :=
      let t := penStatusTap [50, 0, r] (sAnswer hold cap mw)
      (t.pen.session, t.guard.penGrant, t.policy.events)
    answer none none 2500 0 = (.softStart, some .steady, [.penDocked]) ∧ answer none (some .trickle) 2500 0 = (.softStart, some .trickle, [.penDocked]) ∧
    answer none none 149 0 = (.paused, none, [.penDocked]) ∧ answer (some .request) none 2500 0 = (.held, none, [.penDocked]) ∧
    answer none none 2500 1 = (.topped, some .trickle, [.penDocked, .chargeDone]) ∧ answer none none 2500 2 = (.fault, none, [.penDocked]) := by
  decide +kernel
/-- A change of session is told with what R147 names, and the indicator input follows it. -/
theorem test_session_told :
    let t := penStatusTap [50, 0, 0] (sAnswer none none 2500)
    t.mgmt.notices.charge = some ⟨.charge .softStart .detect none true (some .steady) (some 50), 1⟩ ∧
    t.policy.inputs.charge = chargeLevelOn .softStart ∧
    t.mgmt.notices.budget = some ⟨.budget 0 2500 0 (some .steady) (some .steady) none .penClaim, 1⟩ := by decide +kernel
def sSleep (h : HoldSet) (pulses : Nat) : State :=
  { sIdle with sleep := { Sleep.cold with
      grace := some 0, confirm := some 0, wakeWindow := some 0, pulse := some 0, holds := h, pulses := pulses } }
theorem witness_SleepAndIndicatorTimersRun :
    (let s := sSleep HoldSet.empty 3
     Running s ∧ s.sleep.grace.isSome = true ∧ s.sleep.holds = ⟨false, false, false, false, false⟩ ∧ s.sleep.confirm.isSome = true ∧
     s.sleep.pulse.isSome = true ∧ s.sleep.wakeWindow.isSome = true ∧ s.sleep.pulses < 4) ∧
    (sSleep ⟨false, false, false, false, true⟩ 4).sleep.holds ≠ ⟨false, false, false, false, false⟩ ∧
    4 ≤ (sSleep ⟨false, false, false, false, true⟩ 4).sleep.pulses := by
  and_intros <;> decide

theorem witness_SleepAndIndicatorTimersRun_claims :
    let held : HoldSet := ⟨false, false, false, false, true⟩
    let zero (h : HoldSet) : State := { sIdle with sleep := { Sleep.cold with graceTime := 0, holds := h } }
    let grace (h : HoldSet) : State := { sIdle with sleep := { Sleep.cold with power := .grace, expired := true, holds := h } }
    (Running sIdle ∧ sIdle.sleep.power = .awake ∧ sIdle.sleep.graceTime ≠ 0) ∧
    ((zero HoldSet.empty).sleep.holds = ⟨false, false, false, false, false⟩ ∧
        (zero held).sleep.holds ≠ ⟨false, false, false, false, false⟩) ∧
    (∀ p : Power, Running (sPower p) ∧ (sPower p).sleep.power = p) ∧
    (∀ r : Holdoff,
      let h := HoldSet.empty.put r true
      h.has r = true ∧ h.put r false = ⟨false, false, false, false, false⟩ ∧ (grace h).sleep.power = .grace ∧
          (grace h).sleep.expired = true) ∧
    (let s : State := { grace ⟨false, false, true, false, false⟩ with store :=
       { sIdle.store with state := .erasing, exchange := some (.writePage 0 (List.replicate 32 0xFF)) } }
     s.store.state = .erasing ∧ s.store.exchange.isSome = true ∧ s.mgmt.restart = .none ∧
     s.sleep.holds = { (⟨false, false, false, false, false⟩ : HoldSet) with storeBusy := true }) := by
  refine ⟨by decide, by decide, fun p => ⟨⟨rfl, rfl⟩, rfl⟩, fun r => by cases r <;> decide, by decide⟩
/-- A seventh kind of reason sets the overflow mark, a known one counts (R182). -/
theorem test_reasons_overflow :
    let six := [WakeKind.event .lidOpened, .event .penDocked, .event .penRemoved, .event .chargeDone, .event .supplyAlarm, .frame .uplink]
    let s : State := { sPower .waking with sleep := { (sPower .waking).sleep with reasons := six.map (fun k => ⟨k, 255, 0⟩) } }
    (wakeClaim (.frame .baseKeys) s).sleep.overflow = true ∧ (wakeClaim (.frame .uplink) s).sleep.reasons = s.sleep.reasons := by decide
end Sys2Proof.Tests
end

/-! PROOFS. The too-long check of the route engine (R23), and the commands that bring a frame to it. -/
namespace Sys2Proof.Machine

/-! ## Source counters -/

/-- What is written for a source is read back. -/
@[simp] theorem PerSource.get_set_same {α : Type} (p : PerSource α) (src : Source) (a : α) : (p.set src a).get src = a := by
  cases src <;> rfl

/-- Of two writes for one source the later stands. -/
@[simp] theorem PerSource.set_set_same {α : Type} (p : PerSource α) (src : Source) (a b : α) :
    (p.set src a).set src b = p.set src b := by
  cases src <;> rfl

/-- Two changes of one source's counters are one. -/
theorem changeIngress_changeIngress (src : Source) (f g : Ingress → Ingress) (s : State) :
    changeIngress src g (changeIngress src f s) = changeIngress src (fun c => g (f c)) s := by
  simp [changeIngress]

/-! ## The too-long check (R21, R23) -/

/-- A frame counted as received and as too long. -/
def countTooLong (src : Source) (s : State) : State :=
  changeIngress src (fun c => { c with received := c.received + 1#16, tooLong := satInc c.tooLong }) s

/-- After start-up a too-long frame moves its two counters alone, damaged or not: neither the tap nor a later check comes to it. -/
theorem routeFrame_tooLong (src : Source) (kind : Byte) (payload : List Byte) (damaged : Bool) (s : State)
    (hstore : s.store.state ≠ .starting) (hlong : 64 < payload.length) :
    routeFrame src kind payload damaged s = countTooLong src s := by
  rw [routeFrame, if_neg hstore]
  simp only [if_pos hlong, changeIngress_changeIngress]
  rfl

/-! ## The commands that bring a frame to the route engine -/

/-- A parcel that comes while none is being received is handed on, and the receiver is IDLE (R5). -/
theorem parcelArrives_handsOn (kind tag : Byte) (payload : List Byte) (s : State) (hrx : s.rx.mode ≠ .receiving) :
    parcelArrives kind tag payload s = handOn kind tag payload { s with rx := ⟨.idle, []⟩ } := by
  unfold parcelArrives
  cases hmode : s.rx.mode with
  | receiving => exact absurd hmode hrx
  | idle => rfl
  | hunting => rfl

/-- A data parcel with Tag and kind in range is an UPLINK frame (R7). -/
theorem handOn_data (tag kind : Byte) (rest : List Byte) (s : State) (htag : 1 ≤ tag.toNat ∧ tag.toNat ≤ 15)
    (hkind : 0x50 ≤ kind.toNat ∧ kind.toNat ≤ 0x7F) :
    handOn 0x01#8 tag (kind :: rest) s = routeFrame .uplink kind rest false s := by
  rw [handOn, if_pos rfl, dataHandedOn, if_pos ⟨htag.1, htag.2, hkind.1, hkind.2⟩]

/-- In IDENTIFYING a frame of base traffic goes to the route engine as it is (R48). -/
theorem trafficArrives_identifying (kind : Byte) (payload : List Byte) (check : Byte) (s : State)
    (hlink : s.link.state = .identifying) :
    trafficArrives kind payload check s =
      routeFrame (sourceOfKind kind) kind payload (isDamaged kind payload check) s := by
  simp only [trafficArrives, hlink]

/-- A data parcel for the route engine, as a command (R7). -/
theorem exec_dataParcel_routes (tag kind : Byte) (rest : List Byte) (s : State) (hrun : Running s) (hrx : s.rx.mode ≠ .receiving)
    (htag : 1 ≤ tag.toNat ∧ tag.toNat ≤ 15) (hkind : 0x50 ≤ kind.toNat ∧ kind.toNat ≤ 0x7F) :
    exec (.dataParcel tag (kind :: rest)) s =
      .next (finish (routeFrame .uplink kind rest false { s with rx := ⟨.idle, []⟩ })) := by
  rw [exec, execDataParcel, answer, run_of _ _ hrun.1, parcelArrives_handsOn _ _ _ _ hrx, handOn_data _ _ _ _ htag hkind]

/-- A frame of base traffic in IDENTIFYING, as a command (R48). -/
theorem exec_baseTrafficFrame_identifying (kind : Byte) (payload : List Byte) (check : Byte) (s : State) (hrun : Running s)
    (hlink : s.link.state = .identifying) :
    exec (.baseTrafficFrame kind payload check) s =
      .next (finish (routeFrame (sourceOfKind kind) kind payload (isDamaged kind payload check) s)) := by
  rw [exec, execBaseTrafficFrame, answer, run_of _ _ hrun.1, trafficArrives_identifying _ _ _ _ hlink]

/-- A status of the pen, as a command (R150). -/
theorem exec_penStatus_routes (payload : List Byte) (damaged : Bool) (s : State) (hrun : Running s) :
    exec (.penStatus payload damaged) s = .next (finish (routeFrame .penStatus 0x02#8 payload damaged s)) := by
  rw [exec, execPenStatus, answer, run_of _ _ hrun.1]

end Sys2Proof.Machine

namespace Sys2Proof
open Machine

/-- Settles O12: each command brings its frame to the route engine as it stands, and there the too-long check comes first. -/
theorem tooLongFramesAreDropped : Obligations.TooLongFramesAreDropped := by
  intro s hstore long
  refine ⟨?route, ?data, ?base, ?pen⟩
  case route =>
    intro src kind payload damaged hlong
    exact routeFrame_tooLong src kind payload damaged s hstore hlong
  case data =>
    intro tag kind rest hrun hrx htag htag' hkind hkind' hlong
    rw [exec_dataParcel_routes tag kind rest s hrun hrx ⟨htag, htag'⟩ ⟨hkind, hkind'⟩,
      routeFrame_tooLong _ _ _ _ { s with rx := ⟨.idle, []⟩ } hstore hlong]
    rfl
  case base =>
    intro kind payload check hrun _ hlong hlink
    rw [exec_baseTrafficFrame_identifying kind payload check s hrun hlink, routeFrame_tooLong _ _ _ _ s hstore hlong]
    rfl
  case pen =>
    intro payload damaged hrun hlong
    rw [exec_penStatus_routes payload damaged s hrun, routeFrame_tooLong _ _ _ _ s hstore hlong]
    rfl

end Sys2Proof

/-! PROOFS. BASE-REQUEST as the issuer takes it (R71, R72), and the end of the ISSUED request by an answer of the base (R77, R78, R81). -/
namespace Sys2Proof.Machine

/-! ## What comes of a BASE-REQUEST (R71 to R74) -/

/-- Out of range the request is refused as it stands, whatever the table holds (R71). -/
theorem baseRequestTaken_outOfRange (target : Nat) (command : Byte) (data : List Byte) (s : State)
    (hrange : 15 < target ∨ 32 < data.length) :
    baseRequestTaken target command data s = (s, .refused, none) := by
  rw [baseRequestTaken, if_pos hrange]

/-- An entry with the key and other data is a mismatch, and nothing changes (R72). -/
theorem baseRequestTaken_otherData {target : Nat} {command : Byte} {data : List Byte} {s : State} {e : ReqEntry}
    (htarget : target ≤ 15) (hlen : data.length ≤ 32)
    (hfind : s.issuer.table.find? (fun e => e.hasKey target command) = some e) (hdata : e.data ≠ data) :
    baseRequestTaken target command data s = (s, .mismatch, some e) := by
  rw [baseRequestTaken, if_neg (by omega)]
  simp only [hfind, if_pos hdata]

/-- An entry with the key and the same data answers RETRY or its outcome (R72). -/
theorem baseRequestTaken_sameData_status {target : Nat} {command : Byte} {s : State} {e : ReqEntry}
    (htarget : target ≤ 15) (hlen : e.data.length ≤ 32)
    (hfind : s.issuer.table.find? (fun e => e.hasKey target command) = some e) :
    (baseRequestTaken target command e.data s).2.1 = .retry ∨
      ∃ o, (baseRequestTaken target command e.data s).2.1 = outcomeStatus o := by
  rw [baseRequestTaken, if_neg (by omega)]
  simp only [hfind, ne_eq, not_true_eq_false, if_false]
  cases e.outcome with
  | none => exact .inl rfl
  | some o =>
    by_cases hopen : e.isOpen = true
    · simp only [if_pos hopen, true_or]
    · simp only [if_neg hopen]
      exact .inr ⟨o, rfl⟩

/-- A request whose key no entry has answers NOT-ATTACHED, FULL or RETRY (R73). -/
theorem baseRequestTaken_newKey_status {target : Nat} {command : Byte} {data : List Byte} {s : State}
    (htarget : target ≤ 15) (hlen : data.length ≤ 32)
    (hfind : s.issuer.table.find? (fun e => e.hasKey target command) = none) :
    (baseRequestTaken target command data s).2.1 ∈ [Status.notAttached, .full, .retry] := by
  rw [baseRequestTaken, if_neg (by omega)]
  simp only [hfind]
  by_cases hup : (!s.link.state.isUp) = true
  · simp [hup]
  · by_cases hfull : 6 ≤ s.issuer.table.length
    · simp [hup, hfull]
    · simp [hup, hfull]

/-- No outcome is answered REFUSED or MISMATCH (R191). -/
theorem outcomeStatus_ne (o : ReqOutcome) : outcomeStatus o ≠ .refused ∧ outcomeStatus o ≠ .mismatch := by
  cases o <;> decide

/-- The same data is no mismatch (R72). -/
theorem baseRequestTaken_sameData_ne_mismatch {target : Nat} {command : Byte} {s : State} {e : ReqEntry}
    (htarget : target ≤ 15) (hlen : e.data.length ≤ 32)
    (hfind : s.issuer.table.find? (fun e => e.hasKey target command) = some e) :
    (baseRequestTaken target command e.data s).2.1 ≠ .mismatch := by
  obtain hst | ⟨o, hst⟩ := baseRequestTaken_sameData_status htarget hlen hfind
  · simp [hst]
  · exact hst ▸ (outcomeStatus_ne o).2

/-- In range nothing is refused (R71). -/
theorem baseRequestTaken_inRange_ne_refused {target : Nat} {command : Byte} {data : List Byte} (s : State)
    (htarget : target ≤ 15) (hlen : data.length ≤ 32) :
    (baseRequestTaken target command data s).2.1 ≠ .refused := by
  cases hfind : s.issuer.table.find? (fun e => e.hasKey target command) with
  | none =>
    intro hst
    simpa [hst] using baseRequestTaken_newKey_status htarget hlen hfind
  | some e =>
    by_cases hdata : e.data = data
    · subst hdata
      obtain hst | ⟨o, hst⟩ := baseRequestTaken_sameData_status htarget hlen hfind
      · simp [hst]
      · exact hst ▸ (outcomeStatus_ne o).1
    · simp [baseRequestTaken_otherData htarget hlen hfind hdata]

/-- BASE-REQUEST is replied to with the status and the state that the issuer makes of it (R74). -/
theorem replies_baseRequest (target : Nat) (command : Byte) (data : List Byte) {s : State} (hatt : Attentive s) :
    Replies (.baseRequest target command data) s 0x08#8 (baseRequestTaken target command data s).2.1
      (answerBaseRequest target command data s).content (baseRequestTaken target command data s).1 :=
  replies_of (q := .baseRequest target command data) hatt rfl Request.noConfusion rfl

/-! ## Entries by their key -/

/-- In a table with distinct keys no other entry has an entry's key (R70). -/
theorem eq_of_hasKey {table : List ReqEntry} (hkeys : (table.map (fun e => (e.target, e.command))).Nodup) {x e : ReqEntry}
    (hx : x ∈ table) (he : e ∈ table) (hkey : x.hasKey e.target e.command = true) : x = e := by
  have hpair : x.target = e.target ∧ x.command = e.command := by simpa [ReqEntry.hasKey] using hkey
  exact List.inj_on_of_nodup_map hkeys hx he (by rw [hpair.1, hpair.2])

/-- An entry is what a search finds that fits it, and with it only entries of its key, when the keys are distinct (R70). -/
theorem find?_eq_of_hasKey {table : List ReqEntry} (hkeys : (table.map (fun e => (e.target, e.command))).Nodup) {e : ReqEntry}
    (he : e ∈ table) {p : ReqEntry → Bool} (hfits : p e = true) (hkey : ∀ x, p x = true → x.hasKey e.target e.command = true) :
    table.find? p = some e := by
  obtain ⟨x, hfind⟩ := Option.isSome_iff_exists.mp (List.find?_isSome.mpr ⟨e, he, hfits⟩)
  rw [hfind, eq_of_hasKey hkeys (List.mem_of_find?_eq_some hfind) he (hkey x (List.find?_some hfind))]

/-- A change of entries that leaves their keys is found by the key of what it changed. -/
theorem find?_hasKey_map {f : ReqEntry → ReqEntry} (target : Nat) (command : Byte) (table : List ReqEntry)
    (hf : ∀ x, (f x).hasKey target command = x.hasKey target command) :
    (table.map f).find? (fun e => e.hasKey target command) = (table.find? (fun e => e.hasKey target command)).map f := by
  rw [List.find?_map]
  congr 2
  exact funext hf

/-- A change of the entry found by its key is found by that key. -/
theorem changeEntry_find? {target : Nat} {command : Byte} {f : ReqEntry → ReqEntry} {s : State} {e : ReqEntry}
    (hf : ∀ x, (f x).hasKey target command = x.hasKey target command)
    (hfind : s.issuer.table.find? (fun e => e.hasKey target command) = some e) :
    (changeEntry target command f s).issuer.table.find? (fun e => e.hasKey target command) = some (f e) := by
  have hmap := find?_hasKey_map (f := fun x => if x.hasKey target command then f x else x) target command s.issuer.table
    (fun x => by split <;> simp [hf])
  rw [changeEntry, hmap, hfind]
  exact congrArg some (if_pos (List.find?_some (p := fun e : ReqEntry => e.hasKey target command) hfind))

/-! ## The offer beside an entry that is not QUEUED (R75) -/

/-- The offer of the oldest leaves the window and the stray count. -/
theorem oldestOffered_marks (s : State) :
    (oldestOffered s).issuer.window = s.issuer.window ∧ (oldestOffered s).issuer.stray = s.issuer.stray := by
  unfold oldestOffered
  (repeat' split) <;> exact ⟨rfl, rfl⟩

/-- The offer of the oldest leaves what is found by a key that no QUEUED entry has. -/
theorem oldestOffered_find? {target : Nat} {command : Byte} {s : State}
    (hkey : ∀ x ∈ s.issuer.table, x.hasKey target command = true → x.state ≠ .queued) :
    (oldestOffered s).issuer.table.find? (fun e => e.hasKey target command) =
      s.issuer.table.find? (fun e => e.hasKey target command) := by
  unfold oldestOffered
  split
  case h_1 => rfl
  case h_2 q hq =>
    split
    case h_2 => rfl
    case h_1 =>
      have hother : q.hasKey target command = false := by
        have hqueued : q.state = .queued := by simpa using List.find?_some hq
        exact Bool.eq_false_iff.mpr fun h => hkey q (List.mem_of_find?_eq_some hq) h hqueued
      rw [find?_hasKey_map _ _ _ (fun x => by split <;> rfl)]
      cases hfind : s.issuer.table.find? (fun e => e.hasKey target command) with
      | none => rfl
      | some x =>
        have hx : x.hasKey target command = true :=
          List.find?_some (p := fun e : ReqEntry => e.hasKey target command) hfind
        refine congrArg some (if_neg fun hsame => ?_)
        rw [ReqEntry.hasKey, hsame.1, hsame.2] at hx
        exact Bool.false_ne_true (hother.symm.trans hx)

/-- The issuer's offer leaves the window and the stray count. -/
theorem tryOffer_marks (s : State) :
    (tryOffer s).issuer.window = s.issuer.window ∧ (tryOffer s).issuer.stray = s.issuer.stray := by
  rw [tryOffer_eq]
  split
  · exact oldestOffered_marks s
  · exact ⟨rfl, rfl⟩

/-- The issuer's offer leaves what is found by a key that no QUEUED entry has. -/
theorem tryOffer_find? {target : Nat} {command : Byte} {s : State}
    (hkey : ∀ x ∈ s.issuer.table, x.hasKey target command = true → x.state ≠ .queued) :
    (tryOffer s).issuer.table.find? (fun e => e.hasKey target command) =
      s.issuer.table.find? (fun e => e.hasKey target command) := by
  rw [tryOffer_eq]
  split
  · exact oldestOffered_find? hkey
  · rfl

/-! ## The end of the ISSUED entry (R77, R78, R80) -/

/-- The ISSUED entry has ended and the hold-off has followed, with the next offer still to be made. -/
def endedBeforeOffer (e : ReqEntry) (o : ReqOutcome) (response : Option (List Byte)) (s : State) : State :=
  let s := changeEntry e.target e.command (fun x => x.finish o response s.issuer.discardTime) s
  issuerHold { s with issuer := { s.issuer with window := none } }

/-- The end of the ISSUED entry is its change of the table with the next offer after it. -/
theorem endIssued_eq (e : ReqEntry) (o : ReqOutcome) (response : Option (List Byte)) (s : State) :
    endIssued e o response s = tryOffer (endedBeforeOffer e o response s) := rfl

/-- Before the next offer the end of the entry changes its entry and the window alone of the issuer. -/
theorem endedBeforeOffer_issuer (e : ReqEntry) (o : ReqOutcome) (response : Option (List Byte)) (s : State) :
    (endedBeforeOffer e o response s).issuer =
      { (changeEntry e.target e.command (fun x => x.finish o response s.issuer.discardTime) s).issuer with window := none } := by
  simp [endedBeforeOffer]

/-- No entry of the ended key is QUEUED, so the next offer passes it by. -/
theorem endedBeforeOffer_not_queued (e : ReqEntry) (o : ReqOutcome) (response : Option (List Byte)) (s : State) :
    ∀ x ∈ (endedBeforeOffer e o response s).issuer.table, x.hasKey e.target e.command = true → x.state ≠ .queued := by
  intro x hx hkey
  rw [endedBeforeOffer_issuer] at hx
  obtain ⟨y, _, rfl⟩ := List.mem_map.mp hx
  by_cases hy : y.hasKey e.target e.command = true
  · simp [hy, ReqEntry.finish]
  · simp [hy] at hkey

/-- The finished entry is found by its key, DONE with the outcome; the window has stopped and no stray answer is counted, whatever is
offered next. -/
theorem endIssued_issuer {e : ReqEntry} (o : ReqOutcome) (response : Option (List Byte)) {s : State}
    (hfind : s.issuer.table.find? (fun x => x.hasKey e.target e.command) = some e) :
    (endIssued e o response s).issuer.window = none ∧ (endIssued e o response s).issuer.stray = s.issuer.stray ∧
    (endIssued e o response s).issuer.table.find? (fun x => x.hasKey e.target e.command) =
      some (e.finish o response s.issuer.discardTime) := by
  obtain ⟨hwindow, hstray⟩ := tryOffer_marks (endedBeforeOffer e o response s)
  rw [endIssued_eq, hwindow, hstray, tryOffer_find? (endedBeforeOffer_not_queued e o response s), endedBeforeOffer_issuer]
  exact ⟨rfl, rfl, changeEntry_find? (fun _ => rfl) hfind⟩

/-! ## Answers of the base (R3, R56, R81) -/

/-- A frame that carries its own CRC-8 is undamaged (R3). -/
@[simp] theorem isDamaged_crc8 (kind : Byte) (payload : List Byte) :
    isDamaged kind payload (crc8 (kind :: BitVec.ofNat 8 payload.length :: payload)) = false := by
  simp [isDamaged]

/-- With the run at 0 there is no link loss (R56). -/
theorem lossByRun_of_noRun (s : State) (hrun : s.link.damagedRun = 0) : lossByRun s = s := by
  rw [lossByRun, if_neg (by omega)]

/-- An undamaged answer reaches the issuer with its records as they stand, in READY and in IDENTIFYING: what READY does beside it touches the
link alone, and the run of damaged frames is over (R48, R56). -/
theorem answerArrives_reaches (kind : Byte) (issuer : List Byte → State → State) (payload : List Byte) (s : State)
    (hlink : s.link.state = .ready ∨ s.link.state = .identifying) (hkeeps : ∀ u, (issuer payload u).link = u.link) :
    ∃ u, u.issuer = s.issuer ∧
      answerArrives kind issuer payload (crc8 (kind :: BitVec.ofNat 8 payload.length :: payload)) s = issuer payload u := by
  obtain hready | hident := hlink
  · refine ⟨restartTimers false (noteRun false s), by simp, ?_⟩
    simp only [answerArrives, hready, isDamaged_crc8, receivedReady, Bool.false_eq_true, if_false]
    exact lossByRun_of_noRun _ (by rw [hkeeps]; rfl)
  · refine ⟨s, rfl, ?_⟩
    simp only [answerArrives, hident, isDamaged_crc8]
    rfl

/-- An undamaged REJECT is the issuer's to take, with its records as they stand (R78). -/
theorem exec_reject_reaches (payload : List Byte) (s : State) (hrun : Running s)
    (hlink : s.link.state = .ready ∨ s.link.state = .identifying) :
    ∃ u, u.issuer = s.issuer ∧
      exec (.reject payload (crc8 (0x22#8 :: BitVec.ofNat 8 payload.length :: payload))) s = .next (finish (takeReject payload u)) := by
  obtain ⟨u, hissuer, harrives⟩ := answerArrives_reaches 0x22#8 takeReject payload s hlink (fun u => by simp)
  exact ⟨u, hissuer, by rw [exec, execReject, answer, run_of _ _ hrun.1, harrives]⟩

/-- An answer names the ISSUED entry of its key while the window runs (R77). -/
theorem answered_eq_some {key0 key1 : Byte} (extra : List Byte) {s : State} {e : ReqEntry} (he : e ∈ s.issuer.table)
    (hissued : e.state = .issued) (htarget : e.target = key0.toNat) (hcommand : e.command = key1)
    (hwindow : s.issuer.window.isSome = true) (hkeys : (s.issuer.table.map (fun e => (e.target, e.command))).Nodup) :
    answered (key0 :: key1 :: extra) s = some e := by
  simp only [answered, if_pos hwindow]
  refine find?_eq_of_hasKey hkeys he (by simp [ReqEntry.hasKey, htarget, hcommand, hissued]) fun x hx => ?_
  rw [htarget, hcommand]
  exact (Bool.and_eq_true_iff.mp hx).1

/-- An answer with no window running, or whose key no ISSUED entry has, names none (R81). -/
theorem answered_eq_none {key0 key1 : Byte} (extra : List Byte) {s : State}
    (hnone : s.issuer.window = none ∨
      ∀ e ∈ s.issuer.table, ¬ (e.state = .issued ∧ e.target = key0.toNat ∧ e.command = key1)) :
    answered (key0 :: key1 :: extra) s = none := by
  obtain hwindow | hentries := hnone
  · simp [answered, hwindow]
  · have hfind : s.issuer.table.find? (fun e => e.hasKey key0.toNat key1 && e.state == .issued) = none := by
      rw [List.find?_eq_none]
      intro e he hfits
      simp only [ReqEntry.hasKey, Bool.and_eq_true, beq_iff_eq] at hfits
      obtain ⟨⟨htarget, hcommand⟩, hissued⟩ := hfits
      exact hentries e he ⟨hissued, htarget, hcommand⟩
    simp only [answered, hfind, ite_self]

end Sys2Proof.Machine

namespace Sys2Proof
open Machine

/-- Settles O20: the reply's status is what the issuer makes of the request, REFUSED before the table is looked at and MISMATCH by the data
alone. -/
theorem baseRequestIsChecked : Obligations.BaseRequestIsChecked := by
  intro s target command data hatt
  have hreply := replies_baseRequest target command data hatt
  refine ⟨fun hrange => ?outOfRange, fun htarget hlen => ?inRange,
    fun e htarget hlen hfind => ⟨fun hdiffer => ?otherData, fun ⟨_, hbytes⟩ => ?sameData⟩⟩
  case outOfRange =>
    rw [baseRequestTaken_outOfRange target command data s hrange] at hreply
    exact ⟨_, hreply⟩
  case inRange => exact ⟨_, _, _, baseRequestTaken_inRange_ne_refused s htarget hlen, hreply⟩
  case otherData =>
    have hdata : e.data ≠ data := by
      rintro rfl
      exact hdiffer ⟨rfl, fun _ => rfl⟩
    rw [baseRequestTaken_otherData htarget hlen hfind hdata] at hreply
    exact ⟨_, hreply⟩
  case sameData =>
    obtain rfl : e.data = data := List.ext_getElem? hbytes
    exact ⟨_, _, _, baseRequestTaken_sameData_ne_mismatch htarget hlen hfind, hreply⟩

/-- Settles O38: the REJECT reaches the issuer, which ends the entry that it names or counts it as stray. -/
theorem rejectEndsTheRequest : Obligations.RejectEndsTheRequest := by
  intro s key0 key1 extra hrun hlink payload check
  obtain ⟨u, hissuer, hexec⟩ := exec_reject_reaches payload s hrun hlink
  refine ⟨?taken, ?stray⟩
  case taken =>
    intro e he hissued htarget hcommand hwindow hkeys
    have hnamed : answered payload u = some e :=
      answered_eq_some extra (hissuer ▸ he) hissued htarget hcommand (hissuer ▸ hwindow) (hissuer ▸ hkeys)
    have hfind : u.issuer.table.find? (fun x => x.hasKey e.target e.command) = some e :=
      find?_eq_of_hasKey (hissuer ▸ hkeys) (hissuer ▸ he) (by simp [ReqEntry.hasKey]) (fun _ h => h)
    obtain ⟨hstops, hstray, hdone⟩ := endIssued_issuer .baseRefused none hfind
    rw [takeReject, hnamed] at hexec
    rw [hissuer] at hstray hdone
    rw [htarget, hcommand] at hdone
    exact ⟨_, hexec, hstops, hstray, hdone⟩
  case stray =>
    intro hnone
    have hunnamed : answered payload u = none := answered_eq_none extra (hissuer.symm ▸ hnone)
    rw [takeReject, hunnamed] at hexec
    exact ⟨_, hexec, by rw [strayAnswer, hissuer]⟩

end Sys2Proof

/-! PROOFS. One step of the hub as one of few cases: the command's own effect with the end of the change, a level of the outside world while
the reset line is asserted, the two resets, the time base. What the effects keep, every step keeps. -/
namespace Sys2Proof.Machine

/-! ## A command's own effect -/

/-- The request that a request command hands on (R189, R193). -/
def requestOf : Instr → Option Request
  | .unknownRequest code => some (parseRequest code [])
  | .hello => some .hello
  | .routeTableWrite index e => some (.routeWrite index e)
  | .windowTableWrite index w => some (.windowWrite index w)
  | .policyTableWrite index e => some (.policyWrite index e)
  | .routeTableRead index => some (.routeRead index)
  | .windowTableRead index => some (.windowRead index)
  | .policyTableRead index => some (.policyRead index)
  | .countersReadUplink => some .countersUplink
  | .countersReadRoute => some .countersRoute
  | .countersReadIssuer => some .countersIssuer
  | .countersReadPosture => some .countersPosture
  | .recordReadPosture => some .recordPosture
  | .recordReadOrientation => some .recordOrientation
  | .recordReadAttachment => some .recordAttachment
  | .recordReadCharge => some .recordCharge
  | .recordReadSupply => some .recordSupply
  | .recordReadSleep => some .recordSleep
  | .recordReadStore => some .recordStore
  | .splitSet share => some (.splitSet share)
  | .settingsSet a => some (.settingsSet a)
  | .baseRequest target command data => some (.baseRequest target command data)
  | .baseReset => some .baseReset
  | .linkDiagnose => some .linkDiagnose
  | .alarmRead => some .alarmRead
  | .alarmClear causes => some (.alarmClear causes)
  | .guardSet a => some (.guardSet a)
  | .budgetSet a => some (.budgetSet a)
  | .chargeSetLevel l => some (.chargeLevel l)
  | .chargeSetHold => some .chargeHold
  | .chargeSetRelease => some .chargeRelease
  | .chargeSetRestart => some .chargeRestart
  | .orientSetLock => some .orientLock
  | .orientSetFree => some .orientFree
  | .indicateSet line source pattern => some (.indicateSet line source pattern)
  | .sleepConfirm => some .sleepConfirm
  | .sleepDecline => some .sleepDecline
  | .hostSleep => some .hostSleep
  | .storeSave => some .storeSave
  | .storeErase => some .storeErase
  | .restart => some .restart
  | _ => none

/-- The command's own effect, outside reset and before the end of the change: of a request command the arrival of its request. -/
def effect (c : Instr) (s : State) : State :=
  match c with
  | .coldReset => coldReset s
  | .restartTakesEffect => if s.mgmt.restart = .armed then restartHub s else s
  | .storeReadAnswered bytes => readAnswered bytes s
  | .storeExchangeUnanswered => exchangeUnanswered s
  | .pageWriteTaken => pageTaken s
  | .receiveFault bytes => bytesArrive bytes s
  | .dataParcel tag payload => parcelArrives 0x01#8 tag payload s
  | .requestParcel code payload => parcelArrives 0x02#8 code payload s
  | .parcelSent => parcelSent s
  | .unknownRequest code => requestArrives (parseRequest code []) s
  | .hello => requestArrives .hello s
  | .routeTableWrite index e => requestArrives (.routeWrite index e) s
  | .windowTableWrite index w => requestArrives (.windowWrite index w) s
  | .policyTableWrite index e => requestArrives (.policyWrite index e) s
  | .routeTableRead index => requestArrives (.routeRead index) s
  | .windowTableRead index => requestArrives (.windowRead index) s
  | .policyTableRead index => requestArrives (.policyRead index) s
  | .countersReadUplink => requestArrives .countersUplink s
  | .countersReadRoute => requestArrives .countersRoute s
  | .countersReadIssuer => requestArrives .countersIssuer s
  | .countersReadPosture => requestArrives .countersPosture s
  | .recordReadPosture => requestArrives .recordPosture s
  | .recordReadOrientation => requestArrives .recordOrientation s
  | .recordReadAttachment => requestArrives .recordAttachment s
  | .recordReadCharge => requestArrives .recordCharge s
  | .recordReadSupply => requestArrives .recordSupply s
  | .recordReadSleep => requestArrives .recordSleep s
  | .recordReadStore => requestArrives .recordStore s
  | .splitSet share => requestArrives (.splitSet share) s
  | .settingsSet a => requestArrives (.settingsSet a) s
  | .baseRequest target command data => requestArrives (.baseRequest target command data) s
  | .baseReset => requestArrives .baseReset s
  | .linkDiagnose => requestArrives .linkDiagnose s
  | .alarmRead => requestArrives .alarmRead s
  | .alarmClear causes => requestArrives (.alarmClear causes) s
  | .guardSet a => requestArrives (.guardSet a) s
  | .budgetSet a => requestArrives (.budgetSet a) s
  | .chargeSetLevel l => requestArrives (.chargeLevel l) s
  | .chargeSetHold => requestArrives .chargeHold s
  | .chargeSetRelease => requestArrives .chargeRelease s
  | .chargeSetRestart => requestArrives .chargeRestart s
  | .orientSetLock => requestArrives .orientLock s
  | .orientSetFree => requestArrives .orientFree s
  | .indicateSet line source pattern => requestArrives (.indicateSet line source pattern) s
  | .sleepConfirm => requestArrives .sleepConfirm s
  | .sleepDecline => requestArrives .sleepDecline s
  | .hostSleep => requestArrives .hostSleep s
  | .storeSave => requestArrives .storeSave s
  | .storeErase => requestArrives .storeErase s
  | .restart => requestArrives .restart s
  | .presenceAssert => presenceAsserts s
  | .detach => presenceReleases s
  | .debounceExpiry => debounceExpires s
  | .railUpExpiry => railUpExpires s
  | .trainingEcho unchanged => trainingEchoes unchanged s
  | .echoWindowExpiry => echoExpires s
  | .retryTimerExpiry => retryExpires s
  | .describeWindowExpiry => describeExpires s
  | .baseTrafficFrame kind payload check => trafficArrives kind payload check s
  | .response payload check => responseArrives payload check s
  | .busyResponse payload check => answerArrives 0x21#8 takeBusy payload check s
  | .reject payload check => answerArrives 0x22#8 takeReject payload check s
  | .wakeSignal payload check => wakeSignalArrives payload check s
  | .unlistedKindFrame kind payload check => unlistedArrives kind payload check s
  | .quietTimerExpiry => quietExpires s
  | .wakeTimeExpiry => wakeTimeExpires s
  | .keepaliveTimerExpiry => keepAliveExpires s
  | .keepaliveEcho => keepAliveEchoes s
  | .keepaliveWindowExpiry => keepAliveWindowExpires s
  | .resetDriveExpiry => resetDriveExpires s
  | .diagnosisMeasurementEnd outcome => measurementEnds outcome s
  | .hingeFrameSent => hingeFrameDone s
  | .responseWindowExpiry => responseWindowExpires s
  | .discardTimerExpiry target command => discardExpires target command s
  | .encoderCodeChange code => codeChanges code s
  | .settleTimerExpiry => if s.posture.settle.isSome then settleExpires s else s
  | .lidSwitchAssert => lidAsserts s
  | .lidSwitchRelease => lidReleases s
  | .foldFlatAssert => foldFlatAsserts s
  | .foldFlatRelease => foldFlatReleases s
  | .samplePeriodExpiry => samplePeriodExpires s
  | .lidMotion x y z busError => lidMotionMade x y z busError s
  | .dwellReached => if s.store.state = .starting then s else dwellReached s
  | .alarmRawAppears cause => rawAppears cause s
  | .alarmRawClears cause => rawClears cause s
  | .filterTimerExpiry cause => filterExpires cause s
  | .dieOtDetected => dieOtAppears s
  | .dieOtCleared => dieOtClears s
  | .dockSwitchAssert => dockAsserts s
  | .dockDebounceExpiry => dockDebounceExpires s
  | .penRemoval => dockReleases s
  | .penStatus payload damaged => routeFrame .penStatus 0x02#8 payload damaged s
  | .detectWindowExpiry => detectExpires s
  | .rampTimerExpiry => rampExpires s
  | .silenceTimerExpiry => silenceExpires s
  | .graceTimerExpiry => if s.sleep.grace.isSome then graceExpires s else s
  | .confirmWindowExpiry => confirmExpires s
  | .wakePulseEnd => wakePulseEnds s
  | .wakeWindowExpiry => wakeWindowExpires s
  | .blinkPhaseExpiry line => blinkExpires line s
  | .stretchTimerExpiry line => stretchExpires line s
  | .resetLineAsserted => s

/-- A command that hands on a request is the arrival of that request. -/
theorem effect_of_request {c : Instr} {q : Request} (h : requestOf c = some q) (s : State) : effect c s = requestArrives q s := by
  cases c <;> first | exact (Option.some.inj h ▸ rfl) | exact absurd h (Option.some_ne_none q).symm

/-- Outside reset a command is its own effect with the end of the change; RESET_LINE_ASSERTED alone is not. -/
theorem exec_of_running (c : Instr) (s : State) (h : s.held = false) (hc : c ≠ .resetLineAsserted) :
    exec c s = .next (finish (effect c s)) := by
  cases c
  case resetLineAsserted => exact absurd rfl hc
  case coldReset => rfl
  all_goals exact congrArg Host.Outcome.next (if_neg (Bool.eq_false_iff.mp h))

/-- While the reset line is asserted a command other than COLD_RESET changes the levels of the outside world alone (R209, log 18). -/
theorem exec_of_held (c : Instr) (s : State) (h : s.held = true) (hc : c ≠ .coldReset) : exec c s = .next (heldEffect c s) := by
  cases c
  case coldReset => exact absurd rfl hc
  all_goals exact congrArg Host.Outcome.next (if_pos h)

/-- COLD_RESET is the cold reset with the end of the change, in reset as well. -/
theorem exec_coldReset (s : State) : exec .coldReset s = .next (finish (coldReset s)) := rfl

/-- RESET_LINE_ASSERTED outside reset (R209). -/
theorem exec_resetLine (s : State) (h : s.held = false) : exec .resetLineAsserted s = .next (holdInReset s) :=
  congrArg Host.Outcome.next (if_neg (by simp [h]))

/-- What a command can be: COLD_RESET, a level of the outside world in reset, the assertion of the reset line, or its own effect. -/
theorem exec_cases (c : Instr) (s : State) :
    exec c s = .next (finish (coldReset s)) ∨ (s.held = true ∧ exec c s = .next (heldEffect c s)) ∨
    (s.held = false ∧ exec c s = .next (holdInReset s)) ∨ (s.held = false ∧ exec c s = .next (finish (effect c s))) := by
  by_cases hcold : c = .coldReset
  · subst hcold
    exact .inl (exec_coldReset s)
  · cases hheld : s.held with
    | true => exact .inr (.inl ⟨rfl, exec_of_held c s hheld hcold⟩)
    | false =>
      by_cases hline : c = .resetLineAsserted
      · subst hline
        exact .inr (.inr (.inl ⟨rfl, exec_resetLine s hheld⟩))
      · exact .inr (.inr (.inr ⟨rfl, exec_of_running c s hheld hline⟩))

/-- What a step can be: a command on the state with another queue and another draw, time alone, or nothing. -/
theorem step_cases {s t : State} (h : step s = .next t) :
    (∃ c rest n, exec c { s with pending := rest, fresh := n } = .next t) ∨ (s.held = true ∧ t = { s with now := s.now + 1 }) ∨
    (s.held = false ∧ dueCommands s = [] ∧ t = advance s) ∨ t = s := by
  unfold step at h
  split at h
  case h_1 c rest _ => exact .inl ⟨c, rest, s.fresh, h⟩
  case h_2 =>
    unfold idle at h
    split at h
    case isTrue hheld => exact .inr (.inl ⟨hheld, (Host.Outcome.next.inj h).symm⟩)
    case isFalse hheld =>
      split at h
      case h_1 hdue => exact .inr (.inr (.inl ⟨Bool.eq_false_iff.mpr hheld, hdue, (Host.Outcome.next.inj h).symm⟩))
      case h_2 c _ => exact .inl ⟨c, s.pending, s.fresh, h⟩
      case h_3 =>
        split at h
        case h_1 c _ => exact .inl ⟨c, s.pending, s.fresh + 1, h⟩
        case h_2 => exact .inr (.inr (.inr (Host.Outcome.next.inj h).symm))

/-- What resets, levels in reset, effects with the end of their change and idle time keep, every step keeps. -/
theorem everyStepKeeps_of {inv : State → Prop}
    (hworld : ∀ s rest n k, inv s → inv { s with pending := rest, fresh := n, now := k })
    (hcold : ∀ s, inv s → inv (finish (coldReset s)))
    (hlevel : ∀ c s, s.held = true → inv s → inv (heldEffect c s))
    (hline : ∀ s, s.held = false → inv s → inv (holdInReset s))
    (heffect : ∀ c s, s.held = false → inv s → inv (finish (effect c s)))
    (htime : ∀ s, s.held = false → inv s → inv (advance s)) : EveryStepKeeps inv := by
  intro s t hs hstep
  obtain ⟨c, rest, n, hexec⟩ | ⟨_, rfl⟩ | ⟨hheld, _, rfl⟩ | rfl := step_cases hstep
  · have hu : inv { s with pending := rest, fresh := n } := hworld s rest n s.now hs
    obtain h | ⟨hheld, h⟩ | ⟨hheld, h⟩ | ⟨hheld, h⟩ := exec_cases c { s with pending := rest, fresh := n }
    all_goals
      obtain rfl := Host.Outcome.next.inj (h.symm.trans hexec)
    · exact hcold _ hu
    · exact hlevel c _ hheld hu
    · exact hline _ hheld hu
    · exact heffect c _ hheld hu
  · exact hworld s s.pending s.fresh (s.now + 1) hs
  · exact htime s hheld hs
  · exact hs

/-! ## The end of a change, and what comes by the uplink -/

/-- What each claim keeps, the taking of the events keeps. -/
theorem drainEvents_keeps {inv : State → Prop} (hclear : ∀ s, inv s → inv { s with policy := { s.policy with events := [] } })
    (hclaim : ∀ ev a s, inv s → inv (issueClaim ev a s)) (s : State) (hs : inv s) : inv (drainEvents s) := by
  have htake (ev : PolicyEvent) (u : State) (hu : inv u) : inv (takeEvent ev u) :=
    List.foldlRecOn _ _ hu fun v hv a _ => hclaim ev a v hv
  exact List.foldlRecOn _ _ (hclear s hs) fun v hv ev _ => htake ev v hv

/-- What each claim and the two transmitters' choices keep, the end of a change keeps. -/
theorem finish_keeps {inv : State → Prop} (hclear : ∀ s, inv s → inv { s with policy := { s.policy with events := [] } })
    (hclaim : ∀ ev a s, inv s → inv (issueClaim ev a s)) (hkick : ∀ s, inv s → inv (kickHinge s))
    (hstart : ∀ s, inv s → inv (startTransmit s)) (s : State) (hs : inv s) : inv (finish s) :=
  hstart _ (hkick _ (drainEvents_keeps hclear hclaim s hs))

/-- What the receiver's own records do not touch, and the two kinds of parcel keep, the bytes that arrive keep (R5 to R7). -/
theorem bytesArrive_keeps {inv : State → Prop} (hport : ∀ s rx n, inv s → inv { s with rx := rx, uplinkErrors := n })
    (hrequest : ∀ q s, inv s → inv (requestArrives q s)) (hframe : ∀ kind payload s, inv s → inv (routeFrame .uplink kind payload false s))
    (bytes : List Byte) (s : State) (hs : inv s) : inv (bytesArrive bytes s) := by
  have hfaults (u : State) (hu : inv u) : inv (receiveFaults u) := hport u _ _ hu
  have hrx (u : State) (rx : Receiver) (hu : inv u) : inv { u with rx := rx } := hport u rx u.uplinkErrors hu
  have hand (kind tag : Byte) (payload : List Byte) (u : State) (hu : inv u) : inv (handOn kind tag payload u) := by
    unfold handOn dataHandedOn
    (repeat' split) <;> first | exact hrequest _ u hu | exact hframe _ _ u hu | exact hport u u.rx _ hu
  have hcomplete (buf : List Byte) (u : State) (hu : inv u) : inv (parcelComplete buf u) := by
    unfold parcelComplete
    split
    · dsimp only
      split
      · exact hand _ _ _ _ (hrx u _ hu)
      · exact hfaults u hu
    · exact hfaults u hu
  have hadded (buf : List Byte) (u : State) (hu : inv u) : inv (byteAdded buf u) := by
    unfold byteAdded
    dsimp only
    (repeat' split) <;> first | exact hrx u _ hu | exact hfaults _ (hrx u _ hu) | exact hcomplete _ _ (hrx u _ hu)
  refine List.foldlRecOn _ _ hs fun u hu b _ => ?_
  unfold byteArrives
  (repeat' split) <;> first | exact hrx u _ hu | exact hfaults u hu | exact hadded _ u hu

/-- A parcel that arrives keeps what its bytes keep (R5, R7). -/
theorem parcelArrives_keeps {inv : State → Prop} (hport : ∀ s rx n, inv s → inv { s with rx := rx, uplinkErrors := n })
    (hrequest : ∀ q s, inv s → inv (requestArrives q s)) (hframe : ∀ kind payload s, inv s → inv (routeFrame .uplink kind payload false s))
    (kind tag : Byte) (payload : List Byte) (s : State) (hs : inv s) : inv (parcelArrives kind tag payload s) := by
  have hrx : inv { s with rx := ⟨.idle, []⟩ } := hport s ⟨.idle, []⟩ s.uplinkErrors hs
  unfold parcelArrives handOn dataHandedOn
  (repeat' split) <;>
    first
      | exact bytesArrive_keeps hport hrequest hframe _ s hs
      | exact hrequest _ _ hrx
      | exact hframe _ _ _ hrx
      | exact hport _ _ _ hrx

/-- Where the owners' answers keep something that the engine's own records do not touch, the arrival of a request keeps it (R189). -/
theorem engineTakes_keeps {inv : State → Prop} (hmgmt : ∀ s m, inv s → inv { s with mgmt := m })
    (howner : ∀ q s, s.store.state ≠ .starting → inv s → inv (ownerAnswer q s).after) (s : State) (hs : inv s) : inv (engineTakes s) := by
  unfold engineTakes takeRequest restartTaken
  (repeat' split) <;>
    first
      | exact hs
      | exact hmgmt _ _ (hmgmt _ _ (hmgmt _ _ hs))
      | exact hmgmt _ _ (hmgmt _ _ hs)
      | exact hmgmt _ _ (howner _ _ (by assumption) (hmgmt _ _ hs))

/-- Where the owners' answers keep something that the engine's own records do not touch, the arrival of a request keeps it (R189). -/
theorem requestArrives_keeps {inv : State → Prop} (hmgmt : ∀ s m, inv s → inv { s with mgmt := m })
    (howner : ∀ q s, s.store.state ≠ .starting → inv s → inv (ownerAnswer q s).after) (q : Request) (s : State) (hs : inv s) :
    inv (requestArrives q s) := by
  unfold requestArrives
  split
  · exact hmgmt _ _ hs
  · exact engineTakes_keeps hmgmt howner _ (hmgmt _ _ hs)

/-- The end of a parcel keeps what the engine and a RESTART keep and the transmitter's release does not touch (R8, R14, R189, R202). -/
theorem parcelSent_keeps {inv : State → Prop} (hport : ∀ s tx m, inv s → inv { s with tx := tx, mgmt := m })
    (hpool : ∀ s, inv s → inv { s with pool := { s.pool with up := s.pool.up.tail } }) (hengine : ∀ s, inv s → inv (engineTakes s))
    (hrestart : ∀ s, inv s → inv (restartHub s)) (s : State) (hs : inv s) : inv (parcelSent s) := by
  unfold parcelSent
  split
  case h_1 => exact hs
  case h_2 =>
    dsimp only
    split
    · exact hrestart _ (hport s .idle _ hs)
    · exact hengine _ (hport s .idle _ hs)
  case h_3 => exact hport s .idle s.mgmt hs
  case h_4 => exact hpool _ (hport s .idle s.mgmt hs)

/-! ## What the route engine and the hinge link bring -/

/-- What is kept by the route engine's own records, the observers with their events, a notice, a wake claim and the two queues' admissions. -/
structure KeepsRouting (inv : State → Prop) : Prop where
  records : ∀ r s, inv s → inv { s with route := r }
  lid : ∀ x y z s, inv s → inv (postureLidSample x y z s)
  orient : ∀ x y z s, inv s → inv (orientSample x y z s)
  base : ∀ x y z s, inv s → inv (postureBaseSample x y z s)
  pen : ∀ payload s, inv s → inv (penStatusTap payload s)
  drain : ∀ s, inv s → inv (drainEvents s)
  noBase : ∀ s, inv s → inv (post (.link (.noBase s.link.state)) s)
  wake : ∀ k s, inv s → inv (wakeClaim k s)
  up : ∀ f p s, s.pool.admitUp f = some p → inv s → inv { s with pool := p }
  down : ∀ f p s, s.pool.admitDown f = some p → inv s → inv { s with pool := p }

section
variable {inv : State → Prop}

/-- The observers of a frame keep what their own changes and their events keep (R22). -/
theorem tapFrame_keeps (h : KeepsRouting inv) (src : Source) (payload : List Byte) (s : State) (hs : inv s) :
    inv (tapFrame src payload s) := by
  unfold tapFrame
  split
  case h_1 =>
    split
    · exact h.drain _ (h.orient _ _ _ _ (h.drain _ (h.lid _ _ _ _ hs)))
    · exact hs
  case h_2 =>
    split
    · exact h.drain _ (h.base _ _ _ _ hs)
    · exact hs
  case h_3 => exact h.drain _ (h.pen _ _ hs)
  case h_4 => exact hs

/-- An offer to a queue keeps what an admission and the counters keep (R32). -/
theorem forwardFrame_keeps (h : KeepsRouting inv) (src : Source) (kind : Byte) (payload : List Byte) (damaged : Bool) (i : Nat)
    (dest : Dest) (s : State) (hs : inv s) : inv (forwardFrame src kind payload damaged i dest s) := by
  unfold forwardFrame
  by_cases hsrc : src = .uplink
  · simp only [if_pos hsrc]
    split
    · next p hp => exact h.down _ p s hp hs
    · exact h.records _ _ (h.records _ _ hs)
  · simp only [if_neg hsrc]
    split
    · next p hp => exact h.up _ p s hp hs
    · exact h.records _ _ (h.records _ _ hs)

/-- Classification keeps what the action and the counters keep (R27 to R34). -/
theorem classify_keeps (h : KeepsRouting inv) (src : Source) (kind : Byte) (payload : List Byte) (damaged : Bool) (s : State)
    (hs : inv s) : inv (classify src kind payload damaged s) := by
  have hact (i : Nat) (f : RouteFields) (u : State) (hu : inv u) : inv (actOnFrame src kind payload damaged i f u) := by
    have hpassed : inv (changeRoute i (fun e => { e with passed := wrapInc e.passed }) u) := h.records _ _ hu
    unfold actOnFrame
    cases f.action with
    | forward => exact forwardFrame_keeps h _ _ _ _ _ _ _ hpassed
    | drop => exact hpassed
    | wake => exact h.wake _ _ hpassed
    | forwardWake => exact h.wake _ _ (forwardFrame_keeps h _ _ _ _ _ _ _ hpassed)
  unfold classify
  split
  · exact h.records _ _ hs
  · split
    · exact hs
    · split
      · exact h.records _ _ hs
      · unfold thinFrame
        split
        · exact hact _ _ _ (h.records _ _ hs)
        · exact h.records _ _ hs

/-- A frame that reaches the route engine keeps what observers, checks and actions keep (R21 to R34). -/
theorem routeFrame_keeps (h : KeepsRouting inv) (src : Source) (kind : Byte) (payload : List Byte) (damaged : Bool) (s : State)
    (hs : inv s) : inv (routeFrame src kind payload damaged s) := by
  have hdecide (u : State) (hu : inv u) : inv (decideFrame src kind payload damaged u) := by
    unfold decideFrame
    split
    · exact h.records _ _ hu
    · split
      · unfold dropForLink
        dsimp only
        split
        · exact h.records _ _ hu
        · exact h.noBase _ (h.records _ _ (h.records _ _ hu))
      · exact classify_keeps h _ _ _ _ u hu
  unfold routeFrame
  split
  · exact hs
  · have hreceived : inv (changeIngress src (fun c => { c with received := wrapInc c.received }) s) := h.records _ _ hs
    dsimp only
    split
    · exact h.records _ _ hreceived
    · refine hdecide _ ?_
      split
      · exact hreceived
      · exact tapFrame_keeps h _ _ _ hreceived

end

/-- What is kept by the counters and timers that a frame of the base moves, by link loss, by a WAKE-SIGNAL, by traffic, by the answers that
reach the issuer and by a chunk of the descriptor (R48, R56, R58). -/
structure KeepsFrames (inv : State → Prop) : Prop where
  drops : ∀ s, inv s → inv (linkDrops s)
  run : ∀ n s, inv s → inv { s with link := { s.link with damagedRun := n } }
  timers : ∀ d s, s.link.state = .ready → inv s → inv (restartTimers d s)
  loss : ∀ s, s.link.state.isUp = true → inv s → inv (linkLoss s)
  signal : ∀ s, s.link.state = .quiet → inv s → inv (wakeSignalled s)
  traffic : ∀ src kind payload damaged s, inv s → inv (routeFrame src kind payload damaged s)
  response : ∀ payload s, inv s → inv (takeResponse payload s)
  busy : ∀ payload s, inv s → inv (takeBusy payload s)
  reject : ∀ payload s, inv s → inv (takeReject payload s)
  chunk : ∀ number bytes s, s.link.state = .identifying → inv s → inv (takeChunk number bytes s)

section
variable {inv : State → Prop}

/-- Three damaged frames in a row are link loss, which keeps it (R56). -/
theorem lossByRun_keeps (h : KeepsFrames inv) (s : State) (hs : inv s) : inv (lossByRun s) := by
  unfold lossByRun
  split
  case isTrue hrun => exact h.loss s hrun.2 hs
  case isFalse => exact hs

/-- A frame received in READY (R56). -/
theorem receivedReady_keeps (h : KeepsFrames inv) (damaged : Bool) (take : State → State) (s : State) (hready : s.link.state = .ready)
    (htake : ∀ u, inv u → inv (take u)) (hs : inv s) : inv (receivedReady damaged take s) :=
  lossByRun_keeps h _ (htake _ (h.timers _ _ hready (h.run _ _ hs)))

/-- A frame received in QUIET, taken with the run counted (R58). -/
theorem receivedQuiet_keeps (h : KeepsFrames inv) (damaged : Bool) (take : State → State) (s : State) (hquiet : s.link.state = .quiet)
    (htake : ∀ u, u.link.state = .quiet → inv u → inv (take u)) (hs : inv s) : inv (receivedQuiet damaged take s) :=
  lossByRun_keeps h _ (htake _ hquiet (h.run _ _ hs))

/-- A frame of base traffic (R48, R56, R58). -/
theorem trafficArrives_keeps (h : KeepsFrames inv) (kind : Byte) (payload : List Byte) (check : Byte) (s : State) (hs : inv s) :
    inv (trafficArrives kind payload check s) := by
  have htake (u : State) (hu : inv u) : inv (routeFrame (sourceOfKind kind) kind payload (isDamaged kind payload check) u) :=
    h.traffic _ _ _ _ u hu
  unfold trafficArrives
  dsimp only
  split
  case h_1 => exact htake s hs
  case h_2 hready => exact receivedReady_keeps h _ _ s hready htake hs
  case h_3 hquiet =>
    split
    · refine receivedQuiet_keeps h _ _ s hquiet (fun u _ hu => ?_) hs
      split
      · exact hu
      · exact htake u hu
    · exact receivedQuiet_keeps h _ _ s hquiet (fun u _ hu => h.drops u hu) hs
  case h_4 => exact hs

/-- A RESPONSE (R48, R56). -/
theorem responseArrives_keeps (h : KeepsFrames inv) (payload : List Byte) (check : Byte) (s : State) (hs : inv s) :
    inv (responseArrives payload check s) := by
  unfold responseArrives
  dsimp only
  split
  case h_1 hident =>
    split
    · exact h.drops s hs
    · unfold responseIdentifying
      split
      · split
        · exact h.chunk _ _ s hident hs
        · exact h.drops s hs
      · exact h.response _ s hs
  case h_2 hready =>
    refine receivedReady_keeps h _ _ s hready (fun u hu => ?_) hs
    split
    · exact h.drops u hu
    · exact h.response _ u hu
  case h_3 hquiet => exact receivedQuiet_keeps h _ _ s hquiet (fun u _ hu => h.drops u hu) hs
  case h_4 => exact hs

/-- A BUSY-RESPONSE or REJECT, by what the issuer does with it (R48, R56). -/
theorem answerArrives_keeps (h : KeepsFrames inv) (kind : Byte) (issuer : List Byte → State → State)
    (hissuer : ∀ payload s, inv s → inv (issuer payload s)) (payload : List Byte) (check : Byte) (s : State) (hs : inv s) :
    inv (answerArrives kind issuer payload check s) := by
  unfold answerArrives
  dsimp only
  split
  case h_1 =>
    split
    · exact h.drops s hs
    · exact hissuer _ s hs
  case h_2 hready =>
    refine receivedReady_keeps h _ _ s hready (fun u hu => ?_) hs
    split
    · exact h.drops u hu
    · exact hissuer _ u hu
  case h_3 hquiet => exact receivedQuiet_keeps h _ _ s hquiet (fun u _ hu => h.drops u hu) hs
  case h_4 => exact hs

/-- A WAKE-SIGNAL (R48, R56, R58). -/
theorem wakeSignalArrives_keeps (h : KeepsFrames inv) (payload : List Byte) (check : Byte) (s : State) (hs : inv s) :
    inv (wakeSignalArrives payload check s) := by
  unfold wakeSignalArrives
  dsimp only
  split
  case h_1 =>
    split
    · exact h.drops s hs
    · exact hs
  case h_2 hready =>
    refine receivedReady_keeps h _ _ s hready (fun u hu => ?_) hs
    split
    · exact h.drops u hu
    · exact hu
  case h_3 hquiet =>
    refine receivedQuiet_keeps h _ _ s hquiet (fun u hq hu => ?_) hs
    split
    · exact hu
    · exact h.signal u hq hu
  case h_4 => exact hs

/-- A frame of a kind that is not listed (R48, R56, R58). -/
theorem unlistedArrives_keeps (h : KeepsFrames inv) (kind : Byte) (payload : List Byte) (check : Byte) (s : State) (hs : inv s) :
    inv (unlistedArrives kind payload check s) := by
  unfold unlistedArrives
  dsimp only
  split
  case h_1 => exact h.drops s hs
  case h_2 hready => exact receivedReady_keeps h _ _ s hready (fun u hu => h.drops u hu) hs
  case h_3 hquiet => exact receivedQuiet_keeps h _ _ s hquiet (fun u _ hu => h.drops u hu) hs
  case h_4 => exact hs

end

end Sys2Proof.Machine

/-! PROOFS. Every command completes; the reset line; the contents of the external store. -/
namespace Sys2Proof.Machine

/-- What the frames of an answer's handling leave of State, an answer leaves. -/
theorem answerArrives_clock (kind : Byte) (issuer : List Byte → State → State)
    (hissuer : ∀ payload s, (issuer payload s).pending = s.pending ∧ (issuer payload s).now = s.now) (payload : List Byte) (check : Byte)
    (s : State) : (answerArrives kind issuer payload check s).pending = s.pending ∧ (answerArrives kind issuer payload check s).now = s.now := by
  unfold answerArrives receivedReady receivedQuiet
  dsimp only
  (repeat' split) <;> simp [hissuer]

/-- A command's own effect leaves the queue and the time. -/
theorem effect_clock (c : Instr) (s : State) : (effect c s).pending = s.pending ∧ (effect c s).now = s.now := by
  cases c
  case restartTakesEffect | settleTimerExpiry | dwellReached | graceTimerExpiry => rw [effect]; split <;> simp
  case busyResponse | reject => exact answerArrives_clock _ _ (by simp) _ _ s
  all_goals rw [effect]; simp

/-- The level of a pin, in reset, leaves the queue and the time. -/
theorem heldEffect_clock (c : Instr) (s : State) : (heldEffect c s).pending = s.pending ∧ (heldEffect c s).now = s.now := by
  unfold heldEffect
  split <;> exact ⟨rfl, rfl⟩

end Sys2Proof.Machine

namespace Sys2Proof
open Machine

/-- Settles O3: in each of the cases of a command the end of the change and what comes before it leave the queue and the time. -/
theorem everyCommandCompletes : Obligations.EveryCommandCompletes := by
  intro c s
  obtain h | ⟨_, h⟩ | ⟨_, h⟩ | ⟨_, h⟩ := exec_cases c s
  · exact ⟨_, h, by simp, by simp⟩
  · exact ⟨_, h, heldEffect_clock c s⟩
  · exact ⟨_, h, rfl, rfl⟩
  · obtain ⟨hpending, hnow⟩ := effect_clock c s
    exact ⟨_, h, by simp [hpending], by simp [hnow]⟩

/-- Settles O9. -/
theorem resetLineHoldsTheHub : Obligations.ResetLineHoldsTheHub := by
  intro s
  refine ⟨fun c hheld hc => exec_of_held c s hheld hc, fun hheld => exec_of_held _ s hheld Instr.noConfusion, fun hheld => ?asserted⟩
  case asserted =>
    refine ⟨_, exec_resetLine s hheld, rfl, rfl, rfl, rfl, rfl, rfl, rfl, rfl, fun hpage => ?contents⟩
    case contents =>
      change cutOffContents s = s.store.eeprom
      unfold cutOffContents
      split
      · next k bytes hwrite => exact absurd hwrite (hpage k bytes)
      · rfl

/-- Settles O1. -/
theorem stepTakesTheFrontCommand : Obligations.StepTakesTheFrontCommand := by
  intro c rest s hpending
  rw [step, hpending]

/-- Settles O7. -/
theorem resetValues : Obligations.ResetValues := by
  unfold Obligations.ResetValues
  refine ⟨?_, ?_, ?_, ?_, ?_, ?_, ?_, ?_, ?_, ?_, ?_, ?_, ?_⟩
  case refine_12 => exact ⟨rfl, rfl, fun k => by cases k <;> rfl, fun k => by cases k <;> rfl⟩
  all_goals decide

end Sys2Proof

/-! PROOFS. The contents of the external store stay in their canonical form (log 12). -/
namespace Sys2Proof.Machine

/-- The contents of the external store are in their canonical form. -/
abbrev Canonical (s : State) : Prop := Memory.wf s.store.eeprom = true

/-- An owner's answer leaves the contents of the store: a save and an erase only begin. -/
@[simp] theorem ownerAnswer_eeprom (q : Request) (s : State) : (ownerAnswer q s).after.store.eeprom = s.store.eeprom := by
  cases q
  case storeSave =>
    rw [ownerAnswer, answerSave]
    split <;> simp [beginSave, writePage]
  case storeErase =>
    rw [ownerAnswer, answerErase]
    split <;> simp [beginErase, writePage]
  case routeRead | windowRead | policyRead =>
    rw [ownerAnswer, answerEntry]
    (repeat' split) <;> rfl
  all_goals simp [ownerAnswer, statusOnly, withChargeRecord, withOrientationRecord]

/-- The arrival of a request leaves the contents of the store canonical. -/
theorem requestArrives_canonical (q : Request) (s : State) (h : Canonical s) : Canonical (requestArrives q s) :=
  requestArrives_keeps (fun _ _ h => h) (fun q s _ h => by rwa [Canonical, ownerAnswer_eeprom]) q s h

/-- The end of start-up leaves the contents of the store. -/
@[simp] theorem startUpEnds_eeprom (r : StartResult) (s : State) : (startUpEnds r s).store.eeprom = s.store.eeprom := by
  unfold startUpEnds
  dsimp only
  split <;> simp

/-- The sections that are applied leave the contents of the store. -/
@[simp] theorem applySections_eeprom (sections : List Section) (s : State) :
    (applySections sections s).store.eeprom = s.store.eeprom := by simp

/-- An image that is read leaves the contents of the store. -/
@[simp] theorem imageRead_eeprom (length : Nat) (crc : Word16) (body : List Byte) (s : State) :
    (imageRead length crc body s).store.eeprom = s.store.eeprom := by
  unfold imageRead
  dsimp only
  split <;> simp

/-- A header that is read leaves the contents of the store. -/
@[simp] theorem headerRead_eeprom (header : List Byte) (s : State) : (headerRead header s).store.eeprom = s.store.eeprom := by
  unfold headerRead
  dsimp only
  (repeat' split) <;> simp

/-- The store holds what it answered, in its canonical form (log 12). -/
theorem storeHolds_canonical (offset : Nat) (bytes : List Byte) (s : State) (h : Canonical s) : Canonical (storeHolds offset bytes s) :=
  memory_writeBytes_wf _ _ _ h

/-- A read of start-up leaves the contents canonical. -/
theorem readAnswered_canonical (bytes : List Byte) (s : State) (h : Canonical s) : Canonical (readAnswered bytes s) := by
  unfold readAnswered
  dsimp only
  split
  · split
    · simpa [Canonical] using storeHolds_canonical 0 (answerBytes 0 6 bytes s) s h
    · simpa [Canonical] using storeHolds_canonical 6 _ s h
    · exact h
  · exact h

/-- The end of an operation leaves the contents of the store. -/
@[simp] theorem operationEnds_eeprom (op : StoreOp) (e : StoreEnd) (s : State) : (operationEnds op e s).store.eeprom = s.store.eeprom := by
  simp [operationEnds]

/-- What follows a page write leaves the contents of the store. -/
@[simp] theorem afterPage_eeprom (k : Nat) (s : State) : (afterPage k s).store.eeprom = s.store.eeprom := by
  unfold afterPage nextPage writePage
  dsimp only
  (repeat' split) <;> simp

/-- A page that the store takes leaves the contents canonical. -/
theorem pageTaken_canonical (s : State) (h : Canonical s) : Canonical (pageTaken s) := by
  unfold pageTaken
  split
  · next k bytes _ => simpa [Canonical] using storeHolds_canonical (32 * k) bytes s h
  · exact h

/-- An exchange that goes unanswered leaves the contents of the store. -/
@[simp] theorem exchangeUnanswered_eeprom (s : State) : (exchangeUnanswered s).store.eeprom = s.store.eeprom := by
  unfold exchangeUnanswered
  (repeat' split) <;> simp

/-- A parcel sent leaves the contents canonical, a RESTART made with it too. -/
theorem parcelSent_canonical (s : State) (h : Canonical s) : Canonical (parcelSent s) :=
  parcelSent_keeps (fun _ _ _ h => h) (fun _ h => h)
    (engineTakes_keeps (fun _ _ h => h) (fun q s _ h => by rwa [Canonical, ownerAnswer_eeprom])) (fun _ h => h) s h

/-- Bytes of the uplink leave the contents canonical. -/
theorem bytesArrive_canonical (bytes : List Byte) (s : State) (h : Canonical s) : Canonical (bytesArrive bytes s) :=
  bytesArrive_keeps (fun _ _ _ h => h) requestArrives_canonical (fun _ _ s h => by simpa [Canonical] using h) bytes s h

/-- A parcel of the uplink leaves the contents canonical. -/
theorem parcelArrives_canonical (kind tag : Byte) (payload : List Byte) (s : State) (h : Canonical s) :
    Canonical (parcelArrives kind tag payload s) :=
  parcelArrives_keeps (fun _ _ _ h => h) requestArrives_canonical (fun _ _ s h => by simpa [Canonical] using h) kind tag payload s h

/-- The issuer's answers leave the contents of the store. -/
theorem answerArrives_canonical (kind : Byte) (issuer : List Byte → State → State)
    (hissuer : ∀ payload s, (issuer payload s).store = s.store) (payload : List Byte) (check : Byte) (s : State) (h : Canonical s) :
    Canonical (answerArrives kind issuer payload check s) := by
  unfold answerArrives receivedReady receivedQuiet
  dsimp only
  (repeat' split) <;> simpa [Canonical, hissuer] using h

/-- A command's own effect leaves the contents canonical. -/
theorem effect_canonical (c : Instr) (s : State) (h : Canonical s) : Canonical (effect c s) := by
  cases hq : requestOf c with
  | some q => exact effect_of_request hq s ▸ requestArrives_canonical q s h
  | none =>
    cases c
    case coldReset => exact cutOffContents_wf s h
    case storeReadAnswered bytes => exact readAnswered_canonical bytes s h
    case pageWriteTaken => exact pageTaken_canonical s h
    case receiveFault bytes => exact bytesArrive_canonical bytes s h
    case dataParcel tag payload => exact parcelArrives_canonical _ tag payload s h
    case requestParcel code payload => exact parcelArrives_canonical _ code payload s h
    case parcelSent => exact parcelSent_canonical s h
    case busyResponse payload check => exact answerArrives_canonical _ _ (by simp) payload check s h
    case reject payload check => exact answerArrives_canonical _ _ (by simp) payload check s h
    case restartTakesEffect | settleTimerExpiry | dwellReached | graceTimerExpiry =>
      rw [effect]
      split
      · simpa [Canonical, restartHub, withAlarmInput] using h
      · simpa [Canonical] using h
    all_goals first | exact absurd hq (Option.some_ne_none _) | (rw [effect]; simpa [Canonical] using h)

end Sys2Proof.Machine

namespace Sys2Proof
open Machine

/-- Settles O52: a read answer and a page write alone change the contents, and each byte written keeps the form; a page cut off is made of
such writes. -/
theorem everyStepKeepsTheStoreCanonical : Obligations.EveryStepKeepsTheStoreCanonical :=
  everyStepKeeps_of (inv := Canonical) (fun _ _ _ _ h => h)
    (fun s h => by simpa [Canonical, coldReset, withAlarmInput] using cutOffContents_wf s h)
    (fun c s _ h => by
      unfold heldEffect
      split <;> exact h)
    (fun s _ h => cutOffContents_wf s h)
    (fun c s _ h => by simpa [Canonical] using effect_canonical c s h)
    (fun _ _ h => h)

end Sys2Proof

/-! PROOFS. Reset meets every invariant, and every step takes the policy events of its change. -/
namespace Sys2Proof
open Machine

/-- Settles O51. -/
theorem resetMeetsEveryInvariant : Obligations.ResetMeetsEveryInvariant := by
  refine ⟨rfl, ?dormant, ?grants, ?outputs, ?alarms, ?link, ?pool, ?table, ?posture, ?sleep, rfl⟩
  case dormant => decide
  case grants => decide
  case outputs => decide
  case alarms => exact ⟨fun c => by cases c <;> decide, rfl, by decide⟩
  case link => decide
  case pool => decide
  case table => exact ⟨by decide, by decide, by simp [State.reset, Issuer.cold], by decide, by decide, by simp [State.reset, Issuer.cold]⟩
  case posture => decide
  case sleep => decide

end Sys2Proof

/-! PROOFS. The posture is SLATE exactly while no base is present and CLOSED exactly while it is present with the lid closed (R94, R99,
R103). -/
namespace Sys2Proof.Machine

/-! ## Operations beside the posture -/

/-- Nothing that the posture's invariant speaks of changes. -/
abbrev KeepsStand (t s : State) : Prop :=
  t.posture.posture = s.posture.posture ∧ t.posture.windows = s.posture.windows ∧ t.att.present = s.att.present ∧
  t.pins.lidClosed = s.pins.lidClosed ∧ t.held = s.held

@[simp] theorem enterFaulted_stand (s : State) : KeepsStand (enterFaulted s) s := by simp [KeepsStand, enterFaulted]

@[simp] theorem startTraining_stand (s : State) : KeepsStand (startTraining s) s := by simp [KeepsStand, startTraining]

@[simp] theorem startResetDrive_stand (s : State) : KeepsStand (startResetDrive s) s := by simp [KeepsStand, startResetDrive]

@[simp] theorem enterUnreachable_stand (s : State) : KeepsStand (enterUnreachable s) s := by simp [KeepsStand, enterUnreachable]

@[simp] theorem attemptFails_stand (s : State) : KeepsStand (attemptFails s) s := by
  unfold attemptFails
  (repeat' split) <;> simp [KeepsStand]

@[simp] theorem attemptSucceeds_stand (s : State) : KeepsStand (attemptSucceeds s) s := by simp [KeepsStand, attemptSucceeds]

@[simp] theorem enterReady_stand (s : State) : KeepsStand (enterReady s) s := by
  unfold enterReady
  dsimp only
  split <;> simp [KeepsStand]

@[simp] theorem identificationEnds_stand (i : Identity) (s : State) : KeepsStand (identificationEnds i s) s := by
  unfold identificationEnds
  dsimp only
  (repeat' split) <;> simp [KeepsStand]

@[simp] theorem describeExpires_stand (s : State) : KeepsStand (describeExpires s) s := by
  unfold describeExpires
  (repeat' split) <;> simp [KeepsStand]

@[simp] theorem linkDrops_stand (s : State) : KeepsStand (linkDrops s) s := by simp [KeepsStand, linkDrops]

@[simp] theorem takeChunk_stand (number : Byte) (bytes : List Byte) (s : State) : KeepsStand (takeChunk number bytes s) s := by
  unfold takeChunk
  dsimp only
  (repeat' split) <;> simp [KeepsStand]

@[simp] theorem linkLoss_stand (s : State) : KeepsStand (linkLoss s) s := by simp [KeepsStand, linkLoss]

@[simp] theorem enterQuiet_stand (s : State) : KeepsStand (enterQuiet s) s := by simp [KeepsStand, enterQuiet]

@[simp] theorem quietExpires_stand (s : State) : KeepsStand (quietExpires s) s := by
  unfold quietExpires
  (repeat' split) <;> simp [KeepsStand]

@[simp] theorem wakeTimeExpires_stand (s : State) : KeepsStand (wakeTimeExpires s) s := by
  unfold wakeTimeExpires
  split <;> simp [KeepsStand]

@[simp] theorem keepAliveEchoes_stand (s : State) : KeepsStand (keepAliveEchoes s) s := by
  unfold keepAliveEchoes
  dsimp only
  (repeat' split) <;> simp [KeepsStand]

@[simp] theorem keepAliveWindowExpires_stand (s : State) : KeepsStand (keepAliveWindowExpires s) s := by
  unfold keepAliveWindowExpires
  split <;> simp [KeepsStand]

@[simp] theorem railUpExpires_stand (s : State) : KeepsStand (railUpExpires s) s := by
  unfold railUpExpires
  dsimp only
  (repeat' split) <;> simp [KeepsStand]

@[simp] theorem retryExpires_stand (s : State) : KeepsStand (retryExpires s) s := by
  unfold retryExpires
  split <;> simp [KeepsStand]

@[simp] theorem trainingEchoes_stand (unchanged : Bool) (s : State) : KeepsStand (trainingEchoes unchanged s) s := by
  unfold trainingEchoes
  (repeat' split) <;> simp [KeepsStand]

@[simp] theorem echoExpires_stand (s : State) : KeepsStand (echoExpires s) s := by
  unfold echoExpires
  split <;> simp [KeepsStand]

@[simp] theorem measurementEnds_stand (o : PinOutcome) (s : State) : KeepsStand (measurementEnds o s) s := by
  unfold measurementEnds
  dsimp only
  (repeat' split) <;> simp [KeepsStand]

@[simp] theorem baseResetTaken_stand (s : State) : KeepsStand (baseResetTaken s).1 s := by
  unfold baseResetTaken
  dsimp only
  (repeat' split) <;> simp [KeepsStand]

@[simp] theorem linkDiagnoseTaken_stand (s : State) : KeepsStand (linkDiagnoseTaken s).1 s := by
  unfold linkDiagnoseTaken
  dsimp only
  (repeat' split) <;> simp [KeepsStand]

@[simp] theorem applyProtection_stand (c : OutCause) (p : Protection) (s : State) : KeepsStand (applyProtection c p s) s := by
  unfold applyProtection
  split
  · unfold setLatch
    dsimp only
    split <;> simp [KeepsStand]
  all_goals simp [KeepsStand]

@[simp] theorem becomesDetected_stand (c : OutCause) (s : State) : KeepsStand (becomesDetected c s) s := by simp [KeepsStand, becomesDetected]

@[simp] theorem rawAppears_stand (c : OutCause) (s : State) : KeepsStand (rawAppears c s) s := by
  unfold rawAppears
  dsimp only
  (repeat' split) <;> simp [KeepsStand]

@[simp] theorem filterExpires_stand (c : OutCause) (s : State) : KeepsStand (filterExpires c s) s := by
  unfold filterExpires
  split <;> simp [KeepsStand]

@[simp] theorem clearAlarms_stand (set : Nat) (s : State) : KeepsStand (clearAlarms set s) s := by
  unfold clearAlarms
  dsimp only
  (repeat' split) <;> simp [KeepsStand]

@[simp] theorem protectNow_stand (before : Guard) (s : State) : KeepsStand (protectNow before s) s := by
  unfold protectNow protectIfDue
  dsimp only
  (repeat' split) <;> simp [KeepsStand]

@[simp] theorem guardSetTaken_stand (a : GuardArg) (s : State) : KeepsStand (guardSetTaken a s).1 s := by
  unfold guardSetTaken
  (repeat' split) <;> simp [KeepsStand]

@[simp] theorem budgetSetTaken_stand (a : BudgetArg) (s : State) : KeepsStand (budgetSetTaken a s).1 s := by
  unfold budgetSetTaken
  dsimp only
  split <;> simp [KeepsStand]

@[simp] theorem applyReference_stand (src : RefSource) (count : Nat) (s : State) : KeepsStand (applyReference src count s) s := by
  unfold applyReference
  (repeat' split) <;> simp [KeepsStand]

@[simp] theorem movement_stand (s : State) : KeepsStand (movement s) s := by simp [KeepsStand, movement]

@[simp] theorem faultNoted_stand (c : EncoderCause) (code : BitVec 3) (s : State) : KeepsStand (faultNoted c code s) s := by
  simp [KeepsStand, faultNoted]

@[simp] theorem readCode_stand (s : State) : KeepsStand (readCode s) s := by
  unfold readCode
  split <;> simp [KeepsStand]

@[simp] theorem lidCloses_stand (s : State) : KeepsStand (lidCloses s) s := by simp [KeepsStand, lidCloses]

@[simp] theorem applyReference_moving (src : RefSource) (count : Nat) (s : State) :
    (applyReference src count s).posture.moving = s.posture.moving := by
  unfold applyReference
  (repeat' split) <;> simp

/-- A posture that stands goes over to a state that differs in nothing the invariant speaks of. -/
theorem postureHolds_of_stand {t s : State} (k : KeepsStand t s) (h : PostureHolds s) : PostureHolds t := by
  obtain ⟨hposture, hwindows, hpresent, hpins, hheld⟩ := k
  simpa only [PostureHolds, hposture, hwindows, hpresent, hpins, hheld] using h

/-! ## The evaluation (R103) -/

/-- Every window in force gives one of the four postures of windows. -/
abbrev WindowsGive (s : State) : Prop := ∀ w ∈ s.posture.windows, isWindowPosture w.posture = true

/-- A posture that the evaluation may leave in force is neither SLATE nor CLOSED. -/
abbrev OpenWhileMoving (s : State) : Prop :=
  s.posture.moving = true → s.posture.lidOpened = false → s.att.present = true → s.pins.lidClosed = false →
    s.posture.posture ≠ .slate ∧ s.posture.posture ≠ .closed

/-- A posture of a window is neither SLATE nor CLOSED. -/
theorem isWindowPosture_ne {p : Posture} (h : isWindowPosture p = true) : p ≠ .slate ∧ p ≠ .closed := by
  cases p <;> simp_all [isWindowPosture]

/-- A window that is chosen is one of the table (R100). -/
theorem chooseWindow_mem {windows : List Window} {inForce : Option Nat} {count : Nat} {o : Orientation} {i : Nat}
    (h : chooseWindow windows inForce count o = some i) : ∃ w, windows[i]? = some w := by
  unfold chooseWindow at h
  dsimp only at h
  rw [Option.or_eq_some_iff] at h
  obtain hkept | ⟨_, hlowest⟩ := h
  · obtain ⟨_, hany⟩ := Option.filter_eq_some_iff.mp hkept
    obtain ⟨w, hw, _⟩ := (Option.any_eq_true ..).mp hany
    exact ⟨w, hw⟩
  · obtain ⟨hi, _⟩ := List.findIdx?_eq_some_iff_getElem.mp hlowest
    exact ⟨_, List.getElem?_eq_getElem hi⟩

/-- With the base present and the lid open the evaluation gives neither SLATE nor CLOSED. -/
theorem evaluated_open (s : State) (hwin : WindowsGive s) (hmov : OpenWhileMoving s) (hpresent : s.att.present = true)
    (hlid : s.pins.lidClosed = false) : (evaluated s).1 ≠ .slate ∧ (evaluated s).1 ≠ .closed := by
  unfold evaluated State.lidIsClosed
  simp only [hpresent, hlid, Bool.not_true, Bool.false_and, Bool.false_eq_true, if_false]
  split
  · simp
  · next hopened =>
    split
    · simp
    · split
      · next hmoving => exact hmov hmoving (Bool.eq_false_iff.mpr hopened) hpresent hlid
      · split
        · next i hi =>
          obtain ⟨w, hw⟩ := chooseWindow_mem hi
          simpa [hw] using isWindowPosture_ne (hwin w (List.mem_of_getElem? hw))
        · split
          · next hgiven => exact isWindowPosture_ne hgiven
          · simp

/-- An evaluation sets the posture it gives. -/
theorem evaluate_posture (s : State) : (evaluate s).posture.posture = (evaluated s).1 := by
  unfold evaluate
  dsimp only
  split
  · next h => exact h.symm
  · simp

/-- An evaluation leaves the windows. -/
@[simp] theorem evaluate_windows (s : State) : (evaluate s).posture.windows = s.posture.windows := by
  unfold evaluate
  dsimp only
  split <;> simp

/-- An evaluation makes the posture exact, whatever it was (R103). -/
theorem evaluate_holds (s : State) (hwin : WindowsGive s) (hmov : OpenWhileMoving s) : PostureHolds (evaluate s) := by
  have hslate : s.att.present = false → evaluated s = (.slate, none) := (evaluated_of s).1
  have hclosed : s.att.present = true → s.pins.lidClosed = true → evaluated s = (.closed, none) := (evaluated_of s).2.1
  have hopen := evaluated_open s hwin hmov
  refine ⟨?slate, fun _ => ?closed, by simpa [WindowsGive] using hwin⟩
  all_goals
    simp only [evaluate_posture, evaluate_frame]
    cases hp : s.att.present with
    | false => simp [hslate hp]
    | true =>
      cases hl : s.pins.lidClosed with
      | true => simp [hclosed hp hl]
      | false => simp [hopen hp hl]

/-! ## The posture through the commands -/

/-- Outside reset the posture stands as its invariant says. -/
abbrev Standing (s : State) : Prop := s.held = false ∧ PostureHolds s

/-- Where the posture stands an evaluation leaves no wrong posture in force. -/
theorem openWhileMoving_of {s : State} (h : Standing s) : OpenWhileMoving s := by
  obtain ⟨hheld, hslate, hclosed, _⟩ := h
  intro _ _ hpresent hlid
  simp [hslate, hclosed hheld, hpresent, hlid]

theorem standing_of_stand {t s : State} (k : KeepsStand t s) (h : Standing s) : Standing t :=
  ⟨k.2.2.2.2.trans h.1, postureHolds_of_stand k h.2⟩

/-- An evaluation in another state that differs in nothing the invariant speaks of. -/
theorem evaluate_standing {s : State} (h : Standing s) : Standing (evaluate s) :=
  ⟨by simpa using h.1, evaluate_holds s h.2.2.2 (openWhileMoving_of h)⟩

theorem reference_standing (src : RefSource) (count : Nat) (s : State) (h : Standing s) : Standing (reference src count s) := by
  have happlied : Standing (applyReference src count s) := standing_of_stand (by simp [KeepsStand]) h
  unfold reference
  dsimp only
  split
  · exact happlied
  · exact evaluate_standing happlied

theorem encoderFault_standing (c : EncoderCause) (code : BitVec 3) (s : State) (h : Standing s) : Standing (encoderFault c code s) := by
  have hmoved : Standing (movement (faultNoted c code s)) := standing_of_stand (by simp [KeepsStand]) h
  unfold encoderFault
  dsimp only
  split
  · exact evaluate_standing hmoved
  · exact hmoved

theorem moveBy_standing (code : BitVec 3) (steps : Int) (s : State) (h : Standing s) : Standing (moveBy code steps s) := by
  unfold moveBy
  split
  · exact standing_of_stand (by simp [KeepsStand]) h
  · split
    · exact standing_of_stand (by simp [KeepsStand]) h
    · exact encoderFault_standing _ _ _ h

theorem codeRead_standing (code : BitVec 3) (pos : Nat) (s : State) (h : Standing s) : Standing (codeRead code pos s) := by
  unfold codeRead
  dsimp only
  split
  · exact standing_of_stand (by simp [KeepsStand]) h
  · split
    · exact standing_of_stand (by simp [KeepsStand]) h
    · split
      · exact h
      · split
        · exact encoderFault_standing _ _ _ h
        · exact moveBy_standing _ _ _ h

theorem codeChanges_standing (code : BitVec 3) (s : State) (h : Standing s) : Standing (codeChanges code s) := by
  unfold codeChanges
  dsimp only
  split
  · exact h
  · split
    · exact h
    · split
      · exact codeRead_standing _ _ _ h
      · exact encoderFault_standing _ _ _ h

/-- Settled, the hinge is evaluated with nothing moving. -/
theorem settleExpires_standing (s : State) (h : Standing s) : Standing (settleExpires s) := by
  refine ⟨by simpa using h.1, evaluate_holds _ ?_ ?_⟩
  · simpa [WindowsGive] using h.2.2.2
  · simp [OpenWhileMoving]

theorem lidAsserts_standing (s : State) (h : Standing s) : Standing (lidAsserts s) := by
  have hwin : WindowsGive s := h.2.2.2
  refine ⟨by simpa using h.1, ?_⟩
  unfold lidAsserts
  dsimp only
  split
  · exact h.2
  · split
    · exact evaluate_holds _ (by simpa [WindowsGive] using hwin) (by simp [OpenWhileMoving])
    · next habsent =>
      have hslate : s.posture.posture = .slate := h.2.1.mpr (Bool.eq_false_iff.mpr habsent)
      exact ⟨h.2.1, fun _ => by simp [habsent, hslate], hwin⟩

theorem lidReleases_standing (s : State) (h : Standing s) : Standing (lidReleases s) := by
  have hwin : WindowsGive s := h.2.2.2
  refine ⟨by simpa using h.1, ?_⟩
  unfold lidReleases
  dsimp only
  split
  · exact h.2
  · split
    · exact evaluate_holds _ (by simpa [WindowsGive] using hwin) (by simp [OpenWhileMoving, movement, postEvent, addHold])
    · next habsent =>
      have hslate : s.posture.posture = .slate := h.2.1.mpr (Bool.eq_false_iff.mpr habsent)
      exact ⟨h.2.1, fun _ => by simp [habsent, hslate], hwin⟩

theorem foldFlatAsserts_standing (s : State) (h : Standing s) : Standing (foldFlatAsserts s) := by
  unfold foldFlatAsserts
  dsimp only
  split
  · exact h
  · split
    · exact reference_standing _ _ _ h
    · exact h

theorem gravityCheck_standing (b : Bool) (s : State) (h : Standing s) : Standing (gravityCheck b s) := by
  unfold gravityCheck
  dsimp only
  split
  · next lid base _ _ =>
    by_cases hdue : checkIsDue s (if b = true then lid else base) (if b = true then base else lid) = true
    · rw [if_pos hdue]
      exact reference_standing _ _ _ h
    · rwa [if_neg hdue]
  · exact h

theorem postureBaseSample_standing (x y z : Int) (s : State) (h : Standing s) : Standing (postureBaseSample x y z s) := by
  unfold postureBaseSample
  split
  · split
    · exact gravityCheck_standing _ _ h
    · exact h
  · exact h

theorem orientSample_standing (x y z : Word16) (s : State) (h : Standing s) : Standing (orientSample x y z s) := by
  unfold orientSample setCandidate
  dsimp only
  split
  · exact h
  · split
    · exact h
    · exact evaluate_standing h

/-- With the base present, nothing moving, the posture unit's start of a session makes the posture exact (R106). -/
theorem posturePresent_holds (s : State) (hwin : WindowsGive s) : PostureHolds (posturePresent s) := by
  unfold posturePresent
  dsimp only
  split
  · next hlid => exact evaluate_holds _ (by simpa [WindowsGive] using hwin) (by simp_all [OpenWhileMoving])
  · split
    · exact evaluate_holds _ (by simpa [WindowsGive] using hwin) (by simp [OpenWhileMoving])
    · exact evaluate_holds _ (by simpa [WindowsGive] using hwin) (by simp [OpenWhileMoving])

/-- With the base gone the posture unit's end of a session gives SLATE (R106). -/
theorem postureDetached_holds (s : State) (hwin : WindowsGive s) (hpresent : s.att.present = false) : PostureHolds (postureDetached s) := by
  unfold postureDetached
  dsimp only
  split <;> exact evaluate_holds _ (by simpa [WindowsGive] using hwin) (by simp [OpenWhileMoving, hpresent])

/-! ## Start-up -/

/-- What each type's content, the store's records and the end of start-up keep, an image that is read keeps (R204, R205). -/
theorem imageRead_keeps {inv : State → Prop} (hstore : ∀ s st, st.state = s.store.state → inv s → inv { s with store := st })
    (happly : ∀ t content s s', applyType t content s = some s' → inv s → inv s') (hends : ∀ r s, inv s → inv (startUpEnds r s))
    (length : Nat) (crc : Word16) (body : List Byte) (s : State) (h : inv s) : inv (imageRead length crc body s) := by
  have hsections (sections : List Section) (u : State) (hu : inv u) : inv (applySections sections u) := by
    refine List.foldlRecOn _ _ hu fun v hv t _ => ?_
    dsimp only
    split
    · cases happlied : applyType t (joined sections (BitVec.ofNat 8 t)) v with
      | none => exact hv
      | some v' => exact happly _ _ _ _ happlied hv
    · exact hv
  unfold imageRead
  dsimp only
  split
  · exact hends _ _ (hsections _ _ (hstore _ _ rfl h))
  · exact hends _ _ h

/-- What each type's content, the store's records and the end of start-up keep, a read of start-up keeps (R204). -/
theorem readAnswered_keeps {inv : State → Prop} (hstore : ∀ s st, st.state = s.store.state → inv s → inv { s with store := st })
    (happly : ∀ t content s s', applyType t content s = some s' → inv s → inv s') (hends : ∀ r s, inv s → inv (startUpEnds r s))
    (bytes : List Byte) (s : State) (h : inv s) : inv (readAnswered bytes s) := by
  have hholds (offset : Nat) (answer : List Byte) : inv (storeHolds offset answer s) := hstore _ _ rfl h
  unfold readAnswered headerRead
  dsimp only
  (repeat' split) <;>
    first
      | exact h
      | exact imageRead_keeps hstore happly hends _ _ _ _ (hholds _ _)
      | exact hends _ _ (hholds _ _)
      | exact hstore _ _ rfl (hholds _ _)

/-- What each setting keeps, the settings carried keep (R195). -/
theorem applySettings_keeps {inv : State → Prop} (hgrace : ∀ n s, inv s → inv { s with sleep := { s.sleep with graceTime := n } })
    (hsettle : ∀ n s, inv s → inv { s with posture := { s.posture with settleTime := n } }) (hdwell : ∀ n s, inv s → inv (setDwell n s))
    (hrate : ∀ p s, inv s → inv { s with poller := p })
    (hdiscard : ∀ n s, inv s → inv { s with issuer := { s.issuer with discardTime := n } })
    (henables : ∀ e s, inv s → inv (setEnables e s)) (a : SettingsArg) (s : State) (h : inv s) : inv (applySettings a s) := by
  have hcarried {α : Type} (v : Option α) (set : α → State → State) (hset : ∀ a u, inv u → inv (set a u)) (u : State) (hu : inv u) :
      inv (carried v set u) := by
    cases v with
    | none => exact hu
    | some b => exact hset b u hu
  have hrateSet (r : SampleRate) (u : State) (hu : inv u) : inv (setRate r u) := by
    unfold setRate
    split
    · exact hu
    · exact hrate _ u hu
  exact hcarried _ _ henables _ (hcarried _ _ hdiscard _ (hcarried _ _ hrateSet _
    (hcarried _ _ hdwell _ (hcarried _ _ hsettle _ (hcarried _ _ hgrace _ h)))))

/-! ## The posture through the commands, concluded -/

/-- The posture of a window that passes its check is one of the four (R101). -/
theorem checkWindow_posture {r : RawWindow} {w : Window} (h : checkWindow r = some w) : isWindowPosture w.posture = true := by
  simp only [checkWindow, bind, Option.bind_eq_some_iff] at h
  obtain ⟨p, hp, c, _, h⟩ := h
  split at h
  · obtain rfl := Option.some.inj h
    have hmem : p ∈ windowPostureList := by
      unfold pick at hp
      split at hp
      · cases hp
      · exact List.mem_of_getElem? hp
    show isWindowPosture p = true
    cases p <;> revert hmem <;> decide
  · cases h

/-- The windows of a table that is read give their four postures. -/
theorem readTable_windows {content : List Byte} {l : List Window} (h : readTable parseWindow checkWindow 8 content = some l) :
    ∀ w ∈ l, isWindowPosture w.posture = true := by
  unfold readTable at h
  split at h
  · intro w hw
    obtain ⟨r, _, hr⟩ := (mapM_mem _ _ _ h).2 w hw
    exact checkWindow_posture hr
  · cases h

/-- A type's content leaves the posture standing. -/
theorem applyType_standing (t : Nat) (content : List Byte) (s s' : State) (happlied : applyType t content s = some s')
    (h : Standing s) : Standing s' := by
  unfold applyType at happlied
  split at happlied <;> simp only [Option.map_eq_some_iff, Option.some.injEq] at happlied
  case h_2 =>
    obtain ⟨l, hl, rfl⟩ := happlied
    exact ⟨h.1, h.2.1, h.2.2.1, readTable_windows hl⟩
  all_goals first
    | subst happlied; exact h
    | obtain ⟨_, _, rfl⟩ := happlied; exact h

@[simp] theorem startUpEnds_stand (r : StartResult) (s : State) : KeepsStand (startUpEnds r s) s := by
  unfold startUpEnds samplePresence
  dsimp only
  (repeat' split) <;> simp [KeepsStand]

theorem presenceAsserts_stand (s : State) : KeepsStand (presenceAsserts s) s := by
  unfold presenceAsserts
  dsimp only
  (repeat' split) <;> simp [KeepsStand]

theorem dockAsserts_stand (s : State) : KeepsStand (dockAsserts s) s := by
  unfold dockAsserts
  dsimp only
  (repeat' split) <;> simp [KeepsStand]

theorem dockReleases_stand (s : State) : KeepsStand (dockReleases s) s := by
  unfold dockReleases
  dsimp only
  (repeat' split) <;> simp [KeepsStand]

@[simp] theorem exchangeUnanswered_stand (s : State) : KeepsStand (exchangeUnanswered s) s := by
  unfold exchangeUnanswered
  (repeat' split) <;> simp [KeepsStand, operationEnds]

theorem readAnswered_standing (bytes : List Byte) (s : State) (h : Standing s) : Standing (readAnswered bytes s) :=
  readAnswered_keeps (fun _ _ _ h => h) applyType_standing
    (fun r s h => standing_of_stand (startUpEnds_stand r s) h) bytes s h

theorem postureLidSample_standing (x y z : Int) (s : State) (h : Standing s) : Standing (postureLidSample x y z s) := by
  unfold postureLidSample
  exact gravityCheck_standing _ _ h

theorem standing_routing : KeepsRouting Standing where
  records _ _ h := h
  lid x y z s h := postureLidSample_standing x y z s h
  orient x y z s h := orientSample_standing x y z s h
  base x y z s h := postureBaseSample_standing x y z s h
  pen _ _ h := standing_of_stand (by simp [KeepsStand]) h
  drain _ h := standing_of_stand (by simp [KeepsStand]) h
  noBase _ h := standing_of_stand (by simp [KeepsStand]) h
  wake _ _ h := standing_of_stand (by simp [KeepsStand]) h
  up _ _ _ _ h := h
  down _ _ _ _ h := h

theorem standing_frames : KeepsFrames Standing where
  drops _ h := standing_of_stand (by simp [KeepsStand]) h
  run _ _ h := h
  timers _ _ _ h := standing_of_stand (by simp [KeepsStand]) h
  loss _ _ h := standing_of_stand (by simp [KeepsStand]) h
  signal _ _ h := standing_of_stand (by simp [KeepsStand]) h
  traffic _ _ _ _ s h := routeFrame_keeps standing_routing _ _ _ _ s h
  response _ _ h := standing_of_stand (by simp [KeepsStand]) h
  busy _ _ h := standing_of_stand (by simp [KeepsStand]) h
  reject _ _ h := standing_of_stand (by simp [KeepsStand]) h
  chunk _ _ _ _ h := standing_of_stand (by simp [KeepsStand]) h

/-- A write of a window leaves the posture standing: the window has passed its check (R101). -/
theorem answerWindowWrite_standing (i : Nat) (w : RawWindow) (s : State) (h : Standing s) : Standing (answerWindowWrite i w s).after := by
  unfold answerWindowWrite
  split
  · split
    · next v hv =>
      refine ⟨h.1, h.2.1, h.2.2.1, fun u hu => ?_⟩
      obtain hold | rfl := List.mem_or_eq_of_mem_set hu
      · exact h.2.2.2 u hold
      · exact checkWindow_posture hv
    · exact h
  · exact h

/-- An owner's answer leaves the posture standing. -/
theorem ownerAnswer_standing (q : Request) (s : State) (h : Standing s) : Standing (ownerAnswer q s).after := by
  cases q
  case windowWrite i w => exact answerWindowWrite_standing i w s h
  case routeRead | windowRead | policyRead =>
    rw [ownerAnswer, answerEntry]
    (repeat' split) <;> exact h
  case countersPosture => exact h
  case settingsSet a =>
    rw [ownerAnswer, answerSettings]
    split
    · exact applySettings_keeps (fun _ _ h => h) (fun _ _ h => h) (fun _ _ h => standing_of_stand (by simp [KeepsStand]) h)
        (fun _ _ h => h) (fun _ _ h => h) (fun _ _ h => h) a s h
    · exact h
  case alarmClear causes =>
    refine standing_of_stand ?_ h
    rw [ownerAnswer, answerAlarmClear]
    split <;> simp [KeepsStand]
  case guardSet a => exact standing_of_stand (guardSetTaken_stand a s) h
  case budgetSet a => exact standing_of_stand (budgetSetTaken_stand a s) h
  all_goals exact standing_of_stand (by simp [KeepsStand, ownerAnswer, statusOnly, withChargeRecord, withOrientationRecord]) h

theorem requestArrives_standing (q : Request) (s : State) (h : Standing s) : Standing (requestArrives q s) :=
  requestArrives_keeps (fun _ _ h => h) (fun q s _ h => ownerAnswer_standing q s h) q s h

/-- RESTART gives the posture of the cold reset. -/
theorem restartHub_standing (s : State) : Standing (restartHub s) := by
  refine ⟨rfl, ⟨fun _ => rfl, fun _ => rfl⟩, fun _ => ⟨?_, ?_⟩, ?_⟩
  · intro h
    cases h
  · intro h
    cases h.1
  · exact (by decide : ∀ w ∈ factoryWindows, isWindowPosture w.posture = true)

theorem debounceExpires_standing (s : State) (h : Standing s) : Standing (debounceExpires s) := by
  have hwin : WindowsGive s := h.2.2.2
  refine ⟨by simpa using h.1, ?_⟩
  unfold debounceExpires
  split
  · dsimp only
    have hpresent (u : State) (hu : WindowsGive u) : PostureHolds (switchOutputs (posturePresent u)) :=
      postureHolds_of_stand (by simp [KeepsStand]) (posturePresent_holds u hu)
    have hpowering (u : State) : KeepsStand (enterPowering false u) u := by simp [KeepsStand]
    split
    · exact postureHolds_of_stand (enterFaulted_stand _) (hpresent _ (by exact hwin))
    · exact postureHolds_of_stand (hpowering _) (hpresent _ (by exact hwin))
  · exact h.2

/-- Without the base a detach leaves the posture SLATE. -/
theorem detachBase_holds (s : State) (hwin : WindowsGive s) : PostureHolds (detachBase s) := by
  have htold (u : State) : KeepsStand (post (.attach .detached) (postEvent .baseDetached u)) u := by simp [KeepsStand]
  unfold detachBase
  exact postureHolds_of_stand (htold _) (postureDetached_holds _ (by simpa [WindowsGive] using hwin) (by simp))

theorem presenceReleases_standing (s : State) (h : Standing s) : Standing (presenceReleases s) := by
  have hwin : WindowsGive s := h.2.2.2
  refine ⟨by simpa using h.1, ?_⟩
  unfold presenceReleases
  split
  · exact h.2
  · dsimp only
    split
    · exact h.2
    · exact postureHolds_of_stand (by simp [KeepsStand]) h.2
    · exact detachBase_holds _ hwin

/-- A command's own effect leaves the posture standing. -/
theorem effect_standing (c : Instr) (s : State) (h : Standing s) : PostureHolds (effect c s) := by
  cases hq : requestOf c with
  | some q => exact effect_of_request hq s ▸ (requestArrives_standing q s h).2
  | none =>
    have hframe (src : Source) (kind : Byte) (payload : List Byte) (damaged : Bool) (u : State) (hu : Standing u) :
        Standing (routeFrame src kind payload damaged u) := routeFrame_keeps standing_routing src kind payload damaged u hu
    have hengine (u : State) (hu : Standing u) : Standing (engineTakes u) :=
      engineTakes_keeps (fun _ _ h => h) (fun q s _ h => ownerAnswer_standing q s h) u hu
    cases c
    case coldReset => exact (restartHub_standing s).2
    case storeReadAnswered bytes => exact (readAnswered_standing bytes s h).2
    case receiveFault bytes =>
      exact (bytesArrive_keeps (fun _ _ _ h => h) requestArrives_standing (fun _ _ u => hframe _ _ _ _ u) bytes s h).2
    case dataParcel tag payload | requestParcel code payload =>
      exact (parcelArrives_keeps (fun _ _ _ h => h) requestArrives_standing (fun _ _ u => hframe _ _ _ _ u) _ _ _ s h).2
    case parcelSent =>
      exact (parcelSent_keeps (fun _ _ _ h => h) (fun _ h => h) hengine (fun u _ => restartHub_standing u) s h).2
    case detach => exact (presenceReleases_standing s h).2
    case debounceExpiry => exact (debounceExpires_standing s h).2
    case baseTrafficFrame kind payload check => exact (trafficArrives_keeps standing_frames kind payload check s h).2
    case response payload check => exact (responseArrives_keeps standing_frames payload check s h).2
    case busyResponse payload check =>
      exact (answerArrives_keeps standing_frames _ _ standing_frames.busy payload check s h).2
    case reject payload check =>
      exact (answerArrives_keeps standing_frames _ _ standing_frames.reject payload check s h).2
    case wakeSignal payload check => exact (wakeSignalArrives_keeps standing_frames payload check s h).2
    case unlistedKindFrame kind payload check => exact (unlistedArrives_keeps standing_frames kind payload check s h).2
    case encoderCodeChange code => exact (codeChanges_standing code s h).2
    case settleTimerExpiry =>
      rw [effect]
      split
      · exact (settleExpires_standing s h).2
      · exact h.2
    case lidSwitchAssert => exact (lidAsserts_standing s h).2
    case lidSwitchRelease => exact (lidReleases_standing s h).2
    case foldFlatAssert => exact (foldFlatAsserts_standing s h).2
    case foldFlatRelease => exact h.2
    case lidMotion x y z busError => exact (hframe _ _ _ _ { s with poller := { s.poller with reading := false } } h).2
    case penStatus payload damaged => exact (hframe _ _ _ _ s h).2
    case presenceAssert => exact postureHolds_of_stand (presenceAsserts_stand s) h.2
    case dockSwitchAssert => exact postureHolds_of_stand (dockAsserts_stand s) h.2
    case penRemoval => exact postureHolds_of_stand (dockReleases_stand s) h.2
    case restartTakesEffect =>
      rw [effect]
      split
      · exact (restartHub_standing s).2
      · exact h.2
    case dwellReached | graceTimerExpiry =>
      rw [effect]
      split <;> exact postureHolds_of_stand (by simp [KeepsStand]) h.2
    all_goals first
      | exact absurd hq (Option.some_ne_none _)
      | exact postureHolds_of_stand (by simp [effect, KeepsStand]) h.2

/-- The end of a change leaves the posture standing. -/
theorem finish_holds {s : State} (h : PostureHolds s) : PostureHolds (finish s) :=
  postureHolds_of_stand (by simp [KeepsStand]) h

/-- A level of the outside world in reset leaves what the posture's invariant says then. -/
theorem heldEffect_holds (c : Instr) (s : State) (hheld : s.held = true) (h : PostureHolds s) : PostureHolds (heldEffect c s) := by
  obtain ⟨hslate, _, hwin⟩ := h
  have hreset {t : State} (ht : t.held = true) (hposture : t.posture = s.posture) (hatt : t.att = s.att) : PostureHolds t := by
    refine ⟨by rwa [hposture, hatt], fun hnot => ?_, by rwa [hposture]⟩
    rw [ht] at hnot
    cases hnot
  unfold heldEffect
  split <;> exact hreset hheld rfl rfl

end Sys2Proof.Machine

namespace Sys2Proof
open Machine

/-- Settles O59. -/
theorem everyStepKeepsThePosture : Obligations.EveryStepKeepsThePosture := by
  refine ⟨everyStepKeeps_of (fun _ _ _ _ h => h) (fun s _ => finish_holds (restartHub_standing s).2)
    (fun c s hheld h => heldEffect_holds c s hheld h) (fun s _ h => ?reset)
    (fun c s hheld h => finish_holds (effect_standing c s ⟨hheld, h⟩)) (fun _ _ h => h), ?events⟩
  case reset =>
    obtain ⟨hslate, _, hwin⟩ := h
    refine ⟨hslate, fun hnot => ?_, hwin⟩
    cases hnot
  case events =>
    exact everyStepKeeps_of (inv := fun s => s.policy.events = []) (fun _ _ _ _ h => h) (fun s _ => finish_events _)
      (fun c s _ h => by unfold heldEffect; split <;> exact h) (fun _ _ _ => rfl) (fun c s _ _ => finish_events _)
      (fun _ _ h => h)

end Sys2Proof

/-! PROOFS. What the supply guard's records, the outputs and the sleep records need of an operation, and that every operation which only
goes through such changes keeps them. -/
namespace Sys2Proof.Machine

/-! ## Changes beside the guard, the session, the presence, sleep and the transmitter -/

/-- The guard, the session state, the presence of the base, reset, sleep and the uplink transmitter are as they were. -/
abbrev KeepsSides (t s : State) : Prop :=
  t.guard = s.guard ∧ t.pen.session = s.pen.session ∧ t.att.present = s.att.present ∧ t.held = s.held ∧ t.sleep = s.sleep ∧ t.tx = s.tx

/-- What is kept by changes beside those records and by the hold-offs. -/
structure KeepsAside (P : State → Prop) : Prop where
  aside : ∀ {t s}, KeepsSides t s → P s → P t
  hold : ∀ r b s, P s → P (setHold r b s)

namespace KeepsAside

variable {P : State → Prop} (h : KeepsAside P)
include h

theorem post (n : Notice) (s : State) (hs : P s) : P (post n s) := h.aside (by simp [KeepsSides]) hs

theorem postEvent (e : PolicyEvent) (s : State) (hs : P s) : P (postEvent e s) := h.aside (by simp [KeepsSides]) hs

theorem setInputs (i : LedInputs) (s : State) (hs : P s) : P (setInputs i s) := h.aside (by simp [KeepsSides]) hs

theorem flushDown (s : State) (hs : P s) : P (flushDown s) := h.aside (by simp [KeepsSides]) hs

theorem stopLinkTimers (s : State) (hs : P s) : P (stopLinkTimers s) := h.aside (by simp [KeepsSides]) hs

theorem endDiagnosis (e : DiagEnd) (s : State) (hs : P s) : P (endDiagnosis e s) := h.aside (by simp [KeepsSides]) hs

theorem armPenTimer (s : State) (hs : P s) : P (armPenTimer s) := h.aside (by simp [KeepsSides]) hs

theorem stopPenTimers (s : State) (hs : P s) : P (stopPenTimers s) := h.aside (by simp [KeepsSides]) hs

theorem postBudget (g : Guard) (c : BudgetCause) (s : State) (hs : P s) : P (postBudget g c s) := h.aside (by simp [KeepsSides]) hs

theorem evaluate (s : State) (hs : P s) : P (evaluate s) := h.aside (by simp [KeepsSides]) hs

theorem addHold (r : Holdoff) (s : State) (hs : P s) : P (addHold r s) := h.hold r true s hs

theorem removeHold (r : Holdoff) (s : State) (hs : P s) : P (removeHold r s) := h.hold r false s hs

/-! ### The issuer -/

theorem issuerHold (s : State) (hs : P s) : P (issuerHold s) := h.hold _ _ s hs

theorem tryOffer (s : State) (hs : P s) : P (tryOffer s) := h.aside (by simp [KeepsSides]) hs

theorem linkEnding (s : State) (hs : P s) : P (linkEnding s) := h.issuerHold _ (h.aside (by simp [KeepsSides]) hs)

theorem endIssued (e : ReqEntry) (o : ReqOutcome) (r : Option (List Byte)) (s : State) (hs : P s) : P (endIssued e o r s) :=
  h.tryOffer _ (h.issuerHold _ (h.aside (by simp [KeepsSides]) hs))

theorem strayAnswer (s : State) (hs : P s) : P (strayAnswer s) := h.aside (by simp [KeepsSides]) hs

theorem takeResponse (payload : List Byte) (s : State) (hs : P s) : P (takeResponse payload s) := by
  unfold Machine.takeResponse
  (repeat' split) <;> first | exact h.endIssued _ _ _ s hs | exact h.strayAnswer s hs

theorem takeReject (payload : List Byte) (s : State) (hs : P s) : P (takeReject payload s) := by
  unfold Machine.takeReject
  split
  · exact h.endIssued _ _ _ s hs
  · exact h.strayAnswer s hs

theorem takeBusy (payload : List Byte) (s : State) (hs : P s) : P (takeBusy payload s) := by
  have hcounted (e : ReqEntry) : P (changeEntry e.target e.command (fun e' => { e' with attempts := e.attempts + 1 }) s) :=
    h.aside (by simp [KeepsSides]) hs
  unfold Machine.takeBusy
  split
  · dsimp only
    split
    · exact h.tryOffer _ (h.aside (by simp [KeepsSides]) hs)
    · exact h.endIssued _ _ _ _ (hcounted _)
  · exact h.strayAnswer s hs

theorem responseWindowExpires (s : State) (hs : P s) : P (responseWindowExpires s) := by
  unfold Machine.responseWindowExpires
  split
  · split
    · exact h.endIssued _ _ _ s hs
    · exact h.aside (by simp [KeepsSides]) hs
  · exact hs

theorem baseRequestTaken (target : Nat) (command : Byte) (data : List Byte) (s : State) (hs : P s) :
    P (baseRequestTaken target command data s).1 := by
  have hfiltered (t : List ReqEntry) : P { s with issuer := { s.issuer with table := t } } := h.aside (by simp [KeepsSides]) hs
  unfold Machine.baseRequestTaken
  dsimp only
  (repeat' split) <;> first | exact hs | exact hfiltered _ | exact h.tryOffer _ (h.addHold _ _ (hfiltered _))

/-! ### The posture unit -/

theorem movement (s : State) (hs : P s) : P (movement s) := h.addHold _ _ (h.aside (by simp [KeepsSides]) hs)

theorem settleExpires (s : State) (hs : P s) : P (settleExpires s) := by
  have hremoved : P (Machine.removeHold .hingeMoving { s with posture := { s.posture with moving := false, settle := none } }) :=
    h.removeHold _ _ (h.aside (by simp [KeepsSides]) hs)
  exact h.evaluate _ (h.aside (by simp [KeepsSides]) hremoved)

theorem faultNoted (c : EncoderCause) (code : BitVec 3) (s : State) (hs : P s) : P (faultNoted c code s) :=
  h.aside (by simp [KeepsSides]) hs

theorem encoderFault (c : EncoderCause) (code : BitVec 3) (s : State) (hs : P s) : P (encoderFault c code s) := by
  have hmoved := h.movement _ (h.faultNoted c code s hs)
  unfold Machine.encoderFault
  dsimp only
  split
  · exact h.evaluate _ hmoved
  · exact hmoved

theorem codeRead (code : BitVec 3) (pos : Nat) (s : State) (hs : P s) : P (codeRead code pos s) := by
  have hread : P { s with posture := { s.posture with lastCode := some pos, resync := false } } := h.aside (by simp [KeepsSides]) hs
  have hmove (steps : Int) (u : State) (hu : P u) : P (moveBy code steps u) := by
    unfold moveBy
    split
    · exact h.movement u hu
    · split
      · exact h.movement _ (h.aside (by simp [KeepsSides]) hu)
      · exact h.encoderFault _ _ u hu
  unfold Machine.codeRead
  dsimp only
  (repeat' split) <;> first | exact hread | exact h.movement _ hread | exact h.encoderFault _ _ _ hread | exact hmove _ _ hread

theorem codeChanges (code : BitVec 3) (s : State) (hs : P s) : P (codeChanges code s) := by
  have hlevel : P { s with pins := { s.pins with code := code } } := h.aside (by simp [KeepsSides]) hs
  unfold Machine.codeChanges
  dsimp only
  (repeat' split) <;>
    first | exact hs | exact hlevel | exact h.codeRead _ _ _ hlevel | exact h.encoderFault _ _ _ (h.aside (by simp [KeepsSides]) hlevel)

theorem lidReleases (s : State) (hs : P s) : P (lidReleases s) := by
  have hmoved (u : State) (hu : P u) : P (Machine.evaluate (Machine.postEvent .lidOpened (Machine.movement u))) :=
    h.evaluate _ (h.postEvent _ _ (h.movement u hu))
  unfold Machine.lidReleases
  dsimp only
  split
  · exact hs
  · split
    · exact hmoved _ (h.aside (by simp [KeepsSides]) hs)
    · exact h.aside (by simp [KeepsSides]) hs

theorem posturePresent (s : State) (hs : P s) : P (posturePresent s) := by
  have hread : P (Machine.removeHold .hingeMoving { readCode s with posture := { (readCode s).posture with
      count := none, moving := false, settle := none, lidOpened := false, window := none } }) :=
    h.removeHold _ _ (h.aside (by simp [KeepsSides]) hs)
  unfold Machine.posturePresent
  dsimp only
  split
  · exact h.evaluate _ (h.aside (by simp [KeepsSides]) hread)
  · split
    · exact h.evaluate _ (h.aside (by simp [KeepsSides]) hread)
    · exact h.evaluate _ hread

theorem postureDetached (s : State) (hs : P s) : P (postureDetached s) := by
  unfold Machine.postureDetached
  refine h.evaluate _ ?_
  dsimp only
  split
  · exact h.postEvent _ _ (h.removeHold _ _ (h.aside (by simp [KeepsSides]) hs))
  · exact h.removeHold _ _ (h.aside (by simp [KeepsSides]) hs)

/-! ### The link without its claims -/

theorem setLinkState (new : LinkState) (s : State) (hs : P s) : P (setLinkState new s) :=
  h.setInputs _ _ (h.hold _ _ _ (h.aside (by simp [KeepsSides]) hs))

theorem startTraining (s : State) (hs : P s) : P (startTraining s) :=
  h.aside (s := Machine.setLinkState .training s) (by simp [KeepsSides, Machine.startTraining]) (h.setLinkState _ _ hs)

theorem startResetDrive (s : State) (hs : P s) : P (startResetDrive s) :=
  h.aside (s := Machine.setLinkState .training s) (by simp [KeepsSides, Machine.startResetDrive]) (h.setLinkState _ _ hs)

theorem enterUnreachable (s : State) (hs : P s) : P (enterUnreachable s) :=
  h.post _ _ (h.aside (s := Machine.setLinkState .unreachable s) (by simp [KeepsSides]) (h.setLinkState _ _ hs))

theorem attemptFails (s : State) (hs : P s) : P (attemptFails s) := by
  have hat (r : Rate) (n : Nat) : P (attemptAt r n s) := h.aside (by simp [KeepsSides]) hs
  unfold Machine.attemptFails
  (repeat' split) <;> first | exact hat _ _ | exact h.enterUnreachable s hs

theorem attemptSucceeds (s : State) (hs : P s) : P (attemptSucceeds s) := by
  have hset : P (Machine.setLinkState .identifying { s with link := { s.link with echo := none } }) :=
    h.setLinkState _ _ (h.aside (by simp [KeepsSides]) hs)
  exact h.aside (by simp [KeepsSides, Machine.attemptSucceeds]) hset

theorem enterReady (s : State) (hs : P s) : P (enterReady s) := by
  have hset : P (Machine.setLinkState .ready s) := h.setLinkState _ _ hs
  unfold Machine.enterReady
  refine h.tryOffer _ ?_
  dsimp only
  split
  · exact h.postEvent _ _ (h.post _ _ (h.aside (by simp [KeepsSides]) hset))
  · exact h.post _ _ (h.aside (by simp [KeepsSides]) hset)

theorem linkLoss (s : State) (hs : P s) : P (linkLoss s) :=
  h.startTraining _ (h.flushDown _ (h.linkEnding _ (h.post _ _ (h.stopLinkTimers _ hs))))

theorem enterQuiet (s : State) (hs : P s) : P (enterQuiet s) :=
  h.aside (s := Machine.setLinkState .quiet s) (by simp [KeepsSides, Machine.enterQuiet]) (h.setLinkState _ _ hs)

theorem quietExpires (s : State) (hs : P s) : P (quietExpires s) := by
  have hlink (l : Link) : P { s with link := l } := h.aside (by simp [KeepsSides]) hs
  unfold Machine.quietExpires
  (repeat' split) <;> first | exact hs | exact hlink _ | exact h.enterQuiet s hs

theorem wakeTimeExpires (s : State) (hs : P s) : P (wakeTimeExpires s) := by
  have hset : P (Machine.setLinkState .ready s) := h.setLinkState _ _ hs
  unfold Machine.wakeTimeExpires
  split
  · exact h.tryOffer _ (h.aside (by simp [KeepsSides]) hset)
  · exact hs

theorem keepAliveEchoes (s : State) (hs : P s) : P (keepAliveEchoes s) := by
  have hlink (l : Link) : P { s with link := l } := h.aside (by simp [KeepsSides]) hs
  unfold Machine.keepAliveEchoes
  dsimp only
  (repeat' split) <;> first | exact hs | exact hlink _ | exact h.enterQuiet _ (hlink _)

theorem keepAliveWindowExpires (s : State) (hs : P s) : P (keepAliveWindowExpires s) := by
  unfold Machine.keepAliveWindowExpires
  split
  · exact h.linkLoss s hs
  · exact hs

theorem presenceAsserts (s : State) (hs : P s) : P (presenceAsserts s) := by
  have hlevel : P { s with pins := { s.pins with presence := true } } := h.aside (by simp [KeepsSides]) hs
  have hset := h.setLinkState .settling _ hlevel
  unfold Machine.presenceAsserts
  dsimp only
  (repeat' split) <;> first | exact hs | exact hlevel | exact h.aside (by simp [KeepsSides]) hset

theorem railUpExpires (s : State) (hs : P s) : P (railUpExpires s) := by
  have hlink (l : Link) : P { s with link := l } := h.aside (by simp [KeepsSides]) hs
  unfold Machine.railUpExpires
  dsimp only
  (repeat' split) <;> first | exact hs | exact h.startResetDrive _ (hlink _) | exact h.startTraining _ (hlink _)

theorem retryExpires (s : State) (hs : P s) : P (retryExpires s) := by
  unfold Machine.retryExpires
  split
  · exact h.startTraining _ (h.aside (by simp [KeepsSides]) hs)
  · exact hs

theorem trainingEchoes (unchanged : Bool) (s : State) (hs : P s) : P (trainingEchoes unchanged s) := by
  unfold Machine.trainingEchoes
  (repeat' split) <;> first | exact hs | exact h.attemptSucceeds s hs | exact h.attemptFails s hs

theorem echoExpires (s : State) (hs : P s) : P (echoExpires s) := by
  unfold Machine.echoExpires
  split
  · exact h.attemptFails s hs
  · exact hs

theorem measurementEnds (o : PinOutcome) (s : State) (hs : P s) : P (measurementEnds o s) := by
  unfold Machine.measurementEnds
  dsimp only
  split
  · split
    · split
      · exact h.startTraining _ (h.post _ _ (h.aside (by simp [KeepsSides]) hs))
      · exact h.aside (by simp [KeepsSides]) hs
    · exact hs
  · exact hs

theorem linkDiagnoseTaken (s : State) (hs : P s) : P (linkDiagnoseTaken s).1 := by
  have hset (d : Option Diagnosis) : P (Machine.setLinkState .diagnosing (Machine.stopLinkTimers (Machine.flushDown
      { s with att := { s.att with diagnosis := d } }))) :=
    h.setLinkState _ _ (h.stopLinkTimers _ (h.flushDown _ (h.aside (by simp [KeepsSides]) hs)))
  unfold Machine.linkDiagnoseTaken
  dsimp only
  (repeat' split) <;> first | exact hs | exact h.aside (by simp [KeepsSides]) (hset (some (Diagnosis.fresh s.link.state)))

/-! ### The store -/

theorem operationEnds (op : StoreOp) (e : StoreEnd) (s : State) (hs : P s) : P (operationEnds op e s) := by
  have hreleased (u : State) (hu : P u) : P (releaseRestart u) := h.aside (by simp [KeepsSides]) hu
  exact hreleased _ (h.post _ _ (h.removeHold _ _ (h.aside (by simp [KeepsSides]) hs)))

theorem pageTaken (s : State) (hs : P s) : P (pageTaken s) := by
  have hstore (st : Store) : P { s with store := st } := h.aside (by simp [KeepsSides]) hs
  have hafter (k : Nat) (u : State) (hu : P u) : P (afterPage k u) := by
    have hcounted (st : Store) : P { u with store := st } := h.aside (by simp [KeepsSides]) hu
    unfold afterPage nextPage writePage
    dsimp only
    (repeat' split) <;> first | exact h.operationEnds _ _ _ (hcounted _) | exact hcounted _
  unfold Machine.pageTaken
  split
  · exact hafter _ _ (hstore _)
  · exact hs

theorem answerSave (s : State) (hs : P s) : P (answerSave s).after := by
  unfold Machine.answerSave beginSave writePage
  split
  · exact h.addHold _ _ (h.aside (by simp [KeepsSides]) hs)
  · exact hs

theorem answerErase (s : State) (hs : P s) : P (answerErase s).after := by
  unfold Machine.answerErase beginErase writePage
  split
  · exact h.addHold _ _ (h.aside (by simp [KeepsSides]) hs)
  · exact hs

/-! ### Frames beside the taps' sessions -/

theorem lossByRun (s : State) (hs : P s) : P (lossByRun s) := by
  unfold Machine.lossByRun
  split
  · exact h.linkLoss s hs
  · exact hs

end KeepsAside

/-! ## Changes of the guard's figures, the sessions and the presence -/

/-- What is kept by sessions and claims: `loose` holds while the outputs have not followed a change yet, and `strict` once they have. -/
structure KeepsPowered (loose strict : State → Prop) : Prop where
  looseAside : KeepsAside loose
  strictAside : KeepsAside strict
  weaken : ∀ s, strict s → loose s
  switch : ∀ s, loose s → strict (switchOutputs s)
  session : ∀ p s, loose s → loose { s with pen := p }
  presence : ∀ a s, loose s → loose { s with att := a }
  penClaim : ∀ l s, loose s → loose { s with guard := s.guard.penClaim l }
  penClaimPaused : ∀ l s, s.pen.session = .paused → strict s → strict { s with guard := s.guard.penClaim l }
  penRelease : ∀ s, loose s → loose { s with guard := s.guard.penRelease }
  baseClaim : ∀ n g s, s.guard.baseClaim n = some g → loose s → loose { s with guard := g }
  baseRelease : ∀ s, loose s → loose { s with guard := s.guard.baseRelease }
  lower : ∀ p n s, loose s → loose { s with guard := (s.guard.lower p n).1 }
  profiles : ∀ p n s, s.guard.budget ≤ p.get n → strict s → strict { s with guard := { s.guard with profiles := p, active := n } }
  regrant : ∀ s, loose s → loose { s with guard := s.guard.regrant }

namespace KeepsPowered

variable {loose strict : State → Prop} (h : KeepsPowered loose strict)
include h

/-! ### Sessions -/

theorem claimStep (c : ClaimStep) (s : State) (hs : loose s) : loose (claimStep c s) := by
  cases c with
  | keep => exact hs
  | claim l => exact h.looseAside.postBudget _ _ _ (h.penClaim l s hs)
  | release => exact h.looseAside.postBudget _ _ _ (h.penRelease s hs)

/-- A change of session makes the outputs follow, whatever they were (R147). -/
theorem goSession (new : PenState) (fault : Option FaultCause) (c : ClaimStep) (s : State) (hs : loose s) :
    strict (goSession new fault c s) :=
  h.strictAside.post _ _ (h.strictAside.setInputs _ _ (h.strictAside.armPenTimer _ (h.switch _ (h.claimStep c _
    (h.looseAside.hold _ _ _ (h.looseAside.stopPenTimers _ (h.session _ s hs)))))))

theorem claimSession (new : PenState) (l : PenLevel) (s : State) (hs : loose s) : strict (claimSession new l s) := by
  have hclaimed := h.goSession new none (.claim l) s hs
  unfold Machine.claimSession
  dsimp only
  split
  · exact h.goSession _ _ _ _ (h.weaken _ hclaimed)
  · exact hclaimed

theorem enterDetect (s : State) (hs : loose s) : strict (enterDetect s) := by
  unfold Machine.enterDetect
  split
  · exact h.goSession _ _ _ s hs
  · exact h.claimSession _ _ s hs

theorem enterSoftStart (s : State) (hs : loose s) : strict (enterSoftStart s) := by
  unfold Machine.enterSoftStart
  split
  · exact h.goSession _ _ _ s hs
  · exact h.claimSession _ _ s hs

theorem resumeSession (s : State) (hs : loose s) : strict (resumeSession s) := by
  unfold Machine.resumeSession
  split
  · exact h.enterSoftStart s hs
  · exact h.enterDetect s hs

theorem enterFault (c : FaultCause) (s : State) (hs : loose s) : strict (enterFault c s) := h.goSession _ _ _ s hs

theorem penTold (before : Option PenLevel) (s : State) (hs : strict s) : strict (penTold before s) := by
  have hloose := h.weaken _ hs
  unfold Machine.penTold
  split
  · exact hs
  · split
    case h_5 =>
      split
      · exact h.resumeSession _ hloose
      · exact hs
    case h_6 => exact hs
    all_goals
      split
      · exact h.goSession _ _ _ _ hloose
      · exact hs

/-- A record of the charger with the session state as it was is beside what is kept. -/
theorem penRecord (p : Charger) (s : State) (hp : p.session = s.pen.session) (hs : strict s) : strict { s with pen := p } :=
  h.strictAside.aside (by simp [KeepsSides, hp]) hs

theorem coilLatchTold (s : State) (hs : strict s) : strict (coilLatchTold s) := by
  unfold Machine.coilLatchTold
  split
  · exact hs
  · exact hs
  · exact h.penRecord _ s rfl hs
  · exact h.enterFault _ s (h.weaken _ hs)

theorem coilLatchGone (s : State) (hs : strict s) : strict (coilLatchGone s) := by
  unfold Machine.coilLatchGone
  split
  · exact h.enterDetect s (h.weaken _ hs)
  · exact hs

theorem dockAsserts (s : State) (hs : strict s) : strict (dockAsserts s) := by
  have hlevel : strict { s with pins := { s.pins with dock := true } } := h.strictAside.aside (by simp [KeepsSides]) hs
  unfold Machine.dockAsserts
  dsimp only
  (repeat' split) <;> first | exact hs | exact hlevel | exact h.strictAside.aside (by simp [KeepsSides]) hs

theorem dockDebounceExpires (s : State) (hs : strict s) : strict (dockDebounceExpires s) := by
  have hstopped : strict { s with pen := { s.pen with debounce := none } } := h.penRecord _ s rfl hs
  unfold Machine.dockDebounceExpires
  dsimp only
  split
  · split
    · exact hstopped
    · split
      · exact h.enterFault _ _ (h.weaken _ hstopped)
      · exact h.enterDetect _ (h.weaken _ hstopped)
  · exact hs

theorem dockReleases (s : State) (hs : strict s) : strict (dockReleases s) := by
  have hlevel : strict { s with pins := { s.pins with dock := false }, pen := { s.pen with debounce := none } } :=
    h.strictAside.aside (by simp [KeepsSides]) hs
  have hundocked := h.session { s.pen with debounce := none, docked := false } _ (h.weaken _ hlevel)
  unfold Machine.dockReleases
  dsimp only
  split
  · exact hs
  · split
    · exact hlevel
    · exact h.strictAside.postEvent _ _ (h.goSession _ _ _ _ hundocked)

theorem actOnStatus (percent : Nat) (full fault : Bool) (s : State) (hs : strict s) : strict (actOnStatus percent full fault s) := by
  have hdocked : strict (penDocks s) := by
    unfold penDocks
    split
    · exact hs
    · exact h.strictAside.postEvent _ _ (h.penRecord _ s rfl hs)
  have hfault := h.enterFault .penReported s (h.weaken _ hs)
  have htopped : strict (enterTopped s) := h.strictAside.postEvent _ _ (h.claimSession _ _ s (h.weaken _ hs))
  unfold Machine.actOnStatus
  dsimp only
  split
  case h_1 =>
    split
    · exact hs
    · split
      · exact h.enterFault _ _ (h.weaken _ hdocked)
      · split
        · exact h.strictAside.postEvent _ _ (h.goSession _ _ _ _ (h.weaken _ hdocked))
        · exact h.enterSoftStart _ (h.weaken _ hdocked)
  case h_2 =>
    split
    · exact hfault
    · split
      · exact htopped
      · exact hs
  case h_3 =>
    split
    · exact hfault
    · split
      · exact htopped
      · exact h.strictAside.armPenTimer s hs
  case h_4 =>
    split
    · exact hfault
    · split
      · exact h.claimSession _ _ _ (h.weaken _ hs)
      · exact h.strictAside.armPenTimer s hs
  case h_5 => exact hs

theorem penStatusTap (payload : List Byte) (s : State) (hs : strict s) : strict (penStatusTap payload s) := by
  unfold Machine.penStatusTap
  split
  · split
    · exact h.actOnStatus _ _ _ _ (h.penRecord _ s rfl hs)
    · exact hs
  · exact hs

theorem detectExpires (s : State) (hs : strict s) : strict (detectExpires s) := by
  unfold Machine.detectExpires
  split
  · split
    · exact h.enterFault _ s (h.weaken _ hs)
    · exact h.goSession _ _ _ s (h.weaken _ hs)
  · exact hs

theorem rampExpires (s : State) (hs : strict s) : strict (rampExpires s) := by
  unfold Machine.rampExpires
  split
  · exact h.goSession _ _ _ s (h.weaken _ hs)
  · exact hs

theorem silenceExpires (s : State) (hs : strict s) : strict (silenceExpires s) := by
  unfold Machine.silenceExpires
  split
  · exact h.enterFault _ s (h.weaken _ hs)
  · exact hs

theorem holdClaim (src : ClaimSource) (s : State) (hs : strict s) : strict (holdClaim src s) := by
  have hheld : strict { s with pen := { s.pen with hold := some src } } := h.penRecord _ s rfl hs
  unfold Machine.holdClaim
  split
  · dsimp only
    split
    · exact h.goSession _ _ _ _ (h.weaken _ hheld)
    · exact hheld
  · exact hheld
  · exact hs

theorem releaseClaim (src : ClaimSource) (s : State) (hs : strict s) : strict (releaseClaim src s) := by
  have hfree : strict { s with pen := { s.pen with hold := none } } := h.penRecord _ s rfl hs
  unfold Machine.releaseClaim
  split
  · exact hs
  · dsimp only
    split
    · exact h.resumeSession _ (h.weaken _ hfree)
    · exact hfree

theorem setRequested (l : PenLevel) (s : State) (hs : strict s) : strict (setRequested l s) := by
  have hwanted : strict { s with pen := { s.pen with requested := l } } := h.penRecord _ s rfl hs
  have hclaimed := h.switch _ (h.claimStep (.claim l) _ (h.weaken _ hwanted))
  have hpaused (hp : s.pen.session = .paused) : strict (Machine.claimStep (.claim l) { s with pen := { s.pen with requested := l } }) :=
    h.strictAside.postBudget _ _ _ (h.penClaimPaused l _ hp hwanted)
  unfold Machine.setRequested
  dsimp only
  split
  case h_1 | h_2 =>
    split
    · exact hwanted
    · split
      · exact h.goSession _ _ _ _ (h.weaken _ hclaimed)
      · exact hclaimed
  case h_3 hp =>
    split
    · split
      · exact h.enterSoftStart _ (h.weaken _ (hpaused hp))
      · exact hpaused hp
    · exact hwanted
  case h_4 => exact hwanted

theorem answerChargeRestart (s : State) (hs : strict s) : strict (answerChargeRestart s).after := by
  unfold Machine.answerChargeRestart
  split
  case h_2 => exact h.enterDetect s (h.weaken _ hs)
  all_goals exact hs

/-! ### Claims and releases of the base -/

theorem releaseBase (s : State) (hs : loose s) : strict (releaseBase s) :=
  h.penTold _ _ (h.switch _ (h.looseAside.postBudget _ _ _ (h.baseRelease s hs)))

theorem claimBase (within : Bool) (n : Nat) (s : State) (hs : strict s) : strict (claimBase within n s).1 := by
  unfold Machine.claimBase
  split
  · next g hg =>
    have hclaimed := h.baseClaim n g s hg (h.weaken _ hs)
    dsimp only
    split
    · exact h.switch _ hclaimed
    · exact h.penTold _ _ (h.switch _ (h.looseAside.postBudget _ _ _ hclaimed))
  · exact hs

theorem enterUnpowered (demand : Nat) (s : State) (hs : loose s) : strict (enterUnpowered demand s) :=
  h.strictAside.post _ _ (h.releaseBase _ (h.looseAside.setLinkState _ _ (h.looseAside.flushDown _ (h.looseAside.linkEnding _
    (h.looseAside.stopLinkTimers _ (h.looseAside.endDiagnosis _ s hs))))))

theorem enterFaulted (s : State) (hs : loose s) : strict (enterFaulted s) :=
  h.strictAside.postEvent _ _ (h.strictAside.post _ _ (h.releaseBase _ (h.looseAside.setLinkState _ _ (h.looseAside.flushDown _
    (h.looseAside.linkEnding _ (h.looseAside.stopLinkTimers _ (h.looseAside.endDiagnosis _ s hs)))))))

theorem enterPowering (within : Bool) (s : State) (hs : strict s) : strict (enterPowering within s) := by
  have hclaimed := h.claimBase within allowance _ (h.strictAside.setLinkState .powering s hs)
  unfold Machine.enterPowering
  dsimp only
  split
  · exact h.strictAside.aside (by simp [KeepsSides]) hclaimed
  · exact h.enterUnpowered _ _ (h.weaken _ hclaimed)

theorem identificationEnds (i : Identity) (s : State) (hs : strict s) : strict (identificationEnds i s) := by
  have hidentified : strict { s with att := { s.att with ident := i }, link := { s.link with describe := none } } :=
    h.strictAside.aside (by simp [KeepsSides]) hs
  have hclaimed := h.claimBase false i.railDemand _ hidentified
  unfold Machine.identificationEnds
  dsimp only
  split
  · exact h.strictAside.enterReady _ (h.releaseBase _ (h.weaken _ hidentified))
  · split
    · exact h.strictAside.enterReady _ hclaimed
    · exact h.enterUnpowered _ _ (h.weaken _ hclaimed)

theorem describeExpires (s : State) (hs : strict s) : strict (describeExpires s) := by
  unfold Machine.describeExpires
  split
  · split
    · exact h.strictAside.aside (by simp [KeepsSides]) hs
    · exact h.identificationEnds _ s hs
  · exact hs

theorem takeChunk (number : Byte) (bytes : List Byte) (s : State) (hs : strict s) : strict (takeChunk number bytes s) := by
  have hdropped : strict (linkDrops s) := h.strictAside.aside (by simp [KeepsSides]) hs
  have htaken (all : List Byte) : strict { s with link := { s.link with chunks := all } } :=
    h.strictAside.aside (by simp [KeepsSides]) hs
  unfold Machine.takeChunk
  dsimp only
  split
  · exact hdropped
  · split
    · exact h.identificationEnds _ s hs
    · split
      · exact hdropped
      · split
        · exact h.strictAside.aside (by simp [KeepsSides]) hs
        · exact h.identificationEnds _ _ (htaken _)

theorem debounceExpires (s : State) (hs : strict s) : strict (debounceExpires s) := by
  have hattached := h.presence { s.att with present := true, attachCount := wrapInc s.att.attachCount } s (h.weaken _ hs)
  have hpresent := h.switch _ (h.looseAside.posturePresent _ (h.looseAside.aside
    (t := { s with link := { s.link with debounce := none, session := .opened }
                   att := { s.att with present := true, attachCount := wrapInc s.att.attachCount } }) (by simp [KeepsSides]) hattached))
  unfold Machine.debounceExpires
  dsimp only
  split
  · split
    · exact h.enterFaulted _ (h.weaken _ hpresent)
    · exact h.enterPowering _ _ hpresent
  · exact hs

theorem detachBase (s : State) (hs : strict s) : strict (detachBase s) := by
  have hended := h.looseAside.endDiagnosis .detach s (h.weaken _ hs)
  unfold Machine.detachBase
  exact h.strictAside.post _ _ (h.strictAside.postEvent _ _ (h.strictAside.postureDetached _ (h.releaseBase _
    (h.looseAside.setLinkState _ _ (h.looseAside.flushDown _ (h.looseAside.linkEnding _ (h.looseAside.stopLinkTimers _
    (h.looseAside.aside (by simp [KeepsSides]) (h.presence { (Machine.endDiagnosis .detach s).att with present := false } _ hended)))))))))

theorem presenceReleases (s : State) (hs : strict s) : strict (presenceReleases s) := by
  have hlevel (l : Link) : strict { s with pins := { s.pins with presence := false }, link := l } :=
    h.strictAside.aside (by simp [KeepsSides]) hs
  unfold Machine.presenceReleases
  split
  · exact hs
  · dsimp only
    split
    · exact hlevel s.link
    · exact h.strictAside.setLinkState _ _ (hlevel _)
    · exact h.detachBase _ (hlevel s.link)

theorem baseResetTaken (s : State) (hs : strict s) : strict (baseResetTaken s).1 := by
  have hdriven := h.strictAside.startResetDrive _ (h.strictAside.flushDown _ (h.strictAside.linkEnding _ (h.strictAside.stopLinkTimers s hs)))
  have hpowering := h.enterPowering false s hs
  unfold Machine.baseResetTaken
  split
  case h_4 =>
    dsimp only
    split
    · exact h.strictAside.aside (by simp [KeepsSides]) hpowering
    · exact hpowering
  case h_5 | h_6 => exact hs
  all_goals exact hdriven

/-! ### Budgets -/

theorem changeBudget (p : Profiles) (n : Nat) (s : State) (hs : strict s) : strict (changeBudget p n s) := by
  unfold Machine.changeBudget
  dsimp only
  split
  · have hlowered : strict (Machine.switchOutputs (Machine.postBudget s.guard .budget { s with guard := (s.guard.lower p n).1 })) :=
      h.switch _ (h.looseAside.postBudget _ _ _ (h.lower p n s (h.weaken _ hs)))
    unfold lowerBudget
    refine h.penTold _ _ ?_
    dsimp only
    split
    · exact h.enterUnpowered _ _ (h.weaken _ hlowered)
    · exact hlowered
  · next hlow =>
    have hset := h.profiles p n s (Nat.le_of_not_lt hlow) hs
    split
    · unfold raiseBudget
      refine h.penTold _ _ (h.switch _ (h.looseAside.postBudget _ _ _ (h.regrant _ (h.weaken _ ?_))))
      dsimp only
      split
      · exact h.enterPowering _ _ hset
      · exact hset
    · exact hset

theorem budgetProfile (n : Nat) (s : State) (hs : strict s) : strict (budgetProfile n s) := by
  unfold Machine.budgetProfile
  split
  · exact hs
  · exact h.changeBudget _ _ s hs

theorem budgetSetTaken (a : BudgetArg) (s : State) (hs : strict s) : strict (budgetSetTaken a s).1 := by
  unfold Machine.budgetSetTaken
  dsimp only
  split
  · exact h.changeBudget _ _ s hs
  · exact hs

end KeepsPowered

/-! ## Sleep, alarms and the whole of a command's effect -/

/-- What is kept by the sleep controller's own changes and the uplink transmitter's (R8, R9, R171 to R182). -/
structure KeepsSleeping (P : State → Prop) : Prop where
  begins : ∀ s, P s → P (sleepBegin s)
  cancels : ∀ w s, P s → P (cancelSleep w s)
  wakes : ∀ k s, P s → P (wakeClaim k s)
  graceTime : ∀ n s, P s → P { s with sleep := { s.sleep with graceTime := n } }
  grace : ∀ s, s.sleep.grace.isSome = true → P s → P (graceExpires s)
  confirm : ∀ s, P s → P (confirmExpires s)
  pulse : ∀ s, P s → P (wakePulseEnds s)
  window : ∀ s, P s → P (wakeWindowExpires s)
  hello : ∀ s, P s → P (helloTaken s)
  asleep : ∀ s, hostListens s.sleep.power = true → P s → P (enterAsleep s)
  declined : ∀ s, s.sleep.power = .sleepAsked → P s → P { s with sleep := { s.sleep with power := .awake, confirm := none } }
  transmit : ∀ s, P s → P (startTransmit s)
  sent : ∀ s m, P s → P { s with tx := .idle, mgmt := m }

/-- What is kept by the alarms' events and requests (R135 to R144). -/
structure KeepsAlarmEvents (P : State → Prop) : Prop where
  appears : ∀ c s, P s → P (rawAppears c s)
  clears : ∀ c s, P s → P (rawClears c s)
  filter : ∀ c s, P s → P (filterExpires c s)
  hot : ∀ s, P s → P (dieOtAppears s)
  cool : ∀ s, P s → P (dieOtClears s)
  read : ∀ s, P s → P (stickyRead s)
  clear : ∀ n s, P s → P (clearAlarms n s)
  guard : ∀ a s, P s → P (guardSetTaken a s).1

section

variable {loose strict : State → Prop} (h : KeepsPowered loose strict) (hsleep : KeepsSleeping strict)
include h hsleep

/-- What sessions, claims and sleep keep, each claim of the policy engine keeps (R167). -/
theorem issueClaim_keeps (ev : PolicyEvent) (a : PolicyAction) (s : State) (hs : strict s) : strict (issueClaim ev a s) := by
  cases a with
  | sleepBegin => exact hsleep.begins s hs
  | sleepCancel => exact hsleep.cancels _ s hs
  | wake => exact hsleep.wakes _ s hs
  | orientLock => exact h.strictAside.aside (t := lockClaim .policy s) (by simp [KeepsSides]) hs
  | orientFree => exact h.strictAside.aside (t := freeClaim s) (by simp [KeepsSides]) hs
  | chargeHold => exact h.holdClaim .policy s hs
  | chargeAllow => exact h.releaseClaim .policy s hs
  | budgetProfile n => exact h.budgetProfile n s hs
  | indicate l src p => exact h.strictAside.aside (t := indicate l src p s) (by simp [KeepsSides]) hs

theorem drainEvents_keepsPowered (s : State) (hs : strict s) : strict (drainEvents s) :=
  drainEvents_keeps (fun _ hs => h.strictAside.aside (by simp [KeepsSides]) hs) (issueClaim_keeps h hsleep) s hs

theorem finish_keepsPowered (s : State) (hs : strict s) : strict (finish s) :=
  finish_keeps (fun _ hs => h.strictAside.aside (by simp [KeepsSides]) hs) (issueClaim_keeps h hsleep)
    (fun _ hs => h.strictAside.aside (by simp [KeepsSides]) hs) hsleep.transmit s hs

theorem keepsRouting_of_powered : KeepsRouting strict where
  records _ _ hs := h.strictAside.aside (by simp [KeepsSides]) hs
  lid _ _ _ _ hs := h.strictAside.aside (by simp [KeepsSides]) hs
  orient _ _ _ _ hs := h.strictAside.aside (by simp [KeepsSides]) hs
  base _ _ _ _ hs := h.strictAside.aside (by simp [KeepsSides]) hs
  pen payload s hs := h.penStatusTap payload s hs
  drain s hs := drainEvents_keepsPowered h hsleep s hs
  noBase s hs := h.strictAside.post _ s hs
  wake k s hs := hsleep.wakes k s hs
  up _ _ _ _ hs := h.strictAside.aside (by simp [KeepsSides]) hs
  down _ _ _ _ hs := h.strictAside.aside (by simp [KeepsSides]) hs

theorem routeFrame_keepsPowered (src : Source) (kind : Byte) (payload : List Byte) (damaged : Bool) (s : State) (hs : strict s) :
    strict (routeFrame src kind payload damaged s) := routeFrame_keeps (keepsRouting_of_powered h hsleep) src kind payload damaged s hs

theorem keepsFrames_of_powered : KeepsFrames strict where
  drops _ hs := h.strictAside.aside (by simp [KeepsSides]) hs
  run _ _ hs := h.strictAside.aside (by simp [KeepsSides]) hs
  timers _ _ _ hs := h.strictAside.aside (by simp [KeepsSides]) hs
  loss s _ hs := h.strictAside.linkLoss s hs
  signal _ _ hs := h.strictAside.aside (by simp [KeepsSides]) hs
  traffic src kind payload damaged s hs := routeFrame_keepsPowered h hsleep src kind payload damaged s hs
  response payload s hs := h.strictAside.takeResponse payload s hs
  busy payload s hs := h.strictAside.takeBusy payload s hs
  reject payload s hs := h.strictAside.takeReject payload s hs
  chunk number bytes s _ hs := h.takeChunk number bytes s hs

variable (halarm : KeepsAlarmEvents strict)
include halarm

/-- What sessions, claims, sleep and alarms keep, an owner's answer keeps (R193). -/
theorem ownerAnswer_keepsPowered (q : Request) (s : State) (hs : strict s) : strict (ownerAnswer q s).after := by
  have haside {t : State} (ht : KeepsSides t s) : strict t := h.strictAside.aside ht hs
  cases q
  case hello => exact hsleep.hello s hs
  case routeRead | windowRead | policyRead =>
    rw [ownerAnswer, answerEntry]
    split <;> exact hs
  case settingsSet a =>
    rw [ownerAnswer, answerSettings]
    split
    · exact applySettings_keeps hsleep.graceTime (fun _ _ hs => h.strictAside.aside (by simp [KeepsSides]) hs)
        (fun _ _ hs => h.strictAside.aside (by simp [KeepsSides]) hs) (fun _ _ hs => h.strictAside.aside (by simp [KeepsSides]) hs)
        (fun _ _ hs => h.strictAside.aside (by simp [KeepsSides]) hs) (fun _ _ hs => h.strictAside.aside (by simp [KeepsSides]) hs) a s hs
    · exact hs
  case baseRequest target command data => exact h.strictAside.baseRequestTaken target command data s hs
  case baseReset => exact h.baseResetTaken s hs
  case linkDiagnose => exact h.strictAside.linkDiagnoseTaken s hs
  case alarmRead => exact halarm.read s hs
  case alarmClear causes =>
    rw [ownerAnswer, answerAlarmClear]
    split
    · exact hs
    · exact halarm.clear causes s hs
  case guardSet a => exact halarm.guard a s hs
  case budgetSet a => exact h.budgetSetTaken a s hs
  case chargeLevel l => exact h.setRequested l s hs
  case chargeHold => exact h.holdClaim .request s hs
  case chargeRelease => exact h.releaseClaim .request s hs
  case chargeRestart => exact h.answerChargeRestart s hs
  case orientLock => exact haside (t := lockClaim .request s) (by simp [KeepsSides])
  case orientFree => exact haside (t := freeClaim s) (by simp [KeepsSides])
  case sleepConfirm =>
    rw [ownerAnswer, answerConfirm]
    split
    · next hasked => exact hsleep.asleep s (by rw [hasked]; rfl) hs
    · exact hs
  case sleepDecline =>
    rw [ownerAnswer, answerDecline]
    split
    · next hasked => exact hsleep.declined s hasked hs
    · exact hs
  case hostSleep =>
    rw [ownerAnswer, answerHostSleep]
    split
    case h_1 hp | h_2 hp | h_3 hp => exact hsleep.asleep s (by rw [hp]; rfl) hs
    case h_4 | h_5 => exact hs
  case storeSave => exact h.strictAside.answerSave s hs
  case storeErase => exact h.strictAside.answerErase s hs
  all_goals exact haside (by simp [KeepsSides, ownerAnswer])

/-- The arrival of a request keeps what the owners' answers keep (R189). -/
theorem requestArrives_keepsPowered (q : Request) (s : State) (hs : strict s) : strict (requestArrives q s) :=
  requestArrives_keeps (fun _ _ hs => h.strictAside.aside (by simp [KeepsSides]) hs)
    (fun q s _ hs => ownerAnswer_keepsPowered h hsleep halarm q s hs) q s hs

/-- A command's own effect keeps what sessions, claims, sleep and alarms keep, with the ends of start-up and the resets. -/
theorem effect_keepsPowered (c : Instr) (s : State) (hs : strict s)
    (hread : ∀ bytes, s.store.state = .starting → strict (readAnswered bytes s))
    (hends : s.store.state = .starting → strict (startUpEnds .storeAbsent s))
    (hcold : strict (coldReset s)) (hrestart : ∀ s, strict s → strict (restartHub s)) : strict (effect c s) := by
  have hport (u : State) (rx : Receiver) (n : Byte) (hu : strict u) : strict { u with rx := rx, uplinkErrors := n } :=
    h.strictAside.aside (by simp [KeepsSides]) hu
  have hrequest := requestArrives_keepsPowered h hsleep halarm
  have hframe (src : Source) (kind : Byte) (payload : List Byte) (damaged : Bool) (u : State) (hu : strict u) :
      strict (routeFrame src kind payload damaged u) := routeFrame_keepsPowered h hsleep src kind payload damaged u hu
  have hframes := keepsFrames_of_powered h hsleep
  have haside {t : State} (ht : KeepsSides t s) : strict t := h.strictAside.aside ht hs
  cases hq : requestOf c with
  | some q => exact effect_of_request hq s ▸ hrequest q s hs
  | none =>
    cases c
    case coldReset => exact hcold
    case restartTakesEffect =>
      rw [effect]
      split
      · exact hrestart s hs
      · exact hs
    case storeReadAnswered bytes =>
      by_cases hstarting : s.store.state = .starting
      · exact hread bytes hstarting
      · rw [effect, readAnswered, if_neg hstarting]
        exact hs
    case storeExchangeUnanswered =>
      rw [effect, exchangeUnanswered]
      split
      · split
        · next hstarting => exact hends hstarting
        · exact h.strictAside.operationEnds _ _ s hs
        · exact h.strictAside.operationEnds _ _ s hs
        · exact hs
      · exact hs
    case pageWriteTaken => exact h.strictAside.pageTaken s hs
    case receiveFault bytes => exact bytesArrive_keeps hport hrequest (fun _ _ u => hframe _ _ _ _ u) bytes s hs
    case dataParcel tag payload => exact parcelArrives_keeps hport hrequest (fun _ _ u => hframe _ _ _ _ u) _ tag payload s hs
    case requestParcel code payload => exact parcelArrives_keeps hport hrequest (fun _ _ u => hframe _ _ _ _ u) _ code payload s hs
    case parcelSent =>
      have hpool (u : State) (p : Pool) (hu : strict u) : strict { u with pool := p } := h.strictAside.aside (by simp [KeepsSides]) hu
      have hengine := engineTakes_keeps (inv := strict) (fun _ _ hu => h.strictAside.aside (by simp [KeepsSides]) hu)
        (fun q u _ hu => ownerAnswer_keepsPowered h hsleep halarm q u hu)
      rw [effect, parcelSent]
      split
      · exact hs
      · dsimp only
        split
        · exact hrestart _ (hsleep.sent s _ hs)
        · exact hengine _ (hsleep.sent s _ hs)
      · exact hsleep.sent s s.mgmt hs
      · exact hpool _ _ (hsleep.sent s s.mgmt hs)
    case presenceAssert => exact h.strictAside.presenceAsserts s hs
    case detach => exact h.presenceReleases s hs
    case debounceExpiry => exact h.debounceExpires s hs
    case railUpExpiry => exact h.strictAside.railUpExpires s hs
    case trainingEcho unchanged => exact h.strictAside.trainingEchoes unchanged s hs
    case echoWindowExpiry => exact h.strictAside.echoExpires s hs
    case retryTimerExpiry => exact h.strictAside.retryExpires s hs
    case describeWindowExpiry => exact h.describeExpires s hs
    case baseTrafficFrame kind payload check => exact trafficArrives_keeps hframes kind payload check s hs
    case response payload check => exact responseArrives_keeps hframes payload check s hs
    case busyResponse payload check => exact answerArrives_keeps hframes _ _ hframes.busy payload check s hs
    case reject payload check => exact answerArrives_keeps hframes _ _ hframes.reject payload check s hs
    case wakeSignal payload check => exact wakeSignalArrives_keeps hframes payload check s hs
    case unlistedKindFrame kind payload check => exact unlistedArrives_keeps hframes kind payload check s hs
    case quietTimerExpiry => exact h.strictAside.quietExpires s hs
    case wakeTimeExpiry => exact h.strictAside.wakeTimeExpires s hs
    case keepaliveEcho => exact h.strictAside.keepAliveEchoes s hs
    case keepaliveWindowExpiry => exact h.strictAside.keepAliveWindowExpires s hs
    case diagnosisMeasurementEnd outcome => exact h.strictAside.measurementEnds outcome s hs
    case responseWindowExpiry => exact h.strictAside.responseWindowExpires s hs
    case encoderCodeChange code => exact h.strictAside.codeChanges code s hs
    case settleTimerExpiry =>
      rw [effect]
      split
      · exact h.strictAside.settleExpires s hs
      · exact hs
    case lidSwitchRelease => exact h.strictAside.lidReleases s hs
    case lidMotion x y z busError => exact hframe _ _ _ _ { s with poller := { s.poller with reading := false } } (haside (by simp [KeepsSides]))
    case penStatus payload damaged => exact hframe _ _ _ _ s hs
    case alarmRawAppears cause => exact halarm.appears cause s hs
    case alarmRawClears cause => exact halarm.clears cause s hs
    case filterTimerExpiry cause => exact halarm.filter cause s hs
    case dieOtDetected => exact halarm.hot s hs
    case dieOtCleared => exact halarm.cool s hs
    case dockSwitchAssert => exact h.dockAsserts s hs
    case dockDebounceExpiry => exact h.dockDebounceExpires s hs
    case penRemoval => exact h.dockReleases s hs
    case detectWindowExpiry => exact h.detectExpires s hs
    case rampTimerExpiry => exact h.rampExpires s hs
    case silenceTimerExpiry => exact h.silenceExpires s hs
    case dwellReached =>
      rw [effect]
      split
      · exact hs
      · exact haside (by simp [KeepsSides])
    case graceTimerExpiry =>
      rw [effect]
      split
      · next hgrace => exact hsleep.grace s hgrace hs
      · exact hs
    case confirmWindowExpiry => exact hsleep.confirm s hs
    case wakePulseEnd => exact hsleep.pulse s hs
    case wakeWindowExpiry => exact hsleep.window s hs
    all_goals first
      | exact absurd hq (Option.some_ne_none _)
      | exact haside (by simp [effect, KeepsSides])

end

/-! ## The alarms' records -/

/-- What is kept by the changes of the alarms' records and of the cap (R135 to R144). A cause is latched where its sticky mark allows it, and
COIL-OC is limited where its latch allows it. -/
structure KeepsRecordsOfAlarms (mayLatch mayLimit : Bool → Prop) (loose strict : State → Prop) : Prop where
  marked : mayLatch true
  unlatched : mayLimit false
  heard : ∀ c s, strict s → (s.guard.alarms.get c).detected = true → mayLatch (s.guard.alarms.get c).sticky
  sensed : ∀ s, strict s → s.guard.coilOn = true ∨ s.guard.alarms.coilOc.filter.isSome = true → mayLimit s.guard.alarms.coilOc.latch
  raised : ∀ c s, outputOn c s = true → strict s → strict (changeAlarm (causeOf c) (fun a => { a with raw := true }) s)
  filtered : ∀ c n s, outputOn c s = true → strict s → strict (changeAlarm (causeOf c) (fun a => { a with filter := some n }) s)
  detected : ∀ c s, strict s →
    strict (changeAlarm (causeOf c) (fun a => { a with detected := true, sticky := true, filter := none }) s)
  calmed : ∀ c s, strict s →
    strict (changeAlarm (causeOf c) (fun a => { a with raw := false, filter := none, detected := a.detected && a.latch }) s)
  latched : ∀ c s, mayLatch (s.guard.alarms.get (causeOf c)).sticky → loose s →
    loose (changeAlarm (causeOf c) (fun a => { a with latch := true, detected := true }) s)
  latchedAll : ∀ before s, strict s → loose { s with guard := { s.guard with alarms := latchedAlarms before s } }
  capped : ∀ l s, l ≠ .fast → loose s →
    loose { s with guard := { s.guard with
      cap := some l
      penGrant := ({ s.guard with cap := some l } : Guard).target.bind (bestFit s.guard.budget s.guard.baseGrant) } }
  limited : ∀ s, mayLimit s.guard.alarms.coilOc.latch → loose s →
    loose (changeAlarm .coilOc (fun a => { a with detected := false, filter := if a.raw then some (filterLength .coilOc a) else none }) s)
  hot : ∀ s, strict s → strict (changeAlarm .dieOt (fun a => { a with raw := true }) s)
  otDetected : ∀ s, loose s → loose (changeAlarm .dieOt (fun a => { a with detected := true, sticky := true }) s)
  cooled : ∀ s, loose s → loose (changeAlarm .dieOt (fun a => { a with raw := false, detected := false }) s)
  read : ∀ s, strict s → strict (stickyRead s)
  cleared : ∀ m s, loose s → loose { s with guard := { s.guard with alarms := clearedAlarms m s } }
  uncapped : ∀ s, loose s → loose { s with guard := Guard.regrant { s.guard with cap := none } }
  settings : ∀ n s, strict s → strict { s with guard := writeSettings n s.guard }

/-- A latch leaves every sticky mark. -/
theorem setLatch_sticky (c : OutCause) (s : State) (d : Cause) :
    ((setLatch c s).guard.alarms.get d).sticky = (s.guard.alarms.get d).sticky := by
  have hfaulted (u : State) : KeepsAlarms (enterFaulted u) u := (enterFaulted_effect u).2.2.2.1
  cases c <;> cases d <;>
    simp [setLatch, PerCause.get, hfaulted, changeAlarm, PerCause.set, causeOf]

/-- A LIMIT leaves every sticky mark. -/
theorem setCap_sticky (l : PenLevel) (s : State) (d : Cause) :
    ((setCap l s).guard.alarms.get d).sticky = (s.guard.alarms.get d).sticky := by
  cases d <;> simp [setCap, PerCause.get, changeAlarm, PerCause.set]

/-- The protection of a newly protected cause leaves every sticky mark. -/
theorem protectIfDue_sticky (before : Guard) (s : State) (c : OutCause) (u : State) (d : Cause) :
    ((protectIfDue before s c u).guard.alarms.get d).sticky = (u.guard.alarms.get d).sticky := by
  unfold protectIfDue applyProtection
  split
  · split
    · exact setLatch_sticky _ _ _
    · exact setCap_sticky _ _ _
    · rfl
    · rfl
  · rfl

/-- A newly protected cause is enabled, so its protection is a STOP or a LIMIT (R137, R138). -/
theorem protectionFor_enabled {c : OutCause} {s : State} (h : (alarmOf (causeOf c) s).enabled = true) :
    protectionFor c s = .stop ∨ (c = .coilOc ∧ ∃ l, l ≠ .fast ∧ protectionFor c s = .limit l) := by
  unfold protectionFor
  rw [if_pos h]
  cases c with
  | coilOc =>
    dsimp only
    split
    · exact .inr ⟨rfl, _, by decide, rfl⟩
    · exact .inr ⟨rfl, _, by decide, rfl⟩
    · exact .inl rfl
  | railOc | railUv | coilUv => exact .inl rfl

/-- The protection of a cause is nothing, a STOP, or a LIMIT of COIL-OC (R137, R138). -/
theorem protectionFor_cases (c : OutCause) (s : State) :
    protectionFor c s = .none ∨ protectionFor c s = .stop ∨ (c = .coilOc ∧ ∃ l, l ≠ .fast ∧ protectionFor c s = .limit l) := by
  by_cases h : (alarmOf (causeOf c) s).enabled = true
  · exact .inr (protectionFor_enabled h)
  · exact .inl (if_neg h)

section

variable {mayLatch mayLimit : Bool → Prop} {loose strict : State → Prop} (h : KeepsPowered loose strict)
  (ha : KeepsRecordsOfAlarms mayLatch mayLimit loose strict)
include h ha

theorem setLatch_keepsPowered (c : OutCause) (s : State) (hsticky : mayLatch (s.guard.alarms.get (causeOf c)).sticky) (hs : loose s) :
    strict (setLatch c s) := by
  have hlatched := h.switch _ (ha.latched c s hsticky hs)
  cases c with
  | railOc | railUv => exact h.enterFaulted _ (h.weaken _ hlatched)
  | coilOc | coilUv => exact h.coilLatchTold _ hlatched

theorem setCap_keepsPowered (l : PenLevel) (s : State) (hl : l ≠ .fast) (hlatch : mayLimit s.guard.alarms.coilOc.latch) (hs : loose s) :
    strict (setCap l s) := by
  have hcapped := h.looseAside.postBudget s.guard .limit _ (ha.capped l s hl hs)
  exact h.penTold _ _ (h.switch _ (ha.limited _ (by simpa using hlatch) hcapped))

/-- A STOP or a LIMIT makes the outputs follow. -/
theorem applyProtection_keepsPowered (c : OutCause) (p : Protection) (s : State)
    (hsticky : mayLatch (s.guard.alarms.get (causeOf c)).sticky)
    (hlatch : c = .coilOc → p ≠ .stop → mayLimit s.guard.alarms.coilOc.latch) (hp : p = .stop ∨ (c = .coilOc ∧ ∃ l, l ≠ .fast ∧ p = .limit l)) (hs : loose s) : strict (applyProtection c p s) := by
  obtain rfl | ⟨hc, l, hl, rfl⟩ := hp
  · exact setLatch_keepsPowered h ha c s hsticky hs
  · exact setCap_keepsPowered h ha l s hl (hlatch hc nofun) hs

theorem becomesDetected_keepsPowered (c : OutCause) (s : State) (hlatch : c = .coilOc → mayLimit s.guard.alarms.coilOc.latch)
    (hs : strict s) : strict (becomesDetected c s) := by
  have hdetected := ha.detected c s hs
  have hreported : strict (reportAlarm (changeAlarm (causeOf c) (fun a => { a with detected := true, sticky := true, filter := none }) s)) :=
    h.strictAside.setInputs _ _ hdetected
  have htold : strict (tellAlarm (causeOf c) (protectionFor c s) (grantOf c s)
      (reportAlarm (changeAlarm (causeOf c) (fun a => { a with detected := true, sticky := true, filter := none }) s))) :=
    h.strictAside.aside (by simp [KeepsSides]) hreported
  unfold becomesDetected
  dsimp only
  obtain hnone | hp := protectionFor_cases c s
  · rw [hnone] at htold ⊢
    exact htold
  · refine applyProtection_keepsPowered h ha c _ _ ?_ (fun hc _ => ?_) hp (h.weaken _ htold)
    · have hmarked := ha.marked
      cases c <;> simpa [changeAlarm, causeOf, PerCause.get, PerCause.set] using hmarked
    · have hfree := hlatch hc
      subst hc
      simpa [changeAlarm, causeOf, PerCause.get, PerCause.set] using hfree

theorem rawAppears_keepsPowered (c : OutCause) (s : State) (hs : strict s) : strict (rawAppears c s) := by
  unfold rawAppears
  dsimp only
  split
  · next hon =>
    have hout : outputOn c s = true := (Bool.and_eq_true_iff.mp hon).1
    have hraised := ha.raised c s hout hs
    have hstill : outputOn c (changeAlarm (causeOf c) (fun a => { a with raw := true }) s) = true := by
      cases c <;> simpa [outputOn, changeAlarm] using hout
    split
    · refine becomesDetected_keepsPowered h ha c _ (fun hc => ha.sensed _ hraised (.inl ?_)) hraised
      subst hc
      simpa [outputOn] using hstill
    · exact ha.filtered c _ _ hstill hraised
  · exact hs

theorem filterExpires_keepsPowered (c : OutCause) (s : State) (hs : strict s) : strict (filterExpires c s) := by
  unfold filterExpires
  split
  · next hfilter =>
    refine becomesDetected_keepsPowered h ha c s (fun hc => ha.sensed s hs (.inr ?_)) hs
    subst hc
    exact hfilter
  · exact hs

theorem dieOtTaken_keepsPowered (s : State) (hs : loose s) : strict (dieOtTaken s) :=
  h.strictAside.aside (s := switchOutputs (changeAlarm .dieOt (fun a => { a with detected := true, sticky := true }) s))
    (by simp [KeepsSides, dieOtTaken]) (h.switch _ (ha.otDetected s hs))

theorem dieOtAppears_keepsPowered (s : State) (hs : strict s) : strict (dieOtAppears s) := by
  have hhot := h.weaken _ (ha.hot s hs)
  unfold dieOtAppears
  dsimp only
  split
  · exact hs
  · split
    · exact h.switch _ (ha.otDetected _ hhot)
    · exact dieOtTaken_keepsPowered h ha _ hhot

theorem clearAlarms_keepsPowered (m : Nat) (s : State) (hs : strict s) : strict (clearAlarms m s) := by
  have hcleared : loose (clearNamed m s) := clearNamed_alarms m s ▸ ha.cleared m s (h.weaken _ hs)
  have huncapped := iteInduction (motive := loose) (c := (named m 2 && s.guard.cap.isSome) = true) (fun _ => ha.uncapped _ hcleared)
    (fun _ => hcleared)
  have htold := h.penTold s.guard.penGrant _ (h.switch _ (h.looseAside.postBudget s.guard .clear _ huncapped))
  have hgone (u : State) (p : Prop) [Decidable p] (hu : strict u) : strict (if p then coilLatchGone u else u) :=
    iteInduction (motive := strict) (fun _ => h.coilLatchGone u hu) (fun _ => hu)
  exact hgone _ _ (iteInduction (motive := strict) (fun _ => h.enterPowering _ _ htold) (fun _ => htold))

/-- The protection of a newly protected cause makes the outputs follow; where no cause is newly protected nothing is done (R139). -/
theorem protectIfDue_keepsPowered (before : Guard) (s : State) (c : OutCause) (u : State) (hs : strict s) (hu : loose u)
    (hsticky : (u.guard.alarms.get (causeOf c)).sticky = (s.guard.alarms.get (causeOf c)).sticky)
    (hlatch : newlyProtected before c s = true → c = .coilOc → protectionFor c s ≠ .stop → u.guard.alarms.coilOc.latch = false) :
    (newlyProtected before c s = true → strict (protectIfDue before s c u)) ∧ loose (protectIfDue before s c u) := by
  have hstrict (hdue : newlyProtected before c s = true) : strict (protectIfDue before s c u) := by
    obtain ⟨⟨⟨_, henabled⟩, hdetected⟩, _⟩ := (by simpa [newlyProtected] using hdue :
      (((before.alarms.get (causeOf c)).enabled = false ∧ (alarmOf (causeOf c) s).enabled = true) ∧
        (alarmOf (causeOf c) s).detected = true) ∧ (alarmOf (causeOf c) s).latch = false)
    rw [protectIfDue, if_pos hdue]
    refine applyProtection_keepsPowered h ha c _ u (hsticky ▸ ha.heard _ s hs hdetected) (fun hc hp => ?_)
      (protectionFor_enabled henabled) hu
    exact hlatch hdue hc hp ▸ ha.unlatched
  refine ⟨hstrict, ?_⟩
  by_cases hdue : newlyProtected before c s = true
  · exact h.weaken _ (hstrict hdue)
  · rwa [protectIfDue, if_neg hdue]

/-- Protection newly enabled ends with the outputs following (R139). -/
theorem protectNow_keepsPowered (before : Guard) (s : State) (hs : strict s) : strict (protectNow before s) := by
  let s₁ : State := { s with guard := { s.guard with alarms := latchedAlarms before s } }
  let s₂ := if newlyProtected before .railOc s then protectIfDue before s .railOc s₁ else protectIfDue before s .railUv s₁
  let s₃ := if newlyProtected before .coilUv s = true ∧ protectionFor .coilOc s = .stop then s₂ else protectIfDue before s .coilOc s₂
  have hnow : protectNow before s = protectIfDue before s .coilUv s₃ := by
    unfold protectNow
    dsimp only
    rw [latchIfDue_all]
  have hloose₁ : loose s₁ := ha.latchedAll before s hs
  have hsticky₁ (c : OutCause) : (s₁.guard.alarms.get (causeOf c)).sticky = (s.guard.alarms.get (causeOf c)).sticky := by
    cases c <;> rfl
  have hrailOc := protectIfDue_keepsPowered h ha before s .railOc s₁ hs hloose₁ (hsticky₁ _) nofun
  have hrailUv := protectIfDue_keepsPowered h ha before s .railUv s₁ hs hloose₁ (hsticky₁ _) nofun
  have hloose₂ : loose s₂ := iteInduction (motive := loose) (fun _ => hrailOc.2) (fun _ => hrailUv.2)
  have hsticky₂ (c : OutCause) : (s₂.guard.alarms.get (causeOf c)).sticky = (s.guard.alarms.get (causeOf c)).sticky := by
    refine Eq.trans ?_ (hsticky₁ c)
    exact iteInduction (motive := fun u : State => (u.guard.alarms.get (causeOf c)).sticky = (s₁.guard.alarms.get (causeOf c)).sticky)
      (fun _ => protectIfDue_sticky _ _ _ _ _) (fun _ => protectIfDue_sticky _ _ _ _ _)
  have hunlatched (hdue : newlyProtected before .coilOc s = true) (hp : protectionFor .coilOc s ≠ .stop) :
      s₂.guard.alarms.coilOc.latch = false := by
    have hbefore : s.guard.alarms.coilOc.latch = false := by
      simp [newlyProtected, alarmOf, causeOf, PerCause.get] at hdue
      exact hdue.2
    refine (protectRail_coil before s s₁).1.trans ?_
    simp [s₁, latchedAlarms, hp, hbefore]
  have hcoilOc := protectIfDue_keepsPowered h ha before s .coilOc s₂ hs hloose₂ (hsticky₂ _) (fun hdue _ hp => hunlatched hdue hp)
  have hloose₃ : loose s₃ := iteInduction (motive := loose) (fun _ => hloose₂) (fun _ => hcoilOc.2)
  have hsticky₃ (c : OutCause) : (s₃.guard.alarms.get (causeOf c)).sticky = (s.guard.alarms.get (causeOf c)).sticky := by
    refine Eq.trans ?_ (hsticky₂ c)
    exact iteInduction (motive := fun u : State => (u.guard.alarms.get (causeOf c)).sticky = (s₂.guard.alarms.get (causeOf c)).sticky)
      (fun _ => rfl) (fun _ => protectIfDue_sticky _ _ _ _ _)
  rw [hnow]
  by_cases huv : newlyProtected before .coilUv s = true
  · exact (protectIfDue_keepsPowered h ha before s .coilUv s₃ hs hloose₃ (hsticky₃ _) nofun).1 huv
  · have h₃ : s₃ = protectIfDue before s .coilOc s₂ := if_neg fun k => huv k.1
    rw [protectIfDue, if_neg huv, h₃]
    by_cases hoc : newlyProtected before .coilOc s = true
    · exact hcoilOc.1 hoc
    · rw [protectIfDue, if_neg hoc]
      by_cases hrail : newlyProtected before .railOc s = true
      · rw [show s₂ = protectIfDue before s .railOc s₁ from if_pos hrail]
        exact hrailOc.1 hrail
      · rw [show s₂ = protectIfDue before s .railUv s₁ from if_neg hrail]
        by_cases hrail' : newlyProtected before .railUv s = true
        · exact hrailUv.1 hrail'
        · rw [protectIfDue, if_neg hrail']
          have hsame : s₁ = s := by simp [s₁, latchedAlarms, hrail, hrail', hoc, huv]
          exact hsame ▸ hs

theorem guardSetTaken_keepsPowered (a : GuardArg) (s : State) (hs : strict s) : strict (guardSetTaken a s).1 := by
  unfold guardSetTaken
  split
  · exact hs
  · next n _ =>
    split
    · exact hs
    · split
      · exact hs
      · exact protectNow_keepsPowered h ha _ _ (ha.settings n s hs)

/-- The alarms' events and requests keep what their records' changes keep. -/
theorem keepsAlarmEvents_of_records : KeepsAlarmEvents strict where
  appears c s hs := rawAppears_keepsPowered h ha c s hs
  clears c s hs := h.strictAside.setInputs _ _ (ha.calmed c s hs)
  filter c s hs := filterExpires_keepsPowered h ha c s hs
  hot s hs := dieOtAppears_keepsPowered h ha s hs
  cool s hs := h.switch _ (ha.cooled s (h.weaken _ hs))
  read s hs := ha.read s hs
  clear n s hs := clearAlarms_keepsPowered h ha n s hs
  guard a s hs := guardSetTaken_keepsPowered h ha a s hs

/-- The end of start-up keeps what sessions and claims keep (R206). -/
theorem startUpEnds_keepsPowered (r : StartResult) (s : State) (hs : strict s) : strict (startUpEnds r s) := by
  have hstarted (st : Store) : strict (post (.start r) { s with store := st }) := h.strictAside.aside (by simp [KeepsSides]) hs
  have hpresence (u : State) (hu : strict u) : strict (samplePresence u) := by
    have hset := h.strictAside.setLinkState .settling u hu
    unfold samplePresence
    split
    · exact h.strictAside.aside (by simp [KeepsSides]) hset
    · exact hu
  have hsampled (u : State) (hu : strict u) : strict (sampleDock (samplePresence u)) :=
    h.strictAside.aside (by unfold sampleDock; split <;> simp [KeepsSides]) (hpresence u hu)
  have hpolled (u : State) (p : Poller) (hu : strict u) : strict { u with poller := p } := h.strictAside.aside (by simp [KeepsSides]) hu
  unfold startUpEnds
  dsimp only
  split
  · exact dieOtTaken_keepsPowered h ha _ (h.weaken _ (hpolled _ _ (hsampled _ (hstarted _))))
  · exact hpolled _ _ (hsampled _ (hstarted _))

end

end Sys2Proof.Machine

/-! PROOFS. The Wake Reason List, the sleep timers and the silence of the uplink (R9, R171 to R182). -/
namespace Sys2Proof.Machine

/-- What leaves sleep and the transmitter leaves the sleep records. -/
theorem sleepHolds_of {t s : State} (hsleep : t.sleep = s.sleep) (htx : t.tx = s.tx) (h : SleepHolds s) : SleepHolds t := by
  simpa only [SleepHolds, hsleep, htx] using h

/-- The question to the host comes out of a grace (R175). -/
theorem sleepAsk_sleepHolds (s : State) (hgrace : s.sleep.power = .grace) (h : SleepHolds s) : SleepHolds (sleepAsk s) := by
  simp_all [SleepHolds, sleepAsk, postSleep, hostListens]

theorem removeHold_sleepHolds (r : Holdoff) (s : State) (h : SleepHolds s) : SleepHolds (removeHold r s) := by
  unfold removeHold
  split
  · dsimp only
    split
    · next hask => exact sleepAsk_sleepHolds _ hask.1 h
    · exact h
  · exact h

theorem sleepHolds_aside : KeepsAside SleepHolds where
  aside k h := sleepHolds_of k.2.2.2.2.1 k.2.2.2.2.2 h
  hold r b s h := by
    cases b with
    | false => exact removeHold_sleepHolds r s h
    | true => exact h

theorem sleepHolds_powered : KeepsPowered SleepHolds SleepHolds where
  looseAside := sleepHolds_aside
  strictAside := sleepHolds_aside
  weaken _ h := h
  switch _ h := sleepHolds_of (by simp) (by simp) h
  session _ _ h := h
  presence _ _ h := h
  penClaim _ _ h := h
  penClaimPaused _ _ _ h := h
  penRelease _ h := h
  baseClaim _ _ _ _ h := h
  baseRelease _ h := h
  lower _ _ _ h := h
  profiles _ _ _ _ h := h
  regrant _ h := h

theorem sleepHolds_alarms : KeepsRecordsOfAlarms (fun _ => True) (fun _ => True) SleepHolds SleepHolds where
  marked := trivial
  unlatched := trivial
  heard _ _ _ _ := trivial
  sensed _ _ _ := trivial
  raised _ _ _ h := h
  filtered _ _ _ _ h := h
  detected _ _ h := h
  calmed _ _ h := h
  latched _ _ _ h := h
  latchedAll _ _ h := h
  capped _ _ _ h := h
  limited _ _ h := h
  hot _ h := h
  otDetected _ h := h
  cooled _ h := h
  read _ h := h
  cleared _ _ h := h
  uncapped _ h := h
  settings _ _ h := h

/-! ## The sleep controller's own changes -/

theorem graceExpires_sleepHolds (s : State) (hgrace : s.sleep.power = .grace) (h : SleepHolds s) : SleepHolds (graceExpires s) := by
  unfold graceExpires
  split
  · exact sleepAsk_sleepHolds s hgrace h
  · simp_all [SleepHolds, hostListens]

theorem sleepBegin_sleepHolds (s : State) (h : SleepHolds s) : SleepHolds (sleepBegin s) := by
  unfold sleepBegin
  split
  · next hawake =>
    have hbegun : SleepHolds { s with sleep := { s.sleep with power := .grace, expired := false, grace := startMs s.sleep.graceTime } } := by
      simp_all [SleepHolds, hostListens]
    dsimp only
    split
    · exact graceExpires_sleepHolds _ rfl hbegun
    · exact hbegun
  · exact h

theorem cancelSleep_sleepHolds (w : Withdrawal) (s : State) (h : SleepHolds s) : SleepHolds (cancelSleep w s) := by
  unfold cancelSleep
  split
  · simp_all [SleepHolds, hostListens]
  · simp_all [SleepHolds, postSleep, hostListens]
  all_goals exact h

/-- Counting a reason leaves the kinds of the list. -/
theorem map_countReason_kinds (k : WakeKind) (l : List WakeReason) :
    (l.map (countReason k)).map WakeReason.kind = l.map WakeReason.kind := by
  rw [List.map_map]
  refine List.map_congr_left fun r _ => ?_
  unfold Function.comp countReason
  split <;> rfl

/-- A reason recorded while the host does not listen keeps the list short and without repetition (R182). -/
theorem recordReason_sleepHolds (k : WakeKind) (s : State) (hsilent : hostListens s.sleep.power = false) (h : SleepHolds s) :
    SleepHolds (recordReason k s) := by
  obtain ⟨hshort, hkinds, hempty, hrest⟩ := h
  have hempty' {p : Prop} : hostListens s.sleep.power = true → p := fun hl => absurd (hl.symm.trans hsilent) nofun
  unfold recordReason
  split
  · exact ⟨by simpa using hshort, by simpa only [map_countReason_kinds] using hkinds, hempty', hrest⟩
  · next hnew =>
    split
    · refine ⟨by simp; omega, ?_, hempty', hrest⟩
      have hfresh : ∀ r ∈ s.sleep.reasons, r.kind ≠ k := by simpa using hnew
      simpa [List.nodup_append] using ⟨hkinds, hfresh⟩
    · exact ⟨hshort, hkinds, hempty', hrest⟩

@[simp] theorem recordReason_power (k : WakeKind) (s : State) : (recordReason k s).sleep.power = s.sleep.power := by
  unfold recordReason
  (repeat' split) <;> rfl

theorem wakeClaim_sleepHolds (k : WakeKind) (s : State) (h : SleepHolds s) : SleepHolds (wakeClaim k s) := by
  unfold wakeClaim
  split
  case h_1 => exact h
  case h_2 | h_3 => exact cancelSleep_sleepHolds _ s h
  case h_4 hasleep =>
    have hrecorded := recordReason_sleepHolds k s (by rw [hasleep]; rfl) h
    have hpower : (recordReason k s).sleep.power = .asleep := (recordReason_power k s).trans hasleep
    generalize recordReason k s = u at hrecorded hpower
    simp_all [SleepHolds, pulseWakeLine, hostListens]
  case h_5 hwaking => exact recordReason_sleepHolds k s (by rw [hwaking]; rfl) h

/-- Entry to ASLEEP silences the uplink (R9, R177). -/
theorem enterAsleep_sleepHolds (s : State) (hlistens : hostListens s.sleep.power = true) (h : SleepHolds s) : SleepHolds (enterAsleep s) := by
  obtain ⟨_, _, hempty, _, _, hwindow, _, _⟩ := h
  obtain ⟨hreasons, hoverflow⟩ := hempty hlistens
  have hno : s.sleep.wakeWindow = none := by
    by_contra hsome
    have hwaking := hwindow (Option.isSome_iff_ne_none.mpr hsome)
    rw [hwaking] at hlistens
    cases hlistens
  unfold enterAsleep cutOff
  split <;> simp_all [SleepHolds, hostListens]

theorem wakeWindowExpires_sleepHolds (s : State) (h : SleepHolds s) : SleepHolds (wakeWindowExpires s) := by
  unfold wakeWindowExpires
  split
  · next hopen =>
    have hwaking : s.sleep.power = .waking := h.2.2.2.2.2.1 hopen
    split <;> simp_all [SleepHolds, pulseWakeLine, hostListens]
  · exact h

theorem helloTaken_sleepHolds (s : State) (h : SleepHolds s) : SleepHolds (helloTaken s) := by
  unfold helloTaken
  split
  case h_1 | h_2 => simp_all [SleepHolds, hostListens]
  all_goals exact h

theorem startTransmit_sleepHolds (s : State) (h : SleepHolds s) : SleepHolds (startTransmit s) := by
  unfold startTransmit
  (repeat' split) <;> simp_all [SleepHolds]

theorem sleepHolds_sleeping : KeepsSleeping SleepHolds where
  begins := sleepBegin_sleepHolds
  cancels := cancelSleep_sleepHolds
  wakes := wakeClaim_sleepHolds
  graceTime _ _ h := h
  grace s hgrace h := graceExpires_sleepHolds s (h.2.2.2.1 hgrace) h
  confirm s h := by
    unfold confirmExpires
    split
    · next hopen =>
      have hasked : s.sleep.power = .sleepAsked := h.2.2.2.2.1 hopen
      simp_all [SleepHolds, postSleep, hostListens]
    · exact h
  pulse s h := by
    unfold wakePulseEnds
    split
    · simp_all [SleepHolds]
    · exact h
  window := wakeWindowExpires_sleepHolds
  hello := helloTaken_sleepHolds
  asleep := enterAsleep_sleepHolds
  declined s hasked h := by simp_all [SleepHolds, hostListens]
  transmit := startTransmit_sleepHolds
  sent s m h := by simp_all [SleepHolds]

/-! ## Resets and start-up -/

/-- A sleep controller after a reset and a transmitter at rest meet the sleep records' conditions. -/
theorem sleepHolds_cold {s : State} (hsleep : s.sleep = Sleep.cold) (htx : s.tx = .idle) : SleepHolds s := by
  simp [SleepHolds, hsleep, htx, Sleep.cold, hostListens]

theorem applyType_sleepHolds (t : Nat) (content : List Byte) (s s' : State) (happlied : applyType t content s = some s')
    (h : SleepHolds s) : SleepHolds s' := by
  unfold applyType at happlied
  split at happlied <;> simp only [Option.map_eq_some_iff, Option.some.injEq] at happlied <;>
    first
      | (subst happlied; exact h)
      | (obtain ⟨_, _, rfl⟩ := happlied; exact h)

theorem effect_sleepHolds (c : Instr) (s : State) (h : SleepHolds s) : SleepHolds (effect c s) :=
  effect_keepsPowered sleepHolds_powered sleepHolds_sleeping (keepsAlarmEvents_of_records sleepHolds_powered sleepHolds_alarms) c s h
    (fun bytes _ => readAnswered_keeps (fun _ _ _ h => h) applyType_sleepHolds
      (fun r s h => startUpEnds_keepsPowered sleepHolds_powered sleepHolds_alarms r s h) bytes s h)
    (fun _ => startUpEnds_keepsPowered sleepHolds_powered sleepHolds_alarms _ s h)
    (sleepHolds_cold rfl rfl) (fun _ _ => sleepHolds_cold rfl rfl)

end Sys2Proof.Machine

namespace Sys2Proof
open Machine

/-- Settles O60. -/
theorem everyStepKeepsTheSleepRecords : Obligations.EveryStepKeepsTheSleepRecords := by
  have hfinish := finish_keepsPowered sleepHolds_powered sleepHolds_sleeping
  refine everyStepKeeps_of (inv := SleepHolds) (fun _ _ _ _ h => h) (fun s _ => hfinish _ (sleepHolds_cold rfl rfl))
    (fun c s _ h => ?level) (fun s _ h => ?reset) (fun c s _ h => hfinish _ (effect_sleepHolds c s h)) (fun s _ h => ?time)
  case level =>
    unfold heldEffect
    split <;> exact h
  case reset => simp_all [SleepHolds, holdInReset]
  case time => simpa [SleepHolds, advance, tickSleep, tick] using h

end Sys2Proof

/-! PROOFS. Each output is on exactly while its conditions hold, and off while the reset line is asserted (R134, R209). -/
namespace Sys2Proof.Machine

/-- Outside reset each output is on exactly while its conditions hold. -/
abbrev Following (s : State) : Prop :=
  s.held = false ∧ s.guard.coilOn = coilConditions s ∧ s.guard.railOn = railConditions s

/-- What leaves the conditions and the outputs leaves the outputs following. -/
theorem following_of {t s : State} (hheld : t.held = s.held) (hcoilOn : t.guard.coilOn = s.guard.coilOn)
    (hrailOn : t.guard.railOn = s.guard.railOn) (hcoil : coilConditions t = coilConditions s) (hrail : railConditions t = railConditions s)
    (h : Following s) : Following t := by
  obtain ⟨h₁, h₂, h₃⟩ := h
  exact ⟨hheld.trans h₁, hcoilOn.trans (h₂.trans hcoil.symm), hrailOn.trans (h₃.trans hrail.symm)⟩

/-- The outputs' switching makes them follow (R134). -/
theorem switchOutputs_following (s : State) (h : s.held = false) : Following (switchOutputs s) := by
  refine ⟨by simpa using h, ?_, ?_⟩
  · simp [coilConditions, coilLatched]
  · simp [railConditions, railLatched]

theorem notHeld_aside : KeepsAside (fun s => s.held = false) where
  aside k h := k.2.2.2.1.trans h
  hold r b s h := by simpa using h

theorem following_aside : KeepsAside Following where
  aside k h := by
    obtain ⟨hguard, hsession, hpresent, hheld, _, _⟩ := k
    refine following_of hheld (by rw [hguard]) (by rw [hguard]) ?_ ?_ h
    · simp only [coilConditions, coilLatched, hguard, hsession]
    · simp only [railConditions, railLatched, hguard, hpresent]
  hold r b s h := following_of (by simp) (by simp) (by simp) (by simp [coilConditions, coilLatched])
    (by simp [railConditions, railLatched]) h

theorem following_powered : KeepsPowered (fun s => s.held = false) Following where
  looseAside := notHeld_aside
  strictAside := following_aside
  weaken _ h := h.1
  switch := switchOutputs_following
  session _ _ h := h
  presence _ _ h := h
  penClaim _ _ h := h
  penClaimPaused l s hpaused h := by
    obtain ⟨hheld, hcoil, hrail⟩ := h
    have hoff : s.guard.coilOn = false := by simp [hcoil, coilConditions, hpaused, drawing]
    exact ⟨hheld, by simp [Guard.penClaim, coilConditions, hpaused, drawing, hoff], hrail⟩
  penRelease _ h := h
  baseClaim _ _ _ _ h := h
  baseRelease _ h := h
  lower _ _ _ h := h
  profiles _ _ _ _ h := h
  regrant _ h := h

/-- Alarm records with the same latches and the same DIE-OT state leave the conditions. -/
theorem following_alarms {s : State} (a : PerCause Alarm) (hrailOc : a.railOc.latch = s.guard.alarms.railOc.latch)
    (hrailUv : a.railUv.latch = s.guard.alarms.railUv.latch) (hcoilOc : a.coilOc.latch = s.guard.alarms.coilOc.latch)
    (hcoilUv : a.coilUv.latch = s.guard.alarms.coilUv.latch) (hot : a.dieOt.detected = s.guard.alarms.dieOt.detected) (h : Following s) :
    Following { s with guard := { s.guard with alarms := a } } :=
  following_of (s := s) rfl rfl rfl (by simp [coilConditions, coilLatched, hcoilOc, hcoilUv, hot])
    (by simp [railConditions, railLatched, hrailOc, hrailUv, hot]) h

/-- A change of one output cause that keeps its latch leaves the outputs following. -/
theorem following_changeAlarm (c : OutCause) (f : Alarm → Alarm) (hf : ∀ a, (f a).latch = a.latch) (s : State) (h : Following s) :
    Following (changeAlarm (causeOf c) f s) := by
  cases c <;> exact following_alarms _ (by simp [causeOf, PerCause.set, PerCause.get, hf]) (by simp [causeOf, PerCause.set, PerCause.get, hf])
    (by simp [causeOf, PerCause.set, PerCause.get, hf]) (by simp [causeOf, PerCause.set, PerCause.get, hf]) rfl h

theorem following_records : KeepsRecordsOfAlarms (fun _ => True) (fun _ => True) (fun s => s.held = false) Following where
  marked := trivial
  unlatched := trivial
  heard _ _ _ _ := trivial
  sensed _ _ _ := trivial
  raised c s _ h := following_changeAlarm c _ (fun _ => by rfl) s h
  filtered c _ s _ h := following_changeAlarm c _ (fun _ => by rfl) s h
  detected c s h := following_changeAlarm c _ (fun _ => by rfl) s h
  calmed c s h := following_changeAlarm c _ (fun _ => by rfl) s h
  latched _ _ _ h := h
  latchedAll _ _ h := h.1
  capped _ _ _ h := h
  limited _ _ h := h
  hot s h := following_alarms _ rfl rfl rfl rfl rfl h
  otDetected _ h := h
  cooled _ h := h
  read s h := following_alarms _ rfl rfl rfl rfl rfl h
  cleared _ _ h := h
  uncapped _ h := h
  settings n s h := following_of rfl rfl rfl rfl rfl h

/-- What leaves the guard, the session, the presence and reset leaves the outputs following. -/
theorem following_of_guard {t s : State} (hguard : t.guard = s.guard) (hpen : t.pen = s.pen) (hatt : t.att = s.att) (hheld : t.held = s.held)
    (h : Following s) : Following t :=
  following_of hheld (by rw [hguard]) (by rw [hguard]) (by simp only [coilConditions, coilLatched, hguard, hpen])
    (by simp only [railConditions, railLatched, hguard, hatt]) h

theorem following_sleeping : KeepsSleeping Following where
  begins s h := following_of_guard (by simp) (by simp) (by simp) (by simp) h
  cancels w s h := following_of_guard (by simp) (by simp) (by simp) (by simp) h
  wakes k s h := following_of_guard (by simp) (by simp) (by simp) (by simp) h
  graceTime _ _ h := h
  grace s _ h := following_of_guard (by simp) (by simp) (by simp) (by simp) h
  confirm s h := following_of_guard (by simp) (by simp) (by simp) (by simp) h
  pulse s h := following_of_guard (by simp) (by simp) (by simp) (by simp) h
  window s h := following_of_guard (by simp) (by simp) (by simp) (by simp) h
  hello s h := following_of_guard (by simp) (by simp) (by simp) (by simp) h
  asleep s _ h := following_of_guard (by simp) (by simp) (by simp) (by simp) h
  declined _ _ h := h
  transmit s h := following_of_guard (by simp) (by simp) (by simp) (by simp) h
  sent _ _ h := h

/-- After a reset both grants are 0 and both outputs are off. -/
theorem following_cold {s : State} (hheld : s.held = false) (hcoil : s.guard.coilOn = false) (hrail : s.guard.railOn = false)
    (hpen : s.guard.penGrant = none) (hbase : s.guard.baseGrant = 0) : Following s :=
  ⟨hheld, by simp [hcoil, coilConditions, hpen], by simp [hrail, railConditions, hbase]⟩

theorem applyType_following (t : Nat) (content : List Byte) (s s' : State) (happlied : applyType t content s = some s')
    (h : Following s) : Following s' := by
  unfold applyType at happlied
  split at happlied <;> simp only [Option.map_eq_some_iff, Option.some.injEq] at happlied <;>
    first
      | (subst happlied; exact h)
      | (obtain ⟨_, _, rfl⟩ := happlied; exact following_of rfl rfl rfl rfl rfl h)

theorem effect_following (c : Instr) (s : State) (h : Following s) : Following (effect c s) :=
  effect_keepsPowered following_powered following_sleeping (keepsAlarmEvents_of_records following_powered following_records) c s h
    (fun bytes _ => readAnswered_keeps (fun _ _ _ h => h) applyType_following
      (fun r s h => startUpEnds_keepsPowered following_powered following_records r s h) bytes s h)
    (fun _ => startUpEnds_keepsPowered following_powered following_records _ s h)
    (following_cold rfl rfl rfl rfl rfl) (fun _ _ => following_cold rfl rfl rfl rfl rfl)

/-- Following outputs meet the invariant outside reset. -/
theorem outputsFollow_of {s : State} (h : Following s) : OutputsFollow s :=
  ⟨fun _ => h.2, fun hheld => absurd (hheld.symm.trans h.1) nofun⟩

end Sys2Proof.Machine

namespace Sys2Proof
open Machine

/-- Settles O54. -/
theorem everyStepKeepsTheOutputsToTheirConditions : Obligations.EveryStepKeepsTheOutputsToTheirConditions := by
  have hfinish (s : State) (h : Following s) : OutputsFollow (finish s) :=
    outputsFollow_of (finish_keepsPowered following_powered following_sleeping s h)
  refine everyStepKeeps_of (inv := OutputsFollow) (fun _ _ _ _ h => h) (fun s _ => hfinish _ (following_cold rfl rfl rfl rfl rfl))
    (fun c s hheld h => ?level) (fun s _ h => ?reset) (fun c s hheld h => hfinish _ (effect_following c s ⟨hheld, h.1 hheld⟩))
    (fun s _ h => h)
  case level =>
    have hoff := h.2 hheld
    have hkept {t : State} (ht : t.held = true) (hrail : t.guard.railOn = s.guard.railOn) (hcoil : t.guard.coilOn = s.guard.coilOn) :
        OutputsFollow t :=
      ⟨fun hnot => absurd (ht.symm.trans hnot) nofun, fun _ => ⟨hcoil.trans hoff.1, hrail.trans hoff.2⟩⟩
    unfold heldEffect
    split <;> exact hkept hheld rfl rfl
  case reset => exact ⟨nofun, fun _ => ⟨rfl, rfl⟩⟩

end Sys2Proof

/-! PROOFS. The alarms' records: latched, detected and sticky, and quiet where the output is off (R135 to R137, R141). -/
namespace Sys2Proof.Machine

/-! ## One cause -/

/-- A latched cause is detected and a detected one sticky. -/
abbrev Alarm.Sound (a : Alarm) : Prop := (a.latch = true → a.detected = true) ∧ (a.detected = true → a.sticky = true)

/-- A cause has no raw condition and no filter running. -/
abbrev Alarm.Still (a : Alarm) : Prop := a.raw = false ∧ a.filter = none

/-- An output that goes off keeps its causes sound and leaves them still. -/
theorem Alarm.outputOff_sound {a : Alarm} (h : a.Sound) : a.outputOff.Sound ∧ a.outputOff.Still := by
  obtain ⟨hlatch, hsticky⟩ := h
  refine ⟨⟨fun hl => ?_, fun hd => ?_⟩, rfl, rfl⟩
  · simp only [outputOff] at hl ⊢
    simp [hl, hlatch hl]
  · exact hsticky (Bool.and_eq_true_iff.mp hd).1

/-- A cause cleared by ALARM-CLEAR is sound, and still if it was still. -/
theorem clearedAlarm_sound (clears : Bool) (c : OutCause) {a : Alarm} (h : a.Sound) :
    (clearedAlarm clears c a).Sound ∧ (a.Still → (clearedAlarm clears c a).Still) := by
  unfold clearedAlarm
  split
  · refine ⟨⟨nofun, nofun⟩, fun hstill => ?_⟩
    simp [Alarm.Still, hstill.1, hstill.2]
  · exact ⟨h, id⟩

/-! ## All causes -/

/-- Outside reset, with the outputs still to follow: every cause sound, DIE-OT without a latch, the causes of an output that is off still. -/
abbrev AlarmsSound (s : State) : Prop :=
  s.held = false ∧ (∀ c, (s.guard.alarms.get c).Sound) ∧ s.guard.alarms.dieOt.latch = false ∧
  (s.guard.railOn = false → s.guard.alarms.railOc.Still ∧ s.guard.alarms.railUv.Still) ∧
  (s.guard.coilOn = false → s.guard.alarms.coilOc.Still ∧ s.guard.alarms.coilUv.Still)

/-- The same with every latched output off. -/
abbrev AlarmsProtect (s : State) : Prop :=
  AlarmsSound s ∧ (railLatched s = true → s.guard.railOn = false) ∧ (coilLatched s = true → s.guard.coilOn = false)

/-- Outside reset that is the invariant. -/
theorem alarmsHold_iff {s : State} (h : s.held = false) : AlarmsHold s ↔ AlarmsProtect s := by
  constructor
  · rintro ⟨hsound, hot, hrest⟩
    obtain ⟨hrail, hcoil, hrailStill, hcoilStill⟩ := hrest h
    refine ⟨⟨h, hsound, hot, fun hoff => ?_, fun hoff => ?_⟩, hrail, hcoil⟩
    · obtain ⟨h₁, h₂, h₃, h₄⟩ := hrailStill hoff
      exact ⟨⟨h₁, h₂⟩, h₃, h₄⟩
    · obtain ⟨h₁, h₂, h₃, h₄⟩ := hcoilStill hoff
      exact ⟨⟨h₁, h₂⟩, h₃, h₄⟩
  · rintro ⟨⟨_, hsound, hot, hrailStill, hcoilStill⟩, hrail, hcoil⟩
    refine ⟨hsound, hot, fun _ => ⟨hrail, hcoil, fun hoff => ?_, fun hoff => ?_⟩⟩
    · obtain ⟨⟨h₁, h₂⟩, h₃, h₄⟩ := hrailStill hoff
      exact ⟨h₁, h₂, h₃, h₄⟩
    · obtain ⟨⟨h₁, h₂⟩, h₃, h₄⟩ := hcoilStill hoff
      exact ⟨h₁, h₂, h₃, h₄⟩

/-- What leaves the records and the outputs leaves them sound. -/
theorem alarmsSound_of {t s : State} (hheld : t.held = s.held) (halarms : t.guard.alarms = s.guard.alarms)
    (hrail : t.guard.railOn = s.guard.railOn) (hcoil : t.guard.coilOn = s.guard.coilOn) (h : AlarmsSound s) : AlarmsSound t := by
  simpa only [AlarmsSound, hheld, halarms, hrail, hcoil] using h

/-- What leaves the records and the outputs leaves the latched outputs off. -/
theorem alarmsProtect_of {t s : State} (hheld : t.held = s.held) (halarms : t.guard.alarms = s.guard.alarms)
    (hrail : t.guard.railOn = s.guard.railOn) (hcoil : t.guard.coilOn = s.guard.coilOn) (h : AlarmsProtect s) : AlarmsProtect t := by
  simpa only [AlarmsProtect, AlarmsSound, railLatched, coilLatched, hheld, halarms, hrail, hcoil] using h

/-- The coil's switching keeps every cause sound; going off it leaves the coil's causes still. -/
theorem switchCoil_sound (s : State) (h : AlarmsSound s) : AlarmsSound (switchCoil s) := by
  obtain ⟨hheld, hsound, hot, hrail, hcoil⟩ := h
  unfold switchCoil
  dsimp only
  split
  · exact ⟨hheld, hsound, hot, hrail, hcoil⟩
  · split
    · refine ⟨by simpa using hheld, by simpa using hsound, by simpa using hot, by simpa using hrail, by simp⟩
    · have hoc := Alarm.outputOff_sound (hsound .coilOc)
      have huv := Alarm.outputOff_sound (hsound .coilUv)
      refine ⟨hheld, fun c => ?_, hot, hrail, fun _ => ⟨hoc.2, huv.2⟩⟩
      cases c with
      | railOc => exact hsound .railOc
      | railUv => exact hsound .railUv
      | coilOc => exact hoc.1
      | coilUv => exact huv.1
      | dieOt => exact hsound .dieOt

/-- The rail's switching keeps every cause sound; going off it leaves the rail's causes still. -/
theorem switchRail_sound (s : State) (h : AlarmsSound s) : AlarmsSound (switchRail s) := by
  obtain ⟨hheld, hsound, hot, hrail, hcoil⟩ := h
  unfold switchRail
  dsimp only
  split
  · exact ⟨hheld, hsound, hot, hrail, hcoil⟩
  · split
    · exact ⟨hheld, hsound, hot, nofun, hcoil⟩
    · have hoc := Alarm.outputOff_sound (hsound .railOc)
      have huv := Alarm.outputOff_sound (hsound .railUv)
      refine ⟨hheld, fun c => ?_, hot, fun _ => ⟨hoc.2, huv.2⟩, hcoil⟩
      cases c with
      | railOc => exact hoc.1
      | railUv => exact huv.1
      | coilOc => exact hsound .coilOc
      | coilUv => exact hsound .coilUv
      | dieOt => exact hsound .dieOt

/-- The outputs' switching turns a latched output off (R134, R137). -/
theorem switchOutputs_protect (s : State) (h : AlarmsSound s) : AlarmsProtect (switchOutputs s) := by
  have hsound : AlarmsSound (switchOutputs s) :=
    alarmsSound_of (by simp [switchOutputs]) (by simp [switchOutputs]) (by simp [switchOutputs]) (by simp [switchOutputs])
      (switchRail_sound _ (switchCoil_sound s h))
  refine ⟨hsound, fun hlatched => ?_, fun hlatched => ?_⟩
  · have : railLatched s = true := by simpa [railLatched] using hlatched
    simp [railConditions, this]
  · have : coilLatched s = true := by simpa [coilLatched] using hlatched
    simp [coilConditions, this]

theorem alarmsSound_aside : KeepsAside AlarmsSound where
  aside k h := by
    obtain ⟨hguard, _, _, hheld, _, _⟩ := k
    exact alarmsSound_of hheld (by rw [hguard]) (by rw [hguard]) (by rw [hguard]) h
  hold r b s h := alarmsSound_of (by simp) (by simp) (by simp) (by simp) h

theorem alarmsProtect_aside : KeepsAside AlarmsProtect where
  aside k h := by
    obtain ⟨hguard, _, _, hheld, _, _⟩ := k
    exact alarmsProtect_of hheld (by rw [hguard]) (by rw [hguard]) (by rw [hguard]) h
  hold r b s h := alarmsProtect_of (by simp) (by simp) (by simp) (by simp) h

theorem alarmsProtect_powered : KeepsPowered AlarmsSound AlarmsProtect where
  looseAside := alarmsSound_aside
  strictAside := alarmsProtect_aside
  weaken _ h := h.1
  switch := switchOutputs_protect
  session _ _ h := h
  presence _ _ h := h
  penClaim _ _ h := h
  penClaimPaused _ _ _ h := h
  penRelease _ h := h
  baseClaim n g s hg h := by
    obtain ⟨_, _, _, _, hrail, hcoil, halarms, _⟩ := baseClaim_frame _ _ _ hg
    exact alarmsSound_of (s := s) rfl halarms hrail hcoil h
  baseRelease s h := alarmsSound_of (s := s) rfl (by simp) (by simp) (by simp) h
  lower p n s h := alarmsSound_of (s := s) rfl (by simp) (by simp) (by simp) h
  profiles _ _ _ _ h := h
  regrant s h := alarmsSound_of (s := s) rfl (by simp) (by simp) (by simp) h

/-! ## The changes of the records -/

/-- A change of one output cause keeps the records sound: the new record is sound, and still where the output is off. -/
theorem alarmsSound_changeAlarm (c : OutCause) (f : Alarm → Alarm) (s : State)
    (hf : (f (s.guard.alarms.get (causeOf c))).Sound)
    (hstill : (s.guard.alarms.get (causeOf c)).Still → (f (s.guard.alarms.get (causeOf c))).Still ∨ outputOn c s = true)
    (h : AlarmsSound s) : AlarmsSound (changeAlarm (causeOf c) f s) := by
  obtain ⟨hheld, hsound, hot, hrail, hcoil⟩ := h
  refine ⟨hheld, fun d => ?_, ?_, fun hoff => ?_, fun hoff => ?_⟩
  · have hd := hsound d
    cases c <;> cases d <;> first | exact hf | exact hd
  · cases c <;> exact hot
  · have hoff' : s.guard.railOn = false := hoff
    obtain ⟨hoc, huv⟩ := hrail hoff'
    cases c with
    | railOc => exact ⟨(hstill hoc).resolve_right (by simp [outputOn, hoff']), huv⟩
    | railUv => exact ⟨hoc, (hstill huv).resolve_right (by simp [outputOn, hoff'])⟩
    | coilOc | coilUv => exact ⟨hoc, huv⟩
  · have hoff' : s.guard.coilOn = false := hoff
    obtain ⟨hoc, huv⟩ := hcoil hoff'
    cases c with
    | railOc | railUv => exact ⟨hoc, huv⟩
    | coilOc => exact ⟨(hstill hoc).resolve_right (by simp [outputOn, hoff']), huv⟩
    | coilUv => exact ⟨hoc, (hstill huv).resolve_right (by simp [outputOn, hoff'])⟩

/-- Such a change that keeps the latch keeps the latched outputs off. -/
theorem alarmsProtect_changeAlarm (c : OutCause) (f : Alarm → Alarm) (s : State)
    (hlatch : ∀ a, (f a).latch = a.latch) (hf : (f (s.guard.alarms.get (causeOf c))).Sound)
    (hstill : (s.guard.alarms.get (causeOf c)).Still → (f (s.guard.alarms.get (causeOf c))).Still ∨ outputOn c s = true)
    (h : AlarmsProtect s) : AlarmsProtect (changeAlarm (causeOf c) f s) := by
  obtain ⟨hsound, hrail, hcoil⟩ := h
  refine ⟨alarmsSound_changeAlarm c f s hf hstill hsound, fun hl => hrail ?_, fun hl => hcoil ?_⟩
  · cases c <;> simpa [railLatched, changeAlarm, causeOf, PerCause.get, PerCause.set, hlatch] using hl
  · cases c <;> simpa [coilLatched, changeAlarm, causeOf, PerCause.get, PerCause.set, hlatch] using hl

/-- A change of DIE-OT that keeps it without a latch keeps the records sound. -/
theorem alarmsSound_dieOt (f : Alarm → Alarm) (s : State) (hf : (f s.guard.alarms.dieOt).Sound)
    (hlatch : (f s.guard.alarms.dieOt).latch = false) (h : AlarmsSound s) : AlarmsSound (changeAlarm .dieOt f s) := by
  obtain ⟨hheld, hsound, _, hrail, hcoil⟩ := h
  refine ⟨hheld, fun d => ?_, hlatch, hrail, hcoil⟩
  have hd := hsound d
  cases d <;> first | exact hf | exact hd

theorem alarmsProtect_records : KeepsRecordsOfAlarms (· = true) (· = false) AlarmsSound AlarmsProtect where
  marked := rfl
  unlatched := rfl
  heard c s h hdetected := (h.1.2.1 c).2 hdetected
  sensed s h hsense := by
    obtain ⟨⟨_, _, _, _, hstill⟩, _, hlatched⟩ := h
    have hon : s.guard.coilOn = true := by
      obtain hon | hfilter := hsense
      · exact hon
      · by_contra hoff
        simp [(hstill (Bool.eq_false_iff.mpr hoff)).1.2] at hfilter
    by_contra hlatch
    have := hlatched (by simp [coilLatched, Bool.eq_true_of_not_eq_false hlatch])
    simp [hon] at this
  raised c s hon h := by
    have hsound := h.1.2.1 (causeOf c)
    exact alarmsProtect_changeAlarm c _ s (fun _ => by rfl) hsound (fun _ => .inr hon) h
  filtered c n s hon h := by
    have hsound := h.1.2.1 (causeOf c)
    exact alarmsProtect_changeAlarm c _ s (fun _ => by rfl) hsound (fun _ => .inr hon) h
  detected c s h := alarmsProtect_changeAlarm c _ s (fun _ => by rfl) ⟨fun _ => rfl, fun _ => rfl⟩ (fun hstill => .inl ⟨hstill.1, rfl⟩) h
  calmed c s h := by
    obtain ⟨hlatch, hsticky⟩ := h.1.2.1 (causeOf c)
    refine alarmsProtect_changeAlarm c _ s (fun _ => by rfl) ⟨fun hl => ?_, fun hd => ?_⟩ (fun _ => .inl ⟨rfl, rfl⟩) h
    · simp only at hl ⊢
      simp [hl, hlatch hl]
    · exact hsticky (Bool.and_eq_true_iff.mp hd).1
  latched c s hmark h := alarmsSound_changeAlarm c _ s ⟨fun _ => rfl, fun _ => hmark⟩ (fun hstill => .inl hstill) h
  latchedAll before s h := by
    obtain ⟨hheld, hsound, hot, hrail, hcoil⟩ := h.1
    refine ⟨hheld, fun c => ?_, hot, hrail, hcoil⟩
    have hc := hsound c
    have hdue (d : OutCause) (hl : ((s.guard.alarms.get (causeOf d)).latch ||
        (newlyProtected before d s && decide (protectionFor d s = .stop))) = true) : (s.guard.alarms.get (causeOf d)).detected = true := by
      obtain hl | hnew := Bool.or_eq_true_iff.mp hl
      · exact (hsound (causeOf d)).1 hl
      · have hnew := (Bool.and_eq_true_iff.mp hnew).1
        simp only [newlyProtected, Bool.and_eq_true] at hnew
        exact hnew.1.2
    cases c with
    | railOc => exact ⟨hdue .railOc, hc.2⟩
    | railUv => exact ⟨hdue .railUv, hc.2⟩
    | coilOc => exact ⟨hdue .coilOc, hc.2⟩
    | coilUv => exact ⟨hdue .coilUv, hc.2⟩
    | dieOt => exact hc
  capped _ _ _ h := h
  limited s hlatch h := by
    refine alarmsSound_changeAlarm .coilOc _ s ⟨fun hl => ?_, nofun⟩ (fun hstill => .inl ⟨hstill.1, ?_⟩) h
    · exact absurd (hlatch.symm.trans hl) nofun
    · simp [causeOf, PerCause.get] at hstill ⊢
      simp [hstill.1]
  hot s h := by
    obtain ⟨hsound, hrail, hcoil⟩ := h
    exact ⟨alarmsSound_dieOt _ s (hsound.2.1 .dieOt) hsound.2.2.1 hsound, hrail, hcoil⟩
  otDetected s h := alarmsSound_dieOt _ s ⟨fun _ => rfl, fun _ => rfl⟩ h.2.2.1 h
  cooled s h := alarmsSound_dieOt _ s ⟨fun hl => absurd (h.2.2.1.symm.trans hl) nofun, nofun⟩ h.2.2.1 h
  read s h := by
    obtain ⟨⟨hheld, hsound, hot, hrail, hcoil⟩, hlatched⟩ := h
    refine ⟨⟨hheld, fun c => ?_, hot, hrail, hcoil⟩, hlatched⟩
    have hc := hsound c
    cases c <;> exact ⟨hc.1, id⟩
  cleared m s h := by
    obtain ⟨hheld, hsound, hot, hrail, hcoil⟩ := h
    refine ⟨hheld, fun c => ?_, hot, fun hoff => ?_, fun hoff => ?_⟩
    · cases c with
      | railOc => exact (clearedAlarm_sound _ .railOc (hsound .railOc)).1
      | railUv => exact (clearedAlarm_sound _ .railUv (hsound .railUv)).1
      | coilOc => exact (clearedAlarm_sound _ .coilOc (hsound .coilOc)).1
      | coilUv => exact (clearedAlarm_sound _ .coilUv (hsound .coilUv)).1
      | dieOt => exact hsound .dieOt
    · obtain ⟨hoc, huv⟩ := hrail hoff
      exact ⟨(clearedAlarm_sound _ .railOc (hsound .railOc)).2 hoc, (clearedAlarm_sound _ .railUv (hsound .railUv)).2 huv⟩
    · obtain ⟨hoc, huv⟩ := hcoil hoff
      exact ⟨(clearedAlarm_sound _ .coilOc (hsound .coilOc)).2 hoc, (clearedAlarm_sound _ .coilUv (hsound .coilUv)).2 huv⟩
  uncapped s h := alarmsSound_of (s := s) rfl (by simp) (by simp) (by simp) h
  settings n s h := by
    obtain ⟨⟨hheld, hsound, hot, hrail, hcoil⟩, hlatched⟩ := h
    refine ⟨⟨hheld, fun c => ?_, hot, hrail, hcoil⟩, hlatched⟩
    have hc := hsound c
    cases c <;> exact hc

/-! ## Sleep, start-up and the resets -/

/-- What leaves the guard and reset leaves the latched outputs off. -/
theorem alarmsProtect_of_guard {t s : State} (hguard : t.guard = s.guard) (hheld : t.held = s.held) (h : AlarmsProtect s) :
    AlarmsProtect t :=
  alarmsProtect_of hheld (by rw [hguard]) (by rw [hguard]) (by rw [hguard]) h

theorem alarmsProtect_sleeping : KeepsSleeping AlarmsProtect where
  begins s h := alarmsProtect_of_guard (by simp) (by simp) h
  cancels w s h := alarmsProtect_of_guard (by simp) (by simp) h
  wakes k s h := alarmsProtect_of_guard (by simp) (by simp) h
  graceTime _ _ h := h
  grace s _ h := alarmsProtect_of_guard (by simp) (by simp) h
  confirm s h := alarmsProtect_of_guard (by simp) (by simp) h
  pulse s h := alarmsProtect_of_guard (by simp) (by simp) h
  window s h := alarmsProtect_of_guard (by simp) (by simp) h
  hello s h := alarmsProtect_of_guard (by simp) (by simp) h
  asleep s _ h := alarmsProtect_of_guard (by simp) (by simp) h
  declined _ _ h := h
  transmit s h := alarmsProtect_of_guard (by simp) (by simp) h
  sent _ _ h := h

theorem applyType_protect (t : Nat) (content : List Byte) (s s' : State) (happlied : applyType t content s = some s')
    (h : AlarmsProtect s) : AlarmsProtect s' := by
  unfold applyType at happlied
  split at happlied <;> simp only [Option.map_eq_some_iff, Option.some.injEq] at happlied
  case h_4 =>
    obtain ⟨n, _, rfl⟩ := happlied
    exact alarmsProtect_records.settings n s h
  all_goals first
    | (subst happlied; exact h)
    | (obtain ⟨_, _, rfl⟩ := happlied; exact h)

/-- DIE-OT after a reset follows the temperature, sticky where detected. -/
theorem otFollows_sound (raw kept : Bool) : (otFollows raw kept).Sound ∧ (otFollows raw kept).latch = false := by
  cases raw <;> cases kept <;> decide

theorem coldReset_protect (s : State) : AlarmsProtect (coldReset s) := by
  have hcold : Alarm.cold.Sound := by decide
  have hstill : Alarm.cold.Still := by decide
  have hot := otFollows_sound s.guard.alarms.dieOt.raw false
  refine ⟨⟨rfl, fun c => ?_, hot.2, fun _ => ⟨hstill, hstill⟩, fun _ => ⟨hstill, hstill⟩⟩, fun _ => rfl, fun _ => rfl⟩
  cases c with
  | dieOt => exact hot.1
  | railOc | railUv | coilOc | coilUv => exact hcold

/-- RESTART keeps a latch with its sticky mark (R146). -/
theorem restartHub_protect (s : State) (h : ∀ c, (s.guard.alarms.get c).Sound) : AlarmsProtect (restartHub s) := by
  have hrestarted (c : OutCause) : (alarmRestarted (s.guard.alarms.get (causeOf c))).Sound :=
    ⟨id, fun hlatch => (h (causeOf c)).2 ((h (causeOf c)).1 hlatch)⟩
  have hot := otFollows_sound s.guard.alarms.dieOt.raw s.guard.alarms.dieOt.sticky
  refine ⟨⟨rfl, fun c => ?_, hot.2, fun _ => ⟨⟨rfl, rfl⟩, rfl, rfl⟩, fun _ => ⟨⟨rfl, rfl⟩, rfl, rfl⟩⟩, fun _ => rfl, fun _ => rfl⟩
  cases c with
  | railOc => exact hrestarted .railOc
  | railUv => exact hrestarted .railUv
  | coilOc => exact hrestarted .coilOc
  | coilUv => exact hrestarted .coilUv
  | dieOt => exact hot.1

theorem effect_protect (c : Instr) (s : State) (h : AlarmsProtect s) : AlarmsProtect (effect c s) :=
  effect_keepsPowered alarmsProtect_powered alarmsProtect_sleeping
    (keepsAlarmEvents_of_records alarmsProtect_powered alarmsProtect_records) c s h
    (fun bytes _ => readAnswered_keeps (fun _ _ _ h => h) applyType_protect
      (fun r s h => startUpEnds_keepsPowered alarmsProtect_powered alarmsProtect_records r s h) bytes s h)
    (fun _ => startUpEnds_keepsPowered alarmsProtect_powered alarmsProtect_records _ s h)
    (coldReset_protect s) (fun s h => restartHub_protect s h.1.2.1)

/-- Time leaves each cause sound, and a still one still. -/
theorem advance_protect (s : State) (h : AlarmsProtect s) : AlarmsProtect (advance s) := by
  obtain ⟨⟨hheld, hsound, hot, hrail, hcoil⟩, hlatched⟩ := h
  have hticked {a : Alarm} (ha : a.Still) : Alarm.Still { a with filter := tick a.filter } := ⟨ha.1, by simp [tick, ha.2]⟩
  refine ⟨⟨hheld, fun c => ?_, hot, fun hoff => ?_, fun hoff => ?_⟩, hlatched⟩
  · have hc := hsound c
    cases c <;> exact hc
  · obtain ⟨hoc, huv⟩ := hrail hoff
    exact ⟨hticked hoc, hticked huv⟩
  · obtain ⟨hoc, huv⟩ := hcoil hoff
    exact ⟨hticked hoc, hticked huv⟩

end Sys2Proof.Machine

namespace Sys2Proof
open Machine

/-- Settles O55. -/
theorem everyStepKeepsTheAlarmRecords : Obligations.EveryStepKeepsTheAlarmRecords := by
  have hfinish (s : State) (h : AlarmsProtect s) : AlarmsHold (finish s) :=
    have hend := finish_keepsPowered alarmsProtect_powered alarmsProtect_sleeping s h
    (alarmsHold_iff hend.1.1).mpr hend
  refine everyStepKeeps_of (inv := AlarmsHold) (fun _ _ _ _ h => h) (fun s _ => hfinish _ (coldReset_protect s))
    (fun c s hheld h => ?level) (fun s _ h => ?reset)
    (fun c s hheld h => hfinish _ (effect_protect c s ((alarmsHold_iff hheld).mp h)))
    (fun s hheld h => (alarmsHold_iff (by simpa using hheld)).mpr (advance_protect s ((alarmsHold_iff hheld).mp h)))
  case level =>
    obtain ⟨hsound, hot, _⟩ := h
    have hreset {t : State} (ht : t.held = true) (halarms : ∀ c, (t.guard.alarms.get c).Sound) (hlatch : t.guard.alarms.dieOt.latch = false) :
        AlarmsHold t := ⟨halarms, hlatch, fun hnot => absurd (ht.symm.trans hnot) nofun⟩
    unfold heldEffect
    split <;> refine hreset hheld (fun c => ?_) hot
    all_goals
      have hc := hsound c
      cases c <;> exact hc
  case reset =>
    obtain ⟨hsound, hot, _⟩ := h
    exact ⟨hsound, hot, nofun⟩

end Sys2Proof

/-! PROOFS. Start-up is quiet (R206, R209): what a command makes of a hub whose image is being read. -/
namespace Sys2Proof.Machine

/-! ## Start-up -/

/-- Everything that start-up leaves standing still stands still. -/
abbrev Quiet (s : State) : Prop :=
  s.link = Link.cold ∧ s.att.present = false ∧ s.issuer.table = [] ∧ s.issuer.waiting = none ∧ s.issuer.window = none ∧
  s.pool.up = [] ∧ s.pool.down = [] ∧ s.guard.baseGrant = 0 ∧ s.guard.penGrant = none ∧ s.guard.railOn = false ∧
  s.guard.coilOn = false ∧ s.guard.alarms.railOc.filter = none ∧ s.guard.alarms.railUv.filter = none ∧
  s.guard.alarms.coilOc.filter = none ∧ s.guard.alarms.coilUv.filter = none ∧ s.pen.session = .noPen ∧
  s.pen.debounce = none ∧ s.pen.detect = none ∧ s.pen.ramp = none ∧ s.pen.silence = none ∧ s.posture.settle = none ∧
  s.poller.period = none ∧ s.policy.events = []

/-- Dormancy is quiet for as long as start-up lasts. -/
theorem dormant_iff (s : State) : Dormant s ↔ (s.store.state = .starting → Quiet s) := Iff.rfl

/-- The image is being read, and everything stands still. -/
abbrev StartUp (s : State) : Prop := s.store.state = .starting ∧ Quiet s

/-- A hub in start-up is dormant. -/
theorem StartUp.dormant {s : State} (h : StartUp s) : Dormant s := fun _ => h.2

/-- A hub that is not in start-up is not bound to be quiet. -/
theorem dormant_of_running {s : State} (h : s.store.state ≠ .starting) : Dormant s := fun hstarting => absurd hstarting h

/-- The cap, the transmitter's mark and the downstream share are as they were. -/
abbrev KeepsStartMarks (t s : State) : Prop :=
  t.guard.cap = s.guard.cap ∧ t.pool.hingeBusy = s.pool.hingeBusy ∧ t.pool.share = s.pool.share

/-- After a cold reset and after RESTART start-up has begun. -/
theorem startUp_coldReset (s : State) : StartUp (coldReset s) := by
  and_intros <;> rfl

theorem startUp_restartHub (s : State) : StartUp (restartHub s) := by
  and_intros <;> rfl

/-- What a command makes of a hub in start-up: it stays in start-up, start-up begins again, or start-up ends. -/
inductive StartUpGoesTo (s : State) : State → Prop
  | stays {t : State} (h : StartUp t) (marks : KeepsStartMarks t s) : StartUpGoesTo s t
  | again (u : State) (cap : u.guard.cap = s.guard.cap) : StartUpGoesTo s (restartHub u)
  | afresh (u : State) : StartUpGoesTo s (coldReset u)
  | ends (r : StartResult) (u : State) (h : StartUp u) (cap : u.guard.cap = s.guard.cap) (busy : u.pool.hingeBusy = s.pool.hingeBusy)
      (share : u.pool.share = s.pool.share ∨ 8 ≤ u.pool.share ∧ u.pool.share ≤ 64) : StartUpGoesTo s (startUpEnds r u)

/-- A type's content leaves start-up quiet; the share alone may be another, within its range (R205). -/
theorem applyType_startUp (t : Nat) (content : List Byte) (s s' : State) (happlied : applyType t content s = some s') (h : StartUp s) :
    StartUp s' ∧ s'.guard.cap = s.guard.cap ∧ s'.pool.hingeBusy = s.pool.hingeBusy ∧
    (s'.pool.share = s.pool.share ∨ 8 ≤ s'.pool.share ∧ s'.pool.share ≤ 64) := by
  unfold applyType at happlied
  split at happlied <;> simp only [Option.map_eq_some_iff, Option.some.injEq] at happlied
  case h_7 =>
    obtain ⟨d, hd, rfl⟩ := happlied
    refine ⟨h, rfl, rfl, .inr ?_⟩
    unfold readSplit at hd
    split at hd
    · split at hd
      · next hrange => exact Option.some.inj hd ▸ hrange
      · cases hd
    · cases hd
  all_goals first
    | (subst happlied; exact ⟨h, rfl, rfl, .inl rfl⟩)
    | (obtain ⟨_, _, rfl⟩ := happlied; exact ⟨h, rfl, rfl, .inl rfl⟩)

/-- The sections leave start-up quiet; the share alone may be another, within its range (R205). -/
theorem applySections_startUp (sections : List Section) (s : State) (h : StartUp s) :
    StartUp (applySections sections s) ∧ (applySections sections s).guard.cap = s.guard.cap ∧
    (applySections sections s).pool.hingeBusy = s.pool.hingeBusy ∧
    ((applySections sections s).pool.share = s.pool.share ∨
      8 ≤ (applySections sections s).pool.share ∧ (applySections sections s).pool.share ≤ 64) := by
  refine List.foldlRecOn (motive := fun u : State => StartUp u ∧ u.guard.cap = s.guard.cap ∧ u.pool.hingeBusy = s.pool.hingeBusy ∧
    (u.pool.share = s.pool.share ∨ 8 ≤ u.pool.share ∧ u.pool.share ≤ 64)) _ _ ⟨h, rfl, rfl, .inl rfl⟩ fun u hu t _ => ?_
  obtain ⟨hstart, hcap, hbusy, hshare⟩ := hu
  dsimp only
  split
  · cases happlied : applyType t (joined sections (BitVec.ofNat 8 t)) u with
    | none => exact ⟨hstart, hcap, hbusy, hshare⟩
    | some v =>
      obtain ⟨hstart', hcap', hbusy', hshare'⟩ := applyType_startUp _ _ _ _ happlied hstart
      refine ⟨hstart', hcap'.trans hcap, hbusy'.trans hbusy, ?_⟩
      obtain heq | hrange := hshare'
      · exact heq ▸ hshare
      · exact .inr hrange
  · exact ⟨hstart, hcap, hbusy, hshare⟩

/-- A read of start-up goes on reading or ends start-up (R204). -/
theorem readAnswered_startUp (bytes : List Byte) (s : State) (h : StartUp s) : StartUpGoesTo s (readAnswered bytes s) := by
  have himage (length : Nat) (crc : Word16) (body : List Byte) (offset : Nat) (answer : List Byte) :
      StartUpGoesTo s (imageRead length crc body (storeHolds offset answer s)) := by
    unfold imageRead
    dsimp only
    split
    · obtain ⟨hstart, hcap, hbusy, hshare⟩ := applySections_startUp (sectionsOf body)
        { storeHolds offset answer s with store := { (storeHolds offset answer s).store with imageLength := some length } } h
      exact .ends _ _ hstart hcap hbusy hshare
    · exact .ends _ _ h rfl rfl (.inl rfl)
  unfold readAnswered headerRead
  dsimp only
  rw [if_pos h.1]
  split
  · split
    · split
      · split
        · exact himage _ _ _ _ _
        · exact .stays h ⟨rfl, rfl, rfl⟩
      · exact .ends _ _ h rfl rfl (.inl rfl)
    · exact .ends _ _ h rfl rfl (.inl rfl)
  · exact himage _ _ _ _ _
  · exact .stays h ⟨rfl, rfl, rfl⟩

/-- A request that arrives in start-up is answered STARTING. -/
theorem engineTakes_startUp (s : State) (h : StartUp s) : StartUp (engineTakes s) ∧ KeepsStartMarks (engineTakes s) s := by
  unfold engineTakes
  split
  · split
    · rw [takeRequest, if_pos h.1]
      exact ⟨h, rfl, rfl, rfl⟩
    · exact ⟨h, rfl, rfl, rfl⟩
  · exact ⟨h, rfl, rfl, rfl⟩

theorem requestArrives_startUp (q : Request) (s : State) (h : StartUp s) :
    StartUp (requestArrives q s) ∧ KeepsStartMarks (requestArrives q s) s := by
  unfold requestArrives
  split
  · exact ⟨h, rfl, rfl, rfl⟩
  · exact engineTakes_startUp { s with mgmt := { s.mgmt with intake := s.mgmt.intake ++ [q] } } h

/-- A frame in start-up is discarded uncounted (R21). -/
theorem routeFrame_starting (src : Source) (kind : Byte) (payload : List Byte) (damaged : Bool) (s : State)
    (h : s.store.state = .starting) : routeFrame src kind payload damaged s = s := if_pos h

/-- With both grants 0 and both outputs off nothing is switched. -/
theorem switchOutputs_off (s : State) (hbase : s.guard.baseGrant = 0) (hpen : s.guard.penGrant = none) (hrail : s.guard.railOn = false)
    (hcoil : s.guard.coilOn = false) : switchOutputs s = reportAlarm s := by
  have hcoilStays : switchCoil s = s := by simp [switchCoil, coilConditions, hpen, hcoil]
  have hrailStays : switchRail s = s := by simp [switchRail, railConditions, hbase, hrail]
  rw [switchOutputs, hcoilStays, hrailStays]

/-- What leaves the blocks that start-up keeps quiet leaves start-up. -/
theorem startUp_of {t s : State} (hstore : t.store = s.store) (hlink : t.link = s.link) (hatt : t.att = s.att)
    (hissuer : t.issuer = s.issuer) (hpool : t.pool = s.pool) (hguard : t.guard = s.guard) (hpen : t.pen = s.pen)
    (hposture : t.posture = s.posture) (hpoller : t.poller = s.poller) (hevents : t.policy.events = s.policy.events) (h : StartUp s) :
    StartUp t ∧ KeepsStartMarks t s := by
  refine ⟨?_, by rw [hguard], by rw [hpool], by rw [hpool]⟩
  simpa only [StartUp, Quiet, hstore, hlink, hatt, hissuer, hpool, hguard, hpen, hposture, hpoller, hevents] using h

/-- A command in start-up leaves it, begins it again or ends it. -/
theorem effect_startUp (c : Instr) (s : State) (h : StartUp s) : StartUpGoesTo s (effect c s) := by
  have hkeep {t : State} (k : StartUp t ∧ KeepsStartMarks t s) : StartUpGoesTo s t := .stays k.1 k.2
  have hstay {t : State} (ht : t = s) : StartUpGoesTo s t := by
    rw [ht]
    exact .stays h ⟨rfl, rfl, rfl⟩
  have hport (u : State) (rx : Receiver) (n : Byte) (hu : StartUp u ∧ KeepsStartMarks u s) :
      StartUp { u with rx := rx, uplinkErrors := n } ∧ KeepsStartMarks { u with rx := rx, uplinkErrors := n } s := hu
  have hrequest (q : Request) (u : State) (hu : StartUp u ∧ KeepsStartMarks u s) :
      StartUp (requestArrives q u) ∧ KeepsStartMarks (requestArrives q u) s := by
    obtain ⟨hstart, hcap, hbusy, hshare⟩ := hu
    obtain ⟨hstart', hcap', hbusy', hshare'⟩ := requestArrives_startUp q u hstart
    exact ⟨hstart', hcap'.trans hcap, hbusy'.trans hbusy, hshare'.trans hshare⟩
  have hframe (kind : Byte) (payload : List Byte) (u : State) (hu : StartUp u ∧ KeepsStartMarks u s) :
      StartUp (routeFrame .uplink kind payload false u) ∧ KeepsStartMarks (routeFrame .uplink kind payload false u) s := by
    rwa [routeFrame_starting _ _ _ _ _ hu.1.1]
  have hself : StartUp s ∧ KeepsStartMarks s s := ⟨h, rfl, rfl, rfl⟩
  cases hq : requestOf c with
  | some q => exact effect_of_request hq s ▸ hkeep (hrequest q s hself)
  | none =>
    obtain ⟨hstarting, hlink, hpresent, htable, hwaiting, hwindow, hup, hdown, hbase, hpen, hrailOn, hcoilOn, hrailOc, hrailUv, hcoilOc,
      hcoilUv, hsession, hdebounce, hdetect, hramp, hsilence, hsettle, hperiod, hevents⟩ := h
    have h : StartUp s := hself.1
    cases c
    case coldReset => exact .afresh s
    case restartTakesEffect =>
      rw [effect]
      split
      · exact .again s rfl
      · exact hstay rfl
    case storeReadAnswered bytes => exact readAnswered_startUp bytes s h
    case storeExchangeUnanswered =>
      rw [effect, exchangeUnanswered]
      split
      · rw [hstarting]
        exact .ends _ s h rfl rfl (.inl rfl)
      · exact hstay rfl
    case pageWriteTaken =>
      rw [effect, pageTaken]
      split
      · simp only [afterPage, storeHolds, hstarting]
        exact .stays ⟨rfl, h.2⟩ ⟨rfl, rfl, rfl⟩
      · exact hstay rfl
    case receiveFault bytes => exact hkeep (bytesArrive_keeps hport hrequest hframe bytes s hself)
    case dataParcel tag payload | requestParcel code payload => exact hkeep (parcelArrives_keeps hport hrequest hframe _ _ _ s hself)
    case parcelSent =>
      rw [effect, parcelSent]
      split
      · exact hstay rfl
      · dsimp only
        split
        · exact .again _ rfl
        · obtain ⟨hstart, hmarks⟩ := engineTakes_startUp { s with tx := .idle, mgmt := { s.mgmt with holder := none } } h
          exact .stays hstart hmarks
      · exact hkeep hself
      · refine .stays ⟨hstarting, hlink, hpresent, htable, hwaiting, hwindow, ?_, hdown, hbase, hpen, hrailOn, hcoilOn, hrailOc, hrailUv,
          hcoilOc, hcoilUv, hsession, hdebounce, hdetect, hramp, hsilence, hsettle, hperiod, hevents⟩ ⟨rfl, rfl, rfl⟩
        simp [hup]
    case presenceAssert =>
      rw [effect, presenceAsserts]
      split
      · exact hstay rfl
      · dsimp only
        rw [if_pos hstarting]
        exact hkeep hself
    case detach =>
      rw [effect, presenceReleases]
      split
      · exact hstay rfl
      · have habsent : s.link.state = .absent := by rw [hlink]; rfl
        simp only [habsent]
        exact hkeep hself
    case encoderCodeChange code =>
      rw [effect, codeChanges]
      split
      · exact hstay rfl
      · simp only [hpresent, Bool.not_false, if_true]
        exact hkeep hself
    case lidSwitchAssert =>
      rw [effect, lidAsserts]
      split
      · exact hstay rfl
      · simp only [hpresent, Bool.false_eq_true, if_false]
        exact hkeep hself
    case lidSwitchRelease =>
      rw [effect, lidReleases]
      split
      · exact hstay rfl
      · simp only [hpresent, Bool.false_eq_true, if_false]
        exact hkeep hself
    case foldFlatAssert =>
      rw [effect, foldFlatAsserts]
      split
      · exact hstay rfl
      · simp only [hpresent, Bool.false_and, Bool.false_eq_true, if_false]
        exact hkeep hself
    case foldFlatRelease => exact hkeep hself
    case lidMotion x y z busError =>
      rw [effect, lidMotionMade, routeFrame_starting _ _ _ _ _ (by exact hstarting)]
      exact hkeep hself
    case penStatus payload damaged => exact hstay (routeFrame_starting _ _ _ _ _ hstarting)
    case dwellReached => exact hstay (if_pos hstarting)
    case alarmRawClears cause =>
      refine hkeep ⟨⟨hstarting, hlink, hpresent, htable, hwaiting, hwindow, hup, hdown, hbase, hpen, hrailOn, hcoilOn, ?_, ?_, ?_, ?_,
          hsession, hdebounce, hdetect, hramp, hsilence, hsettle, hperiod, hevents⟩, rfl, rfl, rfl⟩
      all_goals cases cause <;> first | rfl | assumption
    case dieOtDetected =>
      rw [effect, dieOtAppears]
      split
      · exact hstay rfl
      · dsimp only
        rw [if_pos (by simpa [changeAlarm] using hstarting),
          switchOutputs_off _ (by simpa [changeAlarm] using hbase) (by simpa [changeAlarm] using hpen)
            (by simpa [changeAlarm] using hrailOn) (by simpa [changeAlarm] using hcoilOn)]
        exact hkeep hself
    case dieOtCleared =>
      rw [effect, dieOtClears, switchOutputs_off _ (by simpa [changeAlarm] using hbase) (by simpa [changeAlarm] using hpen)
        (by simpa [changeAlarm] using hrailOn) (by simpa [changeAlarm] using hcoilOn)]
      exact hkeep hself
    case dockSwitchAssert =>
      rw [effect, dockAsserts]
      split
      · exact hstay rfl
      · dsimp only
        rw [if_pos hstarting]
        exact hkeep hself
    case penRemoval =>
      rw [effect, dockReleases]
      split
      · exact hstay rfl
      · dsimp only
        rw [if_pos hsession]
        exact hkeep ⟨⟨hstarting, hlink, hpresent, htable, hwaiting, hwindow, hup, hdown, hbase, hpen, hrailOn, hcoilOn, hrailOc, hrailUv,
          hcoilOc, hcoilUv, hsession, rfl, hdetect, hramp, hsilence, hsettle, hperiod, hevents⟩, rfl, rfl, rfl⟩
    case graceTimerExpiry =>
      rw [effect]
      split
      · exact hkeep (startUp_of (by simp) (by simp) (by simp) (by simp) (by simp) (by simp) (by simp) (by simp) (by simp) (by simp) h)
      · exact hstay rfl
    case settleTimerExpiry => exact hstay (if_neg (by simp [hsettle]))
    case blinkPhaseExpiry line | stretchTimerExpiry line => cases line <;> exact hkeep hself
    case confirmWindowExpiry | wakePulseEnd | wakeWindowExpiry =>
      exact hkeep (startUp_of (by simp [effect]) (by simp [effect]) (by simp [effect]) (by simp [effect]) (by simp [effect])
        (by simp [effect]) (by simp [effect]) (by simp [effect]) (by simp [effect]) (by simp [effect]) h)
    case alarmRawAppears cause =>
      refine hstay (if_neg ?_)
      cases cause <;> simp [outputOn, hrailOn, hcoilOn]
    case filterTimerExpiry cause =>
      refine hstay (if_neg ?_)
      cases cause <;> simp [alarmOf, causeOf, PerCause.get, hrailOc, hrailUv, hcoilOc, hcoilUv]
    case baseTrafficFrame | response | busyResponse | reject | wakeSignal | unlistedKindFrame =>
      simp only [effect, trafficArrives, responseArrives, answerArrives, wakeSignalArrives, unlistedArrives, hlink, Link.cold]
      exact hkeep hself
    case debounceExpiry => exact hstay (if_neg (by simp [hlink, Link.cold]))
    case railUpExpiry => exact hstay (if_neg (by simp [hlink, Link.cold]))
    case trainingEcho => exact hstay (if_neg (by simp [hlink, Link.cold]))
    case echoWindowExpiry => exact hstay (if_neg (by simp [hlink, Link.cold]))
    case retryTimerExpiry => exact hstay (if_neg (by simp [hlink, Link.cold]))
    case describeWindowExpiry => exact hstay (if_neg (by simp [hlink, Link.cold]))
    case quietTimerExpiry => exact hstay (if_neg (by simp [hlink, Link.cold]))
    case wakeTimeExpiry => exact hstay (if_neg (by simp [hlink, Link.cold]))
    case keepaliveTimerExpiry => exact hstay (if_neg (by simp [hlink, Link.cold]))
    case keepaliveEcho => exact hstay (if_neg (by simp [hlink, Link.cold]))
    case keepaliveWindowExpiry => exact hstay (if_neg (by simp [hlink, Link.cold]))
    case resetDriveExpiry => exact hstay (if_neg (by simp [hlink, Link.cold]))
    case responseWindowExpiry => exact hstay (if_neg (by simp [hwindow]))
    case discardTimerExpiry => exact hstay (if_neg (by simp [htable]))
    case samplePeriodExpiry => exact hstay (if_neg (by simp [hperiod]))
    case dockDebounceExpiry => exact hstay (if_neg (by simp [hdebounce]))
    case detectWindowExpiry => exact hstay (if_neg (by simp [hdetect]))
    case rampTimerExpiry => exact hstay (if_neg (by simp [hramp]))
    case silenceTimerExpiry => exact hstay (if_neg (by simp [hsilence]))
    case diagnosisMeasurementEnd =>
      simp only [effect, measurementEnds, hlink, Link.cold]
      split <;> exact hstay rfl
    case hingeFrameSent =>
      simp only [effect, hingeFrameDone, hdown]
      split <;> exact hstay rfl
    case resetLineAsserted => exact hstay rfl
    all_goals exact absurd hq (Option.some_ne_none _)

/-! ## Outside start-up -/

/-- The image is not being read. -/
abbrev Started (s : State) : Prop := s.store.state ≠ .starting

/-- An owner's answer begins no start-up. -/
theorem ownerAnswer_started (q : Request) (s : State) (h : Started s) : Started (ownerAnswer q s).after := by
  cases q
  case storeSave =>
    rw [ownerAnswer, answerSave]
    split
    · simp [Started, beginSave, writePage]
    · exact h
  case storeErase =>
    rw [ownerAnswer, answerErase]
    split
    · simp [Started, beginErase, writePage]
    · exact h
  case routeRead | windowRead | policyRead =>
    rw [ownerAnswer, answerEntry]
    split <;> exact h
  all_goals simpa [Started, ownerAnswer, statusOnly, withChargeRecord, withOrientationRecord] using h

theorem requestArrives_started (q : Request) (s : State) (h : Started s) : Started (requestArrives q s) :=
  requestArrives_keeps (fun _ _ h => h) (fun q s _ h => ownerAnswer_started q s h) q s h

/-- The end of start-up ends it. -/
@[simp] theorem startUpEnds_state (r : StartResult) (s : State) : (startUpEnds r s).store.state = .idle := by
  unfold startUpEnds
  dsimp only
  split <;> simp

@[simp] theorem operationEnds_state (op : StoreOp) (e : StoreEnd) (s : State) : (operationEnds op e s).store.state = .idle := by
  simp [operationEnds]

/-- A page that is taken, and an exchange unanswered, begin no start-up. -/
theorem pageTaken_started (s : State) (h : Started s) : Started (pageTaken s) := by
  have hafter (k : Nat) (u : State) (hu : Started u) : Started (afterPage k u) := by
    unfold afterPage nextPage writePage
    dsimp only
    (repeat' split) <;> simp_all [Started]
  unfold pageTaken
  split
  · exact hafter _ _ (by simpa [Started, storeHolds] using h)
  · exact h

/-- Outside start-up a command begins it by a reset alone. -/
theorem effect_started (c : Instr) (s : State) (h : Started s) :
    Started (effect c s) ∨ effect c s = coldReset s ∨ ∃ u, effect c s = restartHub u ∧ u.guard = s.guard := by
  cases hq : requestOf c with
  | some q => exact .inl (effect_of_request hq s ▸ requestArrives_started q s h)
  | none =>
    have hport (u : State) (rx : Receiver) (n : Byte) (hu : Started u) : Started { u with rx := rx, uplinkErrors := n } := hu
    have hframe (kind : Byte) (payload : List Byte) (u : State) (hu : Started u) : Started (routeFrame .uplink kind payload false u) := by
      simpa [Started] using hu
    cases c
    case coldReset => exact .inr (.inl rfl)
    case restartTakesEffect =>
      rw [effect]
      split
      · exact .inr (.inr ⟨s, rfl, rfl⟩)
      · exact .inl h
    case storeReadAnswered bytes => exact .inl (by rw [effect, readAnswered, if_neg h]; exact h)
    case storeExchangeUnanswered =>
      refine .inl ?_
      rw [effect, exchangeUnanswered]
      (repeat' split) <;> simp_all [Started]
    case pageWriteTaken => exact .inl (pageTaken_started s h)
    case receiveFault bytes => exact .inl (bytesArrive_keeps hport requestArrives_started hframe bytes s h)
    case dataParcel tag payload | requestParcel code payload =>
      exact .inl (parcelArrives_keeps hport requestArrives_started hframe _ _ _ s h)
    case parcelSent =>
      rw [effect, parcelSent]
      split
      · exact .inl h
      · dsimp only
        split
        · exact .inr (.inr ⟨_, rfl, rfl⟩)
        · exact .inl (engineTakes_keeps (inv := Started) (fun _ _ h => h) (fun q s _ h => ownerAnswer_started q s h) _ h)
      · exact .inl h
      · exact .inl h
    case busyResponse payload check | reject payload check =>
      refine .inl ?_
      rw [effect, answerArrives]
      unfold receivedReady receivedQuiet
      (repeat' split) <;> simpa [Started] using h
    case settleTimerExpiry | dwellReached | graceTimerExpiry =>
      refine .inl ?_
      rw [effect]
      split <;> simpa [Started] using h
    all_goals first
      | exact absurd hq (Option.some_ne_none _)
      | exact .inl (by simpa [effect, Started] using h)

/-! ## The end of a change, and every step -/

/-- In start-up the end of a change takes no event. -/
theorem finish_startUp (s : State) (h : StartUp s) : StartUp (finish s) ∧ KeepsStartMarks (finish s) s := by
  obtain ⟨_, _, _, _, _, _, _, hdown, _, _, _, _, _, _, _, _, _, _, _, _, _, _, _, hevents⟩ := id h
  have hkick : kickHinge s = s := if_pos hdown
  rw [finish_settled s hevents, hkick]
  exact startUp_of (by simp) (by simp) (by simp) (by simp) (by simp) (by simp) (by simp) (by simp) (by simp) (by simp) h

/-- The end of a change leaves a dormant hub dormant. -/
theorem finish_dormant (s : State) (h : Dormant s) : Dormant (finish s) := by
  by_cases hstarting : s.store.state = .starting
  · exact (finish_startUp s ⟨hstarting, h hstarting⟩).1.dormant
  · exact dormant_of_running (by simpa using hstarting)

/-- A command's own effect leaves a dormant hub dormant. -/
theorem effect_dormant (c : Instr) (s : State) (h : Dormant s) : Dormant (effect c s) := by
  by_cases hstarting : s.store.state = .starting
  · have hgoes := effect_startUp c s ⟨hstarting, h hstarting⟩
    generalize effect c s = t at hgoes ⊢
    cases hgoes with
    | stays k _ => exact k.dormant
    | again u _ => exact (startUp_restartHub u).dormant
    | afresh u => exact (startUp_coldReset u).dormant
    | ends r u _ _ _ _ => exact dormant_of_running (by simp)
  · obtain hstarted | hcold | ⟨u, hrestart, _⟩ := effect_started c s hstarting
    · exact dormant_of_running hstarted
    · rw [hcold]
      exact (startUp_coldReset s).dormant
    · rw [hrestart]
      exact (startUp_restartHub u).dormant

/-- A level of the outside world in reset is beside dormancy. -/
theorem heldEffect_dormant (c : Instr) (s : State) (h : Dormant s) : Dormant (heldEffect c s) := by
  unfold heldEffect
  split <;> exact h

/-- The assertion of the reset line leaves a dormant hub dormant. -/
theorem holdInReset_dormant (s : State) (h : Dormant s) : Dormant (holdInReset s) := by
  intro hstarting
  obtain ⟨hlink, hpresent, htable, hwaiting, hwindow, hup, hdown, hbase, hpen, _, _, hrailOc, hrailUv, hcoilOc, hcoilUv, hsession,
    hdebounce, hdetect, hramp, hsilence, hsettle, hperiod, _⟩ := h hstarting
  exact ⟨hlink, hpresent, htable, hwaiting, hwindow, hup, hdown, hbase, hpen, rfl, rfl, hrailOc, hrailUv, hcoilOc, hcoilUv, hsession,
    hdebounce, hdetect, hramp, hsilence, hsettle, hperiod, rfl⟩

/-- Time leaves a dormant hub dormant: no timer of it runs. -/
theorem advance_dormant (s : State) (h : Dormant s) : Dormant (advance s) := by
  intro hstarting
  obtain ⟨hlink, hpresent, htable, hwaiting, hwindow, hup, hdown, hbase, hpen, hrailOn, hcoilOn, hrailOc, hrailUv, hcoilOc, hcoilUv,
    hsession, hdebounce, hdetect, hramp, hsilence, hsettle, hperiod, hevents⟩ := h hstarting
  simp [advance, tickLink, tickIssuer, tickGuard, tickPen, PerCause.map, tick, *, Link.cold]

/-- What a dormant hub's effects, the ends of their changes, the resets and time keep, every step keeps together with the dormancy. -/
theorem everyStepKeeps_withDormant {inv : State → Prop}
    (hworld : ∀ s rest n k, inv s → inv { s with pending := rest, fresh := n, now := k })
    (hcold : ∀ s, inv s → inv (coldReset s)) (hlevel : ∀ c s, inv s → inv (heldEffect c s))
    (hline : ∀ s, inv s → inv (holdInReset s)) (heffect : ∀ c s, Dormant s → inv s → inv (effect c s))
    (hfinish : ∀ s, inv s → inv (finish s)) (htime : ∀ s, inv s → inv (advance s)) : EveryStepKeeps (fun s => Dormant s ∧ inv s) :=
  everyStepKeeps_of (fun s rest n k h => ⟨h.1, hworld s rest n k h.2⟩)
    (fun s h => ⟨finish_dormant _ (startUp_coldReset s).dormant, hfinish _ (hcold s h.2)⟩)
    (fun c s _ h => ⟨heldEffect_dormant c s h.1, hlevel c s h.2⟩)
    (fun s _ h => ⟨holdInReset_dormant s h.1, hline s h.2⟩)
    (fun c s _ h => ⟨finish_dormant _ (effect_dormant c s h.1), hfinish _ (heffect c s h.1 h.2)⟩)
    (fun s _ h => ⟨advance_dormant s h.1, htime s h.2⟩)

end Sys2Proof.Machine

/-! PROOFS. The two grants fit in the budget (R125 to R131). -/
namespace Sys2Proof.Machine

/-! ## The guard's figures -/

/-- The grants fit beside each other, and the pen grant is above neither the claim nor the cap. -/
abbrev Guard.Fits (g : Guard) : Prop :=
  g.baseGrant + grantMw g.penGrant ≤ g.budget ∧ rank g.penGrant ≤ rank g.target ∧ g.cap ≠ some .fast

/-- A higher level draws no less. -/
theorem grantMw_le_of_rank {a b : Option PenLevel} (h : rank a ≤ rank b) : grantMw a ≤ grantMw b := by
  revert h
  rcases a with _ | _ | _ | _ <;> rcases b with _ | _ | _ | _ <;> decide

/-- The best fit of a level is no higher and fits beside a base grant that itself fits (R125, R128). -/
theorem bestFit_fits (budget base : Nat) (l : PenLevel) (h : base ≤ budget) : base + grantMw (bestFit budget base l) ≤ budget := by
  obtain ⟨_, hnone | hfits, _⟩ := bestFit_spec budget base l
  · rw [hnone]
    exact h
  · exact hfits

theorem bestFit_rank (budget base : Nat) (l : PenLevel) : rank (bestFit budget base l) ≤ rank (some l) := (bestFit_spec budget base l).1

/-- The best fit of the target fits and is not above it. -/
theorem targetFit_fits (g : Guard) (hbase : g.baseGrant ≤ g.budget) (hcap : g.cap ≠ some .fast) :
    Guard.Fits { g with penGrant := g.target.bind (bestFit g.budget g.baseGrant) } := by
  refine ⟨?_, ?_, hcap⟩
  · show g.baseGrant + grantMw (g.target.bind (bestFit g.budget g.baseGrant)) ≤ g.budget
    cases g.target with
    | none => exact hbase
    | some t => exact bestFit_fits _ _ t hbase
  · show rank (g.target.bind (bestFit g.budget g.baseGrant)) ≤ rank g.target
    cases g.target with
    | none => exact Nat.le_refl _
    | some t => exact bestFit_rank _ _ t

/-- A re-grant of a pen whose grants fit leaves them fitting (R129). -/
theorem regrant_fits (g : Guard) (h : g.Fits) : g.regrant.Fits := by
  obtain ⟨hfits, hrank, hcap⟩ := h
  unfold Guard.regrant
  split
  · exact ⟨hfits, hrank, hcap⟩
  · next t ht =>
    split
    · have hbase : g.baseGrant ≤ g.budget := Nat.le_trans (Nat.le_add_right _ _) hfits
      have htarget := targetFit_fits g hbase hcap
      rwa [ht] at htarget
    · exact ⟨hfits, hrank, hcap⟩

/-- A smaller base grant leaves room for the pen grant. -/
theorem lessBase_fits (g : Guard) (n : Nat) (hn : n + grantMw g.penGrant ≤ g.budget) (h : g.Fits) : Guard.Fits { g with baseGrant := n } :=
  ⟨hn, h.2.1, h.2.2⟩

theorem penClaim_fits (g : Guard) (l : PenLevel) (h : g.Fits) : (g.penClaim l).Fits :=
  targetFit_fits { g with claimed := some l } (Nat.le_trans (Nat.le_add_right _ _) h.1) h.2.2

theorem penRelease_fits (g : Guard) (h : g.Fits) : g.penRelease.Fits :=
  ⟨Nat.le_trans (Nat.le_add_right _ _) h.1, Nat.zero_le _, h.2.2⟩

/-- The pen level that a base claim steps down to is lower, and fits if the claim fits alone (R126). -/
theorem stepDown_fits (budget n : Nat) (grant : Option PenLevel) (hn : n ≤ budget) :
    n + grantMw (stepDown budget n grant) ≤ budget ∧ rank (stepDown budget n grant) ≤ rank grant := by
  unfold stepDown
  split
  · exact ⟨hn, Nat.zero_le _⟩
  · next l hl =>
    refine ⟨bestFit_fits _ _ l hn, Nat.le_trans (bestFit_rank _ _ l) ?_⟩
    obtain ⟨p, rfl, hp⟩ := Option.bind_eq_some_iff.mp hl
    revert hp
    cases p <;> cases l <;> decide

theorem baseClaim_fits (g g' : Guard) (n : Nat) (hg : g.baseClaim n = some g') (h : g.Fits) : g'.Fits := by
  unfold Guard.baseClaim at hg
  split at hg
  · exact Option.some.inj hg ▸ h
  · split at hg
    · next hroom =>
      have hbeside := lessBase_fits g n hroom h
      dsimp only at hg
      split at hg
      · exact Option.some.inj hg ▸ regrant_fits _ hbeside
      · exact Option.some.inj hg ▸ hbeside
    · split at hg
      · next hn =>
        obtain ⟨hfits, hlower⟩ := stepDown_fits g.budget n g.penGrant hn
        exact Option.some.inj hg ▸ ⟨hfits, Nat.le_trans hlower h.2.1, h.2.2⟩
      · cases hg

theorem baseRelease_fits (g : Guard) (h : g.Fits) : g.baseRelease.Fits := by
  unfold Guard.baseRelease
  split
  · exact h
  · exact regrant_fits _ (lessBase_fits g 0 (by have := h.1; omega) h)

/-- A lowered budget: the pen steps down, and a base grant that does not fit is cut (R130). -/
theorem lower_fits (g : Guard) (p : Profiles) (n : Nat) (h : g.Fits) : (g.lower p n).1.Fits := by
  obtain ⟨_, hrank, hcap⟩ := h
  have hlower : rank (lowerPen (p.get n) g.baseGrant g.penGrant) ≤ rank g.penGrant ∧
      (grantMw (lowerPen (p.get n) g.baseGrant g.penGrant) = 0 ∨
        g.baseGrant + grantMw (lowerPen (p.get n) g.baseGrant g.penGrant) ≤ p.get n) := by
    cases g.penGrant with
    | none => exact ⟨Nat.le_refl _, .inl rfl⟩
    | some l => exact ⟨bestFit_rank _ _ l, (bestFit_spec (p.get n) g.baseGrant l).2.1⟩
  obtain ⟨hlower, hroom⟩ := hlower
  unfold Guard.lower
  dsimp only
  split
  · refine regrant_fits _ ⟨?_, Nat.le_trans hlower hrank, hcap⟩
    show 0 + grantMw (lowerPen (p.get n) g.baseGrant g.penGrant) ≤ p.get n
    omega
  · next hbase =>
    refine ⟨?_, Nat.le_trans hlower hrank, hcap⟩
    show g.baseGrant + grantMw (lowerPen (p.get n) g.baseGrant g.penGrant) ≤ p.get n
    omega

/-- Without a cap the target is the claim, which is no lower. -/
theorem uncapped_fits (g : Guard) (h : g.Fits) : Guard.Fits { g with cap := none } := by
  obtain ⟨hfits, hrank, _⟩ := h
  refine ⟨hfits, Nat.le_trans hrank ?_, nofun⟩
  show rank g.target ≤ rank ({ g with cap := none } : Guard).target
  unfold Guard.target minLevel
  cases g.claimed with
  | none => exact Nat.le_refl _
  | some l =>
    cases g.cap with
    | none => exact Nat.le_refl _
    | some c =>
      dsimp only
      split <;> omega

/-! ## The hub -/

/-- What leaves the guard's figures leaves the grants fitting. -/
theorem grantsFit_of {t s : State} (hprofiles : t.guard.profiles = s.guard.profiles) (hactive : t.guard.active = s.guard.active)
    (hbase : t.guard.baseGrant = s.guard.baseGrant) (hpen : t.guard.penGrant = s.guard.penGrant) (hclaimed : t.guard.claimed = s.guard.claimed)
    (hcap : t.guard.cap = s.guard.cap) (h : GrantsFit s) : GrantsFit t := by
  simpa only [GrantsFit, Guard.budget, Guard.target, hprofiles, hactive, hbase, hpen, hclaimed, hcap] using h

theorem grantsFit_of_guard {t s : State} (hguard : t.guard = s.guard) (h : GrantsFit s) : GrantsFit t := by
  simpa only [GrantsFit, hguard] using h

theorem grantsFit_aside : KeepsAside GrantsFit where
  aside k h := grantsFit_of_guard k.1 h
  hold r b s h := grantsFit_of_guard (by simp) h

theorem grantsFit_powered : KeepsPowered GrantsFit GrantsFit where
  looseAside := grantsFit_aside
  strictAside := grantsFit_aside
  weaken _ h := h
  switch s h := grantsFit_of (by simp) (by simp) (by simp) (by simp) (by simp) (by simp) h
  session _ _ h := h
  presence _ _ h := h
  penClaim l s h := penClaim_fits s.guard l h
  penClaimPaused l s _ h := penClaim_fits s.guard l h
  penRelease s h := penRelease_fits s.guard h
  baseClaim n g s hg h := baseClaim_fits s.guard g n hg h
  baseRelease s h := baseRelease_fits s.guard h
  lower p n s h := lower_fits s.guard p n h
  profiles p n s hle h := ⟨Nat.le_trans h.1 hle, h.2.1, h.2.2⟩
  regrant s h := regrant_fits s.guard h

theorem grantsFit_records : KeepsRecordsOfAlarms (fun _ => True) (fun _ => True) GrantsFit GrantsFit where
  marked := trivial
  unlatched := trivial
  heard _ _ _ _ := trivial
  sensed _ _ _ := trivial
  raised _ _ _ h := h
  filtered _ _ _ _ h := h
  detected _ _ h := h
  calmed _ _ h := h
  latched _ _ _ h := h
  latchedAll _ _ h := h
  capped l s hl h := targetFit_fits { s.guard with cap := some l } (Nat.le_trans (Nat.le_add_right _ _) h.1)
    (fun heq => hl (Option.some.inj heq))
  limited _ _ h := h
  hot _ h := h
  otDetected _ h := h
  cooled _ h := h
  read _ h := h
  cleared _ _ h := h
  uncapped s h := regrant_fits _ (uncapped_fits s.guard h)
  settings _ _ h := h

theorem grantsFit_sleeping : KeepsSleeping GrantsFit where
  begins s h := grantsFit_of_guard (by simp) h
  cancels w s h := grantsFit_of_guard (by simp) h
  wakes k s h := grantsFit_of_guard (by simp) h
  graceTime _ _ h := h
  grace s _ h := grantsFit_of_guard (by simp) h
  confirm s h := grantsFit_of_guard (by simp) h
  pulse s h := grantsFit_of_guard (by simp) h
  window s h := grantsFit_of_guard (by simp) h
  hello s h := grantsFit_of_guard (by simp) h
  asleep s _ h := grantsFit_of_guard (by simp) h
  declined _ _ h := h
  transmit s h := grantsFit_of_guard (by simp) h
  sent _ _ h := h

/-- With both grants 0 they fit in any budget. -/
theorem grantsFit_of_none {s : State} (hbase : s.guard.baseGrant = 0) (hpen : s.guard.penGrant = none) (hcap : s.guard.cap ≠ some .fast) :
    GrantsFit s := ⟨by simp [hbase, hpen, grantMw], by simp [hpen, rank], hcap⟩

theorem startUp_grantsFit {s : State} (h : StartUp s) (hcap : s.guard.cap ≠ some .fast) : GrantsFit s :=
  have hbase : s.guard.baseGrant = 0 := h.2.2.2.2.2.2.2.2.1
  have hpen : s.guard.penGrant = none := h.2.2.2.2.2.2.2.2.2.1
  grantsFit_of_none hbase hpen hcap

/-- A command's own effect leaves the grants fitting, with start-up quiet. -/
theorem effect_grantsFit (c : Instr) (s : State) (hdormant : Dormant s) (h : GrantsFit s) : GrantsFit (effect c s) := by
  by_cases hstarting : s.store.state = .starting
  · have hgoes := effect_startUp c s ⟨hstarting, hdormant hstarting⟩
    generalize effect c s = t at hgoes ⊢
    cases hgoes with
    | stays k marks => exact startUp_grantsFit k (marks.1 ▸ h.2.2)
    | again u hcap => exact startUp_grantsFit (startUp_restartHub u) (hcap ▸ h.2.2 : u.guard.cap ≠ some .fast)
    | afresh u => exact startUp_grantsFit (startUp_coldReset u) nofun
    | ends r u k hcap _ _ =>
      exact startUpEnds_keepsPowered grantsFit_powered grantsFit_records r u (startUp_grantsFit k (hcap ▸ h.2.2))
  · exact effect_keepsPowered grantsFit_powered grantsFit_sleeping (keepsAlarmEvents_of_records grantsFit_powered grantsFit_records) c s h
      (fun _ hnot => absurd hnot hstarting) (fun hnot => absurd hnot hstarting) (startUp_grantsFit (startUp_coldReset s) nofun)
      (fun u hu => startUp_grantsFit (startUp_restartHub u) hu.2.2)

end Sys2Proof.Machine

namespace Sys2Proof
open Machine

/-- Settles O53. -/
theorem everyStepKeepsTheGrantsInTheBudget : Obligations.EveryStepKeepsTheGrantsInTheBudget :=
  everyStepKeeps_withDormant (inv := GrantsFit) (fun _ _ _ _ h => h) (fun s _ => startUp_grantsFit (startUp_coldReset s) nofun)
    (fun c s h => by
      unfold heldEffect
      split <;> exact h)
    (fun _ h => h) effect_grantsFit (finish_keepsPowered grantsFit_powered grantsFit_sleeping) (fun _ h => h)

end Sys2Proof

/-! PROOFS. The slot pool stays whole (R11, R13). -/
namespace Sys2Proof.Machine

/-! ## The pool -/

/-- The slots of two queues are held once each, and each is one of the 96. -/
abbrev SlotsWhole (up down : List Frame) : Prop :=
  ((up ++ down).flatMap Frame.slots).Nodup ∧ ∀ n ∈ (up ++ down).flatMap Frame.slots, n < 96

/-- The pool's own condition, of which PoolHolds speaks for the hub. -/
abbrev Pool.Whole (p : Pool) : Prop :=
  8 ≤ p.share ∧ p.share ≤ 64 ∧ heldBy p.up ≤ 96 - p.share ∧ heldBy p.down ≤ p.share ∧ SlotsWhole p.up p.down

/-- Fewer frames leave the slots whole. -/
theorem slotsWhole_sublist {up down up' down' : List Frame} (hup : up'.Sublist up) (hdown : down'.Sublist down)
    (h : SlotsWhole up down) : SlotsWhole up' down' := by
  have hsub : ((up' ++ down').flatMap Frame.slots).Sublist ((up ++ down).flatMap Frame.slots) :=
    (hup.append hdown).flatMap Frame.slots
  exact ⟨h.1.sublist hsub, fun n hn => h.2 n (hsub.subset hn)⟩

/-- Fewer frames hold no more slots. -/
theorem heldBy_sublist {q q' : List Frame} (h : q'.Sublist q) : heldBy q' ≤ heldBy q := by
  unfold heldBy
  exact (h.map _).sum_le_sum fun _ _ => Nat.zero_le _

/-- A free slot is one of the 96 and held by no frame (R11). -/
theorem mem_freeSlots {p : Pool} {n : Nat} (h : n ∈ p.freeSlots) : n < 96 ∧ n ∉ (p.up ++ p.down).flatMap Frame.slots := by
  simp only [Pool.freeSlots, List.mem_filter, List.mem_range, List.all_eq_true, Bool.not_eq_true', List.contains_eq_mem,
    decide_eq_false_iff_not] at h
  refine ⟨h.1, fun hheld => ?_⟩
  obtain ⟨f, hf, hn⟩ := List.mem_flatMap.mp hheld
  exact h.2 f hf hn

/-- A frame with free slots joins the slots that are held, wherever it stands. -/
theorem slotsWhole_join {p : Pool} (n : Nat) (f : Frame) (hf : f.slots = p.freeSlots.take n) (h : SlotsWhole p.up p.down) :
    SlotsWhole (p.up ++ [f]) p.down ∧ SlotsWhole p.up (p.down ++ [f]) := by
  have hfree : ∀ a ∈ f.slots, a < 96 ∧ a ∉ (p.up ++ p.down).flatMap Frame.slots := fun a ha =>
    mem_freeSlots (List.take_subset _ _ (hf ▸ ha))
  have hnodup : f.slots.Nodup := hf ▸ ((List.nodup_range.filter _).sublist (List.take_sublist _ _))
  have hdown : SlotsWhole p.up (p.down ++ [f]) := by
    have hsplit : (p.up ++ (p.down ++ [f])).flatMap Frame.slots = (p.up ++ p.down).flatMap Frame.slots ++ f.slots := by simp
    rw [SlotsWhole, hsplit]
    refine ⟨List.nodup_append.mpr ⟨h.1, hnodup, fun a ha b hb hab => (hfree b hb).2 (hab ▸ ha)⟩, fun a ha => ?_⟩
    obtain ha | ha := List.mem_append.mp ha
    · exact h.2 a ha
    · exact (hfree a ha).1
  refine ⟨?_, hdown⟩
  have hperm : ((p.up ++ [f] ++ p.down).flatMap Frame.slots).Perm ((p.up ++ (p.down ++ [f])).flatMap Frame.slots) := by
    refine List.Perm.flatMap_right _ ?_
    rw [List.append_assoc]
    exact List.perm_append_comm.append_left p.up
  exact ⟨hperm.nodup_iff.mpr hdown.1, fun a ha => hdown.2 a (hperm.mem_iff.mp ha)⟩

/-- An admission downstream keeps the pool whole (R13). -/
theorem admitDown_whole {p q : Pool} {f : Frame} (hq : p.admitDown f = some q) (h : p.Whole) : q.Whole := by
  obtain ⟨hlow, hhigh, hup, hdown, hslots⟩ := h
  unfold Pool.admitDown at hq
  dsimp only at hq
  split at hq
  · next hroom =>
    obtain rfl := Option.some.inj hq
    refine ⟨hlow, hhigh, hup, ?_, (slotsWhole_join _ _ rfl hslots).2⟩
    simp only [heldBy, List.map_append, List.sum_append, List.map_cons, List.map_nil, List.sum_cons, List.sum_nil,
      List.length_take] at hroom ⊢
    omega
  · cases hq

/-- An admission upstream keeps the pool whole (R13). -/
theorem admitUp_whole {p q : Pool} {f : Frame} (hq : p.admitUp f = some q) (h : p.Whole) : q.Whole := by
  obtain ⟨hlow, hhigh, hup, hdown, hslots⟩ := h
  unfold Pool.admitUp Pool.upShare at hq
  dsimp only at hq
  split at hq
  · next hroom =>
    obtain rfl := Option.some.inj hq
    refine ⟨hlow, hhigh, ?_, hdown, (slotsWhole_join _ _ rfl hslots).1⟩
    simp only [heldBy, List.map_append, List.sum_append, List.map_cons, List.map_nil, List.sum_cons, List.sum_nil,
      List.length_take] at hroom ⊢
    omega
  · cases hq

/-- Frames that leave keep the pool whole. -/
theorem whole_sublist {p q : Pool} (hshare : q.share = p.share) (hup : q.up.Sublist p.up) (hdown : q.down.Sublist p.down) (h : p.Whole) :
    q.Whole := by
  obtain ⟨hlow, hhigh, hupHeld, hdownHeld, hslots⟩ := h
  have hu := heldBy_sublist hup
  have hd := heldBy_sublist hdown
  refine ⟨?_, ?_, ?_, ?_, slotsWhole_sublist hup hdown hslots⟩
  all_goals
    rw [hshare]
    omega

/-- Empty queues are whole with every share in range (R11, R18). -/
theorem whole_empty {p : Pool} (hup : p.up = []) (hdown : p.down = []) (hlow : 8 ≤ p.share) (hhigh : p.share ≤ 64) : p.Whole := by
  simp [Pool.Whole, SlotsWhole, hup, hdown, heldBy, hlow, hhigh]


/-! ## The hub -/

/-- What leaves the pool leaves it whole. -/
theorem poolHolds_of {t s : State} (hpool : t.pool = s.pool) (h : PoolHolds s) : PoolHolds t := by
  simpa only [PoolHolds, hpool] using h

theorem flushDown_poolHolds (s : State) (h : PoolHolds s) : PoolHolds (flushDown s) :=
  whole_sublist (p := s.pool) rfl (List.Sublist.refl _) (List.nil_sublist _) h

theorem offer_poolHolds (e : ReqEntry) (s : State) (h : PoolHolds s) : PoolHolds (offer e s) := by
  unfold offer
  split
  · next p hp => exact admitDown_whole hp h
  · exact h

theorem tryOffer_poolHolds (s : State) (h : PoolHolds s) : PoolHolds (tryOffer s) := by
  unfold tryOffer
  split
  · split
    · exact offer_poolHolds _ s h
    · exact h
  · exact h

theorem reoffer_poolHolds (s : State) (h : PoolHolds s) : PoolHolds (reoffer s) := by
  unfold reoffer
  split
  · split
    · exact offer_poolHolds _ s h
    · exact h
  · exact h

/-! ### The issuer -/

theorem endIssued_poolHolds (e : ReqEntry) (o : ReqOutcome) (r : Option (List Byte)) (s : State) (h : PoolHolds s) :
    PoolHolds (endIssued e o r s) := tryOffer_poolHolds _ (poolHolds_of (by simp) h)

theorem takeResponse_poolHolds (payload : List Byte) (s : State) (h : PoolHolds s) : PoolHolds (takeResponse payload s) := by
  unfold takeResponse
  split
  · split
    · exact endIssued_poolHolds _ _ _ s h
    · exact h
  · exact h

theorem takeReject_poolHolds (payload : List Byte) (s : State) (h : PoolHolds s) : PoolHolds (takeReject payload s) := by
  unfold takeReject
  split
  · exact endIssued_poolHolds _ _ _ s h
  · exact h

theorem takeBusy_poolHolds (payload : List Byte) (s : State) (h : PoolHolds s) : PoolHolds (takeBusy payload s) := by
  unfold takeBusy
  split
  · dsimp only
    split
    · exact tryOffer_poolHolds _ h
    · exact endIssued_poolHolds _ _ _ _ h
  · exact h

theorem responseWindowExpires_poolHolds (s : State) (h : PoolHolds s) : PoolHolds (responseWindowExpires s) := by
  unfold responseWindowExpires
  split
  · split
    · exact endIssued_poolHolds _ _ _ s h
    · exact h
  · exact h

theorem baseRequestTaken_poolHolds (target : Nat) (command : Byte) (data : List Byte) (s : State) (h : PoolHolds s) :
    PoolHolds (baseRequestTaken target command data s).1 := by
  unfold baseRequestTaken
  dsimp only
  (repeat' split) <;> first | exact h | exact tryOffer_poolHolds _ h

/-! ### The link -/

theorem enterUnpowered_poolHolds (demand : Nat) (s : State) (h : PoolHolds s) : PoolHolds (enterUnpowered demand s) :=
  poolHolds_of (s := flushDown s) (by simp [enterUnpowered, flushDown]) (flushDown_poolHolds s h)

theorem enterFaulted_poolHolds (s : State) (h : PoolHolds s) : PoolHolds (enterFaulted s) :=
  poolHolds_of (s := flushDown s) (by simp [enterFaulted, flushDown]) (flushDown_poolHolds s h)

theorem enterPowering_poolHolds (within : Bool) (s : State) (h : PoolHolds s) : PoolHolds (enterPowering within s) := by
  have hclaimed : PoolHolds (claimBase within allowance (setLinkState .powering s)).1 := poolHolds_of (by simp) h
  unfold enterPowering
  dsimp only
  split
  · exact hclaimed
  · exact enterUnpowered_poolHolds _ _ hclaimed

theorem enterReady_poolHolds (s : State) (h : PoolHolds s) : PoolHolds (enterReady s) := by
  unfold enterReady
  refine tryOffer_poolHolds _ (poolHolds_of ?_ h)
  dsimp only
  split <;> simp

theorem identificationEnds_poolHolds (i : Identity) (s : State) (h : PoolHolds s) : PoolHolds (identificationEnds i s) := by
  unfold identificationEnds
  dsimp only
  split
  · exact enterReady_poolHolds _ (poolHolds_of (by simp) h)
  · split
    · exact enterReady_poolHolds _ (poolHolds_of (by simp) h)
    · exact enterUnpowered_poolHolds _ _ (poolHolds_of (by simp) h)

theorem describeExpires_poolHolds (s : State) (h : PoolHolds s) : PoolHolds (describeExpires s) := by
  unfold describeExpires
  split
  · split
    · exact h
    · exact identificationEnds_poolHolds _ s h
  · exact h

theorem takeChunk_poolHolds (number : Byte) (bytes : List Byte) (s : State) (h : PoolHolds s) : PoolHolds (takeChunk number bytes s) := by
  unfold takeChunk
  dsimp only
  split
  · exact h
  · split
    · exact identificationEnds_poolHolds _ s h
    · split
      · exact h
      · split
        · exact h
        · exact identificationEnds_poolHolds _ _ h

theorem linkLoss_poolHolds (s : State) (h : PoolHolds s) : PoolHolds (linkLoss s) :=
  poolHolds_of (s := flushDown s) (by simp [linkLoss, flushDown]) (flushDown_poolHolds s h)

theorem wakeTimeExpires_poolHolds (s : State) (h : PoolHolds s) : PoolHolds (wakeTimeExpires s) := by
  unfold wakeTimeExpires
  split
  · exact tryOffer_poolHolds _ (poolHolds_of (by simp) h)
  · exact h

theorem keepAliveWindowExpires_poolHolds (s : State) (h : PoolHolds s) : PoolHolds (keepAliveWindowExpires s) := by
  unfold keepAliveWindowExpires
  split
  · exact linkLoss_poolHolds s h
  · exact h

/-- A frame that has been sent frees its slots (R14, R15). -/
theorem hingeFrameDone_poolHolds (s : State) (h : PoolHolds s) : PoolHolds (hingeFrameDone s) := by
  unfold hingeFrameDone
  split
  · split
    · next f rest hdown =>
      have hsent : PoolHolds { s with pool := { s.pool with down := rest, hingeBusy := false } } :=
        whole_sublist (p := s.pool) rfl (List.Sublist.refl _) (by rw [hdown]; exact List.sublist_cons_self f rest) h
      exact reoffer_poolHolds _ (poolHolds_of (by simp only [sendKeepAlive, commandSent]; (repeat' split) <;> rfl) hsent)
    · exact h
  · exact h

theorem debounceExpires_poolHolds (s : State) (h : PoolHolds s) : PoolHolds (debounceExpires s) := by
  unfold debounceExpires
  dsimp only
  split
  · split
    · exact enterFaulted_poolHolds _ (poolHolds_of (by simp) h)
    · exact enterPowering_poolHolds _ _ (poolHolds_of (by simp) h)
  · exact h

theorem presenceReleases_poolHolds (s : State) (h : PoolHolds s) : PoolHolds (presenceReleases s) := by
  have hdetach (u : State) (hu : PoolHolds u) : PoolHolds (detachBase u) :=
    poolHolds_of (s := flushDown u) (by simp [detachBase, flushDown]) (flushDown_poolHolds u hu)
  unfold presenceReleases
  split
  · exact h
  · dsimp only
    split
    · exact h
    · exact poolHolds_of (by simp) h
    · exact hdetach _ h

theorem baseResetTaken_poolHolds (s : State) (h : PoolHolds s) : PoolHolds (baseResetTaken s).1 := by
  have hdriven : PoolHolds (startResetDrive (flushDown (linkEnding (stopLinkTimers s)))) :=
    poolHolds_of (s := flushDown s) (by simp [flushDown]) (flushDown_poolHolds s h)
  have hpowering := enterPowering_poolHolds false s h
  unfold baseResetTaken
  split
  case h_4 =>
    dsimp only
    split
    · exact hpowering
    · exact hpowering
  case h_5 | h_6 => exact h
  all_goals exact hdriven

theorem linkDiagnoseTaken_poolHolds (s : State) (h : PoolHolds s) : PoolHolds (linkDiagnoseTaken s).1 := by
  have hset (d : Option Diagnosis) : PoolHolds (setLinkState .diagnosing (stopLinkTimers (flushDown { s with att := { s.att with diagnosis := d } }))) :=
    poolHolds_of (s := flushDown s) (by simp [flushDown]) (flushDown_poolHolds s h)
  unfold linkDiagnoseTaken
  dsimp only
  (repeat' split) <;> first | exact h | exact hset _

/-! ### The guard and the policy engine -/

theorem changeBudget_poolHolds (p : Profiles) (n : Nat) (s : State) (h : PoolHolds s) : PoolHolds (changeBudget p n s) := by
  have htold (before : Option PenLevel) (u : State) (hu : PoolHolds u) : PoolHolds (penTold before u) := poolHolds_of (by simp) hu
  unfold changeBudget
  dsimp only
  split
  · unfold lowerBudget
    dsimp only
    split
    · exact htold _ _ (enterUnpowered_poolHolds _ _ (poolHolds_of (by simp) h))
    · exact poolHolds_of (by simp) h
  · split
    · unfold raiseBudget
      dsimp only
      split
      · exact htold _ _ (poolHolds_of (by simp) (enterPowering_poolHolds true { s with guard := { s.guard with profiles := p, active := n } } h))
      · exact poolHolds_of (by simp) h
    · exact h

theorem issueClaim_poolHolds (ev : PolicyEvent) (a : PolicyAction) (s : State) (h : PoolHolds s) : PoolHolds (issueClaim ev a s) := by
  cases a with
  | budgetProfile n =>
    rw [issueClaim, budgetProfile]
    split
    · exact h
    · exact changeBudget_poolHolds _ _ s h
  | indicate l _ _ => cases l <;> exact h
  | _ => exact poolHolds_of (by simp [issueClaim]) h

theorem drainEvents_poolHolds (s : State) (h : PoolHolds s) : PoolHolds (drainEvents s) :=
  drainEvents_keeps (fun _ h => h) issueClaim_poolHolds s h

theorem finish_poolHolds (s : State) (h : PoolHolds s) : PoolHolds (finish s) := by
  refine finish_keeps (fun _ h => h) issueClaim_poolHolds (fun u hu => ?_) (fun u hu => poolHolds_of (by simp) hu) s h
  unfold kickHinge
  (repeat' split) <;> exact hu

theorem setLatch_poolHolds (c : OutCause) (s : State) (h : PoolHolds s) : PoolHolds (setLatch c s) := by
  cases c with
  | railOc | railUv => exact enterFaulted_poolHolds _ (poolHolds_of (by simp) h)
  | coilOc | coilUv => exact poolHolds_of (by simp [setLatch]) h

theorem applyProtection_poolHolds (c : OutCause) (p : Protection) (s : State) (h : PoolHolds s) : PoolHolds (applyProtection c p s) := by
  cases p with
  | stop => exact setLatch_poolHolds c s h
  | limit cap => exact poolHolds_of (by simp [applyProtection]) h
  | off | none => exact h

theorem becomesDetected_poolHolds (c : OutCause) (s : State) (h : PoolHolds s) : PoolHolds (becomesDetected c s) :=
  applyProtection_poolHolds _ _ _ (poolHolds_of (by simp) h)

theorem rawAppears_poolHolds (c : OutCause) (s : State) (h : PoolHolds s) : PoolHolds (rawAppears c s) := by
  unfold rawAppears
  dsimp only
  split
  · split
    · exact becomesDetected_poolHolds _ _ (poolHolds_of (by simp) h)
    · exact poolHolds_of (by simp) h
  · exact h

theorem filterExpires_poolHolds (c : OutCause) (s : State) (h : PoolHolds s) : PoolHolds (filterExpires c s) := by
  unfold filterExpires
  split
  · exact becomesDetected_poolHolds c s h
  · exact h

theorem clearAlarms_poolHolds (m : Nat) (s : State) (h : PoolHolds s) : PoolHolds (clearAlarms m s) := by
  have hpowered (u : State) (p : Prop) [Decidable p] (hu : PoolHolds u) : PoolHolds (if p then enterPowering false u else u) :=
    iteInduction (motive := PoolHolds) (fun _ => enterPowering_poolHolds false u hu) (fun _ => hu)
  have hgone (u : State) (p : Prop) [Decidable p] (hu : PoolHolds u) : PoolHolds (if p then coilLatchGone u else u) :=
    iteInduction (motive := PoolHolds) (fun _ => poolHolds_of (by simp) hu) (fun _ => hu)
  have hregranted (p : Prop) [Decidable p] : PoolHolds (if p then
      { clearNamed m s with guard := Guard.regrant { (clearNamed m s).guard with cap := none } } else clearNamed m s) :=
    iteInduction (motive := PoolHolds) (fun _ => poolHolds_of (by simp) h) (fun _ => poolHolds_of (by simp) h)
  have htold (before : Guard) (u : State) (hu : PoolHolds u) :
      PoolHolds (penTold before.penGrant (switchOutputs (postBudget before .clear u))) := poolHolds_of (by simp) hu
  exact hgone _ _ (hpowered _ _ (htold _ _ (hregranted _)))

theorem protectNow_poolHolds (before : Guard) (s : State) (h : PoolHolds s) : PoolHolds (protectNow before s) := by
  have hdue (s₀ u : State) (c : OutCause) (hu : PoolHolds u) : PoolHolds (protectIfDue before s₀ c u) := by
    unfold protectIfDue
    split
    · exact applyProtection_poolHolds _ _ u hu
    · exact hu
  unfold protectNow
  dsimp only
  rw [latchIfDue_all]
  refine hdue _ _ _ (iteInduction (motive := PoolHolds) (fun _ => ?_) (fun _ => hdue _ _ _ ?_)) <;>
    exact iteInduction (motive := PoolHolds) (fun _ => hdue _ _ _ h) (fun _ => hdue _ _ _ h)

theorem guardSetTaken_poolHolds (a : GuardArg) (s : State) (h : PoolHolds s) : PoolHolds (guardSetTaken a s).1 := by
  unfold guardSetTaken
  (repeat' split) <;> first | exact h | exact protectNow_poolHolds _ _ h

/-! ### Frames, requests and a command's effect -/

theorem poolHolds_routing : KeepsRouting PoolHolds where
  records _ _ h := h
  lid _ _ _ _ h := poolHolds_of (by simp) h
  orient _ _ _ _ h := poolHolds_of (by simp) h
  base _ _ _ _ h := poolHolds_of (by simp) h
  pen _ _ h := poolHolds_of (by simp) h
  drain s h := drainEvents_poolHolds s h
  noBase _ h := poolHolds_of (by simp) h
  wake _ _ h := poolHolds_of (by simp) h
  up _ _ _ hp h := admitUp_whole hp h
  down _ _ _ hp h := admitDown_whole hp h

theorem routeFrame_poolHolds (src : Source) (kind : Byte) (payload : List Byte) (damaged : Bool) (s : State) (h : PoolHolds s) :
    PoolHolds (routeFrame src kind payload damaged s) := routeFrame_keeps poolHolds_routing src kind payload damaged s h

theorem poolHolds_frames : KeepsFrames PoolHolds where
  drops _ h := h
  run _ _ h := h
  timers _ _ _ h := h
  loss s _ h := linkLoss_poolHolds s h
  signal _ _ h := poolHolds_of (by simp) h
  traffic src kind payload damaged s h := routeFrame_poolHolds src kind payload damaged s h
  response payload s h := takeResponse_poolHolds payload s h
  busy payload s h := takeBusy_poolHolds payload s h
  reject payload s h := takeReject_poolHolds payload s h
  chunk number bytes s _ h := takeChunk_poolHolds number bytes s h

/-- SPLIT-SET takes a share in range, with both queues empty (R18). -/
theorem answerSplit_poolHolds (d : Nat) (s : State) (h : PoolHolds s) : PoolHolds (answerSplit d s).after := by
  unfold answerSplit
  split
  · exact h
  · next hrange =>
    split
    · exact h
    · next hempty =>
      obtain ⟨hup, hdown⟩ := not_or.mp hempty
      exact whole_empty (p := { s.pool with share := d }) (not_not.mp hup) (not_not.mp hdown) (show 8 ≤ d by omega) (show d ≤ 64 by omega)

theorem ownerAnswer_poolHolds (q : Request) (s : State) (h : PoolHolds s) : PoolHolds (ownerAnswer q s).after := by
  cases q
  case splitSet d => exact answerSplit_poolHolds d s h
  case routeRead | windowRead | policyRead =>
    rw [ownerAnswer, answerEntry]
    split <;> exact h
  case baseRequest target command data => exact baseRequestTaken_poolHolds target command data s h
  case baseReset => exact baseResetTaken_poolHolds s h
  case linkDiagnose => exact linkDiagnoseTaken_poolHolds s h
  case alarmClear causes =>
    rw [ownerAnswer, answerAlarmClear]
    split
    · exact h
    · exact clearAlarms_poolHolds causes s h
  case guardSet a => exact guardSetTaken_poolHolds a s h
  case budgetSet a =>
    rw [ownerAnswer, answerBudgetSet, budgetSetTaken]
    dsimp only
    split
    · exact changeBudget_poolHolds _ _ s h
    · exact h
  all_goals exact poolHolds_of (by simp [ownerAnswer, withChargeRecord, withOrientationRecord]) h

theorem requestArrives_poolHolds (q : Request) (s : State) (h : PoolHolds s) : PoolHolds (requestArrives q s) :=
  requestArrives_keeps (fun _ _ h => h) (fun q s _ h => ownerAnswer_poolHolds q s h) q s h

/-- In start-up the pool is empty. -/
theorem startUp_poolHolds {s : State} (h : StartUp s) (hlow : 8 ≤ s.pool.share) (hhigh : s.pool.share ≤ 64) : PoolHolds s :=
  have hup : s.pool.up = [] := h.2.2.2.2.2.2.1
  have hdown : s.pool.down = [] := h.2.2.2.2.2.2.2.1
  whole_empty hup hdown hlow hhigh

/-- After a reset the pool is empty, with the share of the reset. -/
theorem reset_poolHolds (s : State) : PoolHolds (coldReset s) ∧ PoolHolds (restartHub s) :=
  ⟨startUp_poolHolds (startUp_coldReset s) (show 8 ≤ 24 by decide) (show 24 ≤ 64 by decide),
    startUp_poolHolds (startUp_restartHub s) (show 8 ≤ 24 by decide) (show 24 ≤ 64 by decide)⟩

/-- A command's own effect outside start-up leaves the pool whole, but for the resets. -/
theorem effect_poolHolds_started (c : Instr) (s : State) (hstarted : Started s) (h : PoolHolds s) : PoolHolds (effect c s) := by
  have hrestart (u : State) : PoolHolds (restartHub u) := (reset_poolHolds u).2
  cases hq : requestOf c with
  | some q => exact effect_of_request hq s ▸ requestArrives_poolHolds q s h
  | none =>
    have hport (u : State) (rx : Receiver) (n : Byte) (hu : PoolHolds u) : PoolHolds { u with rx := rx, uplinkErrors := n } := hu
    have hframe (kind : Byte) (payload : List Byte) (u : State) (hu : PoolHolds u) : PoolHolds (routeFrame .uplink kind payload false u) :=
      routeFrame_poolHolds _ _ _ _ u hu
    cases c
    case coldReset => exact (reset_poolHolds s).1
    case restartTakesEffect =>
      rw [effect]
      split
      · exact hrestart s
      · exact h
    case storeReadAnswered bytes => rw [effect, readAnswered, if_neg hstarted]; exact h
    case storeExchangeUnanswered =>
      rw [effect, exchangeUnanswered]
      (repeat' split) <;> first | exact h | exact poolHolds_of (by simp) h
    case receiveFault bytes => exact bytesArrive_keeps hport requestArrives_poolHolds hframe bytes s h
    case dataParcel tag payload | requestParcel code payload =>
      exact parcelArrives_keeps hport requestArrives_poolHolds hframe _ _ _ s h
    case parcelSent =>
      exact parcelSent_keeps (fun _ _ _ h => h)
        (fun u hu => whole_sublist (p := u.pool) (q := { u.pool with up := u.pool.up.tail }) rfl (List.tail_sublist _) (List.Sublist.refl _) hu)
        (engineTakes_keeps (fun _ _ h => h) (fun q s _ h => ownerAnswer_poolHolds q s h)) (fun u _ => hrestart u) s h
    case debounceExpiry => exact debounceExpires_poolHolds s h
    case detach => exact presenceReleases_poolHolds s h
    case describeWindowExpiry => exact describeExpires_poolHolds s h
    case baseTrafficFrame kind payload check => exact trafficArrives_keeps poolHolds_frames kind payload check s h
    case response payload check => exact responseArrives_keeps poolHolds_frames payload check s h
    case busyResponse payload check => exact answerArrives_keeps poolHolds_frames _ _ poolHolds_frames.busy payload check s h
    case reject payload check => exact answerArrives_keeps poolHolds_frames _ _ poolHolds_frames.reject payload check s h
    case wakeSignal payload check => exact wakeSignalArrives_keeps poolHolds_frames payload check s h
    case unlistedKindFrame kind payload check => exact unlistedArrives_keeps poolHolds_frames kind payload check s h
    case wakeTimeExpiry => exact wakeTimeExpires_poolHolds s h
    case keepaliveWindowExpiry => exact keepAliveWindowExpires_poolHolds s h
    case hingeFrameSent => exact hingeFrameDone_poolHolds s h
    case responseWindowExpiry => exact responseWindowExpires_poolHolds s h
    case lidMotion x y z busError => exact routeFrame_poolHolds _ _ _ _ _ h
    case penStatus payload damaged => exact routeFrame_poolHolds _ _ _ _ s h
    case alarmRawAppears cause => exact rawAppears_poolHolds cause s h
    case filterTimerExpiry cause => exact filterExpires_poolHolds cause s h
    case settleTimerExpiry | dwellReached | graceTimerExpiry =>
      rw [effect]
      split <;> exact poolHolds_of (by simp) h
    all_goals first
      | exact absurd hq (Option.some_ne_none _)
      | exact poolHolds_of (by simp [effect]) h

/-- A command's own effect leaves the pool whole, with start-up quiet. -/
theorem effect_poolHolds (c : Instr) (s : State) (hdormant : Dormant s) (h : PoolHolds s) : PoolHolds (effect c s) := by
  by_cases hstarting : s.store.state = .starting
  · have hgoes := effect_startUp c s ⟨hstarting, hdormant hstarting⟩
    generalize effect c s = t at hgoes ⊢
    cases hgoes with
    | stays k marks => exact startUp_poolHolds k (marks.2.2 ▸ h.1) (marks.2.2 ▸ h.2.1)
    | again u _ => exact (reset_poolHolds u).2
    | afresh u => exact (reset_poolHolds u).1
    | ends r u k _ _ hshare =>
      refine poolHolds_of (s := u) (by simp) ?_
      obtain hsame | ⟨hlow, hhigh⟩ := hshare
      · exact startUp_poolHolds k (hsame ▸ h.1) (hsame ▸ h.2.1)
      · exact startUp_poolHolds k hlow hhigh
  · exact effect_poolHolds_started c s hstarting h

end Sys2Proof.Machine

namespace Sys2Proof
open Machine

/-- Settles O57. -/
theorem everyStepKeepsTheSlotPoolWhole : Obligations.EveryStepKeepsTheSlotPoolWhole :=
  everyStepKeeps_withDormant (inv := PoolHolds) (fun _ _ _ _ h => h)
    (fun s _ => (reset_poolHolds s).1)
    (fun c s h => by
      unfold heldEffect
      split <;> exact h)
    (fun _ h => h) effect_poolHolds finish_poolHolds (fun _ h => h)

end Sys2Proof

/-! PROOFS. The timers of the hinge link run in their states, and its transmitter sends in READY alone (R15, R42 to R59). -/
namespace Sys2Proof.Machine

/-! ## The link without work in flight -/

/-- No timer of the link runs, and nothing waits for one. -/
abbrev Link.Resting (l : Link) : Prop :=
  l.debounce = none ∧ l.railUp = none ∧ l.echo = none ∧ l.retry = none ∧ l.describe = none ∧ l.quiet = none ∧ l.wake = none ∧
  l.keepAlive = none ∧ l.kaWindow = none ∧ l.resetDrive = none ∧ l.diag = none ∧ l.quietWaits = false ∧ l.kaDue = false

/-- What leaves the link and the transmitter's mark, and the downstream queue not empty if it was not, leaves the timers in their states. -/
theorem linkHolds_of {t s : State} (hlink : t.link = s.link) (hbusy : t.pool.hingeBusy = s.pool.hingeBusy)
    (hdown : s.pool.down ≠ [] → t.pool.down ≠ []) (h : LinkHolds s) : LinkHolds t := by
  obtain ⟨h₁, h₂, h₃, h₄, h₅, h₆, h₇, h₈, h₉, h₁₀, h₁₁, h₁₂, hsends, hdue, hwaits⟩ := h
  simp only [LinkHolds, hlink, hbusy]
  refine ⟨h₁, h₂, h₃, h₄, h₅, h₆, h₇, h₈, h₉, h₁₀, h₁₁, h₁₂, fun hb => ?_, hdue, hwaits⟩
  obtain ⟨hready, hwindow, hqueue⟩ := hsends hb
  exact ⟨hready, hwindow, hdown hqueue⟩

theorem linkHolds_of_frame {t s : State} (hlink : t.link = s.link) (hpool : t.pool = s.pool) (h : LinkHolds s) : LinkHolds t :=
  linkHolds_of hlink (by rw [hpool]) (by rw [hpool]; exact id) h

/-- A link at rest with the transmitter idle is in order, with a rate only where its state has one. -/
theorem linkHolds_resting {s : State} (hrest : s.link.Resting) (hbusy : s.pool.hingeBusy = false)
    (hrate : s.link.rate.isSome = true → s.link.state ∈ [LinkState.training, .identifying, .ready, .quiet, .diagnosing]) : LinkHolds s := by
  obtain ⟨h₁, h₂, h₃, h₄, h₅, h₆, h₇, h₈, h₉, h₁₀, h₁₁, h₁₂, h₁₃⟩ := hrest
  simp only [LinkHolds, h₁, h₂, h₃, h₄, h₅, h₆, h₇, h₈, h₉, h₁₀, h₁₁, h₁₂, h₁₃, hbusy]
  simpa using hrate

/-- The rate of a link that changes its state goes where the state has none (R42). -/
theorem setLinkState_rate (new : LinkState) (s : State) (h : (setLinkState new s).link.rate.isSome = true) :
    new ∈ [LinkState.training, .identifying, .ready, .quiet, .diagnosing] := by
  revert h
  cases new <;> simp [keepsRate]

/-- A link at rest with the transmitter idle may change to any state. -/
theorem setLinkState_linkHolds (new : LinkState) (s : State) (hrest : s.link.Resting) (hbusy : s.pool.hingeBusy = false) :
    LinkHolds (setLinkState new s) :=
  linkHolds_resting (by simpa using hrest) (by simpa using hbusy) (fun h => by simpa using setLinkState_rate new s h)

@[simp] theorem stopLinkTimers_resting (s : State) : (stopLinkTimers s).link.Resting := by simp [Link.Resting, stopLinkTimers]

/-- Training begins from rest (R46). -/
theorem startTraining_linkHolds (s : State) (hrest : s.link.Resting) (hbusy : s.pool.hingeBusy = false) : LinkHolds (startTraining s) := by
  obtain ⟨h₁, h₂, h₃, h₄, h₅, h₆, h₇, h₈, h₉, h₁₀, h₁₁, h₁₂, h₁₃⟩ := hrest
  simp [LinkHolds, startTraining, attemptAt, *]

/-- The reset drive begins from rest (R65). -/
theorem startResetDrive_linkHolds (s : State) (hrest : s.link.Resting) (hbusy : s.pool.hingeBusy = false) :
    LinkHolds (startResetDrive s) := by
  obtain ⟨h₁, h₂, h₃, h₄, h₅, h₆, h₇, h₈, h₉, h₁₀, h₁₁, h₁₂, h₁₃⟩ := hrest
  simp [LinkHolds, startResetDrive, *]

/-! ## Work that the transmitter is given -/

/-- An admission downstream leaves the mark and the queue not empty. -/
theorem admitDown_marks {p q : Pool} {f : Frame} (h : p.admitDown f = some q) : q.hingeBusy = p.hingeBusy ∧ q.down ≠ [] := by
  unfold Pool.admitDown at h
  dsimp only at h
  split at h
  · obtain rfl := Option.some.inj h
    simp
  · cases h

theorem offer_linkHolds (e : ReqEntry) (s : State) (h : LinkHolds s) : LinkHolds (offer e s) := by
  unfold offer
  split
  · next p hp =>
    obtain ⟨hbusy, hdown⟩ := admitDown_marks hp
    exact linkHolds_of (s := s) rfl hbusy (fun _ => hdown) h
  · exact h

theorem tryOffer_linkHolds (s : State) (h : LinkHolds s) : LinkHolds (tryOffer s) := by
  unfold tryOffer
  split
  · split
    · exact offer_linkHolds _ s h
    · exact h
  · exact h

theorem reoffer_linkHolds (s : State) (h : LinkHolds s) : LinkHolds (reoffer s) := by
  unfold reoffer
  split
  · split
    · exact offer_linkHolds _ s h
    · exact h
  · exact h

theorem endIssued_linkHolds (e : ReqEntry) (o : ReqOutcome) (r : Option (List Byte)) (s : State) (h : LinkHolds s) :
    LinkHolds (endIssued e o r s) := tryOffer_linkHolds _ (linkHolds_of_frame (by simp) (by simp) h)

theorem takeResponse_linkHolds (payload : List Byte) (s : State) (h : LinkHolds s) : LinkHolds (takeResponse payload s) := by
  unfold takeResponse
  split
  · split
    · exact endIssued_linkHolds _ _ _ s h
    · exact h
  · exact h

theorem takeReject_linkHolds (payload : List Byte) (s : State) (h : LinkHolds s) : LinkHolds (takeReject payload s) := by
  unfold takeReject
  split
  · exact endIssued_linkHolds _ _ _ s h
  · exact h

theorem takeBusy_linkHolds (payload : List Byte) (s : State) (h : LinkHolds s) : LinkHolds (takeBusy payload s) := by
  unfold takeBusy
  split
  · dsimp only
    split
    · exact tryOffer_linkHolds _ h
    · exact endIssued_linkHolds _ _ _ _ h
  · exact h

theorem responseWindowExpires_linkHolds (s : State) (h : LinkHolds s) : LinkHolds (responseWindowExpires s) := by
  unfold responseWindowExpires
  split
  · split
    · exact endIssued_linkHolds _ _ _ s h
    · exact h
  · exact h

theorem baseRequestTaken_linkHolds (target : Nat) (command : Byte) (data : List Byte) (s : State) (h : LinkHolds s) :
    LinkHolds (baseRequestTaken target command data s).1 := by
  unfold baseRequestTaken
  dsimp only
  (repeat' split) <;> first | exact h | exact tryOffer_linkHolds _ h

/-! ## The states -/

/-- Entry to UNPOWERED leaves the link at rest (R61). -/
theorem enterUnpowered_linkHolds (demand : Nat) (s : State) : LinkHolds (enterUnpowered demand s) :=
  linkHolds_of_frame (s := setLinkState .unpowered (flushDown (linkEnding (stopLinkTimers (endDiagnosis .unpowered s)))))
    (by simp [enterUnpowered]) (by simp [enterUnpowered])
    (setLinkState_linkHolds _ _ (by simpa [flushDown] using stopLinkTimers_resting _) (by simp [flushDown]))

/-- Entry to FAULTED leaves the link at rest (R62). -/
theorem enterFaulted_linkHolds (s : State) : LinkHolds (enterFaulted s) :=
  linkHolds_of_frame (s := setLinkState .faulted (flushDown (linkEnding (stopLinkTimers (endDiagnosis .faulted s)))))
    (by simp [enterFaulted]) (by simp [enterFaulted])
    (setLinkState_linkHolds _ _ (by simpa [flushDown] using stopLinkTimers_resting _) (by simp [flushDown]))

/-- POWERING is entered from rest (R45). -/
theorem enterPowering_linkHolds (within : Bool) (s : State) (hrest : s.link.Resting) (hbusy : s.pool.hingeBusy = false) :
    LinkHolds (enterPowering within s) := by
  obtain ⟨h₁, h₂, h₃, h₄, h₅, h₆, h₇, h₈, h₉, h₁₀, h₁₁, h₁₂, h₁₃⟩ := hrest
  unfold enterPowering
  dsimp only
  split
  · simp [LinkHolds, keepsRate, *]
  · exact enterUnpowered_linkHolds _ _

/-- Link loss ends in training (R60). -/
theorem linkLoss_linkHolds (s : State) : LinkHolds (linkLoss s) :=
  startTraining_linkHolds _ (by simpa [flushDown] using stopLinkTimers_resting s) (by simp [flushDown])

/-- A detach leaves the link at rest (R63). -/
theorem detachBase_linkHolds (s : State) : LinkHolds (detachBase s) := by
  have hended (u : State) : LinkHolds (setLinkState .absent (flushDown (linkEnding (stopLinkTimers u)))) :=
    setLinkState_linkHolds _ _ (by simpa [flushDown] using stopLinkTimers_resting u) (by simp [flushDown])
  have hpost (u : State) (hu : LinkHolds u) :
      LinkHolds (post (.attach .detached) (postEvent .baseDetached (postureDetached (releaseBase u)))) :=
    linkHolds_of_frame (by simp) (by simp) hu
  exact hpost _ (hended _)

/-- With no window of a keep-alive open and no frame being sent, no keep-alive is owed and no entry to QUIET waits. -/
theorem linkHolds_marks {s : State} (h : LinkHolds s) (hwindow : s.link.kaWindow = none) (hbusy : s.pool.hingeBusy = false) :
    s.link.kaDue = false ∧ s.link.quietWaits = false := by
  obtain ⟨-, -, -, -, -, -, -, -, -, -, -, -, -, hdue, hwaits⟩ := h
  simpa [hwindow, hbusy] using And.intro hdue hwaits

/-- In a state other than READY the transmitter is idle, no window is open, and the two marks are clear. -/
theorem linkHolds_apart {s : State} (h : LinkHolds s) (hstate : s.link.state ≠ .ready) :
    s.pool.hingeBusy = false ∧ s.link.kaWindow = none ∧ s.link.keepAlive = none ∧ s.link.quiet = none ∧ s.link.kaDue = false ∧
    s.link.quietWaits = false := by
  have hbusy : s.pool.hingeBusy = false := by simp_all [LinkHolds]
  have hwindow : s.link.kaWindow = none := by simp_all [LinkHolds]
  exact ⟨hbusy, hwindow, by simp_all [LinkHolds], by simp_all [LinkHolds], linkHolds_marks h hwindow hbusy⟩

/-! In a state of one timer the link is at rest once that has been stopped. -/

theorem resting_of_settling {s : State} (h : LinkHolds s) (hstate : s.link.state = .settling) :
    Link.Resting { s.link with debounce := none } ∧ s.pool.hingeBusy = false := by
  have hapart := linkHolds_apart h (by simp [hstate])
  simp_all [LinkHolds, Link.Resting]

theorem resting_of_powering {s : State} (h : LinkHolds s) (hstate : s.link.state = .powering) :
    Link.Resting { s.link with railUp := none } ∧ s.pool.hingeBusy = false := by
  have hapart := linkHolds_apart h (by simp [hstate])
  simp_all [LinkHolds, Link.Resting]

theorem resting_of_training {s : State} (h : LinkHolds s) (hstate : s.link.state = .training) :
    Link.Resting { s.link with echo := none, resetDrive := none } ∧ s.pool.hingeBusy = false := by
  have hapart := linkHolds_apart h (by simp [hstate])
  simp_all [LinkHolds, Link.Resting]

theorem resting_of_identifying {s : State} (h : LinkHolds s) (hstate : s.link.state = .identifying) :
    Link.Resting { s.link with describe := none } ∧ s.pool.hingeBusy = false := by
  have hapart := linkHolds_apart h (by simp [hstate])
  simp_all [LinkHolds, Link.Resting]

theorem resting_of_unreachable {s : State} (h : LinkHolds s) (hstate : s.link.state = .unreachable) :
    Link.Resting { s.link with retry := none } ∧ s.pool.hingeBusy = false := by
  have hapart := linkHolds_apart h (by simp [hstate])
  simp_all [LinkHolds, Link.Resting]

theorem resting_of_diagnosing {s : State} (h : LinkHolds s) (hstate : s.link.state = .diagnosing) :
    Link.Resting { s.link with diag := none } ∧ s.pool.hingeBusy = false := by
  have hapart := linkHolds_apart h (by simp [hstate])
  simp_all [LinkHolds, Link.Resting]

theorem resting_of_quiet {s : State} (h : LinkHolds s) (hstate : s.link.state = .quiet) :
    Link.Resting { s.link with wake := none } ∧ s.pool.hingeBusy = false := by
  have hapart := linkHolds_apart h (by simp [hstate])
  simp_all [LinkHolds, Link.Resting]

theorem resting_of_still {s : State} (h : LinkHolds s) (hstate : s.link.state ∈ [LinkState.absent, .unpowered, .faulted]) :
    s.link.Resting ∧ s.pool.hingeBusy = false := by
  simp only [List.mem_cons, List.not_mem_nil, or_false] at hstate
  obtain hstate | hstate | hstate := hstate
  all_goals
    have hapart := linkHolds_apart h (by simp [hstate])
    simp_all [LinkHolds, Link.Resting]

end Sys2Proof.Machine
/-! PROOFS. The timers of the hinge link run in their states: powering, training, identification, the running link, diagnosis. -/
namespace Sys2Proof.Machine

/-! ## Powering and training (R45 to R47, R65) -/

theorem railUpExpires_linkHolds (s : State) (h : LinkHolds s) : LinkHolds (railUpExpires s) := by
  unfold railUpExpires
  split
  · next hup =>
    obtain ⟨hrest, hbusy⟩ := resting_of_powering h (h.2.1 hup)
    dsimp only
    split
    · exact startResetDrive_linkHolds _ hrest hbusy
    · exact startTraining_linkHolds _ hrest hbusy
  · exact h

/-- An attempt starts the echo window, which runs in TRAINING with the reset drive over (R46). -/
theorem attemptAt_linkHolds (r : Rate) (n : Nat) (s : State) (hstate : s.link.state = .training) (hdrive : s.link.resetDrive = none)
    (h : LinkHolds s) : LinkHolds (attemptAt r n s) := by
  obtain ⟨h₁, h₂, h₃, h₄, h₅, h₆, h₇, h₈, h₉, h₁₀, h₁₁, h₁₂, hsends, hdue, hwaits⟩ := h
  simp_all [LinkHolds, attemptAt]

theorem enterUnreachable_linkHolds (s : State) (hrest : Link.Resting { s.link with echo := none }) (hbusy : s.pool.hingeBusy = false) :
    LinkHolds (enterUnreachable s) := by
  simp_all [LinkHolds, Link.Resting, enterUnreachable, keepsRate]

theorem attemptFails_linkHolds (s : State) (hecho : s.link.echo.isSome = true) (h : LinkHolds s) : LinkHolds (attemptFails s) := by
  obtain ⟨hstate, hdrive⟩ := h.2.2.1 hecho
  obtain ⟨hrest, hbusy⟩ := resting_of_training h hstate
  have hunreachable : LinkHolds (enterUnreachable s) :=
    enterUnreachable_linkHolds s (by simpa [Link.Resting, hdrive] using hrest) hbusy
  unfold attemptFails
  split
  · split
    · exact attemptAt_linkHolds _ _ s hstate hdrive h
    · split
      · exact attemptAt_linkHolds _ _ s hstate hdrive h
      · exact hunreachable
  · exact hunreachable

/-- Identification begins with chunk 0 (R48). -/
theorem attemptSucceeds_linkHolds (s : State) (hecho : s.link.echo.isSome = true) (h : LinkHolds s) : LinkHolds (attemptSucceeds s) := by
  obtain ⟨hstate, hdrive⟩ := h.2.2.1 hecho
  obtain ⟨hrest, hbusy⟩ := resting_of_training h hstate
  simp_all [LinkHolds, Link.Resting, attemptSucceeds, askChunk, keepsRate]

theorem trainingEchoes_linkHolds (unchanged : Bool) (s : State) (h : LinkHolds s) : LinkHolds (trainingEchoes unchanged s) := by
  unfold trainingEchoes
  split
  · next hecho =>
    split
    · exact attemptSucceeds_linkHolds s hecho h
    · exact attemptFails_linkHolds s hecho h
  · exact h

theorem echoExpires_linkHolds (s : State) (h : LinkHolds s) : LinkHolds (echoExpires s) := by
  unfold echoExpires
  split
  · next hecho => exact attemptFails_linkHolds s hecho h
  · exact h

theorem retryExpires_linkHolds (s : State) (h : LinkHolds s) : LinkHolds (retryExpires s) := by
  unfold retryExpires
  split
  · next hretry =>
    obtain ⟨hrest, hbusy⟩ := resting_of_unreachable h (h.2.2.2.2.2.1 hretry)
    exact startTraining_linkHolds _ hrest hbusy
  · exact h

theorem resetDriveExpires_linkHolds (s : State) (h : LinkHolds s) : LinkHolds (resetDriveExpires s) := by
  unfold resetDriveExpires
  split
  · next hdrive =>
    have hstate := h.2.2.2.1 hdrive
    obtain ⟨h₁, h₂, h₃, h₄, h₅, h₆, h₇, h₈, h₉, h₁₀, h₁₁, h₁₂, hsends, hdue, hwaits⟩ := h
    exact attemptAt_linkHolds _ _ _ hstate rfl (by simp_all [LinkHolds])
  · exact h

/-! ## Identification (R48, R49, R54) -/

/-- READY is entered from rest with its two timers (R54). -/
theorem enterReady_linkHolds (s : State) (hrest : s.link.Resting) (hbusy : s.pool.hingeBusy = false) : LinkHolds (enterReady s) := by
  obtain ⟨h₁, h₂, h₃, h₄, h₅, h₆, h₇, h₈, h₉, h₁₀, h₁₁, h₁₂, h₁₃⟩ := hrest
  unfold enterReady
  dsimp only
  refine tryOffer_linkHolds _ ?_
  split <;> simp [LinkHolds, keepsRate, *]

/-- An identification ends with the window stopped, whichever state it ends in (R54). -/
theorem identificationEnds_linkHolds (i : Identity) (s : State) (hrest : Link.Resting { s.link with describe := none })
    (hbusy : s.pool.hingeBusy = false) : LinkHolds (identificationEnds i s) := by
  unfold identificationEnds
  dsimp only
  split
  · exact enterReady_linkHolds _ (by simpa using hrest) (by simpa using hbusy)
  · split
    · exact enterReady_linkHolds _ (by simpa using hrest) (by simpa using hbusy)
    · exact enterUnpowered_linkHolds _ _

theorem askChunk_linkHolds (chunk attempt : Nat) (s : State) (hstate : s.link.state = .identifying) (h : LinkHolds s) :
    LinkHolds (askChunk chunk attempt s) := by
  obtain ⟨h₁, h₂, h₃, h₄, h₅, h₆, h₇, h₈, h₉, h₁₀, h₁₁, h₁₂, hsends, hdue, hwaits⟩ := h
  simp_all [LinkHolds, askChunk]

theorem describeExpires_linkHolds (s : State) (h : LinkHolds s) : LinkHolds (describeExpires s) := by
  unfold describeExpires
  split
  · next hwindow =>
    have hstate := h.2.2.2.2.1 hwindow
    obtain ⟨hrest, hbusy⟩ := resting_of_identifying h hstate
    split
    · exact askChunk_linkHolds _ _ s hstate h
    · exact identificationEnds_linkHolds _ s hrest hbusy
  · exact h

theorem takeChunk_linkHolds (number : Byte) (bytes : List Byte) (s : State) (hstate : s.link.state = .identifying) (h : LinkHolds s) :
    LinkHolds (takeChunk number bytes s) := by
  have hdrops : LinkHolds (linkDrops s) := linkHolds_of_frame rfl rfl h
  have hends (i : Identity) (u : List Byte) : LinkHolds (identificationEnds i { s with link := { s.link with chunks := u } }) := by
    obtain ⟨hrest, hbusy⟩ := resting_of_identifying h hstate
    exact identificationEnds_linkHolds i _ hrest hbusy
  unfold takeChunk
  dsimp only
  split
  · exact hdrops
  · split
    · exact hends _ _
    · split
      · exact hdrops
      · split
        · exact askChunk_linkHolds _ _ _ hstate h
        · exact hends _ _

theorem responseIdentifying_linkHolds (payload : List Byte) (s : State) (hstate : s.link.state = .identifying) (h : LinkHolds s) :
    LinkHolds (responseIdentifying payload s) := by
  have hdrops : LinkHolds (linkDrops s) := linkHolds_of_frame rfl rfl h
  unfold responseIdentifying
  split
  · split
    · exact takeChunk_linkHolds _ _ s hstate h
    · exact hdrops
  · exact takeResponse_linkHolds payload s h

/-! ## The running link (R57 to R60) -/

/-- QUIET is entered from READY with the transmitter idle and no window open (R57). -/
theorem enterQuiet_linkHolds (s : State) (hstate : s.link.state = .ready) (hbusy : s.pool.hingeBusy = false)
    (hwindow : s.link.kaWindow = none) (h : LinkHolds s) : LinkHolds (enterQuiet s) := by
  simp_all [LinkHolds, enterQuiet, keepsRate]

/-- While the transmitter sends, the queue holds its frame. -/
theorem idle_of_empty {s : State} (h : LinkHolds s) (hdown : s.pool.down = []) : s.pool.hingeBusy = false := by
  simp_all [LinkHolds]

theorem quietExpires_linkHolds (s : State) (h : LinkHolds s) : LinkHolds (quietExpires s) := by
  unfold quietExpires
  split
  · next hquiet =>
    have hstate : s.link.state = .ready := by simp_all [LinkHolds]
    split
    · obtain ⟨h₁, h₂, h₃, h₄, h₅, h₆, h₇, h₈, h₉, h₁₀, h₁₁, h₁₂, hsends, hdue, hwaits⟩ := h
      simp_all [LinkHolds]
    · next hdown =>
      split
      · obtain ⟨h₁, h₂, h₃, h₄, h₅, h₆, h₇, h₈, h₉, h₁₀, h₁₁, h₁₂, hsends, hdue, hwaits⟩ := h
        simp_all [LinkHolds]
      · next hwindow =>
        exact enterQuiet_linkHolds s hstate (idle_of_empty h (by simpa using hdown)) (by simpa using hwindow) h
  · exact h

theorem wakeTimeExpires_linkHolds (s : State) (h : LinkHolds s) : LinkHolds (wakeTimeExpires s) := by
  unfold wakeTimeExpires
  split
  · next hwake =>
    have hstate : s.link.state = .quiet := by simp_all [LinkHolds]
    have hapart := linkHolds_apart h (by simp [hstate])
    exact tryOffer_linkHolds _ (by simp_all [LinkHolds, keepsRate])
  · exact h

theorem wakeSignalled_linkHolds (s : State) (hstate : s.link.state = .quiet) (h : LinkHolds s) : LinkHolds (wakeSignalled s) := by
  unfold wakeSignalled
  split
  · obtain ⟨h₁, h₂, h₃, h₄, h₅, h₆, h₇, h₈, h₉, h₁₀, h₁₁, h₁₂, hsends, hdue, hwaits⟩ := h
    simp_all [LinkHolds]
  · exact h

/-- The keep-alive is sent in READY with the transmitter idle (R59). -/
theorem sendKeepAlive_linkHolds (s : State) (hstate : s.link.state = .ready) (hbusy : s.pool.hingeBusy = false)
    (h : LinkHolds { s with link := { s.link with kaDue := false } }) : LinkHolds (sendKeepAlive s) := by
  obtain ⟨h₁, h₂, h₃, h₄, h₅, h₆, h₇, h₈, h₉, h₁₀, h₁₁, h₁₂, hsends, hdue, hwaits⟩ := h
  simp_all [LinkHolds, sendKeepAlive, startMs]

theorem keepAliveExpires_linkHolds (s : State) (h : LinkHolds s) : LinkHolds (keepAliveExpires s) := by
  unfold keepAliveExpires
  split
  · next htimer =>
    have hstate : s.link.state = .ready := by simp_all [LinkHolds]
    dsimp only
    obtain ⟨h₁, h₂, h₃, h₄, h₅, h₆, h₇, h₈, h₉, h₁₀, h₁₁, h₁₂, hsends, hdue, hwaits⟩ := h
    split
    · simp_all [LinkHolds]
    · exact sendKeepAlive_linkHolds _ hstate (by simp_all) (by simp_all [LinkHolds])
  · exact h

theorem keepAliveEchoes_linkHolds (s : State) (h : LinkHolds s) : LinkHolds (keepAliveEchoes s) := by
  unfold keepAliveEchoes
  split
  · next hwindow =>
    have hstate : s.link.state = .ready := by simp_all [LinkHolds]
    have hbusy : s.pool.hingeBusy = false := by
      by_contra hsends
      simp_all [LinkHolds]
    dsimp only
    split
    · simp_all [LinkHolds, enterQuiet, keepsRate]
    · simp_all [LinkHolds]
  · exact h

/-- A sent frame leaves the queue; what waits for it is sent after it (R59, R76). -/
theorem hingeFrameDone_linkHolds (s : State) (h : LinkHolds s) : LinkHolds (hingeFrameDone s) := by
  unfold hingeFrameDone
  split
  · next hbusy =>
    split
    · next f rest hdown =>
      dsimp only
      have hsent (u : State) (hlink : u.link = { s.link with quiet := startMs 250 })
          (hpool : u.pool = { s.pool with down := rest, hingeBusy := false }) :
          LinkHolds (reoffer (if u.link.kaDue then sendKeepAlive u else u)) := by
        refine reoffer_linkHolds _ ?_
        obtain ⟨h₁, h₂, h₃, h₄, h₅, h₆, h₇, h₈, h₉, h₁₀, h₁₁, h₁₂, hsends, hdue, hwaits⟩ := h
        split <;> simp_all [LinkHolds, sendKeepAlive, startMs]
      split
      · exact hsent _ (by simp) (by simp)
      · exact hsent _ rfl rfl
    · exact h
  · exact h

/-! ## Presence (R43, R44) -/

theorem presenceAsserts_linkHolds (s : State) (h : LinkHolds s) : LinkHolds (presenceAsserts s) := by
  unfold presenceAsserts
  split
  · exact h
  · dsimp only
    split
    · exact h
    · split
      · next hstate =>
        obtain ⟨hrest, hbusy⟩ := resting_of_still h (by simp_all)
        simp_all [LinkHolds, Link.Resting, keepsRate]
      · exact h

theorem presenceReleases_linkHolds (s : State) (h : LinkHolds s) : LinkHolds (presenceReleases s) := by
  unfold presenceReleases
  split
  · exact h
  · dsimp only
    split
    · exact h
    · next hstate =>
      obtain ⟨hrest, hbusy⟩ := resting_of_settling h hstate
      exact setLinkState_linkHolds _ _ hrest hbusy
    · exact detachBase_linkHolds _

theorem debounceExpires_linkHolds (s : State) (h : LinkHolds s) : LinkHolds (debounceExpires s) := by
  unfold debounceExpires
  split
  · next hdebounce =>
    obtain ⟨hrest, hbusy⟩ := resting_of_settling h (h.1 hdebounce)
    dsimp only
    split
    · exact enterFaulted_linkHolds _
    · exact enterPowering_linkHolds _ _ (by simpa using hrest) (by simpa using hbusy)
  · exact h

/-! ## BASE-RESET and LINK-DIAGNOSE (R65 to R67) -/

theorem baseResetTaken_linkHolds (s : State) (h : LinkHolds s) : LinkHolds (baseResetTaken s).1 := by
  have hdrive : LinkHolds (startResetDrive (flushDown (linkEnding (stopLinkTimers s)))) :=
    startResetDrive_linkHolds _ (by simpa [flushDown] using stopLinkTimers_resting s) (by simp [flushDown])
  unfold baseResetTaken
  split
  iterate 3 exact hdrive
  · next hstate =>
    obtain ⟨hrest, hbusy⟩ := resting_of_still h (by simp_all)
    have hpowered := enterPowering_linkHolds false s hrest hbusy
    dsimp only
    split
    · exact hpowered
    · exact hpowered
  · exact h
  · exact h

theorem linkDiagnoseTaken_linkHolds (s : State) (h : LinkHolds s) : LinkHolds (linkDiagnoseTaken s).1 := by
  have hdiagnoses (u : State) :
      LinkHolds { setLinkState .diagnosing (stopLinkTimers (flushDown u)) with
        link := { (setLinkState .diagnosing (stopLinkTimers (flushDown u))).link with diag := some 75 } } := by
    simp [LinkHolds, keepsRate, stopLinkTimers, flushDown]
  unfold linkDiagnoseTaken
  split
  iterate 3
    split
    · exact h
    · exact hdiagnoses _
  · exact h

theorem measurementEnds_linkHolds (o : PinOutcome) (s : State) (h : LinkHolds s) : LinkHolds (measurementEnds o s) := by
  unfold measurementEnds
  split
  · split
    · next hdiag =>
      have hstate : s.link.state = .diagnosing := by simp_all [LinkHolds]
      dsimp only
      split
      · obtain ⟨hrest, hbusy⟩ := resting_of_diagnosing h hstate
        exact startTraining_linkHolds _ (by simpa using hrest) (by simpa using hbusy)
      · obtain ⟨h₁, h₂, h₃, h₄, h₅, h₆, h₇, h₈, h₉, h₁₀, h₁₁, h₁₂, hsends, hdue, hwaits⟩ := h
        simp_all [LinkHolds]
    · exact h
  · exact h

/-! ## The budget (R130, R131) and the alarms (R62, R151) -/

theorem lowerBudget_linkHolds (profiles : Profiles) (active : Nat) (s : State) (h : LinkHolds s) :
    LinkHolds (lowerBudget profiles active s) := by
  have htold (before : Option PenLevel) (u : State) (hu : LinkHolds u) : LinkHolds (penTold before u) :=
    linkHolds_of_frame (by simp) (by simp) hu
  unfold lowerBudget
  dsimp only
  split
  · exact htold _ _ (enterUnpowered_linkHolds _ _)
  · exact linkHolds_of_frame (by simp) (by simp) h

theorem raiseBudget_linkHolds (profiles : Profiles) (active : Nat) (s : State) (h : LinkHolds s) :
    LinkHolds (raiseBudget profiles active s) := by
  have htold (before : Guard) (u : State) (hu : LinkHolds u) :
      LinkHolds (penTold before.penGrant (switchOutputs (postBudget before .budget { u with guard := u.guard.regrant }))) :=
    linkHolds_of_frame (by simp) (by simp) hu
  unfold raiseBudget
  dsimp only
  split
  · next hwaits =>
    obtain ⟨hrest, hbusy⟩ := resting_of_still h (by simp [hwaits.1])
    exact htold _ _ (enterPowering_linkHolds true _ hrest hbusy)
  · exact htold _ _ h

theorem changeBudget_linkHolds (profiles : Profiles) (active : Nat) (s : State) (h : LinkHolds s) :
    LinkHolds (changeBudget profiles active s) := by
  unfold changeBudget
  dsimp only
  split
  · exact lowerBudget_linkHolds _ _ s h
  · split
    · exact raiseBudget_linkHolds _ _ s h
    · exact h

theorem budgetProfile_linkHolds (n : Nat) (s : State) (h : LinkHolds s) : LinkHolds (budgetProfile n s) := by
  unfold budgetProfile
  split
  · exact h
  · exact changeBudget_linkHolds _ _ s h

theorem budgetSetTaken_linkHolds (a : BudgetArg) (s : State) (h : LinkHolds s) : LinkHolds (budgetSetTaken a s).1 := by
  unfold budgetSetTaken
  split
  · exact changeBudget_linkHolds _ _ s h
  · exact h

end Sys2Proof.Machine
/-! PROOFS. The timers of the hinge link run in their states: alarms, frames, start-up, and every step. -/
namespace Sys2Proof.Machine

/-! ## The policy engine and the transmitters -/

theorem issueClaim_linkHolds (ev : PolicyEvent) (a : PolicyAction) (s : State) (h : LinkHolds s) : LinkHolds (issueClaim ev a s) := by
  cases a with
  | budgetProfile n => exact budgetProfile_linkHolds n s h
  | indicate l _ _ => cases l <;> exact h
  | _ => exact linkHolds_of_frame (by simp [issueClaim]) (by simp [issueClaim]) h

theorem drainEvents_linkHolds (s : State) (h : LinkHolds s) : LinkHolds (drainEvents s) :=
  drainEvents_keeps (fun _ h => h) issueClaim_linkHolds s h

/-- The hinge transmitter begins in READY alone, with no window open, and otherwise wakes the base (R15). -/
theorem kickHinge_linkHolds (s : State) (h : LinkHolds s) : LinkHolds (kickHinge s) := by
  unfold kickHinge
  split
  · exact h
  · next hdown =>
    split
    · next hstate =>
      split
      · next hfree =>
        simp only [Bool.and_eq_true, Option.isNone_iff_eq_none, Bool.not_eq_true'] at hfree
        obtain ⟨h₁, h₂, h₃, h₄, h₅, h₆, h₇, h₈, h₉, h₁₀, h₁₁, h₁₂, hsends, hdue, hwaits⟩ := h
        simp_all [LinkHolds]
      · exact h
    · next hstate => exact wakeSignalled_linkHolds s hstate h
    · exact h

theorem finish_linkHolds (s : State) (h : LinkHolds s) : LinkHolds (finish s) :=
  finish_keeps (fun _ h => h) issueClaim_linkHolds kickHinge_linkHolds (fun _ hu => linkHolds_of_frame (by simp) (by simp) hu) s h

/-! ## The alarms (R62, R137, R142) -/

theorem setLatch_linkHolds (c : OutCause) (s : State) (h : LinkHolds s) : LinkHolds (setLatch c s) := by
  cases c with
  | railOc | railUv => exact enterFaulted_linkHolds _
  | coilOc | coilUv => exact linkHolds_of_frame (by simp [setLatch]) (by simp [setLatch]) h

theorem applyProtection_linkHolds (c : OutCause) (p : Protection) (s : State) (h : LinkHolds s) : LinkHolds (applyProtection c p s) := by
  cases p with
  | stop => exact setLatch_linkHolds c s h
  | limit cap => exact linkHolds_of_frame (by simp [applyProtection]) (by simp [applyProtection]) h
  | off | none => exact h

theorem becomesDetected_linkHolds (c : OutCause) (s : State) (h : LinkHolds s) : LinkHolds (becomesDetected c s) :=
  applyProtection_linkHolds _ _ _ (linkHolds_of_frame (by simp) (by simp) h)

theorem rawAppears_linkHolds (c : OutCause) (s : State) (h : LinkHolds s) : LinkHolds (rawAppears c s) := by
  unfold rawAppears
  dsimp only
  split
  · split
    · exact becomesDetected_linkHolds _ _ (linkHolds_of_frame (by simp) (by simp) h)
    · exact linkHolds_of_frame (by simp) (by simp) h
  · exact h

theorem filterExpires_linkHolds (c : OutCause) (s : State) (h : LinkHolds s) : LinkHolds (filterExpires c s) := by
  unfold filterExpires
  split
  · exact becomesDetected_linkHolds c s h
  · exact h

/-- With the rail's latch gone a FAULTED base is powered (R142). -/
theorem clearAlarms_linkHolds (m : Nat) (s : State) (h : LinkHolds s) : LinkHolds (clearAlarms m s) := by
  have hpowered (u : State) (was latched present : Bool) (hu : LinkHolds u) :
      LinkHolds (if was && latched && u.link.state = .faulted && present then enterPowering false u else u) := by
    split
    · next hgone =>
      simp only [Bool.and_eq_true, decide_eq_true_eq] at hgone
      obtain ⟨hrest, hbusy⟩ := resting_of_still hu (by simp [hgone.1.2])
      exact enterPowering_linkHolds false u hrest hbusy
    · exact hu
  have hgone (u : State) (p : Prop) [Decidable p] (hu : LinkHolds u) : LinkHolds (if p then coilLatchGone u else u) :=
    iteInduction (motive := LinkHolds) (fun _ => linkHolds_of_frame (by simp) (by simp) hu) (fun _ => hu)
  have hregranted (p : Prop) [Decidable p] : LinkHolds (if p then
      { clearNamed m s with guard := Guard.regrant { (clearNamed m s).guard with cap := none } } else clearNamed m s) :=
    iteInduction (motive := LinkHolds) (fun _ => linkHolds_of_frame (by simp) (by simp) h) (fun _ => linkHolds_of_frame (by simp) (by simp) h)
  have htold (before : Guard) (u : State) (hu : LinkHolds u) :
      LinkHolds (penTold before.penGrant (switchOutputs (postBudget before .clear u))) := linkHolds_of_frame (by simp) (by simp) hu
  exact hgone _ _ (hpowered _ _ _ _ (htold _ _ (hregranted _)))

theorem protectNow_linkHolds (before : Guard) (s : State) (h : LinkHolds s) : LinkHolds (protectNow before s) := by
  have hdue (s₀ u : State) (c : OutCause) (hu : LinkHolds u) : LinkHolds (protectIfDue before s₀ c u) := by
    unfold protectIfDue
    split
    · exact applyProtection_linkHolds _ _ u hu
    · exact hu
  unfold protectNow
  dsimp only
  rw [latchIfDue_all]
  refine hdue _ _ _ (iteInduction (motive := LinkHolds) (fun _ => ?_) (fun _ => hdue _ _ _ ?_)) <;>
    exact iteInduction (motive := LinkHolds) (fun _ => hdue _ _ _ h) (fun _ => hdue _ _ _ h)

theorem guardSetTaken_linkHolds (a : GuardArg) (s : State) (h : LinkHolds s) : LinkHolds (guardSetTaken a s).1 := by
  unfold guardSetTaken
  (repeat' split) <;> first | exact h | exact protectNow_linkHolds _ _ h

/-! ## Frames and requests -/

/-- An admission upstream leaves what belongs to the downstream queue. -/
theorem admitUp_down {p q : Pool} {f : Frame} (h : p.admitUp f = some q) : q.hingeBusy = p.hingeBusy ∧ q.down = p.down := by
  unfold Pool.admitUp at h
  dsimp only at h
  split at h
  · obtain rfl := Option.some.inj h
    exact ⟨rfl, rfl⟩
  · cases h

theorem linkHolds_routing : KeepsRouting LinkHolds where
  records _ _ h := h
  lid _ _ _ _ h := linkHolds_of_frame (by simp) (by simp) h
  orient _ _ _ _ h := linkHolds_of_frame (by simp) (by simp) h
  base _ _ _ _ h := linkHolds_of_frame (by simp) (by simp) h
  pen _ _ h := linkHolds_of_frame (by simp) (by simp) h
  drain s h := drainEvents_linkHolds s h
  noBase _ h := linkHolds_of_frame (by simp) (by simp) h
  wake _ _ h := linkHolds_of_frame (by simp) (by simp) h
  up _ _ s hp h := linkHolds_of (s := s) rfl (admitUp_down hp).1 (fun hdown => (admitUp_down hp).2 ▸ hdown) h
  down _ _ s hp h := linkHolds_of (s := s) rfl (admitDown_marks hp).1 (fun _ => (admitDown_marks hp).2) h

theorem routeFrame_linkHolds (src : Source) (kind : Byte) (payload : List Byte) (damaged : Bool) (s : State) (h : LinkHolds s) :
    LinkHolds (routeFrame src kind payload damaged s) := routeFrame_keeps linkHolds_routing src kind payload damaged s h

theorem linkHolds_frames : KeepsFrames LinkHolds where
  drops _ h := h
  run _ _ h := h
  timers damaged s hready h := by
    obtain ⟨h₁, h₂, h₃, h₄, h₅, h₆, h₇, h₈, h₉, h₁₀, h₁₁, h₁₂, hsends, hdue, hwaits⟩ := h
    simp_all [LinkHolds, restartTimers]
  loss s _ _ := linkLoss_linkHolds s
  signal s hquiet h := wakeSignalled_linkHolds s hquiet h
  traffic src kind payload damaged s h := routeFrame_linkHolds src kind payload damaged s h
  response payload s h := takeResponse_linkHolds payload s h
  busy payload s h := takeBusy_linkHolds payload s h
  reject payload s h := takeReject_linkHolds payload s h
  chunk number bytes s hstate h := takeChunk_linkHolds number bytes s hstate h

/-- SPLIT-SET is taken with the downstream queue empty, so with the transmitter idle (R18). -/
theorem answerSplit_linkHolds (d : Nat) (s : State) (h : LinkHolds s) : LinkHolds (answerSplit d s).after := by
  unfold answerSplit
  (repeat' split) <;> exact h

theorem ownerAnswer_linkHolds (q : Request) (s : State) (h : LinkHolds s) : LinkHolds (ownerAnswer q s).after := by
  cases q
  case splitSet d => exact answerSplit_linkHolds d s h
  case routeRead | windowRead | policyRead =>
    rw [ownerAnswer, answerEntry]
    split <;> exact h
  case baseRequest target command data => exact baseRequestTaken_linkHolds target command data s h
  case baseReset => exact baseResetTaken_linkHolds s h
  case linkDiagnose => exact linkDiagnoseTaken_linkHolds s h
  case alarmClear causes =>
    rw [ownerAnswer, answerAlarmClear]
    split
    · exact h
    · exact clearAlarms_linkHolds causes s h
  case guardSet a => exact guardSetTaken_linkHolds a s h
  case budgetSet a => exact budgetSetTaken_linkHolds a s h
  all_goals
    exact linkHolds_of_frame (by simp [ownerAnswer, withChargeRecord, withOrientationRecord])
      (by simp [ownerAnswer, withChargeRecord, withOrientationRecord]) h

theorem requestArrives_linkHolds (q : Request) (s : State) (h : LinkHolds s) : LinkHolds (requestArrives q s) :=
  requestArrives_keeps (fun _ _ h => h) (fun q s _ h => ownerAnswer_linkHolds q s h) q s h

/-! ## Start-up and the hub -/

/-- A cold link with the transmitter idle is in order. -/
theorem linkHolds_cold {s : State} (hcold : s.link = Link.cold) (hbusy : s.pool.hingeBusy = false) : LinkHolds s := by
  simp [LinkHolds, hcold, hbusy, Link.cold]

theorem startUp_linkHolds {s : State} (h : StartUp s) (hbusy : s.pool.hingeBusy = false) : LinkHolds s := linkHolds_cold h.2.1 hbusy

theorem reset_linkHolds (s : State) : LinkHolds (coldReset s) ∧ LinkHolds (restartHub s) :=
  ⟨startUp_linkHolds (startUp_coldReset s) rfl, startUp_linkHolds (startUp_restartHub s) rfl⟩

/-- At the end of start-up the presence pin is sampled, which starts the debounce in SETTLING (R69, R206). -/
theorem startUpEnds_linkHolds (r : StartResult) (s : State) (hcold : s.link = Link.cold) (hbusy : s.pool.hingeBusy = false) :
    LinkHolds (startUpEnds r s) := by
  have hsampled (u : State) (hu : u.link = Link.cold) (hidle : u.pool.hingeBusy = false) : LinkHolds (samplePresence u) := by
    unfold samplePresence
    split
    · simp [LinkHolds, hu, hidle, Link.cold, keepsRate]
    · exact linkHolds_cold hu hidle
  have hended (u : State) (p : Prop) [Decidable p] (hu : LinkHolds u) : LinkHolds (if p then dieOtTaken u else u) :=
    iteInduction (motive := LinkHolds) (fun _ => linkHolds_of_frame (by simp) (by simp) hu) (fun _ => hu)
  have hdock (u : State) (hu : LinkHolds u) : LinkHolds (sampleDock u) := linkHolds_of_frame (by simp) (by simp) hu
  exact hended _ _ (hdock _ (hsampled _ (by simpa using hcold) (by simpa using hbusy)))

/-- Time passes on the timers that run, and on no other. -/
theorem advance_linkHolds (s : State) (h : LinkHolds s) : LinkHolds (advance s) := by
  simpa [LinkHolds, advance, tickLink, tick] using h

/-- A command's own effect outside start-up keeps the timers to their states, but for the resets. -/
theorem effect_linkHolds_started (c : Instr) (s : State) (hstarted : Started s) (h : LinkHolds s) : LinkHolds (effect c s) := by
  have hrestart (u : State) : LinkHolds (restartHub u) := (reset_linkHolds u).2
  cases hq : requestOf c with
  | some q => exact effect_of_request hq s ▸ requestArrives_linkHolds q s h
  | none =>
    have hport (u : State) (rx : Receiver) (n : Byte) (hu : LinkHolds u) : LinkHolds { u with rx := rx, uplinkErrors := n } := hu
    have hframe (kind : Byte) (payload : List Byte) (u : State) (hu : LinkHolds u) : LinkHolds (routeFrame .uplink kind payload false u) :=
      routeFrame_linkHolds _ _ _ _ u hu
    cases c
    case coldReset => exact (reset_linkHolds s).1
    case restartTakesEffect =>
      rw [effect]
      split
      · exact hrestart s
      · exact h
    case storeReadAnswered bytes => rw [effect, readAnswered, if_neg hstarted]; exact h
    case storeExchangeUnanswered =>
      rw [effect, exchangeUnanswered]
      split
      · split
        · next hstarting => exact absurd hstarting hstarted
        · exact linkHolds_of_frame (by simp) (by simp) h
        · exact linkHolds_of_frame (by simp) (by simp) h
        · exact h
      · exact h
    case receiveFault bytes => exact bytesArrive_keeps hport requestArrives_linkHolds hframe bytes s h
    case dataParcel tag payload | requestParcel code payload =>
      exact parcelArrives_keeps hport requestArrives_linkHolds hframe _ _ _ s h
    case parcelSent =>
      exact parcelSent_keeps (fun _ _ _ h => h) (fun _ hu => hu)
        (engineTakes_keeps (fun _ _ h => h) (fun q s _ h => ownerAnswer_linkHolds q s h)) (fun u _ => hrestart u) s h
    case presenceAssert => exact presenceAsserts_linkHolds s h
    case debounceExpiry => exact debounceExpires_linkHolds s h
    case detach => exact presenceReleases_linkHolds s h
    case railUpExpiry => exact railUpExpires_linkHolds s h
    case trainingEcho unchanged => exact trainingEchoes_linkHolds unchanged s h
    case echoWindowExpiry => exact echoExpires_linkHolds s h
    case retryTimerExpiry => exact retryExpires_linkHolds s h
    case describeWindowExpiry => exact describeExpires_linkHolds s h
    case baseTrafficFrame kind payload check => exact trafficArrives_keeps linkHolds_frames kind payload check s h
    case response payload check => exact responseArrives_keeps linkHolds_frames payload check s h
    case busyResponse payload check => exact answerArrives_keeps linkHolds_frames _ _ linkHolds_frames.busy payload check s h
    case reject payload check => exact answerArrives_keeps linkHolds_frames _ _ linkHolds_frames.reject payload check s h
    case wakeSignal payload check => exact wakeSignalArrives_keeps linkHolds_frames payload check s h
    case unlistedKindFrame kind payload check => exact unlistedArrives_keeps linkHolds_frames kind payload check s h
    case quietTimerExpiry => exact quietExpires_linkHolds s h
    case wakeTimeExpiry => exact wakeTimeExpires_linkHolds s h
    case keepaliveTimerExpiry => exact keepAliveExpires_linkHolds s h
    case keepaliveEcho => exact keepAliveEchoes_linkHolds s h
    case keepaliveWindowExpiry =>
      rw [effect, keepAliveWindowExpires]
      split
      · exact linkLoss_linkHolds s
      · exact h
    case resetDriveExpiry => exact resetDriveExpires_linkHolds s h
    case diagnosisMeasurementEnd outcome => exact measurementEnds_linkHolds outcome s h
    case hingeFrameSent => exact hingeFrameDone_linkHolds s h
    case responseWindowExpiry => exact responseWindowExpires_linkHolds s h
    case lidMotion x y z busError => exact routeFrame_linkHolds _ _ _ _ _ h
    case penStatus payload damaged => exact routeFrame_linkHolds _ _ _ _ s h
    case alarmRawAppears cause => exact rawAppears_linkHolds cause s h
    case filterTimerExpiry cause => exact filterExpires_linkHolds cause s h
    case settleTimerExpiry | dwellReached | graceTimerExpiry =>
      rw [effect]
      split <;> exact linkHolds_of_frame (by simp) (by simp) h
    all_goals first
      | exact absurd hq (Option.some_ne_none _)
      | exact linkHolds_of_frame (by simp [effect]) (by simp [effect]) h

/-- A command's own effect keeps the timers to their states, with start-up quiet. -/
theorem effect_linkHolds (c : Instr) (s : State) (hdormant : Dormant s) (h : LinkHolds s) : LinkHolds (effect c s) := by
  by_cases hstarting : s.store.state = .starting
  · have hlink : s.link = Link.cold := (hdormant hstarting).1
    have hidle : s.pool.hingeBusy = false := (linkHolds_apart h (by simp [hlink, Link.cold])).1
    have hgoes := effect_startUp c s ⟨hstarting, hdormant hstarting⟩
    generalize effect c s = t at hgoes ⊢
    cases hgoes with
    | stays k marks => exact startUp_linkHolds k (marks.2.1.trans hidle)
    | again u _ => exact (reset_linkHolds u).2
    | afresh u => exact (reset_linkHolds u).1
    | ends r u k _ hbusy _ => exact startUpEnds_linkHolds r u k.2.1 (hbusy.trans hidle)
  · exact effect_linkHolds_started c s hstarting h

end Sys2Proof.Machine

namespace Sys2Proof
open Machine

/-- Settles O56. -/
theorem everyStepKeepsTheLinkTimersToTheirStates : Obligations.EveryStepKeepsTheLinkTimersToTheirStates :=
  everyStepKeeps_withDormant (inv := LinkHolds) (fun _ _ _ _ h => h) (fun s _ => (reset_linkHolds s).1)
    (fun c s h => by
      unfold heldEffect
      split <;> exact h)
    (fun _ h => h) effect_linkHolds finish_linkHolds advance_linkHolds

end Sys2Proof

/-! PROOFS. The conditions of the Pending Request Table: its own operations (R70 to R85). -/
namespace Sys2Proof.Machine

/-! ## The table -/

/-- What an entry of the table keeps to, with the link up or not (R70, R73, R75). -/
abbrev ReqEntry.InOrder (up : Bool) (e : ReqEntry) : Prop :=
  e.target ≤ 15 ∧ e.data.length ≤ 32 ∧ e.attempts ≤ 32 ∧ (e.state ≠ .done → e.attempts < 32) ∧
  (e.state = .done ↔ e.outcome.isSome = true) ∧ (e.state ≠ .done → up = true)

theorem isUp_iff (l : LinkState) : l.isUp = true ↔ l = .ready ∨ l = .quiet := by
  cases l <;> simp [LinkState.isUp]

/-- The conditions of the table, of the table, the window, the waiting offer and whether the link is up alone. -/
theorem tableHolds_iff (s : State) : TableHolds s ↔
    s.issuer.table.length ≤ 6 ∧ (s.issuer.table.map (fun e => (e.target, e.command))).Nodup ∧
    (∀ e ∈ s.issuer.table, e.InOrder s.link.state.isUp) ∧ (s.issuer.table.filter (fun e => e.state == .issued)).length ≤ 1 ∧
    (s.issuer.window.isSome = true → ∃ e ∈ s.issuer.table, e.state = .issued) ∧
    ∀ t c, s.issuer.waiting = some (t, c) →
      (∀ e ∈ s.issuer.table, e.state ≠ .issued) ∧ ∃ e ∈ s.issuer.table, e.target = t ∧ e.command = c ∧ e.state = .queued := by
  simp only [TableHolds, ReqEntry.InOrder, isUp_iff]

/-- What leaves the table, the window and the waiting offer, and a link that is up up, leaves the conditions. -/
theorem tableHolds_of {t s : State} (htable : t.issuer.table = s.issuer.table) (hwindow : t.issuer.window = s.issuer.window)
    (hwaiting : t.issuer.waiting = s.issuer.waiting) (hup : s.link.state.isUp = true → t.link.state.isUp = true) (h : TableHolds s) :
    TableHolds t := by
  rw [tableHolds_iff] at h ⊢
  obtain ⟨hlength, hkeys, horder, hone, hopen, hoffer⟩ := h
  rw [htable, hwindow, hwaiting]
  exact ⟨hlength, hkeys, fun e he => ⟨(horder e he).1, (horder e he).2.1, (horder e he).2.2.1, (horder e he).2.2.2.1,
    (horder e he).2.2.2.2.1, fun hnot => hup ((horder e he).2.2.2.2.2 hnot)⟩, hone, hopen, hoffer⟩

theorem tableHolds_of_frame {t s : State} (hissuer : t.issuer = s.issuer) (hlink : t.link.state = s.link.state) (h : TableHolds s) :
    TableHolds t :=
  tableHolds_of (by rw [hissuer]) (by rw [hissuer]) (by rw [hissuer]) (by rw [hlink]; exact id) h

/-- A link that is not up may go anywhere. -/
theorem tableHolds_of_down {t s : State} (hissuer : t.issuer = s.issuer) (hdown : s.link.state.isUp = false) (h : TableHolds s) :
    TableHolds t :=
  tableHolds_of (by rw [hissuer]) (by rw [hissuer]) (by rw [hissuer]) (by simp [hdown]) h

/-- An empty table with no window and no waiting offer is in order. -/
theorem tableHolds_empty {s : State} (htable : s.issuer.table = []) (hwaiting : s.issuer.waiting = none)
    (hwindow : s.issuer.window = none) : TableHolds s := by
  simp [tableHolds_iff, htable, hwaiting, hwindow]

/-- In a table of distinct keys whose ISSUED entries have one key, at most one is ISSUED. -/
theorem issued_le_one {table : List ReqEntry} (hkeys : (table.map (fun e => (e.target, e.command))).Nodup) (target : Nat) (command : Byte)
    (hall : ∀ x ∈ table, x.state = .issued → x.hasKey target command = true) :
    (table.filter (fun e => e.state == .issued)).length ≤ 1 := by
  have hsub : ((table.filter (fun e => e.state == .issued)).map (fun e => (e.target, e.command))).Nodup :=
    hkeys.sublist (List.filter_sublist.map _)
  have hsame : ∀ x ∈ table.filter (fun e => e.state == .issued), (x.target, x.command) = (target, command) := by
    intro x hx
    obtain ⟨hmem, hissued⟩ := List.mem_filter.mp hx
    simpa [ReqEntry.hasKey] using hall x hmem (by simpa using hissued)
  generalize table.filter (fun e => e.state == .issued) = issued at hsub hsame ⊢
  match issued with
  | [] => simp
  | [_] => simp
  | a :: b :: _ =>
    have hequal : (a.target, a.command) = (b.target, b.command) := by rw [hsame a (by simp), hsame b (by simp)]
    simp [hequal] at hsub

/-- Of at most one ISSUED entry any two are the same. -/
theorem eq_of_issued {table : List ReqEntry} (hone : (table.filter (fun e => e.state == .issued)).length ≤ 1) {x e : ReqEntry}
    (hx : x ∈ table) (he : e ∈ table) (hxissued : x.state = .issued) (heissued : e.state = .issued) : x = e := by
  have hmem {y : ReqEntry} (hy : y ∈ table) (hissued : y.state = .issued) : y ∈ table.filter (fun e => e.state == .issued) :=
    List.mem_filter.mpr ⟨hy, by simp [hissued]⟩
  have hxmem := hmem hx hxissued
  have hemem := hmem he heissued
  generalize table.filter (fun e => e.state == .issued) = issued at hone hxmem hemem
  match issued with
  | [] => cases hxmem
  | [y] => rw [List.mem_singleton.mp hxmem, List.mem_singleton.mp hemem]
  | _ :: _ :: _ => simp at hone

/-- The keys of a table whose entries change but for their keys. -/
theorem keys_map {table : List ReqEntry} {f : ReqEntry → ReqEntry} (hf : ∀ x, (f x).target = x.target ∧ (f x).command = x.command) :
    (table.map f).map (fun e => (e.target, e.command)) = table.map (fun e => (e.target, e.command)) := by
  simp [hf]

/-! ## Changes of one entry -/

/-- An entry changed by its key: of the table with distinct keys the entry alone is another. -/
theorem mem_changeEntry {e x : ReqEntry} {f : ReqEntry → ReqEntry} {s : State}
    (hkeys : (s.issuer.table.map (fun e => (e.target, e.command))).Nodup) (he : e ∈ s.issuer.table) :
    x ∈ (changeEntry e.target e.command f s).issuer.table ↔ x = f e ∨ x ∈ s.issuer.table ∧ x ≠ e := by
  simp only [changeEntry, List.mem_map]
  constructor
  · rintro ⟨y, hy, rfl⟩
    split
    · next hkey =>
      rw [eq_of_hasKey hkeys hy he hkey]
      exact .inl rfl
    · next hkey =>
      refine .inr ⟨hy, ?_⟩
      rintro rfl
      simp [ReqEntry.hasKey] at hkey
  · rintro (rfl | ⟨hx, hne⟩)
    · exact ⟨e, he, by simp [ReqEntry.hasKey]⟩
    · exact ⟨x, hx, if_neg fun hkey => hne (eq_of_hasKey hkeys hx he hkey)⟩

/-- Two changes of one entry are one. -/
theorem changeEntry_changeEntry (target : Nat) (command : Byte) (f g : ReqEntry → ReqEntry) (s : State)
    (hf : ∀ x, (f x).hasKey target command = x.hasKey target command) :
    changeEntry target command g (changeEntry target command f s) = changeEntry target command (fun x => g (f x)) s := by
  simp only [changeEntry, List.map_map]
  congr 3
  funext x
  simp only [Function.comp]
  by_cases hkey : x.hasKey target command = true
  · simp [hkey, hf]
  · simp [hkey]

/-- The ISSUED entry leaves ISSUED with the window stopped; its attempts and its outcome stay in order (R77 to R80). -/
theorem leavesIssued_tableHolds {e : ReqEntry} {f : ReqEntry → ReqEntry} {s : State} (h : TableHolds s) (he : e ∈ s.issuer.table)
    (hissued : e.state = .issued) (hkey : ∀ x, (f x).target = x.target ∧ (f x).command = x.command)
    (horder : (f e).InOrder s.link.state.isUp) (hleaves : (f e).state ≠ .issued) :
    TableHolds { changeEntry e.target e.command f s with
      issuer := { (changeEntry e.target e.command f s).issuer with window := none } } := by
  rw [tableHolds_iff] at h ⊢
  obtain ⟨hlength, hkeys, hall, hone, -, hoffer⟩ := h
  have hmem {x : ReqEntry} (hx : x ∈ (changeEntry e.target e.command f s).issuer.table) := (mem_changeEntry hkeys he).mp hx
  have hnone : ∀ x ∈ (changeEntry e.target e.command f s).issuer.table, x.state ≠ .issued := by
    intro x hx hxissued
    obtain rfl | ⟨hxold, hne⟩ := hmem hx
    · exact hleaves hxissued
    · exact hne (eq_of_issued hone hxold he hxissued hissued)
  refine ⟨by simpa [changeEntry] using hlength, ?keys, fun x hx => ?_, ?one, nofun, fun t c hwaits => ?_⟩
  case keys =>
    simp only [changeEntry]
    rwa [keys_map (fun x => by split <;> simp [hkey])]
  · obtain rfl | ⟨hxold, -⟩ := hmem hx
    · exact horder
    · exact hall x hxold
  case one =>
    rw [List.filter_eq_nil_iff.mpr (fun x hx => by simpa using hnone x hx)]
    exact Nat.zero_le 1
  · exact absurd hissued ((hoffer t c hwaits).1 e he)

/-! ## Offers (R16, R75) -/

/-- A QUEUED entry is offered while none is ISSUED: admitted it becomes the one, else the waiting offer names it. -/
theorem offer_tableHolds {e : ReqEntry} {s : State} (h : TableHolds s) (he : e ∈ s.issuer.table) (hqueued : e.state = .queued)
    (hnone : ∀ x ∈ s.issuer.table, x.state ≠ .issued) : TableHolds (offer e s) := by
  rw [tableHolds_iff] at h
  obtain ⟨hlength, hkeys, hall, hone, hopen, hoffer⟩ := h
  unfold offer
  split
  · rw [tableHolds_iff]
    next p _ =>
    have hmem {x : ReqEntry} (hx : x ∈ (changeEntry e.target e.command (fun e => { e with state := .issued })
        { s with pool := p, issuer := { s.issuer with waiting := none } }).issuer.table) :=
      (mem_changeEntry (s := { s with pool := p, issuer := { s.issuer with waiting := none } }) hkeys he).mp hx
    have hkept : ((changeEntry e.target e.command (fun e => { e with state := .issued })
        { s with pool := p, issuer := { s.issuer with waiting := none } }).issuer.table.map (fun e => (e.target, e.command))).Nodup := by
      simp only [changeEntry]
      rwa [keys_map (fun x => by split <;> simp)]
    refine ⟨by simpa [changeEntry] using hlength, hkept, fun x hx => ?_, ?one, fun _ => ?_, nofun⟩
    · obtain rfl | ⟨hxold, -⟩ := hmem hx
      · have hold := hall e he
        simp only [ReqEntry.InOrder, hqueued] at hold ⊢
        simpa using hold
      · exact hall x hxold
    case one =>
      refine issued_le_one hkept e.target e.command fun x hx hxissued => ?_
      obtain rfl | ⟨hxold, -⟩ := hmem hx
      · simp [ReqEntry.hasKey]
      · exact absurd hxissued (hnone x hxold)
    · exact ⟨_, (mem_changeEntry (s := { s with pool := p, issuer := { s.issuer with waiting := none } }) hkeys he).mpr (.inl rfl), rfl⟩
  · rw [tableHolds_iff]
    refine ⟨hlength, hkeys, hall, hone, hopen, fun t c hwaits => ⟨hnone, e, he, ?_⟩⟩
    obtain ⟨rfl, rfl⟩ := Prod.mk.injEq .. ▸ Option.some.inj hwaits
    exact ⟨rfl, rfl, hqueued⟩

theorem tryOffer_tableHolds (s : State) (h : TableHolds s) : TableHolds (tryOffer s) := by
  unfold tryOffer
  split
  · next hfree =>
    simp only [Bool.and_eq_true, List.all_eq_true, bne_iff_ne] at hfree
    split
    · next e hfind =>
      exact offer_tableHolds h (List.mem_of_find?_eq_some hfind) (by simpa using List.find?_some hfind) hfree.1.2
    · exact h
  · exact h

/-- The waiting offer names a QUEUED entry, with none ISSUED. -/
theorem reoffer_tableHolds (s : State) (h : TableHolds s) : TableHolds (reoffer s) := by
  unfold reoffer
  split
  · next t c hwaits =>
    split
    · next e hfind =>
      obtain ⟨-, hkeys, -, -, -, hoffer⟩ := (tableHolds_iff s).mp h
      obtain ⟨hnone, q, hq, rfl, rfl, hqueued⟩ := hoffer t c hwaits
      obtain rfl : e = q := eq_of_hasKey hkeys (List.mem_of_find?_eq_some hfind) hq
        (List.find?_some (p := fun e : ReqEntry => e.hasKey q.target q.command) hfind)
      exact offer_tableHolds h hq hqueued hnone
    · exact h
  · exact h

/-! ## The ends of the ISSUED entry (R77 to R80) -/

/-- The ISSUED entry, changed in what is to be offered again or is done, is finished and the next is offered. -/
theorem endIssued_tableHolds {e : ReqEntry} (o : ReqOutcome) (r : Option (List Byte)) {s : State} (h : TableHolds s)
    (he : e ∈ s.issuer.table) (hissued : e.state = .issued) : TableHolds (endIssued e o r s) := by
  have hold := ((tableHolds_iff s).mp h).2.2.1 e he
  refine tryOffer_tableHolds _ (tableHolds_of_frame (by simp) (by simp) (leavesIssued_tableHolds h he hissued
    (f := fun x => x.finish o r s.issuer.discardTime) (fun _ => ⟨rfl, rfl⟩) ?_ nofun))
  exact ⟨hold.1, hold.2.1, hold.2.2.1, fun hopen => absurd rfl hopen, by simp [ReqEntry.finish], fun hopen => absurd rfl hopen⟩

/-- An answer names an ISSUED entry of the table. -/
theorem answered_issued {payload : List Byte} {s : State} {e : ReqEntry} (h : answered payload s = some e) :
    e ∈ s.issuer.table ∧ e.state = .issued := by
  unfold answered at h
  split at h
  · split at h
    · have hfits := List.find?_some h
      simp only [Bool.and_eq_true, beq_iff_eq] at hfits
      exact ⟨List.mem_of_find?_eq_some h, hfits.2⟩
    · cases h
  · cases h

theorem takeResponse_tableHolds (payload : List Byte) (s : State) (h : TableHolds s) : TableHolds (takeResponse payload s) := by
  unfold takeResponse
  split
  · next e hnamed =>
    obtain ⟨he, hissued⟩ := answered_issued hnamed
    split
    · exact endIssued_tableHolds _ _ h he hissued
    · exact h
  · exact h

theorem takeReject_tableHolds (payload : List Byte) (s : State) (h : TableHolds s) : TableHolds (takeReject payload s) := by
  unfold takeReject
  split
  · next e hnamed =>
    obtain ⟨he, hissued⟩ := answered_issued hnamed
    exact endIssued_tableHolds _ _ h he hissued
  · exact h

/-- A busy answer counts an attempt and queues the entry again, up to the 32nd, which ends it (R79). -/
theorem takeBusy_tableHolds (payload : List Byte) (s : State) (h : TableHolds s) : TableHolds (takeBusy payload s) := by
  unfold takeBusy
  split
  · next e hnamed =>
    obtain ⟨he, hissued⟩ := answered_issued hnamed
    obtain ⟨htarget, hdata, -, hattempts, houtcome, hup⟩ := ((tableHolds_iff s).mp h).2.2.1 e he
    have hopen : e.state ≠ .done := by simp [hissued]
    have hnooutcome : e.outcome.isSome ≠ true := fun hsome => hopen (houtcome.mpr hsome)
    have hfewer := hattempts hopen
    dsimp only
    split
    · next hagain =>
      rw [changeEntry_changeEntry _ _ _ _ _ (fun _ => by rfl)]
      refine tryOffer_tableHolds _ (leavesIssued_tableHolds h he hissued (fun _ => ⟨rfl, rfl⟩) ?_ nofun)
      exact ⟨htarget, hdata, Nat.le_of_lt hagain, fun _ => hagain, by simpa using hnooutcome, fun _ => hup hopen⟩
    · have hkept : (changeEntry e.target e.command (fun x => { x with attempts := e.attempts + 1 }) s).issuer.discardTime =
          s.issuer.discardTime := rfl
      rw [endIssued, hkept]
      dsimp only
      rw [changeEntry_changeEntry _ _ _ _ _ (fun _ => by rfl)]
      exact tryOffer_tableHolds _ (tableHolds_of_frame (by simp) (by simp) (leavesIssued_tableHolds h he hissued
        (f := fun x => ReqEntry.finish { x with attempts := e.attempts + 1 } .gaveUp none s.issuer.discardTime)
        (fun _ => ⟨rfl, rfl⟩) ⟨htarget, hdata, Nat.succ_le_of_lt hfewer, fun hopen => absurd rfl hopen, by simp [ReqEntry.finish],
          fun hopen => absurd rfl hopen⟩ nofun))
  · exact h

theorem responseWindowExpires_tableHolds (s : State) (h : TableHolds s) : TableHolds (responseWindowExpires s) := by
  unfold responseWindowExpires
  split
  · split
    · next e hfind =>
      exact endIssued_tableHolds _ _ h (List.mem_of_find?_eq_some hfind) (by simpa using List.find?_some hfind)
    · rw [tableHolds_iff] at h ⊢
      obtain ⟨hlength, hkeys, hall, hone, -, hoffer⟩ := h
      exact ⟨hlength, hkeys, hall, hone, nofun, hoffer⟩
  · exact h

/-- What the end of the link makes of an entry (R84). -/
def ReqEntry.gone (discardTime : Nat) (e : ReqEntry) : ReqEntry := if e.isOpen then e.finish .gone none discardTime else e

/-- The end of the link makes it of every entry, with no window and no waiting offer. -/
theorem linkEnding_gone (s : State) :
    (linkEnding s).issuer.table = s.issuer.table.map (ReqEntry.gone s.issuer.discardTime) ∧ (linkEnding s).issuer.window = none ∧
    (linkEnding s).issuer.waiting = none := by
  refine ⟨?_, ?_, ?_⟩
  · simp only [linkEnding, issuerHold, setHold_frame]
    rfl
  · simp [linkEnding, issuerHold]
  · simp [linkEnding, issuerHold]

theorem ReqEntry.gone_state (discardTime : Nat) (e : ReqEntry) : (e.gone discardTime).state = .done := by
  unfold ReqEntry.gone
  split
  · rfl
  · next hdone => simpa [ReqEntry.isOpen] using hdone

theorem ReqEntry.gone_key (discardTime : Nat) (e : ReqEntry) :
    (e.gone discardTime).target = e.target ∧ (e.gone discardTime).command = e.command := by
  unfold ReqEntry.gone
  split <;> exact ⟨rfl, rfl⟩

/-- An entry that is gone is in order whether the link is up or not. -/
theorem ReqEntry.gone_inOrder (discardTime : Nat) (up up' : Bool) (e : ReqEntry) (h : e.InOrder up) : (e.gone discardTime).InOrder up' := by
  have hdone := e.gone_state discardTime
  obtain ⟨htarget, hdata, hattempts, -, houtcome, -⟩ := h
  refine ⟨?_, ?_, ?_, fun hopen => absurd hdone hopen, ?_, fun hopen => absurd hdone hopen⟩ <;>
    unfold ReqEntry.gone ReqEntry.finish at * <;> split <;> simp_all

/-- After the end of the link the state of the link may be any. -/
theorem tableHolds_of_linkEnding {t s : State} (hissuer : t.issuer = (linkEnding s).issuer) (h : TableHolds s) : TableHolds t := by
  obtain ⟨htable, hwindow, hwaiting⟩ := linkEnding_gone s
  rw [tableHolds_iff] at h ⊢
  obtain ⟨hlength, hkeys, hall, -⟩ := h
  rw [hissuer, htable, hwindow, hwaiting, keys_map (ReqEntry.gone_key _)]
  refine ⟨by simpa using hlength, hkeys, fun e he => ?_, ?one, nofun, nofun⟩
  · obtain ⟨x, hx, rfl⟩ := List.mem_map.mp he
    exact x.gone_inOrder _ _ _ (hall x hx)
  case one =>
    rw [List.filter_eq_nil_iff.mpr (by simp [ReqEntry.gone_state])]
    exact Nat.zero_le 1

/-! ## Entries that go and come (R72, R73, R82) -/

/-- The DONE entry of a key goes from the table. -/
theorem dropped_tableHolds {e : ReqEntry} (i : Issuer) {s : State} (h : TableHolds s) (he : e ∈ s.issuer.table) (hdone : e.state = .done)
    (htable : i.table = s.issuer.table.filter (fun x => !x.hasKey e.target e.command)) (hwindow : i.window = s.issuer.window)
    (hwaiting : i.waiting = s.issuer.waiting) : TableHolds { s with issuer := i } := by
  rw [tableHolds_iff] at h ⊢
  obtain ⟨hlength, hkeys, hall, hone, hopen, hoffer⟩ := h
  simp only [htable, hwindow, hwaiting]
  have hstays {x : ReqEntry} (hx : x ∈ s.issuer.table) (hnot : x.state ≠ .done) :
      x ∈ s.issuer.table.filter (fun x => !x.hasKey e.target e.command) := by
    refine List.mem_filter.mpr ⟨hx, ?_⟩
    simp only [Bool.not_eq_true', Bool.eq_false_iff]
    exact fun hkey => hnot (eq_of_hasKey hkeys hx he hkey ▸ hdone)
  refine ⟨(List.length_filter_le _ _).trans hlength, hkeys.sublist (List.filter_sublist.map _),
    fun x hx => hall x (List.mem_filter.mp hx).1, ((List.filter_sublist.filter _).length_le).trans hone, fun hruns => ?_, fun t c hwaits => ?_⟩
  · obtain ⟨x, hx, hissued⟩ := hopen hruns
    exact ⟨x, hstays hx (by simp [hissued]), hissued⟩
  · obtain ⟨hnone, x, hx, htarget, hcommand, hqueued⟩ := hoffer t c hwaits
    exact ⟨fun y hy => hnone y (List.mem_filter.mp hy).1, x, hstays hx (by simp [hqueued]), htarget, hcommand, hqueued⟩

theorem discardExpires_tableHolds (target : Nat) (command : Byte) (s : State) (h : TableHolds s) :
    TableHolds (discardExpires target command s) := by
  unfold discardExpires
  split
  · next hdue =>
    obtain ⟨e, he, hfits⟩ := List.any_eq_true.mp hdue
    simp only [ReqEntry.hasKey, Bool.and_eq_true, beq_iff_eq] at hfits
    obtain ⟨⟨⟨rfl, rfl⟩, hdone⟩, -⟩ := hfits
    exact dropped_tableHolds _ h he hdone rfl rfl rfl
  · exact h

/-- The window starts for the ISSUED entry alone (R76). -/
theorem commandSent_tableHolds (s : State) (h : TableHolds s) : TableHolds (commandSent s) := by
  unfold commandSent
  split
  · next hany =>
    rw [tableHolds_iff] at h ⊢
    obtain ⟨hlength, hkeys, hall, hone, -, hoffer⟩ := h
    refine ⟨hlength, hkeys, hall, hone, fun _ => ?_, hoffer⟩
    obtain ⟨e, he, hissued⟩ := List.any_eq_true.mp hany
    exact ⟨e, he, by simpa using hissued⟩
  · exact h

/-- A new entry is QUEUED with a key of its own, with the link up and room in the table (R73). -/
theorem added_tableHolds {target : Nat} {command : Byte} {data : List Byte} {s : State} (h : TableHolds s) (htarget : target ≤ 15)
    (hdata : data.length ≤ 32) (hup : s.link.state.isUp = true) (hroom : s.issuer.table.length < 6)
    (hnew : s.issuer.table.find? (fun e => e.hasKey target command) = none) :
    TableHolds { s with issuer := { s.issuer with table := s.issuer.table ++ [⟨target, command, data, .queued, none, none, 0, none⟩] } } := by
  rw [tableHolds_iff] at h ⊢
  obtain ⟨hlength, hkeys, hall, hone, hopen, hoffer⟩ := h
  have hother : ∀ e ∈ s.issuer.table, ¬ (e.target = target ∧ e.command = command) := by
    simpa [List.find?_eq_none, ReqEntry.hasKey] using hnew
  refine ⟨by simp; omega, ?keys, fun e he => ?_, by simpa using hone, fun hruns => ?_, fun t c hwaits => ?_⟩
  case keys =>
    simp only [List.map_append, List.map_cons, List.map_nil]
    refine List.Nodup.append hkeys (List.nodup_singleton _) ?_
    simpa [List.disjoint_singleton] using fun e he htarget hcommand => hother e he ⟨htarget, hcommand⟩
  · obtain hold | hadded := List.mem_append.mp he
    · exact hall e hold
    · obtain rfl := List.mem_singleton.mp hadded
      exact ⟨htarget, hdata, Nat.zero_le _, fun _ => Nat.zero_lt_succ 31, by simp, fun _ => hup⟩
  · obtain ⟨e, he, hissued⟩ := hopen hruns
    exact ⟨e, List.mem_append_left _ he, hissued⟩
  · obtain ⟨hnone, e, he, hkey⟩ := hoffer t c hwaits
    refine ⟨fun x hx => ?_, e, List.mem_append_left _ he, hkey⟩
    obtain hold | hadded := List.mem_append.mp hx
    · exact hnone x hold
    · obtain rfl := List.mem_singleton.mp hadded
      exact nofun

theorem baseRequestTaken_tableHolds (target : Nat) (command : Byte) (data : List Byte) (s : State) (h : TableHolds s) :
    TableHolds (baseRequestTaken target command data s).1 := by
  unfold baseRequestTaken
  split
  · exact h
  · next hrange =>
    split
    · next e hfind =>
      have hkey : e.target = target ∧ e.command = command := by
        simpa [ReqEntry.hasKey] using List.find?_some hfind
      split
      · exact h
      · split
        · split
          · exact h
          · next hdone =>
            obtain ⟨rfl, rfl⟩ := hkey
            exact dropped_tableHolds _ h (List.mem_of_find?_eq_some hfind) (by simpa [ReqEntry.isOpen] using hdone) rfl rfl rfl
        · exact h
    · next hnew =>
      split
      · exact h
      · next hup =>
        split
        · exact h
        · next hroom =>
          have hadded := added_tableHolds (data := data) h (by omega) (by omega) (by simpa using hup) (by omega) hnew
          exact tryOffer_tableHolds _ (tableHolds_of_frame (by simp) (by simp) hadded)

/-- Time passes on the window and on the discard timers. -/
theorem advance_tableHolds (s : State) (h : TableHolds s) : TableHolds (advance s) := by
  rw [tableHolds_iff] at h ⊢
  obtain ⟨hlength, hkeys, hall, hone, hopen, hoffer⟩ := h
  simp only [advance, tickIssuer, tickLink]
  refine ⟨by simpa using hlength, by rwa [keys_map (fun _ => ⟨by rfl, by rfl⟩)], ?_, ?_, ?_, ?_⟩
  · simpa [List.forall_mem_map] using hall
  · simpa [List.filter_map, Function.comp_def] using hone
  · simpa [tick] using hopen
  · simpa using hoffer

end Sys2Proof.Machine
/-! PROOFS. The conditions of the Pending Request Table: the link, the alarms, the frames, and every step. -/
namespace Sys2Proof.Machine

/-! ## The ends of the link (R60 to R65) -/

/-- A state whose table is what the end of the link made of it is in order. -/
theorem tableHolds_ended {t u : State} (s : State) (hissuer : t.issuer = (linkEnding u).issuer) (hu : u.issuer = s.issuer)
    (hlink : u.link.state = s.link.state) (h : TableHolds s) : TableHolds t :=
  tableHolds_of_linkEnding hissuer (tableHolds_of_frame hu hlink h)

@[simp] theorem stopLinkTimers_state (s : State) : (stopLinkTimers s).link.state = s.link.state := rfl

@[simp] theorem endDiagnosis_state (cause : DiagEnd) (s : State) : (endDiagnosis cause s).link.state = s.link.state := by
  unfold endDiagnosis
  split <;> rfl

theorem enterUnpowered_tableHolds (demand : Nat) (s : State) (h : TableHolds s) : TableHolds (enterUnpowered demand s) :=
  tableHolds_ended (u := stopLinkTimers (endDiagnosis .unpowered s)) s (by simp [enterUnpowered, flushDown]) (by simp) (by simp) h

theorem enterFaulted_tableHolds (s : State) (h : TableHolds s) : TableHolds (enterFaulted s) :=
  tableHolds_ended (u := stopLinkTimers (endDiagnosis .faulted s)) s (by simp [enterFaulted, flushDown]) (by simp) (by simp) h

theorem linkLoss_tableHolds (s : State) (h : TableHolds s) : TableHolds (linkLoss s) :=
  tableHolds_ended (u := post (.link .lost) (stopLinkTimers s)) s (by simp [linkLoss, flushDown, startTraining]) (by simp) (by simp) h

theorem detachBase_tableHolds (s : State) (h : TableHolds s) : TableHolds (detachBase s) := by
  have hpost (u : State) (hu : TableHolds u) :
      TableHolds (post (.attach .detached) (postEvent .baseDetached (postureDetached (releaseBase u)))) :=
    tableHolds_of_frame (by simp) (by simp) hu
  have hended (u : State) (hu : TableHolds u) : TableHolds (setLinkState .absent (flushDown (linkEnding (stopLinkTimers u)))) :=
    tableHolds_ended (u := stopLinkTimers u) u (by simp [flushDown]) (by simp) (by simp) hu
  have hdiagnosed : TableHolds (endDiagnosis .detach s) := tableHolds_of_frame (by simp) (by simp) h
  exact hpost _ (hended _ hdiagnosed)

/-! ## Powering, training, identification (R45 to R54) -/

/-- POWERING is entered with the link not up. -/
theorem enterPowering_tableHolds (within : Bool) (s : State) (hdown : s.link.state.isUp = false) (h : TableHolds s) :
    TableHolds (enterPowering within s) := by
  have hclaimed : TableHolds (claimBase within allowance (setLinkState .powering s)).1 := tableHolds_of_down (by simp) hdown h
  unfold enterPowering
  dsimp only
  split
  · exact hclaimed
  · exact enterUnpowered_tableHolds _ _ hclaimed

theorem startTraining_tableHolds (s : State) (hdown : s.link.state.isUp = false) (h : TableHolds s) : TableHolds (startTraining s) :=
  tableHolds_of_down (by simp [startTraining]) hdown h

theorem startResetDrive_tableHolds (s : State) (hdown : s.link.state.isUp = false) (h : TableHolds s) : TableHolds (startResetDrive s) :=
  tableHolds_of_down (by simp [startResetDrive]) hdown h

theorem railUpExpires_tableHolds (s : State) (hlink : LinkHolds s) (h : TableHolds s) : TableHolds (railUpExpires s) := by
  unfold railUpExpires
  split
  · next hup =>
    have hdown : s.link.state.isUp = false := by rw [hlink.2.1 hup]; rfl
    dsimp only
    split
    · exact startResetDrive_tableHolds _ hdown h
    · exact startTraining_tableHolds _ hdown h
  · exact h

/-- A failed attempt leaves a link that is not up not up (R46). -/
theorem attemptFails_tableHolds (s : State) (hdown : s.link.state.isUp = false) (h : TableHolds s) : TableHolds (attemptFails s) := by
  have hunreachable : TableHolds (enterUnreachable s) := tableHolds_of_down (by simp [enterUnreachable]) hdown h
  unfold attemptFails
  split
  · split
    · exact h
    · split
      · exact h
      · exact hunreachable
  · exact hunreachable

theorem trainingEchoes_tableHolds (unchanged : Bool) (s : State) (hlink : LinkHolds s) (h : TableHolds s) :
    TableHolds (trainingEchoes unchanged s) := by
  unfold trainingEchoes
  split
  · next hecho =>
    have hdown : s.link.state.isUp = false := by rw [(hlink.2.2.1 hecho).1]; rfl
    split
    · exact tableHolds_of_down (by simp [attemptSucceeds, askChunk]) hdown h
    · exact attemptFails_tableHolds s hdown h
  · exact h

theorem echoExpires_tableHolds (s : State) (hlink : LinkHolds s) (h : TableHolds s) : TableHolds (echoExpires s) := by
  unfold echoExpires
  split
  · next hecho => exact attemptFails_tableHolds s (by rw [(hlink.2.2.1 hecho).1]; rfl) h
  · exact h

theorem retryExpires_tableHolds (s : State) (hlink : LinkHolds s) (h : TableHolds s) : TableHolds (retryExpires s) := by
  unfold retryExpires
  split
  · next hretry =>
    have hdown : s.link.state.isUp = false := by rw [hlink.2.2.2.2.2.1 hretry]; rfl
    exact startTraining_tableHolds _ hdown h
  · exact h

theorem resetDriveExpires_tableHolds (s : State) (h : TableHolds s) : TableHolds (resetDriveExpires s) := by
  unfold resetDriveExpires
  split <;> exact h

/-- READY is entered with the next request offered (R54). -/
theorem enterReady_tableHolds (s : State) (h : TableHolds s) : TableHolds (enterReady s) := by
  have hready {u : State} (hissuer : u.issuer = s.issuer) (hlink : u.link.state = .ready) : TableHolds u :=
    tableHolds_of (by rw [hissuer]) (by rw [hissuer]) (by rw [hissuer]) (by rw [hlink]; exact fun _ => rfl) h
  unfold enterReady
  dsimp only
  refine tryOffer_tableHolds _ ?_
  split
  · exact hready (by simp) (by simp)
  · exact hready (by simp) (by simp)

theorem identificationEnds_tableHolds (i : Identity) (s : State) (h : TableHolds s) : TableHolds (identificationEnds i s) := by
  have hreleased (u : State) (hu : TableHolds u) : TableHolds (releaseBase u) := tableHolds_of_frame (by simp) (by simp) hu
  have hclaimed (u : State) (hu : TableHolds u) : TableHolds (claimBase false i.railDemand u).1 :=
    tableHolds_of_frame (by simp) (by simp) hu
  unfold identificationEnds
  dsimp only
  split
  · exact enterReady_tableHolds _ (hreleased _ h)
  · split
    · exact enterReady_tableHolds _ (hclaimed _ h)
    · exact enterUnpowered_tableHolds _ _ (hclaimed _ h)

theorem describeExpires_tableHolds (s : State) (h : TableHolds s) : TableHolds (describeExpires s) := by
  unfold describeExpires
  split
  · split
    · exact h
    · exact identificationEnds_tableHolds _ s h
  · exact h

theorem takeChunk_tableHolds (number : Byte) (bytes : List Byte) (s : State) (h : TableHolds s) :
    TableHolds (takeChunk number bytes s) := by
  unfold takeChunk
  dsimp only
  split
  · exact h
  · split
    · exact identificationEnds_tableHolds _ s h
    · split
      · exact h
      · split
        · exact h
        · exact identificationEnds_tableHolds _ _ h

/-! ## The running link (R57 to R60) -/

/-- QUIET is entered with the table as it is (R57). -/
theorem enterQuiet_tableHolds (s : State) (h : TableHolds s) : TableHolds (enterQuiet s) :=
  tableHolds_of (by simp [enterQuiet]) (by simp [enterQuiet]) (by simp [enterQuiet]) (fun _ => by simp [enterQuiet, LinkState.isUp]) h

theorem quietExpires_tableHolds (s : State) (h : TableHolds s) : TableHolds (quietExpires s) := by
  unfold quietExpires
  split
  · split
    · exact h
    · split
      · exact h
      · exact enterQuiet_tableHolds s h
  · exact h

theorem wakeTimeExpires_tableHolds (s : State) (h : TableHolds s) : TableHolds (wakeTimeExpires s) := by
  unfold wakeTimeExpires
  split
  · exact tryOffer_tableHolds _ (tableHolds_of (s := s) (by simp) (by simp) (by simp) (fun _ => by simp [LinkState.isUp]) h)
  · exact h

theorem wakeSignalled_tableHolds (s : State) (h : TableHolds s) : TableHolds (wakeSignalled s) := by
  unfold wakeSignalled
  split <;> exact h

theorem keepAliveExpires_tableHolds (s : State) (h : TableHolds s) : TableHolds (keepAliveExpires s) := by
  unfold keepAliveExpires
  split
  · dsimp only
    split <;> exact h
  · exact h

theorem keepAliveEchoes_tableHolds (s : State) (h : TableHolds s) : TableHolds (keepAliveEchoes s) := by
  unfold keepAliveEchoes
  split
  · dsimp only
    split
    · exact enterQuiet_tableHolds _ h
    · exact h
  · exact h

theorem keepAliveWindowExpires_tableHolds (s : State) (h : TableHolds s) : TableHolds (keepAliveWindowExpires s) := by
  unfold keepAliveWindowExpires
  split
  · exact linkLoss_tableHolds s h
  · exact h

theorem hingeFrameDone_tableHolds (s : State) (h : TableHolds s) : TableHolds (hingeFrameDone s) := by
  have hsent (u : State) (hu : TableHolds u) : TableHolds (reoffer (if u.link.kaDue then sendKeepAlive u else u)) :=
    reoffer_tableHolds _ (iteInduction (motive := TableHolds) (fun _ => hu) (fun _ => hu))
  unfold hingeFrameDone
  split
  · split
    · exact hsent _ (iteInduction (motive := TableHolds) (fun _ => commandSent_tableHolds _ h) (fun _ => h))
    · exact h
  · exact h

/-! ## Presence, BASE-RESET, LINK-DIAGNOSE (R43, R44, R65 to R67) -/

theorem presenceAsserts_tableHolds (s : State) (h : TableHolds s) : TableHolds (presenceAsserts s) := by
  unfold presenceAsserts
  split
  · exact h
  · dsimp only
    split
    · exact h
    · split
      · next hstate => exact tableHolds_of_down (by simp) (by simp [hstate, LinkState.isUp]) h
      · exact h

theorem presenceReleases_tableHolds (s : State) (h : TableHolds s) : TableHolds (presenceReleases s) := by
  unfold presenceReleases
  split
  · exact h
  · dsimp only
    split
    · exact h
    · next hstate => exact tableHolds_of_down (s := s) (by simp) (by simp [hstate, LinkState.isUp]) h
    · exact detachBase_tableHolds _ h

theorem debounceExpires_tableHolds (s : State) (hlink : LinkHolds s) (h : TableHolds s) : TableHolds (debounceExpires s) := by
  unfold debounceExpires
  split
  · next hdebounce =>
    have hdown : s.link.state.isUp = false := by rw [hlink.1 hdebounce]; rfl
    dsimp only
    split
    · exact enterFaulted_tableHolds _ (tableHolds_of_frame (s := s) (by simp) (by simp) h)
    · exact enterPowering_tableHolds _ _ (by simpa using hdown) (tableHolds_of_frame (s := s) (by simp) (by simp) h)
  · exact h

theorem baseResetTaken_tableHolds (s : State) (h : TableHolds s) : TableHolds (baseResetTaken s).1 := by
  have hdriven : TableHolds (startResetDrive (flushDown (linkEnding (stopLinkTimers s)))) :=
    tableHolds_ended (u := stopLinkTimers s) s (by simp [startResetDrive, flushDown]) (by simp) (by simp) h
  unfold baseResetTaken
  split
  iterate 3 exact hdriven
  · next hstate =>
    have hpowered := enterPowering_tableHolds false s (by simp [hstate, LinkState.isUp]) h
    dsimp only
    split
    · exact hpowered
    · exact hpowered
  · exact h
  · exact h

/-- With no entry open the link may go anywhere. -/
theorem tableHolds_of_noneOpen {t s : State} (hissuer : t.issuer = s.issuer) (hnone : s.issuer.table.any ReqEntry.isOpen = false)
    (h : TableHolds s) : TableHolds t := by
  have hdone : ∀ e ∈ s.issuer.table, e.state = .done := by
    simpa [List.any_eq_false, ReqEntry.isOpen] using hnone
  rw [tableHolds_iff] at h ⊢
  rw [hissuer]
  obtain ⟨hlength, hkeys, hall, hrest⟩ := h
  refine ⟨hlength, hkeys, fun e he => ?_, hrest⟩
  obtain ⟨htarget, hdata, hattempts, hfewer, houtcome, -⟩ := hall e he
  exact ⟨htarget, hdata, hattempts, hfewer, houtcome, fun hopen => absurd (hdone e he) hopen⟩

theorem linkDiagnoseTaken_tableHolds (s : State) (h : TableHolds s) : TableHolds (linkDiagnoseTaken s).1 := by
  unfold linkDiagnoseTaken
  split
  iterate 3
    split
    · exact h
    · next hnone => exact tableHolds_of_noneOpen (by simp [flushDown]) (by simpa using hnone) h
  · exact h

theorem measurementEnds_tableHolds (o : PinOutcome) (s : State) (hlink : LinkHolds s) (h : TableHolds s) :
    TableHolds (measurementEnds o s) := by
  have hdone (n : Notice) (u : State) (hdown : u.link.state.isUp = false) (hu : TableHolds u) : TableHolds (startTraining (post n u)) :=
    startTraining_tableHolds _ (by simpa using hdown) (tableHolds_of_frame (by simp) (by simp) hu)
  unfold measurementEnds
  split
  · split
    · next hdiag =>
      have hdown : s.link.state.isUp = false := by rw [hlink.2.2.2.2.2.2.1 hdiag]; rfl
      dsimp only
      split
      · exact hdone _ _ hdown h
      · exact h
    · exact h
  · exact h

/-! ## The budget (R130, R131) -/

theorem changeBudget_tableHolds (profiles : Profiles) (active : Nat) (s : State) (h : TableHolds s) :
    TableHolds (changeBudget profiles active s) := by
  have htold (before : Option PenLevel) (u : State) (hu : TableHolds u) : TableHolds (penTold before u) :=
    tableHolds_of_frame (by simp) (by simp) hu
  have hregranted (before : Guard) (u : State) (hu : TableHolds u) :
      TableHolds (penTold before.penGrant (switchOutputs (postBudget before .budget { u with guard := u.guard.regrant }))) :=
    tableHolds_of_frame (by simp) (by simp) hu
  have hposted (before : Guard) (u : State) (hu : TableHolds u) : TableHolds (switchOutputs (postBudget before .budget u)) :=
    tableHolds_of_frame (by simp) (by simp) hu
  unfold changeBudget
  dsimp only
  split
  · unfold lowerBudget
    dsimp only
    split
    · exact htold _ _ (enterUnpowered_tableHolds _ _ (hposted _ _ h))
    · exact htold _ _ (hposted _ _ h)
  · split
    · unfold raiseBudget
      dsimp only
      split
      · next hwaits => exact hregranted _ _ (enterPowering_tableHolds true _ (by simp [hwaits.1, LinkState.isUp]) h)
      · exact hregranted _ _ h
    · exact h

theorem budgetProfile_tableHolds (n : Nat) (s : State) (h : TableHolds s) : TableHolds (budgetProfile n s) := by
  unfold budgetProfile
  split
  · exact h
  · exact changeBudget_tableHolds _ _ s h

theorem budgetSetTaken_tableHolds (a : BudgetArg) (s : State) (h : TableHolds s) : TableHolds (budgetSetTaken a s).1 := by
  unfold budgetSetTaken
  split
  · exact changeBudget_tableHolds _ _ s h
  · exact h

/-! ## The policy engine and the transmitters -/

theorem issueClaim_tableHolds (ev : PolicyEvent) (a : PolicyAction) (s : State) (h : TableHolds s) : TableHolds (issueClaim ev a s) := by
  cases a with
  | budgetProfile n => exact budgetProfile_tableHolds n s h
  | indicate l _ _ => cases l <;> exact h
  | _ => exact tableHolds_of_frame (by simp [issueClaim]) (by simp [issueClaim]) h

theorem drainEvents_tableHolds (s : State) (h : TableHolds s) : TableHolds (drainEvents s) :=
  drainEvents_keeps (fun _ h => h) issueClaim_tableHolds s h

theorem kickHinge_tableHolds (s : State) (h : TableHolds s) : TableHolds (kickHinge s) := by
  unfold kickHinge
  (repeat' split) <;> exact h

theorem finish_tableHolds (s : State) (h : TableHolds s) : TableHolds (finish s) :=
  finish_keeps (fun _ h => h) issueClaim_tableHolds kickHinge_tableHolds (fun _ hu => tableHolds_of_frame (by simp) (by simp) hu) s h

/-! ## The alarms (R62, R137, R142) -/

theorem setLatch_tableHolds (c : OutCause) (s : State) (h : TableHolds s) : TableHolds (setLatch c s) := by
  cases c with
  | railOc | railUv => exact enterFaulted_tableHolds _ (tableHolds_of_frame (by simp) (by simp) h)
  | coilOc | coilUv => exact tableHolds_of_frame (by simp [setLatch]) (by simp [setLatch]) h

theorem applyProtection_tableHolds (c : OutCause) (p : Protection) (s : State) (h : TableHolds s) : TableHolds (applyProtection c p s) := by
  cases p with
  | stop => exact setLatch_tableHolds c s h
  | limit cap => exact tableHolds_of_frame (by simp [applyProtection]) (by simp [applyProtection]) h
  | off | none => exact h

theorem becomesDetected_tableHolds (c : OutCause) (s : State) (h : TableHolds s) : TableHolds (becomesDetected c s) :=
  applyProtection_tableHolds _ _ _ (tableHolds_of_frame (by simp) (by simp) h)

theorem rawAppears_tableHolds (c : OutCause) (s : State) (h : TableHolds s) : TableHolds (rawAppears c s) := by
  unfold rawAppears
  dsimp only
  split
  · split
    · exact becomesDetected_tableHolds _ _ (tableHolds_of_frame (by simp) (by simp) h)
    · exact tableHolds_of_frame (by simp) (by simp) h
  · exact h

theorem filterExpires_tableHolds (c : OutCause) (s : State) (h : TableHolds s) : TableHolds (filterExpires c s) := by
  unfold filterExpires
  split
  · exact becomesDetected_tableHolds c s h
  · exact h

/-- With the rail's latch gone a FAULTED base is powered (R142). -/
theorem clearAlarms_tableHolds (m : Nat) (s : State) (h : TableHolds s) : TableHolds (clearAlarms m s) := by
  have hpowered (u : State) (was latched present : Bool) (hu : TableHolds u) :
      TableHolds (if was && latched && u.link.state = .faulted && present then enterPowering false u else u) := by
    split
    · next hgone =>
      simp only [Bool.and_eq_true, decide_eq_true_eq] at hgone
      exact enterPowering_tableHolds false u (by simp [hgone.1.2, LinkState.isUp]) hu
    · exact hu
  have hgone (u : State) (p : Prop) [Decidable p] (hu : TableHolds u) : TableHolds (if p then coilLatchGone u else u) :=
    iteInduction (motive := TableHolds) (fun _ => tableHolds_of_frame (by simp) (by simp) hu) (fun _ => hu)
  have hregranted (p : Prop) [Decidable p] : TableHolds (if p then
      { clearNamed m s with guard := Guard.regrant { (clearNamed m s).guard with cap := none } } else clearNamed m s) :=
    iteInduction (motive := TableHolds) (fun _ => tableHolds_of_frame (by simp) (by simp) h) (fun _ => tableHolds_of_frame (by simp) (by simp) h)
  have htold (before : Guard) (u : State) (hu : TableHolds u) :
      TableHolds (penTold before.penGrant (switchOutputs (postBudget before .clear u))) := tableHolds_of_frame (by simp) (by simp) hu
  exact hgone _ _ (hpowered _ _ _ _ (htold _ _ (hregranted _)))

theorem protectNow_tableHolds (before : Guard) (s : State) (h : TableHolds s) : TableHolds (protectNow before s) := by
  have hdue (s₀ u : State) (c : OutCause) (hu : TableHolds u) : TableHolds (protectIfDue before s₀ c u) := by
    unfold protectIfDue
    split
    · exact applyProtection_tableHolds _ _ u hu
    · exact hu
  unfold protectNow
  dsimp only
  rw [latchIfDue_all]
  refine hdue _ _ _ (iteInduction (motive := TableHolds) (fun _ => ?_) (fun _ => hdue _ _ _ ?_)) <;>
    exact iteInduction (motive := TableHolds) (fun _ => hdue _ _ _ h) (fun _ => hdue _ _ _ h)

theorem guardSetTaken_tableHolds (a : GuardArg) (s : State) (h : TableHolds s) : TableHolds (guardSetTaken a s).1 := by
  unfold guardSetTaken
  (repeat' split) <;> first | exact h | exact protectNow_tableHolds _ _ h

/-! ## Frames and requests -/

theorem tableHolds_routing : KeepsRouting TableHolds where
  records _ _ h := h
  lid _ _ _ _ h := tableHolds_of_frame (by simp) (by simp) h
  orient _ _ _ _ h := tableHolds_of_frame (by simp) (by simp) h
  base _ _ _ _ h := tableHolds_of_frame (by simp) (by simp) h
  pen _ _ h := tableHolds_of_frame (by simp) (by simp) h
  drain s h := drainEvents_tableHolds s h
  noBase _ h := tableHolds_of_frame (by simp) (by simp) h
  wake _ _ h := tableHolds_of_frame (by simp) (by simp) h
  up _ _ _ _ h := h
  down _ _ _ _ h := h

theorem routeFrame_tableHolds (src : Source) (kind : Byte) (payload : List Byte) (damaged : Bool) (s : State) (h : TableHolds s) :
    TableHolds (routeFrame src kind payload damaged s) := routeFrame_keeps tableHolds_routing src kind payload damaged s h

theorem tableHolds_frames : KeepsFrames TableHolds where
  drops _ h := h
  run _ _ h := h
  timers _ _ _ h := h
  loss s _ h := linkLoss_tableHolds s h
  signal s _ h := wakeSignalled_tableHolds s h
  traffic src kind payload damaged s h := routeFrame_tableHolds src kind payload damaged s h
  response payload s h := takeResponse_tableHolds payload s h
  busy payload s h := takeBusy_tableHolds payload s h
  reject payload s h := takeReject_tableHolds payload s h
  chunk number bytes s _ h := takeChunk_tableHolds number bytes s h

theorem answerSplit_tableHolds (d : Nat) (s : State) (h : TableHolds s) : TableHolds (answerSplit d s).after := by
  unfold answerSplit
  (repeat' split) <;> exact h

theorem ownerAnswer_tableHolds (q : Request) (s : State) (h : TableHolds s) : TableHolds (ownerAnswer q s).after := by
  cases q
  case splitSet d => exact answerSplit_tableHolds d s h
  case routeRead | windowRead | policyRead =>
    rw [ownerAnswer, answerEntry]
    split <;> exact h
  case baseRequest target command data => exact baseRequestTaken_tableHolds target command data s h
  case baseReset => exact baseResetTaken_tableHolds s h
  case linkDiagnose => exact linkDiagnoseTaken_tableHolds s h
  case alarmClear causes =>
    rw [ownerAnswer, answerAlarmClear]
    split
    · exact h
    · exact clearAlarms_tableHolds causes s h
  case guardSet a => exact guardSetTaken_tableHolds a s h
  case budgetSet a => exact budgetSetTaken_tableHolds a s h
  case countersIssuer => exact h
  case settingsSet a =>
    rw [ownerAnswer, answerSettings]
    split
    · exact applySettings_keeps (fun _ _ h => h) (fun _ _ h => h) (fun _ _ h => tableHolds_of_frame (by simp) (by simp) h)
        (fun _ _ h => h) (fun _ _ h => h) (fun _ _ h => tableHolds_of_frame (by simp) (by simp) h) a s h
    · exact h
  all_goals
    exact tableHolds_of_frame (by simp [ownerAnswer, withChargeRecord, withOrientationRecord])
      (by simp [ownerAnswer, withChargeRecord, withOrientationRecord]) h

theorem requestArrives_tableHolds (q : Request) (s : State) (h : TableHolds s) : TableHolds (requestArrives q s) :=
  requestArrives_keeps (fun _ _ h => h) (fun q s _ h => ownerAnswer_tableHolds q s h) q s h

/-! ## Start-up and the hub -/

theorem startUp_tableHolds {s : State} (h : StartUp s) : TableHolds s :=
  tableHolds_empty h.2.2.2.1 h.2.2.2.2.1 h.2.2.2.2.2.1

theorem reset_tableHolds (s : State) : TableHolds (coldReset s) ∧ TableHolds (restartHub s) :=
  ⟨startUp_tableHolds (startUp_coldReset s), startUp_tableHolds (startUp_restartHub s)⟩

/-- A command's own effect outside start-up keeps the conditions of the table, but for the resets. -/
theorem effect_tableHolds_started (c : Instr) (s : State) (hstarted : Started s) (hlink : LinkHolds s) (h : TableHolds s) : TableHolds (effect c s) := by
  have hrestart (u : State) : TableHolds (restartHub u) := (reset_tableHolds u).2
  cases hq : requestOf c with
  | some q => exact effect_of_request hq s ▸ requestArrives_tableHolds q s h
  | none =>
    have hport (u : State) (rx : Receiver) (n : Byte) (hu : TableHolds u) : TableHolds { u with rx := rx, uplinkErrors := n } := hu
    have hframe (kind : Byte) (payload : List Byte) (u : State) (hu : TableHolds u) : TableHolds (routeFrame .uplink kind payload false u) :=
      routeFrame_tableHolds _ _ _ _ u hu
    cases c
    case coldReset => exact (reset_tableHolds s).1
    case restartTakesEffect =>
      rw [effect]
      split
      · exact hrestart s
      · exact h
    case storeReadAnswered bytes => rw [effect, readAnswered, if_neg hstarted]; exact h
    case storeExchangeUnanswered =>
      rw [effect, exchangeUnanswered]
      split
      · split
        · next hstarting => exact absurd hstarting hstarted
        · exact tableHolds_of_frame (by simp) (by simp) h
        · exact tableHolds_of_frame (by simp) (by simp) h
        · exact h
      · exact h
    case receiveFault bytes => exact bytesArrive_keeps hport requestArrives_tableHolds hframe bytes s h
    case dataParcel tag payload | requestParcel code payload =>
      exact parcelArrives_keeps hport requestArrives_tableHolds hframe _ _ _ s h
    case parcelSent =>
      exact parcelSent_keeps (fun _ _ _ h => h) (fun _ hu => hu)
        (engineTakes_keeps (fun _ _ h => h) (fun q s _ h => ownerAnswer_tableHolds q s h)) (fun u _ => hrestart u) s h
    case presenceAssert => exact presenceAsserts_tableHolds s h
    case debounceExpiry => exact debounceExpires_tableHolds s hlink h
    case detach => exact presenceReleases_tableHolds s h
    case railUpExpiry => exact railUpExpires_tableHolds s hlink h
    case trainingEcho unchanged => exact trainingEchoes_tableHolds unchanged s hlink h
    case echoWindowExpiry => exact echoExpires_tableHolds s hlink h
    case retryTimerExpiry => exact retryExpires_tableHolds s hlink h
    case describeWindowExpiry => exact describeExpires_tableHolds s h
    case baseTrafficFrame kind payload check => exact trafficArrives_keeps tableHolds_frames kind payload check s h
    case response payload check => exact responseArrives_keeps tableHolds_frames payload check s h
    case busyResponse payload check => exact answerArrives_keeps tableHolds_frames _ _ tableHolds_frames.busy payload check s h
    case reject payload check => exact answerArrives_keeps tableHolds_frames _ _ tableHolds_frames.reject payload check s h
    case wakeSignal payload check => exact wakeSignalArrives_keeps tableHolds_frames payload check s h
    case unlistedKindFrame kind payload check => exact unlistedArrives_keeps tableHolds_frames kind payload check s h
    case quietTimerExpiry => exact quietExpires_tableHolds s h
    case wakeTimeExpiry => exact wakeTimeExpires_tableHolds s h
    case keepaliveTimerExpiry => exact keepAliveExpires_tableHolds s h
    case keepaliveEcho => exact keepAliveEchoes_tableHolds s h
    case keepaliveWindowExpiry => exact keepAliveWindowExpires_tableHolds s h
    case resetDriveExpiry => exact resetDriveExpires_tableHolds s h
    case diagnosisMeasurementEnd outcome => exact measurementEnds_tableHolds outcome s hlink h
    case hingeFrameSent => exact hingeFrameDone_tableHolds s h
    case discardTimerExpiry target command => exact discardExpires_tableHolds target command s h
    case responseWindowExpiry => exact responseWindowExpires_tableHolds s h
    case lidMotion x y z busError => exact routeFrame_tableHolds _ _ _ _ _ h
    case penStatus payload damaged => exact routeFrame_tableHolds _ _ _ _ s h
    case alarmRawAppears cause => exact rawAppears_tableHolds cause s h
    case filterTimerExpiry cause => exact filterExpires_tableHolds cause s h
    case settleTimerExpiry | dwellReached | graceTimerExpiry =>
      rw [effect]
      split <;> exact tableHolds_of_frame (by simp) (by simp) h
    all_goals first
      | exact absurd hq (Option.some_ne_none _)
      | exact tableHolds_of_frame (by simp [effect]) (by simp [effect]) h

/-- A command's own effect keeps the conditions of the table, with start-up quiet and the link's timers in their states. -/
theorem effect_tableHolds (c : Instr) (s : State) (hdormant : Dormant s) (hlink : LinkHolds s) (h : TableHolds s) :
    TableHolds (effect c s) := by
  by_cases hstarting : s.store.state = .starting
  · have hgoes := effect_startUp c s ⟨hstarting, hdormant hstarting⟩
    generalize effect c s = t at hgoes ⊢
    cases hgoes with
    | stays k _ => exact startUp_tableHolds k
    | again u _ => exact (reset_tableHolds u).2
    | afresh u => exact (reset_tableHolds u).1
    | ends r u k _ _ _ =>
      exact tableHolds_empty (by simpa using k.2.2.2.1) (by simpa using k.2.2.2.2.1) (by simpa using k.2.2.2.2.2.1)
  · exact effect_tableHolds_started c s hstarting hlink h

end Sys2Proof.Machine

namespace Sys2Proof
open Machine

/-- Settles O58. -/
theorem everyStepKeepsTheRequestTable : Obligations.EveryStepKeepsTheRequestTable :=
  everyStepKeeps_withDormant (inv := fun s => LinkHolds s ∧ TableHolds s) (fun _ _ _ _ h => h)
    (fun s _ => ⟨(reset_linkHolds s).1, (reset_tableHolds s).1⟩)
    (fun c s h => by
      unfold heldEffect
      split <;> exact h)
    (fun _ h => h) (fun c s hdormant h => ⟨effect_linkHolds c s hdormant h.1, effect_tableHolds c s hdormant h.1 h.2⟩)
    (fun s h => ⟨finish_linkHolds s h.1, finish_tableHolds s h.2⟩) (fun s h => ⟨advance_linkHolds s h.1, advance_tableHolds s h.2⟩)

end Sys2Proof

/-! PROOFS. The time base, and the reset states. -/
namespace Sys2Proof.Machine

/-! ## The time base (logs 1, 3) -/

/-- Of several expiries due one is chosen. -/
theorem chooseDue_mem (draw : Nat) {l : List Instr} (h : l ≠ []) : ∃ c ∈ l, chooseDue draw l = some c := by
  have hlt : Config.freeOrder draw % l.length < l.length := Nat.mod_lt _ (List.length_pos_iff.mpr h)
  exact ⟨_, List.getElem_mem hlt, List.getElem?_eq_getElem hlt⟩

/-- With several timers due an idle step takes one of them. -/
theorem idle_several {s : State} (hheld : s.held = false) (hdue : 2 ≤ (dueCommands s).length) :
    ∃ c ∈ dueCommands s, idle s = exec c { s with fresh := s.fresh + 1 } := by
  obtain ⟨c, hc, hchosen⟩ := chooseDue_mem s.fresh (List.ne_nil_of_length_pos (Nat.lt_of_lt_of_le Nat.zero_lt_two hdue))
  refine ⟨c, hc, ?_⟩
  rw [idle, if_neg (by simp [hheld])]
  split
  · next hnone => simp [hnone] at hdue
  · next hone => simp [hone] at hdue
  · rw [hchosen]

/-- A timer is due as it stands at 0. -/
theorem due_iff (t : Timer) : due t = true ↔ t = some 0 := by simp [due]

theorem mem_when_ (b : Bool) (d c : Instr) : c ∈ when_ b d ↔ b = true ∧ c = d := by
  cases b <;> simp [when_]

/-- What is due, timer by timer. -/
theorem mem_dueCommands (s : State) (c : Instr) : c ∈ dueCommands s ↔
    (s.store.timer = some 0 ∧ c = .storeExchangeUnanswered) ∨ c ∈ dueLink s.link ∨ c ∈ dueIssuer s.issuer ∨
    (s.posture.settle = some 0 ∧ c = .settleTimerExpiry) ∨ (s.orient.dwellDue = true ∧ c = .dwellReached) ∨
    (s.poller.period = some 0 ∧ c = .samplePeriodExpiry) ∨ c ∈ dueGuard s.guard ∨ c ∈ duePen s.pen ∨
    c ∈ dueLine .line1 s.policy.line1 ∨ c ∈ dueLine .line2 s.policy.line2 ∨ c ∈ dueSleep s.sleep := by
  simp only [dueCommands, List.mem_append, mem_when_, due_iff, or_assoc]

theorem mem_dueLink (l : Link) (c : Instr) : c ∈ dueLink l ↔
    (l.debounce = some 0 ∧ c = .debounceExpiry) ∨ (l.railUp = some 0 ∧ c = .railUpExpiry) ∨ (l.echo = some 0 ∧ c = .echoWindowExpiry) ∨
    (l.retry = some 0 ∧ c = .retryTimerExpiry) ∨ (l.describe = some 0 ∧ c = .describeWindowExpiry) ∨
    (l.quiet = some 0 ∧ c = .quietTimerExpiry) ∨ (l.wake = some 0 ∧ c = .wakeTimeExpiry) ∨
    (l.keepAlive = some 0 ∧ c = .keepaliveTimerExpiry) ∨ (l.kaWindow = some 0 ∧ c = .keepaliveWindowExpiry) ∨
    (l.resetDrive = some 0 ∧ c = .resetDriveExpiry) := by
  simp only [dueLink, List.mem_append, mem_when_, due_iff, or_assoc]

theorem mem_dueIssuer (i : Issuer) (c : Instr) : c ∈ dueIssuer i ↔
    (i.window = some 0 ∧ c = .responseWindowExpiry) ∨
    ∃ e ∈ i.table, e.discard = some 0 ∧ c = .discardTimerExpiry e.target e.command := by
  simp only [dueIssuer, List.mem_append, List.mem_flatMap, mem_when_, due_iff]

theorem mem_dueGuard (g : Guard) (c : Instr) : c ∈ dueGuard g ↔
    (g.alarms.railOc.filter = some 0 ∧ c = .filterTimerExpiry .railOc) ∨ (g.alarms.railUv.filter = some 0 ∧ c = .filterTimerExpiry .railUv) ∨
    (g.alarms.coilOc.filter = some 0 ∧ c = .filterTimerExpiry .coilOc) ∨ (g.alarms.coilUv.filter = some 0 ∧ c = .filterTimerExpiry .coilUv) := by
  simp only [dueGuard, List.mem_append, mem_when_, due_iff, or_assoc]

theorem mem_duePen (p : Charger) (c : Instr) : c ∈ duePen p ↔
    (p.debounce = some 0 ∧ c = .dockDebounceExpiry) ∨ (p.detect = some 0 ∧ c = .detectWindowExpiry) ∨
    (p.ramp = some 0 ∧ c = .rampTimerExpiry) ∨ (p.silence = some 0 ∧ c = .silenceTimerExpiry) := by
  simp only [duePen, List.mem_append, mem_when_, due_iff, or_assoc]

theorem mem_dueLine (which : LedLine) (l : Line) (c : Instr) : c ∈ dueLine which l ↔
    (l.blink = some 0 ∧ c = .blinkPhaseExpiry which) ∨ (l.stretch = some 0 ∧ c = .stretchTimerExpiry which) := by
  simp only [dueLine, List.mem_append, mem_when_, due_iff]

theorem mem_dueSleep (z : Sleep) (c : Instr) : c ∈ dueSleep z ↔
    (z.grace = some 0 ∧ c = .graceTimerExpiry) ∨ (z.confirm = some 0 ∧ c = .confirmWindowExpiry) ∨
    (z.wakeWindow = some 0 ∧ c = .wakeWindowExpiry) ∨ (z.pulse = some 0 ∧ c = .wakePulseEnd) := by
  simp only [dueSleep, List.mem_append, mem_when_, due_iff, or_assoc]

/-! ## The reset states (R209) -/

/-- The end of a change in start-up changes nothing: no event, nothing to send, and an empty downstream queue. -/
theorem finish_silent (s : State) (hevents : s.policy.events = []) (hdown : s.pool.down = []) (hup : s.pool.up = [])
    (hholder : s.mgmt.holder = none) (hnotices : lowestPending s.mgmt.notices = none) : finish s = s := by
  have hkick : kickHinge s = s := if_pos hdown
  rw [finish_settled s hevents, hkick, startTransmit]
  split
  · simp [hholder, hnotices, hup]
  · rfl

/-- Cold reset ends as it is. -/
theorem finish_coldReset (s : State) : finish (coldReset s) = coldReset s := finish_silent _ rfl rfl rfl rfl rfl

/-- A restart ends as it is. -/
theorem finish_restartHub (s : State) : finish (restartHub s) = restartHub s := finish_silent _ rfl rfl rfl rfl rfl

/-- Which alarms are detected after a cold reset: DIE-OT by its temperature (R188). -/
theorem coldReset_eq (s : State) :
    let ot := s.guard.alarms.dieOt.raw
    coldReset s =
      { State.reset with
        pending := s.pending
        now := s.now
        fresh := s.fresh + 1
        pins := s.pins
        guard := { Guard.cold with
          alarms := { Guard.cold.alarms with
            dieOt := { raw := ot, filter := none, detected := ot, sticky := ot, mask := false, enabled := false,
                       latch := false, choice := 0 } } }
        policy := { Policy.cold with inputs := ⟨false, false, ot, false⟩ }
        store := { Store.cold with eeprom := cutOffContents s } } := by
  cases hot : s.guard.alarms.dieOt.raw <;> simp [coldReset, hot] <;> rfl

end Sys2Proof.Machine

namespace Sys2Proof
open Machine

/-- Settles O2: the idle step by what is due, time on every timer, and the expiries that are due timer by timer. -/
theorem idleStepIsTheTimeBase : Obligations.IdleStepIsTheTimeBase := by
  refine ⟨fun s hpending => ?idle, fun s => ?time, fun s c => ?due⟩
  case idle =>
    have hstep : step s = idle s := by rw [step, hpending]
    refine ⟨fun hheld => ?_, fun hheld hnone => ?_, fun c hheld hone => ?_, fun hheld hdue => ?_⟩
    · rw [hstep, idle, if_pos hheld]
    · rw [hstep, idle, if_neg (by simp [hheld]), hnone]
    · rw [hstep, idle, if_neg (by simp [hheld]), hone]
    · rw [hstep]
      exact idle_several hheld hdue
  case time =>
    intro down
    have hdown : down = tick := funext fun t => by cases t <;> rfl
    clear_value down
    subst hdown
    simp only [Bool.decide_and]
    rfl
  case due =>
    rw [mem_dueCommands]
    simp only [mem_dueLink, mem_dueIssuer, mem_dueGuard, mem_duePen, mem_dueLine, mem_dueSleep]
    cases c
    case filterTimerExpiry cause => cases cause <;> simp
    case blinkPhaseExpiry line | stretchTimerExpiry line => cases line <;> simp
    case discardTimerExpiry target command => simp; grind
    all_goals simp

/-- Settles O6. -/
theorem coldResetLeavesTheResetState : Obligations.ColdResetLeavesTheResetState := by
  intro s
  refine ⟨?state, fun hpage => ?kept, fun k bytes hwrite hwf =>
    ⟨fun hsaving => cutOffContents_saving s k bytes hwrite hsaving hwf, cutOffContents_oldOrNone s hwf, cutOffContents_read s k bytes hwrite hwf⟩⟩
  case state => rw [exec_coldReset, finish_coldReset, coldReset_eq]
  case kept =>
    unfold cutOffContents
    split
    · next k bytes hwrite => exact absurd hwrite (hpage k bytes)
    · rfl

end Sys2Proof
/-! PROOFS. The end of a change: the policy engine's actions and the transmitters' choices (R8, R15, R164 to R167); RESTART. -/
namespace Sys2Proof.Machine

/-! ## The transmitters (R8, R9, R15) -/

/-- The first of a list that a search takes is found when the search takes none before it. -/
theorem findSome?_of_first {α β : Type} [DecidableEq α] {f : α → Option β} {k : α} {b : β} (hk : f k = some b) :
    ∀ l : List α, k ∈ l → (∀ j, l.idxOf j < l.idxOf k → f j = none) → l.findSome? f = some b
  | a :: r, hmem, hbefore => by
    by_cases ha : a = k
    · rw [List.findSome?_cons, ha, hk]
    · have hnone : f a = none := hbefore a (by rw [List.idxOf_cons_self, List.idxOf_cons_ne r ha]; exact Nat.succ_pos _)
      have hrest : k ∈ r := (List.mem_cons.mp hmem).resolve_left (Ne.symm ha)
      rw [List.findSome?_cons, hnone]
      refine findSome?_of_first hk r hrest fun j hj => ?_
      by_cases hja : a = j
      · exact hja ▸ hnone
      · exact hbefore j (by rw [List.idxOf_cons_ne r hja, List.idxOf_cons_ne r ha]; exact Nat.succ_lt_succ hj)

/-- Every kind of notice has its place in the order of R201. -/
theorem NoticeKind.mem_inOrder (k : NoticeKind) : k ∈ NoticeKind.inOrder := by cases k <;> decide

/-- A pending notice with none pending below it is the lowest. -/
theorem lowestPending_eq_some {m : PerKind (Option Pending)} {k : NoticeKind} {p : Pending} (hk : m.get k = some p)
    (hbelow : ∀ j, NoticeKind.inOrder.idxOf j < NoticeKind.inOrder.idxOf k → m.get j = none) : lowestPending m = some p :=
  findSome?_of_first hk _ k.mem_inOrder hbelow

theorem lowestPending_eq_none {m : PerKind (Option Pending)} (h : ∀ k, m.get k = none) : lowestPending m = none := by
  simp [lowestPending, List.findSome?_eq_none_iff, h]

/-- While it sends the uplink transmitter starts nothing. -/
theorem startTransmit_of_sending {s : State} (h : s.tx ≠ .idle) : startTransmit s = s := by
  unfold startTransmit
  split
  · next hidle => exact absurd hidle h
  · rfl

/-- IDLE with no reply waiting and the host listening it starts the lowest notice, or the head of the upstream queue. -/
theorem startTransmit_of_listening {s : State} (hidle : s.tx = .idle) (hholder : s.mgmt.holder = none)
    (hlistens : hostListens s.sleep.power = true) : startTransmit s =
      (match lowestPending s.mgmt.notices with
       | some p => { s with tx := .notice p, mgmt := { s.mgmt with notices := s.mgmt.notices.set p.notice.kind none } }
       | none => if s.pool.up = [] then s else { s with tx := .data }) := by
  simp only [startTransmit, hidle, hholder, hlistens]
  rfl

/-! ## The policy engine (R164 to R167) -/

/-- The base condition of an entry (R166). -/
theorem baseCondHolds_iff (c : BaseCond) (s : State) : baseCondHolds c s = true ↔
    (c = .attached → s.link.state = .ready ∨ s.link.state = .quiet) ∧ (c = .absent → s.att.present = false) := by
  cases c <;> simp [baseCondHolds, isUp_iff]

/-- The pen condition of an entry (R166). -/
theorem penCondHolds_iff (c : PenCond) (s : State) : penCondHolds c s = true ↔
    (c = .docked → s.pen.docked = true) ∧ (c = .undocked → s.pen.docked = false) := by
  cases c <;> simp [penCondHolds]

/-- The two posture sets are looked at for POSTURE-CHANGED alone (R166). -/
theorem setsHold_iff (e : PolicyEntry) (ev : PolicyEvent) : setsHold e ev = true ↔
    ∀ old new, ev = .postureChanged old new → inPostures e.fromSet old = true ∧ inPostures e.toSet new = true := by
  cases ev <;> simp [setsHold]

/-- The number of the switch that an action sets, 0 for the sleep actions, which set none. -/
def switchNumber : PolicyAction → Nat
  | .orientLock | .orientFree => 1
  | .chargeHold | .chargeAllow => 2
  | .budgetProfile _ => 3
  | .indicate .line1 _ _ => 4
  | .indicate .line2 _ _ => 5
  | .sleepBegin | .sleepCancel | .wake => 0

/-- The number of a switch. -/
def Switch.number : Switch → Nat
  | .lock => 1
  | .hold => 2
  | .profile => 3
  | .line .line1 => 4
  | .line .line2 => 5

theorem Switch.number_pos (w : Switch) : 1 ≤ w.number := by
  cases w
  case line l => cases l <;> decide
  all_goals decide

theorem Switch.number_inj {w v : Switch} (h : w.number = v.number) : w = v := by
  revert h
  cases w <;> cases v
  case line.line l k => cases l <;> cases k <;> simp [Switch.number]
  case line.lock l | line.hold l | line.profile l => cases l <;> simp [Switch.number]
  case lock.line l | hold.line l | profile.line l => cases l <;> simp [Switch.number]
  all_goals simp [Switch.number]

/-- The number of an action is that of its switch. -/
theorem switchNumber_eq (a : PolicyAction) : switchNumber a = ((switchOf a).map Switch.number).getD 0 := by
  cases a
  case indicate line _ _ => cases line <;> rfl
  all_goals rfl

/-- An action of number 0 sets no switch. -/
theorem switchNumber_beq_zero : (fun a => switchNumber a == 0) = fun a => (switchOf a).isNone := by
  funext a
  rw [switchNumber_eq]
  cases switchOf a with
  | none => rfl
  | some w => simpa using Nat.ne_of_gt w.number_pos

/-- A number above 0 is that of one switch, or of none. -/
theorem switchNumber_beq (n : Nat) (hn : 1 ≤ n) :
    (∃ w, (fun a => switchNumber a == n) = fun a => switchOf a == some w) ∨ ∀ a, (switchNumber a == n) = false := by
  by_cases hw : ∃ w : Switch, w.number = n
  · obtain ⟨w, rfl⟩ := hw
    refine .inl ⟨w, funext fun a => ?_⟩
    rw [switchNumber_eq]
    cases switchOf a with
    | none => simpa using Nat.ne_of_lt hn
    | some v => exact Bool.eq_iff_iff.mpr (by simpa using ⟨Switch.number_inj, congrArg Switch.number⟩)
  · refine .inr fun a => ?_
    rw [switchNumber_eq]
    cases switchOf a with
    | none => simpa using Nat.ne_of_lt hn
    | some v => simpa using fun hv => hw ⟨v, hv⟩

/-- Of the gathered actions of one number above 0 the last stands (R167). -/
theorem reduceActions_number (l : List PolicyAction) (n : Nat) (hn : 1 ≤ n) :
    (reduceActions l).filter (fun a => switchNumber a == n) = (l.filter (fun a => switchNumber a == n)).getLast?.toList := by
  obtain ⟨w, hw⟩ | hnone := switchNumber_beq n hn
  · rw [hw]
    exact reduceActions_switch w l
  · simp [hnone]

end Sys2Proof.Machine

namespace Sys2Proof
open Machine

/-- Settles O5. -/
theorem transmitterChoosesInOrder : Obligations.TransmitterChoosesInOrder := by
  intro s
  refine ⟨fun hsends => startTransmit_of_sending hsends, fun hidle hholder => ?reply, fun hidle hholder hdeaf => ?deaf,
    fun k p hidle hholder hlistens hk hkind hbelow => ?notice, fun hidle hholder hlistens hnone => ?data, fun p => ?listens,
    fun hempty => if_pos hempty, fun hdown => ⟨fun hready => ⟨fun hdue hwindow => ?starts, fun hwaits => ?waits⟩,
      fun hquiet => ⟨fun hwake => ?wakes, fun hwake => ?waking⟩, fun hready hquiet => ?other⟩⟩
  case reply => simp [startTransmit, hidle, hholder]
  case deaf => simp [startTransmit, hidle, hholder, hdeaf]
  case notice => simp only [startTransmit_of_listening hidle hholder hlistens, lowestPending_eq_some hk hbelow, hkind]
  case data => simp only [startTransmit_of_listening hidle hholder hlistens, lowestPending_eq_none hnone]
  case listens => cases p <;> simp [hostListens]
  case starts => simp [kickHinge, hdown, hready, hdue, hwindow]
  case waits =>
    obtain hdue | hwindow := hwaits
    · simp [kickHinge, hdown, hready, hdue]
    · simp [kickHinge, hdown, hready, Option.isNone_eq_false_iff.mpr hwindow]
  case wakes => simp [kickHinge, hdown, hquiet, hwake, startMs, ms]
  case waking => simp [kickHinge, hdown, hquiet, Option.isNone_eq_false_iff.mpr hwake]
  case other =>
    unfold kickHinge
    rw [if_neg hdown]
    split
    · next hstate => exact absurd hstate hready
    · next hstate => exact absurd hstate hquiet
    · rfl

/-- Settles O4. -/
theorem endOfChangeFrame : Obligations.EndOfChangeFrame := by
  intro s
  refine ⟨finish_settled s, fun hnone => ?frame, fun ev hone => ?one, fun ev more hevents => ?several, fun ev e => ?matching,
    fun ev => ?standing, fun ev hunmatched => takeEvent_unmatched ev s hunmatched⟩
  case frame =>
    have hsent : (startTransmit (kickHinge s)).pool = (kickHinge s).pool ∧ (startTransmit (kickHinge s)).link = (kickHinge s).link := by
      simp
    have hkicked := kickHinge_eq s
    have hstarted := startTransmit_eq (kickHinge s)
    rw [finish_settled s hnone, hsent.1, hsent.2]
    calc startTransmit (kickHinge s)
        = { kickHinge s with
            tx := (startTransmit (kickHinge s)).tx
            mgmt := { (kickHinge s).mgmt with notices := (startTransmit (kickHinge s)).mgmt.notices } } := hstarted
      _ = _ := by
        generalize startTransmit (kickHinge s) = u
        rw [hkicked]
  case one => rw [finish, drainEvents, hone]; rfl
  case several => rw [finish, drainEvents, hevents]; rfl
  case matching =>
    simp only [policyMatches, Bool.and_eq_true, beq_iff_eq, baseCondHolds_iff, penCondHolds_iff, setsHold_iff, and_assoc]
  case standing =>
    intro switch
    have hswitch : switch = switchNumber := by
      funext a
      cases a
      case indicate line _ _ => cases line <;> rfl
      all_goals rfl
    clear_value switch
    subst hswitch
    refine ⟨actionsFor ev s, reduceActions_sublist _, ?free, fun n hn => reduceActions_number _ n hn, rfl⟩
    case free =>
      rw [switchNumber_beq_zero]
      exact reduceActions_free _

/-- Settles O8. -/
theorem restartKeepsWhatTheChaptersKeep : Obligations.RestartKeepsWhatTheChaptersKeep := by
  intro s hheld harmed
  have hrestart : exec .restartTakesEffect s = .next (restartHub s) := by
    rw [exec_of_running _ s hheld Instr.noConfusion, effect, if_pos harmed, finish_restartHub]
  refine ⟨fun hreply => ?lastByte, restartHub s, hrestart, ?kept⟩
  case lastByte =>
    rw [hrestart, exec_of_running _ s hheld Instr.noConfusion, effect, parcelSent, hreply]
    dsimp only
    rw [if_pos harmed, finish_restartHub]
    rfl
  case kept =>
    refine ⟨rfl, rfl, rfl, rfl, rfl, rfl, rfl, rfl, rfl, rfl, rfl, rfl, rfl, rfl, rfl, rfl, rfl, rfl, rfl, rfl, rfl, rfl, rfl, rfl,
      fun c hc => ?causes, ⟨rfl, rfl⟩, rfl, rfl, rfl, rfl, rfl, rfl, rfl⟩
    case causes =>
      cases c
      case dieOt => exact absurd rfl hc
      all_goals exact ⟨rfl, rfl, rfl, rfl⟩

end Sys2Proof

/-! PROOFS. The uplink: bytes and parcels that fail a check, the end of a parcel sent, and the frames of the host (R5 to R9, R26 to R34). -/
namespace Sys2Proof.Machine

/-! ## Single bytes (R5, R6) -/

/-- One byte from the host, as a command. -/
theorem exec_receiveFault_one (b : Byte) (s : State) (hheld : s.held = false) :
    exec (.receiveFault [b]) s = .next (finish (byteArrives s b)) :=
  exec_of_running _ s hheld Instr.noConfusion

/-- The last byte of a parcel completes it (R5). -/
theorem byteAdded_complete (m k t n : Byte) (l : List Byte) (s : State) (hl : l.length = n.toNat + 2) :
    byteAdded (m :: k :: t :: n :: l) s = parcelComplete (m :: k :: t :: n :: l) { s with rx := ⟨.receiving, m :: k :: t :: n :: l⟩ } := by
  cases l with
  | nil => simp at hl
  | cons x r => exact if_pos hl

/-- With the receiver not RECEIVING a parcel is handed on, as a command. -/
theorem exec_dataParcel_handsOn (tag : Byte) (payload : List Byte) (s : State) (hheld : s.held = false) (hrx : s.rx.mode ≠ .receiving) :
    exec (.dataParcel tag payload) s = .next (finish (dataHandedOn tag payload { s with rx := ⟨.idle, []⟩ })) := by
  rw [exec_of_running _ s hheld Instr.noConfusion, effect, parcelArrives_handsOn _ _ _ _ hrx, handOn, if_pos rfl]

/-- A payload whose channel or kind is out of range is an uplink error (R7). -/
theorem dataHandedOn_outOfRange (tag k : Byte) (rest : List Byte) (s : State)
    (h : tag = 0#8 ∨ 15 < tag.toNat ∨ k.toNat < 0x50 ∨ 0x7F < k.toNat) :
    dataHandedOn tag (k :: rest) s = { s with uplinkErrors := satInc s.uplinkErrors } := by
  have hrange : ¬ (1 ≤ tag.toNat ∧ tag.toNat ≤ 15 ∧ 0x50 ≤ k.toNat ∧ k.toNat ≤ 0x7F) := by
    rintro ⟨hlow, hhigh, hkind, hkind'⟩
    obtain rfl | h | h | h := h
    · simp at hlow
    all_goals omega
  rw [dataHandedOn, if_neg hrange]

/-- In range it is an UPLINK frame (R7). -/
theorem dataHandedOn_inRange (tag k : Byte) (rest : List Byte) (s : State)
    (h : 1 ≤ tag.toNat ∧ tag.toNat ≤ 15 ∧ 0x50 ≤ k.toNat ∧ k.toNat ≤ 0x7F) :
    dataHandedOn tag (k :: rest) s = routeFrame .uplink k rest false s := by
  rw [dataHandedOn, if_pos h]

/-! ## Frames of the host (R26 to R34) -/

/-- A frame of the host counted as received. -/
def hostFrameCounted (s : State) : State := changeIngress .uplink (fun c => { c with received := c.received + 1#16 }) s

/-- A frame of the host of at most 64 bytes is dropped without a running link and otherwise classified: it has no tap, and the declared kinds
are the base's. -/
theorem routeFrame_host (kind : Byte) (rest : List Byte) (s : State) (hstore : s.store.state ≠ .starting) (hshort : rest.length ≤ 64) :
    routeFrame .uplink kind rest false s =
      if s.link.state.isUp then classify .uplink kind rest false (hostFrameCounted s) else dropForLink (hostFrameCounted s) := by
  have hdeclared (u : State) : undeclared .uplink kind u = false := rfl
  rw [routeFrame, if_neg hstore, if_neg (by omega), if_neg Bool.false_ne_true, decideFrame, hdeclared, if_neg Bool.false_ne_true]
  cases hup : s.link.state.isUp with
  | true => exact if_neg (by simp [tapFrame, changeIngress, hup])
  | false => exact if_pos (by simp [tapFrame, changeIngress, hup])

/-- Without a link and with the mark set a frame of the host is counted (R26). -/
theorem dropForLink_marked (s : State) (h : s.route.noBase = true) :
    dropForLink s = changeIngress .uplink (fun c => { c with unmatched := satInc c.unmatched }) s := if_pos h

/-- The first after a change of link state is told as well (R26). -/
theorem dropForLink_first (s : State) (h : s.route.noBase = false) :
    dropForLink s = post (.link (.noBase s.link.state))
      { s with route := { (changeIngress .uplink (fun c => { c with unmatched := satInc c.unmatched }) s).route with noBase := true } } :=
  if_neg (Bool.eq_false_iff.mp h)

/-- A frame that no entry matches is counted (R28). -/
theorem classify_unmatched (src : Source) (kind : Byte) (payload : List Byte) (damaged : Bool) (s : State)
    (hnone : matchedEntry src kind s = none) :
    classify src kind payload damaged s = changeIngress src (fun c => { c with unmatched := satInc c.unmatched }) s := by
  rw [classify, hnone]

/-- An undamaged frame is thinned at the entry that it matches (R31). -/
theorem classify_matched (src : Source) (kind : Byte) (payload : List Byte) (s : State) (i : Nat) (e : RouteEntry)
    (hentry : matchedEntry src kind s = some i) (he : s.route.table[i]? = some e) :
    classify src kind payload false s = thinFrame src kind payload false i e s := by
  simp only [classify, hentry, he]
  exact if_neg (by simp)

end Sys2Proof.Machine

namespace Sys2Proof
open Machine

/-- Settles O14. -/
theorem parcelSentReleasesItsSource : Obligations.ParcelSentReleasesItsSource := by
  intro s hrun
  have hexec : exec .parcelSent s = .next (finish (parcelSent s)) := exec_of_running _ s hrun.1 Instr.noConfusion
  refine ⟨fun hidle => ?idle, fun p hnotice => ?notice, fun hdata => ?data, fun hreply hnone hempty => ?last,
    fun q rest hreply hnone hwaiting hstore hq => ?next⟩
  case idle => rw [hexec, parcelSent, hidle]
  case notice => rw [hexec, parcelSent, hnotice]
  case data => rw [hexec, parcelSent, hdata]
  case last =>
    rw [hexec, parcelSent, hreply]
    simp [hnone, engineTakes, hempty]
  case next =>
    rw [hexec, parcelSent, hreply]
    simp [hnone, engineTakes, hwaiting, takeRequest, hstore, hq, reply]

/-- Settles O11. -/
theorem badBytesAndParcelsAreCounted : Obligations.BadBytesAndParcelsAreCounted := by
  intro s hrun
  have hbyte (b : Byte) := exec_receiveFault_one b s hrun.1
  refine ⟨fun b => ⟨fun hidle hb => ?idle, fun hhunting hb => ?hunting, fun hrx hdata hrequest => ?kind, fun k t hrx hlong => ?length,
    fun k t n rest hrx hcomplete hcheck => ?crc⟩, fun tag payload hrx => ?parcels⟩
  case idle => rw [hbyte, byteArrives, hidle]; simp only [if_neg hb]; rfl
  case hunting => rw [hbyte, byteArrives, hhunting]; simp only [if_neg hb]
  case kind =>
    rw [hbyte, byteArrives, hrx]
    simp [byteAdded, hdata, hrequest, receiveFaults]
  case length =>
    rw [hbyte, byteArrives, hrx]
    simp [byteAdded, hlong, receiveFaults]
  case crc =>
    rw [hbyte, byteArrives, hrx]
    have hlength : (rest ++ [b]).length = n.toNat + 2 := by simp [hcomplete]
    simp only [List.cons_append, byteAdded_complete _ _ _ _ _ _ hlength, parcelComplete, if_neg hcheck]
    rfl
  case parcels =>
    have hexec := exec_dataParcel_handsOn tag payload s hrun.1 hrx
    refine ⟨?empty, ?range, ?starting⟩
    case empty =>
      rintro rfl
      exact hexec
    case range =>
      rintro k rest rfl hrange
      rw [hexec, dataHandedOn_outOfRange _ _ _ _ hrange]
    case starting =>
      rintro k rest rfl hlow hhigh hkind hkind' hstarting
      rw [hexec, dataHandedOn_inRange _ _ _ _ ⟨hlow, hhigh, hkind, hkind'⟩, routeFrame, if_pos hstarting]

/-- Settles O13. -/
theorem hostFramesAreRouted : Obligations.HostFramesAreRouted := by
  intro s tag kind rest hrun hstore hrx htag htag' hkind hkind' hshort
  let arrived := hostFrameCounted { s with rx := ⟨.idle, []⟩ }
  have hexec : exec (.dataParcel tag (kind :: rest)) s =
      .next (finish (if s.link.state.isUp then classify .uplink kind rest false arrived else dropForLink arrived)) := by
    rw [exec_dataParcel_routes tag kind rest s hrun hrx ⟨htag, htag'⟩ ⟨hkind, hkind'⟩,
      routeFrame_host kind rest { s with rx := ⟨.idle, []⟩ } hstore hshort]
  refine ⟨fun hdown hmark => ?again, fun hdown hmark => ?first, fun hup hnone => ?unmatched, fun i e hup he hmatches hlow => ?matched⟩
  case again =>
    rw [hexec, if_neg (by simp [hdown])]
    rw [dropForLink_marked arrived hmark]
    rfl
  case first =>
    rw [hexec, if_neg (by simp [hdown])]
    rw [dropForLink_first arrived hmark]
    rfl
  case unmatched =>
    rw [hexec, if_pos hup, classify_unmatched _ _ _ _ _ (matchedEntry_none _ _ arrived hnone)]
    rfl
  case matched =>
    rw [if_pos hup, classify_matched _ _ _ arrived i e (matchedEntry_lowest _ _ arrived i e he hmatches hlow) he] at hexec
    let acted : State :=
      { arrived with route := { arrived.route with table := s.route.table.set i { e with phase := 0, passed := e.passed + 1#16 } } }
    have hset (e' : RouteEntry) : (s.route.table.set i e')[i]? = some e' := by
      obtain ⟨hi, -⟩ := List.getElem?_eq_some_iff.mp he
      simp [hi]
    have hroomy (p : Pool) (hroom : s.pool.admitDown ⟨some .uplink, kind, .base, rest, false, .routed, []⟩ = some p) :
        forwardFrame .uplink kind rest false i e.fields.dest acted = { acted with pool := p } :=
      forwardFrame_down _ _ _ _ _ acted p hroom
    have hcrowded (hfull : s.pool.admitDown ⟨some .uplink, kind, .base, rest, false, .routed, []⟩ = none) :
        forwardFrame .uplink kind rest false i e.fields.dest acted =
          { acted with route := { acted.route with
              table := s.route.table.set i { e with phase := 0, passed := e.passed + 1#16, queueFull := satInc e.queueFull }
              ingress := acted.route.ingress.set .uplink
                { acted.route.ingress.uplink with overrun := satInc acted.route.ingress.uplink.overrun } } } := by
      rw [forwardFrame_full .uplink kind rest false i e.fields.dest acted _ (hset _) ((if_pos rfl).mpr hfull)]
      simp only [acted, List.set_set]
      rfl
    have hdone {u : State} (v : State) (hu : exec (.dataParcel tag (kind :: rest)) s = .next (finish u)) (huv : u = v) :
        exec (.dataParcel tag (kind :: rest)) s = .next (finish v) := huv ▸ hu
    refine ⟨fun hthin => ?thins, fun p hkeep haction hroom => ?forwards, fun hkeep haction hfull => ?full, fun hkeep =>
      ⟨fun haction => ?drops, fun haction => ?wakes, fun p haction hroom => ?forwardsWakes, fun haction hfull => ?fullWakes⟩⟩
    case thins => exact hdone _ hexec (thinFrame_thins _ _ _ _ _ _ arrived he hthin)
    all_goals
      rw [thinFrame_acts _ _ _ _ _ _ arrived he hkeep] at hexec
      simp only [haction] at hexec
    case forwards => exact hdone _ hexec (hroomy p hroom)
    case full => exact hdone _ hexec (hcrowded hfull)
    case drops | wakes => exact hexec
    case forwardsWakes => exact hdone _ hexec (congrArg (wakeClaim (.frame .uplink)) (hroomy p hroom))
    case fullWakes => exact hdone _ hexec (congrArg (wakeClaim (.frame .uplink)) (hcrowded hfull))

end Sys2Proof
/-! PROOFS. A REQUEST parcel reaches the engine as the request that its bytes are (R7, R189 to R194). -/
namespace Sys2Proof.Machine

/-! ## The bytes of the request commands (R193, R194) -/

/-- The code and the payload of a request command; the code of UNKNOWN_REQUEST is none of the hub's. -/
def requestForm : Instr → Option (Byte × List Byte)
  | .unknownRequest _ => none
  | c => (requestOf c).map (fun q => (requestCode q, requestBytes q))

/-- The request command of a request whose arguments a payload can say. -/
def commandOf : Request → Instr
  | .routeWrite i e => .routeTableWrite i e
  | .windowWrite i w => .windowTableWrite i w
  | .policyWrite i e => .policyTableWrite i e
  | .routeRead i => .routeTableRead i
  | .windowRead i => .windowTableRead i
  | .policyRead i => .policyTableRead i
  | .countersUplink => .countersReadUplink
  | .countersRoute => .countersReadRoute
  | .countersIssuer => .countersReadIssuer
  | .countersPosture => .countersReadPosture
  | .recordPosture => .recordReadPosture
  | .recordOrientation => .recordReadOrientation
  | .recordAttachment => .recordReadAttachment
  | .recordCharge => .recordReadCharge
  | .recordSupply => .recordReadSupply
  | .recordSleep => .recordReadSleep
  | .recordStore => .recordReadStore
  | .splitSet d => .splitSet d
  | .settingsSet a => .settingsSet a
  | .baseRequest t k data => .baseRequest t k data
  | .baseReset => .baseReset
  | .linkDiagnose => .linkDiagnose
  | .alarmRead => .alarmRead
  | .alarmClear m => .alarmClear m
  | .guardSet a => .guardSet a
  | .budgetSet a => .budgetSet a
  | .chargeLevel l => .chargeSetLevel l
  | .chargeHold => .chargeSetHold
  | .chargeRelease => .chargeSetRelease
  | .chargeRestart => .chargeSetRestart
  | .orientLock => .orientSetLock
  | .orientFree => .orientSetFree
  | .indicateSet l s p => .indicateSet l s p
  | .sleepConfirm => .sleepConfirm
  | .sleepDecline => .sleepDecline
  | .hostSleep => .hostSleep
  | .storeSave => .storeSave
  | .storeErase => .storeErase
  | .restart => .restart
  | .hello | .refused _ | .unknown _ => .hello

/-- A request whose arguments fit is that of a well-formed command. -/
theorem commandOf_wf (q : Request) (h : requestFits q) :
    (commandOf q).wf = true ∧ requestForm (commandOf q) = some (requestCode q, requestBytes q) := by
  cases q
  case refused | unknown => exact absurd h id
  all_goals simp_all [commandOf, requestForm, requestOf, requestFits, Instr.wf, fits8]

/-- A well-formed request command hands on a request whose arguments fit, with the code and the bytes of its form. -/
theorem requestForm_fits {c : Instr} {code : Byte} {payload : List Byte} (hwf : c.wf = true) (h : requestForm c = some (code, payload)) :
    ∃ q, requestOf c = some q ∧ requestFits q ∧ requestCode q = code ∧ requestBytes q = payload := by
  cases c
  case unknownRequest => exact absurd h (Option.some_ne_none _).symm
  all_goals first
    | exact absurd h (Option.some_ne_none _).symm
    | refine ⟨_, rfl, ?_, congrArg Prod.fst (Option.some.inj h), congrArg Prod.snd (Option.some.inj h)⟩
  all_goals simp_all [requestFits, Instr.wf, fits8]

/-- A parcel with the form of a request command reads as its request. -/
theorem parseRequest_form {c : Instr} {code : Byte} {payload : List Byte} (hwf : c.wf = true) (h : requestForm c = some (code, payload)) :
    requestOf c = some (parseRequest code payload) := by
  obtain ⟨q, hq, hfits, rfl, rfl⟩ := requestForm_fits hwf h
  rw [hq, parseRequest_reads q hfits]

/-- A payload of no command's form is REFUSED (R192). -/
theorem parseRequest_noForm {code : Byte} {payload : List Byte} (hlow : 1 ≤ code.toNat) (hhigh : code.toNat ≤ 0x17)
    (h : ∀ c : Instr, c.wf = true → requestForm c ≠ some (code, payload)) : parseRequest code payload = .refused code := by
  refine parseRequest_refused code payload (by simp [isRequestCode, hlow, hhigh]) fun q hfits hcode hbytes => ?_
  obtain ⟨hwf, hform⟩ := commandOf_wf q hfits
  exact h _ hwf (by rw [hform, hcode, hbytes])

/-! ## The engine (R189, R190, R192) -/

/-- With the receiver not RECEIVING a REQUEST parcel's request arrives, as a command. -/
theorem exec_requestParcel (code : Byte) (payload : List Byte) (s : State) (hheld : s.held = false) (hrx : s.rx.mode ≠ .receiving) :
    exec (.requestParcel code payload) s =
      .next (finish (requestArrives (parseRequest code payload) { s with rx := ⟨.idle, []⟩ })) := by
  rw [exec_of_running _ s hheld Instr.noConfusion, effect, parcelArrives_handsOn _ _ _ _ hrx, handOn, if_neg (by decide)]

/-- A request command's request arrives, as a command. -/
theorem exec_requestOf {c : Instr} {q : Request} (hq : requestOf c = some q) (s : State) (hheld : s.held = false) :
    exec c s = .next (finish (requestArrives q s)) := by
  rw [exec_of_running c s hheld (by rintro rfl; cases hq), effect_of_request hq]

/-- With four requests waiting one more is dropped and counted (R190). -/
theorem requestArrives_full (q : Request) (s : State) (h : 4 ≤ s.mgmt.intake.length) :
    requestArrives q s = { s with mgmt := { s.mgmt with overrun := satInc s.mgmt.overrun } } := if_pos h

/-- While a reply is in the holder a request waits (R189). -/
theorem requestArrives_waits (q : Request) (s : State) (h : s.mgmt.intake.length < 4) (hholder : s.mgmt.holder.isSome = true) :
    requestArrives q s = { s with mgmt := { s.mgmt with intake := s.mgmt.intake ++ [q] } } := by
  rw [requestArrives, if_neg (by omega), engineTakes, if_neg (by simp [Option.isSome_iff_ne_none.mp hholder])]

/-- During start-up the engine answers STARTING (R192). -/
theorem requestArrives_starting (q : Request) (s : State) (hempty : s.mgmt.intake = []) (hholder : s.mgmt.holder = none)
    (hrestart : s.mgmt.restart = .none) (hstore : s.store.state = .starting) :
    requestArrives q s = { s with mgmt := { s.mgmt with holder := some ⟨requestCode q, .starting, []⟩ } } := by
  rw [requestArrives, if_neg (by simp [hempty]), engineTakes]
  simp [hempty, hholder, hrestart, takeRequest, hstore, reply]

end Sys2Proof.Machine

namespace Sys2Proof
open Machine

/-- Settles O15. -/
theorem requestParcelsReachTheEngine : Obligations.RequestParcelsReachTheEngine := by
  intro s code payload hrun hrx
  have hexec := exec_requestParcel code payload s hrun.1 hrx
  refine ⟨fun hfull => ?full, fun hroom hholder => ?waits, fun hempty hholder hrestart hstore => ?starting, fun hatt hcode => ?unknown, ?bytes⟩
  case full => rw [hexec, requestArrives_full _ { s with rx := ⟨.idle, []⟩ } hfull]
  case waits => rw [hexec, requestArrives_waits _ { s with rx := ⟨.idle, []⟩ } hroom hholder]
  case starting => rw [hexec, requestArrives_starting _ { s with rx := ⟨.idle, []⟩ } hempty hholder hrestart hstore]
  case unknown =>
    have hparse (bytes : List Byte) : parseRequest code bytes = .unknown code := by
      rw [parseRequest, if_neg (Bool.eq_false_iff.mp hcode)]
    refine ⟨?parcel, ?command⟩
    case parcel =>
      rw [hexec, hparse, request_taken { s with rx := ⟨.idle, []⟩ } (.unknown code) hatt Request.noConfusion]
      rfl
    case command =>
      have harrives : exec (.unknownRequest code) s = .next (run (requestArrives (.unknown code)) s) := by
        rw [← hparse []]
        rfl
      exact replies_of hatt harrives Request.noConfusion rfl
  case bytes =>
    intro one word two opt flag action form
    have hopt (f : Nat → List Byte) (o : Option Nat) : opt f o = encOpt f o := by cases o <;> rfl
    have hflag (o : Option Bool) : flag o = encOpt encTwo o := by cases o <;> rfl
    have haction : action = encRawAction := by
      funext a
      cases a
      case indicate => exact List.append_assoc ..
      all_goals rfl
    have hbytes : one = enc8 ∧ word = enc16 ∧ two = encTwo := ⟨rfl, rfl, rfl⟩
    have hform : form = requestForm := by
      obtain ⟨hone, hword, htwo⟩ := hbytes
      funext c
      cases c
      case chargeSetLevel l => cases l <;> rfl
      case routeTableWrite =>
        simp only [form, requestForm, requestOf, Option.map_some, requestCode, requestBytes, encRawRoute, hopt, hone, hword, htwo,
          List.append_assoc]
        rfl
      case policyTableWrite =>
        simp only [form, requestForm, requestOf, Option.map_some, requestCode, requestBytes, encRawPolicy, encList, haction, hone, htwo,
          List.append_assoc]
        rfl
      case baseRequest =>
        simp [form, requestForm, requestOf, requestCode, requestBytes, encRun, hone, enc8]
      case settingsSet | budgetSet =>
        simp only [form, requestForm, requestOf, Option.map_some, requestCode, requestBytes, encRawSettings, encRawBudget, hopt, hone,
          hword, List.append_assoc]
      case guardSet =>
        simp only [form, requestForm, requestOf, Option.map_some, requestCode, requestBytes, encRawGuard, hopt, hflag, hone,
          List.append_assoc]
      all_goals rfl
    clear_value form
    subst hform
    refine ⟨fun c hwf hc => ?reads, fun hatt hlow hhigh hnone => ?refused⟩
    case reads => rw [hexec, exec_requestOf (parseRequest_form hwf hc) { s with rx := ⟨.idle, []⟩ } hrun.1]
    case refused =>
      rw [hexec, parseRequest_noForm hlow hhigh hnone, request_taken { s with rx := ⟨.idle, []⟩ } (.refused code) hatt Request.noConfusion]
      rfl

end Sys2Proof
/-! PROOFS. The bytes on the two links: a parcel taken byte by byte, and what stands on each line (R1 to R3, R201). -/
namespace Sys2Proof.Machine

/-! ## A parcel byte by byte (R1, R5) -/

theorem bytesArrive_cons (b : Byte) (l : List Byte) (s : State) : bytesArrive (b :: l) s = bytesArrive l (byteArrives s b) := rfl

/-- A byte before the last leaves the parcel in the receive buffer (R5). -/
theorem byteAdded_incomplete (m k t n x : Byte) (l : List Byte) (s : State) (hl : (x :: l).length ≠ n.toNat + 2) :
    byteAdded (m :: k :: t :: n :: x :: l) s = { s with rx := ⟨.receiving, m :: k :: t :: n :: x :: l⟩ } := if_neg hl

/-- A byte while a parcel is being received is added to it. -/
theorem byteArrives_receiving (b : Byte) (s : State) (hmode : s.rx.mode = .receiving) : byteArrives s b = byteAdded (s.rx.buf ++ [b]) s := by
  rw [byteArrives, hmode]

/-- The bytes after the length are added up to the last, which completes the parcel. -/
theorem bytesArrive_rest (m k t n : Byte) : ∀ (l before : List Byte) (s : State), s.rx = ⟨.receiving, m :: k :: t :: n :: before⟩ →
    l ≠ [] → before.length + l.length = n.toNat + 2 →
    bytesArrive l s = parcelComplete (m :: k :: t :: n :: (before ++ l)) { s with rx := ⟨.receiving, m :: k :: t :: n :: (before ++ l)⟩ }
  | [], _, _, _, hnil, _ => absurd rfl hnil
  | [b], before, s, hrx, _, hlength => by
    have hfull : (before ++ [b]).length = n.toNat + 2 := by simpa using hlength
    rw [bytesArrive_cons, byteArrives_receiving b s (by rw [hrx]), hrx]
    exact byteAdded_complete m k t n (before ++ [b]) s hfull
  | b :: c :: l, before, s, hrx, _, hlength => by
    have hstill : byteArrives s b = { s with rx := ⟨.receiving, m :: k :: t :: n :: (before ++ [b])⟩ } := by
      rw [byteArrives_receiving b s (by rw [hrx]), hrx]
      cases before with
      | nil => exact byteAdded_incomplete m k t n b [] s (by simp at hlength ⊢)
      | cons x before => exact byteAdded_incomplete m k t n x (before ++ [b]) s (by simp at hlength ⊢; omega)
    rw [bytesArrive_cons, hstill, bytesArrive_rest m k t n (c :: l) (before ++ [b]) _ rfl (List.cons_ne_nil _ _) (by simp at hlength ⊢; omega)]
    simp only [List.append_assoc, List.singleton_append]

/-- The marker is taken by a receiver that is IDLE or HUNTING (R5). -/
theorem byteArrives_marker (s : State) (hrx : s.rx.mode ≠ .receiving) : byteArrives s 0xD3#8 = { s with rx := ⟨.receiving, [0xD3#8]⟩ } := by
  unfold byteArrives
  split
  · exact if_pos rfl
  · next hmode => exact absurd hmode hrx
  · exact if_pos rfl

/-- The header of a DATA or REQUEST parcel of at most 240 bytes is taken (R5). -/
theorem bytesArrive_header (kind tag n : Byte) (s : State) (hrx : s.rx.mode ≠ .receiving) (hkind : kind = 0x01#8 ∨ kind = 0x02#8)
    (hn : n.toNat ≤ 240) : bytesArrive [0xD3#8, kind, tag, n] s = { s with rx := ⟨.receiving, [0xD3#8, kind, tag, n]⟩ } := by
  rw [bytesArrive_cons, byteArrives_marker s hrx, bytesArrive_cons, byteArrives_receiving _ _ rfl]
  have hkinded (u : State) : byteAdded [0xD3#8, kind] u = { u with rx := ⟨.receiving, [0xD3#8, kind]⟩ } := if_pos hkind
  have hlength (u : State) : byteAdded [0xD3#8, kind, tag, n] u = { u with rx := ⟨.receiving, [0xD3#8, kind, tag, n]⟩ } :=
    if_neg (Nat.not_lt.mpr hn)
  simp only [List.singleton_append, hkinded]
  rw [bytesArrive_cons, byteArrives_receiving _ _ rfl, bytesArrive_cons, byteArrives_receiving _ _ rfl]
  exact hlength _

/-- The bytes of a good parcel hand it on, with the receiver IDLE after them (R5, R7). -/
theorem bytesArrive_parcel (kind tag : Byte) (payload : List Byte) (s : State) (hrx : s.rx.mode ≠ .receiving)
    (hkind : kind = 0x01#8 ∨ kind = 0x02#8) (hlong : payload.length ≤ 240) :
    bytesArrive (parcelBytes kind tag payload) s = handOn kind tag payload { s with rx := ⟨.idle, []⟩ } := by
  have hn : (BitVec.ofNat 8 payload.length).toNat = payload.length := by simp; omega
  have hcrc : (encWord (crc16 (kind :: tag :: encRun payload))).length = 2 := rfl
  have hbytes : parcelBytes kind tag payload =
      [0xD3#8, kind, tag, BitVec.ofNat 8 payload.length] ++ (payload ++ encWord (crc16 (kind :: tag :: encRun payload))) := by
    simp [parcelBytes, encRun]
  rw [hbytes, bytesArrive, List.foldl_append]
  change bytesArrive _ (bytesArrive _ s) = _
  rw [bytesArrive_header _ _ _ s hrx hkind (by omega),
    bytesArrive_rest _ _ _ _ _ [] _ rfl (List.ne_nil_of_length_pos (by simp [hcrc])) (by simp [hn, hcrc])]
  simp only [List.nil_append, parcelComplete, hn, List.take_left, List.drop_left]
  exact if_pos rfl

/-- The bytes of a parcel have the effect of the parcel command. -/
theorem exec_receiveFault_parcel (kind tag : Byte) (payload : List Byte) (s : State) (hheld : s.held = false) (hrx : s.rx.mode ≠ .receiving)
    (hkind : kind = 0x01#8 ∨ kind = 0x02#8) (hlong : payload.length ≤ 240) :
    exec (.receiveFault (parcelBytes kind tag payload)) s = .next (finish (parcelArrives kind tag payload s)) := by
  rw [exec_of_running _ s hheld Instr.noConfusion, effect, bytesArrive_parcel kind tag payload s hrx hkind hlong,
    parcelArrives_handsOn _ _ _ _ hrx]

/-! ## The CRCs and the words -/

theorem crc16_append (l : List Byte) (b : Byte) : crc16 (l ++ [b]) = crc16Byte (crc16 l) b := by simp [crc16]

theorem crc8_append (l : List Byte) (b : Byte) : crc8 (l ++ [b]) = crc8Byte (crc8 l) b := by simp [crc8]

/-- A word is sent most significant byte first. -/
theorem encWord_eq (w : Word16) : encWord w = [w.extractLsb' 8 8, w.extractLsb' 0 8] := by
  have hhigh : BitVec.ofNat 8 (w.toNat / 256) = w.extractLsb' 8 8 := BitVec.eq_of_toNat_eq (by simp [Nat.shiftRight_eq_div_pow])
  have hlow : BitVec.ofNat 8 w.toNat = w.extractLsb' 0 8 := BitVec.eq_of_toNat_eq (by simp)
  rw [encWord, enc16, hhigh, hlow]

/-- The code of a status is its place in the list of R191. -/
theorem statusCode_eq (st : Status) : [statusCode st] =
    enc8 ([Status.ok, .accepted, .retry, .full, .mismatch, .notAttached, .baseRefused, .noResponse, .gaveUp, .gone, .busy, .refused, .locked,
      .notAsked, .unknown, .starting].idxOf st) := by
  cases st <;> decide

end Sys2Proof.Machine

namespace Sys2Proof
open Machine

/-- Settles O10. -/
theorem bytesMakeTheParcel : Obligations.BytesMakeTheParcel := by
  refine ⟨fun s tag payload hheld hrx hlong => ⟨?data, ?request⟩, ?crcs, fun kind tag payload => ?parcel, fun s => ?lines⟩
  case data =>
    rw [exec_receiveFault_parcel _ _ _ s hheld hrx (.inl rfl) hlong, exec_of_running _ s hheld Instr.noConfusion, effect]
  case request =>
    rw [exec_receiveFault_parcel _ _ _ s hheld hrx (.inr rfl) hlong, exec_of_running _ s hheld Instr.noConfusion, effect]
  case crcs => exact ⟨rfl, crc16_append, rfl, crc8_append⟩
  case parcel => simp [parcelBytes, encRun, encWord_eq]
  case lines =>
    intro one word two opt at_ posture orientation session cause pin grant cap power linkState source event
    have hopt {α : Type} (f : α → List Byte) (o : Option α) : encOpt f o = opt f o := by cases o <;> rfl
    have hgrant (l : Option PenLevel) : encGrant l = grant l := by
      cases l with
      | none => rfl
      | some l => cases l <;> rfl
    have hpin (o : Option PinOutcome) : encGiven (encNamed pinOutcomeList) o = (match o with | none => [] | some x => pin x) := by
      cases o <;> rfl
    have hcause (c : BudgetCause) : [budgetCauseCode c] =
        at_ [BudgetCause.baseClaim, .baseRelease, .penClaim, .penRelease, .budget, .limit, .clear] c := by
      cases c <;> rfl
    refine ⟨fun hidle => ?idle, fun r hreply hr => ?reply, fun p hnotice => ?notice,
      fun f rest src n hdata hup hsrc hdest => ?frame, ?hinge⟩
    case idle => rw [parcelOnLine, hidle]
    case reply =>
      intro status
      have hstatus : [statusCode r.status] = status := statusCode_eq r.status
      rw [parcelOnLine, hreply, hr, ← hstatus]
      rfl
    case notice =>
      intro told
      have htold : told = (noticeCode p.notice.kind, noticeContent p.notice) := by
        obtain ⟨n, count⟩ := p
        cases n
        case start r => cases r <;> rfl
        case attach e =>
          cases e
          case attached src _ => cases src <;> rfl
          all_goals rfl
        case link c =>
          cases c
          case restored r => cases r <;> rfl
          case diagnosed a b c d =>
            exact congrArg (fun f => (5#8, 5#8 :: [a, b, c, d].flatMap f)) (funext fun o => (hpin o).symm)
          all_goals rfl
        case charge => simp only [noticeContent, hgrant]; rfl
        case alarm c taken g =>
          simp only [noticeContent]
          cases taken <;> cases g <;> simp only [encAlarmGrant, hgrant] <;> rfl
        case sleep c _ =>
          cases c
          case withdrawn w => cases w <;> rfl
          all_goals rfl
        case encoderFault c _ _ => cases c <;> rfl
        case budget => simp only [noticeContent, hgrant, hcause]; rfl
        all_goals rfl
      rw [parcelOnLine, hnotice, htold]
      rfl
    case frame =>
      rw [parcelOnLine, hdata, hup]
      simp only [List.head?_cons, Option.map_some, dataParcel, hsrc, hdest, channelOf, Option.getD_some]
      cases f.damaged <;> rfl
    case hinge =>
      refine ⟨fun hidle => if_neg (by simp [hidle]), fun f rest hbusy hdown => ?_, fun hnone => if_neg (by simp [hnone]),
        fun hsome => if_pos hsome⟩
      rw [frameOnHinge, if_pos hbusy, hdown]
      rfl

end Sys2Proof

/-! PROOFS. The requests: what a read answers and clears, and what the contents of the replies are, field by field. -/
namespace Sys2Proof
open Machine

namespace Machine

/-- A request command that arrives at an engine that is IDLE replies what its owner answers. -/
theorem replies_request {c : Instr} {q : Request} {s t : State} {st : Status} {content : List Byte} {code : Byte} (h : Attentive s)
    (hreq : requestOf c = some q) (hq : q ≠ .restart) (hcode : requestCode q = code) (ha : ownerAnswer q s = ⟨t, st, content⟩) :
    Replies c s code st content t := by
  have hline : c ≠ .resetLineAsserted := fun h => Option.some_ne_none q (hreq.symm.trans (h ▸ rfl))
  rw [Replies, exec_of_running c s h.1.1 hline, effect_of_request hreq, request_taken s q h hq, ha, ← hcode]
  rfl

theorem answerEntry_inside {α : Type} {size i : Nat} {table : List α} {enc : α → List Byte} {e : α} (s : State) (hi : i < size)
    (he : table[i]? = some e) : answerEntry size i table enc s = ⟨s, .ok, enc e⟩ := by
  rw [answerEntry, if_pos hi, he]

theorem answerEntry_outside {α : Type} {size i : Nat} {table : List α} {enc : α → List Byte} (s : State) (hi : size ≤ i) :
    answerEntry size i table enc s = ⟨s, .refused, []⟩ := by
  rw [answerEntry, if_neg (Nat.not_lt.mpr hi)]

end Machine

/-- Settles O16. -/
theorem readsAnswerAndOnlyCountersClear : Obligations.ReadsAnswerAndOnlyCountersClear := by
  refine ⟨fun s => ?contents, fun s hatt => ?replies⟩
  case contents =>
    intro one word long two opt at_ run posture orientation claimant pin note level grant cap source event led
      pattern bit p o i c g a z t profiles settings lines
    have hgrant (l : Option PenLevel) : encGrant l = grant l := by
      cases l with
      | none => rfl
      | some l => cases l <;> rfl
    have hlock : o.lock.isNone = (o.lock == none) := by cases o.lock <;> rfl
    have hhold : enc8 (match c.hold with | some src => position claimSourceList src | none => 3) =
        at_ [some ClaimSource.policy, some .request, none] c.hold := by
      cases c.hold with
      | none => rfl
      | some src => cases src <;> rfl
    have hlines : bothLines s = lines := by
      simp only [lines, List.flatMap_cons, List.flatMap_nil, List.append_nil]
      rfl
    refine ⟨rfl, ?orientation, rfl, ?charge, rfl, ?supply, hlines, ?sleep, ?store, ?route, ?entry, ?window, ?policy,
      ?settings, ?split, ?budget, ?causes⟩
    case orientation => rw [orientationRecord, hlock]; rfl
    case charge =>
      rw [chargeRecord, hgrant]
      exact congrArg₂ List.append rfl hhold
    case supply => rw [supplyRecord, hgrant]; rfl
    case sleep =>
      have htimer : runningTimer z =
          (match z.grace, z.confirm, z.wakeWindow with
           | some n, _, _ => 1#8 :: word ((n + 9) / 10)
           | none, some n, _ => 2#8 :: word ((n + 9) / 10)
           | none, none, some n => 3#8 :: word ((n + 9) / 10)
           | none, none, none => [4#8]) := by
        unfold runningTimer
        cases z.grace with
        | some n => rfl
        | none =>
          cases z.confirm with
          | some n => rfl
          | none => cases z.wakeWindow <;> rfl
      have hasleep : encOpt enc32 (timeAsleep s) =
          (match z.power, z.asleepAt with
           | .asleep, some n | .waking, some n => 1#8 :: long (min ((s.now - n) / 10) 4294967295)
           | _, _ => [0#8]) := by
        unfold timeAsleep
        cases z.power <;> cases z.asleepAt <;> rfl
      have hreasons : encList encWakeReason z.reasons = one z.reasons.length ++ z.reasons.flatMap (fun r =>
          (match r.kind with | .event k => event k ++ [0#8] | .frame x => 11#8 :: 1#8 :: source x) ++ [r.count] ++ long r.firstSeen) := by
        refine congrArg (List.cons _) (congrArg (fun f => z.reasons.flatMap f) (funext fun r => ?_))
        unfold encWakeReason
        cases r.kind <;> rfl
      rw [sleepRecord, hlines, htimer, hasleep, hreasons, ← List.append_assoc]
      rfl
    case store =>
      have hresult : encOpt (fun r => [resultPosition r]) t.result ++ encOpt encRun (t.result.bind skippedOf) =
          (match t.result with
           | none => [0#8, 0#8]
           | some .storeAbsent => [1#8, 1#8, 0#8]
           | some .storeInvalid => [1#8, 2#8, 0#8]
           | some .storeLoaded => [1#8, 3#8, 0#8]
           | some (.storePartial l) => [1#8, 4#8, 1#8] ++ run l) := by
        cases t.result with
        | none => rfl
        | some r => cases r <;> rfl
      rw [storeRecord, List.append_assoc (encNamed storeStateList _), hresult]
      rfl
    case route =>
      rfl
    case entry => exact fun e => ⟨rfl, rfl⟩
    case window => exact fun w => rfl
    case policy =>
      intro e
      have hactions : encList encAction e.actions = one e.actions.length ++ e.actions.flatMap encAction := rfl
      rw [encPolicy, hactions, ← List.append_assoc]
      refine congrArg₂ List.append rfl (congrArg (fun f => e.actions.flatMap f) (funext fun x => ?_))
      cases x <;> rfl
    case settings =>
      intro e
      have hbits : encEnables e = word (bit e.start 0 + bit e.posture 1 + bit e.orientation 2 + bit e.attach 3 + bit e.link 4 +
          bit e.charge 5 + bit e.alarm 6 + bit e.sleep 7 + bit e.encoder 8 + bit e.budget 9 + bit e.store 10) := by
        refine congrArg enc16 ?_
        simp only [NoticeKind.inOrder, List.zipIdx, List.map_cons, List.map_nil, List.sum_cons, List.sum_nil, PerKind.get, Nat.add_assoc,
          Nat.add_zero, bit]
        rfl
      rw [allSettings, hbits]
      rfl
    case split => rfl
    case budget => rw [budgetContent, hgrant]; rfl
    case causes => exact fun in_ => rfl
  case replies =>
    refine ⟨replies_request (q := .recordPosture) hatt rfl Request.noConfusion rfl rfl, replies_request (q :=
      .recordOrientation) hatt rfl Request.noConfusion rfl rfl, replies_request (q := .recordAttachment) hatt rfl
      Request.noConfusion rfl rfl, replies_request (q := .recordCharge) hatt rfl Request.noConfusion rfl rfl, replies_request
      (q := .recordSupply) hatt rfl Request.noConfusion rfl rfl, replies_request (q := .recordSleep) hatt rfl
      Request.noConfusion rfl rfl, replies_request (q := .recordStore) hatt rfl Request.noConfusion rfl rfl, fun i e hi he =>
      ?_, fun i hi => ?_, fun i w hi hw => ?_, fun i hi => ?_, fun i e hi he => ?_, fun i hi => ?_, replies_request (q :=
      .countersUplink) hatt rfl Request.noConfusion rfl rfl, replies_request (q := .countersRoute) hatt rfl
      Request.noConfusion rfl ?_, replies_request (q := .countersIssuer) hatt rfl Request.noConfusion rfl rfl,
      replies_request (q := .countersPosture) hatt rfl Request.noConfusion rfl rfl⟩
    · exact replies_request (q := (.routeRead i)) hatt rfl Request.noConfusion rfl (answerEntry_inside s hi he)
    · exact replies_request (q := (.routeRead i)) hatt rfl Request.noConfusion rfl (answerEntry_outside s hi)
    · exact replies_request (q := (.windowRead i)) hatt rfl Request.noConfusion rfl (answerEntry_inside s hi hw)
    · exact replies_request (q := (.windowRead i)) hatt rfl Request.noConfusion rfl (answerEntry_outside s hi)
    · exact replies_request (q := (.policyRead i)) hatt rfl Request.noConfusion rfl (answerEntry_inside s hi he)
    · exact replies_request (q := (.policyRead i)) hatt rfl Request.noConfusion rfl (answerEntry_outside s hi)
    · rfl

end Sys2Proof

/-! PROOFS. The requests: TABLE-WRITE and the checks of the entries' fields. -/
namespace Sys2Proof
open Machine

namespace Machine

/-- A list with each member's position, counting from 1. -/
def numbered {α : Type} (l : List α) : List (Nat × α) := l.zipIdx.map (fun x => (x.2 + 1, x.1))

theorem pick_iff {α : Type} (l : List α) (n : Nat) (a : α) : pick l n = some a ↔ (n, a) ∈ numbered l := by
  cases n with
  | zero => simp [pick, numbered]
  | succ n =>
    simp only [pick, numbered, List.mem_map, Prod.mk.injEq, Nat.add_right_cancel_iff, Prod.exists]
    constructor
    · exact fun h => ⟨a, n, List.mk_mem_zipIdx_iff_getElem?.mpr h, rfl, rfl⟩
    · rintro ⟨b, m, h, rfl, rfl⟩
      exact List.mk_mem_zipIdx_iff_getElem?.mp h

theorem asSet_iff {w n : Nat} {v : BitVec w} : asSet w n = some v ↔ v.toNat = n := by
  constructor
  · intro h
    unfold asSet at h
    split at h
    case isTrue hn => exact Option.some.inj h ▸ Nat.mod_eq_of_lt hn
    case isFalse => exact absurd h.symm (Option.some_ne_none v)
  · exact fun h => h ▸ asSet_toNat w v

theorem kindSuits_iff (src : Source) (k : Nat) :
    kindSuits src k = true ↔
      (src, k) ∈ [(Source.lidMotion, 0x01), (.penStatus, 0x02), (.baseKeys, 0x10), (.basePointer, 0x11), (.baseMotion, 0x12),
        (.baseStatus, 0x13)] ∨ (src = .uplink ∧ 0x50 ≤ k ∧ k ≤ 0x7F) := by
  cases src <;> simp [kindSuits]

theorem checkDest_iff (src : Source) (d : Option Nat) (x : Dest) :
    checkDest src d = some x ↔
      (src = .uplink ∧ d = none ∧ x = .base) ∨ (src ≠ .uplink ∧ ∃ n, d = some n ∧ 1 ≤ n ∧ n ≤ 15 ∧ x = .channel n) := by
  have hchannel (n : Nat) : (if 1 ≤ n ∧ n ≤ 15 then some (Dest.channel n) else none) = some x ↔ 1 ≤ n ∧ n ≤ 15 ∧ x = .channel n := by
    rw [Option.ite_none_right_eq_some, and_assoc, eq_comm (a := some (Dest.channel n)), Option.some.injEq]
  cases d with
  | none => cases src <;> simp [checkDest, eq_comm]
  | some n => cases src <;> simp [checkDest, hchannel]

theorem checkRoute_iff (e : RawRoute) (f : RouteFields) :
    checkRoute e = some f ↔
      pick sourceList e.source = some f.source ∧ pick actionList e.action = some f.action ∧ pick damageList e.damage = some f.damage ∧
      asSet 7 e.postures = some f.postures ∧ asSet 2 e.views = some f.views ∧ checkDest f.source e.dest = some f.dest ∧
      (∀ k, e.kind = some k → kindSuits f.source k = true) ∧ 1 ≤ e.keepN ∧ e.keepN ≤ 16 ∧
      f.valid = e.valid ∧ f.kind = e.kind ∧ f.model = e.model.map (BitVec.ofNat 16) ∧ f.keepN = e.keepN := by
  have hkind (src : Source) : e.kind.all (kindSuits src) = true ↔ ∀ k, e.kind = some k → kindSuits src k = true := by
    rw [Option.all_eq_true]
  simp only [checkRoute, bind, Option.bind_eq_some_iff, Option.ite_none_right_eq_some, Option.some.injEq, Bool.and_eq_true,
    decide_eq_true_eq, hkind]
  constructor
  · rintro ⟨src, hsrc, act, hact, dmg, hdmg, ps, hps, vs, hvs, d, hd, ⟨⟨hk, hlow⟩, hhigh⟩, rfl⟩
    exact ⟨hsrc, hact, hdmg, hps, hvs, hd, hk, hlow, hhigh, rfl, rfl, rfl, rfl⟩
  · obtain ⟨⟩ := f
    rintro ⟨hsrc, hact, hdmg, hps, hvs, hd, hk, hlow, hhigh, rfl, rfl, rfl, rfl⟩
    exact ⟨_, hsrc, _, hact, _, hdmg, _, hps, _, hvs, _, hd, ⟨⟨hk, hlow⟩, hhigh⟩, rfl⟩

theorem checkWindow_iff (w : RawWindow) (v : Window) :
    checkWindow w = some v ↔
      pick windowPostureList w.posture = some v.posture ∧ pick windowCondList w.cond = some v.cond ∧
      w.lower ≤ 180 ∧ w.upper ≤ 180 ∧ w.hysteresis ≤ 10 ∧ v.lower = w.lower ∧ v.upper = w.upper ∧ v.hysteresis = w.hysteresis := by
  simp only [checkWindow, bind, Option.bind_eq_some_iff, Option.ite_none_right_eq_some, Option.some.injEq]
  constructor
  · rintro ⟨p, hp, c, hc, ⟨hl, hu, hh⟩, rfl⟩
    exact ⟨hp, hc, hl, hu, hh, rfl, rfl, rfl⟩
  · obtain ⟨⟩ := v
    rintro ⟨hp, hc, hl, hu, hh, rfl, rfl, rfl⟩
    exact ⟨_, hp, _, hc, ⟨hl, hu, hh⟩, rfl⟩

theorem checkIndicate_iff (l s p : Nat) (x : LedLine × LedSource × LedPattern) :
    checkIndicate l s p = some x ↔
      pick lineList l = some x.1 ∧ pick ledSourceList s = some x.2.1 ∧ pick ledPatternList p = some x.2.2 := by
  simp only [checkIndicate, bind, Option.bind_eq_some_iff, Option.some.injEq]
  constructor
  · rintro ⟨a, ha, b, hb, c, hc, rfl⟩
    exact ⟨ha, hb, hc⟩
  · exact fun ⟨ha, hb, hc⟩ => ⟨_, ha, _, hb, _, hc, rfl⟩

/-- The actions of the claim table that carry nothing, each at its code (R167). -/
def plainActions : List PolicyAction := [.sleepBegin, .sleepCancel, .wake, .orientLock, .orientFree, .chargeHold, .chargeAllow]

theorem checkAction_plain (c : Nat) : checkAction (.plain c) = pick plainActions c := by
  match c with
  | 0 | 1 | 2 | 3 | 4 | 5 | 6 | 7 => rfl
  | n + 8 => rfl

theorem checkPolicy_iff (e : RawPolicy) (f : PolicyEntry) :
    checkPolicy e = some f ↔
      pick eventList e.event = some f.event ∧ asSet 7 e.fromSet = some f.fromSet ∧ asSet 7 e.toSet = some f.toSet ∧
      pick baseCondList e.baseCond = some f.baseCond ∧ pick penCondList e.penCond = some f.penCond ∧
      asSet 5 e.hosts = some f.hosts ∧ e.actions.mapM checkAction = some f.actions ∧ e.actions.length ≤ 3 ∧ f.valid = e.valid := by
  simp only [checkPolicy, bind, Option.bind_eq_some_iff, Option.ite_none_right_eq_some, Option.some.injEq]
  constructor
  · rintro ⟨ev, hev, fr, hfr, ts, hto, b, hb, p, hp, h, hh, acts, hacts, hlen, rfl⟩
    exact ⟨hev, hfr, hto, hb, hp, hh, hacts, hlen, rfl⟩
  · obtain ⟨⟩ := f
    rintro ⟨hev, hfr, hto, hb, hp, hh, hacts, hlen, rfl⟩
    exact ⟨_, hev, _, hfr, _, hto, _, hb, _, hp, _, hh, _, hacts, hlen, rfl⟩

/-- A list whose members all pass is the list of what they give. -/
theorem mapM_eq_some_iff {α β : Type} (f : α → Option β) (l : List α) (r : List β) :
    l.mapM f = some r ↔ List.Forall₂ (fun a b => f a = some b) l r := by
  induction l generalizing r with
  | nil => simp [eq_comm]
  | cons a l ih =>
    simp only [List.mapM_cons, bind, pure, Option.bind_eq_some_iff, ih, List.forall₂_cons_left_iff, Option.some.injEq]
    constructor
    · rintro ⟨b, hb, bs, hbs, rfl⟩
      exact ⟨b, bs, hb, hbs, rfl⟩
    · rintro ⟨b, bs, hb, hbs, rfl⟩
      exact ⟨b, hb, bs, hbs, rfl⟩

end Machine

/-- Settles O17. -/
theorem tableWritesReplaceOneEntry : Obligations.TableWritesReplaceOneEntry := by
  refine ⟨fun s i hatt => ⟨fun e f hi hlen hf => ?route, fun e h => ?noRoute, fun w v hi hv => ?window, fun w h => ?noWindow,
    fun e f hi hf => ?policy, fun e h => ?noPolicy⟩, fun e f => ?checkRoute, fun w v => ?checkWindow, fun e f => ?checkPolicy⟩
  case route =>
    refine replies_request (q := .routeWrite i e) hatt rfl Request.noConfusion rfl ?_
    rw [ownerAnswer, answerRouteWrite, if_pos hi, hf]
    simp only [changeRoute, modify_at _ _ _ _ (List.getElem?_eq_getElem hlen)]
    rfl
  case noRoute =>
    refine replies_request (q := .routeWrite i e) hatt rfl Request.noConfusion rfl ?_
    rw [ownerAnswer, answerRouteWrite]
    rcases h with h | h
    · rw [if_neg (Nat.not_lt.mpr h)]
    · rw [h, ite_self]
  case window =>
    refine replies_request (q := .windowWrite i w) hatt rfl Request.noConfusion rfl ?_
    rw [ownerAnswer, answerWindowWrite, if_pos hi, hv]
  case noWindow =>
    refine replies_request (q := .windowWrite i w) hatt rfl Request.noConfusion rfl ?_
    rw [ownerAnswer, answerWindowWrite]
    rcases h with h | h
    · rw [if_neg (Nat.not_lt.mpr h)]
    · rw [h, ite_self]
  case policy =>
    refine replies_request (q := .policyWrite i e) hatt rfl Request.noConfusion rfl ?_
    rw [ownerAnswer, answerPolicyWrite, if_pos hi, hf]
  case noPolicy =>
    refine replies_request (q := .policyWrite i e) hatt rfl Request.noConfusion rfl ?_
    rw [ownerAnswer, answerPolicyWrite]
    rcases h with h | h
    · rw [if_neg (Nat.not_lt.mpr h)]
    · rw [h, ite_self]
  case checkRoute =>
    simp only [checkRoute_iff, pick_iff, asSet_iff, checkDest_iff, kindSuits_iff]
    constructor
    · rintro ⟨hsrc, hact, hdmg, hps, hvs, hd, hk, hlow, hhigh, hvalid, hkind, hmodel, hkeep⟩
      exact ⟨hvalid, hkind, hps, hvs, hmodel, hkeep, hlow, hhigh, hsrc, hact, hdmg, hk, hd⟩
    · rintro ⟨hvalid, hkind, hps, hvs, hmodel, hkeep, hlow, hhigh, hsrc, hact, hdmg, hk, hd⟩
      exact ⟨hsrc, hact, hdmg, hps, hvs, hd, hk, hlow, hhigh, hvalid, hkind, hmodel, hkeep⟩
  case checkWindow =>
    simp only [checkWindow_iff, pick_iff]
    constructor
    · rintro ⟨hp, hc, hl, hu, hh, hl', hu', hh'⟩
      exact ⟨hl', hu', hh', hl, hu, hh, hp, hc⟩
    · rintro ⟨hl', hu', hh', hl, hu, hh, hp, hc⟩
      exact ⟨hp, hc, hl, hu, hh, hl', hu', hh'⟩
  case checkPolicy =>
    rw [checkPolicy_iff, mapM_eq_some_iff]
    simp only [pick_iff, asSet_iff]
    have hactions (a : RawAction) (b : PolicyAction) :
        checkAction a = some b ↔
          (match a with
            | .plain c => (c, b) ∈ [(1, PolicyAction.sleepBegin), (2, .sleepCancel), (3, .wake), (4, .orientLock), (5, .orientFree),
                (6, .chargeHold), (7, .chargeAllow)]
            | .budgetProfile n => n ≤ 3 ∧ b = .budgetProfile n
            | .indicate l s p => ∃ l' s' p', b = .indicate l' s' p' ∧ (l, l') ∈ [(1, LedLine.line1), (2, .line2)] ∧
                (s, s') ∈ [(1, LedSource.charge), (2, .attach), (3, .alarm), (4, .lock), (5, .on), (6, .off)] ∧
                (p, p') ∈ [(1, LedPattern.steady), (2, .blink), (3, .stretch)]) := by
      cases a with
      | plain c => exact (congrArg (· = some b) (checkAction_plain c)).to_iff.trans (pick_iff plainActions c b)
      | budgetProfile n => rw [checkAction, Option.ite_none_right_eq_some, eq_comm (b := some b), Option.some.injEq]
      | indicate l s p =>
        simp only [checkAction, Option.map_eq_some_iff, checkIndicate_iff, pick_iff]
        constructor
        · rintro ⟨⟨l', s', p'⟩, ⟨hl, hs, hp⟩, rfl⟩
          exact ⟨l', s', p', rfl, hl, hs, hp⟩
        · rintro ⟨l', s', p', rfl, hl, hs, hp⟩
          exact ⟨⟨l', s', p'⟩, ⟨hl, hs, hp⟩, rfl⟩
    constructor
    · rintro ⟨hev, hfr, hto, hb, hp, hh, hacts, hlen, hvalid⟩
      exact ⟨hvalid, hfr, hto, hh, hev, hb, hp, hlen, hacts.imp fun a b => (hactions a b).mp⟩
    · rintro ⟨hvalid, hfr, hto, hh, hev, hb, hp, hlen, hacts⟩
      exact ⟨hev, hfr, hto, hb, hp, hh, hacts.imp fun a b => (hactions a b).mpr, hlen, hvalid⟩

end Sys2Proof

/-! PROOFS. The requests: HELLO, SPLIT-SET and SETTINGS-SET. -/
namespace Sys2Proof
open Machine

/-- Settles O18. -/
theorem helloWakesTheHost : Obligations.HelloWakesTheHost := by
  intro s r hatt hresult content
  have hcontent : helloContent s = content := by rw [helloContent, hresult]; rfl
  have hreply {t : State} (h : helloTaken s = t) : Replies .hello s 0x01#8 .ok content t :=
    replies_request (q := .hello) hatt rfl Request.noConfusion rfl (by rw [ownerAnswer, answerHello, h, hcontent])
  refine ⟨fun h => hreply ?_, fun h => hreply ?_⟩
  · rcases h with h | h | h <;> rw [helloTaken, h]
  · rcases h with h | h <;> rw [helloTaken, h]

namespace Machine

theorem post_eq (n : Notice) (s : State) : post n s = { s with mgmt := (post n s).mgmt } := by
  unfold post
  split <;> rfl

theorem post_with (n : Notice) {s t : State} (h : t.mgmt = s.mgmt) : post n t = { t with mgmt := (post n s).mgmt } := by
  have hmgmt : (post n t).mgmt = (post n s).mgmt := by
    unfold post
    rw [h]
    split
    · rfl
    · exact h
  rw [post_eq, hmgmt]

/-- SETTINGS-SET's effect but the turn of the display: what is carried is written, the rest is kept (R195). -/
def settingsWritten (a : SettingsArg) (r : SampleRate) (t : State) : State :=
  { t with
    sleep := { t.sleep with graceTime := a.grace.getD t.sleep.graceTime }
    posture := { t.posture with settleTime := a.settle.getD t.posture.settleTime }
    orient := { t.orient with
      dwell := a.dwell.getD t.orient.dwell
      dwellDue := if a.dwell = none then t.orient.dwellDue else false }
    poller := { t.poller with rate := r, period := if r = t.poller.rate then t.poller.period else startMs (periodMs r) }
    issuer := { t.issuer with discardTime := a.discard.getD t.issuer.discardTime }
    mgmt :=
      match a.enables with
      | none => t.mgmt
      | some n => { t.mgmt with enables := enablesOf n, notices := keepEnabled (enablesOf n) t.mgmt.notices } }

/-- The dwell carried turns the display at once (R115). -/
def dwellTurns (a : SettingsArg) (s : State) : Prop :=
  ∃ n, a.dwell = some n ∧ ms n ≤ s.orient.stable ∧ s.orient.candidate ≠ s.orient.current ∧ s.orient.lock = none

/-- The display takes the candidate, the lock released (R116). -/
def displayTurned (s : State) : State :=
  post (.orientation s.orient.candidate s.orient.current s.orient.candidate s.orient.flat false)
    { s with orient := { s.orient with current := s.orient.candidate, previous := some s.orient.current } }

theorem carried_rate (v : Option SampleRate) (s : State) :
    carried v setRate s =
      { s with poller := { s.poller with
          rate := v.getD s.poller.rate
          period := if v.getD s.poller.rate = s.poller.rate then s.poller.period else startMs (periodMs (v.getD s.poller.rate)) } } := by
  cases v with
  | none =>
    simp only [carried, Option.getD_none, if_true]
  | some r =>
    simp only [carried, Option.getD_some, setRate]
    split
    case isTrue h => subst h; rfl
    case isFalse => rfl

/-- The settings before the dwell and after it are written alike whether the display turns or not. -/
theorem applySettings_of {a : SettingsArg} {s t : State} {r : SampleRate} (hr : (a.rate.bind (pick rateList)).getD t.poller.rate = r)
    (hdwell : carried a.dwell setDwell
        { s with sleep := { s.sleep with graceTime := a.grace.getD s.sleep.graceTime }
                 posture := { s.posture with settleTime := a.settle.getD s.posture.settleTime } } =
      { t with sleep := { t.sleep with graceTime := a.grace.getD t.sleep.graceTime }
               posture := { t.posture with settleTime := a.settle.getD t.posture.settleTime }
               orient := { t.orient with
                 dwell := a.dwell.getD t.orient.dwell
                 dwellDue := if a.dwell = none then t.orient.dwellDue else false } }) :
    applySettings a s = settingsWritten a r t := by
  have hgrace : carried a.settle (fun n s => { s with posture := { s.posture with settleTime := n } })
      (carried a.grace (fun n s => { s with sleep := { s.sleep with graceTime := n } }) s) =
      { s with sleep := { s.sleep with graceTime := a.grace.getD s.sleep.graceTime }
               posture := { s.posture with settleTime := a.settle.getD s.posture.settleTime } } := by
    cases a.settle <;> cases a.grace <;> rfl
  rw [applySettings, hgrace, hdwell, carried_rate, settingsWritten, hr]
  cases a.discard <;> cases a.enables <;> rfl

theorem testDwell_of_not {s : State} (h : ¬ (ms s.orient.dwell ≤ s.orient.stable ∧ s.orient.candidate ≠ s.orient.current ∧
    s.orient.lock = none)) : testDwell s = s :=
  if_neg fun ⟨hmet, hrest⟩ => h ⟨of_decide_eq_true hmet, hrest⟩

theorem testDwell_of {s : State} (h : ms s.orient.dwell ≤ s.orient.stable) (hother : s.orient.candidate ≠ s.orient.current)
    (hfree : s.orient.lock = none) : testDwell s = displayTurned s := by
  have hmet : dwellMet s = true := decide_eq_true h
  have hlock : s.orient.lock.isSome = false := by rw [hfree]; rfl
  rw [testDwell, if_pos ⟨hmet, hother, hfree⟩, takeCandidate, displayTurned, hlock]

/-- What the turn of the display changes beside the settings is the same before and after them. -/
theorem displayTurned_apart (s : State) (z : Sleep) (p : PostureUnit) (n : Nat) (due : Bool) :
    displayTurned { s with sleep := z, posture := p, orient := { s.orient with dwell := n, dwellDue := due } } =
      { displayTurned s with sleep := z, posture := p, orient := { (displayTurned s).orient with dwell := n, dwellDue := due } } := by
  let turned : State := { s with orient := { s.orient with current := s.orient.candidate, previous := some s.orient.current } }
  let told : Notice := .orientation s.orient.candidate s.orient.current s.orient.candidate s.orient.flat false
  have hturned : displayTurned s = { turned with mgmt := (post told turned).mgmt } := post_eq told turned
  rw [hturned]
  exact post_with told rfl

theorem applySettings_still {a : SettingsArg} {s : State} {r : SampleRate} (hr : (a.rate.bind (pick rateList)).getD s.poller.rate = r)
    (h : ¬ dwellTurns a s) : applySettings a s = settingsWritten a r s := by
  refine applySettings_of hr ?_
  cases hd : a.dwell with
  | none => rfl
  | some n =>
    have hstill (z : Sleep) (p : PostureUnit) : setDwell n { s with sleep := z, posture := p } =
        { s with sleep := z, posture := p, orient := { s.orient with dwell := n, dwellDue := false } } :=
      testDwell_of_not fun ⟨hmet, hrest⟩ => h ⟨n, hd, hmet, hrest⟩
    exact hstill _ _

theorem applySettings_turning {a : SettingsArg} {s : State} {r : SampleRate}
    (hr : (a.rate.bind (pick rateList)).getD s.poller.rate = r) (h : dwellTurns a s) :
    applySettings a s = settingsWritten a r (displayTurned s) := by
  obtain ⟨n, hd, hmet, hother, hfree⟩ := h
  have hpoller : (displayTurned s).poller = s.poller := by simp [displayTurned]
  refine applySettings_of (hpoller ▸ hr) ?_
  have hunits : (displayTurned s).sleep = s.sleep ∧ (displayTurned s).posture = s.posture := by simp [displayTurned]
  have hturn (z : Sleep) (p : PostureUnit) : setDwell n { s with sleep := z, posture := p } =
      displayTurned { s with sleep := z, posture := p, orient := { s.orient with dwell := n, dwellDue := false } } :=
    testDwell_of hmet hother hfree
  rw [hd, carried, hturn, displayTurned_apart, hunits.1, hunits.2]
  rfl

theorem settingsOk_iff {a : SettingsArg} :
    settingsOk a = true ↔
      (∀ n, a.grace = some n → n ≤ 60000) ∧ (∀ n, a.settle = some n → n ∈ [25, 50, 75, 100, 150, 250, 400, 600]) ∧
      (∀ n, a.dwell = some n → 100 ≤ n ∧ n ≤ 2000) ∧ (∀ n, a.rate = some n → 1 ≤ n ∧ n ≤ 4) ∧
      (∀ n, a.discard = some n → 500 ≤ n ∧ n ≤ 8000) ∧ (∀ n, a.enables = some n → n < 2048) := by
  have hrate (n : Nat) : (pick rateList n).isSome = true ↔ 1 ≤ n ∧ n ≤ 4 := by
    cases n with
    | zero => simp [pick]
    | succ n => simp [pick, rateList]
  simp only [settingsOk, Bool.and_eq_true, Option.all_eq_true, graceOk, settleOk, dwellOk, discardOk, decide_eq_true_eq, hrate,
    List.contains_iff_mem, and_assoc]
  exact Iff.rfl

end Machine

/-- Settles O19. -/
theorem splitAndSettingsAreWritten : Obligations.SplitAndSettingsAreWritten := by
  intro s hatt
  have hset {a : SettingsArg} {t : State} (hok : settingsOk a = true) (h : applySettings a s = t) :
      Replies (.settingsSet a) s 0x07#8 .ok (allSettings t) t :=
    replies_request (q := .settingsSet a) hatt rfl Request.noConfusion rfl (by rw [ownerAnswer, answerSettings, if_pos hok, h])
  have hsplit {d : Nat} {a : Answer} (h : answerSplit d s = a) : Replies (.splitSet d) s 0x06#8 a.status a.content a.after :=
    replies_request (q := .splitSet d) hatt rfl Request.noConfusion rfl h
  refine ⟨fun d => ⟨fun h => hsplit (if_pos h), fun hlow hhigh h => ?busy, fun hlow hhigh hup hdown => ?moved⟩,
    fun a h => ?refused, fun g t d hg ht hlow hhigh => ?times, fun n r hn hr => ?rate, fun n hn => ?enables,
    fun n hlow hhigh hlock => ?dwell, fun a hg ht hd hr hdis hen => ?all⟩
  case busy =>
    have hrange : ¬ (d < 8 ∨ 64 < d) := by omega
    have hanswer : answerSplit d s = ⟨s, .busy, splitContent s⟩ := by rw [answerSplit, if_neg hrange, if_pos h]
    exact hsplit hanswer
  case moved =>
    have hrange : ¬ (d < 8 ∨ 64 < d) := by omega
    have hempty : ¬ (s.pool.up ≠ [] ∨ s.pool.down ≠ []) := fun h => h.elim (· hup) (· hdown)
    have hcontent : splitContent { s with pool := { s.pool with share := d } } = [BitVec.ofNat 8 d, 0#8, 0#8] := by
      rw [splitContent, hup, hdown]
      rfl
    have hanswer : answerSplit d s = ⟨{ s with pool := { s.pool with share := d } }, .ok,
        splitContent { s with pool := { s.pool with share := d } }⟩ := by
      rw [answerSplit, if_neg hrange, if_neg hempty]
    rw [← hcontent]
    exact hsplit hanswer
  case refused =>
    have hbad : ¬ settingsOk a = true := by
      rw [settingsOk_iff]
      rintro ⟨hg, ht, hd, hr, hdis, hen⟩
      rcases h with ⟨n, hn, hbad⟩ | ⟨n, hn, hbad⟩ | ⟨n, hn, hbad⟩ | ⟨n, hn, hbad⟩ | ⟨n, hn, hbad⟩ | ⟨n, hn, hbad⟩
      · have := hg n hn; omega
      · exact hbad (ht n hn)
      · have := hd n hn; omega
      · have := hr n hn; omega
      · have := hdis n hn; omega
      · have := hen n hn; omega
    exact replies_request (q := .settingsSet a) hatt rfl Request.noConfusion rfl (if_neg hbad)
  case times =>
    refine hset ?_ rfl
    rw [settingsOk_iff]
    simp only [Option.some.injEq, forall_eq', reduceCtorEq, false_implies, implies_true, and_true, true_and]
    exact ⟨hg, ht, hlow, hhigh⟩
  case rate =>
    refine hset ?_ ?_
    · rw [settingsOk_iff]
      have hn := pick_lt hn
      simp only [Option.some.injEq, forall_eq', reduceCtorEq, false_implies, implies_true, and_true, true_and]
      exact hn
    · have hrate : setRate r s = { s with poller := { s.poller with rate := r, period := startMs (periodMs r) } } := if_neg hr
      rw [← hrate]
      exact congrArg (fun v => carried v setRate s) hn
  case enables =>
    refine hset ?_ rfl
    rw [settingsOk_iff]
    simp only [Option.some.injEq, forall_eq', reduceCtorEq, false_implies, implies_true, true_and]
    exact hn
  case dwell =>
    refine hset ?_ ?_
    · rw [settingsOk_iff]
      simp only [Option.some.injEq, forall_eq', reduceCtorEq, false_implies, implies_true, and_true, true_and]
      exact ⟨hlow, hhigh⟩
    · refine testDwell_of_not fun ⟨_, _, hfree⟩ => ?_
      rw [show s.orient.lock = none from hfree] at hlock
      exact absurd hlock Bool.false_ne_true
  case all =>
    intro turns rate written turned
    have hok : settingsOk a = true := settingsOk_iff.mpr ⟨hg, ht, hd, hr, hdis, hen⟩
    exact ⟨fun h => hset hok (applySettings_still rfl h), fun h => hset hok (applySettings_turning rfl h)⟩

end Sys2Proof

/-! PROOFS. The requests: what BASE-REQUEST answers, and how a new request enters the table. -/
namespace Sys2Proof
open Machine

namespace Machine

/-! ## The answer (R74) -/

/-- The content of every reply: the key and the counts of the three states (R74). -/
def requestShown (target : Nat) (command : Byte) (l : List ReqEntry) : List Byte :=
  [BitVec.ofNat 8 target, command, BitVec.ofNat 8 (l.countP (fun e => e.state == .queued)),
   BitVec.ofNat 8 (l.countP (fun e => e.state == .issued)), BitVec.ofNat 8 (l.countP (fun e => e.state == .done))]

theorem countState_eq (st : ReqState) (s : State) : countState st s = s.issuer.table.countP (fun e => e.state == st) :=
  List.countP_eq_length_filter.symm

/-- BASE-REQUEST is replied to with what the issuer makes of it (R74). -/
theorem replies_baseRequest_of {target : Nat} {command : Byte} {data : List Byte} {s t : State} {st : Status} {e : Option ReqEntry}
    (hatt : Attentive s) (h : baseRequestTaken target command data s = (t, st, e)) :
    Replies (.baseRequest target command data) s 0x08#8 st
      (requestShown target command t.issuer.table ++ (e.map (entryContent st)).getD []) t := by
  have hanswer : answerBaseRequest target command data s =
      ⟨t, st, requestShown target command t.issuer.table ++ (e.map (entryContent st)).getD []⟩ := by
    rw [answerBaseRequest, h]
    simp only [countState_eq]
    rfl
  exact replies_request (q := .baseRequest target command data) hatt rfl Request.noConfusion rfl hanswer

/-! ## An entry with the key (R72) -/

theorem hasKey_iff {e : ReqEntry} {target : Nat} {command : Byte} :
    e.hasKey target command = true ↔ e.target = target ∧ e.command = command := by
  simp [ReqEntry.hasKey]

theorem hasKey_eq_false_iff {e : ReqEntry} {target : Nat} {command : Byte} :
    e.hasKey target command = false ↔ ¬ (e.target = target ∧ e.command = command) := by
  rw [← hasKey_iff, Bool.not_eq_true]

section Alone
variable {before after : List ReqEntry} {e : ReqEntry} {target : Nat} {command : Byte} (hkey : e.hasKey target command = true)
  (halone : ∀ y ∈ before ++ after, ¬ (y.target = target ∧ y.command = command))
include hkey halone

/-- The one entry with a key is what its key finds. -/
theorem find?_alone : (before ++ e :: after).find? (fun e => e.hasKey target command) = some e := by
  have hnone : before.find? (fun e => e.hasKey target command) = none :=
    List.find?_eq_none.mpr fun y hy => Bool.eq_false_iff.mp (hasKey_eq_false_iff.mpr (halone y (List.mem_append_left after hy)))
  rw [List.find?_append, hnone, Option.none_or, List.find?_cons_of_pos (p := fun e : ReqEntry => e.hasKey target command) hkey]

/-- Without the entries of its key the table is the rest. -/
theorem filter_alone : (before ++ e :: after).filter (fun e => !e.hasKey target command) = before ++ after := by
  have hrest : (before ++ after).filter (fun e => !e.hasKey target command) = before ++ after :=
    List.filter_eq_self.mpr fun y hy => by rw [hasKey_eq_false_iff.mpr (halone y hy)]; rfl
  rw [List.filter_append, List.filter_cons_of_neg (by rw [hkey]; exact Bool.false_ne_true), ← List.filter_append, hrest]

end Alone

/-- A request whose entry is open is told to retry, and nothing changes (R72). -/
theorem baseRequestTaken_open {target : Nat} {command : Byte} {s : State} {e : ReqEntry} (htarget : target ≤ 15)
    (hlen : e.data.length ≤ 32) (hfind : s.issuer.table.find? (fun e => e.hasKey target command) = some e) (hopen : e.isOpen = true) :
    baseRequestTaken target command e.data s = (s, .retry, some e) := by
  rw [baseRequestTaken, if_neg (by omega)]
  simp only [hfind, ne_eq, not_true_eq_false, if_false]
  cases e.outcome with
  | none => rfl
  | some o => simp only [if_pos hopen]

/-- A request whose entry is DONE takes its outcome, and the entry goes (R72). -/
theorem baseRequestTaken_done {target : Nat} {command : Byte} {s : State} {e : ReqEntry} {o : ReqOutcome} (htarget : target ≤ 15)
    (hlen : e.data.length ≤ 32) (hfind : s.issuer.table.find? (fun e => e.hasKey target command) = some e) (hdone : e.state = .done)
    (ho : e.outcome = some o) :
    baseRequestTaken target command e.data s =
      ({ s with issuer := { s.issuer with table := s.issuer.table.filter (fun e => !e.hasKey target command) } },
       outcomeStatus o, some e) := by
  have hclosed : ¬ e.isOpen = true := by rw [ReqEntry.isOpen, hdone]; decide
  rw [baseRequestTaken, if_neg (by omega)]
  simp only [hfind, ne_eq, not_true_eq_false, if_false, ho, if_neg hclosed]

/-! ## A new key (R73, R75, R85) -/

/-- The entry that a request enters the table with (R73). -/
def newEntry (target : Nat) (command : Byte) (data : List Byte) : ReqEntry := ⟨target, command, data, .queued, none, none, 0, none⟩

/-- A new request in the table with its hold-off, before the issuer's offer (R73, R85). -/
def requestEntered (e : ReqEntry) (s : State) : State :=
  { s with sleep := { s.sleep with holds := { s.sleep.holds with requestPending := true } }
           issuer := { s.issuer with table := s.issuer.table ++ [e] } }

section NewKey
variable {target : Nat} {command : Byte} {data : List Byte} {s : State} (htarget : target ≤ 15) (hlen : data.length ≤ 32)
  (hnew : ∀ e ∈ s.issuer.table, ¬ (e.target = target ∧ e.command = command))

include hnew in
theorem find?_new : s.issuer.table.find? (fun e => e.hasKey target command) = none :=
  List.find?_eq_none.mpr fun e he => Bool.eq_false_iff.mp (hasKey_eq_false_iff.mpr (hnew e he))

include htarget hlen hnew

theorem baseRequestTaken_notAttached (hdown : s.link.state.isUp = false) :
    baseRequestTaken target command data s = (s, .notAttached, none) := by
  rw [baseRequestTaken, if_neg (by omega)]
  simp only [find?_new hnew, hdown, Bool.not_false, if_true]

theorem baseRequestTaken_full (hup : s.link.state.isUp = true) (hfull : 6 ≤ s.issuer.table.length) :
    baseRequestTaken target command data s = (s, .full, none) := by
  rw [baseRequestTaken, if_neg (by omega)]
  simp only [find?_new hnew, hup, Bool.not_true, if_pos hfull, Bool.false_eq_true, if_false]

theorem baseRequestTaken_entered {t : State} (hup : s.link.state.isUp = true) (hroom : s.issuer.table.length < 6)
    (ht : tryOffer (requestEntered (newEntry target command data) s) = t) :
    baseRequestTaken target command data s = (t, .retry, t.issuer.table.find? (fun e => e.hasKey target command)) := by
  rw [baseRequestTaken, if_neg (by omega)]
  simp only [find?_new hnew, hup, Bool.not_true, if_neg (Nat.not_le.mpr hroom), Bool.false_eq_true, if_false]
  exact congrArg (fun u : State => (u, Status.retry, u.issuer.table.find? (fun e => e.hasKey target command))) ht

end NewKey

/-- The oldest QUEUED entry of a table whose others are DONE is the new one. -/
theorem find?_queued_last {l : List ReqEntry} {e : ReqEntry} (hdone : ∀ e ∈ l, e.state = .done) (he : e.state = .queued) :
    (l ++ [e]).find? (fun e => e.state == .queued) = some e := by
  have hnone : l.find? (fun e => e.state == .queued) = none :=
    List.find?_eq_none.mpr fun y hy => by rw [hdone y hy]; decide
  rw [List.find?_append, hnone, Option.none_or, List.find?_cons_of_pos (by rw [he]; rfl)]

section Offered
variable {target : Nat} {command : Byte} {data : List Byte} {s : State} (hup : s.link.state.isUp = true)

include hup in
/-- With no offer waiting and every other entry DONE the new one is offered (R75). -/
theorem tryOffer_entered (hdone : ∀ e ∈ s.issuer.table, e.state = .done) (hwait : s.issuer.waiting = none) :
    tryOffer (requestEntered (newEntry target command data) s) = oldestOffered (requestEntered (newEntry target command data) s) := by
  have hissued : ∀ e ∈ s.issuer.table ++ [newEntry target command data], e.state ≠ .issued := by
    simp only [List.mem_append, List.mem_singleton]
    rintro e (he | rfl)
    · rw [hdone e he]; decide
    · exact ReqState.noConfusion
  rw [tryOffer_eq, if_pos ⟨hwait, hissued, hup⟩]

include hup in
/-- Admitted whole, the new request is ISSUED (R75). -/
theorem tryOffer_entered_issued {p : Pool} (hdone : ∀ e ∈ s.issuer.table, e.state = .done) (hwait : s.issuer.waiting = none)
    (hnew : ∀ e ∈ s.issuer.table, ¬ (e.target = target ∧ e.command = command))
    (hadmit : s.pool.admitDown (commandFrame (newEntry target command data)) = some p) :
    tryOffer (requestEntered (newEntry target command data) s) =
      { requestEntered { newEntry target command data with state := .issued } s with pool := p } := by
  have hmap : (s.issuer.table ++ [newEntry target command data]).map (fun x =>
      if x.target = target ∧ x.command = command then { x with state := .issued } else x) =
      s.issuer.table ++ [{ newEntry target command data with state := .issued }] := by
    have hold : s.issuer.table.map (fun x => if x.target = target ∧ x.command = command then { x with state := .issued } else x) =
        s.issuer.table := (List.map_congr_left fun x hx => if_neg (hnew x hx)).trans (List.map_id _)
    rw [List.map_append, hold]
    exact congrArg (s.issuer.table ++ [·]) (if_pos ⟨rfl, rfl⟩)
  rw [tryOffer_entered hup hdone hwait, oldestOffered]
  simp only [requestEntered, find?_queued_last hdone (e := newEntry target command data) rfl]
  rw [← hmap]
  have hadmit' := hadmit
  unfold commandFrame at hadmit'
  rw [hadmit']
  rfl

include hup in
/-- Without room the new request is the waiting offer (R75). -/
theorem tryOffer_entered_waiting (hdone : ∀ e ∈ s.issuer.table, e.state = .done) (hwait : s.issuer.waiting = none)
    (hadmit : s.pool.admitDown (commandFrame (newEntry target command data)) = none) :
    tryOffer (requestEntered (newEntry target command data) s) =
      { requestEntered (newEntry target command data) s with
        issuer := { (requestEntered (newEntry target command data) s).issuer with waiting := some (target, command) } } := by
  rw [tryOffer_entered hup hdone hwait, oldestOffered]
  simp only [requestEntered, find?_queued_last hdone (e := newEntry target command data) rfl]
  have hadmit' := hadmit
  unfold commandFrame at hadmit'
  rw [hadmit']
  rfl

/-- While an entry is ISSUED or an offer waits nothing is offered (R75). -/
theorem tryOffer_entered_later (h : (∃ e ∈ s.issuer.table, e.state = .issued) ∨ s.issuer.waiting.isSome = true) :
    tryOffer (requestEntered (newEntry target command data) s) = requestEntered (newEntry target command data) s := by
  rw [tryOffer_eq, if_neg]
  rintro ⟨hwait, hissued, _⟩
  rcases h with ⟨e, he, hst⟩ | h
  · exact hissued e (List.mem_append_left _ he) hst
  · rw [show s.issuer.waiting = none from hwait] at h
    exact Bool.false_ne_true h

end Offered

/-- A table's counts with every entry DONE. -/
theorem requestShown_done (target : Nat) (command : Byte) {l : List ReqEntry} (hdone : ∀ e ∈ l, e.state = .done) (e : ReqEntry)
    (r : List ReqEntry) (hr : r = l ++ [e]) (he : e.state ≠ .done) :
    requestShown target command r =
      [BitVec.ofNat 8 target, command, if e.state = .queued then 1#8 else 0#8, if e.state = .queued then 0#8 else 1#8,
        BitVec.ofNat 8 l.length] := by
  have hnone (st : ReqState) (hst : st ≠ .done) : l.countP (fun e => e.state == st) = 0 :=
    List.countP_eq_zero.mpr fun y hy h => hst ((beq_iff_eq.mp h).symm.trans (hdone y hy))
  have hall : l.countP (fun e => e.state == .done) = l.length :=
    List.countP_eq_length.mpr fun y hy => beq_iff_eq.mpr (hdone y hy)
  simp only [requestShown, hr, List.countP_append, hnone .queued ReqState.noConfusion, hnone .issued ReqState.noConfusion, hall,
    List.countP_singleton]
  cases hst : e.state with
  | queued => rfl
  | issued => rfl
  | done => exact absurd hst he

end Machine

/-- Settles O21. -/
theorem baseRequestEntersTheTable : Obligations.BaseRequestEntersTheTable := by
  intro s target command data hatt count shown
  have hreply {t : State} {st : Status} {e : Option ReqEntry} {content : List Byte}
      (h : baseRequestTaken target command data s = (t, st, e))
      (hcontent : requestShown target command t.issuer.table ++ (e.map (entryContent st)).getD [] = content) :
      Replies (.baseRequest target command data) s 0x08#8 st content t :=
    hcontent ▸ replies_baseRequest_of hatt h
  refine ⟨fun hrange => hreply (baseRequestTaken_outOfRange target command data s hrange) (List.append_nil _), fun htarget hlen =>
    ⟨fun e hfind hdata => ?mismatch, fun before after e htable htgt hcmd hdata halone => ?entry, fun hnew => ?new⟩⟩
  case mismatch =>
    refine hreply (baseRequestTaken_otherData htarget hlen hfind hdata) (congrArg (shown s.issuer.table ++ ·) ?_)
    show encNamed reqStateList e.state = _
    cases e.state <;> rfl
  case entry =>
    have hkey : e.hasKey target command = true := hasKey_iff.mpr ⟨htgt, hcmd⟩
    have hfind : s.issuer.table.find? (fun e => e.hasKey target command) = some e := htable ▸ find?_alone hkey halone
    have hopen (hst : e.state ≠ .done) :
        Replies (.baseRequest target command data) s 0x08#8 .retry
          (shown s.issuer.table ++ (encNamed reqStateList e.state ++ [BitVec.ofNat 8 e.attempts])) s := by
      have hopen : e.isOpen = true := bne_iff_ne.mpr hst
      subst hdata
      exact hreply (baseRequestTaken_open htarget hlen hfind hopen) rfl
    refine ⟨fun hst => ?standing, fun hst => ?sent, fun o hst ho => ?ended⟩
    case standing =>
      have h := hopen (by rw [hst]; exact ReqState.noConfusion)
      rw [hst] at h
      exact h
    case sent =>
      have h := hopen (by rw [hst]; exact ReqState.noConfusion)
      rw [hst] at h
      exact h
    case ended =>
      have hrest : s.issuer.table.filter (fun e => !e.hasKey target command) = before ++ after := htable ▸ filter_alone hkey halone
      subst hdata
      have hdone := baseRequestTaken_done htarget hlen hfind hst ho
      rw [hrest] at hdone
      cases o <;> exact hreply hdone rfl
  case new =>
    intro held frame entry
    have hfound (e : ReqEntry) (ht : e.target = target) (hc : e.command = command) :
        (s.issuer.table ++ [e]).find? (fun e => e.hasKey target command) = some e := by
      have halone : ∀ y ∈ s.issuer.table ++ [], ¬ (y.target = target ∧ y.command = command) := by rwa [List.append_nil]
      exact find?_alone (hasKey_iff.mpr ⟨ht, hc⟩) halone
    refine ⟨fun hdown => hreply (baseRequestTaken_notAttached htarget hlen hnew hdown) (List.append_nil _),
      fun hup hfull => hreply (baseRequestTaken_full htarget hlen hnew hup hfull) (List.append_nil _),
      fun p hup hroom hdone hwait hadmit => ?admitted, fun hup hroom hdone hwait hadmit => ?waiting, fun hup hroom hlater => ?later⟩
    case admitted =>
      refine hreply (baseRequestTaken_entered htarget hlen hnew hup hroom (tryOffer_entered_issued hup hdone hwait hnew hadmit)) ?_
      have hshown := requestShown_done target command hdone (entry .issued) _ rfl ReqState.noConfusion
      exact congrArg₂ (· ++ ·) hshown (congrArg (fun e => (e.map (entryContent .retry)).getD []) (hfound (entry .issued) rfl rfl))
    case waiting =>
      refine hreply (baseRequestTaken_entered htarget hlen hnew hup hroom (tryOffer_entered_waiting hup hdone hwait hadmit)) ?_
      have hshown := requestShown_done target command hdone (entry .queued) _ rfl ReqState.noConfusion
      exact congrArg₂ (· ++ ·) hshown (congrArg (fun e => (e.map (entryContent .retry)).getD []) (hfound (entry .queued) rfl rfl))
    case later =>
      refine hreply (baseRequestTaken_entered htarget hlen hnew hup hroom (tryOffer_entered_later hlater)) ?_
      exact congrArg₂ (· ++ ·) rfl (congrArg (fun e => (e.map (entryContent .retry)).getD []) (hfound (entry .queued) rfl rfl))

end Sys2Proof


/-! PROOFS. The requests to the indicators and the orientation unit, the sleep requests, the store's requests and ALARM-READ. -/
namespace Sys2Proof
open Machine

/-- Settles O24. -/
theorem alarmReadLeavesTheDetectedSticky : Obligations.AlarmReadLeavesTheDetectedSticky := by
  intro s hatt a
  exact replies_request (q := .alarmRead) hatt rfl Request.noConfusion rfl rfl

namespace Machine

/-- A RESTART that arrives at an engine that is IDLE is taken (R209). -/
theorem restart_taken (s : State) (h : Attentive s) : exec .restart s = .next (finish (restartTaken s)) := by
  have harrives : requestArrives .restart s = restartTaken s := by
    obtain ⟨⟨hheld, hevents⟩, hstore, hintake, hholder, hrestart⟩ := h
    rw [requestArrives, hintake, if_neg (by decide), engineTakes, if_pos (by simp [hholder, hrestart])]
    simp only [List.nil_append, takeRequest, if_neg hstore, if_true]
    rw [← hintake]
  rw [exec_of_running .restart s h.1.1 Instr.noConfusion, effect_of_request rfl, harrives]

end Machine

/-- Settles O31. -/
theorem storeRequestsBeginTheirWrites : Obligations.StoreRequestsBeginTheirWrites := by
  intro s hatt held
  refine ⟨fun hidle => ⟨⟨invalidPage s.fresh, rfl, rfl, ?save⟩, ?erase, ?restart⟩, fun hbusy => ⟨?noSave, ?noErase, ?waits⟩⟩
  case save => exact replies_request (q := .storeSave) hatt rfl Request.noConfusion rfl (if_pos hidle)
  case erase => exact replies_request (q := .storeErase) hatt rfl Request.noConfusion rfl (if_pos hidle)
  case restart => rw [restart_taken s hatt, restartTaken, if_pos hidle]; rfl
  case noSave => exact replies_request (q := .storeSave) hatt rfl Request.noConfusion rfl (if_neg hbusy)
  case noErase => exact replies_request (q := .storeErase) hatt rfl Request.noConfusion rfl (if_neg hbusy)
  case waits => rw [restart_taken s hatt, restartTaken, if_neg hbusy]

/-- Settles O30. -/
theorem sleepRequestsMoveTheHost : Obligations.SleepRequestsMoveTheHost := by
  intro s hatt asleep sleeps
  have hsleeps {c : Instr} {code : Byte} {content : List Byte}
      (h : ∀ t, enterAsleep s = t → t.sleep = (asleep s).sleep → Replies c s code .ok content t) : sleeps c code content := by
    have hnotice (p : Pending) (htx : s.tx = .notice p) : enterAsleep s = returnNotice p (asleep { s with tx := .idle }) := by
      rw [enterAsleep, cutOff]
      simp only [htx]
      rfl
    refine ⟨fun htx => h _ ?_ rfl, fun htx => h _ ?_ rfl, fun p htx hoff => h _ ?_ rfl, fun p htx hon hnone => h _ ?_ rfl,
      fun p q htx hon hsome => h _ ?_ rfl⟩
    · have hcut : ∀ t : State, t.tx = s.tx → cutOff t = t := by
        intro t ht
        rw [cutOff, ht]
        rcases htx with htx | htx <;> rw [htx]
      exact hcut _ rfl
    · rw [enterAsleep, cutOff]
      simp only [htx]
      rfl
    · rw [hnotice p htx]
      exact if_neg (Bool.eq_false_iff.mp hoff)
    · rw [hnotice p htx]
      refine (if_pos hon).trans ?_
      simp only [asleep, hnone]
    · rw [hnotice p htx]
      refine (if_pos hon).trans ?_
      simp only [asleep, hsome]
  refine ⟨fun hasked => hsleeps fun t ht hsleep => ?confirm, fun hasked => ?decline, fun hnot => ⟨?noConfirm, ?noDecline⟩,
    fun hawake => hsleeps fun t ht _ => ?hostSleep, fun hasleep => ?already, fun hwaking => ?waking⟩
  case confirm =>
    have hcontent : encNamed powerList (enterAsleep s).sleep.power = [4#8] := by rw [ht, hsleep]; rfl
    refine replies_request (q := .sleepConfirm) hatt rfl Request.noConfusion rfl ?_
    rw [ownerAnswer, answerConfirm, if_pos hasked, withPower, hcontent, ht]
  case decline => exact replies_request (q := .sleepDecline) hatt rfl Request.noConfusion rfl (if_pos hasked)
  case noConfirm => exact replies_request (q := .sleepConfirm) hatt rfl Request.noConfusion rfl (if_neg hnot)
  case noDecline => exact replies_request (q := .sleepDecline) hatt rfl Request.noConfusion rfl (if_neg hnot)
  case hostSleep =>
    refine replies_request (q := .hostSleep) hatt rfl Request.noConfusion rfl ?_
    rw [ownerAnswer, answerHostSleep, ht]
    simp only [List.mem_cons, List.not_mem_nil, or_false] at hawake
    rcases hawake with h | h | h <;> rw [h]
  case already => exact replies_request (q := .hostSleep) hatt rfl Request.noConfusion rfl (by rw [ownerAnswer, answerHostSleep, hasleep])
  case waking => exact replies_request (q := .hostSleep) hatt rfl Request.noConfusion rfl (by rw [ownerAnswer, answerHostSleep, hwaking])

/-- Settles O29. -/
theorem lockAndLinesAreSet : Obligations.LockAndLinesAreSet := by
  intro s hatt lock
  have hfree : Replies .orientSetFree s 0x10#8 .ok (orientationRecord (freeClaim s)) (freeClaim s) :=
    replies_request (q := .orientFree) hatt rfl Request.noConfusion rfl rfl
  refine ⟨?lock, fun hnone => ?released, fun hlock hstays => ?stays, fun hlock hmet hother => ?turns, fun ev => ⟨rfl, hfree⟩,
    fun line source pattern => ⟨fun hbad => ?refused, fun src p hsrc hp => ?lines⟩⟩
  case lock => exact replies_request (q := .orientLock) hatt rfl Request.noConfusion rfl rfl
  case released =>
    have h : freeClaim s = s := by rw [freeClaim, hnone]; rfl
    rwa [h] at hfree
  case stays =>
    have h : freeClaim s = lock none s := by
      refine (if_pos hlock).trans (testDwell_of_not ?_)
      rintro ⟨hmet, hother, _⟩
      rcases hstays with hshort | hsame
      · exact absurd hshort (Nat.not_lt.mpr hmet)
      · exact hother hsame
    rwa [h] at hfree
  case turns =>
    have h : freeClaim s = displayTurned (lock none s) :=
      (if_pos hlock).trans (testDwell_of (s := lock none s) hmet hother rfl)
    rw [h] at hfree
    exact hfree
  case refused =>
    refine replies_request (q := .indicateSet line source pattern) hatt rfl Request.noConfusion rfl ?_
    have hnone : checkIndicate line source pattern = none := by
      refine Option.eq_none_iff_forall_not_mem.mpr fun x hx => ?_
      obtain ⟨hl, hs, hp⟩ := (checkIndicate_iff line source pattern x).mp hx
      have hl := pick_lt hl
      have hs := pick_lt hs
      have hp := pick_lt hp
      simp only [lineList, ledSourceList, ledPatternList, List.length_cons, List.length_nil] at hl hs hp
      simp only [List.mem_cons, List.not_mem_nil, or_false] at hbad
      omega
    rw [ownerAnswer, answerIndicate, hnone]
  case lines =>
    intro on after u1 u2
    have hset (l : Line) : l.set s.policy.inputs src p = after l := by
      unfold Line.set
      simp only [after]
      split
      case isTrue => rfl
      case isFalse => cases hon : s.policy.inputs.level src <;> cases p <;> simp [Line.turnsOn, startMs, ms, on, hon]
    have h1 : indicate .line1 src p s = u1 := by rw [indicate, hset]
    have h2 : indicate .line2 src p s = u2 := by rw [indicate, hset]
    have hcheck {l : LedLine} (hl : pick lineList line = some l) : checkIndicate line source pattern = some (l, src, p) :=
      (checkIndicate_iff line source pattern (l, src, p)).mpr ⟨hl, hsrc, hp⟩
    refine ⟨fun hl => ?_, fun hl => ?_, fun ev => ⟨h1, h2⟩⟩
    · refine replies_request (q := .indicateSet line source pattern) hatt rfl Request.noConfusion rfl ?_
      rw [ownerAnswer, answerIndicate, hcheck (hl ▸ rfl : pick lineList line = some .line1), ← h1]
    · refine replies_request (q := .indicateSet line source pattern) hatt rfl Request.noConfusion rfl ?_
      rw [ownerAnswer, answerIndicate, hcheck (hl ▸ rfl : pick lineList line = some .line2), ← h2]

end Sys2Proof

/-! PROOFS. The requests to the hinge link: BASE-RESET, and LINK-DIAGNOSE with its measurements. -/
namespace Sys2Proof
open Machine

namespace Machine

/-- Outside reset a command is what its effect leaves, with the end of the change. -/
theorem exec_of_effect {c : Instr} {s t : State} (hheld : s.held = false) (hc : c ≠ .resetLineAsserted) (h : effect c s = t) :
    exec c s = .next (finish t) := h ▸ exec_of_running c s hheld hc

/-- The reset drive from a link with its timers stopped and its requests gone, no grace having expired (R65). -/
theorem startResetDrive_eq (s : State) (h : s.sleep.expired = false) :
    startResetDrive (flushDown (linkEnding (stopLinkTimers s))) =
      setInputs { s.policy.inputs with attach := false }
        { requestsGone s with
          pool := { s.pool with down := [], hingeBusy := false }
          link := { s.link with
            state := .training, rate := none, quietWaits := false, kaDue := false, resetAfterRail := false, debounce := none
            railUp := none, echo := none, retry := none, describe := none, quiet := none, wake := none, keepAlive := none
            kaWindow := none, resetDrive := some 500, diag := none }
          route := { s.route with noBase := false }
          posture := { s.posture with baseRun := none }
          sleep := { s.sleep with holds := { s.sleep.holds with requestPending := false, baseIdentifying := true } } } := by
  rw [linkEnding_eq (stopLinkTimers s) h, startResetDrive, setLinkState_eq _ (flushDown (requestsGone (stopLinkTimers s))) h]
  rfl

/-- A mark that is not set is not removed. -/
theorem removeHold_of_not {r : Holdoff} {s : State} (h : s.sleep.holds.has r = false) : removeHold r s = s :=
  if_neg (Bool.eq_false_iff.mp h)

theorem linkDiagnoseTaken_of {s : State} (hst : s.link.state ∈ [.ready, .quiet, .unreachable])
    (hdone : ∀ e ∈ s.issuer.table, e.state = .done) :
    linkDiagnoseTaken s =
      (let u := setLinkState .diagnosing (stopLinkTimers (flushDown
        { s with att := { s.att with diagnosis := some (Diagnosis.fresh s.link.state) } }))
       ({ u with link := { u.link with diag := some 75 } }, .accepted)) := by
  have hclosed : ¬ s.issuer.table.any ReqEntry.isOpen = true := by
    rw [Bool.not_eq_true, List.any_eq_false]
    intro e he
    rw [ReqEntry.isOpen, hdone e he]
    decide
  simp only [List.mem_cons, List.not_mem_nil, or_false] at hst
  rw [linkDiagnoseTaken]
  rcases hst with h | h | h <;> (simp only [h]; exact if_neg hclosed)

theorem linkDiagnoseTaken_busy {s : State} (h : s.link.state ∉ [.ready, .quiet, .unreachable] ∨ ∃ e ∈ s.issuer.table, e.state ≠ .done) :
    linkDiagnoseTaken s = (s, .busy) := by
  rcases h with hst | ⟨e, he, hopen⟩
  · rw [linkDiagnoseTaken]
    cases hs : s.link.state <;> first | rfl | (rw [hs] at hst; exact absurd hst (by decide))
  · have hany : s.issuer.table.any ReqEntry.isOpen = true := List.any_eq_true.mpr ⟨e, he, bne_iff_ne.mpr hopen⟩
    rw [linkDiagnoseTaken, if_pos hany]
    split <;> rfl

end Machine

/-- Settles O22. -/
theorem baseResetRestartsTheBase : Obligations.BaseResetRestartsTheBase := by
  intro s hatt gone
  have hreply {t : State} {st : Status} (h : baseResetTaken s = (t, st)) : Replies .baseReset s 0x09#8 st [] t :=
    replies_request (q := .baseReset) hatt rfl Request.noConfusion rfl (by rw [ownerAnswer, statusOnly, h])
  refine ⟨fun hst hgrace => ?running, fun hst h0 => ?unpowered, fun hst => hreply (by rw [baseResetTaken, hst]), fun hst => ?busy⟩
  case running =>
    have h : baseResetTaken s = (startResetDrive (flushDown (linkEnding (stopLinkTimers s))), .accepted) := by
      rcases hst with hst | hst | hst <;> rw [baseResetTaken, hst]
    rw [startResetDrive_eq s hgrace] at h
    exact hreply h
  case unpowered =>
    let t := (baseResetTaken s).1
    have h : baseResetTaken s = (t, .accepted) := by simp only [t, baseResetTaken, hst]
    have ht : t = if (enterPowering false s).link.state = .powering then
        { enterPowering false s with link := { (enterPowering false s).link with resetAfterRail := true } }
      else enterPowering false s := by simp only [t, baseResetTaken, hst]
    obtain ⟨hroom, hnone⟩ := enterPowering_link false s h0
    obtain ⟨htold, hpen⟩ := baseReset_acts s hst h0
    refine ⟨t, hreply h, fun hb => ?_, fun hb => ?_⟩
    · obtain ⟨hlink, hgrant⟩ := hroom hb
      rw [hlink, if_pos rfl] at ht
      obtain ⟨hfollows, hbudget⟩ := htold hb
      refine ⟨?_, ?_, ?_, ?_, hfollows, hbudget⟩
      · rw [ht]
      · rw [ht]
      · rw [ht]
      · rw [ht]; exact hgrant
    · obtain ⟨hlink, hgrant⟩ := hnone hb
      rw [hlink, if_neg LinkState.noConfusion] at ht
      obtain ⟨hended, _, hnotice⟩ := enterPowering_refused false s h0 hb (by rw [hst]; exact LinkState.noConfusion)
      have hpen := hpen hb
      change PenFollows _ s t at hpen
      rw [ht] at hpen ⊢
      exact ⟨hlink, hgrant, hended, hpen, hnotice⟩
  case busy =>
    have h : baseResetTaken s = (s, .busy) := by
      rw [baseResetTaken]
      cases hs : s.link.state <;> first | rfl | (rw [hs] at hst; exact absurd hst (by decide))
    exact hreply h

/-- Settles O23. -/
theorem diagnosisMeasuresFourPins : Obligations.DiagnosisMeasuresFourPins := by
  intro s
  have hreply (hatt : Attentive s) {t : State} {st : Status} (h : linkDiagnoseTaken s = (t, st)) :
      Replies .linkDiagnose s 0x0A#8 st [] t :=
    replies_request (q := .linkDiagnose) hatt rfl Request.noConfusion rfl (by rw [ownerAnswer, statusOnly, h])
  refine ⟨fun hatt h => hreply hatt (linkDiagnoseTaken_busy h), fun hatt hst hdone hhold => hreply hatt ?begins,
    fun o d from_ hrun hd hdiag => ?measures⟩
  case begins =>
    have hstill : setHold .baseIdentifying false
        { s with
          att := { s.att with diagnosis := some (Diagnosis.fresh s.link.state) }
          pool := { s.pool with down := [], hingeBusy := false }
          link := { s.link with
            state := .diagnosing, quietWaits := false, kaDue := false, resetAfterRail := false, debounce := none, railUp := none
            echo := none, retry := none, describe := none, quiet := none, wake := none, keepAlive := none, kaWindow := none
            resetDrive := none, diag := none }
          route := { s.route with noBase := false }
          posture := { s.posture with baseRun := none } } = _ := removeHold_of_not hhold
    rw [linkDiagnoseTaken_of hst hdone]
    refine congrArg (fun u : State => (({ setInputs { u.policy.inputs with attach := false } u with
      link := { (setInputs { u.policy.inputs with attach := false } u).link with diag := some 75 } } : State), Status.accepted)) hstill
  case measures =>
    intro next
    have hexec {t : State} (h : measurementEnds o s = t) : exec (.diagnosisMeasurementEnd o) s = .next (finish t) :=
      exec_of_effect hrun.1 Instr.noConfusion h
    refine ⟨fun h => hexec ?_, fun a h => hexec ?_, fun a b h => hexec ?_, fun a b c h => hexec ?_⟩
    · rw [measurementEnds, hd, h]; exact if_pos hdiag
    · rw [measurementEnds, hd, h]; exact if_pos hdiag
    · rw [measurementEnds, hd, h]; exact if_pos hdiag
    · rw [measurementEnds, hd, h]
      refine (if_pos hdiag).trans ?_
      have hpost := post_with (.link (.diagnosed (some a) (some b) (some c) (some o))) (s := s)
        (t := { s with att := { s.att with diagnosis := some ⟨from_, some a, some b, some c, some o, true, some .finished⟩ }
                       link := { s.link with diag := none } }) rfl
      refine (congrArg startTraining hpost).trans ?_
      rw [post_eq _ s]
      rfl

end Sys2Proof

/-! PROOFS. The guard's requests: ALARM-CLEAR in its steps, and what it leaves of the alarms, the link and the session. -/
namespace Sys2Proof
open Machine

namespace Machine

/-! ## What the steps keep of the alarms -/

theorem keepsAlarms_trans {a b c : State} (h : KeepsAlarms a b) (k : KeepsAlarms b c) : KeepsAlarms a c := by
  simp only [KeepsAlarms, KeepsMarks] at *
  simp_all

theorem keepsAlarms_of_settings {t s : State} (h : KeepsSettings t.guard s.guard) : KeepsAlarms t s := by
  obtain ⟨_, _, _, hcap, _, hdie, hrailOc, hrailUv, hcoilOc, hcoilUv⟩ := h
  exact ⟨hcap, hdie, hrailOc, hrailUv, hcoilOc, hcoilUv⟩

theorem keepsAlarms_get {t s : State} (h : KeepsAlarms t s) (c : Cause) :
    (t.guard.alarms.get c).latch = (s.guard.alarms.get c).latch ∧ (t.guard.alarms.get c).sticky = (s.guard.alarms.get c).sticky := by
  obtain ⟨_, hdie, hrailOc, hrailUv, hcoilOc, hcoilUv⟩ := h
  cases c with
  | railOc => exact ⟨hrailOc.1, hrailOc.2.1⟩
  | railUv => exact ⟨hrailUv.1, hrailUv.2.1⟩
  | coilOc => exact ⟨hcoilOc.1, hcoilOc.2.1⟩
  | coilUv => exact ⟨hcoilUv.1, hcoilUv.2.1⟩
  | dieOt => exact ⟨congrArg Alarm.latch hdie, congrArg Alarm.sticky hdie⟩

theorem keepsAlarms_railLatched {t s : State} (h : KeepsAlarms t s) : railLatched t = railLatched s :=
  congrArg₂ or (keepsAlarms_get h .railOc).1 (keepsAlarms_get h .railUv).1

theorem keepsAlarms_coilLatched {t s : State} (h : KeepsAlarms t s) : coilLatched t = coilLatched s :=
  congrArg₂ or (keepsAlarms_get h .coilOc).1 (keepsAlarms_get h .coilUv).1

/-- The switching of the outputs and the charger's answer keep the guard's settings. -/
theorem penTold_switched_settings (b : Option PenLevel) (s : State) : KeepsSettings (penTold b (switchOutputs s)).guard s.guard := by
  have htold := penTold_settings b (switchOutputs s)
  have hout := (switchOutputs_settings s).1
  simp only [KeepsSettings, KeepsMarks] at *
  simp only [htold, hout, and_self]

/-! ## The steps of ALARM-CLEAR (R142) -/

/-- The guard with the named causes cleared, and the pen re-granted where a cap is removed. -/
def clearedGuard (m : Nat) (s : State) : Guard :=
  if (m.testBit 2 && s.guard.cap.isSome) = true then Guard.regrant { s.guard with cap := none, alarms := clearedAlarms m s }
  else { s.guard with alarms := clearedAlarms m s }

/-- The clear with its BUDGET notice, the outputs switched and the charger told. -/
def clearWritten (m : Nat) (s : State) : State :=
  penTold s.guard.penGrant (switchOutputs (postBudget s.guard .clear { s with guard := clearedGuard m s }))

/-- The clear with the rail's return reported. -/
def clearRailTold (m : Nat) (s : State) : State :=
  let x := clearWritten m s
  if (railLatched s && !railLatched x && x.link.state = .faulted && x.att.present) = true then enterPowering false x else x

theorem clearAlarms_eq (m : Nat) (s : State) :
    clearAlarms m s =
      if (coilLatched s && !coilLatched (clearRailTold m s)) = true then coilLatchGone (clearRailTold m s) else clearRailTold m s := by
  have hguard : (if (m.testBit 2 && s.guard.cap.isSome) = true then
      ({ s with guard := Guard.regrant { s.guard with cap := none, alarms := clearedAlarms m s } } : State)
      else { s with guard := { s.guard with alarms := clearedAlarms m s } }) = { s with guard := clearedGuard m s } := by
    unfold clearedGuard
    split <;> rfl
  simp only [clearAlarms, clearNamed_alarms, named_testBit]
  rw [show (if (m.testBit 2 && s.guard.cap.isSome) = true then
      ({ s with guard := Guard.regrant { s.guard with cap := none, alarms := clearedAlarms m s } } : State)
      else { s with guard := { s.guard with alarms := clearedAlarms m s } }) = _ from hguard]
  rfl

theorem clearedGuard_alarms (m : Nat) (s : State) : (clearedGuard m s).alarms = clearedAlarms m s := by
  unfold clearedGuard
  split <;> simp

theorem clearedGuard_figures (m : Nat) (s : State) :
    (clearedGuard m s).profiles = s.guard.profiles ∧ (clearedGuard m s).active = s.guard.active ∧
    (clearedGuard m s).baseGrant = s.guard.baseGrant ∧ (clearedGuard m s).cap = if m.testBit 2 then none else s.guard.cap := by
  unfold clearedGuard
  cases hbit : m.testBit 2 <;> cases hcap : s.guard.cap <;> simp [hcap]

theorem clearWritten_settings (m : Nat) (s : State) : KeepsSettings (clearWritten m s).guard (clearedGuard m s) := by
  have hset := penTold_switched_settings s.guard.penGrant (postBudget s.guard .clear { s with guard := clearedGuard m s })
  have hguard : (postBudget s.guard .clear { s with guard := clearedGuard m s }).guard = clearedGuard m s := by simp
  rw [hguard] at hset
  exact hset

theorem clearWritten_quiet (m : Nat) (s : State) : StaysQuiet (clearWritten m s) { s with guard := clearedGuard m s } :=
  staysQuiet_trans (penTold_quiet _ _) (staysQuiet_trans (switchOutputs_quiet _) (staysQuiet_of (by simp)))

theorem clearWritten_base (m : Nat) (s : State) : (clearWritten m s).link = s.link ∧ (clearWritten m s).att = s.att := by
  simp [clearWritten]

theorem clearRailTold_alarms (m : Nat) (s : State) :
    KeepsAlarms (clearRailTold m s) (clearWritten m s) ∧ StaysQuiet (clearRailTold m s) (clearWritten m s) := by
  unfold clearRailTold
  dsimp only
  split
  · exact ⟨enterPowering_alarms false _, enterPowering_quiet false _⟩
  · exact ⟨by simp [KeepsAlarms, KeepsMarks], staysQuiet_of rfl⟩

theorem clearAlarms_rail (m : Nat) (s : State) :
    KeepsSettings (clearAlarms m s).guard (clearRailTold m s).guard ∧ StaysQuiet (clearAlarms m s) (clearRailTold m s) ∧
    (clearAlarms m s).link = (clearRailTold m s).link := by
  rw [clearAlarms_eq]
  split
  · exact ⟨coilLatchGone_settings _, coilLatchGone_quiet _, by simp⟩
  · exact ⟨by simp [KeepsSettings, KeepsMarks], staysQuiet_of rfl, rfl⟩

/-- From the clear itself on the latches, the sticky states and the cap stay, and what is not detected stays so. -/
theorem clearAlarms_alarms (m : Nat) (s : State) :
    KeepsAlarms (clearAlarms m s) { s with guard := clearedGuard m s } ∧ StaysQuiet (clearAlarms m s) { s with guard := clearedGuard m s } := by
  obtain ⟨hsettings, hquiet, _⟩ := clearAlarms_rail m s
  obtain ⟨hrail, hrailQuiet⟩ := clearRailTold_alarms m s
  exact ⟨keepsAlarms_trans (keepsAlarms_of_settings hsettings) (keepsAlarms_trans hrail
      (keepsAlarms_of_settings (s := { s with guard := clearedGuard m s }) (clearWritten_settings m s))),
    staysQuiet_trans hquiet (staysQuiet_trans hrailQuiet (clearWritten_quiet m s))⟩

theorem clearAlarms_named (m : Nat) (s : State) (c : OutCause)
    (h : m.testBit (match c with | .railOc => 0 | .railUv => 1 | .coilOc => 2 | .coilUv => 3) = true) :
    ((clearAlarms m s).guard.alarms.get (causeOf c)).latch = false ∧ ((clearAlarms m s).guard.alarms.get (causeOf c)).detected = false := by
  obtain ⟨hkeeps, hquiet⟩ := clearAlarms_alarms m s
  obtain ⟨hlatch, hdetected⟩ := clearedAlarms_named m s c h
  refine ⟨(keepsAlarms_get hkeeps _).1.trans ?_, hquiet _ ?_⟩
  · exact (congrArg (fun a : PerCause Alarm => (a.get (causeOf c)).latch) (clearedGuard_alarms m s)).trans hlatch
  · exact (congrArg (fun a : PerCause Alarm => (a.get (causeOf c)).detected) (clearedGuard_alarms m s)).trans hdetected

theorem clearAlarms_other (m : Nat) (s : State) (c : OutCause)
    (h : m.testBit (match c with | .railOc => 0 | .railUv => 1 | .coilOc => 2 | .coilUv => 3) = false) :
    ((clearAlarms m s).guard.alarms.get (causeOf c)).latch = (s.guard.alarms.get (causeOf c)).latch :=
  ((keepsAlarms_get (clearAlarms_alarms m s).1 _).1.trans
    (congrArg (fun a : PerCause Alarm => (a.get (causeOf c)).latch) (clearedGuard_alarms m s))).trans
    (congrArg Alarm.latch (clearedAlarms_other m s c h))

theorem clearedAlarm_sticky (b : Bool) (c : OutCause) (a : Alarm) : (clearedAlarm b c a).sticky = a.sticky := by
  cases b <;> rfl

theorem clearAlarms_sticky (m : Nat) (s : State) (c : Cause) :
    ((clearAlarms m s).guard.alarms.get c).sticky = (s.guard.alarms.get c).sticky := by
  refine ((keepsAlarms_get (clearAlarms_alarms m s).1 c).2.trans
    (congrArg (fun a : PerCause Alarm => (a.get c).sticky) (clearedGuard_alarms m s))).trans ?_
  cases c with
  | dieOt => rfl
  | railOc | railUv | coilOc | coilUv => exact clearedAlarm_sticky _ _ _

theorem clearAlarms_dieOt (m : Nat) (s : State) : (clearAlarms m s).guard.alarms.dieOt = s.guard.alarms.dieOt := by
  have h : (clearAlarms m s).guard.alarms.dieOt = (clearedGuard m s).alarms.dieOt := (clearAlarms_alarms m s).1.2.1
  rw [h, clearedGuard_alarms]
  rfl

theorem clearAlarms_cap (m : Nat) (s : State) : (clearAlarms m s).guard.cap = if m.testBit 2 then none else s.guard.cap :=
  (clearAlarms_alarms m s).1.1.trans (clearedGuard_figures m s).2.2.2

/-- After a clear the rail is latched as it was when the rail's return was looked for. -/
theorem clearAlarms_railLatched (m : Nat) (s : State) : railLatched (clearAlarms m s) = railLatched (clearWritten m s) :=
  (keepsAlarms_railLatched (keepsAlarms_of_settings (clearAlarms_rail m s).1)).trans
    (keepsAlarms_railLatched (clearRailTold_alarms m s).1)

theorem clearAlarms_coilLatched (m : Nat) (s : State) : coilLatched (clearAlarms m s) = coilLatched (clearRailTold m s) :=
  keepsAlarms_coilLatched (keepsAlarms_of_settings (clearAlarms_rail m s).1)

/-- The link powers up when its rail returns and the allowance fits (R45, R142). -/
theorem clearAlarms_powers {m : Nat} {s : State} (hwas : railLatched s = true) (hgone : railLatched (clearAlarms m s) = false)
    (hlink : s.link.state = .faulted) (hpresent : s.att.present = true) (h0 : s.guard.baseGrant = 0) (hb : 250 ≤ s.guard.budget) :
    (clearAlarms m s).link.state = .powering ∧ (clearAlarms m s).link.railUp = some 200 ∧ (clearAlarms m s).guard.baseGrant = 250 := by
  obtain ⟨hsettings, _, hsame⟩ := clearAlarms_rail m s
  obtain ⟨hwlink, hwatt⟩ := clearWritten_base m s
  have hset := clearWritten_settings m s
  obtain ⟨hprofiles, hactive, hbase, _⟩ := clearedGuard_figures m s
  have hrail : clearRailTold m s = enterPowering false (clearWritten m s) := by
    refine if_pos ?_
    rw [hwas, ← clearAlarms_railLatched, hgone, hwlink, hwatt, hlink, hpresent]
    rfl
  have hw0 : (clearWritten m s).guard.baseGrant = 0 := (hset.2.2.1.trans hbase).trans h0
  have hwb : (clearWritten m s).guard.budget = s.guard.budget := by
    rw [Guard.budget, Guard.budget, hset.1, hset.2.1, hprofiles, hactive]
  obtain ⟨hl, hg⟩ := (enterPowering_link false (clearWritten m s) hw0).1 (hwb ▸ hb)
  rw [hsame, hsettings.2.2.1, hrail, hl]
  exact ⟨rfl, rfl, hg⟩

/-- Without the rail's return the clear is what it wrote. -/
theorem clearRailTold_of_not {m : Nat} {s : State} (h : railLatched s = false) : clearRailTold m s = clearWritten m s := by
  refine if_neg ?_
  rw [h]
  exact Bool.false_ne_true

/-- A coil that returns alone takes the session to DETECT where TRICKLE fits (R151, R157). -/
theorem clearAlarms_detects {m : Nat} {s : State} (hrail : railLatched s = false) (hwas : coilLatched s = true)
    (hgone : coilLatched (clearAlarms m s) = false) (hsession : s.pen.session = .fault) (hfault : s.pen.fault = some .coilLatch)
    (hhold : s.pen.hold = none) (hroom : s.guard.baseGrant + 150 ≤ s.guard.budget) :
    (clearAlarms m s).pen.session = .detect ∧ (clearAlarms m s).pen.fault = none ∧ (clearAlarms m s).guard.claimed = some .trickle ∧
      (clearAlarms m s).guard.penGrant = some .trickle := by
  have hset := clearWritten_settings m s
  obtain ⟨hprofiles, hactive, hbase, _⟩ := clearedGuard_figures m s
  have hpen : (clearWritten m s).pen.session = s.pen.session ∧ (clearWritten m s).pen.fault = s.pen.fault ∧
      (clearWritten m s).pen.hold = s.pen.hold := by
    rw [clearWritten, penTold_inFault _ _ (by simpa using hsession)]
    simp
  have hdetect : clearAlarms m s = enterDetect (clearWritten m s) := by
    rw [clearAlarms_coilLatched, clearRailTold_of_not hrail] at hgone
    rw [clearAlarms_eq, clearRailTold_of_not hrail, if_pos (by rw [hwas, hgone]; rfl), coilLatchGone,
      if_pos ⟨hpen.1.trans hsession, hpen.2.1.trans hfault⟩]
  have hwb : (clearWritten m s).guard.budget = s.guard.budget := by
    rw [Guard.budget, Guard.budget, hset.1, hset.2.1, hprofiles, hactive]
  have hfits : levelMw .trickle + (clearWritten m s).guard.baseGrant ≤ (clearWritten m s).guard.budget := by
    rw [hwb, hset.2.2.1, hbase, Nat.add_comm]
    exact hroom
  obtain ⟨hst, hgrant, hclaimed, hnone⟩ := enterDetect_room (clearWritten m s) (hpen.2.2.trans hhold) hfits
  rw [hdetect]
  exact ⟨hst, hnone, hclaimed, hgrant⟩

/-- With no latch, no cap and the outputs as their conditions say, a clear changes the alarms alone and reports them (R142). -/
theorem clearAlarms_quiet {m : Nat} {s : State} (hrail : railLatched s = false) (hcoil : coilLatched s = false)
    (hcap : s.guard.cap = none) (hheld : s.held = false) (hout : OutputsFollow s) :
    clearAlarms m s = setInputs { s.policy.inputs with alarm := anyDetected (clearedAlarms m s) }
      { s with guard := { s.guard with alarms := clearedAlarms m s } } := by
  let u : State := { s with guard := { s.guard with alarms := clearedAlarms m s } }
  have hguard : clearedGuard m s = { s.guard with alarms := clearedAlarms m s } :=
    if_neg (by rw [hcap, Option.isSome_none, Bool.and_false]; exact Bool.false_ne_true)
  have hlatch (b : Bool) (c : OutCause) (a : Alarm) (h : a.latch = false) : (clearedAlarm b c a).latch = false := by
    cases b
    · exact h
    · rfl
  have hrailOff : railLatched u = false := by
    obtain ⟨hoc, huv⟩ := Bool.or_eq_false_iff.mp hrail
    exact Bool.or_eq_false_iff.mpr ⟨hlatch _ _ _ hoc, hlatch _ _ _ huv⟩
  have hcoilOff : coilLatched u = false := by
    obtain ⟨hoc, huv⟩ := Bool.or_eq_false_iff.mp hcoil
    exact Bool.or_eq_false_iff.mpr ⟨hlatch _ _ _ hoc, hlatch _ _ _ huv⟩
  have hconditions : coilConditions u = coilConditions s ∧ railConditions u = railConditions s := by
    rw [coilConditions, coilConditions, railConditions, railConditions, hrailOff, hcoilOff, hrail, hcoil]
    exact ⟨rfl, rfl⟩
  have hswitched : switchOutputs u = setInputs { s.policy.inputs with alarm := anyDetected (clearedAlarms m s) } u :=
    switchOutputs_still u ⟨(hout.1 hheld).1.trans hconditions.1.symm, (hout.1 hheld).2.trans hconditions.2.symm⟩
  have hwritten : clearWritten m s = setInputs { s.policy.inputs with alarm := anyDetected (clearedAlarms m s) } u := by
    have hbudget : postBudget s.guard .clear u = u := if_pos rfl
    rw [clearWritten, hguard, hbudget, hswitched]
    exact if_pos rfl
  rw [clearAlarms_eq, clearRailTold_of_not hrail, hcoil, hwritten]
  rfl

end Machine

/-- Settles O25. -/
theorem alarmClearClearsTheNamedCauses : Obligations.AlarmClearClearsTheNamedCauses := by
  intro s m hatt bit
  refine ⟨fun hbad => ?refused, fun hlow hhigh => ⟨clearAlarms m s, ?reply, fun c hc => ?named, fun c hc => ?other,
    clearAlarms_sticky m s, clearAlarms_dieOt m s, clearAlarms_cap m s,
    fun hwas hgone hlink hpresent h0 hb => clearAlarms_powers hwas hgone hlink hpresent h0 hb, clearAlarms_acts m s,
    fun hwas hgone hsession hfault hhold => ?held,
    fun hrail hwas hgone hsession hfault hhold hroom => clearAlarms_detects hrail hwas hgone hsession hfault hhold hroom, ?quiet⟩⟩
  case refused => exact replies_request (q := .alarmClear m) hatt rfl Request.noConfusion rfl (if_pos hbad)
  case reply =>
    have hrange : ¬ (m = 0 ∨ 16 ≤ m) := by omega
    exact replies_request (q := .alarmClear m) hatt rfl Request.noConfusion rfl (if_neg hrange)
  case named => exact clearAlarms_named m s c (by cases c <;> exact hc)
  case other => exact clearAlarms_other m s c (by cases c <;> exact hc)
  case held =>
    obtain ⟨_, _, _, hheld, _⟩ := clearAlarms_acts m s
    exact (hheld ⟨hwas, hgone, hsession, hfault⟩ hhold).1
  case quiet =>
    intro hrail hcoil hcap hout clear a after
    obtain ⟨hrailOc, hrailUv⟩ := Bool.or_eq_false_iff.mp hrail
    obtain ⟨hcoilOc, hcoilUv⟩ := Bool.or_eq_false_iff.mp hcoil
    have hclear (c : OutCause) (hoff : (s.guard.alarms.get (causeOf c)).latch = false) :
        clearedAlarm (m.testBit (bit c) && clearable c s) c (s.guard.alarms.get (causeOf c)) =
          clear c (s.guard.alarms.get (causeOf c)) := by
      have hclearable : clearable c s = (s.guard.alarms.get (causeOf c)).detected := by
        rw [clearable, alarmOf, hoff, hcap, Option.isSome_none, Bool.and_false, Bool.or_false, Bool.false_or]
      rw [hclearable]
      simp only [clearedAlarm, clear, Bool.and_eq_true]
    have hafter : clearedAlarms m s = after := by
      refine PerCause.mk.injEq .. ▸ ⟨hclear .railOc hrailOc, hclear .railUv hrailUv, hclear .coilOc hcoilOc, hclear .coilUv hcoilUv, rfl⟩
    rw [clearAlarms_quiet hrail hcoil hcap hatt.1.1 hout, hafter]

end Sys2Proof

/-! PROOFS. The guard's requests: BUDGET-SET, and what a lowered and a raised budget leave of the grants, the link and the session. -/
namespace Sys2Proof
open Machine

namespace Machine

/-! ## The pen grant (R125, R129, R130) -/

/-- A pen grant that the charger's answer follows, in a session that is not PAUSED. -/
theorem penFollows_standing {g : Option PenLevel} {s t : State} (hs : s.pen.session ≠ .paused) (h : PenFollows g s t) :
    t.guard.penGrant = g ∧ t.guard.claimed = s.guard.claimed ∧
    (g ≠ s.guard.penGrant →
      t.pen.session = if s.pen.session ∈ [.detect, .softStart, .charging, .topped] ∧ g = none then .paused else s.pen.session) := by
  unfold PenFollows at h
  split at h
  case isTrue heq =>
    obtain ⟨hgrant, _, hclaimed, _⟩ := h
    exact ⟨hgrant, hclaimed, fun hne => absurd heq hne⟩
  case isFalse =>
    split at h
    case isTrue hpaused =>
      obtain ⟨hst, hclaimed, hgrant, _⟩ := h
      exact ⟨hgrant.trans hpaused.2.symm, hclaimed, fun _ => hst.trans (if_pos hpaused).symm⟩
    case isFalse hdraws =>
      rw [if_neg fun hpaused => hs hpaused.1] at h
      obtain ⟨hgrant, hst, hclaimed, _⟩ := h
      exact ⟨hgrant, hclaimed, fun _ => hst.trans (if_neg hdraws).symm⟩

/-- With room for FAST, claimed and uncapped, the pen is re-granted FAST (R129). -/
theorem regranted_fast {g : Guard} {base : Nat} (hclaimed : g.claimed = some .fast) (hcap : g.cap = none) (hroom : 900 + base ≤ g.budget) :
    regranted g base = some .fast := by
  rw [regranted, hclaimed, hcap]
  have hfit : highestFit g base .fast = some .fast := by
    rw [highestFit, hcap, List.find?_cons_of_pos]
    simp only [levelMw, Nat.le_refl, decide_true, Option.all_none, Bool.true_and]
    exact decide_eq_true hroom
  cases hgrant : g.penGrant with
  | none => exact (if_pos ⟨by decide, rfl⟩).trans hfit
  | some l =>
    cases l with
    | trickle => exact (if_pos ⟨by decide, rfl⟩).trans hfit
    | steady => exact (if_pos ⟨by decide, rfl⟩).trans hfit
    | fast => exact if_neg fun h => absurd h.1 (by decide)

theorem rank_injective {a b : Option PenLevel} (h : rank a = rank b) : a = b := by
  cases a with
  | none =>
    cases b with
    | none => rfl
    | some l => cases l <;> exact absurd h (by decide)
  | some k =>
    cases b with
    | none => cases k <;> exact absurd h (by decide)
    | some l => cases k <;> cases l <;> first | rfl | exact absurd h (by decide)

theorem levelMw_pos (l : PenLevel) : 0 < levelMw l := by cases l <;> decide

/-- A grant that no longer fits is stepped down to the highest level below it that does (R130). -/
theorem steppedDown_spec {b base : Nat} {grant : Option PenLevel} (hbase : base ≤ b) (hover : b < base + grantMw grant) :
    rank (steppedDown b base grant) < rank grant ∧ base + grantMw (steppedDown b base grant) ≤ b ∧
    ∀ l, rank (some l) ≤ rank grant → base + levelMw l ≤ b → rank (some l) ≤ rank (steppedDown b base grant) := by
  rw [← lowerPen_grant]
  cases grant with
  | none => exact absurd hover (Nat.not_lt.mpr hbase)
  | some l =>
    obtain ⟨hle, hfits, hhighest⟩ := bestFit_spec b base l
    have hroom : base + grantMw (bestFit b base l) ≤ b := hfits.elim (fun h0 => by omega) id
    refine ⟨Nat.lt_of_le_of_ne hle fun heq => ?_, hroom, hhighest⟩
    rw [rank_injective (a := bestFit b base l) heq] at hroom
    exact absurd hover (Nat.not_lt.mpr hroom)

theorem steppedDown_none {b base : Nat} (grant : Option PenLevel) (h : b < base) : steppedDown b base grant = none := by
  refine List.find?_eq_none.mpr fun l _ => ?_
  have := levelMw_pos l
  simp only [Bool.and_eq_true, decide_eq_true_eq]
  omega

/-- A re-grant from 0 gives the highest level at or below the target that fits (R129). -/
theorem regranted_spec {g : Guard} {base : Nat} (hnone : g.penGrant = none) (hbase : base ≤ g.budget) :
    base + grantMw (regranted g base) ≤ g.budget ∧ rank (regranted g base) ≤ rank g.target ∧
    ∀ l, rank (some l) ≤ rank g.target → base + levelMw l ≤ g.budget → rank (some l) ≤ rank (regranted g base) := by
  have hregrant : regranted g base = g.target.bind (bestFit g.budget base) := by
    have h := regrant_grant { g with baseGrant := base }
    have hsame : regranted { g with baseGrant := base } base = regranted g base := rfl
    rw [show ({ g with baseGrant := base } : Guard).baseGrant = base from rfl, hsame] at h
    rw [← h, Guard.regrant]
    have htarget : ({ g with baseGrant := base } : Guard).target = g.target := rfl
    rw [htarget]
    cases g.target with
    | none => exact hnone
    | some l =>
      have hpos : rank ({ g with baseGrant := base } : Guard).penGrant < rank (some l) := by
        rw [show ({ g with baseGrant := base } : Guard).penGrant = none from hnone]
        cases l <;> decide
      simp only [if_pos hpos]
      rfl
  rw [hregrant]
  cases g.target with
  | none => exact ⟨hbase, Nat.le_refl _, fun l hl _ => hl⟩
  | some t =>
    obtain ⟨hle, hfits, hhighest⟩ := bestFit_spec g.budget base t
    exact ⟨hfits.elim (fun h0 => by rw [Option.bind_some, h0]; exact hbase) id, hle, hhighest⟩

/-! ## The budget lowered (R130) -/

section Lowered
variable (p : Profiles) (a : Nat) (s : State)

/-- The guard with the profiles replaced and the pen stepped down. -/
def loweredGuard : Guard := { s.guard with profiles := p, active := a, penGrant := steppedDown (p.get a) s.guard.baseGrant s.guard.penGrant }

theorem lowerBudget_keeping (h : s.guard.baseGrant ≤ p.get a) :
    lowerBudget p a s =
      penTold s.guard.penGrant (switchOutputs (postBudget s.guard .budget { s with guard := loweredGuard p a s })) := by
  have hlower := lower_grant s.guard p a
  dsimp only at hlower
  rw [if_neg (Nat.not_lt.mpr h)] at hlower
  rw [lowerBudget, hlower]
  rfl

/-- The guard with the base grant cut as well, and the pen re-granted. -/
def cutGuard : Guard := { loweredGuard p a s with baseGrant := 0, penGrant := regranted (loweredGuard p a s) 0 }

/-- The cut written and switched, before the link is told. -/
def cutWritten : State := switchOutputs (postBudget s.guard .budget { s with guard := cutGuard p a s })

theorem lowerBudget_cutting (h : p.get a < s.guard.baseGrant) :
    lowerBudget p a s = penTold s.guard.penGrant (enterUnpowered s.guard.baseGrant (cutWritten p a s)) := by
  have hlower := lower_grant s.guard p a
  dsimp only at hlower
  rw [if_pos h] at hlower
  rw [lowerBudget, hlower]
  rfl

theorem cutWritten_figures : (cutWritten p a s).guard.figures = (cutGuard p a s).figures :=
  (switchOutputs_keeps _).2.1.trans (by simp)

/-- A lowered budget that the base grant fits leaves the base and the link. -/
theorem lowerBudget_keeps (h : s.guard.baseGrant ≤ p.get a) :
    (lowerBudget p a s).guard.budget = p.get a ∧ (lowerBudget p a s).guard.active = a ∧
    (lowerBudget p a s).guard.baseGrant = s.guard.baseGrant ∧ (lowerBudget p a s).link = s.link := by
  rw [lowerBudget_keeping p a s h]
  have hset := penTold_switched_settings s.guard.penGrant (postBudget s.guard .budget { s with guard := loweredGuard p a s })
  have hguard : (postBudget s.guard .budget { s with guard := loweredGuard p a s }).guard = loweredGuard p a s := by simp
  rw [Guard.budget, hset.1, hset.2.1, hset.2.2.1, hguard]
  exact ⟨rfl, rfl, rfl, by simp⟩

/-- The link after a cut of the base's grant: UNPOWERED, ended and told (R61, R130). -/
theorem lowerBudget_cuts (h : p.get a < s.guard.baseGrant) :
    (lowerBudget p a s).guard.budget = p.get a ∧ (lowerBudget p a s).guard.baseGrant = 0 ∧
    (lowerBudget p a s).link.state = .unpowered ∧ LinkEnded .unpowered s (lowerBudget p a s) ∧
    (lowerBudget p a s).att.present = s.att.present ∧ (lowerBudget p a s).policy.events = s.policy.events ∧
    (s.mgmt.enables.attach = true → ∃ n, (lowerBudget p a s).mgmt.notices.attach = some n ∧
      n.notice = .attach (.unpowered s.guard.baseGrant)) := by
  rw [lowerBudget_cutting p a s h]
  have hwritten := cutWritten_figures p a s
  have hbase : (cutWritten p a s).link = s.link ∧ (cutWritten p a s).issuer = s.issuer ∧ (cutWritten p a s).pool = s.pool ∧
      (cutWritten p a s).route = s.route ∧ (cutWritten p a s).att = s.att ∧ (cutWritten p a s).policy.events = s.policy.events := by
    simp [cutWritten]
  obtain ⟨hlink, hissuer, hpool, hroute, hatt, hevents⟩ := hbase
  have henables : (cutWritten p a s).mgmt.enables = s.mgmt.enables :=
    (switchOutputs_notice .attach _).2.trans (postBudget_notice .attach _ _ _ (by decide)).2
  have h0 : (cutWritten p a s).guard.baseGrant = 0 := congrArg (fun f => f.2.2.1) hwritten
  have hfigures := (enterUnpowered_ungranted s.guard.baseGrant (cutWritten p a s) h0).2.1.trans hwritten
  have hended := enterUnpowered_ended s.guard.baseGrant (cutWritten p a s)
  have hposts := enterUnpowered_posts s.guard.baseGrant (cutWritten p a s)
  have hpresent : (enterUnpowered s.guard.baseGrant (cutWritten p a s)).att.present = s.att.present ∧
      (enterUnpowered s.guard.baseGrant (cutWritten p a s)).link.state = .unpowered := by
    simp [enterUnpowered, flushDown, stopLinkTimers, hatt]
  have hue := (enterUnpowered_moving s.guard.baseGrant (cutWritten p a s)).2
  generalize cutWritten p a s = w at *
  generalize enterUnpowered s.guard.baseGrant w = v at *
  have htold := penTold_settings s.guard.penGrant v
  simp only [KeepsSettings, KeepsMarks] at htold
  have hstate : (penTold s.guard.penGrant v).link = v.link ∧ (penTold s.guard.penGrant v).issuer = v.issuer ∧
      (penTold s.guard.penGrant v).pool = v.pool ∧ (penTold s.guard.penGrant v).route = v.route ∧
      (penTold s.guard.penGrant v).att = v.att ∧ (penTold s.guard.penGrant v).posture = v.posture := by simp
  obtain ⟨tlink, tissuer, tpool, troute, tatt, tposture⟩ := hstate
  have hnotice := penTold_notice .attach s.guard.penGrant v (by decide)
  refine ⟨?_, ?_, ?_, ?_, ?_, ?_, fun he => ?_⟩
  · rw [Guard.budget, htold.1, htold.2.1]
    exact congrArg (fun f => f.2.1) hfigures
  · rw [htold.2.2.1]
    exact congrArg (fun f => f.2.2.1) hfigures
  · rw [tlink]
    exact hpresent.2
  · exact linkEnded_of (linkEnded_from hended hissuer hpool hlink hroute hatt) tissuer tpool tlink troute (congrArg _ tposture)
      (by rw [tatt])
  · rw [tatt]
    exact hpresent.1
  · rw [penTold_events, hue, hevents]
  · obtain ⟨n, hn, hkind⟩ := hposts (henables ▸ he)
    exact ⟨n, hnotice.1.trans hn, hkind⟩

end Lowered

/-! ## The budget raised (R131) -/

/-- A claim of the allowance leaves the budget in force. -/
theorem enterPowering_budget (b : Bool) (s : State) : (enterPowering b s).guard.budget = s.guard.budget := by
  have hguard : (enterPowering b s).guard.profiles = s.guard.profiles ∧ (enterPowering b s).guard.active = s.guard.active := by
    unfold enterPowering
    dsimp only
    split
    case isTrue h =>
      have hclaim := claimBase_guard _ _ _ h
      simp [hclaim]
    case isFalse h =>
      have hclaim := claimBase_refused _ _ _ (Bool.not_eq_true _ ▸ h)
      simp [hclaim, enterUnpowered, releaseBase_guard, flushDown, stopLinkTimers]
  rw [Guard.budget, Guard.budget, hguard.1, hguard.2]

section Raised
variable (p : Profiles) (a : Nat) (s : State)

/-- The guard with the profiles replaced. -/
def replacedGuard : Guard := { s.guard with profiles := p, active := a }

/-- The base's part of a raise: a base that waits UNPOWERED claims the allowance. -/
def raiseServed : State :=
  if s.link.state = .unpowered ∧ s.att.present = true then enterPowering true { s with guard := replacedGuard p a s }
  else { s with guard := replacedGuard p a s }

theorem raiseBudget_eq :
    raiseBudget p a s =
      penTold s.guard.penGrant (switchOutputs (postBudget s.guard .budget
        { raiseServed p a s with guard := (raiseServed p a s).guard.regrant })) := rfl

/-- After the base's part a raise touches the pen alone. -/
theorem raiseBudget_served :
    (raiseBudget p a s).guard.budget = (raiseServed p a s).guard.budget ∧
    (raiseBudget p a s).guard.baseGrant = (raiseServed p a s).guard.baseGrant ∧
    (raiseBudget p a s).link = (raiseServed p a s).link ∧ (raiseBudget p a s).att = (raiseServed p a s).att ∧
    (raiseBudget p a s).issuer = (raiseServed p a s).issuer ∧ (raiseBudget p a s).pool = (raiseServed p a s).pool ∧
    (raiseBudget p a s).route = (raiseServed p a s).route ∧ (raiseBudget p a s).posture = (raiseServed p a s).posture ∧
    KeepsNotice .attach (raiseBudget p a s) (raiseServed p a s) := by
  rw [raiseBudget_eq]
  generalize raiseServed p a s = u
  have hwrite : (postBudget s.guard .budget { u with guard := u.guard.regrant }).guard = u.guard.regrant := by simp
  have hnotice := keepsNotice_trans (penTold_notice .attach s.guard.penGrant _ (by decide)) (keepsNotice_trans
    (switchOutputs_notice .attach (postBudget s.guard .budget { u with guard := u.guard.regrant }))
    (postBudget_notice .attach s.guard .budget { u with guard := u.guard.regrant } (by decide)))
  have hset := penTold_switched_settings s.guard.penGrant (postBudget s.guard .budget { u with guard := u.guard.regrant })
  refine ⟨?_, ?_, by simp, by simp, by simp, by simp, by simp, by simp, hnotice⟩
  · rw [Guard.budget, hset.1, hset.2.1, hwrite, regrant_rest]
    rfl
  · rw [hset.2.2.1, hwrite, regrant_rest]

/-- A base that waits UNPOWERED is served first where the allowance fits, and else told again (R61, R131). -/
theorem raiseBudget_serves (hlink : s.link.state = .unpowered) (hpresent : s.att.present = true) (h0 : s.guard.baseGrant = 0) :
    (raiseBudget p a s).guard.budget = p.get a ∧
    (250 ≤ p.get a → (raiseBudget p a s).link.state = .powering ∧ (raiseBudget p a s).link.railUp = some 200 ∧
      (raiseBudget p a s).guard.baseGrant = 250) ∧
    (p.get a < 250 → (raiseBudget p a s).link.state = .unpowered ∧ (raiseBudget p a s).guard.baseGrant = 0 ∧
      LinkEnded .unpowered s (raiseBudget p a s) ∧ (raiseBudget p a s).att.present = true ∧
      (s.mgmt.enables.attach = true →
        ∃ n, (raiseBudget p a s).mgmt.notices.attach = some n ∧ n.notice = .attach (.unpowered 250))) := by
  obtain ⟨hbudget, hbase, tlink, tatt, tissuer, tpool, troute, tposture, hnotice⟩ := raiseBudget_served p a s
  have hserved : raiseServed p a s = enterPowering true { s with guard := replacedGuard p a s } := if_pos ⟨hlink, hpresent⟩
  obtain ⟨hroom, hnone⟩ := enterPowering_link true { s with guard := replacedGuard p a s } h0
  have hprofiles : (raiseServed p a s).guard.budget = p.get a := by
    rw [hserved]
    exact enterPowering_budget true { s with guard := replacedGuard p a s }
  refine ⟨hbudget.trans hprofiles, fun hb => ?_, fun hb => ?_⟩
  · obtain ⟨hl, hg⟩ := hroom hb
    rw [tlink, hbase, hserved, hl]
    exact ⟨rfl, rfl, hg⟩
  · obtain ⟨hl, hg⟩ := hnone hb
    obtain ⟨hended, hpres, hposts⟩ := enterPowering_refused true { s with guard := replacedGuard p a s } h0 hb
      (by rw [hlink]; exact LinkState.noConfusion)
    rw [← hserved] at hl hg hended hpres hposts
    refine ⟨tlink ▸ hl, hbase.trans hg, ?_, ?_, fun he => ?_⟩
    · exact linkEnded_of (linkEnded_from hended rfl rfl rfl rfl rfl) tissuer tpool tlink troute (congrArg _ tposture) (by rw [tatt])
    · rw [tatt, hpres]
      exact hpresent
    · obtain ⟨n, hn, hkind⟩ := hposts he
      exact ⟨n, hnotice.1.trans hn, hkind⟩

/-- Without such a base a raise leaves the base's grant. -/
theorem raiseBudget_aside (h : ¬ (s.link.state = .unpowered ∧ s.att.present = true)) :
    (raiseBudget p a s).guard.budget = p.get a ∧ (raiseBudget p a s).guard.baseGrant = s.guard.baseGrant := by
  obtain ⟨hbudget, hbase, _⟩ := raiseBudget_served p a s
  have hserved : raiseServed p a s = { s with guard := replacedGuard p a s } := if_neg h
  rw [hbudget, hbase, hserved]
  exact ⟨rfl, rfl⟩

end Raised

/-! ## BUDGET-SET (R122, R124) -/

/-- A value that BUDGET-SET refuses (R124). -/
def badBudgetValue (v : Option Nat) : Prop := ∃ n, v = some n ∧ (4500 < n ∨ n % 50 ≠ 0)

theorem valueOk_iff (v : Option Nat) : valueOk v = true ↔ ¬ badBudgetValue v := by
  cases v with
  | none => simp [valueOk, badBudgetValue]
  | some n =>
    simp only [valueOk, badBudgetValue, Option.all_some, Option.some.injEq, exists_eq_left', Bool.and_eq_true, decide_eq_true_eq,
      beq_iff_eq]
    omega

/-- The profiles that a BUDGET-SET leaves. -/
def profilesAfter (a : BudgetArg) (p : Profiles) : Profiles := ⟨a.value0.getD p.p0, a.value1.getD p.p1, a.value2.getD p.p2, a.value3.getD p.p3⟩

/-- What BUDGET-SET refuses whole (R124). -/
def badBudget (a : BudgetArg) : Prop :=
  (∃ n, a.profile = some n ∧ 3 < n) ∨ badBudgetValue a.value0 ∨ badBudgetValue a.value1 ∨ badBudgetValue a.value2 ∨
    badBudgetValue a.value3

theorem budgetSetTaken_eq (a : BudgetArg) (s : State) [Decidable (badBudget a)] :
    budgetSetTaken a s =
      if badBudget a then (s, .refused)
      else (changeBudget (profilesAfter a s.guard.profiles) (a.profile.getD s.guard.active) s, .ok) := by
  have hprofile : a.profile.all (fun n => decide (n ≤ 3)) = true ↔ ¬ ∃ n, a.profile = some n ∧ 3 < n := by
    cases a.profile <;> simp
  have hok : (a.profile.all (fun n => decide (n ≤ 3)) && valueOk a.value0 && valueOk a.value1 && valueOk a.value2 &&
      valueOk a.value3) = true ↔ ¬ badBudget a := by
    simp only [Bool.and_eq_true, hprofile, valueOk_iff, badBudget, not_or, and_assoc]
  rw [budgetSetTaken]
  by_cases hbad : badBudget a
  · rw [if_pos hbad, if_neg (fun h => hok.mp h hbad)]
  · rw [if_neg hbad, if_pos (hok.mpr hbad)]
    rfl

end Machine
end Sys2Proof

/-! PROOFS. The guard's requests: BUDGET-SET settled. -/
namespace Sys2Proof
open Machine

namespace Machine

/-- A lowered budget beside which both grants fit changes no grant; it is posted, and the outputs report (R130, R133). -/
theorem lowerBudget_fitting {p : Profiles} {a : Nat} {s : State} (hheld : s.held = false) (hnew : p.get a < s.guard.budget)
    (hfits : s.guard.baseGrant + grantMw s.guard.penGrant ≤ p.get a) (hout : OutputsFollow s) :
    let u := { s with guard := replacedGuard p a s }
    lowerBudget p a s =
      setInputs { s.policy.inputs with alarm := anyDetected s.guard.alarms }
        (post (.budget a (p.get a) u.guard.baseGrant u.guard.penGrant u.guard.claimed u.guard.cap .budget) u) := by
  intro u
  have hguard : loweredGuard p a s = replacedGuard p a s := by
    rw [loweredGuard, ← lowerPen_grant, lowerPen_fits _ _ _ hfits]
    rfl
  have hfigures : u.guard.figures ≠ s.guard.figures := fun h => Nat.ne_of_lt hnew (congrArg (fun f => f.2.1) h)
  have hposted : postBudget s.guard .budget u =
      post (.budget a (p.get a) u.guard.baseGrant u.guard.penGrant u.guard.claimed u.guard.cap .budget) u := if_neg hfigures
  have hconditions : ∀ v : State, v.guard = u.guard → v.pen = s.pen → v.att = s.att →
      v.guard.coilOn = coilConditions v ∧ v.guard.railOn = railConditions v := by
    intro v hv hpen hatt
    obtain ⟨hcoil, hrail⟩ := hout.1 hheld
    rw [coilConditions, railConditions, coilLatched, railLatched, hv, hpen, hatt]
    exact ⟨hcoil, hrail⟩
  rw [lowerBudget_keeping p a s (by omega), hguard, hposted]
  generalize hn : Notice.budget a (p.get a) u.guard.baseGrant u.guard.penGrant u.guard.claimed u.guard.cap .budget = n
  have hpost : (post n u).guard = u.guard ∧ (post n u).pen = s.pen ∧ (post n u).att = s.att ∧ (post n u).policy = s.policy := by
    simp [u]
  obtain ⟨hpg, hpp, hpa, hpp'⟩ := hpost
  rw [show (switchOutputs (post n { s with guard := replacedGuard p a s })) = _ from
    switchOutputs_still (post n u) (hconditions _ hpg hpp hpa), hpg, hpp']
  exact if_pos (congrArg Guard.penGrant hpg)

/-- A BUDGET-SET that passes its checks is replied to with what the change leaves. -/
theorem replies_budgetSet {a : BudgetArg} {s t : State} {content : List Byte} (hatt : Attentive s) (hgood : ¬ badBudget a)
    (ht : changeBudget (profilesAfter a s.guard.profiles) (a.profile.getD s.guard.active) s = t) (hcontent : budgetContent t = content) :
    Replies (.budgetSet a) s 0x0E#8 .ok content t := by
  classical
  refine replies_request (q := .budgetSet a) hatt rfl Request.noConfusion rfl ?_
  rw [ownerAnswer, answerBudgetSet, budgetSetTaken_eq, if_neg hgood, ht, ← hcontent]

/-- The claim BUDGET-PROFILE is the change to that profile (R123). -/
theorem budgetProfile_eq (n : Nat) (s : State) : budgetProfile n s = changeBudget s.guard.profiles n s := by
  unfold budgetProfile
  split
  case isTrue h =>
    have hsame : s.guard.profiles.get n = s.guard.budget := h ▸ rfl
    unfold changeBudget
    rw [hsame, if_neg (Nat.lt_irrefl _), if_neg (Nat.lt_irrefl _), h]
  case isFalse => rfl

end Machine

/-- Settles O27. -/
theorem budgetSetReplacesTheProfiles : Obligations.BudgetSetReplacesTheProfiles := by
  intro s a hatt badValue bad p p' active new raised
  have hrefused (hbad : bad) : Replies (.budgetSet a) s 0x0E#8 .refused (budgetContent s) s := by
    classical
    refine replies_request (q := .budgetSet a) hatt rfl Request.noConfusion rfl ?_
    rw [ownerAnswer, answerBudgetSet, budgetSetTaken_eq, if_pos (show badBudget a from hbad)]
  have hreply (hgood : ¬ bad) : Replies (.budgetSet a) s 0x0E#8 .ok (budgetContent (changeBudget p' active s)) (changeBudget p' active s) :=
    replies_budgetSet hatt hgood rfl rfl
  have hlower (h : new < s.guard.budget) : changeBudget p' active s = lowerBudget p' active s := if_pos h
  have hraise (h : s.guard.budget < new) : changeBudget p' active s = raiseBudget p' active s :=
    (if_neg (Nat.not_lt.mpr (Nat.le_of_lt h))).trans (if_pos h)
  have hsame (h : new = s.guard.budget) : changeBudget p' active s = { s with guard := { s.guard with profiles := p', active := active } } :=
    (if_neg (Nat.not_lt.mpr (Nat.le_of_eq h.symm))).trans (if_neg (Nat.not_lt.mpr (Nat.le_of_eq h)))
  refine ⟨hrefused, fun hgood h => ?same, fun hgood h hfits hout => ?fits, fun hgood h hbase hover hs => ?stepped, fun hgood h hbase => ?follows,
    fun hgood hover hbudget => ?cut, fun hgood h hlink hpresent h0 => ?serves, fun hgood h haside => ?aside,
    fun hgood h hlink hs hreq hclaimed hcap hroom => ?fast, fun n ev hn => ?claim⟩
  case same =>
    intro u
    have h' := hreply hgood
    rw [hsame h] at h'
    exact h'
  case fits =>
    intro u
    exact replies_budgetSet hatt hgood ((hlower h).trans (lowerBudget_fitting hatt.1.1 h hfits hout)) (by simp [budgetContent, u])
  case stepped =>
    have h' := hreply hgood
    rw [hlower h] at h'
    obtain ⟨hbudget, hactive, hgrant, hl⟩ := lowerBudget_keeps p' active s hbase
    obtain ⟨hfollows, htold⟩ := (lowerBudget_told p' active s).1 hbase
    obtain ⟨hpen, hclaimed, hst⟩ := penFollows_standing hs hfollows
    obtain ⟨hrank, hfits, hhighest⟩ := steppedDown_spec hbase hover
    refine ⟨lowerBudget p' active s, h', hbudget, hgrant, hclaimed, congrArg Link.state hl, ?_, ?_, ?_, ?_, fun he => ?_⟩
    · rw [hpen]; exact hrank
    · rw [hpen, hgrant]; exact hfits
    · rw [hpen, hgrant]; exact hhighest
    · rw [hpen]
      exact hst fun heq => absurd (congrArg rank heq) (Nat.ne_of_lt hrank)
    · obtain ⟨_, hposts⟩ := htold hs he
      obtain ⟨n, hn, hnotice⟩ := hposts fun heq => by
        have heq := congrArg (fun f => f.2.1) heq
        exact Nat.ne_of_lt h (hbudget.symm.trans heq)
      exact ⟨n, hn, by rw [hnotice, hactive, hbudget]⟩
  case follows =>
    have h' := hreply hgood
    rw [hlower h] at h'
    exact ⟨lowerBudget p' active s, h', (lowerBudget_told p' active s).1 hbase⟩
  case cut =>
    have h' := hreply hgood
    rw [hlower (Nat.lt_of_lt_of_le hover hbudget)] at h'
    obtain ⟨hb, h0, hl, hended, hpresent, hevents, hnotice⟩ := lowerBudget_cuts p' active s hover
    obtain ⟨hfollows, htold⟩ := (lowerBudget_told p' active s).2 hover
    refine ⟨lowerBudget p' active s, h', hb, h0, hl, hended, hpresent, hevents.trans hatt.1.2, hnotice, hfollows, htold, fun hs => ?_⟩
    obtain ⟨hpen, _, _⟩ := penFollows_standing hs hfollows
    obtain ⟨hfits, hrank, hhighest⟩ := regranted_spec (g := loweredGuard p' active s) (base := 0) (steppedDown_none _ hover) (Nat.zero_le _)
    rw [hpen]
    refine ⟨?_, hrank, fun l hl hm => hhighest l hl ?_⟩
    · rwa [Nat.zero_add] at hfits
    · rwa [Nat.zero_add]
  case serves =>
    have h' := hreply hgood
    rw [hraise h] at h'
    obtain ⟨hb, hroom, hnone⟩ := raiseBudget_serves p' active s hlink hpresent h0
    obtain ⟨htold, hrefused⟩ := (raiseBudget_told p' active s).2 hlink hpresent h0
    refine ⟨raiseBudget p' active s, h', hb, fun hbig => ?_, fun hsmall => ?_, fun hs hclaimed hcap hwide => ?_⟩
    · obtain ⟨hl, hup, hg⟩ := hroom hbig
      exact ⟨hl, hup, hg, htold hbig⟩
    · obtain ⟨hl, hg, hended, hpres, hnotice⟩ := hnone hsmall
      obtain ⟨hfollows, hbudget⟩ := hrefused hsmall
      exact ⟨hl, hg, hended, hpres, hfollows, hbudget, hnotice⟩
    · obtain ⟨hfollows, _⟩ := htold (by omega)
      obtain ⟨hpen, _, _⟩ := penFollows_standing (by rw [hs]; exact PenState.noConfusion) hfollows
      exact hpen.trans (regranted_fast hclaimed hcap hwide)
  case aside =>
    have h' := hreply hgood
    rw [hraise h] at h'
    have hnot : ¬ (s.link.state = .unpowered ∧ s.att.present = true) := fun ⟨hl, hp⟩ =>
      haside.elim (· hl) fun hno => Bool.false_ne_true (hno.symm.trans hp)
    obtain ⟨hb, hg⟩ := raiseBudget_aside p' active s hnot
    exact ⟨raiseBudget p' active s, h', hb, hg, (raiseBudget_told p' active s).1 hnot⟩
  case fast =>
    have h' := hreply hgood
    rw [hraise h] at h'
    have hnot : ¬ (s.link.state = .unpowered ∧ s.att.present = true) := fun hno => hlink hno.1
    obtain ⟨hb, hg⟩ := raiseBudget_aside p' active s hnot
    obtain ⟨hfollows, _⟩ := (raiseBudget_told p' active s).1 hnot
    obtain ⟨hpen, _, _⟩ := penFollows_standing (by rw [hs]; exact PenState.noConfusion) hfollows
    exact ⟨raiseBudget p' active s, h', hb, hg, hpen.trans (regranted_fast hclaimed hcap (by rw [Nat.add_comm]; exact hroom))⟩
  case claim =>
    have hgood : ¬ badBudget ⟨some n, none, none, none, none⟩ := by
      simp only [badBudget, badBudgetValue, Option.some.injEq, exists_eq_left', reduceCtorEq, false_and, exists_false, or_false]
      omega
    exact replies_budgetSet hatt hgood (budgetProfile_eq n s).symm rfl

end Sys2Proof

/-! PROOFS. The requests to the pen charger: CHARGE-SET and the claims CHARGE-HOLD and CHARGE-ALLOW. -/
namespace Sys2Proof
open Machine

namespace Machine

/-! ## What a claim for a level gives -/

/-- A session without room for its claim: PAUSED, the claim kept (R156). -/
def WaitsForRoom (l : PenLevel) (s t : State) : Prop :=
  t.pen.session = .paused ∧ t.pen.docked = s.pen.docked ∧ t.guard.claimed = some l ∧ t.guard.penGrant = none ∧
    t.guard.coilOn = false ∧ t.sleep.holds.chargeStarting = false

/-- A session's claim, by what fits beside the base's grant (R125, R128). -/
theorem sessionClaims_byFit {new : PenState} {l : PenLevel} {s t : State} (hset : KeepsSettings t.guard s.guard)
    (h : SessionClaims new l s t) :
    (∀ g, highestFit s.guard s.guard.baseGrant l = some g →
      t.guard.claimed = some l ∧ t.guard.penGrant = some g ∧ t.pen.session = new ∧
        t.sleep.holds.chargeStarting = decide (new = .softStart) ∧ SessionTold s.pen.session s t) ∧
    (highestFit s.guard s.guard.baseGrant l = none → WaitsForRoom l s t) := by
  obtain ⟨hprofiles, hactive, hbase, hcap, _⟩ := hset
  obtain ⟨hclaimed, hdocked, hfit⟩ := h
  rw [highestFit_congr hcap hprofiles hactive, hbase] at hfit
  refine ⟨fun g hg => ?_, fun hg => ?_⟩
  · rw [hg] at hfit
    exact ⟨hclaimed, hfit⟩
  · rw [hg] at hfit
    obtain ⟨hgrant, hst, hcoil, hstarting, _⟩ := hfit
    exact ⟨hst, hdocked, hclaimed, hgrant, hcoil, hstarting⟩

theorem claimSession_fault (new : PenState) (l : PenLevel) (s : State) : (claimSession new l s).pen.fault = none := by
  unfold claimSession
  dsimp only
  split <;> simp

/-- DETECT, or HELD under a hold, has no fault, and the hold stays (R151, R158). -/
theorem enterDetect_pen (s : State) : (enterDetect s).pen.fault = none ∧ (enterDetect s).pen.hold = s.pen.hold := by
  unfold enterDetect
  split
  · simp
  · exact ⟨claimSession_fault _ _ _, (claimSession_pen _ _ _).2.1⟩

theorem resumeSession_hold (s : State) : (resumeSession s).pen.hold = s.pen.hold := by
  unfold resumeSession enterSoftStart
  split
  · split
    · simp
    · exact (claimSession_pen _ _ _).2.1
  · exact (enterDetect_pen s).2

/-! ## A level requested (R160) -/

theorem setRequested_of_still {l : PenLevel} {s : State}
    (h : s.pen.session ∉ [.softStart, .charging, .paused] ∨ (s.pen.session ∈ [.softStart, .charging] ∧ l = s.pen.requested) ∨
      (s.pen.session = .paused ∧ s.pen.docked = false)) :
    setRequested l s = { s with pen := { s.pen with requested := l } } := by
  unfold setRequested
  dsimp only
  split
  case h_1 hs =>
    rw [hs] at h
    rcases h with h | h | h
    · exact absurd h (by decide)
    · exact if_pos h.2
    · exact absurd h.1 (by decide)
  case h_2 hs =>
    rw [hs] at h
    rcases h with h | h | h
    · exact absurd h (by decide)
    · exact if_pos h.2
    · exact absurd h.1 (by decide)
  case h_3 hs =>
    rw [hs] at h
    rcases h with h | h | h
    · exact absurd h (by decide)
    · exact absurd h.1 (by decide)
    · exact if_neg (by rw [h.2]; exact Bool.false_ne_true)
  case h_4 => rfl

theorem setRequested_requested (l : PenLevel) (s : State) : (setRequested l s).pen.requested = l := by
  unfold setRequested
  dsimp only
  (repeat' split) <;> simp [claimStep, enterSoftStart] <;> split <;> simp [claimSession_pen]

/-- A new level asked for by a session that charges: without room it is PAUSED (R156, R160). -/
theorem setRequested_waits {l : PenLevel} {s : State} (hs : s.pen.session ∈ [.softStart, .charging]) (hl : l ≠ s.pen.requested)
    (hfit : highestFit s.guard s.guard.baseGrant l = none) : WaitsForRoom l s (setRequested l s) := by
  let w := switchOutputs (claimStep (.claim l) { s with pen := { s.pen with requested := l } })
  have hgrant : w.guard.penGrant = none := by
    have hclaim := (claimStep_acts l { s with pen := { s.pen with requested := l } }).2.1
    simpa [w] using hclaim.trans hfit
  have hclaimed : w.guard.claimed = some l := by simp [w, claimStep]
  have hset : setRequested l s = goSession .paused none .keep w := by
    unfold setRequested
    dsimp only
    split
    case h_1 => exact (if_neg hl).trans (if_pos hgrant)
    case h_2 => exact (if_neg hl).trans (if_pos hgrant)
    case h_3 hpaused =>
      rw [hpaused] at hs
      exact absurd hs (by decide)
    case h_4 hsoft hcharging _ =>
      simp only [List.mem_cons, List.not_mem_nil, or_false] at hs
      exact hs.elim (absurd · hsoft) (absurd · hcharging)
  rw [hset]
  refine ⟨by simp, by simp [w], ?_, ?_, ?_, goSession_hold _ _ _ _⟩
  · rw [goSession_claimed]
    exact hclaimed
  · rw [goSession_grant]
    exact hgrant
  · rw [goSession_coil]
    simp [drawing]

/-- A level asked for by a session that waits docked for room: with room it starts, else it keeps waiting (R160). -/
theorem setRequested_docked {l : PenLevel} {s : State} (hs : s.pen.session = .paused) (hd : s.pen.docked = true) (hh : s.pen.hold = none) :
    (setRequested l s).guard.claimed = some l ∧
    (∀ g, highestFit s.guard s.guard.baseGrant l = some g → (setRequested l s).sleep.holds.chargeStarting = true) ∧
    (highestFit s.guard s.guard.baseGrant l = none → (setRequested l s).pen.session = .paused ∧ (setRequested l s).guard.penGrant = none) := by
  let x := claimStep (.claim l) { s with pen := { s.pen with requested := l } }
  have hgrant : x.guard.penGrant = highestFit s.guard s.guard.baseGrant l :=
    (claimStep_acts l { s with pen := { s.pen with requested := l } }).2.1
  have hset : setRequested l s = if x.guard.penGrant.isSome = true then enterSoftStart x else x := by
    unfold setRequested
    dsimp only
    split
    case h_1 hst => exact absurd (hs.symm.trans hst) PenState.noConfusion
    case h_2 hst => exact absurd (hs.symm.trans hst) PenState.noConfusion
    case h_3 => exact if_pos hd
    case h_4 hst => exact absurd hs hst
  have hsame : x.guard.claimed = some l ∧ x.pen = { s.pen with requested := l } := by simp [x, claimStep]
  cases hfit : highestFit s.guard s.guard.baseGrant l with
  | none =>
    rw [hset, if_neg (by rw [hgrant, hfit]; exact Bool.false_ne_true)]
    exact ⟨hsame.1, fun g hg => absurd hg.symm (Option.some_ne_none g), fun _ => ⟨by rw [hsame.2]; exact hs, hgrant.trans hfit⟩⟩
  | some g =>
    rw [hset, if_pos (by rw [hgrant, hfit]; rfl)]
    have hclaims := ((enterSoftStart_acts x).2 (by rw [hsame.2]; exact hh)).1
    have hguard : x.guard.cap = s.guard.cap ∧ x.guard.profiles = s.guard.profiles ∧ x.guard.active = s.guard.active ∧
        x.guard.baseGrant = s.guard.baseGrant := by simp [x, claimStep]
    obtain ⟨hcap, hprofiles, hactive, hbase⟩ := hguard
    have hfitx : highestFit x.guard x.guard.baseGrant x.pen.requested = some g := by
      rw [highestFit_congr hcap hprofiles hactive, hbase, hsame.2]
      exact hfit
    obtain ⟨hclaimed, _, _, hstarting, _⟩ := (sessionClaims_byFit (enterSoftStart_settings x) hclaims).1 g hfitx
    rw [hsame.2] at hclaimed
    exact ⟨hclaimed, fun _ _ => hstarting, fun hg => absurd hg (Option.some_ne_none g)⟩

/-! ## Holds (R158, R159) -/

theorem holdStops_iff (st : PenState) : holdStops st = true ↔ st ∈ [.detect, .softStart, .charging, .topped, .paused] := by
  cases st <;> decide

/-- A hold that stops no session is written alone; a request's stays (R158). -/
theorem holdClaim_of_still {src : ClaimSource} {s : State}
    (h : s.pen.hold.isSome = true ∨ s.pen.session ∉ [.detect, .softStart, .charging, .topped, .paused]) :
    holdClaim src s = { s with pen := { s.pen with hold := if s.pen.hold = some .request then some .request else some src } } := by
  unfold holdClaim
  cases hhold : s.pen.hold with
  | none =>
    rw [hhold] at h
    have hst : ¬ holdStops s.pen.session = true := fun hstops => h.elim Bool.false_ne_true (· ((holdStops_iff _).mp hstops))
    exact if_neg hst
  | some old =>
    cases old with
    | policy => rfl
    | request => simp only [if_true]; rw [← hhold]

/-- A hold stops a session that draws or waits (R158). -/
theorem holdClaim_stops {src : ClaimSource} {s : State} (hhold : s.pen.hold = none)
    (hs : s.pen.session ∈ [.detect, .softStart, .charging, .topped, .paused]) :
    (holdClaim src s).pen.session = .held ∧ (holdClaim src s).pen.hold = some src ∧ (holdClaim src s).guard.penGrant = none ∧
      (holdClaim src s).guard.claimed = none ∧ (holdClaim src s).guard.coilOn = false ∧
      (holdClaim src s).pen.docked = s.pen.docked ∧ SessionReleases .held none s (holdClaim src s) ∧
      BudgetTold .penRelease s (holdClaim src s) := by
  have hstops := (holdStops_iff _).mpr hs
  obtain ⟨hreleases, hbudget⟩ := holdClaim_acts src s hhold hstops
  have hclaim : holdClaim src s = goSession .held none .release { s with pen := { s.pen with hold := some src } } := by
    rw [holdClaim, hhold]
    exact if_pos hstops
  have hpen : (holdClaim src s).pen.hold = some src ∧ (holdClaim src s).pen.docked = s.pen.docked := by simp [hclaim]
  have hrest := hreleases
  obtain ⟨hst, _, hclaimed, hgrant, hcoil, _⟩ := hrest
  exact ⟨hst, hpen.1, hgrant, hclaimed, hcoil, hpen.2, hreleases, hbudget⟩

/-- A release of a request that ends no HELD session clears the hold alone (R159). -/
theorem releaseClaim_of_still {s : State} (h : s.pen.hold = none ∨ s.pen.session ≠ .held) :
    releaseClaim .request s = { s with pen := { s.pen with hold := none } } := by
  unfold releaseClaim
  split
  case isTrue hnone =>
    have hnone : s.pen.hold = none := hnone.elim id fun hpolicy => absurd hpolicy.1 (by decide)
    rw [← hnone]
  case isFalse hsome => exact if_neg (h.resolve_left fun hnone => hsome (.inl hnone))

/-- A release of a HELD session resumes it without its hold (R159). -/
theorem releaseClaim_resumes {s : State} (hhold : s.pen.hold.isSome = true) (hs : s.pen.session = .held) :
    releaseClaim .request s = resumeSession { s with pen := { s.pen with hold := none } } := by
  unfold releaseClaim
  rw [if_neg]
  · exact if_pos hs
  · rintro (hnone | ⟨hpolicy, _⟩)
    · rw [hnone] at hhold
      exact Bool.false_ne_true hhold
    · exact absurd hpolicy (by decide)

end Machine

/-- Settles O28. -/
theorem chargeRequestsMoveTheSession : Obligations.ChargeRequestsMoveTheSession := by
  intro s hatt best paused withHold
  have hlevel {l : PenLevel} {t : State} (ht : setRequested l s = t) : Replies (.chargeSetLevel l) s 0x0F#8 .ok (chargeRecord t) t :=
    replies_request (q := .chargeLevel l) hatt rfl Request.noConfusion rfl (ht ▸ rfl)
  have hhold {t : State} (ht : holdClaim .request s = t) : Replies .chargeSetHold s 0x0F#8 .ok (chargeRecord t) t :=
    replies_request (q := .chargeHold) hatt rfl Request.noConfusion rfl (ht ▸ rfl)
  have hrelease {t : State} (ht : releaseClaim .request s = t) : Replies .chargeSetRelease s 0x0F#8 .ok (chargeRecord t) t :=
    replies_request (q := .chargeRelease) hatt rfl Request.noConfusion rfl (ht ▸ rfl)
  have hrestart {a : Answer} (ha : answerChargeRestart s = a) : Replies .chargeSetRestart s 0x0F#8 a.status a.content a.after :=
    replies_request (q := .chargeRestart) hatt rfl Request.noConfusion rfl ha
  refine ⟨fun l => ⟨fun h => hlevel (setRequested_of_still h), fun hs hl => ?charging, fun hs hd hh => ?waits⟩,
    fun hh hs => ⟨_, hhold rfl, holdClaim_stops hh hs⟩, fun h => ?held, fun h => hrelease (releaseClaim_of_still h),
    fun hh hs => ?released, fun hs hf => ?restarts, fun h => ?locked, fun h => ?refused, fun ev => ?claims⟩
  case charging =>
    obtain ⟨hroom, hnone, hbudget⟩ := setRequested_charging l s (by simpa using hs) hl
    refine ⟨_, hlevel rfl, setRequested_requested l s, fun g hg => ?_, fun hg => ?_, hbudget⟩
    · obtain ⟨hgrant, hstays⟩ := hroom g hg
      exact ⟨hstays.2.1, hgrant, hstays.1, hstays⟩
    · obtain ⟨_, _, _, htold⟩ := hnone hg
      exact ⟨setRequested_waits hs hl hg, htold⟩
  case waits =>
    obtain ⟨hroom, hnone⟩ := setRequested_paused l s hs hd hh
    obtain ⟨hclaimed, hstarting, hwaits⟩ := setRequested_docked (l := l) hs hd hh
    refine ⟨_, hlevel rfl, setRequested_requested l s, hclaimed, fun g hg => ?_, fun hg => ?_⟩
    · obtain ⟨hst, hgrant, _, htold⟩ := hroom g hg
      exact ⟨hst, hgrant, hstarting g hg, htold⟩
    · obtain ⟨hst, hgrant⟩ := hwaits hg
      exact ⟨hst, hgrant, hnone hg⟩
  case held =>
    have hclaim := holdClaim_of_still (src := .request) h
    rw [ite_self] at hclaim
    exact hhold hclaim
  case released =>
    intro claim
    obtain ⟨hresumes, hbudget⟩ := releaseClaim_acts s hh hs
    have ht := releaseClaim_resumes hh hs
    have hset : KeepsSettings (releaseClaim .request s).guard s.guard := by
      rw [ht]
      exact resumeSession_settings _
    have hclaims : SessionClaims (if s.pen.docked then .softStart else .detect) claim (withHold none) (releaseClaim .request s) := by
      have h : if s.pen.docked = true then SessionClaims .softStart s.pen.requested (withHold none) (releaseClaim .request s)
          else SessionClaims .detect .trickle (withHold none) (releaseClaim .request s) := hresumes
      simp only [claim]
      cases hd : s.pen.docked with
      | true => rwa [if_pos hd] at h
      | false => rwa [if_neg (show ¬ s.pen.docked = true by rw [hd]; exact Bool.false_ne_true)] at h
    obtain ⟨hroom, hnone⟩ := sessionClaims_byFit (s := withHold none) hset hclaims
    refine ⟨_, hrelease rfl, ?_, fun g hg => ?_, hnone, hresumes, hbudget⟩
    · rw [ht, resumeSession_hold]
    · obtain ⟨hclaimed, hgrant, hst, _⟩ := hroom g hg
      exact ⟨hclaimed, hgrant, hst⟩
  case restarts =>
    have hanswer : answerChargeRestart s = withChargeRecord .ok (enterDetect s) := by
      rw [answerChargeRestart, hs]
      cases hfault : s.pen.fault with
      | none => rfl
      | some c =>
        cases c with
        | coilLatch => exact absurd hfault hf
        | penSilent => rfl
        | penReported => rfl
    obtain ⟨hheld, hfree⟩ := enterDetect_acts s
    obtain ⟨hfault, hkept⟩ := enterDetect_pen s
    have hfits (hh : s.pen.hold = none) := sessionClaims_byFit (enterDetect_settings s) (hfree hh).1
    refine ⟨enterDetect s, hrestart hanswer, hfault, fun hh g hg => ?_, fun hh hg => (hfits hh).2 hg, hfree, fun hh => ?_⟩
    · obtain ⟨hclaimed, hgrant, hst, _⟩ := (hfits hh).1 g hg
      exact ⟨hst, hgrant, hclaimed⟩
    · obtain ⟨hreleases, hbudget⟩ := hheld hh
      have hrest := hreleases
      obtain ⟨hst, _, hclaimed, hgrant, hcoil, _⟩ := hrest
      exact ⟨hst, hkept, hgrant, hclaimed, hcoil, hreleases, hbudget⟩
  case locked =>
    have hanswer : answerChargeRestart s = withChargeRecord .locked s := by
      rcases h with ⟨hs, hf⟩ | hs
      · rw [answerChargeRestart, hs, hf]
      · rw [answerChargeRestart, hs]
    exact hrestart hanswer
  case refused =>
    have hanswer : answerChargeRestart s = ⟨s, .refused, []⟩ := by
      rw [answerChargeRestart]
      cases hs : s.pen.session <;> first | rfl | (rw [hs] at h; exact absurd h (by decide))
    exact hrestart hanswer
  case claims =>
    refine ⟨fun hh hs => holdClaim_stops hh hs, fun h => holdClaim_of_still h, fun hh => ?_, fun hh => ?_⟩
    · refine if_pos ?_
      cases hhold : s.pen.hold with
      | none => exact .inl rfl
      | some src =>
        cases src with
        | policy => exact absurd hhold hh
        | request => exact .inr ⟨rfl, rfl⟩
    · have hclaim : releaseClaim .request s = releaseClaim .policy s := by
        unfold releaseClaim
        rw [hh]
        rfl
      exact hrelease hclaim

end Sys2Proof

/-! PROOFS. The guard's requests: GUARD-SET, its checks and the protections that it applies at once. -/
namespace Sys2Proof
open Machine

namespace Machine

/-! ## The checks (R144) -/

/-- A filter time outside its list (R144 step 1). -/
def badFilter (f : Option Nat) : Prop := ∃ n, f = some n ∧ (n < 1 ∨ 4 < n)

theorem filterInList_iff (f : Option Nat) : filterInList f = true ↔ ¬ badFilter f := by
  cases f with
  | none => simp [filterInList, badFilter]
  | some n =>
    simp only [filterInList, badFilter, Option.all_some, Option.some.injEq, exists_eq_left', Bool.and_eq_true, decide_eq_true_eq]
    omega

/-- What step 1 of R144 refuses. -/
def badLists (a : GuardArg) : Prop :=
  badFilter a.filterRailOc ∨ badFilter a.filterRailUv ∨ badFilter a.filterCoilOc ∨ badFilter a.filterCoilUv ∨
    ∃ n, a.mode = some n ∧ (n < 1 ∨ 2 < n)

/-- The mode that a GUARD-SET asks for, or the one in force. -/
def modeAfter (a : GuardArg) (g : Guard) : OcMode := match a.mode with | some 1 => .stop | some _ => .limit | none => g.mode

theorem settingsAfter_bad {a : GuardArg} (g : Guard) (h : badLists a) : settingsAfter a g = none := by
  unfold settingsAfter
  split
  case isFalse => rfl
  case isTrue hlists =>
    simp only [Bool.and_eq_true, filterInList_iff] at hlists
    obtain ⟨⟨⟨h1, h2⟩, h3⟩, h4⟩ := hlists
    obtain ⟨n, hn, hrange⟩ := (((h.resolve_left h1).resolve_left h2).resolve_left h3).resolve_left h4
    have hpick : pick ocModeList n = none := by
      refine Option.eq_none_iff_forall_not_mem.mpr fun m hm => ?_
      have hlt := pick_lt hm
      simp only [ocModeList, List.length_cons, List.length_nil] at hlt
      omega
    rw [hn]
    simp only [hpick, Option.map_none]

theorem settingsAfter_good {a : GuardArg} (g : Guard) (h : ¬ badLists a) :
    settingsAfter a g = some (settingsAfter.build a g (modeAfter a g)) := by
  simp only [badLists, not_or] at h
  obtain ⟨h1, h2, h3, h4, hmode⟩ := h
  have hlists : (filterInList a.filterRailOc && filterInList a.filterRailUv && filterInList a.filterCoilOc &&
      filterInList a.filterCoilUv) = true := by
    simp only [Bool.and_eq_true, filterInList_iff]
    exact ⟨⟨⟨h1, h2⟩, h3⟩, h4⟩
  rw [settingsAfter, if_pos hlists, modeAfter]
  cases hm : a.mode with
  | none => rfl
  | some n =>
    have hrange : n = 1 ∨ n = 2 := by
      by_contra hn
      exact hmode ⟨n, hm, by omega⟩
    rcases hrange with rfl | rfl <;> rfl

/-- GUARD-SET past its lists. -/
theorem guardSetTaken_good {a : GuardArg} {s : State} (h : ¬ badLists a) :
    guardSetTaken a s =
      (let n := settingsAfter.build a s.guard (modeAfter a s.guard)
       if n.bad then (s, .refused) else if n.locked s.guard then (s, .locked)
       else (protectNow s.guard { s with guard := writeSettings n s.guard }, .ok)) := by
  rw [guardSetTaken, settingsAfter_good s.guard h]

/-! ## What is newly protected (R139) -/

/-- A request enables the protection of a detected cause that has none and no latch. -/
def enablesDetected (e : Option Bool) (x : Alarm) : Prop := x.enabled = false ∧ e = some true ∧ x.detected = true ∧ x.latch = false

theorem newlyProtected_iff {b : Guard} {c : OutCause} {s : State} {e : Option Bool}
    (henabled : (s.guard.alarms.get (causeOf c)).enabled = e.getD (b.alarms.get (causeOf c)).enabled)
    (hdetected : (s.guard.alarms.get (causeOf c)).detected = (b.alarms.get (causeOf c)).detected)
    (hlatch : (s.guard.alarms.get (causeOf c)).latch = (b.alarms.get (causeOf c)).latch) :
    newlyProtected b c s = true ↔ enablesDetected e (b.alarms.get (causeOf c)) := by
  simp only [newlyProtected, alarmOf, henabled, hdetected, hlatch, enablesDetected, Bool.and_eq_true, Bool.not_eq_true', and_assoc]
  constructor
  · rintro ⟨hoff, hon, hdet, hl⟩
    rw [hoff] at hon
    cases e with
    | none => exact absurd hon Bool.false_ne_true
    | some v => exact ⟨hoff, congrArg some hon, hdet, hl⟩
  · rintro ⟨hoff, rfl, hdet, hl⟩
    exact ⟨hoff, rfl, hdet, hl⟩

/-- A newly protected cause has its protection enabled. -/
theorem newlyProtected_enabled {b : Guard} {c : OutCause} {s : State} (h : newlyProtected b c s = true) :
    (alarmOf (causeOf c) s).enabled = true := by
  simp only [newlyProtected, Bool.and_eq_true] at h
  exact h.1.1.2

theorem protectionFor_stop {b : Guard} {c : OutCause} {s : State} (h : newlyProtected b c s = true) (hc : c ≠ .coilOc) :
    protectionFor c s = .stop := by
  unfold protectionFor
  rw [if_pos (newlyProtected_enabled h)]
  cases c with
  | coilOc => exact absurd rfl hc
  | railOc | railUv | coilUv => rfl

/-- COIL-OC's protection: a LIMIT steps down from FAST or STEADY, everything else stops (R138, log 26). -/
theorem protectionFor_coilOc {b : Guard} {s : State} (h : newlyProtected b .coilOc s = true) :
    (s.guard.mode = .limit → s.guard.penGrant = some .fast → protectionFor .coilOc s = .limit .steady) ∧
    (s.guard.mode = .limit → s.guard.penGrant = some .steady → protectionFor .coilOc s = .limit .trickle) ∧
    (¬ (s.guard.mode = .limit ∧ (s.guard.penGrant = some .fast ∨ s.guard.penGrant = some .steady)) → protectionFor .coilOc s = .stop) := by
  unfold protectionFor
  rw [if_pos (newlyProtected_enabled h)]
  refine ⟨fun hm hg => by simp only [hm, hg], fun hm hg => by simp only [hm, hg], fun hnot => ?_⟩
  dsimp only
  split
  case h_1 hm hg => exact absurd ⟨hm, .inl hg⟩ hnot
  case h_2 hm hg => exact absurd ⟨hm, .inr hg⟩ hnot
  case h_3 => rfl

/-! ## The protections in their order (R139) -/

/-- The latches due are set. -/
def latchesSet (b : Guard) (s : State) : State := { s with guard := { s.guard with alarms := latchedAlarms b s } }

/-- The rail's protection is applied, once. -/
def railProtected (b : Guard) (s : State) : State :=
  if newlyProtected b .railOc s then protectIfDue b s .railOc (latchesSet b s) else protectIfDue b s .railUv (latchesSet b s)

/-- COIL-OC's protection is applied, unless a latch of COIL-UV stands for it. -/
def coilOcProtected (b : Guard) (s : State) : State :=
  if newlyProtected b .coilUv s ∧ protectionFor .coilOc s = .stop then railProtected b s
  else protectIfDue b s .coilOc (railProtected b s)

theorem protectNow_eq (b : Guard) (s : State) : protectNow b s = protectIfDue b s .coilUv (coilOcProtected b s) := by
  unfold protectNow
  dsimp only
  rw [latchIfDue_all]
  rfl

theorem protectIfDue_of_not {b : Guard} {c : OutCause} {s u : State} (h : ¬ newlyProtected b c s = true) : protectIfDue b s c u = u :=
  if_neg h

theorem protectIfDue_latches {b : Guard} {c : OutCause} {s u : State} (h : newlyProtected b c s = true)
    (hp : protectionFor c s = .stop) : protectIfDue b s c u = setLatch c u := by
  rw [protectIfDue, if_pos h, hp]
  rfl

theorem protectIfDue_caps {b : Guard} {s u : State} {cap : PenLevel} (h : newlyProtected b .coilOc s = true)
    (hp : protectionFor .coilOc s = .limit cap) : protectIfDue b s .coilOc u = setCap cap u := by
  rw [protectIfDue, if_pos h, hp]
  rfl

/-- Nothing newly protected leaves the rail as it is. -/
theorem railProtected_of_not {b : Guard} {s : State} (hoc : ¬ newlyProtected b .railOc s = true) (huv : ¬ newlyProtected b .railUv s = true) :
    railProtected b s = latchesSet b s := by
  rw [railProtected, if_neg hoc, protectIfDue_of_not huv]

/-- A cause of the rail newly protected latches the rail, once. -/
theorem railProtected_latches {b : Guard} {s : State} (h : newlyProtected b .railOc s = true ∨ newlyProtected b .railUv s = true) :
    ∃ c, (c = .railOc ∨ c = .railUv) ∧ railProtected b s = setLatch c (latchesSet b s) := by
  by_cases hoc : newlyProtected b .railOc s = true
  · exact ⟨.railOc, .inl rfl, by rw [railProtected, if_pos hoc, protectIfDue_latches hoc (protectionFor_stop hoc OutCause.noConfusion)]⟩
  · have huv := h.resolve_left hoc
    exact ⟨.railUv, .inr rfl, by rw [railProtected, if_neg hoc, protectIfDue_latches huv (protectionFor_stop huv OutCause.noConfusion)]⟩

/-- Nothing newly protected of the coil leaves it as it is. -/
theorem protectNow_of_noCoil {b : Guard} {s : State} (hoc : ¬ newlyProtected b .coilOc s = true)
    (huv : ¬ newlyProtected b .coilUv s = true) : protectNow b s = railProtected b s := by
  rw [protectNow_eq, protectIfDue_of_not huv, coilOcProtected, if_neg fun h => huv h.1, protectIfDue_of_not hoc]

/-- A STOP of the coil alone latches it, once. -/
theorem protectNow_stops {b : Guard} {s : State}
    (h : newlyProtected b .coilUv s = true ∨ (newlyProtected b .coilOc s = true ∧ protectionFor .coilOc s = .stop))
    (hoc : newlyProtected b .coilOc s = true → protectionFor .coilOc s = .stop) :
    ∃ c, (c = .coilOc ∨ c = .coilUv) ∧ protectNow b s = setLatch c (railProtected b s) := by
  by_cases huv : newlyProtected b .coilUv s = true
  · have hskip : coilOcProtected b s = railProtected b s := by
      unfold coilOcProtected
      split
      case isTrue => rfl
      case isFalse hno =>
        exact protectIfDue_of_not fun hnew => hno ⟨huv, hoc hnew⟩
    exact ⟨.coilUv, .inr rfl, by rw [protectNow_eq, hskip, protectIfDue_latches huv (protectionFor_stop huv OutCause.noConfusion)]⟩
  · obtain ⟨hnew, hstop⟩ := h.resolve_left huv
    exact ⟨.coilOc, .inl rfl, by
      rw [protectNow_eq, protectIfDue_of_not huv, coilOcProtected, if_neg fun h => huv h.1, protectIfDue_latches hnew hstop]⟩

/-- A LIMIT of the coil alone caps the pen. -/
theorem protectNow_caps {b : Guard} {s : State} {cap : PenLevel} (hnew : newlyProtected b .coilOc s = true)
    (hp : protectionFor .coilOc s = .limit cap) (huv : ¬ newlyProtected b .coilUv s = true) :
    protectNow b s = setCap cap (railProtected b s) := by
  rw [protectNow_eq, protectIfDue_of_not huv, coilOcProtected, if_neg fun h => huv h.1, protectIfDue_caps hnew hp]

/-! ## What the coil's protections leave of a rail that is down -/

/-- The link, what is told of it, the base's grant, the latches and a rail latched off are as they were. -/
def KeepsRailDown (v u : State) : Prop :=
  (v.link = u.link ∧ v.att = u.att ∧ v.issuer = u.issuer ∧ v.pool = u.pool ∧ v.route = u.route ∧ v.posture = u.posture) ∧
  v.policy.events = u.policy.events ∧ KeepsNotice .attach v u ∧ v.guard.baseGrant = u.guard.baseGrant ∧
  (∀ d, (u.guard.alarms.get d).latch = true → (v.guard.alarms.get d).latch = true) ∧
  (railLatched u = true → u.guard.railOn = false → v.guard.railOn = false)

theorem keepsRailDown_refl (u : State) : KeepsRailDown u u :=
  ⟨⟨rfl, rfl, rfl, rfl, rfl, rfl⟩, rfl, keepsNotice_of rfl, rfl, fun _ h => h, fun _ h => h⟩

theorem railLatched_of_latches {v u : State} (h : ∀ d, (u.guard.alarms.get d).latch = true → (v.guard.alarms.get d).latch = true)
    (hu : railLatched u = true) : railLatched v = true :=
  Bool.or_eq_true_iff.mpr ((Bool.or_eq_true_iff.mp hu).imp (h .railOc) (h .railUv))

theorem keepsRailDown_trans {w v u : State} (h : KeepsRailDown w v) (k : KeepsRailDown v u) : KeepsRailDown w u := by
  obtain ⟨⟨h1, h2, h3, h4, h5, h6⟩, hevents, hnotice, hgrant, hlatch, hrail⟩ := h
  obtain ⟨⟨k1, k2, k3, k4, k5, k6⟩, kevents, knotice, kgrant, klatch, krail⟩ := k
  exact ⟨⟨h1.trans k1, h2.trans k2, h3.trans k3, h4.trans k4, h5.trans k5, h6.trans k6⟩, hevents.trans kevents,
    keepsNotice_trans hnotice knotice, hgrant.trans kgrant, fun d hd => hlatch d (klatch d hd),
    fun hl ho => hrail (railLatched_of_latches klatch hl) (krail hl ho)⟩

theorem coilLatchTold_notice (s : State) : KeepsNotice .attach (coilLatchTold s) s := by
  unfold coilLatchTold
  split
  · exact keepsNotice_of rfl
  · exact keepsNotice_of rfl
  · exact keepsNotice_of rfl
  · exact goSession_notice .attach _ _ _ _ (by decide)

theorem setLatch_coil_keepsRail {c : OutCause} (hc : c = .coilOc ∨ c = .coilUv) (u : State) : KeepsRailDown (setLatch c u) u := by
  obtain ⟨_, hgrant, _, hrail, _, _, hlatches, _⟩ := setLatch_coil c u hc
  let x : State := switchOutputs (changeAlarm (causeOf c) (fun a => { a with latch := true, detected := true }) u)
  have hset : setLatch c u = coilLatchTold x := by rcases hc with rfl | rfl <;> rfl
  have hnotice : KeepsNotice .attach (setLatch c u) u := by
    rw [hset]
    exact keepsNotice_trans (coilLatchTold_notice x) (keepsNotice_trans (switchOutputs_notice .attach _) (keepsNotice_of (by simp [changeAlarm])))
  refine ⟨?_, ?_, hnotice, hgrant, hlatches, fun hl _ => hrail hl⟩
  · rw [hset]
    simp [x]
  · rw [hset]
    simp [x, changeAlarm]

theorem setCap_keepsRail (cap : PenLevel) (u : State) : KeepsRailDown (setCap cap u) u := by
  obtain ⟨_, hgrant, hrail, _, _, hlatches, _⟩ := setCap_effect cap u
  let capped : Guard := { u.guard with cap := some cap }
  let x : State := postBudget u.guard .limit
    { u with guard := { capped with penGrant := capped.target.bind (bestFit capped.budget capped.baseGrant) } }
  have hwritten : KeepsNotice .attach x u := postBudget_notice .attach _ _ _ (by decide)
  have hnotice : KeepsNotice .attach (setCap cap u) u :=
    keepsNotice_trans (penTold_notice .attach _ _ (by decide)) (keepsNotice_trans (switchOutputs_notice .attach
      (changeAlarm .coilOc (fun a => { a with detected := false, filter := if a.raw then some (filterLength .coilOc a) else none }) x)) hwritten)
  exact ⟨by simp [setCap], by simp [setCap, changeAlarm], hnotice, hgrant, fun d hd => (hlatches d).trans hd, fun hl _ => hrail hl⟩

theorem protectIfDue_coil_keepsRail (b : Guard) (s : State) {c : OutCause} (hc : c = .coilOc ∨ c = .coilUv) (u : State) :
    KeepsRailDown (protectIfDue b s c u) u := by
  unfold protectIfDue
  split
  case isFalse => exact keepsRailDown_refl u
  case isTrue =>
    cases protectionFor c s with
    | stop => exact setLatch_coil_keepsRail hc u
    | limit cap => exact setCap_keepsRail cap u
    | off => exact keepsRailDown_refl u
    | none => exact keepsRailDown_refl u

theorem protectNow_keepsRail (b : Guard) (s : State) : KeepsRailDown (protectNow b s) (railProtected b s) := by
  rw [protectNow_eq]
  refine keepsRailDown_trans (protectIfDue_coil_keepsRail b s (.inr rfl) _) ?_
  unfold coilOcProtected
  split
  · exact keepsRailDown_refl _
  · exact protectIfDue_coil_keepsRail b s (.inl rfl) _

end Machine
end Sys2Proof

/-! PROOFS. The guard's requests: GUARD-SET settled. -/
namespace Sys2Proof
open Machine

namespace Machine

theorem keepsSession_latchesSet (b : Guard) (s : State) : KeepsSession (latchesSet b s) s := by simp [KeepsSession, latchesSet]

theorem latchedAlarms_latch (b : Guard) (s : State) {c : OutCause} (h : newlyProtected b c s = true) (hp : protectionFor c s = .stop) :
    ((latchesSet b s).guard.alarms.get (causeOf c)).latch = true := by
  cases c <;> simp [latchesSet, latchedAlarms, PerCause.get, causeOf, h, hp]

/-- The rail latched by a newly enabled protection: off, the link FAULTED, ended and told (R62, R137, R139). -/
theorem protectNow_rail {b : Guard} {s : State} (h : newlyProtected b .railOc s = true ∨ newlyProtected b .railUv s = true) :
    let t := protectNow b s
    (newlyProtected b .railOc s = true → t.guard.alarms.railOc.latch = true) ∧
    (newlyProtected b .railUv s = true → t.guard.alarms.railUv.latch = true) ∧ t.guard.railOn = false ∧
    t.link.state = .faulted ∧ t.guard.baseGrant = 0 ∧ LinkEnded .faulted s t ∧ .baseFault ∈ t.policy.events ∧
    (¬ newlyProtected b .coilOc s = true → ¬ newlyProtected b .coilUv s = true →
      PenFollows (afterRelease s.guard) s t ∧ BudgetTold .baseRelease s t) ∧
    (s.mgmt.enables.attach = true → ∃ p, t.mgmt.notices.attach = some p ∧ p.notice = .attach .faulted) := by
  intro t
  obtain ⟨c, hc, hrail⟩ := railProtected_latches h
  obtain ⟨⟨tlink, tatt, tissuer, tpool, troute, tposture⟩, hevents, hnotice, hgrant, hlatches, hoff⟩ := protectNow_keepsRail b s
  obtain ⟨hstate, hbase, hrailOff, _, hlatch, hkept, _⟩ := setLatch_rail c (latchesSet b s) hc
  rw [← hrail] at hstate hbase hrailOff hlatch hkept
  have hlatched : railLatched (railProtected b s) = true := by
    rcases hc with rfl | rfl
    · exact Bool.or_eq_true_iff.mpr (.inl hlatch)
    · exact Bool.or_eq_true_iff.mpr (.inr hlatch)
  let x : State := switchOutputs (changeAlarm (causeOf c) (fun a => { a with latch := true, detected := true }) (latchesSet b s))
  have hfaulted : railProtected b s = enterFaulted x := by
    rw [hrail]
    rcases hc with rfl | rfl <;> rfl
  have hx : x.issuer = s.issuer ∧ x.pool = s.pool ∧ x.link = s.link ∧ x.route = s.route ∧ x.att = s.att ∧ x.mgmt = s.mgmt := by
    simp [x, latchesSet]
  obtain ⟨xissuer, xpool, xlink, xroute, xatt, xmgmt⟩ := hx
  refine ⟨fun hoc => ?_, fun huv => ?_, hoff hlatched hrailOff, ?_, hgrant.trans hbase, ?_, ?_, fun hoc huv => ?_, fun he => ?_⟩
  · exact hlatches .railOc (hkept .railOc (latchedAlarms_latch b s hoc (protectionFor_stop hoc OutCause.noConfusion)))
  · exact hlatches .railUv (hkept .railUv (latchedAlarms_latch b s huv (protectionFor_stop huv OutCause.noConfusion)))
  · exact (congrArg Link.state tlink).trans hstate
  · have hended := linkEnded_from (s := s) (enterFaulted_ended x) xissuer xpool xlink xroute xatt
    rw [← hfaulted] at hended
    exact linkEnded_of hended tissuer tpool tlink troute (congrArg _ tposture) (by rw [tatt])
  · refine hevents ▸ hfaulted ▸ ?_
    exact List.mem_append_right _ (List.mem_singleton.mpr rfl)
  · have htold := setLatch_railTold c (latchesSet b s) hc
    rw [← hrail, ← protectNow_of_noCoil hoc huv] at htold
    exact told_from (keepsSession_latchesSet b s) rfl rfl htold
  · obtain ⟨p, hp, hkind⟩ := enterFaulted_posts x (xmgmt ▸ he)
    rw [← hfaulted] at hp
    exact ⟨p, hnotice.1.trans hp, hkind⟩

/-- A STOP of the coil with nothing beside it tells the session's FAULT (R147, R157). -/
theorem protectNow_coilTold {b : Guard} {s : State}
    (h : newlyProtected b .coilUv s = true ∨ (newlyProtected b .coilOc s = true ∧ protectionFor .coilOc s = .stop))
    (hoc : newlyProtected b .coilOc s = true → protectionFor .coilOc s = .stop)
    (hrailOc : ¬ newlyProtected b .railOc s = true) (hrailUv : ¬ newlyProtected b .railUv s = true)
    (hs : s.pen.session ∉ [.noPen, .foreign, .fault]) :
    SessionReleases .fault (some .coilLatch) s (protectNow b s) ∧ BudgetTold .penRelease s (protectNow b s) := by
  obtain ⟨c, hc, hnow⟩ := protectNow_stops h hoc
  rw [railProtected_of_not hrailOc hrailUv] at hnow
  rw [hnow]
  exact releases_from (u := latchesSet b s) rfl rfl rfl rfl (setLatch_coilTold c (latchesSet b s) hc hs)

/-- A LIMIT of the coil with nothing beside it steps the pen down to its cap (R138). -/
theorem protectNow_capped {b : Guard} {s : State} {cap l : PenLevel} (hnew : newlyProtected b .coilOc s = true)
    (hp : protectionFor .coilOc s = .limit cap) (huv : ¬ newlyProtected b .coilUv s = true)
    (hrailOc : ¬ newlyProtected b .railOc s = true) (hrailUv : ¬ newlyProtected b .railUv s = true) (hclaimed : s.guard.claimed = some l)
    (hlow : minLevel l cap = cap) (hs : s.pen.session ≠ .paused) (hroom : levelMw cap + s.guard.baseGrant ≤ s.guard.budget) :
    (protectNow b s).guard.penGrant = some cap ∧ (protectNow b s).pen.session = s.pen.session := by
  obtain ⟨_, _, _, _, _, _, hcaps⟩ := setCap_effect cap (latchesSet b s)
  rw [protectNow_caps hnew hp huv, railProtected_of_not hrailOc hrailUv]
  exact hcaps l hclaimed hlow hs hroom

theorem protectNow_none {b : Guard} {s : State} (h : ∀ c, ¬ newlyProtected b c s = true) : protectNow b s = s := by
  rw [protectNow_of_noCoil (h _) (h _), railProtected_of_not (h _) (h _), latchesSet]
  have halarms : latchedAlarms b s = s.guard.alarms := by
    simp only [latchedAlarms, Bool.eq_false_iff.mpr (h _), Bool.false_and, Bool.or_false]
  rw [halarms]

end Machine

/-- Settles O26. -/
theorem guardSetWritesTheSettings : Obligations.GuardSetWritesTheSettings := by
  intro s a hatt al bad choice badList mode unguarded locked write written enables limits
  have hreply {t : State} {st : Status} {content : List Byte} (h : guardSetTaken a s = (t, st))
      (hcontent : (if st = .ok then guardSettings t.guard else []) = content) : Replies (.guardSet a) s 0x0D#8 st content t :=
    replies_request (q := .guardSet a) hatt rfl Request.noConfusion rfl (by rw [ownerAnswer, answerGuardSet, h, ← hcontent])
  let n := settingsAfter.build a s.guard mode
  have hbad : n.bad = true ↔ unguarded := by
    simp only [n, GuardSettings.bad, unprotected, Bool.or_eq_true, Bool.and_eq_true, beq_iff_eq, Bool.not_eq_true']
    exact Iff.rfl
  have hlocked : n.locked s.guard = true ↔ locked := by
    simp only [n, GuardSettings.locked, Bool.or_eq_true, Bool.and_eq_true, bne_iff_ne, locked, or_assoc]
    exact Iff.rfl
  have htaken (hlists : ¬ badList) (hgood : ¬ unguarded) (hfree : ¬ locked) :
      guardSetTaken a s = (protectNow s.guard written, .ok) :=
    (guardSetTaken_good hlists).trans ((if_neg (mt hbad.mp hgood)).trans (if_neg (mt hlocked.mp hfree)))
  have hok (hlists : ¬ badList) (hgood : ¬ unguarded) (hfree : ¬ locked) :
      Replies (.guardSet a) s 0x0D#8 .ok (guardSettings (protectNow s.guard written).guard) (protectNow s.guard written) :=
    hreply (htaken hlists hgood hfree) rfl
  have hrailOc : newlyProtected s.guard .railOc written = true ↔ enables a.enableRailOc al.railOc := newlyProtected_iff rfl rfl rfl
  have hrailUv : newlyProtected s.guard .railUv written = true ↔ enables a.enableRailUv al.railUv := newlyProtected_iff rfl rfl rfl
  have hcoilOc : newlyProtected s.guard .coilOc written = true ↔ enables a.enableCoilOc al.coilOc := newlyProtected_iff rfl rfl rfl
  have hcoilUv : newlyProtected s.guard .coilUv written = true ↔ enables a.enableCoilUv al.coilUv := newlyProtected_iff rfl rfl rfl
  have hstop (hnew : enables a.enableCoilOc al.coilOc) (hlim : ¬ limits) : protectionFor .coilOc written = .stop :=
    (protectionFor_coilOc (hcoilOc.mpr hnew)).2.2 hlim
  obtain ⟨hcap, hcoil⟩ := protectNow_coil s.guard written
  refine ⟨fun hlists => ?lists, fun hlists hun => ?unguarded, fun hlists hgood hlock => ?locked,
    fun hlists hgood hfree h1 h2 h3 h4 => ?written, fun hlists hgood hfree h => ⟨_, hok hlists hgood hfree, ?rail⟩,
    fun hlists hgood hfree h => ⟨_, hok hlists hgood hfree, ?coil⟩, fun cap hlevel hlists hgood hfree hnew hmode =>
    ⟨_, hok hlists hgood hfree, ?cap⟩⟩
  case lists => exact hreply (by rw [guardSetTaken, settingsAfter_bad s.guard hlists]) rfl
  case unguarded => exact hreply ((guardSetTaken_good hlists).trans (if_pos (hbad.mpr hun))) rfl
  case locked =>
    exact hreply ((guardSetTaken_good hlists).trans ((if_neg (mt hbad.mp hgood)).trans (if_pos (hlocked.mpr hlock)))) rfl
  case written =>
    have hnone : protectNow s.guard written = written := by
      refine protectNow_none fun c => ?_
      cases c with
      | railOc => exact mt hrailOc.mp h1
      | railUv => exact mt hrailUv.mp h2
      | coilOc => exact mt hcoilOc.mp h3
      | coilUv => exact mt hcoilUv.mp h4
    exact hreply ((htaken hlists hgood hfree).trans (by rw [hnone])) rfl
  case rail =>
    obtain ⟨hoc, huv, hoff, hl, h0, hended, hevent, htold, hnotice⟩ := protectNow_rail (h.imp hrailOc.mpr hrailUv.mpr)
    refine ⟨fun he => hoc (hrailOc.mpr he), fun he => huv (hrailUv.mpr he), hoff, hl, h0, ?_, hevent, fun hno hno' => ?_, hnotice⟩
    · exact linkEnded_from hended rfl rfl rfl rfl rfl
    · have h := htold (mt hcoilOc.mp hno) (mt hcoilUv.mp hno')
      exact told_from (u := written) (by simp [KeepsSession, written]) rfl rfl h
  case coil =>
    have hdue : newlyProtected s.guard .coilUv written = true ∨
        (newlyProtected s.guard .coilOc written = true ∧ protectionFor .coilOc written = .stop) :=
      h.imp hcoilUv.mpr fun ⟨hnew, hlim⟩ => ⟨hcoilOc.mpr hnew, hstop hnew hlim⟩
    obtain ⟨hoff, huv, hoc, hsession, hclaim⟩ := hcoil hdue
    refine ⟨fun he => huv (hcoilUv.mpr he), fun he hlim => hoc (hcoilOc.mpr he) (hstop he hlim), hoff, fun he hlim => ?_, hsession, hclaim,
      fun hno h1 h2 hs => ?_⟩
    · obtain ⟨hfast, hsteady, _⟩ := protectionFor_coilOc (hcoilOc.mpr he)
      obtain ⟨hmode, hgrant⟩ := hlim
      have hlatch : (protectNow s.guard written).guard.alarms.coilOc.latch = false ∧
          (protectNow s.guard written).guard.alarms.coilOc.detected = false := by
        rcases hgrant with hg | hg
        · exact (hcap _ (hcoilOc.mpr he) (hfast hmode hg)).2
        · exact (hcap _ (hcoilOc.mpr he) (hsteady hmode hg)).2
      exact ⟨hlatch.1, hlatch.2, fun hg => (hcap _ (hcoilOc.mpr he) (hfast hmode hg)).1,
        fun hg => (hcap _ (hcoilOc.mpr he) (hsteady hmode hg)).1⟩
    · have hstops (hnew : newlyProtected s.guard .coilOc written = true) : protectionFor .coilOc written = .stop :=
        hstop (hcoilOc.mp hnew) fun hlim => hno ⟨hcoilOc.mp hnew, hlim⟩
      exact releases_from (u := written) rfl rfl rfl rfl
        (protectNow_coilTold hdue hstops (mt hrailOc.mp h1) (mt hrailUv.mp h2) hs)
  case cap =>
    obtain ⟨hfast, hsteady, _⟩ := protectionFor_coilOc (hcoilOc.mpr hnew)
    have hp : protectionFor .coilOc written = .limit cap := by
      rcases hlevel with ⟨hg, rfl⟩ | ⟨hg, rfl⟩
      · exact hfast hmode hg
      · exact hsteady hmode hg
    obtain ⟨hset, hlatch, hdetected⟩ := hcap cap (hcoilOc.mpr hnew) hp
    refine ⟨hset, hlatch, hdetected, fun huv h1 h2 hclaimed hs hroom => ?_⟩
    rcases hlevel with ⟨hg, rfl⟩ | ⟨hg, rfl⟩
    · exact protectNow_capped (hcoilOc.mpr hnew) hp (mt hcoilUv.mp huv) (mt hrailOc.mp h1) (mt hrailUv.mp h2) (hclaimed.trans hg) rfl hs hroom
    · exact protectNow_capped (hcoilOc.mpr hnew) hp (mt hcoilUv.mp huv) (mt hrailOc.mp h1) (mt hrailUv.mp h2) (hclaimed.trans hg) rfl hs hroom

end Sys2Proof


/-! PROOFS. The page writes of a save and an erase, and the image that a save builds. -/
namespace Sys2Proof
open Machine

namespace Machine

/-! ## What a save builds (R207) -/

theorem prefix_buildTo (n : Nat) (s : State) : ∀ (fuel : Nat) (sv : Save), sv.built <+: (buildTo n s fuel sv).built := by
  intro fuel
  induction fuel with
  | zero => exact fun sv => List.prefix_refl _
  | succ fuel ih =>
    intro sv
    rw [buildTo]
    dsimp only
    split
    · exact List.prefix_append _ _
    · refine .trans ?_ (ih _)
      exact List.prefix_append _ _

theorem beginType_pieces (s : State) (t : Nat) (ht : t ≤ 8) :
    ∃ pieces : List (List Byte), pieces.flatten = typeContent t s ∧ (∀ p ∈ pieces, p ≠ [] ∧ p.length ≤ 255) ∧
      beginType t s = pieces.flatMap (fun p => BitVec.ofNat 8 t :: BitVec.ofNat 8 p.length :: p) := by
  have hbegin : beginType t s = splitSections t ((typeContent t s).length + 1) (typeContent t s) := if_pos ht
  rw [hbegin]
  exact splitSections_pieces t _ _ (Nat.lt_succ_self _)

/-! ## The end of a page write (R207, R208) -/

theorem releaseRestart_none {s : State} (h : s.mgmt.restart = .none) : releaseRestart s = s :=
  if_neg (by rw [h]; decide)

/-- The store with its operation at an end (R207, R208). -/
def storeEnded (op : StoreOp) (e : StoreEnd) (s : State) : State :=
  { s with store := { s.store with
      state := .idle, lastOp := some (op, e), pages := 0, exchange := none, timer := none, save := none } }

theorem operationEnds_eq (op : StoreOp) (e : StoreEnd) (s : State) (hrestart : s.mgmt.restart = .none) (h : s.sleep.expired = false) :
    operationEnds op e s =
      post (.store op e)
        { storeEnded op e s with sleep := { s.sleep with holds := { s.sleep.holds with storeBusy := false } } } := by
  have hquiet : removeHold .storeBusy (storeEnded op e s) =
      { storeEnded op e s with sleep := { s.sleep with holds := { s.sleep.holds with storeBusy := false } } } :=
    removeHold_quiet .storeBusy _ (Or.inl h)
  calc
    operationEnds op e s = releaseRestart (post (.store op e) (removeHold .storeBusy (storeEnded op e s))) := rfl
    _ = post (.store op e) (removeHold .storeBusy (storeEnded op e s)) :=
      releaseRestart_none (by simpa [storeEnded] using hrestart)
    _ = _ := by rw [hquiet]

/-- A RESTART that waited for the operation gets its reply (R209). -/
theorem operationEnds_waiting (op : StoreOp) (e : StoreEnd) (s : State) (h : s.mgmt.restart = .waiting) :
    (operationEnds op e s).mgmt.restart = .armed ∧ (operationEnds op e s).mgmt.holder = some ⟨0x17#8, .ok, []⟩ ∧
      (operationEnds op e s).store.state = .idle := by
  let u := post (.store op e) (removeHold .storeBusy (storeEnded op e s))
  have hu : u.mgmt.restart = .waiting := by simpa [u, storeEnded] using h
  have hidle : u.store.state = .idle := by simp [u, storeEnded]
  have hended : operationEnds op e s = { u with mgmt := { u.mgmt with restart := .armed, holder := some ⟨0x17#8, .ok, []⟩ } } :=
    if_pos hu
  rw [hended]
  exact ⟨rfl, rfl, hidle⟩

/-- The page taken stands in the store and is counted (R207, R208). -/
def pageStored (k : Nat) (bytes : List Byte) (s : State) : State :=
  { s with store := { s.store with
      pages := s.store.pages + 1, eeprom := Memory.writeBytes s.store.eeprom (32 * k) bytes } }

section
variable {s : State} {k : Nat} {bytes : List Byte} (hx : s.store.exchange = some (.writePage k bytes))
include hx

theorem pageTaken_erasing (h : s.store.state = .erasing) : pageTaken s = operationEnds .erase .done (pageStored k bytes s) := by
  rw [pageTaken, hx]
  show afterPage k (storeHolds (32 * k) bytes s) = _
  rw [afterPage]
  split
  · rfl
  · next hsaving _ => exact StoreState.noConfusion (h.symm.trans hsaving)
  · next hnot _ => exact absurd h hnot

theorem pageTaken_saving {sv : Save} (h : s.store.state = .saving) (hsv : s.store.save = some sv) :
    pageTaken s = if sv.final then operationEnds .save .done (pageStored k bytes s) else nextPage k sv (pageStored k bytes s) := by
  rw [pageTaken, hx]
  show afterPage k (storeHolds (32 * k) bytes s) = _
  rw [afterPage]
  split
  · next herasing => exact StoreState.noConfusion (h.symm.trans herasing)
  · next sv' _ hsave =>
    obtain rfl : sv = sv' := Option.some.inj (hsv.symm.trans hsave)
    rfl
  · next hnot => exact absurd hsv (hnot sv h)

end

theorem exchangeUnanswered_saving {s : State} (hx : s.store.exchange.isSome) (h : s.store.state = .saving) :
    exchangeUnanswered s = operationEnds .save .timeout s := by
  rw [exchangeUnanswered, if_pos hx, h]

theorem exchangeUnanswered_erasing {s : State} (hx : s.store.exchange.isSome) (h : s.store.state = .erasing) :
    exchangeUnanswered s = operationEnds .erase .timeout s := by
  rw [exchangeUnanswered, if_pos hx, h]

/-- The page after a page taken: the next of the image, or page 0 with mark, length and CRC (R207). -/
theorem nextPage_stored (k : Nat) (bytes : List Byte) (sv : Save) (s : State) :
    nextPage k sv (pageStored k bytes s) =
      (let sv' := buildTo (26 + 32 * (k + 1)) s buildFuel sv
       { s with store := { s.store with
           pages := s.store.pages + 1, timer := some 250, eeprom := Memory.writeBytes s.store.eeprom (32 * k) bytes
           save := some (if 26 + 32 * k < sv'.built.length then sv' else { sv' with final := true })
           exchange := some
             (if 26 + 32 * k < sv'.built.length then
               let part := (sv'.built.drop (26 + 32 * k)).take 32
               .writePage (k + 1) (part ++ List.replicate (32 - part.length) 0xFF#8)
             else
               .writePage 0 ([0x6B#8, 0x2D#8] ++ enc16 (sv'.built.length + 6) ++ encWord (crc16 sv'.built)
                 ++ sv'.built.take 26)) } }) := by
  have hbuilt : buildTo (26 + 32 * (k + 1)) (pageStored k bytes s) buildFuel sv = buildTo (26 + 32 * (k + 1)) s buildFuel sv :=
    buildTo_store s _ _ _ _
  rw [nextPage, hbuilt]
  by_cases hmore : 26 + 32 * k < (buildTo (26 + 32 * (k + 1)) s buildFuel sv).built.length
  · simp only [if_pos hmore]
    rfl
  · simp only [if_neg hmore]
    rfl

end Machine

/-- Settles O33. -/
theorem pageWritesCarryTheImage : Obligations.PageWritesCarryTheImage := by
  refine ⟨fun s k bytes hrun hx => ?written, fun s n sv hlow hhigh hlen => ?image, fun s => ?contents⟩
  case written =>
    intro stands finished
    have htaken {t : State} (h : pageTaken s = t) : exec .pageWriteTaken s = .next (finish t) :=
      exec_of_effect hrun.1 Instr.noConfusion h
    have hunanswered {t : State} (h : exchangeUnanswered s = t) : exec .storeExchangeUnanswered s = .next (finish t) :=
      exec_of_effect hrun.1 Instr.noConfusion h
    have hsome : s.store.exchange.isSome := by rw [hx]; rfl
    refine ⟨fun hrestart hexp => ⟨fun hst => htaken ?_, fun sv hst hsv hfin => htaken ?_, fun hst => hunanswered ?_,
      fun hst => hunanswered ?_⟩, fun sv hst hsv hfin => ⟨prefix_buildTo _ _ _ _, htaken ?_⟩, fun hrestart hst =>
      ⟨_, htaken (pageTaken_erasing hx hst), operationEnds_waiting .erase .done _ hrestart⟩⟩
    · exact (pageTaken_erasing hx hst).trans (operationEnds_eq .erase .done (pageStored k bytes s) hrestart hexp)
    · rw [pageTaken_saving hx hst hsv, if_pos hfin]
      exact operationEnds_eq .save .done (pageStored k bytes s) hrestart hexp
    · exact (exchangeUnanswered_saving hsome hst).trans (operationEnds_eq .save .timeout s hrestart hexp)
    · exact (exchangeUnanswered_erasing hsome hst).trans (operationEnds_eq .erase .timeout s hrestart hexp)
    · rw [pageTaken_saving hx hst hsv, if_neg (by rw [hfin]; decide)]
      exact nextPage_stored k bytes sv s
  case image => exact buildTo_spec s n buildFuel sv hlow hhigh hlen (by unfold buildFuel; omega)
  case contents =>
    refine ⟨rfl, fun t _ ht => beginType_pieces s t ht, rfl, rfl, rfl, rfl, rfl, rfl, rfl, ?_⟩
    show encGeneric s.generic = _
    cases hmount : s.generic.mount <;> simp [encGeneric, hmount, encOpt, enc8, encRun]

end Sys2Proof
/-! PROOFS. The end of start-up, and the image that it reads. -/
namespace Sys2Proof
open Machine

namespace Machine

/-! ## The end of start-up (R206) -/

/-- Start-up is over in t with a result, begun with the pins, the link and the pen of s. -/
def StartUpOver (r : StartResult) (s t : State) : Prop :=
  t.store.state = .idle ∧ t.store.result = some r ∧ t.store.exchange = none ∧ t.store.timer = none ∧
  (∃ p, t.mgmt.notices.start = some p ∧ p.notice = .start r) ∧ t.poller.period = some (10 * periodMs t.poller.rate) ∧
  (s.pins.presence = true → t.link.state = .settling ∧ t.link.debounce = some 500) ∧
  (s.pins.presence = false → t.link = s.link) ∧
  (s.pins.dock = true → t.pen.debounce = some 1000) ∧ (s.pins.dock = false → t.pen.debounce = s.pen.debounce)

/-- The end of start-up before a detected DIE-OT is taken. -/
def startUpSampled (r : StartResult) (s : State) : State :=
  let u := sampleDock (samplePresence (post (.start r)
    { s with store := { s.store with state := .idle, result := some r, exchange := none, timer := none } }))
  { u with poller := { u.poller with period := startMs (periodMs u.poller.rate) } }

theorem startUpEnds_eq (r : StartResult) (s : State) :
    startUpEnds r s =
      if (startUpSampled r s).guard.alarms.dieOt.detected then dieOtTaken (startUpSampled r s) else startUpSampled r s := rfl

theorem samplePresence_pen (s : State) : (samplePresence s).pen = s.pen ∧ (samplePresence s).pins = s.pins ∧
    (samplePresence s).store = s.store := by
  unfold samplePresence
  split <;> simp

theorem samplePresence_link (s : State) :
    (s.pins.presence = true → (samplePresence s).link.state = .settling ∧ (samplePresence s).link.debounce = some 500) ∧
      (s.pins.presence = false → (samplePresence s).link = s.link) := by
  refine ⟨fun h => ?_, fun h => ?_⟩
  · rw [samplePresence, if_pos h]
    exact ⟨congrArg Link.state (setLinkState_link .settling s).1, rfl⟩
  · rw [samplePresence, if_neg (by rw [h]; decide)]

theorem sampleDock_eq (s : State) :
    sampleDock s = { s with pen := { s.pen with debounce := if s.pins.dock then some 1000 else s.pen.debounce } } := by
  cases h : s.pins.dock
  · rw [sampleDock, if_neg (by rw [h]; decide), if_neg (by decide)]
  · rw [sampleDock, if_pos h, if_pos rfl]
    rfl

theorem samplePresence_notice (s : State) : KeepsNotice .start (samplePresence s) s := by
  unfold samplePresence
  split
  · exact keepsNotice_trans (keepsNotice_of rfl) (setLinkState_notice .start .settling s (by decide))
  · exact keepsNotice_of rfl

theorem startUpSampled_over (r : StartResult) (s : State) (h : s.mgmt.enables.start = true) :
    StartUpOver r s (startUpSampled r s) := by
  let u := post (.start r) { s with store := { s.store with state := .idle, result := some r, exchange := none, timer := none } }
  have hframe : u.pins = s.pins ∧ u.link = s.link ∧ u.pen = s.pen ∧
      u.store = { s.store with state := .idle, result := some r, exchange := none, timer := none } := by simp [u]
  obtain ⟨hpins, hlink, hpen, hstore⟩ := hframe
  obtain ⟨hpresent, habsent⟩ := samplePresence_link u
  obtain ⟨hsampledPen, hsampledPins, hsampledStore⟩ := samplePresence_pen u
  have hsampled : startUpSampled r s =
      (let v := samplePresence u
       { v with
         pen := { v.pen with debounce := if v.pins.dock then some 1000 else v.pen.debounce }
         poller := { v.poller with period := startMs (periodMs v.poller.rate) } }) := by
    show (let w := sampleDock (samplePresence u); { w with poller := { w.poller with period := startMs (periodMs w.poller.rate) } }) = _
    rw [sampleDock_eq]
  have hposted : ∃ p, (samplePresence u).mgmt.notices.start = some p ∧ p.notice = .start r :=
    posted_stays (n := .start r) (samplePresence_notice u) h
  have hdue : startMs (periodMs (samplePresence u).poller.rate) = some (10 * periodMs (samplePresence u).poller.rate) := rfl
  rw [hsampled]
  rw [hpins] at hpresent habsent hsampledPins
  rw [hlink] at habsent
  rw [hpen] at hsampledPen
  rw [hstore] at hsampledStore
  refine ⟨congrArg Store.state hsampledStore, congrArg Store.result hsampledStore, congrArg Store.exchange hsampledStore,
    congrArg Store.timer hsampledStore, hposted, hdue, hpresent, habsent, fun hdock => ?_, fun hdock => ?_⟩
  · show (if (samplePresence u).pins.dock then some 1000 else (samplePresence u).pen.debounce) = _
    rw [hsampledPins, hdock, if_pos rfl]
  · show (if (samplePresence u).pins.dock then some 1000 else (samplePresence u).pen.debounce) = _
    rw [hsampledPins, hdock, if_neg (by decide), hsampledPen]

theorem tellAlarm_notice (k : NoticeKind) (c : Cause) (p : Protection) (g : AlarmGrant) (s : State) (h : k ≠ .alarm) :
    KeepsNotice k (tellAlarm c p g s) s := by
  refine keepsNotice_trans (postEvent_notice k _ _) ?_
  split
  · exact keepsNotice_of rfl
  · exact post_notice k _ s h

theorem dieOtTaken_notice (s : State) : KeepsNotice .start (dieOtTaken s) s :=
  keepsNotice_trans (tellAlarm_notice .start _ _ _ _ (by decide))
    (keepsNotice_trans (switchOutputs_notice .start _) (keepsNotice_of rfl))

/-- DIE-OT taken leaves start-up over: the store, the samplers, the link and the pen's debounce keep their values (R140). -/
theorem dieOtTaken_over {r : StartResult} {s t : State} (h : StartUpOver r s t) : StartUpOver r s (dieOtTaken t) := by
  have hframe : (dieOtTaken t).store = t.store ∧ (dieOtTaken t).poller = t.poller ∧ (dieOtTaken t).link = t.link := by simp
  obtain ⟨hstore, hpoller, hlink⟩ := hframe
  have hpen : (dieOtTaken t).pen.debounce = t.pen.debounce := by simp [dieOtTaken, changeAlarm]
  have hnotices : (dieOtTaken t).mgmt.notices.start = t.mgmt.notices.start := (dieOtTaken_notice t).1
  rw [StartUpOver, hstore, hpoller, hlink, hpen, hnotices]
  exact h

theorem startUpEnds_over (r : StartResult) (s : State) (h : s.mgmt.enables.start = true) : StartUpOver r s (startUpEnds r s) := by
  rw [startUpEnds_eq]
  split
  · exact dieOtTaken_over (startUpSampled_over r s h)
  · exact startUpSampled_over r s h

@[simp] theorem startUpEnds_imageLength (r : StartResult) (s : State) :
    (startUpEnds r s).store.imageLength = s.store.imageLength := by
  unfold startUpEnds samplePresence sampleDock
  dsimp only
  (repeat' split) <;> simp

/-! ## The sections applied (R205) -/

/-- What the sections of an image leave: the pins, the link, the pen and the management engine. -/
def SectionsLeave (t s : State) : Prop := t.pins = s.pins ∧ t.link = s.link ∧ t.pen = s.pen ∧ t.mgmt = s.mgmt

theorem applyType_aside {t : Nat} {content : List Byte} {s u : State} (h : applyType t content s = some u) : SectionsLeave u s := by
  unfold applyType at h
  split at h <;> simp only [Option.map_eq_some_iff, Option.some.injEq] at h
  case h_9 => exact h ▸ ⟨rfl, rfl, rfl, rfl⟩
  all_goals
    obtain ⟨_, _, rfl⟩ := h
    exact ⟨rfl, rfl, rfl, rfl⟩

/-- The type content's application, one step of the walk through the types. -/
def applyIfPresent (sections : List Section) (s : State) (t : Nat) : State :=
  let b := BitVec.ofNat 8 t
  if sections.any (fun x => x.type = b) && !stoppedAt sections b then (applyType t (joined sections b) s).getD s else s

theorem applySections_eq (sections : List Section) (s : State) :
    applySections sections s = [1, 2, 3, 4, 5, 6, 7, 8].foldl (applyIfPresent sections) s := rfl

theorem applySections_aside (sections : List Section) (s : State) : SectionsLeave (applySections sections s) s := by
  rw [applySections_eq]
  refine List.foldlRecOn (motive := fun u => SectionsLeave u s) _ _ ⟨rfl, rfl, rfl, rfl⟩ fun u ⟨hpins, hlink, hpen, hmgmt⟩ t _ => ?_
  rw [applyIfPresent]
  split
  · cases happlied : applyType t (joined sections (BitVec.ofNat 8 t)) u with
    | none => exact ⟨hpins, hlink, hpen, hmgmt⟩
    | some v =>
      obtain ⟨vpins, vlink, vpen, vmgmt⟩ := applyType_aside happlied
      exact ⟨vpins.trans hpins, vlink.trans hlink, vpen.trans hpen, vmgmt.trans hmgmt⟩
  · exact ⟨hpins, hlink, hpen, hmgmt⟩

theorem applyType_store (st : Store) (t : Nat) (content : List Byte) (s : State) :
    applyType t content { s with store := st } = (applyType t content s).map (fun u => { u with store := st }) := by
  unfold applyType
  split
  case h_9 => rfl
  all_goals
    rw [Option.map_map]
    rfl

theorem applySections_store (st : Store) (sections : List Section) (s : State) :
    applySections sections { s with store := st } = { applySections sections s with store := st } := by
  have hstep (u : State) (t : Nat) : applyIfPresent sections { u with store := st } t =
      { applyIfPresent sections u t with store := st } := by
    rw [applyIfPresent, applyIfPresent]
    dsimp only
    split
    · rw [applyType_store]
      cases applyType t (joined sections (BitVec.ofNat 8 t)) u <;> rfl
    · rfl
  have hfold (l : List Nat) (u : State) : l.foldl (applyIfPresent sections) { u with store := st } =
      { l.foldl (applyIfPresent sections) u with store := st } := by
    induction l generalizing u with
    | nil => rfl
    | cons t l ih => rw [List.foldl_cons, hstep, ih, List.foldl_cons]
  exact hfold _ s

theorem skippedTypes_store (st : Store) (sections : List Section) (s : State) :
    skippedTypes sections { s with store := st } = skippedTypes sections s := by
  have hskips (t : Byte) : skips sections { s with store := st } t = skips sections s t := by
    rw [skips, skips, applyType_store, Option.isNone_map]
  simp only [skippedTypes, funext hskips]

/-! ## The reads (R204) -/

theorem answerBytes_whole (offset : Nat) (bytes : List Byte) (s : State) : answerBytes offset bytes.length bytes s = bytes := by
  refine List.ext_getElem (by simp [answerBytes]) fun i hi hb => ?_
  simp [answerBytes, List.getElem?_eq_getElem hb]

theorem readAnswered_header {s : State} (hst : s.store.state = .starting) (hx : s.store.exchange = some .readHeader)
    (m1 m0 l1 l0 c1 c0 : Byte) :
    readAnswered [m1, m0, l1, l0, c1, c0] s =
      headerRead [m1, m0, l1, l0, c1, c0] (storeHolds 0 [m1, m0, l1, l0, c1, c0] s) := by
  rw [readAnswered, if_pos hst, hx]
  show headerRead (answerBytes 0 [m1, m0, l1, l0, c1, c0].length [m1, m0, l1, l0, c1, c0] s)
    (storeHolds 0 (answerBytes 0 [m1, m0, l1, l0, c1, c0].length [m1, m0, l1, l0, c1, c0] s) s) = _
  rw [answerBytes_whole]

theorem readAnswered_body {s : State} {length : Nat} {crc : Word16} {body : List Byte} (hst : s.store.state = .starting)
    (hx : s.store.exchange = some (.readBody length crc)) (hlen : body.length = length - 6) :
    readAnswered body s = imageRead length crc body (storeHolds 6 body s) := by
  rw [readAnswered, if_pos hst, hx]
  show imageRead length crc (answerBytes 6 (length - 6) body s) (storeHolds 6 (answerBytes 6 (length - 6) body s) s) = _
  rw [← hlen, answerBytes_whole]

theorem beWord_toNat (a b : Byte) : (beWord a b).toNat = a.toNat * 256 + b.toNat := by
  rw [beWord, BitVec.toNat_append, ← Nat.shiftLeft_add_eq_or_of_lt b.isLt, Nat.shiftLeft_eq]

theorem imageRead_wrong {length : Nat} {crc : Word16} {body : List Byte} (s : State) (h : crc16 body ≠ crc) :
    imageRead length crc body s = startUpEnds .storeInvalid s := if_neg h

theorem headerRead_bad {m1 m0 l1 l0 : Byte} (c1 c0 : Byte) (s : State)
    (h : m1 ≠ 0x6B#8 ∨ m0 ≠ 0x2D#8 ∨ l1.toNat * 256 + l0.toNat < 6 ∨ 2048 < l1.toNat * 256 + l0.toNat) :
    headerRead [m1, m0, l1, l0, c1, c0] s = startUpEnds .storeInvalid s := by
  refine if_neg ?_
  rintro ⟨hm1, hm0, hlow, hhigh⟩
  rw [beWord_toNat] at hlow hhigh
  rcases h with h | h | h | h
  · exact h hm1
  · exact h hm0
  · omega
  · omega

theorem headerRead_good {l1 l0 : Byte} (c1 c0 : Byte) (s : State) (hlow : 6 < l1.toNat * 256 + l0.toNat)
    (hhigh : l1.toNat * 256 + l0.toNat ≤ 2048) :
    headerRead [0x6B#8, 0x2D#8, l1, l0, c1, c0] s =
      { s with store := { s.store with
          exchange := some (.readBody (l1.toNat * 256 + l0.toNat) (c1 ++ c0)), timer := startMs 25 } } := by
  rw [headerRead]
  dsimp only
  rw [beWord_toNat, if_pos ⟨rfl, rfl, by omega, hhigh⟩, if_neg (by omega)]
  rfl

/-- An image of the header alone has no section (R204, R205). -/
theorem headerRead_empty (c1 c0 : Byte) (s : State) :
    headerRead [0x6B#8, 0x2D#8, 0#8, 6#8, c1, c0] s =
      if 0xFFFF#16 = beWord c1 c0 then startUpEnds .storeLoaded { s with store := { s.store with imageLength := some 6 } }
      else startUpEnds .storeInvalid s := rfl

end Machine
end Sys2Proof
/-! PROOFS. What start-up makes of each type's sections. -/
namespace Sys2Proof
open Machine

namespace Machine

/-! ## An image read (R204, R205) -/

/-- The image of s with this body is read whole: start-up ends with a result and the tables and settings of u. -/
def ImageEnds (s : State) (body : List Byte) (r : StartResult) (u : State) : Prop :=
  ∀ crc, s.store.exchange = some (.readBody (body.length + 6) crc) → crc16 body = crc →
    ∃ t, exec (.storeReadAnswered body) s = .next (finish t) ∧ t.store.imageLength = some (body.length + 6) ∧
      StartUpOver r s t ∧ SameConfig t u

/-- The result of a walk over the sections (R205). -/
def imageResult (skipped : List Byte) : StartResult := if skipped = [] then .storeLoaded else .storePartial skipped

theorem startUpOver_of {r : StartResult} {s u t : State} (h : StartUpOver r u t) (hu : SectionsLeave u s) : StartUpOver r s t := by
  obtain ⟨hpins, hlink, hpen, _⟩ := hu
  rw [StartUpOver, ← hpins, ← hlink, ← hpen]
  exact h

/-- The start-up of a running hub that may tell of it, waiting for the body. -/
structure StartingUp (s : State) : Prop where
  held : s.held = false
  starting : s.store.state = .starting
  told : s.mgmt.enables.start = true

section
variable {s : State} (h : StartingUp s)
include h

theorem StartingUp.exec_read {bytes : List Byte} {t : State} (ht : readAnswered bytes s = t) :
    exec (.storeReadAnswered bytes) s = .next (finish t) := exec_of_effect h.held Instr.noConfusion ht

theorem imageEnds_sections (body : List Byte) :
    ImageEnds s body (imageResult (skippedTypes (sectionsOf body) s)) (applySections (sectionsOf body) s) := by
  intro crc hx hcrc
  let st : Store :=
    { s.store with eeprom := Memory.writeBytes s.store.eeprom 6 body, imageLength := some (body.length + 6) }
  let u := applySections (sectionsOf body) { s with store := st }
  let r := imageResult (skippedTypes (sectionsOf body) s)
  have hread : readAnswered body s = startUpEnds r u := by
    rw [readAnswered_body h.starting hx (by omega), imageRead, if_pos hcrc]
    exact congrArg (fun l => startUpEnds (imageResult l) u) (skippedTypes_store st (sectionsOf body) s)
  have hu : SectionsLeave u s := applySections_aside (sectionsOf body) { s with store := st }
  have hstored : u = { applySections (sectionsOf body) s with store := st } := applySections_store st (sectionsOf body) s
  have hconfig : SameConfig u (applySections (sectionsOf body) s) := hstored ▸ sameConfig_refl (applySections (sectionsOf body) s)
  have htold : u.mgmt.enables.start = true := hu.2.2.2 ▸ h.told
  have hlength : u.store.imageLength = some (body.length + 6) := by rw [hstored]
  exact ⟨_, h.exec_read hread, (startUpEnds_imageLength r u).trans hlength, startUpOver_of (startUpEnds_over r u htold) hu,
    sameConfig_trans (startUpEnds_config r u) hconfig⟩

theorem imageEnds_of {body : List Byte} {sections : List Section} {skipped : List Byte} {u : State}
    (hsections : sectionsOf body = sections) (hskipped : skippedTypes sections s = skipped)
    (happlied : applySections sections s = u) : ImageEnds s body (imageResult skipped) u := by
  have hends := imageEnds_sections h body
  rwa [hsections, hskipped, happlied] at hends

/-- One type alone in the image, in one section or joined from several (R205). -/
theorem imageEnds_one (t : Nat) (h1 : 1 ≤ t) (h8 : t ≤ 8) {content body : List Byte} (hc : content ≠ [])
    (hin : ∃ pieces : List (List Byte), pieces.flatten = content ∧ (∀ p ∈ pieces, p.length ≤ 255) ∧
      body = pieces.flatMap (fun p => BitVec.ofNat 8 t :: BitVec.ofNat 8 p.length :: p) ++ [0#8]) :
    (∀ u, applyType t content s = some u → ImageEnds s body .storeLoaded u) ∧
      (applyType t content s = none → ImageEnds s body (.storePartial [BitVec.ofNat 8 t]) s) := by
  obtain ⟨pieces, rfl, hpieces, rfl⟩ := hin
  have htype : BitVec.ofNat 8 t ≠ 0#8 := by
    intro hzero
    have := congrArg BitVec.toNat hzero
    simp only [BitVec.toNat_ofNat] at this
    omega
  have hsections := sectionsOf_one (BitVec.ofNat 8 t) htype pieces hpieces
  obtain ⟨happlied, hskipped⟩ := applied_one t h1 h8 pieces hc s
  refine ⟨fun u hu => ?_, fun hu => ?_⟩
  · obtain ⟨hnone, hu⟩ := happlied u hu
    exact imageEnds_of h hsections hnone hu
  · obtain ⟨hsome, hu⟩ := hskipped hu
    exact imageEnds_of h hsections hsome hu

end

/-- A table alone in the image: it must have its length (R205). -/
theorem imageEnds_table {α β : Type} {p : Parse α} {check : α → Option β} {enc : β → List Byte} (raw : β → α) {n : Nat} {s : State}
    (h : StartingUp s) (t : Nat) (h1 : 1 ≤ t) (h8 : t ≤ 8) (set : List β → State)
    (happly : ∀ content, applyType t content s = (readTable p check n content).map set)
    (hraw : ∀ e b, check e = some b → check (raw b) = some b ∧ Reads p (enc b) (raw b)) (hp : p [] = none)
    (henc : ∀ b, enc b ≠ []) {l : List β} {body : List Byte} (hl : l ≠ []) (hmem : ∀ b ∈ l, ∃ e, check e = some b)
    (hin : ∃ pieces : List (List Byte), pieces.flatten = l.flatMap enc ∧ (∀ p ∈ pieces, p.length ≤ 255) ∧
      body = pieces.flatMap (fun p => BitVec.ofNat 8 t :: BitVec.ofNat 8 p.length :: p) ++ [0#8]) :
    (l.length = n → ImageEnds s body .storeLoaded (set l)) ∧
      (l.length ≠ n → ImageEnds s body (.storePartial [BitVec.ofNat 8 t]) s) := by
  have hc : l.flatMap enc ≠ [] := by
    obtain ⟨b, hb⟩ := List.exists_mem_of_ne_nil l hl
    exact fun hnil => henc b (List.flatMap_eq_nil_iff.mp hnil b hb)
  obtain ⟨hread, hbroken⟩ := readTable_of p check enc raw n l
    (fun b hb => (hmem b hb).elim fun e he => hraw e b he) hp (fun b _ => henc b)
  obtain ⟨hloaded, hpartial⟩ := imageEnds_one h t h1 h8 hc hin
  refine ⟨fun hlen => hloaded _ ?_, fun hlen => hpartial ?_⟩
  · rw [happly, hread hlen, Option.map_some]
  · rw [happly, hbroken hlen, Option.map_none]

theorem unprotected_iff (n : CauseSetting) : unprotected n = true ↔ n.choice = 0 ∧ n.enabled = false := by
  simp [unprotected]

/-- The guard's settings as a save keeps them. -/
def settingsStored (g : Guard) : GuardSettings :=
  let stored (a : Alarm) : CauseSetting := ⟨a.choice, a.enabled, a.mask⟩
  ⟨stored g.alarms.railOc, stored g.alarms.railUv, stored g.alarms.coilOc, stored g.alarms.coilUv, g.mode, g.alarms.dieOt.mask⟩

theorem settingsStored_bad (g : Guard) :
    (settingsStored g).bad = true ↔
      (g.alarms.railOc.choice = 0 ∧ g.alarms.railOc.enabled = false) ∨ (g.alarms.coilOc.choice = 0 ∧ g.alarms.coilOc.enabled = false) := by
  rw [GuardSettings.bad, Bool.or_eq_true, unprotected_iff, unprotected_iff]
  rfl

/-! ## What each type's content gives (R205) -/

theorem applyType_guard (g : Guard) (s : State) (c1 : g.alarms.railOc.choice < 4) (c2 : g.alarms.railUv.choice < 4)
    (c3 : g.alarms.coilOc.choice < 4) (c4 : g.alarms.coilUv.choice < 4) :
    applyType 4 (encGuardSettings g) s =
      if (settingsStored g).bad then none else some { s with guard := writeSettings (settingsStored g) s.guard } := by
  have hread : readGuard s.guard (encGuardSettings g) = if (settingsStored g).bad then none else some (settingsStored g) :=
    readGuard_of g s.guard c1 c2 c3 c4
  have happly (content : List Byte) : applyType 4 content s =
      (readGuard s.guard content).map (fun n => { s with guard := writeSettings n s.guard }) := rfl
  rw [happly, hread]
  split <;> rfl

theorem applyType_budget (a b c d : Byte) (s : State) :
    applyType 5 [a, b, c, d] s =
      if a.toNat ≤ 90 ∧ b.toNat ≤ 90 ∧ c.toNat ≤ 90 ∧ d.toNat ≤ 90 then
        some { s with guard := { s.guard with profiles := ⟨50 * a.toNat, 50 * b.toNat, 50 * c.toNat, 50 * d.toNat⟩ } }
      else none := by
  have happly (content : List Byte) : applyType 5 content s =
      (readBudget content).map (fun p => { s with guard := { s.guard with profiles := p } }) := rfl
  rw [happly, readBudget]
  split <;> rfl

/-- The state with the five settings of the SETTINGS section. -/
def timesSet (grace settle dwell discard : Nat) (rate : SampleRate) (s : State) : State :=
  { s with
    sleep := { s.sleep with graceTime := grace }, posture := { s.posture with settleTime := settle }
    orient := { s.orient with dwell := dwell }, poller := { s.poller with rate := rate }
    issuer := { s.issuer with discardTime := discard } }

theorem applyType_times {grace settle dwell discard : Nat} (rate : SampleRate) (s : State) (hg : grace < 65536) (hs : settle < 65536)
    (hd : dwell < 65536) (hc : discard < 65536) :
    applyType 6 (enc16 grace ++ enc16 settle ++ enc16 dwell ++ encNamed rateList rate ++ enc16 discard) s =
      if graceOk grace ∧ settleOk settle ∧ dwellOk dwell ∧ discardOk discard then some (timesSet grace settle dwell discard rate s)
      else none := by
  have happly (content : List Byte) : applyType 6 content s =
      (readSettings content).map (fun p => timesSet p.1 p.2.1 p.2.2.1 p.2.2.2.2 p.2.2.2.1 s) := rfl
  rw [happly, readSettings_of grace settle dwell discard rate hg hs hd hc]
  split <;> rfl

theorem applyType_share (d : Byte) (s : State) :
    applyType 7 [d] s =
      if 8 ≤ d.toNat ∧ d.toNat ≤ 64 then some { s with pool := { s.pool with share := d.toNat } } else none := by
  have happly (content : List Byte) : applyType 7 content s =
      (readSplit content).map (fun d => { s with pool := { s.pool with share := d } }) := rfl
  rw [happly, readSplit]
  split <;> rfl

theorem applyType_generic (g : GenericProfile) (d : Nat) (s : State) (hd : d < 256) (hg : g.demand = 50 * d)
    (hdecl : ∀ k ∈ g.declared, 0x10 ≤ k.toNat ∧ k.toNat ≤ 0x13) (hne : g.declared ≠ []) (hnodup : g.declared.Nodup)
    (hwake : g.wakeKinds.Nodup) (hsub : ∀ k ∈ g.wakeKinds, k ∈ g.declared)
    (hmount : ∀ m, g.mount = some m → m.order ≤ 5 ∧ m.signs ≤ 7) :
    applyType 8 (encGeneric g) s = if 5 ≤ d ∧ d ≤ 40 then some { s with generic := g } else none := by
  have happly (content : List Byte) : applyType 8 content s = (readGeneric content).map (fun g => { s with generic := g }) := rfl
  rw [happly, readGeneric_of g d hd hg hdecl hne hnodup hwake hsub hmount]
  split <;> rfl

theorem imageEnds_routes {s : State} (h : StartingUp s) {l : List RouteFields} {body : List Byte} (hl : l ≠ [])
    (hmem : ∀ f ∈ l, ∃ e, checkRoute e = some f)
    (hin : ∃ pieces : List (List Byte), pieces.flatten = l.flatMap encRoute ∧ (∀ p ∈ pieces, p.length ≤ 255) ∧
      body = pieces.flatMap (fun p => 1#8 :: BitVec.ofNat 8 p.length :: p) ++ [0#8]) :
    (l.length = 48 →
      ImageEnds s body .storeLoaded { s with route := { s.route with table := l.map (fun f => ⟨f, 0, 0, 0⟩) } }) ∧
      (l.length ≠ 48 → ImageEnds s body (.storePartial [1#8]) s) :=
  imageEnds_table rawRoute h 1 (by decide) (by decide)
    (fun l => { s with route := { s.route with table := l.map RouteEntry.fresh } }) (fun _ => rfl) route_raw rfl
    (by simp [encRoute, encNamed, enc8]) hl hmem hin

theorem imageEnds_windows {s : State} (h : StartingUp s) {l : List Window} {body : List Byte} (hl : l ≠ [])
    (hmem : ∀ w ∈ l, ∃ e, checkWindow e = some w)
    (hin : ∃ pieces : List (List Byte), pieces.flatten = l.flatMap encWindow ∧ (∀ p ∈ pieces, p.length ≤ 255) ∧
      body = pieces.flatMap (fun p => 2#8 :: BitVec.ofNat 8 p.length :: p) ++ [0#8]) :
    (l.length = 8 → ImageEnds s body .storeLoaded { s with posture := { s.posture with windows := l } }) ∧
      (l.length ≠ 8 → ImageEnds s body (.storePartial [2#8]) s) :=
  imageEnds_table rawWindow h 2 (by decide) (by decide) (fun l => { s with posture := { s.posture with windows := l } })
    (fun _ => rfl) window_raw rfl (by simp [encWindow, enc8]) hl hmem hin

theorem imageEnds_policies {s : State} (h : StartingUp s) {l : List PolicyEntry} {body : List Byte} (hl : l ≠ [])
    (hmem : ∀ f ∈ l, ∃ e, checkPolicy e = some f)
    (hin : ∃ pieces : List (List Byte), pieces.flatten = l.flatMap encPolicy ∧ (∀ p ∈ pieces, p.length ≤ 255) ∧
      body = pieces.flatMap (fun p => 3#8 :: BitVec.ofNat 8 p.length :: p) ++ [0#8]) :
    (l.length = 24 → ImageEnds s body .storeLoaded { s with policy := { s.policy with table := l } }) ∧
      (l.length ≠ 24 → ImageEnds s body (.storePartial [3#8]) s) :=
  imageEnds_table rawPolicy h 3 (by decide) (by decide) (fun l => { s with policy := { s.policy with table := l } })
    (fun _ => rfl) policy_raw rfl (by simp [encPolicy, encNamed, enc8]) hl hmem hin

theorem timesOk_iff (grace settle dwell discard : Nat) :
    (graceOk grace ∧ settleOk settle ∧ dwellOk dwell ∧ discardOk discard) ↔
      grace ≤ 60000 ∧ settle ∈ [25, 50, 75, 100, 150, 250, 400, 600] ∧ 100 ≤ dwell ∧ dwell ≤ 2000 ∧ 500 ≤ discard ∧ discard ≤ 8000 := by
  simp [graceOk, settleOk, dwellOk, discardOk, settleTimes, and_assoc]

/-- The CRC of no bytes (R204). -/
theorem beWord_ones (a b : Byte) : 0xFFFF#16 = beWord a b ↔ a = 0xFF#8 ∧ b = 0xFF#8 := by
  have ha := a.isLt
  have hb := b.isLt
  rw [← BitVec.toNat_inj, ← BitVec.toNat_inj, ← BitVec.toNat_inj, beWord_toNat]
  show 65535 = _ ↔ _ = 255 ∧ _ = 255
  omega

/-! ## A type beside the split (R205) -/

/-- A type's section, if it has a body, then the split's. -/
theorem sectionsOf_thenSplit (type : Byte) (htype : type ≠ 0#8) (first : List Byte) (hfirst : first.length ≤ 255) (d : Byte) :
    sectionsOf (type :: BitVec.ofNat 8 first.length :: first ++ [7#8, 1#8, d, 0#8]) =
      ([first].filter (· ≠ [])).map (.whole type) ++ [.whole 7#8 [d]] := by
  have hbody : type :: BitVec.ofNat 8 first.length :: first ++ [7#8, 1#8, d, 0#8] =
      sectionBytes type [first] ++ (sectionBytes 7#8 [[d]] ++ [0#8]) := by simp [sectionBytes]
  have hlen : (sectionBytes type [first] ++ (sectionBytes 7#8 [[d]] ++ [0#8])).length = first.length + 6 := by
    simp [sectionBytes]
  rw [hbody, sectionsOf, hlen, walk_sections type htype [first] (by simpa using hfirst) _ _ (by simp)]
  rfl

/-- The split's section, then a section that is cut short. -/
theorem sectionsOf_splitThen (type : Byte) (htype : type ≠ 0#8) (d : Byte) (tail : List Byte)
    (htail : tail = [] ∨ ∃ n rest, tail = n :: rest ∧ rest.length < n.toNat) :
    sectionsOf ([7#8, 1#8, d, type] ++ tail) = [.whole 7#8 [d], .malformed type] := by
  have hcut (fuel : Nat) : walk (fuel + 1) (type :: tail) = [.malformed type] := by
    rcases htail with rfl | ⟨n, rest, rfl, hshort⟩
    · rw [walk, if_neg htype]
    · rw [walk, if_neg htype]
      exact if_pos hshort
  have hwalk := walk_sections 7#8 (by decide) [[d]] (by simp) (type :: tail) (tail.length + 4) (by simp)
  calc
    sectionsOf ([7#8, 1#8, d, type] ++ tail) = walk (tail.length + 4) (sectionBytes 7#8 [[d]] ++ type :: tail) := rfl
    _ = [.whole 7#8 [d]] ++ walk (tail.length + 3) (type :: tail) := hwalk
    _ = _ := by rw [hcut]; rfl

/-- A type that is absent or at which the walk stopped is not applied. -/
def NotApplied (sections : List Section) (t : Nat) : Prop :=
  (sections.any (fun x => x.type = BitVec.ofNat 8 t) && !stoppedAt sections (BitVec.ofNat 8 t)) = false

theorem applyIfPresent_not {sections : List Section} {t : Nat} (h : NotApplied sections t) (s : State) :
    applyIfPresent sections s t = s := if_neg (by rw [h]; decide)

theorem notApplied_absent {sections : List Section} {t : Nat} (h : ∀ x ∈ sections, x.type ≠ BitVec.ofNat 8 t) : NotApplied sections t := by
  have hany : sections.any (fun x => x.type = BitVec.ofNat 8 t) = false := by simpa using h
  rw [NotApplied, hany, Bool.false_and]

theorem notApplied_stopped {sections : List Section} {t : Nat} (h : stoppedAt sections (BitVec.ofNat 8 t) = true) :
    NotApplied sections t := by
  rw [NotApplied, h, Bool.not_true, Bool.and_false]

/-- Where of the eight types no other is applied, the split alone is. -/
theorem applySections_split {sections : List Section} (s : State)
    (hother : ∀ t, t ≤ 8 → t ≠ 7 → NotApplied sections t) : applySections sections s = applyIfPresent sections s 7 := by
  have hstands (t : Nat) (ht : t ≤ 8) (h7 : t ≠ 7) := applyIfPresent_not (hother t ht h7)
  simp only [applySections_eq, List.foldl_cons, List.foldl_nil, hstands 1 (by decide) (by decide), hstands 2 (by decide) (by decide),
    hstands 3 (by decide) (by decide), hstands 4 (by decide) (by decide), hstands 5 (by decide) (by decide),
    hstands 6 (by decide) (by decide), hstands 8 (by decide) (by decide)]

/-- The split of an image in force. -/
def splitTo (d : Byte) (s : State) : State := { s with pool := { s.pool with share := d.toNat } }

section
variable {s : State} {sections : List Section} {d : Byte} (h8 : 8 ≤ d.toNat) (h64 : d.toNat ≤ 64)
  (hjoined : joined sections 7#8 = [d]) (hwhole : stoppedAt sections 7#8 = false)
include h8 h64 hjoined

theorem applyType_split (s : State) : applyType 7 (joined sections 7#8) s = some (splitTo d s) := by
  rw [hjoined, applyType_share, if_pos ⟨h8, h64⟩]
  rfl

include hwhole

theorem skips_split : skips sections s 7#8 = false := by
  rw [skips, hwhole, Bool.false_or]
  exact congrArg Option.isNone (applyType_split h8 h64 hjoined s)

theorem applyIfPresent_split (hpresent : sections.any (fun x => x.type = 7#8) = true) :
    applyIfPresent sections s 7 = splitTo d s := by
  have hdue : (sections.any (fun x => x.type = 7#8) && !stoppedAt sections 7#8) = true := by rw [hpresent, hwhole]; rfl
  exact (if_pos hdue).trans (congrArg (fun o => o.getD s) (applyType_split h8 h64 hjoined s))

end

theorem ne_ofNat_of_le {type : Byte} {t : Nat} (htype : 9 ≤ type.toNat) (ht : t ≤ 8) : type ≠ BitVec.ofNat 8 t := by
  rintro rfl
  simp only [BitVec.toNat_ofNat] at htype
  omega

theorem seven_ne {t : Nat} (ht : t ≤ 8) (h7 : t ≠ 7) : 7#8 ≠ BitVec.ofNat 8 t := by
  intro hsame
  have := congrArg BitVec.toNat hsame
  simp only [BitVec.toNat_ofNat] at this
  omega

theorem skippedTypes_nil {sections : List Section} {s : State} (h : ∀ x ∈ sections, skips sections s x.type = false) :
    skippedTypes sections s = [] := by
  refine List.filter_eq_nil_iff.mpr fun t ht => ?_
  obtain ⟨x, hx, rfl⟩ := List.mem_map.mp (((keepOnce_spec _).2 t).mp ht)
  rw [h x hx]
  decide

/-- A type that is not one of the eight is stepped over (R205). -/
theorem skips_unknown {sections : List Section} {type : Byte} (s : State) (htype : 9 ≤ type.toNat)
    (hwhole : stoppedAt sections type = false) : skips sections s type = false := by
  have happly (content : List Byte) : applyType type.toNat content s = some s := by
    unfold applyType
    split <;> first | omega | rfl
  rw [skips, hwhole, happly]
  rfl

section
variable {s : State} (h : StartingUp s) {d type : Byte} (h8 : 8 ≤ d.toNat) (h64 : d.toNat ≤ 64)
include h h8 h64

/-- A type unknown before the split is stepped over, and the split is applied (R4, R205). -/
theorem imageEnds_unknown (rest : List Byte) (htype : 9 ≤ type.toNat) (hrest : rest.length ≤ 255) :
    ImageEnds s (type :: BitVec.ofNat 8 rest.length :: rest ++ [7#8, 1#8, d, 0#8]) .storeLoaded (splitTo d s) := by
  let before := ([rest].filter (· ≠ [])).map (Section.whole type)
  let sections := before ++ [.whole 7#8 [d]]
  have hzero : type ≠ 0#8 := ne_ofNat_of_le htype (Nat.zero_le 8)
  have hseven : type ≠ 7#8 := ne_ofNat_of_le (t := 7) htype (by decide)
  have htypes : ∀ x ∈ sections, x.type = type ∨ x.type = 7#8 := by
    intro x hx
    rcases List.mem_append.mp hx with hx | hx
    · obtain ⟨_, _, rfl⟩ := List.mem_map.mp hx
      exact .inl rfl
    · exact .inr (List.mem_singleton.mp hx ▸ rfl)
  have hwhole (t : Byte) : stoppedAt sections t = false := by simp [sections, before, stoppedAt]
  have hjoined : joined sections 7#8 = [d] := by
    have hbefore : joined before 7#8 = [] := by
      simp [before, joined, Section.type, hseven]
    exact (List.flatMap_append ..).trans (congrArg (· ++ [d]) hbefore)
  refine imageEnds_of h (sectionsOf_thenSplit type hzero rest hrest d) (skipped := []) (skippedTypes_nil fun x hx => ?_) ?_
  · rcases htypes x hx with hx | hx <;> rw [hx]
    · exact skips_unknown s htype (hwhole type)
    · exact skips_split h8 h64 hjoined (hwhole 7#8)
  · rw [applySections_split s fun t ht h7 => notApplied_absent fun x hx => ?_]
    · exact applyIfPresent_split h8 h64 hjoined (hwhole 7#8) (by simp [Section.type])
    · rcases htypes x hx with hx | hx <;> rw [hx]
      · exact ne_ofNat_of_le htype ht
      · exact seven_ne ht h7

/-- The walk stops at a section cut short, whose type is skipped; the split before it is applied (R205). -/
theorem imageEnds_cutShort (htype : type ≠ 0#8) (tail : List Byte)
    (htail : tail = [] ∨ ∃ n rest, tail = n :: rest ∧ rest.length < n.toNat) :
    ImageEnds s ([7#8, 1#8, d, type] ++ tail) (.storePartial [type]) (if type = 7#8 then s else splitTo d s) := by
  let sections : List Section := [.whole 7#8 [d], .malformed type]
  have hstopped : stoppedAt sections type = true := by simp [sections, stoppedAt]
  have hskips : skips sections s type = true := by rw [skips, hstopped, Bool.true_or]
  have hjoined : joined sections 7#8 = [d] := by
    show [d] ++ ((if type = 7#8 then [] else []) ++ []) = [d]
    rw [ite_self, List.append_nil, List.append_nil]
  have hother : ∀ t, t ≤ 8 → t ≠ 7 → NotApplied sections t := by
    intro t ht h7
    by_cases hsame : type = BitVec.ofNat 8 t
    · exact notApplied_stopped (hsame ▸ hstopped)
    · refine notApplied_absent fun x hx => ?_
      rcases List.mem_pair.mp hx with rfl | rfl
      · exact seven_ne ht h7
      · exact hsame
  refine imageEnds_of h (sectionsOf_splitThen type htype d tail htail) (skipped := [type]) ?_ ?_
  · by_cases hseven : type = 7#8
    · subst hseven
      show [7#8].filter (skips sections s) = _
      rw [List.filter_cons_of_pos hskips, List.filter_nil]
    · have hwhole : stoppedAt sections 7#8 = false := by simp [sections, stoppedAt, Ne.symm hseven]
      have honce : keepOnce [7#8, type] = [7#8, type] := keepOnce_nodup _ (by simp [Ne.symm hseven])
      show (keepOnce [7#8, type]).filter (skips sections s) = _
      rw [honce, List.filter_cons_of_neg (by rw [skips_split h8 h64 hjoined hwhole]; decide), List.filter_cons_of_pos hskips,
        List.filter_nil]
  · rw [applySections_split s hother]
    by_cases hseven : type = 7#8
    · rw [if_pos hseven]
      exact applyIfPresent_not (notApplied_stopped (hseven ▸ hstopped)) s
    · have hwhole : stoppedAt sections 7#8 = false := by simp [sections, stoppedAt, Ne.symm hseven]
      rw [if_neg hseven]
      exact applyIfPresent_split h8 h64 hjoined hwhole rfl

end

end Machine

/-- Settles O32. -/
theorem startUpReadsTheImage : Obligations.StartUpReadsTheImage := by
  intro s hrun hst htold ended tables image inSections setting
  have h : StartingUp s := ⟨hrun.1, hst, htold⟩
  have hover {r : StartResult} {u : State} (hu : SectionsLeave u s) (hconfig : SameConfig u s) :
      ended r (startUpEnds r u) ∧ tables s (startUpEnds r u) :=
    ⟨startUpOver_of (startUpEnds_over r u (hu.2.2.2 ▸ htold)) hu, sameConfig_trans (startUpEnds_config r u) hconfig⟩
  have hover_store (r : StartResult) (st : Store) :
      ended r (startUpEnds r { s with store := st }) ∧ tables s (startUpEnds r { s with store := st }) :=
    hover ⟨rfl, rfl, rfl, rfl⟩ (sameConfig_refl s)
  refine ⟨?goodHeader, ?badHeader, ?header, ?wrongCrc, ?noAnswer, ?routes, ?windows, ?policies, ?guard, ?budget, ?times, ?splits,
    ?generic, ?others⟩
  case goodHeader =>
    intro l1 l0 c1 c0 hx hlow hhigh
    exact h.exec_read ((readAnswered_header hst hx ..).trans (headerRead_good c1 c0 _ hlow hhigh))
  case badHeader =>
    intro m1 m0 l1 l0 c1 c0 hx hbad
    exact ⟨_, h.exec_read ((readAnswered_header hst hx ..).trans (headerRead_bad c1 c0 _ hbad)), hover_store _ _⟩
  case header =>
    intro c1 c0 hx
    have hread := (readAnswered_header hst hx 0x6B#8 0x2D#8 0#8 6#8 c1 c0).trans (headerRead_empty c1 c0 _)
    have hcrc := beWord_ones c1 c0
    by_cases hgood : c1 = 0xFF#8 ∧ c0 = 0xFF#8
    · rw [if_pos (hcrc.mpr hgood)] at hread
      obtain ⟨hended, htables⟩ := hover_store .storeLoaded _
      exact ⟨_, h.exec_read hread, htables, fun _ => ⟨hended, startUpEnds_imageLength _ _⟩, fun hnot => absurd hgood hnot⟩
    · rw [if_neg (mt hcrc.mp hgood)] at hread
      obtain ⟨hended, htables⟩ := hover_store .storeInvalid _
      exact ⟨_, h.exec_read hread, htables, fun hyes => absurd hyes hgood, fun _ => hended⟩
  case wrongCrc =>
    intro length crc body hx hlen hcrc
    exact ⟨_, h.exec_read ((readAnswered_body hst hx hlen).trans (imageRead_wrong _ hcrc)), hover_store _ _⟩
  case noAnswer =>
    intro hx
    have hends : exchangeUnanswered s = startUpEnds .storeAbsent s := by rw [exchangeUnanswered, if_pos hx, hst]
    exact ⟨_, exec_of_effect hrun.1 Instr.noConfusion hends, hover ⟨rfl, rfl, rfl, rfl⟩ (sameConfig_refl s)⟩
  case routes => exact fun l body hl hmem hin => imageEnds_routes h hl hmem hin
  case windows => exact fun l body hl hmem hin => imageEnds_windows h hl hmem hin
  case policies => exact fun l body hl hmem hin => imageEnds_policies h hl hmem hin
  case guard =>
    intro g body hin c1 c2 c3 c4 bare al
    obtain ⟨hloaded, hpartial⟩ := imageEnds_one h 4 (by decide) (by decide) (by simp [encGuardSettings, encOpt]) hin
    rw [applyType_guard g s c1 c2 c3 c4] at hloaded hpartial
    have hbad := settingsStored_bad g
    exact ⟨fun hrail hcoil => hloaded _ (if_neg (mt hbad.mp (not_or.mpr ⟨hrail, hcoil⟩))), fun hbare =>
      hpartial (if_pos (hbad.mpr hbare))⟩
  case budget =>
    intro a b c d body hin
    obtain ⟨hloaded, hpartial⟩ := imageEnds_one h 5 (by decide) (by decide) (by simp) hin
    rw [applyType_budget] at hloaded hpartial
    exact ⟨fun hall => hloaded _ (if_pos hall), fun hsome => hpartial (if_neg (by omega))⟩
  case times =>
    intro grace settle dwell discard rate body hg hs hd hc hin ok
    obtain ⟨hloaded, hpartial⟩ := imageEnds_one h 6 (by decide) (by decide) (by simp [enc16]) hin
    rw [applyType_times rate s hg hs hd hc] at hloaded hpartial
    exact ⟨fun hok => hloaded _ (if_pos ((timesOk_iff ..).mpr hok)), fun hok => hpartial (if_neg (mt (timesOk_iff ..).mp hok))⟩
  case splits =>
    intro d body hin
    obtain ⟨hloaded, hpartial⟩ := imageEnds_one h 7 (by decide) (by decide) (by simp) hin
    rw [applyType_share] at hloaded hpartial
    exact ⟨fun h8 h64 => hloaded _ (if_pos ⟨h8, h64⟩), fun hout => hpartial (if_neg (by omega))⟩
  case generic =>
    intro g d body hin hd hg hdecl hne hnodup hwake hsub hmount
    obtain ⟨hloaded, hpartial⟩ := imageEnds_one h 8 (by decide) (by decide) (by simp [encGeneric, enc8]) hin
    rw [applyType_generic g d s hd hg hdecl hne hnodup hwake hsub hmount] at hloaded hpartial
    exact ⟨fun h5 h40 => hloaded _ (if_pos ⟨h5, h40⟩), fun hout => hpartial (if_neg (by omega))⟩
  case others =>
    intro d type rest h8 h64 htype split
    refine ⟨imageEnds_unknown h h8 h64 rest, ?_⟩
    intro kept
    exact ⟨imageEnds_cutShort h h8 h64 htype [] (.inl rfl), fun n hshort =>
      imageEnds_cutShort h h8 h64 htype (n :: rest) (.inr ⟨n, rest, rfl, hshort⟩)⟩

end Sys2Proof
/-! PROOFS. Presence: the debounce, the session that it opens, and the detach. -/
namespace Sys2Proof
open Machine

namespace Machine

/-! ## The pin (R43, R44) -/

theorem presenceAsserts_eq (s : State) (hpin : s.pins.presence = false) (hst : s.store.state ≠ .starting)
    (hlink : s.link.state = .absent) (hexp : s.sleep.expired = false) :
    presenceAsserts s =
      (let u := linkChanged .settling { s with pins := { s.pins with presence := true } }
       { u with link := { u.link with debounce := some 500 } }) := by
  have hchanged := setLinkState_eq .settling { s with pins := { s.pins with presence := true } } hexp
  rw [presenceAsserts, if_neg (by rw [hpin]; decide)]
  dsimp only
  rw [if_neg hst, if_pos hlink, hchanged]
  rfl

theorem presenceReleases_settling (s : State) (hpin : s.pins.presence = true) (hlink : s.link.state = .settling)
    (hexp : s.sleep.expired = false) :
    presenceReleases s = linkChanged .absent
      { s with pins := { s.pins with presence := false }, link := { s.link with debounce := none } } := by
  rw [presenceReleases, if_neg (by rw [hpin]; decide)]
  dsimp only
  rw [hlink]
  exact setLinkState_eq .absent _ hexp

theorem presenceReleases_later (s : State) (hpin : s.pins.presence = true) (hlink : s.link.state ∉ [.absent, .settling]) :
    presenceReleases s = detachBase { s with pins := { s.pins with presence := false } } := by
  rw [presenceReleases, if_neg (by rw [hpin]; decide)]
  dsimp only
  split
  · next habsent => exact absurd (List.mem_cons.mpr (.inl habsent)) hlink
  · next hsettling => exact absurd (List.mem_pair.mpr (.inr hsettling)) hlink
  · rfl

/-! ## The session that the debounce opens (R44, R45, R62) -/

/-- A base present in t with the session open, the debounce over, and the attachment of u kept beside a diagnosis. -/
def SessionOpen (u t : State) : Prop :=
  t.att.present = u.att.present ∧ t.att.attachCount = u.att.attachCount ∧ t.att.ident = u.att.ident ∧
  t.link.session = u.link.session ∧ t.link.debounce = none

theorem enterFaulted_session (u : State) : SessionOpen u (enterFaulted u) := by
  simp [SessionOpen, enterFaulted, postEvent, flushDown, stopLinkTimers]

theorem enterPowering_session (b : Bool) (u : State) (h : u.link.debounce = none) : SessionOpen u (enterPowering b u) := by
  have hdebounce : (enterPowering b u).link.debounce = none := by
    unfold enterPowering
    dsimp only
    split <;> simp [enterUnpowered, flushDown, stopLinkTimers, h]
  simp [SessionOpen, hdebounce]

/-- Without room for the allowance POWERING ends in UNPOWERED (R45, R61). -/
theorem enterPowering_noRoom (b : Bool) (u : State) (h0 : u.guard.baseGrant = 0) (hb : u.guard.budget < 250) :
    enterPowering b u = enterUnpowered allowance (setLinkState .powering u) := by
  have hguard : (setLinkState .powering u).guard = u.guard := by simp
  have hrefused : (claimBase b allowance (setLinkState .powering u)).2 = false := by
    rw [Bool.eq_false_iff, ne_eq, claimBase_granted, hguard, h0, allowance]
    omega
  unfold enterPowering
  dsimp only
  rw [hrefused, claimBase_refused _ _ _ hrefused]
  rfl

/-- The base present, before its session goes on. -/
def presentNow (s : State) : State :=
  { s with link := { s.link with debounce := none, session := .opened }
           att := { s.att with present := true, attachCount := wrapInc s.att.attachCount } }

/-- What the posture unit and the outputs leave of the base present. -/
def sessionOpened (s : State) : State := switchOutputs (posturePresent (presentNow s))

theorem debounceExpires_eq {s : State} (h : s.link.debounce.isSome = true) :
    debounceExpires s = if railLatched s then enterFaulted (sessionOpened s) else enterPowering false (sessionOpened s) := by
  have hlatched : railLatched (sessionOpened s) = railLatched s := by
    simp [railLatched, sessionOpened, presentNow]
  rw [debounceExpires, if_pos h]
  show (if railLatched (sessionOpened s) then enterFaulted (sessionOpened s) else enterPowering false (sessionOpened s)) = _
  rw [hlatched]

theorem sessionOpened_facts (s : State) :
    (sessionOpened s).att = { s.att with present := true, attachCount := wrapInc s.att.attachCount } ∧
      (sessionOpened s).link = { s.link with debounce := none, session := .opened } ∧
      (sessionOpened s).guard.baseGrant = s.guard.baseGrant ∧ (sessionOpened s).guard.budget = s.guard.budget ∧
      (sessionOpened s).mgmt.enables = s.mgmt.enables := by
  have henables : (posturePresent (presentNow s)).mgmt.enables = s.mgmt.enables := (posturePresent_beside (presentNow s)).2.2.2.2.2.2
  refine ⟨by simp [sessionOpened, presentNow], by simp [sessionOpened, presentNow], by simp [sessionOpened, presentNow], ?_,
    by simp [sessionOpened, henables]⟩
  simp [sessionOpened, presentNow, Guard.budget]

theorem debounceExpires_session {s : State} (h : s.link.debounce.isSome = true) :
    SessionOpen (sessionOpened s) (debounceExpires s) := by
  rw [debounceExpires_eq h]
  split
  · exact enterFaulted_session _
  · exact enterPowering_session _ _ (by rw [(sessionOpened_facts s).2.1])

/-! ## The detach (R63, R106) -/

theorem postureNotice_of_keeps {s t : State} (h : KeepsNotice .posture t s) : t.mgmt.notices.posture = s.mgmt.notices.posture := h.1

/-- A base detached, before the posture unit takes it. -/
def baseDown (s : State) : State :=
  releaseBase (setLinkState .absent (flushDown (linkEnding (stopLinkTimers
    { endDiagnosis .detach s with
      att := { (endDiagnosis .detach s).att with present := false }
      link := { (endDiagnosis .detach s).link with session := .none } }))))

theorem detachBase_eq (s : State) :
    detachBase s = post (.attach .detached) (postEvent .baseDetached (postureDetached (baseDown s))) := rfl

theorem baseDown_facts (s : State) :
    (baseDown s).att.present = false ∧ (baseDown s).link.state = .absent ∧ (baseDown s).link.session = .none ∧
      (baseDown s).pins = s.pins ∧ (baseDown s).posture.posture = s.posture.posture ∧
      (baseDown s).posture.faults = s.posture.faults ∧ (baseDown s).posture.slips = s.posture.slips ∧
      (baseDown s).policy.events = s.policy.events ∧ (baseDown s).guard.baseGrant = 0 ∧ (baseDown s).guard.railOn = false := by
  simp [baseDown, flushDown, stopLinkTimers, releaseBase_guard, releaseBase_rail]

theorem baseDown_notice (k : NoticeKind) (s : State) (h : k ≠ .charge ∧ k ≠ .sleep ∧ k ≠ .budget) : KeepsNotice k (baseDown s) s :=
  keepsNotice_trans (releaseBase_notice k _ h) (keepsNotice_trans (setLinkState_notice k _ _ h.2.1)
    (keepsNotice_trans (keepsNotice_of rfl) (keepsNotice_trans (linkEnding_notice k _ h.2.1)
      (keepsNotice_of (by simp [stopLinkTimers])))))

end Machine

/-- Settles O34. -/
theorem presenceOpensAndEndsASession : Obligations.PresenceOpensAndEndsASession := by
  intro s hrun hst hexp
  refine ⟨fun hpin hlink => ?asserted, fun hpin hlink => ?released, fun hdebounce h0 => ?opened, fun hpin hlink henabled => ?detached⟩
  case asserted => exact exec_of_effect hrun.1 Instr.noConfusion (presenceAsserts_eq s hpin hst hlink hexp)
  case released => exact exec_of_effect hrun.1 Instr.noConfusion (presenceReleases_settling s hpin hlink hexp)
  case opened =>
    let t := debounceExpires s
    obtain ⟨hatt, hlink, hbase, hbudget, henables⟩ := sessionOpened_facts s
    obtain ⟨hpresent, hcount, hident, hsession, hdone⟩ := debounceExpires_session hdebounce
    obtain ⟨hposture, hevents, hmoving, hpins, hencoder, hpostureNotice⟩ := presence_facts s hdebounce
    obtain ⟨hlatchedPen, hclaimedPen, hrefusedPen⟩ := debounceExpires_acts s hdebounce h0
    obtain ⟨hcode, hresync, hfaults, hslips, hstill, hsettle, hlid, hhold, hposted, hclosed, hopen, hflat⟩ :=
      posturePresent_spec (presentNow s) rfl
    obtain ⟨hencoderPosts, hposturePosts⟩ := posturePresent_notices (presentNow s)
    have hexpires := debounceExpires_eq hdebounce
    rw [hatt] at hpresent hcount hident
    rw [hlink] at hsession
    have htposture : t.posture = { (posturePresent (presentNow s)).posture with baseRun := none } := hposture
    refine ⟨t, exec_of_effect hrun.1 Instr.noConfusion rfl, hpresent, hcount, hident, hsession, hdone, fun hlatched => ?latched,
      fun hfree hb => ?claimed, fun hfree hb => ?refused, ?_⟩
    case latched =>
      rw [hlatched, if_pos rfl] at hexpires
      have hentered : t = enterFaulted (sessionOpened s) := hexpires
      refine ⟨hentered ▸ (enterFaulted_effect _).1, hlatchedPen hlatched, fun he => ?_⟩
      rw [hentered]
      exact enterFaulted_posts _ (henables ▸ he)
    case claimed =>
      rw [hfree, if_neg (by decide)] at hexpires
      have hentered : t = enterPowering false (sessionOpened s) := hexpires
      obtain ⟨hpowered, hgrant⟩ := (enterPowering_link false _ (hbase.trans h0)).1 (hbudget ▸ hb)
      rw [← hentered] at hpowered hgrant
      obtain ⟨hpen, htold⟩ := hclaimedPen hfree hb
      exact ⟨congrArg Link.state hpowered, congrArg Link.railUp hpowered, hgrant, hpen, htold⟩
    case refused =>
      rw [hfree, if_neg (by decide)] at hexpires
      have hentered : t = enterPowering false (sessionOpened s) := hexpires
      obtain ⟨hunpowered, hgrant⟩ := (enterPowering_link false _ (hbase.trans h0)).2 (hbudget ▸ hb)
      rw [← hentered] at hunpowered hgrant
      refine ⟨hunpowered, hgrant, hrefusedPen hfree hb, fun he => ?_⟩
      rw [hentered, enterPowering_noRoom false _ (hbase.trans h0) (hbudget ▸ hb)]
      exact enterUnpowered_posts allowance _ (by rw [(setLinkState_notice .attach _ _ (by decide)).2, henables]; exact he)
    rw [htposture]
    refine ⟨hcode, hresync, ?_, hslips, hstill, hsettle, hlid, hmoving.trans hhold, hpins, ?_, hclosed, hopen, fun hl hf => ?_,
      fun hnone he => ?_, fun hne he => ?_⟩
    · rw [hfaults]
      cases hc : codePosition s.pins.code <;> simp [presentNow, hc]
    · refine hevents.trans ?_
      show (posturePresent (presentNow s)).policy.events ++ _ = _
      have hnone : (presentNow s).policy.events = [] := hrun.2
      rw [hposted, hnone, List.nil_append]
      rfl
    · obtain ⟨hat, hsource, htakes, hnone⟩ := hflat hl hf
      exact ⟨hat, hsource, htakes, fun h => ⟨(hnone h).2, (hnone h).1⟩⟩
    · obtain ⟨p, hp, hnotice⟩ := hencoderPosts hnone he
      exact ⟨p, hencoder.1.trans hp, hnotice⟩
    · obtain ⟨p, hp, hnotice⟩ := hposturePosts hne he
      exact ⟨p, hpostureNotice.1.trans hp, hstill ▸ hnotice⟩
  case detached =>
    let u : State := { s with pins := { s.pins with presence := false } }
    have hdown := detachBase_eq u
    have hgone := postureDetached_spec (baseDown u)
    have hposts := postureDetached_posts (baseDown u)
    have hbeside := postureDetached_beside (baseDown u)
    have hkeeps := postureDetached_frame (baseDown u)
    obtain ⟨v, hv⟩ : ∃ v, postureDetached (baseDown u) = v := ⟨_, rfl⟩
    dsimp only at hgone
    rw [hv] at hdown hgone hposts hbeside hkeeps
    let t := post (.attach .detached) (postEvent .baseDetached v)
    have hreleases := (presenceReleases_later s hpin hlink).trans hdown
    obtain ⟨hended, _⟩ := detachBase_ended u
    rw [hdown] at hended
    obtain ⟨habsent, hstate, hsession, hpins, hposture, hfaults, hslips, hevents, hgrant, hrail⟩ := baseDown_facts u
    obtain ⟨hslate, hwindow, hcount, hmoving, hsettle, hlid, hlidRun, hbaseRun, vfaults, vslips, hhold, vevents⟩ :=
      hgone habsent
    obtain ⟨hpen, htold⟩ := presenceReleases_acts s hpin hlink
    have hframe : t.pins = (baseDown u).pins ∧ t.att = (baseDown u).att ∧ t.link = (baseDown u).link ∧
        t.guard = (baseDown u).guard ∧ t.posture = v.posture ∧ t.sleep = v.sleep ∧
        t.policy.events = v.policy.events ++ [.baseDetached] := by simp [t, hkeeps, postEvent]
    obtain ⟨tpins, tatt, tlink, tguard, tposture, tsleep, tevents⟩ := hframe
    have henables : v.mgmt.enables = s.mgmt.enables :=
      hbeside.2.2.2.2.2.2.trans (baseDown_notice .attach u (by decide)).2
    rw [hreleases] at hpen htold
    refine ⟨t, exec_of_effect hrun.1 Instr.noConfusion hreleases, tpins.trans hpins, ?_, ?_, ?_,
      linkEnded_from hended rfl rfl rfl rfl rfl, ?_, ?_, hpen, htold, ?_⟩
    · rw [tatt, habsent]
    · rw [tlink, hstate]
    · rw [tlink, hsession]
    · rw [tguard, hgrant]
    · rw [tguard, hrail]
    rw [tposture, tsleep, tevents]
    refine ⟨hslate, hwindow, hcount, hmoving, hsettle, hlid, hlidRun, hbaseRun, vfaults.trans hfaults, vslips.trans hslips, hhold,
      ?_, post_pending (.attach .detached) _ ?_, fun hne he => ?_⟩
    · rw [vevents, hevents, hpins, hposture]
      simp [u, hrun.2]
    · exact (congrArg (fun e => PerKind.get e .attach) henables).trans henabled
    · have hkept : (baseDown u).mgmt.enables = s.mgmt.enables := (baseDown_notice .posture u (by decide)).2
      obtain ⟨p, hp, hnotice⟩ := hposts habsent (by rw [hposture]; exact hne) (by rw [hkept]; exact he)
      rw [hposture] at hnotice
      have hlast : KeepsNotice .posture t v :=
        keepsNotice_trans (post_notice .posture (.attach .detached) _ (by decide)) (postEvent_notice .posture .baseDetached v)
      exact ⟨p, (postureNotice_of_keeps hlast).trans hp, hnotice⟩

end Sys2Proof

/-! PROOFS. Training, and the timers of the running link. -/
namespace Sys2Proof
open Machine

namespace Machine

/-! ## Training (R45 to R47) -/

section
variable (s : State) (hexp : s.sleep.expired = false)
include hexp

theorem startTraining_eq : startTraining s = attemptAt .fast 1 (linkChanged .training s) :=
  congrArg (attemptAt .fast 1) (setLinkState_eq .training s hexp)

theorem railUpExpires_training (h : s.link.railUp.isSome = true) (hreset : s.link.resetAfterRail = false) :
    railUpExpires s = attemptAt .fast 1 (linkChanged .training
      { s with link := { s.link with railUp := none, resetAfterRail := false } }) := by
  rw [railUpExpires, if_pos h]
  dsimp only
  rw [hreset, if_neg (by decide)]
  exact startTraining_eq _ hexp

theorem railUpExpires_drive (h : s.link.railUp.isSome = true) (hreset : s.link.resetAfterRail = true) :
    railUpExpires s =
      (let u := linkChanged .training { s with link := { s.link with railUp := none, resetAfterRail := false } }
       { u with link := { u.link with rate := none, resetDrive := some 500 } }) := by
  rw [railUpExpires, if_pos h]
  dsimp only
  rw [hreset, if_pos rfl]
  exact congrArg (fun u : State => { u with link := { u.link with rate := none, resetDrive := some 500 } })
    (setLinkState_eq .training { s with link := { s.link with railUp := none, resetAfterRail := false } } hexp)

theorem retryExpires_training (h : s.link.retry.isSome = true) :
    retryExpires s = attemptAt .fast 1 (linkChanged .training { s with link := { s.link with retry := none } }) :=
  (if_pos h).trans (startTraining_eq _ hexp)

theorem enterUnreachable_eq :
    enterUnreachable s =
      (let u := linkChanged .unreachable s
       post (.link .unreachable) { u with link := { u.link with echo := none, retry := some 10000 } }) := by
  rw [enterUnreachable, setLinkState_eq _ _ hexp]
  rfl

theorem attemptSucceeds_eq :
    attemptSucceeds s =
      (let u := linkChanged .identifying { s with link := { s.link with echo := none } }
       { u with link := { u.link with chunks := [], chunk := 0, chunkTry := 1, describe := some 200 } }) := by
  let v : State := { s with link := { s.link with echo := none } }
  exact congrArg (fun u : State => askChunk 0 1 { u with link := { u.link with chunks := [] } }) (setLinkState_eq .identifying v hexp)

end

theorem attemptFails_again {s : State} {r : Rate} (hr : s.link.rate = some r) (hn : s.link.attempt < 3) :
    attemptFails s = attemptAt r (s.link.attempt + 1) s := by
  rw [attemptFails, hr]
  exact if_pos hn

theorem attemptFails_slower {s : State} {r r' : Rate} (hr : s.link.rate = some r) (hn : 3 ≤ s.link.attempt)
    (hnext : nextRate r = some r') : attemptFails s = attemptAt r' 1 s := by
  rw [attemptFails, hr]
  dsimp only
  rw [if_neg (by omega), hnext]

theorem attemptFails_slow {s : State} (hr : s.link.rate = some .slow) (hn : 3 ≤ s.link.attempt) :
    attemptFails s = enterUnreachable s := by
  rw [attemptFails, hr]
  dsimp only
  rw [if_neg (by omega)]
  rfl

/-! ## The running link (R57 to R60) -/

theorem enterQuiet_eq (s : State) (hexp : s.sleep.expired = false) :
    enterQuiet s =
      (let u := linkChanged .quiet s
       { u with link := { u.link with quiet := none, keepAlive := none, quietWaits := false } }) := by
  rw [enterQuiet, setLinkState_eq _ _ hexp]

theorem quietExpires_running {s : State} (h : s.link.quiet.isSome = true) :
    quietExpires s =
      if s.pool.down ≠ [] then { s with link := { s.link with quiet := some 2500 } }
      else if s.link.kaWindow.isSome then { s with link := { s.link with quiet := none, quietWaits := true } }
      else enterQuiet s := if_pos h

/-- The link awake again, before the offer (R58). -/
def wokenLink (s : State) : State :=
  let u := linkChanged .ready s
  { u with link := { u.link with wake := none, quiet := some 2500, keepAlive := some 5000 } }

theorem wakeTimeExpires_eq (s : State) (hexp : s.sleep.expired = false) (h : s.link.wake.isSome = true) :
    wakeTimeExpires s = tryOffer (wokenLink s) := by
  rw [wakeTimeExpires, if_pos h, setLinkState_eq _ _ hexp]
  rfl

theorem keepAliveExpires_running {s : State} (h : s.link.keepAlive.isSome = true) :
    keepAliveExpires s =
      if s.pool.hingeBusy then { s with link := { s.link with keepAlive := none, kaDue := true } }
      else { s with link := { s.link with keepAlive := none, kaDue := false, kaWindow := some 100 } } := if_pos h

theorem keepAliveEchoes_running {s : State} (h : s.link.kaWindow.isSome = true) :
    keepAliveEchoes s =
      if s.link.quietWaits then enterQuiet { s with link := { s.link with kaWindow := none, keepAlive := some 5000 } }
      else { s with link := { s.link with kaWindow := none, keepAlive := some 5000 } } := if_pos h

end Machine

/-- Settles O35. -/
theorem trainingTriesEachRate : Obligations.TrainingTriesEachRate := by
  intro s hrun hexp attempt
  refine ⟨fun h hreset => ?_, fun h hreset => ?_, fun h => ?_, fun h => ?_, fun h => ?echoed⟩
  · exact exec_of_effect hrun.1 Instr.noConfusion (railUpExpires_training s hexp h hreset)
  · exact exec_of_effect hrun.1 Instr.noConfusion (railUpExpires_drive s hexp h hreset)
  · exact exec_of_effect hrun.1 Instr.noConfusion (if_pos h)
  · exact exec_of_effect hrun.1 Instr.noConfusion (retryExpires_training s hexp h)
  case echoed =>
    have hfails {t : State} (ht : attemptFails s = t) :
        exec .echoWindowExpiry s = .next (finish t) ∧ exec (.trainingEcho false) s = .next (finish t) :=
      ⟨exec_of_effect hrun.1 Instr.noConfusion ((if_pos h).trans ht), exec_of_effect hrun.1 Instr.noConfusion ((if_pos h).trans ht)⟩
    refine ⟨fun r hr hn => hfails (attemptFails_again hr hn), fun r r' hr hn hnext => hfails (attemptFails_slower hr hn ?_),
      fun hr hn => hfails ((attemptFails_slow hr hn).trans (enterUnreachable_eq s hexp)), ?_⟩
    · rcases hnext with ⟨rfl, rfl⟩ | ⟨rfl, rfl⟩ <;> rfl
    · exact exec_of_effect hrun.1 Instr.noConfusion ((if_pos h).trans (attemptSucceeds_eq s hexp))

/-- Settles O37. -/
theorem runningLinkRestsAndChecks : Obligations.RunningLinkRestsAndChecks := by
  intro s hrun hexp
  refine ⟨fun h => ?rests, fun h => ?wakes, fun h => ?checks, fun h hwaits => ?answered, fun h hwaits => ?waited, fun h => ?lost⟩
  case rests =>
    have hquiet := quietExpires_running h
    refine ⟨fun hdown => ?_, fun hdown hwindow => ?_, fun hdown hwindow => ?_⟩
    · exact exec_of_effect hrun.1 Instr.noConfusion (hquiet.trans (if_pos hdown))
    · exact exec_of_effect hrun.1 Instr.noConfusion (hquiet.trans ((if_neg (not_not_intro hdown)).trans (if_pos hwindow)))
    · refine exec_of_effect hrun.1 Instr.noConfusion (hquiet.trans ((if_neg (not_not_intro hdown)).trans ?_))
      rw [if_neg (by rw [hwindow]; decide)]
      exact enterQuiet_eq s hexp
  case wakes =>
    intro u v
    have hwoken := (wakeTimeExpires_eq s hexp h).trans (tryOffer_eq (wokenLink s))
    refine ⟨fun hnone hissued => ?_, fun hopen => ?_⟩
    · exact exec_of_effect hrun.1 Instr.noConfusion (hwoken.trans (if_pos ⟨hnone, hissued, rfl⟩))
    · refine exec_of_effect hrun.1 Instr.noConfusion (hwoken.trans (if_neg ?_))
      rintro ⟨hnone, hissued, _⟩
      rcases hopen with hsome | ⟨e, he, hstate⟩
      · exact absurd ((congrArg Option.isSome hnone).symm.trans hsome) (by decide)
      · exact hissued e he hstate
  case checks =>
    have hexpires := keepAliveExpires_running h
    refine ⟨fun hbusy => ?_, fun hidle => ?_⟩
    · exact exec_of_effect hrun.1 Instr.noConfusion (hexpires.trans (if_pos hbusy))
    · exact exec_of_effect hrun.1 Instr.noConfusion (hexpires.trans (if_neg (by rw [hidle]; decide)))
  case answered =>
    exact exec_of_effect hrun.1 Instr.noConfusion ((keepAliveEchoes_running h).trans (if_neg (by rw [hwaits]; decide)))
  case waited =>
    exact exec_of_effect hrun.1 Instr.noConfusion ((keepAliveEchoes_running h).trans ((if_pos hwaits).trans (enterQuiet_eq _ hexp)))
  case lost =>
    exact exec_of_effect hrun.1 Instr.noConfusion ((if_pos h).trans (linkLoss_eq s hexp))

end Sys2Proof
/-! PROOFS. Frames from the base that carry nothing on: the run of damaged frames, the link's counts and the wake. -/
namespace Sys2Proof
open Machine

namespace Machine

/-! ## A frame and the run of damaged frames (R56, R58) -/

theorem isDamaged_iff (kind : Byte) (payload : List Byte) (check : Byte) :
    isDamaged kind payload check = true ↔ check ≠ crc8 (kind :: BitVec.ofNat 8 payload.length :: payload) := bne_iff_ne

/-- An undamaged frame in READY (R56). -/
def heardReady (s : State) : State := { s with link := { s.link with damagedRun := 0, quiet := some 2500, keepAlive := some 5000 } }

/-- A damaged frame in READY (R56). -/
def damagedReady (s : State) : State :=
  { s with link := { s.link with damagedRun := s.link.damagedRun + 1, quiet := some 2500 } }

theorem lossByRun_below {u : State} (h : u.link.damagedRun < 3) : lossByRun u = u := if_neg (by omega)

theorem lossByRun_third {u : State} (h : 3 ≤ u.link.damagedRun) (hup : u.link.state.isUp = true) : lossByRun u = linkLoss u :=
  if_pos ⟨h, hup⟩

theorem receivedReady_heard {take : State → State} {s : State} (h : (take (heardReady s)).link.damagedRun = 0) :
    receivedReady false take s = take (heardReady s) := lossByRun_of_noRun _ h

theorem receivedReady_damaged (s : State) : receivedReady true linkDrops s = lossByRun (linkDrops (damagedReady s)) := rfl

/-! ## The frames that carry nothing on -/

/-- A RESPONSE, a BUSY-RESPONSE, a REJECT, a WAKE-SIGNAL or a frame of a kind not listed, with the kind that its CRC-8 covers (R3). -/
def CarriesKind (c : Instr) (kind : Byte) (payload : List Byte) (check : Byte) : Prop :=
  (c = .response payload check ∧ kind = 0x20#8) ∨ (c = .busyResponse payload check ∧ kind = 0x21#8) ∨
    (c = .reject payload check ∧ kind = 0x22#8) ∨ (c = .wakeSignal payload check ∧ kind = 0x30#8) ∨
    c = .unlistedKindFrame kind payload check

section
variable {s : State} {c : Instr} {kind : Byte} {payload : List Byte} {check : Byte} (hc : CarriesKind c kind payload check)
include hc

theorem carriesKind_not_resetLine : c ≠ .resetLineAsserted := by
  rcases hc with ⟨rfl, _⟩ | ⟨rfl, _⟩ | ⟨rfl, _⟩ | ⟨rfl, _⟩ | rfl <;> exact Instr.noConfusion

theorem kind_of_wakeSignal (h : c = .wakeSignal payload check) : kind = 0x30#8 := by
  subst h
  rcases hc with ⟨h, _⟩ | ⟨h, _⟩ | ⟨h, _⟩ | ⟨_, h⟩ | h
  · exact Instr.noConfusion h
  · exact Instr.noConfusion h
  · exact Instr.noConfusion h
  · exact h
  · exact Instr.noConfusion h

theorem kind_of_response (h : c = .response payload check) : kind = 0x20#8 := by
  subst h
  rcases hc with ⟨_, h⟩ | ⟨h, _⟩ | ⟨h, _⟩ | ⟨h, _⟩ | h
  · exact h
  · exact Instr.noConfusion h
  · exact Instr.noConfusion h
  · exact Instr.noConfusion h
  · exact Instr.noConfusion h

/-- Damaged in READY every such frame is dropped and the run looked at (R56). -/
theorem effect_ready_damaged (hst : s.link.state = .ready) (hd : isDamaged kind payload check = true) :
    effect c s = receivedReady true linkDrops s := by
  rcases hc with ⟨rfl, rfl⟩ | ⟨rfl, rfl⟩ | ⟨rfl, rfl⟩ | ⟨rfl, rfl⟩ | rfl
  · simp only [effect, responseArrives, hst, hd, Bool.true_or, if_true]
  · simp only [effect, answerArrives, hst, hd, if_true]
  · simp only [effect, answerArrives, hst, hd, if_true]
  · simp only [effect, wakeSignalArrives, hst, hd, if_true]
  · simp only [effect, unlistedArrives, hst, hd]

/-- In QUIET an undamaged frame other than a WAKE-SIGNAL is dropped (R58). -/
theorem effect_quiet_undamaged (hst : s.link.state = .quiet) (hd : isDamaged kind payload check = false)
    (hwake : c ≠ .wakeSignal payload check) : effect c s = receivedQuiet false linkDrops s := by
  rcases hc with ⟨rfl, rfl⟩ | ⟨rfl, rfl⟩ | ⟨rfl, rfl⟩ | ⟨rfl, rfl⟩ | rfl
  · simp only [effect, responseArrives, hst, hd]
  · simp only [effect, answerArrives, hst, hd]
  · simp only [effect, answerArrives, hst, hd]
  · exact absurd rfl hwake
  · simp only [effect, unlistedArrives, hst, hd]

/-- Damaged in QUIET such a frame counts in the run, a WAKE-SIGNAL there alone (R58). -/
theorem effect_quiet_damaged (hst : s.link.state = .quiet) (hd : isDamaged kind payload check = true) :
    effect c s = receivedQuiet true (if c = .wakeSignal payload check then id else linkDrops) s := by
  rcases hc with ⟨rfl, rfl⟩ | ⟨rfl, rfl⟩ | ⟨rfl, rfl⟩ | ⟨rfl, rfl⟩ | rfl
  · simp only [effect, responseArrives, hst, hd, reduceCtorEq, if_false]
  · simp only [effect, answerArrives, hst, hd, reduceCtorEq, if_false]
  · simp only [effect, answerArrives, hst, hd, reduceCtorEq, if_false]
  · simp only [effect, wakeSignalArrives, hst, hd, if_true]
  · simp only [effect, unlistedArrives, hst, hd, reduceCtorEq, if_false]

/-- In IDENTIFYING a damaged frame and a frame of a kind not listed are dropped (R48). -/
theorem effect_identifying_drops (hst : s.link.state = .identifying)
    (h : isDamaged kind payload check = true ∨ c = .unlistedKindFrame kind payload check) : effect c s = linkDrops s := by
  rcases hc with ⟨rfl, rfl⟩ | ⟨rfl, rfl⟩ | ⟨rfl, rfl⟩ | ⟨rfl, rfl⟩ | rfl
  · simp only [effect, responseArrives, hst, h.resolve_right Instr.noConfusion, if_true]
  · simp only [effect, answerArrives, hst, h.resolve_right Instr.noConfusion, if_true]
  · simp only [effect, answerArrives, hst, h.resolve_right Instr.noConfusion, if_true]
  · simp only [effect, wakeSignalArrives, hst, h.resolve_right Instr.noConfusion, if_true]
  · simp only [effect, unlistedArrives, hst]

/-- In every other state of the link such a frame is not looked at (R56). -/
theorem effect_elsewhere (hst : s.link.state ∉ [.ready, .quiet, .identifying]) : effect c s = s := by
  simp only [List.mem_cons, List.not_mem_nil, or_false, not_or] at hst
  obtain ⟨hready, hquiet, hident⟩ := hst
  rcases hc with ⟨rfl, _⟩ | ⟨rfl, _⟩ | ⟨rfl, _⟩ | ⟨rfl, _⟩ | rfl
  · simp only [effect, responseArrives]
  · simp only [effect, answerArrives]
  · simp only [effect, answerArrives]
  · simp only [effect, wakeSignalArrives]
  · simp only [effect, unlistedArrives]

end

theorem isDescribeAnswer_of_take {payload : List Byte} (h : payload.take 2 = [0xFF#8, 0x41#8]) : isDescribeAnswer payload = true := by
  match payload, h with
  | a :: b :: rest, h =>
    obtain ⟨rfl, rfl⟩ : a = 0xFF#8 ∧ b = 0x41#8 := by simpa using h
    rfl

theorem wakeSignalled_eq (s : State) :
    wakeSignalled s = { s with link := { s.link with wake := if s.link.wake = none then some 20 else s.link.wake } } := by
  rw [wakeSignalled]
  cases h : s.link.wake with
  | none => rfl
  | some n =>
    have hkept : { s.link with wake := s.link.wake } = s.link := rfl
    rw [if_neg (by simp), if_neg (by simp), ← h, hkept]

end Machine

/-- Settles O40. -/
theorem otherFramesAreCounted : Obligations.OtherFramesAreCounted := by
  intro s c kind payload check hrun hexp hc damaged dropped l heard lost
  have hcarries : CarriesKind c kind payload check := hc
  have hexec {t : State} (h : effect c s = t) : exec c s = .next (finish t) :=
    exec_of_effect hrun.1 (carriesKind_not_resetLine hcarries) h
  have hundamaged (h : ¬ damaged) : isDamaged kind payload check = false :=
    Bool.eq_false_iff.mpr (mt (isDamaged_iff ..).mp h)
  have hdamaged (h : damaged) : isDamaged kind payload check = true := (isDamaged_iff ..).mpr h
  refine ⟨fun hst h hwake => ?_, fun hst h hkind => ?_, fun hst h hresp hdescr => ?_, fun hst h hlow => ?_, fun hst h hhigh => ?_,
    fun hst h hwake => ?_, fun hst h hwake => ?_, fun hst h => ?quietDamaged, fun hst h => ?_, fun hst h hwake => ?_,
    fun hst => hexec (effect_elsewhere hcarries hst)⟩
  · subst hwake
    have hd := hundamaged h
    rw [kind_of_wakeSignal hcarries rfl] at hd
    refine hexec (Eq.trans ?_ (receivedReady_heard (take := id) (s := s) rfl))
    simp only [effect, wakeSignalArrives, hst, hd, Bool.false_eq_true, if_false]
  · subst hkind
    refine hexec (Eq.trans ?_ (receivedReady_heard (take := linkDrops) (s := s) rfl))
    simp only [effect, unlistedArrives, hst, hundamaged h]
  · subst hresp
    have hd := hundamaged h
    rw [kind_of_response hcarries rfl] at hd
    refine hexec (Eq.trans ?_ (receivedReady_heard (take := linkDrops) (s := s) rfl))
    simp only [effect, responseArrives, hst, hd, isDescribeAnswer_of_take hdescr, Bool.or_true, if_true]
  · refine hexec ((effect_ready_damaged hcarries hst (hdamaged h)).trans (lossByRun_below ?_))
    show l.damagedRun + 1 < 3
    omega
  · refine hexec ((effect_ready_damaged hcarries hst (hdamaged h)).trans ((lossByRun_third (u := linkDrops (damagedReady s)) ?_ ?_).trans
      (linkLoss_eq (linkDrops (damagedReady s)) hexp)))
    · show 3 ≤ l.damagedRun + 1
      omega
    · show s.link.state.isUp = true
      rw [hst]
      rfl
  · subst hwake
    have hd := hundamaged h
    rw [kind_of_wakeSignal hcarries rfl] at hd
    have hwoken : effect (.wakeSignal payload check) s = lossByRun (wakeSignalled (noteRun false s)) := by
      simp only [effect, wakeSignalArrives, hst, hd, Bool.false_eq_true, if_false]
      rfl
    rw [wakeSignalled_eq] at hwoken
    exact hexec (hwoken.trans (lossByRun_of_noRun _ rfl))
  · exact hexec ((effect_quiet_undamaged hcarries hst (hundamaged h) hwake).trans (lossByRun_of_noRun (linkDrops (noteRun false s)) rfl))
  case quietDamaged =>
    intro counted taken
    have htaken : (if c = .wakeSignal payload check then id else linkDrops) (noteRun true s) = taken := by
      by_cases hwake : c = .wakeSignal payload check
      · rw [if_pos hwake, show taken = counted from if_pos hwake]
        rfl
      · rw [if_neg hwake, show taken = dropped counted from if_neg hwake]
        rfl
    have hkept : taken.link = counted.link ∧ taken.sleep = s.sleep := by
      by_cases hwake : c = .wakeSignal payload check
      · rw [show taken = counted from if_pos hwake]
        exact ⟨rfl, rfl⟩
      · rw [show taken = dropped counted from if_neg hwake]
        exact ⟨rfl, rfl⟩
    obtain ⟨hlink, hsleep⟩ := hkept
    have hquiet : effect c s = lossByRun taken :=
      (effect_quiet_damaged hcarries hst (hdamaged h)).trans (congrArg lossByRun htaken)
    refine ⟨fun hlow => hexec (hquiet.trans (lossByRun_below ?_)), fun hhigh => hexec (hquiet.trans ((lossByRun_third ?_ ?_).trans
      (linkLoss_eq taken (hsleep ▸ hexp))))⟩
    · rw [hlink]
      show l.damagedRun + 1 < 3
      omega
    · rw [hlink]
      show 3 ≤ l.damagedRun + 1
      omega
    · rw [hlink]
      show s.link.state.isUp = true
      rw [hst]
      rfl
  · exact hexec (effect_identifying_drops hcarries hst (h.imp hdamaged id))
  · subst hwake
    have hd := hundamaged h
    rw [kind_of_wakeSignal hcarries rfl] at hd
    refine hexec ?_
    simp only [effect, wakeSignalArrives, hst, hd, Bool.false_eq_true, if_false]

end Sys2Proof
/-! PROOFS. The issuer's table with one entry ISSUED: its ends, its offers, and the answers that reach it. -/
namespace Sys2Proof
open Machine

namespace Machine

/-! ## One entry of a key (R70) -/

section
variable {before after : List ReqEntry} {e : ReqEntry}
  (halone : ∀ y ∈ before ++ after, ¬ (y.target = e.target ∧ y.command = e.command))
include halone

theorem map_alone (f : ReqEntry → ReqEntry) :
    (before ++ e :: after).map (fun x => if x.hasKey e.target e.command then f x else x) = before ++ f e :: after := by
  have hrest (l : List ReqEntry) (hl : ∀ y ∈ l, y ∈ before ++ after) :
      l.map (fun x => if x.hasKey e.target e.command then f x else x) = l := by
    refine (List.map_congr_left (g := id) fun y hy => ?_).trans (List.map_id l)
    rw [hasKey_eq_false_iff.mpr (halone y (hl y hy))]
    rfl
  rw [List.map_append, List.map_cons, hrest before fun y hy => List.mem_append_left after hy,
    hrest after fun y hy => List.mem_append_right before hy, if_pos (hasKey_iff.mpr ⟨rfl, rfl⟩)]

theorem changeEntry_alone {u : State} (htable : u.issuer.table = before ++ e :: after) (f : ReqEntry → ReqEntry) :
    changeEntry e.target e.command f u = { u with issuer := { u.issuer with table := before ++ f e :: after } } := by
  rw [changeEntry, htable, map_alone halone f]

end

theorem setHold_quiet (r : Holdoff) (b : Bool) {u : State} (h : u.sleep.expired = false) :
    setHold r b u = { u with sleep := { u.sleep with holds := u.sleep.holds.put r b } } := by
  cases b
  · exact removeHold_quiet r u (.inl h)
  · rfl

/-! ## The end of the ISSUED entry (R77, R78, R80, R85) -/

section
variable {before after : List ReqEntry} {e : ReqEntry}
  (halone : ∀ y ∈ before ++ after, y.state ≠ .issued ∧ ¬ (y.target = e.target ∧ y.command = e.command))

/-- The table with another entry at the place of the one, and no window running. -/
def withEntry (before after : List ReqEntry) (u : State) (x : ReqEntry) : State :=
  { u with issuer := { u.issuer with table := before ++ x :: after, window := none } }

/-- The entry at its end. -/
def entryEnded (before after : List ReqEntry) (u : State) (x : ReqEntry) (o : ReqOutcome) (r : Option (List Byte)) : State :=
  let v := withEntry before after u
    { x with state := .done, outcome := some o, response := r, discard := some (10 * u.issuer.discardTime) }
  { v with sleep := { v.sleep with holds := { v.sleep.holds with
      requestPending := decide (∃ x ∈ before ++ after, x.state ≠ .done) } } }

theorem anyOpen_done {x : ReqEntry} (hx : x.state = .done) :
    (before ++ x :: after).any ReqEntry.isOpen = decide (∃ y ∈ before ++ after, y.state ≠ .done) := by
  have hclosed : x.isOpen = false := by rw [ReqEntry.isOpen, hx]; rfl
  rw [Bool.eq_iff_iff, List.any_eq_true, decide_eq_true_iff]
  refine ⟨fun ⟨y, hy, hopen⟩ => ⟨y, ?_, ?_⟩, fun ⟨y, hy, hopen⟩ => ⟨y, ?_, ?_⟩⟩
  · rcases List.mem_append.mp hy with hy | hy
    · exact List.mem_append_left after hy
    · rcases List.mem_cons.mp hy with rfl | hy
      · exact absurd (hclosed.symm.trans hopen) (by decide)
      · exact List.mem_append_right before hy
  · exact bne_iff_ne.mp hopen
  · exact (List.mem_append.mp hy).elim (List.mem_append_left _) fun hy => List.mem_append_right _ (List.mem_cons_of_mem _ hy)
  · exact bne_iff_ne.mpr hopen

include halone

theorem endIssued_alone (o : ReqOutcome) (r : Option (List Byte)) {u : State} (hexp : u.sleep.expired = false)
    (htable : u.issuer.table = before ++ e :: after) :
    endIssued e o r u = tryOffer (entryEnded before after u e o r) := by
  have hchanged := changeEntry_alone (fun y hy => (halone y hy).2) htable (fun x => x.finish o r u.issuer.discardTime)
  have hpending : (before ++ e.finish o r u.issuer.discardTime :: after).any ReqEntry.isOpen =
      decide (∃ y ∈ before ++ after, y.state ≠ .done) := anyOpen_done rfl
  rw [endIssued, hchanged]
  refine congrArg tryOffer ?_
  show setHold .requestPending ((before ++ e.finish o r u.issuer.discardTime :: after).any ReqEntry.isOpen)
    (withEntry before after u (e.finish o r u.issuer.discardTime)) = _
  rw [hpending]
  exact setHold_quiet .requestPending _ hexp

/-- With none ISSUED and no offer waiting the next offer is the oldest QUEUED's, while the link is up (R75). -/
theorem tryOffer_alone {v : State} {x : ReqEntry} (htable : v.issuer.table = before ++ x :: after) (hx : x.state ≠ .issued)
    (hwait : v.issuer.waiting = none) : tryOffer v = if v.link.state.isUp = true then oldestOffered v else v := by
  have hissued : ∀ y ∈ v.issuer.table, y.state ≠ .issued := by
    rw [htable]
    intro y hy
    rcases List.mem_append.mp hy with hy | hy
    · exact (halone y (List.mem_append_left after hy)).1
    · rcases List.mem_cons.mp hy with rfl | hy
      · exact hx
      · exact (halone y (List.mem_append_right before hy)).1
  rw [tryOffer_eq]
  by_cases hup : v.link.state.isUp = true
  · rw [if_pos ⟨hwait, hissued, hup⟩, if_pos hup]
  · rw [if_neg (fun h => hup h.2.2), if_neg hup]

/-- The answer names the ISSUED entry (R77 to R79). -/
theorem answered_alone {u : State} (htable : u.issuer.table = before ++ e :: after) (hissued : e.state = .issued) {target : Byte}
    (htarget : e.target = target.toNat) (hwindow : u.issuer.window.isSome = true) (rest : List Byte) :
    answered (target :: e.command :: rest) u = some e := by
  have hbefore : before.find? (fun x => x.hasKey target.toNat e.command && x.state == .issued) = none := by
    refine List.find?_eq_none.mpr fun y hy hfits => ?_
    exact (halone y (List.mem_append_left after hy)).1 (beq_iff_eq.mp (Bool.and_eq_true_iff.mp hfits).2)
  have hfits : (e.hasKey target.toNat e.command && e.state == .issued) = true := by
    rw [Bool.and_eq_true, hasKey_iff, hissued]
    exact ⟨⟨htarget, rfl⟩, rfl⟩
  rw [answered, if_pos hwindow, htable, List.find?_append, hbefore, Option.none_or,
    List.find?_cons_of_pos (p := fun x : ReqEntry => x.hasKey target.toNat e.command && x.state == .issued) hfits]

theorem find?_issued (hissued : e.state = .issued) : (before ++ e :: after).find? (fun x => x.state == .issued) = some e := by
  have hbefore : before.find? (fun x => x.state == .issued) = none :=
    List.find?_eq_none.mpr fun y hy hfits => (halone y (List.mem_append_left after hy)).1 (beq_iff_eq.mp hfits)
  rw [List.find?_append, hbefore, Option.none_or,
    List.find?_cons_of_pos (p := fun x : ReqEntry => x.state == .issued) (by rw [hissued]; rfl)]

/-- The entry answered busy below the limit of its attempts is QUEUED again (R79). -/
theorem takeBusy_again {u : State} (htable : u.issuer.table = before ++ e :: after) {p : List Byte} (hnamed : answered p u = some e)
    (hn : e.attempts < 31) :
    takeBusy p u = tryOffer (withEntry before after u { e with attempts := e.attempts + 1, state := .queued }) := by
  have hkeys := fun y hy => (halone y hy).2
  have hcounted := changeEntry_alone hkeys htable (fun x => { x with attempts := e.attempts + 1 })
  rw [takeBusy, hnamed]
  dsimp only
  rw [if_pos (by omega), hcounted]
  exact congrArg (fun v : State => tryOffer { v with issuer := { v.issuer with window := none } })
    (changeEntry_alone (e := { e with attempts := e.attempts + 1 }) hkeys rfl (fun x => { x with state := .queued }))

/-- Answered busy at the limit it is given up (R79). -/
theorem takeBusy_gaveUp {u : State} (hexp : u.sleep.expired = false) (htable : u.issuer.table = before ++ e :: after) {p : List Byte}
    (hnamed : answered p u = some e) (hn : 31 ≤ e.attempts) :
    takeBusy p u = tryOffer (entryEnded before after u { e with attempts := e.attempts + 1 } .gaveUp none) := by
  have hcounted := changeEntry_alone (fun y hy => (halone y hy).2) htable (fun x => { x with attempts := e.attempts + 1 })
  rw [takeBusy, hnamed]
  dsimp only
  rw [if_neg (by omega), hcounted]
  exact endIssued_alone (e := { e with attempts := e.attempts + 1 }) halone .gaveUp none hexp rfl

end

/-! ## The offer (R75, R16) -/

/-- The QUEUED entry that stands first is the one offered (R75). -/
theorem find?_queued {before after : List ReqEntry} {e : ReqEntry} (hqueued : e.state = .queued) (hbefore : ∀ x ∈ before, x.state ≠ .queued) :
    (before ++ e :: after).find? (fun x => x.state == .queued) = some e := by
  have hnone : before.find? (fun x => x.state == .queued) = none :=
    List.find?_eq_none.mpr fun y hy hfits => hbefore y hy (beq_iff_eq.mp hfits)
  rw [List.find?_append, hnone, Option.none_or,
    List.find?_cons_of_pos (p := fun x : ReqEntry => x.state == .queued) (by rw [hqueued]; rfl)]

section
variable {before after : List ReqEntry} {e : ReqEntry}
  (halone : ∀ y ∈ before ++ after, ¬ (y.target = e.target ∧ y.command = e.command))
include halone

theorem offer_admitted {u : State} {q : Pool} (htable : u.issuer.table = before ++ e :: after)
    (hroom : u.pool.admitDown (commandFrame e) = some q) :
    offer e u = { u with
      pool := q
      issuer := { u.issuer with waiting := none, table := before ++ { e with state := .issued } :: after } } := by
  rw [offer, hroom]
  exact changeEntry_alone (u := { u with pool := q, issuer := { u.issuer with waiting := none } }) halone htable _

section
variable {u : State} (htable : u.issuer.table = before ++ e :: after) (hqueued : e.state = .queued)
  (hbefore : ∀ x ∈ before, x.state ≠ .queued)
include htable hqueued hbefore

theorem oldestOffered_admitted {q : Pool} (hroom : u.pool.admitDown (commandFrame e) = some q) :
    oldestOffered u =
      { u with pool := q, issuer := { u.issuer with table := before ++ { e with state := .issued } :: after } } := by
  have hmap : u.issuer.table.map (fun x => if x.target = e.target ∧ x.command = e.command then { x with state := .issued } else x) =
      before ++ { e with state := .issued } :: after := by
    rw [htable]
    refine Eq.trans (List.map_congr_left fun x _ => ?_) (map_alone halone (fun x => { x with state := .issued }))
    simp only [hasKey_iff]
  have hfind : u.issuer.table.find? (fun x => x.state == .queued) = some e := htable ▸ find?_queued hqueued hbefore
  have hadmit : u.pool.admitDown ⟨none, 0x40#8, .base, BitVec.ofNat 8 e.target :: e.command :: e.data, false, .issuer, []⟩ = some q := hroom
  unfold oldestOffered
  rw [hfind]
  dsimp only
  rw [hadmit]
  dsimp only
  rw [hmap]

omit halone in
theorem oldestOffered_noRoom (hroom : u.pool.admitDown (commandFrame e) = none) :
    oldestOffered u = { u with issuer := { u.issuer with waiting := some (e.target, e.command) } } := by
  have hfind : u.issuer.table.find? (fun x => x.state == .queued) = some e := htable ▸ find?_queued hqueued hbefore
  have hadmit : u.pool.admitDown ⟨none, 0x40#8, .base, BitVec.ofNat 8 e.target :: e.command :: e.data, false, .issuer, []⟩ = none := hroom
  unfold oldestOffered
  rw [hfind]
  dsimp only
  rw [hadmit]

end
end

end Machine
end Sys2Proof
/-! PROOFS. The answers of the base, the frames sent to it, and the discard timers. -/
namespace Sys2Proof
open Machine

namespace Machine

/-! ## An undamaged answer reaches the issuer (R48, R56) -/

section
variable {s : State} {payload : List Byte}

theorem exec_response_ready {t : State} (ht : takeResponse payload (heardReady s) = t)
    (hheld : s.held = false) (hst : s.link.state = .ready) (hdescr : isDescribeAnswer payload = false) :
    exec (.response payload (crc8 (0x20#8 :: BitVec.ofNat 8 payload.length :: payload))) s = .next (finish t) := by
  have hheard : receivedReady false (takeResponse payload) s = takeResponse payload (heardReady s) := receivedReady_heard (by simp [heardReady])
  refine exec_of_effect hheld Instr.noConfusion (Eq.trans ?_ (hheard.trans ht))
  simp only [effect, responseArrives, hst, isDamaged_crc8, hdescr, Bool.or_self, Bool.false_eq_true, if_false]

theorem exec_busy_ready {t : State} (ht : takeBusy payload (heardReady s) = t)
    (hheld : s.held = false) (hst : s.link.state = .ready) :
    exec (.busyResponse payload (crc8 (0x21#8 :: BitVec.ofNat 8 payload.length :: payload))) s = .next (finish t) := by
  have hheard : receivedReady false (takeBusy payload) s = takeBusy payload (heardReady s) := receivedReady_heard (by simp [heardReady])
  refine exec_of_effect hheld Instr.noConfusion (Eq.trans ?_ (hheard.trans ht))
  simp only [effect, answerArrives, hst, isDamaged_crc8, Bool.false_eq_true, if_false]

theorem exec_reject_ready {t : State} (ht : takeReject payload (heardReady s) = t)
    (hheld : s.held = false) (hst : s.link.state = .ready) :
    exec (.reject payload (crc8 (0x22#8 :: BitVec.ofNat 8 payload.length :: payload))) s = .next (finish t) := by
  have hheard : receivedReady false (takeReject payload) s = takeReject payload (heardReady s) := receivedReady_heard (by simp [heardReady])
  refine exec_of_effect hheld Instr.noConfusion (Eq.trans ?_ (hheard.trans ht))
  simp only [effect, answerArrives, hst, isDamaged_crc8, Bool.false_eq_true, if_false]

theorem exec_response_identifying {t : State} (ht : takeResponse payload s = t)
    (hheld : s.held = false) (hst : s.link.state = .identifying)
    (hdescr : isDescribeAnswer payload = false) :
    exec (.response payload (crc8 (0x20#8 :: BitVec.ofNat 8 payload.length :: payload))) s = .next (finish t) := by
  refine exec_of_effect hheld Instr.noConfusion (Eq.trans ?_ ht)
  simp only [effect, responseArrives, responseIdentifying, hst, isDamaged_crc8, hdescr, Bool.false_eq_true, if_false]

theorem exec_busy_identifying {t : State} (ht : takeBusy payload s = t)
    (hheld : s.held = false) (hst : s.link.state = .identifying) :
    exec (.busyResponse payload (crc8 (0x21#8 :: BitVec.ofNat 8 payload.length :: payload))) s = .next (finish t) := by
  refine exec_of_effect hheld Instr.noConfusion (Eq.trans ?_ ht)
  simp only [effect, answerArrives, hst, isDamaged_crc8, Bool.false_eq_true, if_false]

theorem exec_reject_identifying {t : State} (ht : takeReject payload s = t)
    (hheld : s.held = false) (hst : s.link.state = .identifying) :
    exec (.reject payload (crc8 (0x22#8 :: BitVec.ofNat 8 payload.length :: payload))) s = .next (finish t) := by
  refine exec_of_effect hheld Instr.noConfusion (Eq.trans ?_ ht)
  simp only [effect, answerArrives, hst, isDamaged_crc8, Bool.false_eq_true, if_false]

end

theorem isDescribeAnswer_key {key0 key1 : Byte} (rest : List Byte) (h : ¬ (key0 = 0xFF#8 ∧ key1 = 0x41#8)) :
    isDescribeAnswer (key0 :: key1 :: rest) = false := by
  simpa [isDescribeAnswer] using h

/-- A target in range is not that of a descriptor answer (R3, R71). -/
theorem isDescribeAnswer_target {target : Byte} (command : Byte) (rest : List Byte) (h : target.toNat ≤ 15) :
    isDescribeAnswer (target :: command :: rest) = false := by
  refine isDescribeAnswer_key rest ?_
  rintro ⟨rfl, _⟩
  exact absurd h (by decide)

/-- An answer that names no ISSUED entry is stray, whatever its kind (R81). -/
theorem takes_stray {payload : List Byte} {u : State} (h : answered payload u = none) :
    takeResponse payload u = strayAnswer u ∧ takeBusy payload u = strayAnswer u ∧ takeReject payload u = strayAnswer u := by
  rw [takeResponse, takeBusy, takeReject, h]
  exact ⟨rfl, rfl, rfl⟩

/-! ## A frame sent (R15, R16, R57, R59, R76) -/

/-- What the end of a transmission leaves before the waiting COMMAND is offered again. -/
def frameSent (f : Frame) (rest : List Frame) (s : State) : State :=
  { s with
    pool := { s.pool with down := rest, hingeBusy := false }
    issuer := { s.issuer with
      window := if f.origin = .issuer ∧ (∃ e ∈ s.issuer.table, e.state = .issued) then some 200 else s.issuer.window }
    link := { s.link with
      quiet := some 2500, kaDue := false, kaWindow := if s.link.kaDue then some 100 else s.link.kaWindow } }

theorem commandSent_eq (s : State) :
    commandSent s = { s with issuer := { s.issuer with
      window := if ∃ e ∈ s.issuer.table, e.state = .issued then some 200 else s.issuer.window } } := by
  have hany : s.issuer.table.any (fun e => e.state == .issued) = true ↔ ∃ e ∈ s.issuer.table, e.state = .issued := by simp
  rw [commandSent]
  by_cases h : ∃ e ∈ s.issuer.table, e.state = .issued
  · rw [if_pos (hany.mpr h), if_pos h]
    rfl
  · rw [if_neg (mt hany.mp h), if_neg h]

theorem keepAliveSent_eq (s : State) :
    (if s.link.kaDue then sendKeepAlive s else s) =
      { s with link := { s.link with kaDue := false, kaWindow := if s.link.kaDue then some 100 else s.link.kaWindow } } := by
  cases h : s.link.kaDue
  · have hkept : { s.link with kaDue := s.link.kaDue } = s.link := rfl
    rw [if_neg (by decide), if_neg (by decide), ← h, hkept]
  · rw [if_pos rfl, if_pos rfl]
    rfl

theorem hingeFrameDone_eq {f : Frame} {rest : List Frame} {s : State} (hbusy : s.pool.hingeBusy = true) (hdown : s.pool.down = f :: rest) :
    hingeFrameDone s = reoffer (frameSent f rest s) := by
  have hsent (u : State) : (if f.origin = .issuer then commandSent u else u) = { u with issuer := { u.issuer with
      window := if f.origin = .issuer ∧ (∃ e ∈ u.issuer.table, e.state = .issued) then some 200 else u.issuer.window } } := by
    by_cases h : f.origin = .issuer
    · rw [if_pos h, commandSent_eq]
      simp only [h, true_and]
    · rw [if_neg h, if_neg (fun hboth => h hboth.1)]
  rw [hingeFrameDone, if_pos hbusy, hdown]
  dsimp only
  rw [hsent, keepAliveSent_eq]
  rfl

theorem hingeFrameDone_idle {s : State} (hidle : s.pool.hingeBusy = false) : hingeFrameDone s = s :=
  if_neg (by rw [hidle]; decide)

theorem reoffer_none {u : State} (h : u.issuer.waiting = none) : reoffer u = u := by
  rw [reoffer, h]

theorem discardExpires_eq {s : State} {e : ReqEntry} (he : e ∈ s.issuer.table) (hdone : e.state = .done) (hdue : e.discard.isSome = true) :
    discardExpires e.target e.command s =
      { s with issuer := { s.issuer with
          table := s.issuer.table.filter (fun x => !(x.target == e.target && x.command == e.command))
          discarded := satInc s.issuer.discarded } } := by
  refine if_pos (List.any_eq_true.mpr ⟨e, he, ?_⟩)
  rw [hdone, hdue, hasKey_iff.mpr ⟨rfl, rfl⟩]
  rfl

end Machine

/-- Settles O39. -/
theorem answersEndTheRequest : Obligations.AnswersEndTheRequest := by
  refine ⟨fun s before after e target hrun hexp htable halone hissued htarget hrange hwindow hwait => ?named,
    fun s key0 key1 extra hrun hnone => ?unnamed⟩
  case named =>
    intro l heard check with_ ended again frame
    have hexec : effect .responseWindowExpiry s = endIssued e .noResponse none s := by
      show responseWindowExpires s = _
      rw [responseWindowExpires, if_pos hwindow, htable, find?_issued halone hissued]
    have hended (u : State) (x : ReqEntry) (o : ReqOutcome) (r : Option (List Byte)) (hissuer : u.issuer = s.issuer) :
        entryEnded before after u x o r = ended u x o r := by
      rw [entryEnded, hissuer]
      rfl
    have hoffer (v : State) (x : ReqEntry) (hv : v.issuer.table = before ++ x :: after) (hx : x.state ≠ .issued)
        (hw : v.issuer.waiting = s.issuer.waiting) :
        tryOffer v = if v.link.state.isUp = true then oldestOffered v else v := tryOffer_alone halone hv hx (hw.trans hwait)
    have hends (u : State) (o : ReqOutcome) (r : Option (List Byte)) (hu : u.sleep.expired = false) (hissuer : u.issuer = s.issuer) :
        endIssued e o r u = if u.link.state.isUp = true then oldestOffered (ended u e o r) else ended u e o r := by
      have hwaiting : (ended u e o r).issuer.waiting = s.issuer.waiting := by
        show u.issuer.waiting = _
        rw [hissuer]
      rw [endIssued_alone halone o r hu (hissuer ▸ htable), hended u e o r hissuer]
      exact hoffer (ended u e o r) _ rfl ReqState.noConfusion hwaiting
    refine ⟨fun hup => ?_, fun hdown => ?_, fun hready rest => ?ready⟩
    · exact exec_of_effect hrun.1 Instr.noConfusion (hexec.trans ((hends s .noResponse none hexp rfl).trans (if_pos hup)))
    · exact exec_of_effect hrun.1 Instr.noConfusion
        (hexec.trans ((hends s .noResponse none hexp rfl).trans (if_neg (by rw [hdown]; decide))))
    case ready =>
      intro p
      have hnamed : answered p heard = some e := answered_alone halone (u := heard) htable hissued htarget hwindow rest
      have hup : heard.link.state.isUp = true := congrArg LinkState.isUp hready
      have hdone (o : ReqOutcome) (r : Option (List Byte)) : endIssued e o r heard = oldestOffered (ended heard e o r) :=
        (hends heard o r hexp rfl).trans (if_pos hup)
      have hresponse {t : State} (ht : takeResponse p heard = t) : exec (.response p (check 0x20#8 p)) s = .next (finish t) :=
        exec_response_ready ht hrun.1 hready (isDescribeAnswer_target e.command rest hrange)
      have hbusy {t : State} (ht : takeBusy p heard = t) : exec (.busyResponse p (check 0x21#8 p)) s = .next (finish t) :=
        exec_busy_ready ht hrun.1 hready
      have hagain (hn : e.attempts < 31) : takeBusy p heard = oldestOffered (with_ heard { again with state := .queued }) :=
        (takeBusy_again halone (u := heard) htable hnamed hn).trans
          ((hoffer (with_ heard { again with state := .queued }) _ rfl ReqState.noConfusion rfl).trans (if_pos hup))
      have hkeys := fun y hy => (halone y hy).2
      refine ⟨fun hlen => hresponse ?_, fun hlen => hresponse ?_, exec_reject_ready ?_ hrun.1 hready, fun hn => hbusy ?_,
        fun hn => hbusy (hagain hn), fun q hn hbefore hroom => hbusy ((hagain hn).trans ?_), fun hn hbefore hfull =>
        hbusy ((hagain hn).trans ?_)⟩
      · rw [takeResponse, hnamed]
        exact (if_pos (Nat.add_le_add_right hlen 2)).trans (hdone .ok (some rest))
      · rw [takeResponse, hnamed]
        exact if_neg (Nat.not_le.mpr (Nat.add_lt_add_right hlen 2))
      · have htaken : takeReject p heard = endIssued e .baseRefused none heard := by rw [takeReject, hnamed]
        exact htaken.trans (hdone .baseRefused none)
      · rw [takeBusy_gaveUp halone (u := heard) hexp htable hnamed hn, hended heard again .gaveUp none rfl]
        exact (hoffer (ended heard again .gaveUp none) _ rfl ReqState.noConfusion rfl).trans (if_pos hup)
      · have hadmitted := oldestOffered_admitted (e := { again with state := .queued }) (u := with_ heard { again with state := .queued })
          hkeys rfl rfl hbefore hroom
        have hstate : { again with state := .issued } = again := (congrArg (fun st => { again with state := st }) hissued.symm).trans rfl
        have hentry : { with_ heard { again with state := .issued } with pool := q } = { with_ heard again with pool := q } := by
          rw [hstate]
        exact hadmitted.trans hentry
      · exact oldestOffered_noRoom (e := { again with state := .queued }) (u := with_ heard { again with state := .queued })
          rfl rfl hbefore hfull
  case unnamed =>
    intro p check stray heard
    obtain ⟨hresponse, hbusy, hreject⟩ := takes_stray (answered_eq_none extra (s := s) hnone)
    obtain ⟨hresponse', hbusy', hreject'⟩ := takes_stray (answered_eq_none extra (s := heard) hnone)
    refine ⟨fun hst => ⟨fun hkey => ?_, ?_, ?_⟩, fun hst => ⟨fun hkey => ?_, ?_, ?_⟩⟩
    · exact exec_response_ready hresponse' hrun.1 hst (isDescribeAnswer_key extra hkey)
    · exact exec_busy_ready hbusy' hrun.1 hst
    · exact exec_reject_ready hreject' hrun.1 hst
    · exact exec_response_identifying hresponse hrun.1 hst (isDescribeAnswer_key extra hkey)
    · exact exec_busy_identifying hbusy hrun.1 hst
    · exact exec_reject_identifying hreject hrun.1 hst

/-- Settles O42. -/
theorem sentFramesLeaveTheQueue : Obligations.SentFramesLeaveTheQueue := by
  intro s hrun
  refine ⟨fun f rest hbusy hdown => ?sent, fun hidle => exec_of_effect hrun.1 Instr.noConfusion (hingeFrameDone_idle hidle),
    fun e he hdone hdue => exec_of_effect hrun.1 Instr.noConfusion (discardExpires_eq he hdone hdue)⟩
  case sent =>
    intro window pool u
    have hsent : effect .hingeFrameSent s = reoffer u := hingeFrameDone_eq hbusy hdown
    refine ⟨fun hwait => exec_of_effect hrun.1 Instr.noConfusion (hsent.trans (reoffer_none hwait)),
      fun before after e hwait htable halone => ?_⟩
    intro frame
    have hfind : u.issuer.table.find? (fun x => x.hasKey e.target e.command) = some e :=
      htable ▸ find?_alone (hasKey_iff.mpr ⟨rfl, rfl⟩) halone
    have hoffered : reoffer u = offer e u := by
      rw [reoffer, hwait]
      dsimp only
      rw [hfind]
    refine ⟨fun q hroom => exec_of_effect hrun.1 Instr.noConfusion (hsent.trans (hoffered.trans (offer_admitted halone htable hroom))),
      fun hfull => exec_of_effect hrun.1 Instr.noConfusion (hsent.trans (hoffered.trans ?_))⟩
    rw [offer, show u.pool.admitDown (commandFrame e) = none from hfull]
    exact (congrArg (fun w => { u with issuer := { u.issuer with waiting := w } }) hwait.symm).trans rfl

end Sys2Proof

/-! PROOFS. Base traffic: a frame of kinds 0x10 to 0x13 through the link to the route engine. -/
namespace Sys2Proof
open Machine

namespace Machine

/-! ## The route engine on a frame of the base (R21 to R34) -/

/-- A wake claim leaves no grace expired (R172, R175). -/
theorem wakeClaim_expired (k : WakeKind) {u : State} (h : u.sleep.expired = false) : (wakeClaim k u).sleep.expired = false := by
  have hcancel (w : Withdrawal) : (cancelSleep w u).sleep.expired = false := by
    unfold cancelSleep
    split <;> simp [h]
  have hrecord : (recordReason k u).sleep.expired = false := by
    unfold recordReason
    dsimp only
    (repeat' split) <;> exact h
  unfold wakeClaim
  split
  · exact h
  · exact hcancel _
  · exact hcancel _
  · simpa [pulseWakeLine] using hrecord
  · exact hrecord

/-- The frame counted as received (R21). -/
def countReceived (src : Source) (u : State) : State := changeIngress src (fun c => { c with received := c.received + 1#16 }) u

theorem routeFrame_eq (src : Source) (kind : Byte) (payload : List Byte) (damaged : Bool) (u : State) :
    routeFrame src kind payload damaged u =
      if u.store.state = .starting then u
      else if 64 < payload.length then changeIngress src (fun c => { c with tooLong := satInc c.tooLong }) (countReceived src u)
      else decideFrame src kind payload damaged (if damaged then countReceived src u else tapFrame src payload (countReceived src u)) :=
  rfl

/-- A damaged frame is not handed to its observers, so what the route engine makes of it leaves the link (R22). -/
theorem routeFrame_damaged_link (src : Source) (kind : Byte) (payload : List Byte) (u : State) :
    (routeFrame src kind payload true u).link = u.link := by
  rw [routeFrame_eq, if_pos rfl]
  (repeat' split) <;> simp [changeIngress, countReceived]

theorem routeFrame_damaged_expired (src : Source) (kind : Byte) (payload : List Byte) {u : State} (h : u.sleep.expired = false) :
    (routeFrame src kind payload true u).sleep.expired = false := by
  rw [routeFrame_eq, if_pos rfl]
  unfold decideFrame classify thinFrame actOnFrame
  (repeat' split) <;> simp [h, wakeClaim_expired, changeIngress, changeRoute, countReceived]

/-- What the route engine makes of an undamaged frame leaves the run of damaged frames (R56). -/
theorem routeFrame_run (src : Source) (kind : Byte) (payload : List Byte) (damaged : Bool) (u : State) :
    (routeFrame src kind payload damaged u).link.damagedRun = u.link.damagedRun := by
  have htap (v : State) : (tapFrame src payload v).link.damagedRun = v.link.damagedRun := by
    unfold tapFrame
    (repeat' split) <;> simp
  unfold routeFrame
  dsimp only
  (repeat' split) <;> simp [changeIngress, htap]

theorem sourceOfKind_base {kind : Byte} (h : kind.toNat ∈ [0x10, 0x11, 0x12, 0x13]) :
    sourceOfKind kind = (match kind.toNat with | 0x10 => Source.baseKeys | 0x11 => .basePointer | 0x12 => .baseMotion | _ => .baseStatus) ∧
      isBaseSource (sourceOfKind kind) = true := by
  have hkind : kind = BitVec.ofNat 8 kind.toNat := by simp
  simp only [List.mem_cons, List.not_mem_nil, or_false] at h
  rcases h with h | h | h | h <;> (rw [h] at hkind; subst hkind; exact ⟨rfl, rfl⟩)

/-! ## The link before the route engine (R48, R56, R58) -/

/-- What the link does with a frame of base traffic before anything else. -/
def trafficHeard (damaged : Bool) (s : State) : State :=
  let run := if damaged = true then s.link.damagedRun + 1 else 0
  match s.link.state with
  | .ready =>
    { s with link := { s.link with
      damagedRun := run, quiet := some 2500, keepAlive := if damaged = true then s.link.keepAlive else some 5000 } }
  | .quiet => { s with link := { s.link with damagedRun := run } }
  | _ => s

/-- The third damaged frame in a row of a running link. -/
def thirdDamaged (damaged : Bool) (s : State) : Bool :=
  damaged && decide (2 ≤ s.link.damagedRun) && decide (s.link.state = .ready ∨ s.link.state = .quiet)

theorem thirdDamaged_false (s : State) : thirdDamaged false s = false := rfl

theorem thirdDamaged_elsewhere {s : State} (damaged : Bool) (h : ¬ (s.link.state = .ready ∨ s.link.state = .quiet)) :
    thirdDamaged damaged s = false := by
  rw [thirdDamaged, decide_eq_false h, Bool.and_false]

theorem trafficHeard_aside (damaged : Bool) (s : State) :
    (trafficHeard damaged s).store = s.store ∧ (trafficHeard damaged s).sleep = s.sleep ∧
      (trafficHeard damaged s).att = s.att ∧ (trafficHeard damaged s).link.state = s.link.state := by
  unfold trafficHeard
  dsimp only
  split <;> exact ⟨rfl, rfl, rfl, rfl⟩

/-- A running link looks at its run after the frame: undamaged the run is over, damaged it may be link loss (R56, R58). -/
theorem lossByRun_heard {damaged : Bool} {s u : State} (hup : s.link.state = .ready ∨ s.link.state = .quiet)
    (hrun : damaged = false → u.link.damagedRun = 0)
    (hlink : damaged = true → u.link.damagedRun = s.link.damagedRun + 1 ∧ u.link.state = s.link.state) :
    lossByRun u = if thirdDamaged damaged s = true then linkLoss u else u := by
  cases damaged
  · rw [thirdDamaged_false, if_neg (by decide)]
    exact lossByRun_of_noRun u (hrun rfl)
  · obtain ⟨hdamaged, hstate⟩ := hlink rfl
    have hthird : thirdDamaged true s = decide (2 ≤ s.link.damagedRun) := by
      rw [thirdDamaged, decide_eq_true hup, Bool.true_and, Bool.and_true]
    rw [hthird]
    by_cases h : 2 ≤ s.link.damagedRun
    · rw [if_pos (decide_eq_true h), lossByRun_third (by omega) (hstate ▸ (isUp_iff _).mpr hup)]
    · rw [if_neg (by simpa using h), lossByRun_below (by omega)]

section
variable {s : State} {kind : Byte} {payload : List Byte} {check : Byte}

/-- A frame that reaches the route engine (R48, R56, R58). -/
theorem trafficArrives_routed
    (h : s.link.state = .identifying ∨ s.link.state = .ready ∨
      (s.link.state = .quiet ∧ kind ∈ s.att.ident.wakeKinds ∧ isDamaged kind payload check = false)) :
    let u := routeFrame (sourceOfKind kind) kind payload (isDamaged kind payload check) (trafficHeard (isDamaged kind payload check) s)
    trafficArrives kind payload check s = if thirdDamaged (isDamaged kind payload check) s = true then linkLoss u else u := by
  intro u
  rcases h with hst | hst | ⟨hst, hkind, hd⟩
  · have hheard : trafficHeard (isDamaged kind payload check) s = s := by rw [trafficHeard, hst]
    have hrunning : ¬ (s.link.state = .ready ∨ s.link.state = .quiet) := by rw [hst]; decide
    rw [thirdDamaged_elsewhere _ hrunning, if_neg (by decide)]
    show _ = routeFrame (sourceOfKind kind) kind payload (isDamaged kind payload check) (trafficHeard (isDamaged kind payload check) s)
    rw [hheard]
    exact trafficArrives_identifying kind payload check s hst
  · have hheard : trafficHeard (isDamaged kind payload check) s =
        restartTimers (isDamaged kind payload check) (noteRun (isDamaged kind payload check) s) := by
      rw [trafficHeard, hst]
      rfl
    have harrives : trafficArrives kind payload check s = lossByRun u := by
      simp only [trafficArrives, hst, u, hheard]
      rfl
    rw [harrives]
    refine lossByRun_heard (.inl hst) (fun hd => ?_) fun hd => ?_
    · refine (routeFrame_run ..).trans ?_
      rw [hheard, hd]
      rfl
    · have hlink : u.link = (trafficHeard true s).link := by
        show (routeFrame (sourceOfKind kind) kind payload (isDamaged kind payload check)
          (trafficHeard (isDamaged kind payload check) s)).link = _
        rw [hd]
        exact routeFrame_damaged_link _ _ _ _
      rw [hlink, trafficHeard, hst]
      exact ⟨rfl, hst⟩
  · have hheard : trafficHeard false s = noteRun false s := by
      rw [trafficHeard, hst]
      rfl
    have harrives : trafficArrives kind payload check s = lossByRun u := by
      simp only [trafficArrives, hst, hd, List.contains_iff_mem.mpr hkind, if_true, Bool.false_eq_true, if_false, u]
      rw [hheard]
      rfl
    rw [harrives]
    refine lossByRun_heard (.inr hst) (fun _ => ?_) fun hd' => absurd (hd.symm.trans hd') (by decide)
    refine (routeFrame_run ..).trans ?_
    rw [hd, hheard]
    rfl

/-- A damaged frame of a wake kind in QUIET counts in the run alone (R58). -/
theorem trafficArrives_quietDamaged (hst : s.link.state = .quiet) (hkind : kind ∈ s.att.ident.wakeKinds)
    (hd : isDamaged kind payload check = true) :
    trafficArrives kind payload check s =
      if thirdDamaged true s = true then linkLoss (trafficHeard true s) else trafficHeard true s := by
  have hheard : trafficHeard true s = noteRun true s := by
    rw [trafficHeard, hst]
    rfl
  have harrives : trafficArrives kind payload check s = lossByRun (noteRun true s) := by
    simp only [trafficArrives, hst, hd, List.contains_iff_mem.mpr hkind, if_true]
    rfl
  rw [harrives, hheard]
  exact lossByRun_heard (.inr hst) nofun fun _ => ⟨rfl, rfl⟩

/-- A frame of another kind in QUIET is dropped by the link (R58). -/
theorem trafficArrives_quietOther (hst : s.link.state = .quiet) (hkind : kind ∉ s.att.ident.wakeKinds) :
    let u := linkDrops (trafficHeard (isDamaged kind payload check) s)
    trafficArrives kind payload check s = if thirdDamaged (isDamaged kind payload check) s = true then linkLoss u else u := by
  intro u
  have hheard : trafficHeard (isDamaged kind payload check) s = noteRun (isDamaged kind payload check) s := by
    rw [trafficHeard, hst]
    rfl
  have harrives : trafficArrives kind payload check s = lossByRun u := by
    have hnot : s.att.ident.wakeKinds.contains kind = false := Bool.eq_false_iff.mpr (mt List.contains_iff_mem.mp hkind)
    simp only [trafficArrives, hst, hnot, u, hheard, Bool.false_eq_true, if_false]
    rfl
  rw [harrives]
  refine lossByRun_heard (.inr hst) (fun hd => ?_) fun hd => ⟨?_, ?_⟩
  · show (linkDrops (trafficHeard (isDamaged kind payload check) s)).link.damagedRun = 0
    rw [hheard, hd]
    rfl
  · show (linkDrops (trafficHeard (isDamaged kind payload check) s)).link.damagedRun = _
    rw [hheard, hd]
    rfl
  · exact (trafficHeard_aside _ s).2.2.2

/-- In every other state of the link base traffic is not looked at (R56). -/
theorem trafficArrives_elsewhere (hst : s.link.state ∉ [.identifying, .ready, .quiet]) : trafficArrives kind payload check s = s := by
  simp only [List.mem_cons, List.not_mem_nil, or_false, not_or] at hst
  obtain ⟨hident, hready, hquiet⟩ := hst
  simp only [trafficArrives]

end

end Machine
end Sys2Proof
/-! PROOFS. What becomes of base traffic in the route engine. -/
namespace Sys2Proof
open Machine

namespace Machine

/-! ## After the taps (R25 to R34) -/

theorem tapFrame_base {src : Source} (payload : List Byte) (u : State) (h : isBaseSource src = true) (hmotion : src ≠ .baseMotion) :
    tapFrame src payload u = u := by
  cases src <;> first | rfl | exact absurd rfl hmotion | exact absurd h (by decide)

theorem isBaseSource_not_uplink {src : Source} (h : isBaseSource src = true) : src ≠ .uplink := by
  rintro rfl
  exact absurd h (by decide)

section
variable {src : Source} (hbase : isBaseSource src = true) {kind : Byte} {payload : List Byte} {damaged : Bool} {v : State}

include hbase in
theorem undeclared_iff : undeclared src kind v = true ↔ ¬ ((v.link.state = .ready ∨ v.link.state = .quiet) ∧ kind ∈ v.att.ident.declared) := by
  rw [undeclared, hbase, Bool.true_and, Bool.not_eq_true', Bool.eq_false_iff, ne_eq, Bool.and_eq_true, isUp_iff, List.contains_iff_mem]

include hbase in
/-- A frame of the base of a declared kind is classified (R25, R26). -/
theorem decideFrame_declared (h : (v.link.state = .ready ∨ v.link.state = .quiet) ∧ kind ∈ v.att.ident.declared) :
    decideFrame src kind payload damaged v = classify src kind payload damaged v := by
  rw [decideFrame, if_neg (mt (undeclared_iff hbase).mp (not_not_intro h)), if_neg fun hup => isBaseSource_not_uplink hbase hup.1]

include hbase in
theorem decideFrame_undeclared (h : ¬ ((v.link.state = .ready ∨ v.link.state = .quiet) ∧ kind ∈ v.att.ident.declared)) :
    decideFrame src kind payload damaged v = changeIngress src (fun c => { c with undeclared := satInc c.undeclared }) v :=
  if_pos ((undeclared_iff hbase).mpr h)

variable {i : Nat} {e : RouteEntry} (hentry : matchedEntry src kind v = some i) (he : v.route.table[i]? = some e)
include hentry he

/-- The matched entry drops a damaged frame under DROP-DAMAGED (R30). -/
theorem classify_dropDamaged (hd : damaged = true) (hdrop : e.fields.damage = .dropDamaged) :
    classify src kind payload damaged v = changeIngress src (fun c => { c with damaged := satInc c.damaged }) v := by
  simp only [classify, hentry, he]
  exact if_pos ⟨hd, hdrop⟩

theorem classify_thins (h : damaged = false ∨ e.fields.damage = .passMarked) :
    classify src kind payload damaged v = thinFrame src kind payload damaged i e v := by
  simp only [classify, hentry, he]
  refine if_neg ?_
  rintro ⟨hd, hdrop⟩
  rcases h with hundamaged | hpass
  · exact absurd (hundamaged.symm.trans hd) (by decide)
  · exact DamagePolicy.noConfusion (hpass.symm.trans hdrop)

end

/-- The entry at its index replaced. -/
def putEntry (i : Nat) (e : RouteEntry) (v : State) : State := { v with route := { v.route with table := v.route.table.set i e } }

/-- A frame of the base offered to the upstream queue by the entry that it was acted on for (R32, R35). -/
def offeredUp (src : Source) (i : Nat) (e : RouteEntry) (f : Frame) (v : State) : State :=
  match v.pool.admitUp f with
  | some p => { putEntry i e v with pool := p }
  | none => changeIngress src (fun c => { c with overrun := satInc c.overrun }) (putEntry i { e with queueFull := satInc e.queueFull } v)

theorem forwardFrame_base {src : Source} (hbase : isBaseSource src = true) (kind : Byte) (payload : List Byte) (damaged : Bool) {i : Nat}
    (dest : Dest) {v : State} {e₀ : RouteEntry} (e : RouteEntry) (he : v.route.table[i]? = some e₀) :
    forwardFrame src kind payload damaged i dest (putEntry i e v) =
      offeredUp src i e ⟨some src, kind, dest, payload, damaged, .routed, []⟩ v := by
  have hup := isBaseSource_not_uplink hbase
  have hput : (putEntry i e v).route.table[i]? = some e := by
    obtain ⟨hi, _⟩ := List.getElem?_eq_some_iff.mp he
    exact List.getElem?_set_self hi
  rw [offeredUp]
  cases hroom : v.pool.admitUp ⟨some src, kind, dest, payload, damaged, .routed, []⟩ with
  | some p => exact forwardFrame_up src kind payload damaged i dest (putEntry i e v) p hup hroom
  | none =>
    have hset : (v.route.table.set i e).set i { e with queueFull := satInc e.queueFull } =
        v.route.table.set i { e with queueFull := satInc e.queueFull } := List.set_set ..
    refine (forwardFrame_full src kind payload damaged i dest (putEntry i e v) e hput ?_).trans ?_
    · rw [if_neg hup]
      exact hroom
    · show ({ putEntry i e v with route := { v.route with table := (v.route.table.set i e).set i _, ingress := _ } } : State) = _
      rw [hset]
      rfl

theorem routeMatches_iff (src : Source) (kind : Byte) (v : State) (e : RouteEntry) :
    routeMatches src kind v e = true ↔
      e.fields.valid = true ∧ e.fields.source = src ∧ (∀ k, e.fields.kind = some k → k = kind.toNat) ∧
      inPostures e.fields.postures v.posture.posture = true ∧ inViews e.fields.views (viewOf v.sleep.power) = true ∧
      (∀ m, e.fields.model = some m →
        (v.link.state = .ready ∨ v.link.state = .quiet) ∧ v.att.ident.idSource = some .descriptor ∧ v.att.ident.model = some m) := by
  have hmodel : modelHolds e.fields.model v = true ↔ ∀ m, e.fields.model = some m →
      (v.link.state = .ready ∨ v.link.state = .quiet) ∧ v.att.ident.idSource = some .descriptor ∧ v.att.ident.model = some m := by
    cases e.fields.model with
    | none => simp [modelHolds]
    | some m => simp [modelHolds, isUp_iff, and_assoc]
  have hkind : e.fields.kind.all (fun k => k == kind.toNat) = true ↔ ∀ k, e.fields.kind = some k → k = kind.toNat := by
    rw [Option.all_eq_true]
    simp
  simp only [routeMatches, Bool.and_eq_true, beq_iff_eq, hmodel, hkind, and_assoc]

end Machine
end Sys2Proof
/-! PROOFS. Every path of base traffic. -/
namespace Sys2Proof
open Machine

namespace Machine

/-- What link loss leaves when no grace has expired (R44, R56). -/
def lostLink (s : State) : State :=
  let l := s.link
  let v := requestsGone (post (.link .lost)
    { s with link := { l with
      quietWaits := false, kaDue := false, resetAfterRail := false, debounce := none, railUp := none, echo := none
      retry := none, describe := none, quiet := none, wake := none, keepAlive := none, kaWindow := none
      resetDrive := none, diag := none } })
  let u := linkChanged .training { v with pool := { v.pool with down := [], hingeBusy := false } }
  { u with link := { u.link with rate := some .fast, attempt := 1, echo := some 100 } }

theorem isDamaged_eq_decide (kind : Byte) (payload : List Byte) (check : Byte) :
    isDamaged kind payload check = decide (check ≠ crc8 (kind :: BitVec.ofNat 8 payload.length :: payload)) := by
  rw [Bool.eq_iff_iff, isDamaged, bne_iff_ne, decide_eq_true_iff]

section
variable {s u : State} {kind : Byte} {payload : List Byte} {check : Byte} (hheld : s.held = false)
include hheld

theorem exec_traffic {damaged : Bool}
    (h : trafficArrives kind payload check s = if thirdDamaged damaged s = true then linkLoss u else u)
    (hexpired : thirdDamaged damaged s = true → u.sleep.expired = false) :
    exec (.baseTrafficFrame kind payload check) s = .next (finish (if thirdDamaged damaged s = true then lostLink u else u)) := by
  refine exec_of_effect hheld (by exact fun hc => Instr.noConfusion hc) (h.trans ?_)
  split
  next hthird => exact linkLoss_eq u (hexpired hthird)
  next => rfl

/-- The command for a frame that reaches the route engine, by what the route engine makes of it (R48, R56, R58). -/
theorem exec_traffic_routed {damaged : Bool} (hd : isDamaged kind payload check = damaged)
    (h : s.link.state = .identifying ∨ s.link.state = .ready ∨ (s.link.state = .quiet ∧ kind ∈ s.att.ident.wakeKinds ∧ damaged = false))
    (hexpired : thirdDamaged damaged s = true → s.sleep.expired = false)
    (hu : routeFrame (sourceOfKind kind) kind payload damaged (trafficHeard damaged s) = u) :
    exec (.baseTrafficFrame kind payload check) s = .next (finish (if thirdDamaged damaged s = true then lostLink u else u)) := by
  subst hd hu
  refine exec_traffic hheld (trafficArrives_routed h) fun hthird => ?_
  have hdamaged : isDamaged kind payload check = true := by
    simp only [thirdDamaged, Bool.and_eq_true] at hthird
    exact hthird.1.1
  rw [hdamaged]
  refine routeFrame_damaged_expired _ _ _ ?_
  rw [(trafficHeard_aside _ s).2.1]
  exact hexpired hthird

end

section
variable {src : Source} (hbase : isBaseSource src = true) {kind : Byte} {payload : List Byte} {damaged : Bool} {i : Nat} {v : State}
  {e : RouteEntry} (hentry : matchedEntry src kind v = some i) (he : v.route.table[i]? = some e)
  (hkept : damaged = false ∨ e.fields.damage = .passMarked) (hact : e.fields.keepN ≤ e.phase + 1)

/-- The entry that acts on a frame (R31). -/
def actedEntry (e : RouteEntry) : RouteEntry := { e with phase := 0, passed := e.passed + 1#16 }

include hentry he hkept

theorem classify_thinned (hthin : e.phase + 1 < e.fields.keepN) :
    classify src kind payload damaged v = putEntry i { e with phase := e.phase + 1 } v :=
  (classify_thins hentry he hkept).trans (thinFrame_thins _ _ _ _ _ _ _ he hthin)

include hact

/-- A frame of the base acted on, by the entry's action (R31 to R34). -/
theorem classify_acts :
    classify src kind payload damaged v =
      match e.fields.action with
      | .forward => forwardFrame src kind payload damaged i e.fields.dest (putEntry i (actedEntry e) v)
      | .drop => putEntry i (actedEntry e) v
      | .wake => wakeClaim (.frame src) (putEntry i (actedEntry e) v)
      | .forwardWake => wakeClaim (.frame src) (forwardFrame src kind payload damaged i e.fields.dest (putEntry i (actedEntry e) v)) :=
  (classify_thins hentry he hkept).trans ((thinFrame_acts _ _ _ _ _ _ _ he hact).trans rfl)

theorem classify_dropped (h : e.fields.action = .drop) : classify src kind payload damaged v = putEntry i (actedEntry e) v := by
  rw [classify_acts hentry he hkept hact, h]

theorem classify_wakes (h : e.fields.action = .wake) :
    classify src kind payload damaged v = wakeClaim (.frame src) (putEntry i (actedEntry e) v) := by
  rw [classify_acts hentry he hkept hact, h]

include hbase

theorem classify_forwarded (h : e.fields.action = .forward) :
    classify src kind payload damaged v =
      offeredUp src i (actedEntry e) ⟨some src, kind, e.fields.dest, payload, damaged, .routed, []⟩ v := by
  rw [classify_acts hentry he hkept hact, h]
  exact forwardFrame_base hbase kind payload damaged e.fields.dest (actedEntry e) he

theorem classify_forwardedWakes (h : e.fields.action = .forwardWake) :
    classify src kind payload damaged v =
      wakeClaim (.frame src) (offeredUp src i (actedEntry e) ⟨some src, kind, e.fields.dest, payload, damaged, .routed, []⟩ v) := by
  rw [classify_acts hentry he hkept hact, h]
  exact congrArg (wakeClaim (.frame src)) (forwardFrame_base hbase kind payload damaged e.fields.dest (actedEntry e) he)

end

end Machine

/-- Settles O41. -/
theorem baseTrafficIsRouted : Obligations.BaseTrafficIsRouted := by
  intro s kind payload check hrun hkind damaged l run heard lost lastOfThree gives src count arrived v declared hexpired
  have hd : isDamaged kind payload check = damaged := isDamaged_eq_decide kind payload check
  have hsrc : sourceOfKind kind = src := (sourceOfKind_base hkind).1
  have hbase : isBaseSource src = true := hsrc ▸ (sourceOfKind_base hkind).2
  have hheard : trafficHeard damaged s = heard := by
    show trafficHeard damaged s = match s.link.state with | .ready => _ | .quiet => _ | _ => s
    cases hst : s.link.state <;> simp only [trafficHeard, hst] <;> rfl
  have hstore : heard.store = s.store := hheard ▸ (trafficHeard_aside damaged s).1
  have hsleep : heard.sleep = s.sleep := hheard ▸ (trafficHeard_aside damaged s).2.1
  have hatt : heard.att = s.att := hheard ▸ (trafficHeard_aside damaged s).2.2.1
  have hroutes {u : State}
      (hreach : l.state = .identifying ∨ l.state = .ready ∨ (l.state = .quiet ∧ kind ∈ s.att.ident.wakeKinds ∧ damaged = false))
      (hu : routeFrame src kind payload damaged heard = u) : gives u :=
    exec_traffic_routed hrun.1 hd hreach hexpired (by rw [hsrc, hheard]; exact hu)
  have hclassified {u : State}
      (hreach : l.state = .identifying ∨ l.state = .ready ∨ (l.state = .quiet ∧ kind ∈ s.att.ident.wakeKinds ∧ damaged = false))
      (hstarted : s.store.state ≠ .starting) (hshort : payload.length ≤ 64) (hu : decideFrame src kind payload damaged v = u) :
      gives u := by
    refine hroutes hreach (.trans ?_ hu)
    rw [routeFrame_eq, if_neg (by rw [hstore]; exact hstarted), if_neg (by omega)]
    rfl
  refine ⟨fun hmotion => ?notTapped, fun hreach => ⟨fun hstarting => ?starting, fun hstarted hlong => ?tooLong,
    fun hstarted hshort => ⟨fun hundeclared => ?undeclared, fun hdeclared hnone => ?unmatched,
      fun i e hdeclared he hm hlow => ?matched⟩⟩, fun hst hwakes hdamaged => ?quietDamaged, fun hst hnot => ?quietOther,
    fun hst => ?elsewhere, fun v e => routeMatches_iff src kind v e⟩
  case notTapped =>
    show (if damaged = true then arrived else tapFrame src payload arrived) = arrived
    rw [tapFrame_base payload arrived hbase hmotion, ite_self]
  case starting => exact hroutes hreach (routeFrame_starting _ _ _ _ _ (by rw [hstore]; exact hstarting))
  case tooLong =>
    refine hroutes hreach ?_
    rw [routeFrame_eq, if_neg (by rw [hstore]; exact hstarted), if_pos hlong]
    rfl
  case undeclared => exact hclassified hreach hstarted hshort (decideFrame_undeclared hbase hundeclared)
  case unmatched =>
    exact hclassified hreach hstarted hshort
      ((decideFrame_declared hbase hdeclared).trans (classify_unmatched _ _ _ _ _ (matchedEntry_none _ _ _ hnone)))
  case matched =>
    have hentry : matchedEntry src kind v = some i := matchedEntry_lowest _ _ _ _ _ he hm hlow
    have hgives {u : State} (hu : classify src kind payload damaged v = u) : gives u :=
      hclassified hreach hstarted hshort ((decideFrame_declared hbase hdeclared).trans hu)
    intro put passed frame offered
    have hoffered : offeredUp src i (actedEntry e) ⟨some src, kind, e.fields.dest, payload, damaged, .routed, []⟩ v = offered := rfl
    refine ⟨fun hdamaged hdrop => hgives (classify_dropDamaged hentry he hdamaged hdrop), fun hkept =>
      ⟨fun hthin => hgives (classify_thinned hentry he hkept hthin), fun hact => ⟨fun h => ?_, fun h => ?_, fun h => ?_, fun h => ?_⟩⟩⟩
    · exact hgives ((classify_forwarded hbase hentry he hkept hact h).trans hoffered)
    · exact hgives (classify_dropped hentry he hkept hact h)
    · exact hgives (classify_wakes hentry he hkept hact h)
    · exact hgives ((classify_forwardedWakes hbase hentry he hkept hact h).trans (congrArg (wakeClaim (.frame src)) hoffered))
  case quietDamaged =>
    have harrives : trafficArrives kind payload check s = if thirdDamaged damaged s = true then linkLoss heard else heard := by
      rw [← hheard, hdamaged]
      exact trafficArrives_quietDamaged hst hwakes (hd.trans hdamaged)
    exact exec_traffic hrun.1 harrives fun h => hsleep.symm ▸ hexpired h
  case quietOther =>
    have harrives := trafficArrives_quietOther (check := check) (payload := payload) hst hnot
    rw [hd, hheard] at harrives
    have hdrops : linkDrops heard = { heard with att := { s.att with linkDropped := satInc s.att.linkDropped } } := by
      rw [linkDrops, hatt]
    rw [hdrops] at harrives
    exact exec_traffic hrun.1 harrives fun h => hsleep.symm ▸ hexpired h
  case elsewhere =>
    have hthird : lastOfThree = false := thirdDamaged_elsewhere damaged fun h => by
      rcases h with h | h <;> (have : l.state = _ := h; rw [this] at hst; exact hst (by decide))
    show exec _ s = .next (finish (if lastOfThree = true then lost s else s))
    rw [hthird]
    exact exec_of_effect hrun.1 (by exact fun hc => Instr.noConfusion hc) (trafficArrives_elsewhere hst)
end Sys2Proof
/-! PROOFS. The end of an identification: the identity written, the rail settled, READY or UNPOWERED. -/
namespace Sys2Proof
open Machine

namespace Machine

/-! ## The end of an identification (R54, R61, R126, R127) -/

theorem claimBase_events (withinRaise : Bool) (amount : Nat) (s : State) :
    (claimBase withinRaise amount s).1.policy.events = s.policy.events := by
  unfold claimBase
  (repeat' split) <;> simp

theorem claimBase_notice (k : NoticeKind) (withinRaise : Bool) (amount : Nat) (s : State) (h : k ≠ .charge ∧ k ≠ .sleep ∧ k ≠ .budget) :
    KeepsNotice k (claimBase withinRaise amount s).1 s := by
  unfold claimBase
  dsimp only
  split
  next g _ =>
    have hposted := keepsNotice_trans (switchOutputs_notice k _) (keepsNotice_trans (postBudget_notice k s.guard .baseClaim { s with guard := g } h.2.2)
      (keepsNotice_of (s := s) rfl))
    split
    · exact keepsNotice_trans (switchOutputs_notice _ _) (keepsNotice_of rfl)
    · exact keepsNotice_trans (penTold_notice _ _ _ h) hposted
  next => exact keepsNotice_of rfl

/-- The identity written as a whole and the chunk's window over (R54). -/
def identified (i : Identity) (s : State) : State := { s with att := { s.att with ident := i }, link := { s.link with describe := none } }

theorem identificationEnds_selfPowered {i : Identity} (h : i.selfPowered = true) (s : State) :
    identificationEnds i s = enterReady (releaseBase (identified i s)) := if_pos h

theorem identificationEnds_granted {i : Identity} {s : State} (h : i.selfPowered = false)
    (hgranted : (claimBase false i.railDemand (identified i s)).2 = true) :
    identificationEnds i s = enterReady (claimBase false i.railDemand (identified i s)).1 :=
  (if_neg (by simp [h])).trans (if_pos hgranted)

theorem identificationEnds_refused {i : Identity} {s : State} (h : i.selfPowered = false)
    (hrefused : (claimBase false i.railDemand (identified i s)).2 = false) :
    identificationEnds i s = enterUnpowered i.railDemand (identified i s) := by
  have hkept := claimBase_refused false i.railDemand (identified i s) hrefused
  refine (if_neg (by simp [h])).trans ((if_neg fun h => Bool.false_ne_true (hrefused.symm.trans h)).trans ?_)
  exact congrArg (enterUnpowered i.railDemand) hkept

/-- What READY leaves at the end of an identification (R54, R75). -/
def ReadyEntered (i : Identity) (s t : State) : Prop :=
  t.link.session = .hasBeenReady ∧ t.link.quiet = some 2500 ∧ t.link.keepAlive = some 5000 ∧ t.link.damagedRun = 0 ∧
  t.link.rate = s.link.rate ∧
  (s.link.session ≠ .hasBeenReady →
    t.policy.events = [.baseAttached] ∧ t.mgmt.notices.link = s.mgmt.notices.link ∧
    (s.mgmt.enables.attach = true →
      ∃ p, t.mgmt.notices.attach = some p ∧ p.notice = .attach (.attached i.idSource i.model))) ∧
  (s.link.session = .hasBeenReady →
    t.policy.events = [] ∧ t.mgmt.notices.attach = s.mgmt.notices.attach ∧
    (s.mgmt.enables.link = true → ∃ p, t.mgmt.notices.link = some p ∧ p.notice = .link (.restored s.link.rate))) ∧
  (s.issuer.waiting = none → (∀ e ∈ s.issuer.table, e.state ≠ .issued) →
    t.issuer = (oldestOffered s).issuer ∧ t.pool = (oldestOffered s).pool) ∧
  ((s.issuer.waiting.isSome = true ∨ ∃ e ∈ s.issuer.table, e.state = .issued) →
    t.issuer = s.issuer ∧ t.pool = s.pool)

/-- A state between the identity's writing and READY: the rail is settled, and nothing beside the guard and the pen is touched. -/
structure RailSettled (i : Identity) (s u : State) : Prop where
  link : u.link = { s.link with describe := none }
  att : u.att = { s.att with ident := i }
  issuer : u.issuer = s.issuer
  pool : u.pool = s.pool
  events : u.policy.events = s.policy.events
  linkNotice : KeepsNotice .link u s
  attachNotice : KeepsNotice .attach u s

theorem releaseBase_settled (i : Identity) (s : State) : RailSettled i s (releaseBase (identified i s)) where
  link := (releaseBase_frame (identified i s)).2.2.2.1.1
  att := (releaseBase_frame (identified i s)).2.2.2.1.2.1
  issuer := (releaseBase_frame (identified i s)).2.2.2.1.2.2
  pool := (releaseBase_frame (identified i s)).2.2.1.2.1
  events := releaseBase_events (identified i s)
  linkNotice := keepsNotice_trans (releaseBase_notice _ _ (by decide)) (keepsNotice_of rfl)
  attachNotice := keepsNotice_trans (releaseBase_notice _ _ (by decide)) (keepsNotice_of rfl)

theorem claimBase_settled (amount : Nat) (i : Identity) (s : State) : RailSettled i s (claimBase false amount (identified i s)).1 where
  link := (claimBase_frame false amount (identified i s)).2.2.2.1.1
  att := (claimBase_frame false amount (identified i s)).2.2.2.1.2.1
  issuer := (claimBase_frame false amount (identified i s)).2.2.2.1.2.2
  pool := (claimBase_frame false amount (identified i s)).2.2.1.2.1
  events := claimBase_events false amount (identified i s)
  linkNotice := keepsNotice_trans (claimBase_notice _ _ _ _ (by decide)) (keepsNotice_of rfl)
  attachNotice := keepsNotice_trans (claimBase_notice _ _ _ _ (by decide)) (keepsNotice_of rfl)

/-- READY from a state with the rail settled. -/
theorem enterReady_entered {i : Identity} {s u : State} (h : RailSettled i s u) (hevents : s.policy.events = []) :
    ReadyEntered i s (enterReady u) := by
  obtain ⟨_, _, hsession, hquiet, hkeepAlive, hrun, hrate, _, _, hfirst, hlater, hoffered, hnot⟩ := enterReady_spec u
  have hu : u.policy.events = [] := h.events.trans hevents
  have hoffer : (oldestOffered u).issuer = (oldestOffered s).issuer ∧ (oldestOffered u).pool = (oldestOffered s).pool :=
    oldestOffered_congr h.issuer h.pool
  rw [h.link] at hrate hfirst hlater
  rw [h.att, hu, h.attachNotice.2] at hfirst
  rw [hu, h.linkNotice.2] at hlater
  rw [h.issuer, hoffer.1, hoffer.2] at hoffered
  rw [h.issuer, h.pool] at hnot
  refine ⟨hsession, hquiet, hkeepAlive, hrun, hrate, fun hnew => ?_, fun hold => ?_, hoffered, hnot⟩
  · obtain ⟨he, hn, hp⟩ := hfirst hnew
    exact ⟨he, (keepsNotice_trans hn h.linkNotice).1, hp⟩
  · obtain ⟨he, hn, hp⟩ := hlater hold
    exact ⟨he, (keepsNotice_trans hn h.attachNotice).1, hp⟩

/-- What the end of an identification leaves (R54, R61, R126, R127). -/
def IdentificationEnded (i : Identity) (s t : State) : Prop :=
  t.att = { s.att with ident := i } ∧ t.link.describe = none ∧
  (i.selfPowered = true → t.link.state = .ready ∧ t.guard.baseGrant = 0 ∧ PenFollows (afterRelease s.guard) s t ∧
    BudgetTold .baseRelease s t) ∧
  (i.selfPowered = false → i.railDemand ≤ s.guard.budget → t.link.state = .ready ∧ t.guard.baseGrant = i.railDemand ∧
    PenFollows (besideClaim s.guard i.railDemand) s t ∧ BudgetTold .baseClaim s t) ∧
  (i.selfPowered = false → s.guard.budget < i.railDemand → s.guard.baseGrant ≤ s.guard.budget →
    t.link.state = .unpowered ∧ t.guard.baseGrant = 0 ∧ LinkEnded .unpowered { s with att := { s.att with ident := i } } t ∧
    t.policy.events = [] ∧ PenFollows (afterRelease s.guard) s t ∧ BudgetTold .baseRelease s t ∧
    (s.mgmt.enables.attach = true → ∃ p, t.mgmt.notices.attach = some p ∧ p.notice = .attach (.unpowered i.railDemand))) ∧
  (t.link.state = .ready → ReadyEntered i s t)

section
variable {i : Identity} {s : State} (hself : i.selfPowered = false)
include hself

theorem identificationEnds_fits (hfits : i.railDemand ≤ s.guard.budget) :
    identificationEnds i s = enterReady (claimBase false i.railDemand (identified i s)).1 ∧
      (identificationEnds i s).guard.baseGrant = i.railDemand := by
  have hgranted : (claimBase false i.railDemand (identified i s)).2 = true := (claimBase_granted ..).mpr (.inr (.inr hfits))
  have hends := identificationEnds_granted hself hgranted
  refine ⟨hends, ?_⟩
  obtain ⟨_, _, _, _, _, _, _, _, hguard, _⟩ := enterReady_spec (claimBase false i.railDemand (identified i s)).1
  rw [hends]
  exact (congrArg (·.baseGrant) hguard).trans (claimBase_guard _ _ _ hgranted).1

theorem identificationEnds_noRoom (hover : s.guard.budget < i.railDemand) (hgrant : s.guard.baseGrant ≤ s.guard.budget) :
    identificationEnds i s = enterUnpowered i.railDemand (identified i s) := by
  refine identificationEnds_refused hself ?_
  simp [claimBase, identified, baseClaim_refused s.guard i.railDemand hover hgrant]

end

/-- The end of an identification settles the rail, and READY is entered from a settled rail or not at all (R54). -/
theorem identificationEnds_ways (i : Identity) (s : State) :
    (∃ u, identificationEnds i s = enterReady u ∧ RailSettled i s u) ∨
      identificationEnds i s = enterUnpowered i.railDemand (identified i s) := by
  cases hself : i.selfPowered
  · cases hgranted : (claimBase false i.railDemand (identified i s)).2
    · exact .inr (identificationEnds_refused hself hgranted)
    · exact .inl ⟨_, identificationEnds_granted hself hgranted, claimBase_settled i.railDemand i s⟩
  · exact .inl ⟨_, identificationEnds_selfPowered hself s, releaseBase_settled i s⟩

theorem enterUnpowered_state (d : Nat) (s : State) : (enterUnpowered d s).link.state = .unpowered := by
  simp [enterUnpowered]

theorem enterUnpowered_baseGrant (d : Nat) (s : State) : (enterUnpowered d s).guard.baseGrant = 0 := by
  simp [enterUnpowered, releaseBase_guard]

theorem enterUnpowered_present (d : Nat) (s : State) : (enterUnpowered d s).att.present = s.att.present := by
  simp [enterUnpowered, flushDown, stopLinkTimers]

/-- The identity stands after the end of an identification, and no chunk is awaited (R54). -/
theorem identificationEnds_identity {i : Identity} {s : State} (hst : s.link.state = .identifying) :
    (identificationEnds i s).att = { s.att with ident := i } ∧ (identificationEnds i s).link.describe = none := by
  rcases identificationEnds_ways i s with ⟨u, hends, hsettled⟩ | hends
  · obtain ⟨_, hatt, _, _, _, _, _, hdescribe, _⟩ := enterReady_spec u
    rw [hends]
    exact ⟨hatt.trans hsettled.att, hdescribe.trans (congrArg (·.describe) hsettled.link)⟩
  · obtain ⟨_, _, _, htimers, _, _, _, _, _, hatt⟩ := enterUnpowered_ended i.railDemand (identified i s)
    have hdiagnosing : (identified i s).link.state ≠ .diagnosing := by
      show s.link.state ≠ _
      rw [hst]
      decide
    rw [if_neg hdiagnosing, enterUnpowered_present] at hatt
    rw [hends]
    refine ⟨hatt, ?_⟩
    simp only [List.replicate, List.cons.injEq] at htimers
    exact htimers.2.2.2.2.1

theorem identificationEnds_ended (i : Identity) {s : State} (hst : s.link.state = .identifying) (hevents : s.policy.events = []) :
    IdentificationEnded i s (identificationEnds i s) := by
  obtain ⟨htoldSelf, htoldClaim, htoldRefused⟩ := identificationEnds_told i s
  obtain ⟨hatt, hdescribe⟩ := identificationEnds_identity (i := i) hst
  refine ⟨hatt, hdescribe, fun hself => ?_, fun hself hfits => ?_, fun hself hover hgrant => ?_, fun hready => ?_⟩
  · obtain ⟨hstate, _, _, _, _, _, _, _, hguard, _⟩ := enterReady_spec (releaseBase (identified i s))
    rw [← identificationEnds_selfPowered hself s] at hstate hguard
    exact ⟨hstate, (congrArg (·.baseGrant) hguard).trans (releaseBase_guard _).1, htoldSelf hself⟩
  · obtain ⟨hends, hgranted⟩ := identificationEnds_fits hself hfits
    have hstate := (enterReady_spec (claimBase false i.railDemand (identified i s)).1).1
    rw [← hends] at hstate
    exact ⟨hstate, hgranted, htoldClaim hself hfits⟩
  · have htold := htoldRefused hself hover hgrant
    rw [identificationEnds_noRoom hself hover hgrant] at htold ⊢
    exact ⟨enterUnpowered_state .., enterUnpowered_baseGrant .., enterUnpowered_ended i.railDemand (identified i s),
      (enterUnpowered_moving ..).2.trans hevents, htold.1, htold.2, enterUnpowered_posts i.railDemand (identified i s)⟩
  · rcases identificationEnds_ways i s with ⟨u, hends, hsettled⟩ | hends
    · rw [hends]
      exact enterReady_entered hsettled hevents
    · rw [hends, enterUnpowered_state] at hready
      exact LinkState.noConfusion hready

end Machine
end Sys2Proof
/-! PROOFS. The chunks of an identification. -/
namespace Sys2Proof
open Machine

namespace Machine

/-! ## Chunks asked for and taken (R4, R48, R49) -/

/-- A good signature is the total length's (R4). -/
theorem signatureLength_good {T : Byte} (rest : List Byte) (hmin : 3 ≤ T.toNat) (hmax : T.toNat ≤ 128) :
    signatureLength (0x5A#8 :: 0x01#8 :: T :: rest) = some T.toNat := by
  rw [signatureLength, if_pos ⟨rfl, rfl, hmin⟩, if_pos hmax]

theorem signatureLength_bad {a b T : Byte} (rest : List Byte) (h : a ≠ 0x5A#8 ∨ b ≠ 0x01#8 ∨ T.toNat < 3 ∨ 128 < T.toNat) :
    signatureLength (a :: b :: T :: rest) = none := by
  rw [signatureLength]
  split
  next hgood =>
    obtain ⟨ha, hb, hmin⟩ := hgood
    rcases h with h | h | h | h
    · exact absurd ha h
    · exact absurd hb h
    · omega
    · exact if_neg (by omega)
  next => rfl

section
variable {k : Byte} {bytes : List Byte} {s : State}

/-- An answer to the chunk asked for, of a good signature and the chunk's length (R48, R49). -/
theorem takeChunk_taken {total : Nat} (hk : k.toNat = s.link.chunk) (hlong : s.link.chunk = 0 → 3 ≤ bytes.length)
    (htotal : signatureLength (if s.link.chunk = 0 then bytes else s.link.chunks) = some total)
    (hlength : bytes.length = min 32 (total - 32 * s.link.chunk)) :
    takeChunk k bytes s =
      let u : State := { s with link := { s.link with chunks := s.link.chunks ++ bytes } }
      if s.link.chunk + 1 < chunksNeeded total then askChunk (s.link.chunk + 1) 1 u
      else identificationEnds (identityOf s.generic (s.link.chunks ++ bytes)) u := by
  have hown : ¬ (k.toNat ≠ s.link.chunk ∨ (s.link.chunk = 0 ∧ bytes.length < 3)) := by
    rintro (h | ⟨h0, hshort⟩)
    · exact h hk
    · have := hlong h0
      omega
  simp only [takeChunk, if_neg hown, totalLength, htotal]
  exact if_neg (not_not_intro hlength)

theorem takeChunk_badSignature (hk : k.toNat = s.link.chunk) (h0 : s.link.chunk = 0) (hlong : 3 ≤ bytes.length)
    (htotal : signatureLength bytes = none) :
    takeChunk k bytes s = identificationEnds (genericIdentity s.generic .badSignature) s := by
  have hown : ¬ (k.toNat ≠ s.link.chunk ∨ (s.link.chunk = 0 ∧ bytes.length < 3)) := by
    rintro (h | ⟨_, hshort⟩)
    · exact h hk
    · omega
  simp only [takeChunk, if_neg hown, totalLength, if_pos h0, htotal]

theorem takeChunk_other (hk : k.toNat ≠ s.link.chunk) : takeChunk k bytes s = linkDrops s := if_pos (.inl hk)

/-- The command for an undamaged descriptor answer in IDENTIFYING (R48). -/
theorem exec_describeAnswer {t : State} (hheld : s.held = false) (hst : s.link.state = .identifying) (h : takeChunk k bytes s = t) :
    let p : List Byte := 0xFF#8 :: 0x41#8 :: k :: bytes
    exec (.response p (crc8 (0x20#8 :: BitVec.ofNat 8 p.length :: p))) s = .next (finish t) := by
  intro p
  refine exec_of_effect hheld (by exact fun hc => Instr.noConfusion hc) (Eq.trans ?_ h)
  simp only [effect, responseArrives, hst, isDamaged_crc8, Bool.false_eq_true, if_false]
  rfl

/-- More bytes are known to be needed, or all are there (R49). -/
theorem chunksNeeded_more_iff (n total : Nat) : n + 1 < chunksNeeded total ↔ 32 * n + 32 < total := by
  rw [chunksNeeded]
  omega

end

/-- The chunks taken so far are not among what the end of an identification looks at. -/
theorem identificationEnded_chunks {i : Identity} {s t : State} (c : List Byte)
    (h : IdentificationEnded i { s with link := { s.link with chunks := c } } t) : IdentificationEnded i s t := by
  obtain ⟨hatt, hdescribe, hself, hclaim, hrefused, hready⟩ := h
  have hoffer := oldestOffered_congr (s := s) (t := { s with link := { s.link with chunks := c } }) rfl rfl
  refine ⟨hatt, hdescribe, hself, hclaim, hrefused, fun hst => ?_⟩
  obtain ⟨hsession, hquiet, hkeepAlive, hrun, hrate, hfirst, hlater, hoffered, hnot⟩ := hready hst
  rw [hoffer.1, hoffer.2] at hoffered
  exact ⟨hsession, hquiet, hkeepAlive, hrun, hrate, hfirst, hlater, hoffered, hnot⟩

end Machine
end Sys2Proof
/-! PROOFS. The descriptor read, and the identification's statement. -/
namespace Sys2Proof
open Machine

namespace Machine

/-! ## What a descriptor's section gives (R50 to R52) -/

theorem parseSources_codes {b : List Byte} (h : 1 ≤ b.length ∧ b.length ≤ 8 ∧ ∀ k ∈ b, 0x10 ≤ k.toNat ∧ k.toNat ≤ 0x13) :
    parseSources b = some (keepOnce b) := by
  obtain ⟨hmin, hmax, hcodes⟩ := h
  exact if_pos ⟨hmin, hmax, by simpa [List.all_eq_true] using hcodes⟩

theorem parseWake_codes {declared b : List Byte} (h : 1 ≤ b.length ∧ b.length ≤ 8 ∧ ∀ k ∈ b, 0x10 ≤ k.toNat ∧ k.toNat ≤ 0x13)
    (hdeclared : ∀ k ∈ b, k ∈ declared) : parseWake declared b = some (keepOnce b) := by
  rw [parseWake, parseSources_codes h, Option.filter_some, if_pos]
  rw [List.all_eq_true]
  exact fun k hk => List.contains_iff_mem.mpr (hdeclared k (((keepOnce_spec b).2 k).mp hk))

theorem parseRail_kept {p f : Byte} (hmin : 5 ≤ p.toNat) (hmax : p.toNat ≤ 40) (hf : f.toNat ≤ 1) :
    parseRail [p, f] = some (50 * p.toNat, f == 1#8) := if_pos ⟨hmin, hmax, hf⟩

theorem parseMount_kept {o x : Byte} (ho : o.toNat ≤ 5) (hx : x.toNat ≤ 7) : parseMount [o, x] = some ⟨o.toNat, x.toNat⟩ := if_pos ⟨ho, hx⟩

/-- A first section that keeps its type's rules is noted TAKEN, or BAD(REPEAT) beside another one (R50). -/
theorem valueAndNote_kept {α : Type} {parse : List Byte → Option α} {found : List (Option (List Byte))} {b : List Byte} {v : α}
    (hfirst : found.head?.join = some b) (hv : parse b = some v) :
    (valueAndNote parse found).1 = some v ∧ ((valueAndNote parse found).2 = .taken ∨ (valueAndNote parse found).2 = .badRepeat) := by
  match found, hfirst with
  | [some c], h =>
    obtain rfl : c = b := Option.some.inj h
    simp [valueAndNote, hv]
  | some c :: _ :: _, h =>
    obtain rfl : c = b := Option.some.inj h
    simp [valueAndNote, hv]

/-- The mount by its note (R50, R52). -/
theorem mountInUse_cases (g : GenericProfile) (n : Note) :
    (∀ taken, n = .absent ∨ n = .badBody → mountInUse g taken n = none) ∧ (n = .badRepeat → mountInUse g none n = g.mount) ∧
      (∀ m, n = .taken ∨ n = .badRepeat → mountInUse g (some m) n = some m) := by
  cases n <;> simp [mountInUse]

/-! ## The sections of a type (R4) -/

theorem foundOf_append (l m : List Section) (t : Byte) : foundOf (l ++ m) t = foundOf l t ++ foundOf m t := by
  rw [foundOf, List.filter_append, List.map_append]
  rfl

/-- What the walk finds of whole sections, by type: those of a length other than 0. -/
theorem foundOf_wholes (l : List (Byte × List Byte)) (t : Byte) :
    foundOf ((l.filter (fun x => x.2 ≠ [])).map (fun x => Section.whole x.1 x.2)) t =
      (l.filter (fun x => x.1 = t ∧ x.2 ≠ [])).map (fun x => some x.2) := by
  rw [foundOf, List.filter_map, List.map_map, List.filter_filter]
  congr 1
  refine List.filter_congr fun x _ => ?_
  rw [Bool.eq_iff_iff]
  simp only [Section.type, Bool.and_eq_true, decide_eq_true_eq]
  exact and_congr_left fun _ => decide_eq_true_iff

theorem walk_ends (fuel : Nat) {tail : List Byte} (h : tail.head? = none ∨ tail.head? = some 0#8) : walk fuel tail = [] := by
  match fuel, tail with
  | 0, _ => rfl
  | _ + 1, [] => rfl
  | _ + 1, t :: r =>
    obtain rfl : t = 0#8 := by simpa using h
    exact if_pos rfl

theorem walk_malformed {fuel : Nat} {t : Byte} (n : Byte) (r : List Byte) {tail : List Byte} (hfuel : tail.length ≤ fuel) (ht : t ≠ 0#8)
    (h : tail = [t] ∨ tail = t :: n :: r ∧ r.length < n.toNat) : walk fuel tail = [.malformed t] := by
  rcases h with rfl | ⟨rfl, hshort⟩
  · obtain ⟨f, rfl⟩ : ∃ f, fuel = f + 1 := ⟨fuel - 1, by simp at hfuel; omega⟩
    exact if_neg ht
  · obtain ⟨f, rfl⟩ : ∃ f, fuel = f + 1 := ⟨fuel - 1, by simp at hfuel; omega⟩
    exact (if_neg ht).trans (if_pos hshort)

theorem foundOf_malformed (t u : Byte) : foundOf [.malformed t] u = if t = u then [none] else [] := by
  by_cases h : t = u <;> simp [foundOf, Section.type, Section.body?, h]

/-- The whole sections before a tail (R4). -/
theorem sectionsOf_wholes {l : List (Byte × List Byte)} (hl : ∀ x ∈ l, x.1 ≠ 0#8 ∧ x.2.length ≤ 255) (tail : List Byte) :
    ∃ fuel, tail.length ≤ fuel ∧
      sectionsOf (l.flatMap (fun x => x.1 :: BitVec.ofNat 8 x.2.length :: x.2) ++ tail) =
        (l.filter (fun x => x.2 ≠ [])).map (fun x => Section.whole x.1 x.2) ++ walk fuel tail := by
  have hlength : l.length ≤ (l.flatMap (fun x => x.1 :: BitVec.ofNat 8 x.2.length :: x.2)).length := by
    induction l with
    | nil => simp
    | cons x l ih =>
      have := ih fun y hy => hl y (List.mem_cons_of_mem _ hy)
      simp only [List.flatMap_cons, List.length_append, List.length_cons]
      omega
  refine ⟨_, ?_, walk_many l hl tail _ ?_⟩
  · rw [List.length_append]
    omega
  · rw [List.length_append]
    omega

/-! ## The two halves of the statement -/

/-- What the descriptor's sections give, type by type (R4, R50 to R52). -/
theorem identityOf_reads (g : GenericProfile) (d : List Byte) :
    let i := identityOf g d
    let found (t : Byte) : List (Option (List Byte)) := foundOf (sectionsOf (d.drop 3)) t
    let first (t : Byte) : Option (List Byte) := (found t).head?.join
    let codes (b : List Byte) : Prop := 1 ≤ b.length ∧ b.length ≤ 8 ∧ ∀ k ∈ b, 0x10 ≤ k.toNat ∧ k.toNat ≤ 0x13
    let identity (b : List Byte) : Prop := b.length = 7
    let rail (b : List Byte) : Prop := ∃ p f, b = [p, f] ∧ 5 ≤ p.toNat ∧ p.toNat ≤ 40 ∧ f.toNat ≤ 1
    let wake (b : List Byte) : Prop := codes b ∧ ∀ k ∈ b, k ∈ i.declared
    let mount (b : List Byte) : Prop := ∃ o x, b = [o, x] ∧ o.toNat ≤ 5 ∧ x.toNat ≤ 7
    let bad (t : Byte) (keeps : List Byte → Prop) : Prop := ∀ b, first t = some b → ¬ keeps b
    let noted (t : Byte) (keeps : List Byte → Prop) (n : Note) : Prop :=
      (found t = [] → n = .absent) ∧ ((found t).length = 1 → bad t keeps → n = .badBody) ∧
      ((found t).length = 1 → ¬ bad t keeps → n = .taken) ∧ (2 ≤ (found t).length → n = .badRepeat)
    (∃ n, i.notes = some n ∧ noted 1#8 identity n.identity ∧ noted 2#8 rail n.rail ∧ noted 3#8 codes n.sources ∧
      noted 4#8 wake n.wake ∧ noted 5#8 mount n.mount ∧
      (n.mount = .absent ∨ n.mount = .badBody → i.mount = none) ∧ (n.mount = .badRepeat → bad 5#8 mount → i.mount = g.mount)) ∧
    (∀ m1 m0 r s3 s2 s1 s0, first 1#8 = some [m1, m0, r, s3, s2, s1, s0] →
      i.model = some (m1 ++ m0) ∧ i.revision = some r ∧ i.serial = some (s3 ++ s2 ++ (s1 ++ s0))) ∧
    (bad 1#8 identity → i.model = some g.model ∧ i.revision = none ∧ i.serial = none) ∧
    (∀ p f, first 2#8 = some [p, f] → 5 ≤ p.toNat → p.toNat ≤ 40 → f.toNat ≤ 1 →
      i.railDemand = 50 * p.toNat ∧ i.selfPowered = decide (f = 1#8)) ∧
    (bad 2#8 rail → i.railDemand = g.demand ∧ i.selfPowered = g.selfPowered) ∧
    (∀ b, first 3#8 = some b → codes b → i.declared.Nodup ∧ ∀ k, k ∈ i.declared ↔ k ∈ b) ∧
    (bad 3#8 codes → i.declared = g.declared) ∧
    (∀ b, first 4#8 = some b → wake b → i.wakeKinds.Nodup ∧ ∀ k, k ∈ i.wakeKinds ↔ k ∈ b) ∧
    (bad 4#8 wake → i.wakeKinds = g.wakeKinds) ∧
    (∀ o x, first 5#8 = some [o, x] → o.toNat ≤ 5 → x.toNat ≤ 7 → i.mount = some ⟨o.toNat, x.toNat⟩) := by
  intro i found first codes identity rail wake mount bad noted
  obtain ⟨hidentity, hrail, hsources, hwake, hmount⟩ := parse_rules
  obtain ⟨hnote1, hnone1, _⟩ := valueAndNote_spec parseIdentity (found 1#8) identity hidentity
  obtain ⟨hnote2, hnone2, _⟩ := valueAndNote_spec parseRail (found 2#8) rail hrail
  obtain ⟨hnote3, hnone3, _⟩ := valueAndNote_spec parseSources (found 3#8) codes hsources
  obtain ⟨hnote4, hnone4, _⟩ := valueAndNote_spec (parseWake i.declared) (found 4#8) wake (hwake i.declared)
  obtain ⟨hnote5, hnone5, _⟩ := valueAndNote_spec parseMount (found 5#8) mount hmount
  have hfields : i.model = some (((valueAndNote parseIdentity (found 1#8)).1.map (·.1)).getD g.model) ∧
      i.revision = (valueAndNote parseIdentity (found 1#8)).1.map (·.2.1) ∧
      i.serial = (valueAndNote parseIdentity (found 1#8)).1.map (·.2.2) := ⟨rfl, rfl, rfl⟩
  have hinUse : i.mount = mountInUse g (valueAndNote parseMount (found 5#8)).1 (valueAndNote parseMount (found 5#8)).2 := rfl
  obtain ⟨hmountNone, hmountRepeat, hmountKept⟩ := mountInUse_cases g (valueAndNote parseMount (found 5#8)).2
  refine ⟨⟨⟨_, _, _, _, _⟩, rfl, hnote1, hnote2, hnote3, hnote4, hnote5, hmountNone _, fun hrepeat hbad => ?_⟩,
    fun m1 m0 r s3 s2 s1 s0 hfirst => ?identity, fun hbad => ?badIdentity, fun p f hfirst hmin hmax hf => ?rail, fun hbad => ?badRail,
    fun b hfirst hcodes => ?sources, fun hbad => congrArg (Option.getD · g.declared) (hnone3 hbad),
    fun b hfirst hkept => ?wake, fun hbad => congrArg (Option.getD · g.wakeKinds) (hnone4 hbad), fun o x hfirst ho hx => ?mount⟩
  · rw [hinUse, hnone5 hbad]
    exact hmountRepeat hrepeat
  case identity =>
    obtain ⟨hv, _⟩ := valueAndNote_kept (parse := parseIdentity) hfirst rfl
    rw [hfields.1, hfields.2.1, hfields.2.2, hv]
    exact ⟨rfl, rfl, rfl⟩
  case badIdentity =>
    have hv := hnone1 hbad
    rw [hfields.1, hfields.2.1, hfields.2.2, hv]
    exact ⟨rfl, rfl, rfl⟩
  case rail =>
    obtain ⟨hv, _⟩ := valueAndNote_kept hfirst (parseRail_kept hmin hmax hf)
    exact ⟨congrArg (fun v => (v.map (·.1)).getD g.demand) hv, congrArg (fun v => (v.map (·.2)).getD g.selfPowered) hv⟩
  case badRail =>
    have hv := hnone2 hbad
    exact ⟨congrArg (fun v => (v.map (·.1)).getD g.demand) hv, congrArg (fun v => (v.map (·.2)).getD g.selfPowered) hv⟩
  case sources =>
    obtain ⟨hv, _⟩ := valueAndNote_kept hfirst (parseSources_codes hcodes)
    have hdeclared : i.declared = keepOnce b := congrArg (Option.getD · g.declared) hv
    rw [hdeclared]
    exact keepOnce_spec b
  case wake =>
    obtain ⟨hv, _⟩ := valueAndNote_kept hfirst (parseWake_codes hkept.1 hkept.2)
    have hkinds : i.wakeKinds = keepOnce b := congrArg (Option.getD · g.wakeKinds) hv
    rw [hkinds]
    exact keepOnce_spec b
  case mount =>
    obtain ⟨hv, hnoted⟩ := valueAndNote_kept hfirst (parseMount_kept ho hx)
    rw [hinUse, hv]
    exact hmountKept _ hnoted

/-- What the walk finds of whole sections and of the malformed one that ends it (R4). -/
theorem foundOf_walked {bytes tail : List Byte} {l : List (Byte × List Byte)} (hl : ∀ x ∈ l, x.1 ≠ 0#8 ∧ x.2.length ≤ 255)
    (hbytes : bytes = l.flatMap (fun x => x.1 :: BitVec.ofNat 8 x.2.length :: x.2) ++ tail) :
    let found (t : Byte) : List (Option (List Byte)) := foundOf (sectionsOf bytes) t
    let whole (t : Byte) : List (Option (List Byte)) := (l.filter (fun x => x.1 = t ∧ x.2 ≠ [])).map (fun x => some x.2)
    (tail.head? = none ∨ tail.head? = some 0#8 → ∀ t, found t = whole t) ∧
      (∀ t n r, t ≠ 0#8 → tail = [t] ∨ tail = t :: n :: r ∧ r.length < n.toNat →
        found t = whole t ++ [none] ∧ ∀ u, u ≠ t → found u = whole u) := by
  intro found whole
  obtain ⟨fuel, hfuel, hsections⟩ := sectionsOf_wholes hl tail
  have hfound (t : Byte) : found t = whole t ++ foundOf (walk fuel tail) t := by
    show foundOf (sectionsOf bytes) t = _
    rw [hbytes, hsections, foundOf_append, foundOf_wholes]
  refine ⟨fun hend t => ?_, fun t n r ht hmalformed => ⟨?_, fun u hu => ?_⟩⟩
  · rw [hfound, walk_ends fuel hend]
    exact List.append_nil _
  · rw [hfound, walk_malformed n r hfuel ht hmalformed, foundOf_malformed, if_pos rfl]
  · rw [hfound, walk_malformed n r hfuel ht hmalformed, foundOf_malformed, if_neg hu.symm]
    exact List.append_nil _

end Machine
end Sys2Proof
/-! PROOFS. Identification, chunk by chunk. -/
namespace Sys2Proof
open Machine

/-- Settles O36. -/
theorem identificationReadsTheDescriptor : Obligations.IdentificationReadsTheDescriptor := by
  refine ⟨fun s hrun hexp hst => ?identification, fun g d => ?descriptor, fun g r => rfl⟩
  case descriptor =>
    intro i found first codes identity rail wake mount bad noted
    obtain ⟨hnotes, hrest⟩ := identityOf_reads g d
    obtain ⟨hidentity, hbadIdentity, hrail, hbadRail, hsources, hbadSources, hwake, hbadWake, hmount⟩ := hrest
    exact ⟨hnotes, rfl, rfl, rfl, hidentity, hbadIdentity, hrail, hbadRail, hsources, hbadSources, hwake, hbadWake, hmount,
      fun l tail hl hbytes => foundOf_walked hl hbytes⟩
  case identification =>
    intro ask frame check ends
    have hends {c : Instr} {i : Identity} {t : State} (hexec : exec c s = .next (finish t)) (h : IdentificationEnded i s t) : ends c i :=
      ⟨t, hexec, h⟩
    have hanswer {k : Byte} {bytes : List Byte} {t : State} (h : takeChunk k bytes s = t) :
        exec (.response (frame k bytes) (check (frame k bytes))) s = .next (finish t) := exec_describeAnswer hrun.1 hst h
    have htaken {k : Byte} {bytes : List Byte} {total : Nat} (hk : k.toNat = s.link.chunk) (hlong : s.link.chunk = 0 → 3 ≤ bytes.length)
        (htotal : signatureLength (if s.link.chunk = 0 then bytes else s.link.chunks) = some total)
        (hlength : bytes.length = min 32 (total - 32 * s.link.chunk)) :
        (32 * s.link.chunk + 32 < total →
          exec (.response (frame k bytes) (check (frame k bytes))) s =
            .next (finish (ask (s.link.chunk + 1) 1 { s with link := { s.link with chunks := s.link.chunks ++ bytes } }))) ∧
        (total ≤ 32 * s.link.chunk + 32 →
          ends (.response (frame k bytes) (check (frame k bytes))) (identityOf s.generic (s.link.chunks ++ bytes))) := by
      have htake := takeChunk_taken hk hlong htotal hlength
      refine ⟨fun hmore => hanswer (htake.trans (if_pos ((chunksNeeded_more_iff _ _).mpr hmore))), fun hall => ?_⟩
      have hdone := htake.trans (if_neg (mt (chunksNeeded_more_iff _ _).mp (by omega)))
      exact hends (hanswer hdone) (identificationEnded_chunks (s.link.chunks ++ bytes) (identificationEnds_ended _ hst hrun.2))
    refine ⟨fun hwindow => ⟨fun htry => ?again, fun htry => ?failed⟩, fun T rest h0 hnone hmin hmax hlength => ?first,
      fun a b T rest h0 hbad => ?badSignature, fun k T rest bytes hk hlater hchunks hmin hmax hlength => ?later,
      fun k bytes hk => hanswer (takeChunk_other hk)⟩
    case again =>
      exact exec_of_effect hrun.1 (by exact fun hc => Instr.noConfusion hc) ((if_pos hwindow).trans (if_pos htry))
    case failed =>
      refine hends (exec_of_effect hrun.1 (by exact fun hc => Instr.noConfusion hc) ((if_pos hwindow).trans (if_neg (by omega)))) ?_
      exact identificationEnds_ended _ hst hrun.2
    case first =>
      intro bytes
      obtain ⟨hmore, hall⟩ := htaken (k := 0#8) (bytes := bytes) (total := T.toNat) (by rw [h0]; rfl) (fun _ => by simp [bytes])
        (by rw [if_pos h0]; exact signatureLength_good rest hmin hmax) (by rw [h0]; simp only [bytes, List.length_cons]; omega)
      rw [h0, hnone] at hmore
      rw [h0, hnone] at hall
      exact ⟨fun h => hmore (by omega), fun h => hall (by omega)⟩
    case badSignature =>
      intro bytes
      refine hends (hanswer (takeChunk_badSignature (by rw [h0]; rfl) h0 (by simp [bytes]) (signatureLength_bad rest hbad))) ?_
      exact identificationEnds_ended _ hst hrun.2
    case later =>
      intro all
      obtain ⟨hmore, hall⟩ := htaken (bytes := bytes) hk (fun h => by omega)
        (by rw [if_neg (by omega), hchunks]; exact signatureLength_good rest hmin hmax) (by rw [← hk]; exact hlength)
      rw [← hk] at hmore hall
      exact ⟨hmore, hall⟩
end Sys2Proof

/-! PROOFS. The hinge encoder and its settling. -/
namespace Sys2Proof
open Machine

namespace Machine

/-! ## Movements and encoder faults (R89 to R91) -/

theorem movement_eq (u : State) :
    movement u =
      { u with
        posture := { u.posture with moving := true, settle := some (10 * u.posture.settleTime) }
        sleep := { u.sleep with holds := { u.sleep.holds with hingeMoving := true } } } := by
  simp only [movement, addHold, HoldSet.put, startMs, ms]

/-- With a base, the lid open and no count the posture is UNKNOWN (R103). -/
theorem evaluated_uncounted {u : State} (hatt : u.att.present = true) (hlid : u.pins.lidClosed = false) (hcount : u.posture.count = none) :
    evaluated u = (.unknown, none) := by
  cases hopened : u.posture.lidOpened <;> simp [evaluated, State.lidIsClosed, hatt, hlid, hcount, hopened]

/-- The evaluation to UNKNOWN, told where the posture is new (R103, R104). -/
theorem evaluate_uncounted {u : State} (hatt : u.att.present = true) (hlid : u.pins.lidClosed = false) (hcount : u.posture.count = none) :
    evaluate u =
      if u.posture.posture = .unknown then { u with posture := { u.posture with window := none } }
      else postEvent (.postureChanged u.posture.posture .unknown) (post (.posture .unknown u.posture.posture none u.posture.moving)
        { u with posture := { u.posture with posture := .unknown, previous := some u.posture.posture, window := none } }) := by
  simp only [evaluate, evaluated_uncounted hatt hlid hcount]
  by_cases h : u.posture.posture = .unknown
  · rw [if_pos h, if_pos h.symm]
  · rw [if_neg h, if_neg (Ne.symm h), hcount]

/-- An encoder fault where the count is lost already. -/
theorem encoderFault_uncounted (c : EncoderCause) (code : BitVec 3) {u : State} (hcount : u.posture.count = none) :
    encoderFault c code u = movement (faultNoted c code u) := by
  simp [encoderFault, hcount]

/-- An encoder fault that loses the count, the lid open (R90, R103). -/
theorem encoderFault_counted (c : EncoderCause) (code : BitVec 3) {u : State} (hatt : u.att.present = true) (hlid : u.pins.lidClosed = false)
    (hcount : u.posture.count.isSome = true) :
    let v := movement (faultNoted c code u)
    encoderFault c code u =
      if u.posture.posture = .unknown then { v with posture := { v.posture with window := none } }
      else postEvent (.postureChanged u.posture.posture .unknown) (post (.posture .unknown u.posture.posture none true)
        { v with posture := { v.posture with posture := .unknown, previous := some u.posture.posture, window := none } }) := by
  intro v
  have hv : encoderFault c code u = evaluate v := if_pos hcount
  have hposture : v.posture = { u.posture with
      count := none, faults := satInc u.posture.faults, moving := true, settle := some (10 * u.posture.settleTime) } := by
    show (movement (faultNoted c code u)).posture = _
    rw [movement_eq]
    simp [faultNoted]
  have hatt' : v.att = u.att := by
    show (movement (faultNoted c code u)).att = _
    rw [movement_eq]
    simp [faultNoted]
  have hpins : v.pins = u.pins := by
    show (movement (faultNoted c code u)).pins = _
    rw [movement_eq]
    simp [faultNoted]
  have heval := evaluate_uncounted (u := v) (by rw [hatt']; exact hatt) (by rw [hpins]; exact hlid) (by rw [hposture])
  have hold : v.posture.posture = u.posture.posture := by rw [hposture]
  have hmoving : v.posture.moving = true := by rw [hposture]
  rw [hold, hmoving] at heval
  exact hv.trans heval

/-! ## A valid code (R89) -/

section
variable {code : BitVec 3} {pos : Nat} {s : State}

theorem codeChanges_absent (hatt : s.att.present = false) :
    codeChanges code s = { s with pins := { s.pins with code := code } } := by
  rw [codeChanges]
  split
  next h => rw [h]
  next => exact if_pos (by simp [hatt])

theorem codeChanges_invalid (hatt : s.att.present = true) (hnew : code ≠ s.pins.code) (hcode : codePosition code = none) :
    codeChanges code s =
      encoderFault .invalidCode code { s with pins := { s.pins with code := code }, posture := { s.posture with resync := true } } := by
  rw [codeChanges, if_neg hnew]
  simp only [hatt, Bool.not_true, Bool.false_eq_true, if_false, hcode]

/-- A new valid code, from the position last read (R89, R90). -/
theorem codeChanges_valid (hatt : s.att.present = true) (hnew : code ≠ s.pins.code) (hcode : codePosition code = some pos) :
    codeChanges code s = codeRead code pos { s with pins := { s.pins with code := code } } := by
  rw [codeChanges, if_neg hnew]
  simp only [hatt, Bool.not_true, Bool.false_eq_true, if_false, hcode]

theorem codeRead_first (h : s.posture.lastCode = none ∨ s.posture.resync = true) :
    codeRead code pos s = movement { s with posture := { s.posture with lastCode := some pos, resync := false } } := by
  rw [codeRead]
  cases hlast : s.posture.lastCode with
  | none => rfl
  | some last =>
    have hresync : s.posture.resync = true := h.resolve_left (by rw [hlast]; simp)
    exact if_pos hresync

theorem codeRead_next {last : Nat} (hlast : s.posture.lastCode = some last) (hresync : s.posture.resync = false) :
    let u : State := { s with posture := { s.posture with lastCode := some pos, resync := false } }
    codeRead code pos s =
      if (pos + 6 - last) % 6 = 0 then u else if (pos + 6 - last) % 6 = 3 then encoderFault .oppositeJump code u
      else moveBy code (stepsOf ((pos + 6 - last) % 6)) u := by
  intro u
  simp only [codeRead, hlast, hresync, Bool.false_eq_true, if_false]
  rfl

theorem moveBy_uncounted (steps : Int) (h : s.posture.count = none) : moveBy code steps s = movement s := by
  rw [moveBy, h]

theorem moveBy_counted {steps : Int} {n m : Nat} (h : s.posture.count = some n) (hm : countAfter s.pins n steps = some m) :
    moveBy code steps s = movement { s with posture := { s.posture with count := some m } } := by
  rw [moveBy, h]
  simp only [hm]

theorem moveBy_range {steps : Int} {n : Nat} (h : s.posture.count = some n) (hout : countAfter s.pins n steps = none) :
    moveBy code steps s = encoderFault .range code s := by
  rw [moveBy, h]
  simp only [hout]

/-- The count after the steps, held at the ends (R89). -/
theorem countAfter_cases (p : Pins) (n : Nat) (steps : Int) :
    (∀ m : Nat, (n : Int) + steps = m → m ≤ 180 → countAfter p n steps = some m) ∧
      ((n : Int) + steps < 0 → p.lidClosed = true → countAfter p n steps = some 0) ∧
      (180 < (n : Int) + steps → p.foldFlat = true → countAfter p n steps = some 180) ∧
      (((n : Int) + steps < 0 ∧ p.lidClosed = false ∨ 180 < (n : Int) + steps ∧ p.foldFlat = false) → countAfter p n steps = none) := by
  refine ⟨fun m hm hmax => ?_, fun hneg hlid => ?_, fun hover hflat => ?_, fun hout => ?_⟩
  · rw [countAfter, if_neg (by omega), if_neg (by omega), hm]
    rfl
  · rw [countAfter, if_pos hneg, if_pos hlid]
  · rw [countAfter, if_neg (by omega), if_pos hover, if_pos hflat]
  · rcases hout with ⟨hneg, hlid⟩ | ⟨hover, hflat⟩
    · rw [countAfter, if_pos hneg, if_neg (by simp [hlid])]
    · rw [countAfter, if_neg (by omega), if_pos hover, if_neg (by simp [hflat])]

end

end Machine
end Sys2Proof
/-! PROOFS. The hinge settles. -/
namespace Sys2Proof
open Machine

namespace Machine

/-! ## The settle timer (R91, R99, R100, R103) -/

/-- The movement over and HINGE-MOVING removed (R91). -/
def movementOver (s : State) : State := removeHold .hingeMoving { s with posture := { s.posture with moving := false, settle := none } }

theorem movementOver_facts (s : State) :
    (movementOver s).posture = { s.posture with moving := false, settle := none } ∧ (movementOver s).policy = s.policy ∧
      (movementOver s).pins = s.pins ∧ (movementOver s).att = s.att ∧ (movementOver s).orient = s.orient ∧
      (movementOver s).sleep.holds.hingeMoving = false ∧ KeepsNotice .posture (movementOver s) s := by
  obtain ⟨hposture, hpolicy, hpins, hatt, horient, hmoving⟩ :=
    hingeMoving_removed { s with posture := { s.posture with moving := false, settle := none } }
  exact ⟨hposture, hpolicy, hpins, hatt, horient, hmoving,
    removeHold_notice .posture .hingeMoving { s with posture := { s.posture with moving := false, settle := none } } (by decide)⟩

/-- The state that the settle timer's expiry evaluates the posture in. -/
def settledState (u : State) : State := { u with posture := { u.posture with lidOpened := false } }

theorem settleExpires_eq (s : State) : settleExpires s = evaluate (settledState (movementOver s)) := rfl

theorem settledState_facts (s : State) :
    let v := settledState (movementOver s)
    v.posture = { s.posture with moving := false, settle := none, lidOpened := false } ∧
      v.policy = s.policy ∧ v.pins = s.pins ∧ v.att = s.att ∧ v.orient = s.orient ∧ v.sleep.holds.hingeMoving = false ∧
      KeepsPosture v s := by
  obtain ⟨hposture, hpolicy, hpins, hatt, horient, hmoving, hnotice⟩ := movementOver_facts s
  generalize movementOver s = u at *
  have hrecord : (settledState u).posture = { s.posture with moving := false, settle := none, lidOpened := false } := by
    rw [settledState, hposture]
  exact ⟨hrecord, hpolicy, hpins, hatt, horient, hmoving, congrArg (·.posture) hrecord, congrArg (·.window) hrecord,
    congrArg (·.previous) hrecord, hnotice⟩

/-- What an evaluation writes of the posture record and posts. -/
theorem evaluate_writes (u : State) : ∃ new w,
    (evaluate u).posture =
      { u.posture with posture := new, window := w, previous := if new = u.posture.posture then u.posture.previous else some u.posture.posture } ∧
    (evaluate u).policy.events = u.policy.events ++ (if u.posture.posture = new then [] else [.postureChanged u.posture.posture new]) ∧
    (evaluate u).pins = u.pins ∧ (evaluate u).sleep = u.sleep ∧ (evaluate u).att = u.att :=
  ⟨_, _, evaluate_gives u (evaluated u).1 (evaluated u).2 rfl⟩

theorem settleExpires_facts (s : State) :
    let t := settleExpires s
    t.posture.moving = false ∧ t.posture.settle = none ∧ t.posture.lidOpened = false ∧ t.posture.count = s.posture.count ∧
      t.posture.windows = s.posture.windows ∧ t.sleep.holds.hingeMoving = false ∧ t.att = s.att ∧ t.pins = s.pins ∧ t.orient = s.orient ∧
      t.policy.events = s.policy.events ++
        (if s.posture.posture = t.posture.posture then [] else [.postureChanged s.posture.posture t.posture.posture]) ∧
      PostureFollows s t := by
  intro t
  have ht : t = evaluate (settledState (movementOver s)) := settleExpires_eq s
  obtain ⟨hposture, hpolicy, hpins, hatt, horient, hmoving, hkeeps⟩ := settledState_facts s
  generalize settledState (movementOver s) = v at *
  obtain ⟨new, w, hnew, hevents, hpins', hsleep', hatt'⟩ := evaluate_writes v
  obtain ⟨_, _, _, _, _, horient', _⟩ := evaluate_frame v
  have hfollows : PostureFollows s (evaluate v) := evaluate_after hkeeps
  rw [← ht] at hnew hevents hpins' hsleep' hatt' horient' hfollows
  rw [hposture] at hnew hevents
  rw [hpolicy] at hevents
  have htold : t.posture.posture = new := congrArg (·.posture) hnew
  rw [← htold] at hevents
  exact ⟨congrArg (·.moving) hnew, congrArg (·.settle) hnew, congrArg (·.lidOpened) hnew, congrArg (·.count) hnew,
    congrArg (·.windows) hnew, (congrArg (·.holds.hingeMoving) hsleep').trans hmoving, hatt'.trans hatt, hpins'.trans hpins,
    horient'.trans horient, hevents, hfollows⟩

end Machine
end Sys2Proof
/-! PROOFS. The encoder and the settled posture. -/
namespace Sys2Proof
open Machine

namespace Machine

section
variable {s u : State} {code : BitVec 3}

/-- What the encoder's fault leaves: the count lost, and with a count to lose and the lid open the posture UNKNOWN (R90, R103). -/
def FaultTold (s : State) (cause : EncoderCause) (code : BitVec 3) (u v : State) : Prop :=
  let moved (u : State) : State :=
    { u with
      posture := { u.posture with moving := true, settle := some (10 * u.posture.settleTime) }
      sleep := { u.sleep with holds := { u.sleep.holds with hingeMoving := true } } }
  let lost : State := moved (post (.encoderFault cause code s.posture.count)
    { u with posture := { u.posture with count := none, faults := satInc s.posture.faults } })
  let unknown : State :=
    if s.posture.posture = .unknown then { lost with posture := { lost.posture with window := none } }
    else postEvent (.postureChanged s.posture.posture .unknown) (post (.posture .unknown s.posture.posture none true)
      { lost with posture := { lost.posture with posture := .unknown, previous := some s.posture.posture, window := none } })
  (s.posture.count = none → v = lost) ∧ (s.posture.count.isSome = true → s.pins.lidClosed = false → v = unknown)

theorem encoderFault_told (cause : EncoderCause) (hatt : u.att.present = true) (hlid : u.pins.lidClosed = s.pins.lidClosed)
    (hcount : u.posture.count = s.posture.count) (hfaults : u.posture.faults = s.posture.faults)
    (hposture : u.posture.posture = s.posture.posture) : FaultTold s cause code u (encoderFault cause code u) := by
  unfold FaultTold
  intro moved lost unknown
  have hlost : movement (faultNoted cause code u) = lost := by
    rw [movement_eq, faultNoted, hcount, hfaults]
  refine ⟨fun hnone => (encoderFault_uncounted cause code (hcount.trans hnone)).trans hlost, fun hsome hopen => ?_⟩
  have hcounted := encoderFault_counted cause code hatt (hlid.trans hopen) (by rw [hcount]; exact hsome)
  rw [hlost, hposture] at hcounted
  exact hcounted

end

/-- The steps of a change of position (R89). -/
theorem stepsOf_cases {forward : Nat} {steps : Int} (h : (forward, steps) ∈ [(1, 1), (2, 2), (4, -2), (5, -1)]) :
    stepsOf forward = steps ∧ forward ≠ 0 ∧ forward ≠ 3 := by
  simp only [List.mem_cons, Prod.mk.injEq, List.not_mem_nil, or_false] at h
  rcases h with ⟨rfl, rfl⟩ | ⟨rfl, rfl⟩ | ⟨rfl, rfl⟩ | ⟨rfl, rfl⟩ <;> exact ⟨rfl, by decide, by decide⟩

end Machine

/-- Settles O43. -/
theorem encoderCountsTheHinge : Obligations.EncoderCountsTheHinge := by
  intro s hrun moved at_ lost unknown faulted
  have hexec {c : Instr} {t : State} (hc : c ≠ .resetLineAsserted) (h : effect c s = t) : exec c s = .next (finish t) :=
    exec_of_effect hrun.1 hc h
  have hcode {code : BitVec 3} {t : State} (h : codeChanges code s = t) : exec (.encoderCodeChange code) s = .next (finish t) :=
    hexec (by exact fun hc => Instr.noConfusion hc) h
  refine ⟨fun code hatt => hcode (codeChanges_absent hatt), fun code hatt hnone hnew => ?invalid,
    fun code pos hatt hpos hnew => ?valid, fun hsettle => ?settles⟩
  case invalid =>
    have hposition : codePosition code = none := by rcases hnone with rfl | rfl <;> rfl
    refine ⟨_, hcode (codeChanges_invalid hatt hnew hposition), ?_⟩
    exact encoderFault_told (s := s) .invalidCode hatt rfl rfl rfl rfl
  case valid =>
    intro u
    have hread := codeChanges_valid hatt hnew hpos
    refine ⟨fun hfirst => ?_, fun last hlast hresync => ?_⟩
    · exact hcode ((hread.trans (codeRead_first hfirst)).trans (movement_eq u))
    have hnext := hread.trans (codeRead_next hlast hresync)
    refine ⟨fun h0 => hcode (hnext.trans (if_pos h0)), fun h3 => ?_, fun steps hsteps => ?_⟩
    · refine ⟨_, hcode (hnext.trans ((if_neg (by omega)).trans (if_pos h3))), ?_⟩
      exact encoderFault_told (s := s) (u := u) .oppositeJump hatt rfl rfl rfl rfl
    obtain ⟨hstepsOf, hne0, hne3⟩ := stepsOf_cases hsteps
    have hmoves : codeChanges code s = moveBy code steps u := by
      rw [← hstepsOf]
      exact hnext.trans ((if_neg hne0).trans (if_neg hne3))
    refine ⟨fun hnone => hcode ((hmoves.trans (moveBy_uncounted steps hnone)).trans (movement_eq u)), fun n hn => ?_⟩
    intro counted
    obtain ⟨hin, hlow, hhigh, hout⟩ := countAfter_cases s.pins n steps
    have hcounted {m : Nat} (hm : countAfter s.pins n steps = some m) : exec (.encoderCodeChange code) s = .next (finish (counted m)) :=
      hcode ((hmoves.trans (moveBy_counted hn hm)).trans (movement_eq _))
    refine ⟨fun m hm hmax => hcounted (hin m hm hmax), fun hneg hlid => hcounted (hlow hneg hlid),
      fun hover hflat => hcounted (hhigh hover hflat), fun h => ⟨_, hcode (hmoves.trans (moveBy_range hn (hout h))), ?_⟩⟩
    exact encoderFault_told (s := s) (u := u) .range hatt rfl rfl rfl rfl
  case settles =>
    obtain ⟨hmoving, hsettled, hopened, hcount, hwindows, hhold, hatt, hpins, horient, hevents, hfollows⟩ := settleExpires_facts s
    have hall := hfollows
    obtain ⟨hslate, hclosed, hunknown, hwindow, _, htold⟩ := hfollows
    refine ⟨settleExpires s, hexec (by exact fun hc => Instr.noConfusion hc) (if_pos hsettle), hmoving, hsettled, hopened, hcount, hhold,
      hall, fun hp hl hn => hunknown ⟨by rw [hatt]; exact hp, by rw [hpins]; exact hl⟩ (.inr (hcount.trans hn)),
      fun hp => hslate (by rw [hatt]; exact hp), fun hp hl => hclosed (by rw [hatt]; exact hp) (by rw [hpins]; exact hl),
      fun n hp hl hn => ?_⟩
    intro takes kept chosen
    have hopen : (settleExpires s).att.present = true ∧ (settleExpires s).pins.lidClosed = false :=
      ⟨by rw [hatt]; exact hp, by rw [hpins]; exact hl⟩
    have hw := hwindow n hopen hopened (hcount.trans hn)
    rw [hwindows, horient] at hw
    obtain ⟨_, hkept, hlowest, hnone⟩ := hw
    have hchosen {i : Nat} {w : Window} (h : (settleExpires s).posture.posture = w.posture ∧ (settleExpires s).posture.window = some i) :
        chosen i w := by
      refine ⟨h.1, h.2, fun hnew => ⟨(htold (by rw [h.1]; exact hnew)).1, ?_⟩⟩
      rw [hevents, hrun.2, h.1, if_neg (Ne.symm hnew)]
      rfl
    refine ⟨fun i w hi hw htakes => hchosen (hkept hmoving i w hi hw htakes),
      fun i w hnot hw htakes hlow => hchosen (hlowest hmoving hnot i w hw htakes hlow), fun hnot hnever => ?_⟩
    have hstays := hnone hmoving hnot hnever
    exact ⟨fun hgiven => by rwa [if_pos hgiven] at hstays, fun hgiven => by rwa [if_neg hgiven] at hstays⟩
end Sys2Proof
/-! PROOFS. What the policy engine and the route engine leave of the posture unit: its record and its notices. -/
namespace Sys2Proof
open Machine

namespace Machine

/-! ## The notices that no claim of the policy engine posts (R167) -/

/-- The kinds that no claim of the policy engine posts. -/
def Unclaimed (k : NoticeKind) : Prop := aside k ∧ k ≠ .orientation

section
variable {k : NoticeKind} (h : Unclaimed k) (s : State)
include h

theorem sleepAsk_notice : KeepsNotice k (sleepAsk s) s := by
  exact keepsNotice_trans (post_notice _ _ _ h.1.2.1) (keepsNotice_of rfl)

theorem cancelSleep_notice (w : Withdrawal) : KeepsNotice k (cancelSleep w s) s := by
  unfold cancelSleep
  split
  · exact keepsNotice_of rfl
  · exact keepsNotice_trans (post_notice _ _ _ h.1.2.1) (keepsNotice_of rfl)
  · exact keepsNotice_of rfl
  · exact keepsNotice_of rfl
  · exact keepsNotice_of rfl

theorem sleepBegin_notice : KeepsNotice k (sleepBegin s) s := by
  have hgrace (u : State) : KeepsNotice k (graceExpires u) u := by
    unfold graceExpires
    (repeat' split) <;> first | exact keepsNotice_of rfl | exact keepsNotice_trans (sleepAsk_notice h _) (keepsNotice_of rfl)
  unfold sleepBegin
  dsimp only
  split
  · split
    · exact keepsNotice_trans (hgrace _) (keepsNotice_of rfl)
    · exact keepsNotice_of rfl
  · exact keepsNotice_of rfl

theorem wakeClaim_notice (w : WakeKind) : KeepsNotice k (wakeClaim w s) s := by
  unfold wakeClaim
  split
  · exact keepsNotice_of rfl
  · exact cancelSleep_notice h s _
  · exact cancelSleep_notice h s _
  · exact keepsNotice_of (by simp)
  · exact keepsNotice_of (by simp)

theorem testDwell_notice : KeepsNotice k (testDwell s) s := by
  unfold testDwell takeCandidate
  split
  · exact keepsNotice_trans (post_notice _ _ _ h.2) (keepsNotice_of rfl)
  · exact keepsNotice_of rfl

theorem freeClaim_notice : KeepsNotice k (freeClaim s) s := by
  unfold freeClaim
  split
  · exact keepsNotice_trans (testDwell_notice h _) (keepsNotice_of (by simp [setLock]))
  · exact keepsNotice_of rfl

theorem holdClaim_notice (src : ClaimSource) : KeepsNotice k (holdClaim src s) s := by
  unfold holdClaim
  dsimp only
  (repeat' split)
  · exact keepsNotice_trans (goSession_notice _ _ _ _ _ ⟨h.1.1, h.1.2.1, .inr h.1.2.2.1⟩) (keepsNotice_of rfl)
  · exact keepsNotice_of rfl
  · exact keepsNotice_of rfl
  · exact keepsNotice_of rfl

theorem claimSession_notice (new : PenState) (l : PenLevel) : KeepsNotice k (claimSession new l s) s := by
  have hsession (n : PenState) (f : Option FaultCause) (c : ClaimStep) (u : State) : KeepsNotice k (goSession n f c u) u :=
    goSession_notice _ _ _ _ _ ⟨h.1.1, h.1.2.1, .inr h.1.2.2.1⟩
  unfold claimSession
  dsimp only
  split
  · exact keepsNotice_trans (hsession _ _ _ _) (hsession _ _ _ _)
  · exact hsession _ _ _ _

theorem resumeSession_notice : KeepsNotice k (resumeSession s) s := by
  have hheld (u : State) : KeepsNotice k (goSession .held none .release u) u :=
    goSession_notice _ _ _ _ _ ⟨h.1.1, h.1.2.1, .inr h.1.2.2.1⟩
  unfold resumeSession enterSoftStart enterDetect
  split
  · split
    · exact hheld _
    · exact claimSession_notice h _ _ _
  · split
    · exact hheld _
    · exact claimSession_notice h _ _ _

theorem releaseClaim_notice (src : ClaimSource) : KeepsNotice k (releaseClaim src s) s := by
  unfold releaseClaim
  dsimp only
  (repeat' split)
  · exact keepsNotice_of rfl
  · exact keepsNotice_trans (resumeSession_notice h _) (keepsNotice_of rfl)
  · exact keepsNotice_of rfl

theorem changeBudget_notice (p : Profiles) (a : Nat) : KeepsNotice k (changeBudget p a s) s := by
  have hpen (before : Option PenLevel) (u : State) : KeepsNotice k (penTold before u) u :=
    penTold_notice _ _ _ ⟨h.1.1, h.1.2.1, h.1.2.2.1⟩
  have hposted (before : Guard) (u : State) : KeepsNotice k (switchOutputs (postBudget before .budget u)) u :=
    keepsNotice_trans (switchOutputs_notice _ _) (postBudget_notice _ _ _ _ h.1.2.2.1)
  have hlower : KeepsNotice k (lowerBudget p a s) s := by
    unfold lowerBudget
    dsimp only
    split
    · exact keepsNotice_trans (hpen _ _) (keepsNotice_trans (enterUnpowered_notice _ _ _ h.1) (keepsNotice_trans (hposted _ _) (keepsNotice_of rfl)))
    · exact keepsNotice_trans (hpen _ _) (keepsNotice_trans (hposted _ _) (keepsNotice_of rfl))
  have hraise : KeepsNotice k (raiseBudget p a s) s := by
    unfold raiseBudget
    dsimp only
    refine keepsNotice_trans (hpen _ _) (keepsNotice_trans (hposted _ _) (keepsNotice_trans (keepsNotice_of rfl) ?_))
    split
    · exact keepsNotice_trans (enterPowering_notice _ _ _ h.1) (keepsNotice_of rfl)
    · exact keepsNotice_of rfl
  unfold changeBudget
  dsimp only
  (repeat' split)
  · exact hlower
  · exact hraise
  · exact keepsNotice_of rfl

theorem issueClaim_notice (ev : PolicyEvent) (a : PolicyAction) : KeepsNotice k (issueClaim ev a s) s := by
  cases a with
  | sleepBegin => exact sleepBegin_notice h s
  | sleepCancel => exact cancelSleep_notice h s _
  | wake => exact wakeClaim_notice h s _
  | orientLock => exact keepsNotice_of (by simp [issueClaim, lockClaim, setLock])
  | orientFree => exact freeClaim_notice h s
  | chargeHold => exact holdClaim_notice h s _
  | chargeAllow => exact releaseClaim_notice h s _
  | budgetProfile n =>
    show KeepsNotice k (budgetProfile n s) s
    unfold budgetProfile
    split
    · exact keepsNotice_of rfl
    · exact changeBudget_notice h s _ _
  | indicate line src p => exact keepsNotice_of (by cases line <;> rfl)

/-- The claims of a change post no notice of another kind (R164, R167). -/
theorem drainEvents_notice : KeepsNotice k (drainEvents s) s :=
  drainEvents_keeps (inv := fun u => KeepsNotice k u s) (fun _ hu => hu) (fun ev a u hu => keepsNotice_trans (issueClaim_notice h u ev a) hu) s
    (keepsNotice_of rfl)

/-- The route engine posts no notice of another kind after the taps, of a frame that is not the host's (R25 to R34). -/
theorem decideFrame_notice {src : Source} (hsrc : src ≠ .uplink) (kind : Byte) (payload : List Byte) (damaged : Bool) :
    KeepsNotice k (decideFrame src kind payload damaged s) s := by
  have hforward (i : Nat) (d : Dest) (u : State) : KeepsNotice k (forwardFrame src kind payload damaged i d u) u := keepsNotice_of (by simp)
  have hact (i : Nat) (f : RouteFields) (u : State) : KeepsNotice k (actOnFrame src kind payload damaged i f u) u := by
    unfold actOnFrame
    dsimp only
    split
    · exact keepsNotice_trans (hforward _ _ _) (keepsNotice_of rfl)
    · exact keepsNotice_of rfl
    · exact keepsNotice_trans (wakeClaim_notice h _ _) (keepsNotice_of rfl)
    · exact keepsNotice_trans (wakeClaim_notice h _ _) (keepsNotice_trans (hforward _ _ _) (keepsNotice_of rfl))
  have hthin (i : Nat) (e : RouteEntry) (u : State) : KeepsNotice k (thinFrame src kind payload damaged i e u) u := by
    unfold thinFrame
    split
    · exact keepsNotice_trans (hact _ _ _) (keepsNotice_of rfl)
    · exact keepsNotice_of rfl
  unfold decideFrame
  split
  · exact keepsNotice_of rfl
  rw [if_neg fun hup => hsrc hup.1]
  unfold classify
  (repeat' split) <;> first | exact keepsNotice_of rfl | exact hthin _ _ _

end

end Machine
end Sys2Proof
/-! PROOFS. The two end switches. -/
namespace Sys2Proof
open Machine

namespace Machine

/-! ## What a switch's reference leaves (R93 to R95) -/

/-- The slips counted after a reference (R93). -/
def slipped (c : Nat) (s : State) : Byte :=
  if ∃ n, s.posture.count = some n ∧ (c + 4 < n ∨ n + 4 < c) then satInc s.posture.slips else s.posture.slips

/-- A slip told, or none (R93). -/
def SlipTold (src : RefSource) (c : Nat) (s t : State) : Prop :=
  (∀ n, s.posture.count = some n → (c + 4 < n ∨ n + 4 < c) → s.mgmt.enables.encoder = true →
    ∃ p, t.mgmt.notices.encoder = some p ∧ p.notice = .encoderSlip src n c) ∧
  ((∀ n, s.posture.count = some n → n ≤ c + 4 ∧ c ≤ n + 4) → t.mgmt.notices.encoder = s.mgmt.notices.encoder)

/-- What keeps the ENCODER notice keeps a slip told. -/
theorem slipTold_kept {src : RefSource} {c : Nat} {s t u : State} (h : SlipTold src c s t) (hkept : KeepsNotice .encoder u t) :
    SlipTold src c s u := by
  have hsame : u.mgmt.notices.encoder = t.mgmt.notices.encoder := hkept.1
  rw [SlipTold, hsame]
  exact h

theorem applyReference_slipTold (src : RefSource) (c : Nat) (s : State) : SlipTold src c s (applyReference src c s) :=
  applyReference_slip src c s

theorem evaluate_slipTold {src : RefSource} {c : Nat} {s t : State} (h : SlipTold src c s t) : SlipTold src c s (evaluate t) :=
  slipTold_kept h ((evaluate_posts t).2 .encoder (by decide))

theorem reference_slipTold (src : RefSource) (c : Nat) (s : State) : SlipTold src c s (reference src c s) := by
  unfold reference
  dsimp only
  split
  · exact applyReference_slipTold src c s
  · exact evaluate_slipTold (applyReference_slipTold src c s)

/-- The POSTURE-CHANGED event of a posture that is new (R104). -/
def changedTo (s : State) (new : Posture) : List PolicyEvent :=
  if s.posture.posture = new then [] else [.postureChanged s.posture.posture new]

/-! ## The lid-closed switch (R94) -/

section
variable {s : State} (hatt : s.att.present = true)
include hatt

theorem lidAsserts_eq (hlid : s.pins.lidClosed = false) :
    lidAsserts s = evaluate (postEvent .lidClosed (applyReference .lidSwitch 0
      { s with pins := { s.pins with lidClosed := true }, posture := { s.posture with lidOpened := false } })) := by
  unfold lidAsserts lidCloses
  simp only [hlid, hatt, if_true, Bool.false_eq_true, if_false]

theorem lidAsserts_facts (hlid : s.pins.lidClosed = false) (hevents : s.policy.events = []) :
    let t := lidAsserts s
    t.pins = { s.pins with lidClosed := true } ∧ t.posture.count = some 0 ∧
      t.posture.refSource = some .lidSwitch ∧ t.posture.slips = slipped 0 s ∧ t.posture.lidOpened = false ∧
      t.posture.posture = .closed ∧ t.posture.window = none ∧ t.policy.events = .lidClosed :: changedTo s .closed ∧
      SlipTold .lidSwitch 0 s t ∧ PostureFollows s t := by
  intro t
  let u : State := { s with pins := { s.pins with lidClosed := true }, posture := { s.posture with lidOpened := false } }
  have ht : t = evaluate (postEvent .lidClosed (applyReference .lidSwitch 0 u)) := lidAsserts_eq hatt hlid
  obtain ⟨hposture, hpolicy, hpins, hpresent, _⟩ := applyReference_switch .lidSwitch 0 u (by decide)
  have hslip : SlipTold .lidSwitch 0 s (applyReference .lidSwitch 0 u) := applyReference_slipTold .lidSwitch 0 u
  have hfollows : PostureFollows s t := lidAsserts_follows s hatt hlid
  obtain ⟨v, hv⟩ : ∃ v, applyReference .lidSwitch 0 u = v := ⟨_, rfl⟩
  rw [hv] at ht hposture hpolicy hpins hpresent hslip
  have hclosed : evaluated (postEvent .lidClosed v) = (.closed, none) :=
    (evaluated_of (postEvent .lidClosed v)).2.1 (by show v.att.present = true; rw [hpresent]; exact hatt) (by show v.pins.lidClosed = true; rw [hpins])
  obtain ⟨hwritten, htold, hpins', _, _⟩ := evaluate_gives _ _ _ hclosed
  have hslip' : SlipTold .lidSwitch 0 s (evaluate (postEvent .lidClosed v)) := evaluate_slipTold (slipTold_kept hslip (postEvent_notice _ _ _))
  rw [← ht] at hwritten htold hpins' hslip'
  have hrecord : (postEvent .lidClosed v).posture = v.posture := rfl
  rw [hrecord, hposture] at hwritten
  refine ⟨hpins'.trans hpins, congrArg (·.count) hwritten, congrArg (·.refSource) hwritten, congrArg (·.slips) hwritten,
    congrArg (·.lidOpened) hwritten, congrArg (·.posture) hwritten, congrArg (·.window) hwritten, ?_, hslip', hfollows⟩
  have hbefore : (postEvent .lidClosed v).policy.events = [.lidClosed] := by
    show v.policy.events ++ [.lidClosed] = _
    rw [hpolicy]
    exact congrArg (· ++ [PolicyEvent.lidClosed]) hevents
  rw [htold, hbefore, hrecord, hposture]
  rfl

theorem lidReleases_facts (hlid : s.pins.lidClosed = true) (hevents : s.policy.events = []) :
    let t := lidReleases s
    t.pins = { s.pins with lidClosed := false } ∧
      t.posture.count = s.posture.count ∧ t.posture.lidOpened = true ∧ t.posture.moving = true ∧
      t.posture.settle = some (10 * s.posture.settleTime) ∧ t.sleep.holds.hingeMoving = true ∧
      t.posture.posture = .unknown ∧ t.posture.window = none ∧ t.policy.events = .lidOpened :: changedTo s .unknown ∧
      PostureFollows s t := by
  intro t
  let u : State := { s with pins := { s.pins with lidClosed := false }, posture := { s.posture with lidOpened := true } }
  have ht : t = evaluate (postEvent .lidOpened (movement u)) := by
    show lidReleases s = _
    unfold lidReleases
    simp only [hlid, hatt, Bool.not_true, Bool.false_eq_true, if_true, if_false]
    rfl
  have hfollows : PostureFollows s t := lidReleases_follows s hatt hlid
  have hmoved := movement_eq u
  have hunknown : evaluated (postEvent .lidOpened (movement u)) = (.unknown, none) := by
    rw [hmoved]
    simp [evaluated, State.lidIsClosed, postEvent, u, hatt]
  obtain ⟨hwritten, htold, hpins, hsleep, _⟩ := evaluate_gives _ _ _ hunknown
  rw [← ht, hmoved] at hwritten htold hpins hsleep
  refine ⟨hpins, congrArg (·.count) hwritten, congrArg (·.lidOpened) hwritten, congrArg (·.moving) hwritten, congrArg (·.settle) hwritten,
    congrArg (·.holds.hingeMoving) hsleep, congrArg (·.posture) hwritten, congrArg (·.window) hwritten, ?_, hfollows⟩
  refine htold.trans ?_
  show s.policy.events ++ [.lidOpened] ++ _ = _
  rw [hevents]
  rfl

/-! ## The fold-flat switch (R95) -/

theorem foldFlatAsserts_eq (hlid : s.pins.lidClosed = false) (hflat : s.pins.foldFlat = false) :
    foldFlatAsserts s = reference .flatSwitch 180 { s with pins := { s.pins with foldFlat := true } } := by
  unfold foldFlatAsserts
  simp [hatt, hlid, hflat]

end

/-- A reference's events: the change of posture that its evaluation makes, if it evaluates (R102, R104). -/
theorem reference_events (src : RefSource) (c : Nat) (s : State) :
    (reference src c s).policy.events = s.policy.events ++ changedTo s (reference src c s).posture.posture := by
  obtain ⟨hposture, _, _, _⟩ := applyReference_keeps src c s
  have hpolicy : (applyReference src c s).policy = s.policy := (applyReference_frame src c s).2.2.2.2.2.2.1
  unfold reference changedTo
  dsimp only
  split
  · rw [hpolicy, hposture, if_pos rfl, List.append_nil]
  · obtain ⟨new, w, hwritten, htold, _⟩ := evaluate_writes (applyReference src c s)
    rw [htold, hwritten, hposture, hpolicy]

/-- A reference leaves the motion, the lid's mark and the windows. -/
theorem reference_aside (src : RefSource) (c : Nat) (s : State) :
    let t := reference src c s
    t.posture.moving = s.posture.moving ∧ t.posture.lidOpened = s.posture.lidOpened ∧ t.posture.windows = s.posture.windows := by
  have happlied : (applyReference src c s).posture.moving = s.posture.moving ∧
      (applyReference src c s).posture.lidOpened = s.posture.lidOpened ∧ (applyReference src c s).posture.windows = s.posture.windows := by
    unfold applyReference
    (repeat' split) <;> simp
  unfold reference
  dsimp only
  split
  · exact happlied
  · obtain ⟨new, w, hwritten, _⟩ := evaluate_writes (applyReference src c s)
    rw [hwritten]
    exact happlied

theorem foldFlatAsserts_facts {s : State} (hatt : s.att.present = true) (hlid : s.pins.lidClosed = false) (hflat : s.pins.foldFlat = false)
    (hevents : s.policy.events = []) :
    let t := foldFlatAsserts s
    t.pins = { s.pins with foldFlat := true } ∧ t.posture.count = some 180 ∧
      t.posture.refSource = some .flatSwitch ∧ t.posture.slips = slipped 180 s ∧ SlipTold .flatSwitch 180 s t ∧
      t.posture.moving = s.posture.moving ∧ t.posture.lidOpened = s.posture.lidOpened ∧ t.posture.windows = s.posture.windows ∧
      t.orient = s.orient ∧ t.att = s.att ∧ t.policy.events = changedTo s t.posture.posture := by
  intro t
  let u : State := { s with pins := { s.pins with foldFlat := true } }
  have ht : t = reference .flatSwitch 180 u := foldFlatAsserts_eq hatt hlid hflat
  obtain ⟨hposture, _⟩ := applyReference_switch .flatSwitch 180 u (by decide)
  obtain ⟨hcount, hsource, hslips, _⟩ := reference_keeps .flatSwitch 180 u
  obtain ⟨_, ⟨hpins, _⟩, _, ⟨_, hpresent, _⟩, _, horient, _⟩ := reference_frame .flatSwitch 180 u
  obtain ⟨hmoving, hopened, hwindows⟩ := reference_aside .flatSwitch 180 u
  have hslip : SlipTold .flatSwitch 180 s (reference .flatSwitch 180 u) := reference_slipTold .flatSwitch 180 u
  have htold : (reference .flatSwitch 180 u).policy.events = changedTo s (reference .flatSwitch 180 u).posture.posture := by
    rw [reference_events]
    show s.policy.events ++ _ = _
    rw [hevents]
    rfl
  rw [ht]
  rw [hposture] at hcount hsource hslips
  exact ⟨hpins, hcount, hsource, hslips, hslip, hmoving, hopened, hwindows, horient, hpresent, htold⟩

end Machine
end Sys2Proof
/-! PROOFS. The posture unit beside the policy engine's claims and the route engine. -/
namespace Sys2Proof
open Machine

namespace Machine

/-! ## The posture unit beside other operations -/

/-- The posture unit kept, its base run aside, with what an evaluation looks at and both of its notices. -/
structure KeepsUnit (t s : State) : Prop where
  record : t.posture = { s.posture with baseRun := t.posture.baseRun }
  candidate : t.orient.candidate = s.orient.candidate
  present : t.att.present = s.att.present
  pins : t.pins = s.pins
  encoder : KeepsNotice .encoder t s
  told : KeepsNotice .posture t s

theorem keepsUnit_trans {a b c : State} (h : KeepsUnit a b) (k : KeepsUnit b c) : KeepsUnit a c where
  record := by rw [h.record, k.record]
  candidate := h.candidate.trans k.candidate
  present := h.present.trans k.present
  pins := h.pins.trans k.pins
  encoder := keepsNotice_trans h.encoder k.encoder
  told := keepsNotice_trans h.told k.told

/-- An operation that leaves the posture unit whole. -/
theorem keepsUnit_of {t s : State} (hposture : t.posture = s.posture) (hcandidate : t.orient.candidate = s.orient.candidate)
    (hpresent : t.att.present = s.att.present) (hpins : t.pins = s.pins) (hencoder : KeepsNotice .encoder t s)
    (htold : KeepsNotice .posture t s) : KeepsUnit t s where
  record := by rw [hposture]
  candidate := hcandidate
  present := hpresent
  pins := hpins
  encoder := hencoder
  told := htold

theorem unclaimed_encoder : Unclaimed .encoder := by unfold Unclaimed aside; decide

theorem unclaimed_posture : Unclaimed .posture := by unfold Unclaimed aside; decide

/-- The policy engine's claims leave the posture unit; a link that they end takes its base run (R96, R167). -/
theorem drainEvents_unit (s : State) : KeepsUnit (drainEvents s) s where
  record := by
    have hrecords := drainEvents_records s
    generalize drainEvents s = t at hrecords
    obtain ⟨_, _, _, _, _, _, _, _, _, _, _, _, _, _, _, _, _, h1, h2, h3, h4, h5, h6, h7, h8, h9, h10, h11, h12, h13, h14, h15, h16, _⟩ := hrecords
    cases ht : t.posture
    cases hs : s.posture
    simp_all
  candidate := by simp
  present := by simp
  pins := by simp
  encoder := drainEvents_notice unclaimed_encoder s
  told := drainEvents_notice unclaimed_posture s

theorem decideFrame_unit {src : Source} (hsrc : src ≠ .uplink) (kind : Byte) (payload : List Byte) (damaged : Bool) (s : State) :
    KeepsUnit (decideFrame src kind payload damaged s) s :=
  keepsUnit_of (by simp) (by simp) (by simp) (by simp) (decideFrame_notice unclaimed_encoder s hsrc kind payload damaged)
    (decideFrame_notice unclaimed_posture s hsrc kind payload damaged)

/-- The evaluation of the posture is seen through what leaves the unit. -/
theorem postureFollows_kept {s u t : State} (h : PostureFollows s u) (k : KeepsUnit t u) : PostureFollows s t := by
  have htold : t.mgmt.notices.posture = u.mgmt.notices.posture := k.told.1
  unfold PostureFollows at h ⊢
  dsimp only at h ⊢
  rw [k.record, k.candidate, k.present, k.pins, htold]
  exact h

theorem keepsPosture_of_unit {s u t : State} (h : KeepsPosture u s) (k : KeepsUnit t u) : KeepsPosture t s := by
  obtain ⟨hposture, hwindow, hprevious, hnotice⟩ := h
  refine ⟨?_, ?_, ?_, keepsNotice_trans k.told hnotice⟩ <;> rw [k.record]
  · exact hposture
  · exact hwindow
  · exact hprevious

/-- The references kept: what the encoder counted, and the ENCODER notice. -/
structure KeepsCount (t s : State) : Prop where
  count : t.posture.count = s.posture.count
  refSource : t.posture.refSource = s.posture.refSource
  slips : t.posture.slips = s.posture.slips
  checked : t.posture.checked = s.posture.checked
  lidRun : t.posture.lidRun = s.posture.lidRun
  encoder : KeepsNotice .encoder t s

theorem keepsCount_trans {a b c : State} (h : KeepsCount a b) (k : KeepsCount b c) : KeepsCount a c where
  count := h.count.trans k.count
  refSource := h.refSource.trans k.refSource
  slips := h.slips.trans k.slips
  checked := h.checked.trans k.checked
  lidRun := h.lidRun.trans k.lidRun
  encoder := keepsNotice_trans h.encoder k.encoder

theorem keepsCount_of_unit {t s : State} (k : KeepsUnit t s) : KeepsCount t s where
  count := congrArg (·.count) k.record
  refSource := congrArg (·.refSource) k.record
  slips := congrArg (·.slips) k.record
  checked := congrArg (·.checked) k.record
  lidRun := congrArg (·.lidRun) k.record
  encoder := k.encoder

theorem evaluate_count (s : State) : KeepsCount (evaluate s) s := by
  obtain ⟨hcount, hsource, hslips, hchecked, hlid, _⟩ := evaluate_keeps s
  exact ⟨hcount, hsource, hslips, hchecked, hlid, (evaluate_posts s).2 .encoder (by decide)⟩

/-- A lid sample handed to the orientation unit leaves the references. -/
theorem orientSample_count (x y z : Word16) (s : State) : KeepsCount (orientSample x y z s) s := by
  unfold orientSample setCandidate
  dsimp only
  (repeat' split)
  · exact ⟨rfl, rfl, rfl, rfl, rfl, keepsNotice_of rfl⟩
  · exact ⟨rfl, rfl, rfl, rfl, rfl, keepsNotice_of rfl⟩
  · exact keepsCount_trans (evaluate_count _) ⟨rfl, rfl, rfl, rfl, rfl, keepsNotice_of rfl⟩

/-- With the candidate kept the orientation unit leaves the posture unit (R114). -/
theorem orientSample_unit {x y z : Word16} {s : State} (h : (orientSample x y z s).orient.candidate = s.orient.candidate) :
    KeepsUnit (orientSample x y z s) s := by
  obtain ⟨hposture, hmgmt, _⟩ := (orientSample_follows x y z s).2 (.inr h)
  exact keepsUnit_of hposture h (by simp) (by simp) (keepsNotice_of hmgmt) (keepsNotice_of hmgmt)

end Machine
end Sys2Proof
/-! PROOFS. Gravity: the samples taken and the check that they make. -/
namespace Sys2Proof
open Machine

namespace Machine

/-! ## The gravity check after a sample (R96 to R98) -/

/-- A sample continues its unit's run (R96). -/
def Continues (s : State) (r : Option Run) (x y z : Int) : Prop :=
  ∃ q, r = some q ∧ s.now ≤ q.last + 2000 ∧ (x - q.x).natAbs ≤ 40 ∧ (y - q.y).natAbs ≤ 40 ∧ (z - q.z).natAbs ≤ 40

/-- The conditions of a gravity check, `new` saying whether the sample started a run (R97). -/
def CheckDue (s : State) (new : Prop) (this other : Run) : Prop :=
  (s.link.state = .ready ∨ s.link.state = .quiet) ∧ s.att.ident.mount.isSome = true ∧ this.first + 4000 ≤ this.last ∧
  other.first + 4000 ≤ other.last ∧ this.last ≤ other.last + 2000 ∧ (s.posture.checked = false ∨ new) ∧
  s.posture.moving = false ∧ s.pins.lidClosed = false ∧ s.pins.foldFlat = false ∧
  (this.x.natAbs ≤ 800 ∧ (100 ≤ this.y.natAbs ∨ 100 ≤ this.z.natAbs)) ∧
  (other.x.natAbs ≤ 800 ∧ (100 ≤ other.y.natAbs ∨ 100 ≤ other.z.natAbs))

/-- No check: the references stay, and a new run awaits its own check (R97). -/
def ReferenceStays (s : State) (new : Prop) (t : State) : Prop :=
  t.posture.count = s.posture.count ∧ t.posture.refSource = s.posture.refSource ∧ t.posture.slips = s.posture.slips ∧
  (t.posture.checked = true ↔ s.posture.checked = true ∧ ¬ new) ∧ t.mgmt.notices.encoder = s.mgmt.notices.encoder

/-- The count of the two directions is a reference, or confirms the count that stands (R97, R98). -/
def GravityReferenced (s : State) (lid base : Run) (t : State) : Prop :=
  let c := gravityCount lid base
  t.posture.checked = true ∧
  ((∃ n, s.posture.count = some n ∧ n ≤ c + 4 ∧ c ≤ n + 4) →
    t.posture.count = s.posture.count ∧ t.posture.refSource = s.posture.refSource ∧ t.posture.slips = s.posture.slips) ∧
  (¬ (∃ n, s.posture.count = some n ∧ n ≤ c + 4 ∧ c ≤ n + 4) →
    t.posture.count = some c ∧ t.posture.refSource = some .gravity ∧ t.posture.slips = slipped c s) ∧
  SlipTold .gravity c s t

theorem referenceStays_kept {s t u : State} {new : Prop} (h : ReferenceStays s new t) (k : KeepsCount u t) : ReferenceStays s new u := by
  have hencoder : u.mgmt.notices.encoder = t.mgmt.notices.encoder := k.encoder.1
  unfold ReferenceStays
  rw [k.count, k.refSource, k.slips, k.checked, hencoder]
  exact h

theorem gravityReferenced_kept {s t u : State} {lid base : Run} (h : GravityReferenced s lid base t) (k : KeepsCount u t) :
    GravityReferenced s lid base u := by
  obtain ⟨hchecked, hwithin, hfar, hslip⟩ := h
  unfold GravityReferenced
  dsimp only
  rw [k.count, k.refSource, k.slips, k.checked]
  exact ⟨hchecked, hwithin, hfar, slipTold_kept hslip k.encoder⟩

/-- The two runs with a sample taken into one of them, `fresh` where it started a run (R96). -/
def sampled (l b : Option Run) (fresh : Bool) (s : State) : State :=
  { s with posture := { s.posture with lidRun := l, baseRun := b, checked := s.posture.checked && !fresh } }

theorem sampled_stays (l b : Option Run) (fresh : Bool) (s : State) {new : Prop} (hnew : fresh = true ↔ new) :
    ReferenceStays s new (sampled l b fresh s) := by
  refine ⟨rfl, rfl, rfl, ?_, rfl⟩
  show (s.posture.checked && !fresh) = true ↔ _
  rw [← hnew]
  simp

theorem usable_iff (r : Run) : usable r = true ↔ r.x.natAbs ≤ 800 ∧ (100 ≤ r.y.natAbs ∨ 100 ≤ r.z.natAbs) := by
  simp [usable]

theorem checkIsDue_sampled (l b : Option Run) (fresh : Bool) (s : State) {new : Prop} (hnew : fresh = true ↔ new) (this other : Run) :
    checkIsDue (sampled l b fresh s) this other = true ↔ CheckDue s new this other := by
  have hchecked : (sampled l b fresh s).posture.checked = false ↔ s.posture.checked = false ∨ new := by
    show (s.posture.checked && !fresh) = false ↔ _
    rw [← hnew]
    cases s.posture.checked <;> simp
  rw [checkIsDue_iff, hchecked, usable_iff, usable_iff]
  rfl

section
variable (thisIsLid fresh : Bool) (s : State)

/-- What a gravity check leaves, whether or not it is made. -/
theorem gravityCheck_sampled (l b : Option Run) :
    let v := gravityCheck thisIsLid (sampled l b fresh s)
    v.posture.lidRun = l ∧ v.orient = s.orient ∧ (v.posture.count ≠ s.posture.count → PostureFollows s v) ∧
      (v.posture.count = s.posture.count → KeepsPosture v s) := by
  intro v
  have hrun : v.posture.lidRun = l := by
    cases hl : l with
    | none =>
      have hnone := gravityCheck_none thisIsLid (sampled l b fresh s) (.inl hl)
      exact (congrArg (·.posture.lidRun) hnone).trans hl
    | some lid =>
      cases hb : b with
      | none =>
        have hnone := gravityCheck_none thisIsLid (sampled l b fresh s) (.inr hb)
        exact (congrArg (·.posture.lidRun) hnone).trans hl
      | some base =>
        have hboth := gravityCheck_posture thisIsLid (sampled l b fresh s) lid base hl hb
        exact hboth.1.trans hl
  have horient : v.orient = s.orient := by
    show (gravityCheck thisIsLid (sampled l b fresh s)).orient = _
    simp [sampled]
  obtain ⟨hfollows, hkeeps⟩ := gravityCheck_follows thisIsLid (sampled l b fresh s)
  exact ⟨hrun, horient, hfollows, hkeeps⟩

theorem gravityCheck_alone {l b : Option Run} (h : l = none ∨ b = none) :
    gravityCheck thisIsLid (sampled l b fresh s) = sampled l b fresh s :=
  gravityCheck_none thisIsLid (sampled l b fresh s) h

/-- The check that two runs make, or do not make (R97, R98). -/
theorem gravityCheck_both (lid base : Run) {new : Prop} (hnew : fresh = true ↔ new) :
    let this := if thisIsLid then lid else base
    let other := if thisIsLid then base else lid
    let w := sampled (some lid) (some base) fresh s
    (¬ CheckDue s new this other → gravityCheck thisIsLid w = w) ∧
      (CheckDue s new this other → GravityReferenced s lid base (gravityCheck thisIsLid w)) := by
  intro this other w
  have hdue := checkIsDue_sampled (some lid) (some base) fresh s hnew this other
  obtain ⟨_, _, hnot, hmade⟩ := gravityCheck_posture thisIsLid w lid base rfl rfl
  refine ⟨fun h => hnot (Bool.eq_false_iff.mpr (mt hdue.mp h)), fun h => ?_⟩
  obtain ⟨hchecked, hwithin, hfar⟩ := hmade (hdue.mpr h)
  refine ⟨hchecked, hwithin, hfar, ?_⟩
  have hcheck : gravityCheck thisIsLid w = reference .gravity (gravityCount lid base) { w with posture := { w.posture with checked := true } } :=
    if_pos (hdue.mpr h)
  rw [hcheck]
  exact reference_slipTold .gravity (gravityCount lid base) { w with posture := { w.posture with checked := true } }

end

/-! ## The run of a sample (R96) -/

/-- A run with a sample taken (R96). -/
def RunTaken (s : State) (r : Option Run) (x y z : Int) (n : Run) : Prop :=
  n.last = s.now ∧ n.x = x ∧ n.y = y ∧ n.z = z ∧ (Continues s r x y z → ∀ q, r = some q → n.first = q.first) ∧
  (¬ Continues s r x y z → n.first = s.now)

theorem takeSample_taken (s : State) (r : Option Run) (x y z : Int) :
    RunTaken s r x y z (takeSample r s.now x y z).1 ∧ ((takeSample r s.now x y z).2 = true ↔ ¬ Continues s r x y z) := by
  obtain ⟨hlast, hx, hy, hz, hold, hfirst, hnew⟩ := takeSample_spec r s.now x y z
  exact ⟨⟨hlast, hx, hy, hz, hold, hfirst⟩, hnew⟩

end Machine
end Sys2Proof
/-! PROOFS. A sample's way through the route engine to the posture unit. -/
namespace Sys2Proof
open Machine

namespace Machine

/-! ## A lid sample (R96, R110, R111) -/

/-- The state that the posture unit's tap of a lid sample sees. -/
def lidArrived (s : State) : State := countReceived .lidMotion { s with poller := { s.poller with reading := false } }

section
variable (x y z : Word16) {s : State}

theorem lidMotionMade_good (hstore : s.store.state ≠ .starting) :
    lidMotionMade x y z false s =
      decideFrame .lidMotion 0x01#8 (encWord x ++ encWord y ++ encWord z) false
        (drainEvents (orientSample x y z (drainEvents (postureLidSample x.toInt y.toInt z.toInt (lidArrived s))))) := by
  have htap : tapFrame .lidMotion (encWord x ++ encWord y ++ encWord z) (lidArrived s) =
      drainEvents (orientSample x y z (drainEvents (postureLidSample x.toInt y.toInt z.toInt (lidArrived s)))) := by
    rw [tapFrame, motionOf_enc]
  have hroute : lidMotionMade x y z false s =
      routeFrame .lidMotion 0x01#8 (encWord x ++ encWord y ++ encWord z) false { s with poller := { s.poller with reading := false } } := rfl
  rw [hroute, routeFrame_eq, if_neg hstore, if_neg (by simp [encWord, enc16]), ← htap]
  rfl

theorem postureLidSample_eq (s : State) :
    postureLidSample x.toInt y.toInt z.toInt s =
      gravityCheck true (sampled (some (takeSample s.posture.lidRun s.now x.toInt y.toInt z.toInt).1) s.posture.baseRun
        (takeSample s.posture.lidRun s.now x.toInt y.toInt z.toInt).2 s) := rfl

/-- The posture unit after a lid sample: the unit's own state `v` first, then what follows it in the same change. -/
theorem lidMotion_follows (hstore : s.store.state ≠ .starting) :
    let v := postureLidSample x.toInt y.toInt z.toInt (lidArrived s)
    let t := lidMotionMade x y z false s
    KeepsCount t v ∧ (t.orient.candidate = s.orient.candidate → KeepsUnit t v) := by
  intro v t
  have ht : t = decideFrame .lidMotion 0x01#8 (encWord x ++ encWord y ++ encWord z) false
      (drainEvents (orientSample x y z (drainEvents v))) := lidMotionMade_good x y z hstore
  have hcandidate : v.orient.candidate = s.orient.candidate := by
    obtain ⟨_, horient, _⟩ := gravityCheck_sampled true (takeSample (lidArrived s).posture.lidRun (lidArrived s).now x.toInt y.toInt z.toInt).2
      (lidArrived s) (some (takeSample (lidArrived s).posture.lidRun (lidArrived s).now x.toInt y.toInt z.toInt).1) (lidArrived s).posture.baseRun
    exact congrArg (·.candidate) horient
  clear_value v t
  subst ht
  have hfirst := drainEvents_unit v
  generalize drainEvents v = a at hfirst ⊢
  have hcount := orientSample_count x y z a
  have hunit := orientSample_unit (x := x) (y := y) (z := z) (s := a)
  generalize orientSample x y z a = b at hcount hunit ⊢
  have hlast := keepsUnit_trans (decideFrame_unit (src := .lidMotion) (by decide) 0x01#8 (encWord x ++ encWord y ++ encWord z) false (drainEvents b))
    (drainEvents_unit b)
  generalize decideFrame .lidMotion 0x01#8 (encWord x ++ encWord y ++ encWord z) false (drainEvents b) = t at hlast ⊢
  refine ⟨keepsCount_trans (keepsCount_of_unit hlast) (keepsCount_trans hcount (keepsCount_of_unit hfirst)), fun hsame => ?_⟩
  have hb : b.orient.candidate = a.orient.candidate := by
    rw [← hlast.candidate, hsame, hfirst.candidate, hcandidate]
  exact keepsUnit_trans hlast (keepsUnit_trans (hunit hb) hfirst)

end

/-! ## A base sample (R52, R96) -/

/-- A sign of the mount (R52). -/
theorem sign_testBit (n bits : Nat) (v : Int) : (if (bits / 2 ^ n) % 2 = 1 then -v else v) = if bits.testBit n then -v else v := by
  rw [Nat.testBit_eq_decide_div_mod_eq]
  by_cases h : bits / 2 ^ n % 2 = 1 <;> simp [h]

theorem postureBaseSample_eq {x y z : Int} {m : Mount} {s : State} (hmount : s.att.ident.mount = some m)
    (hup : s.link.state = .ready ∨ s.link.state = .quiet) :
    let c := corrected m x y z
    let r := takeSample s.posture.baseRun s.now c.1 c.2.1 c.2.2
    postureBaseSample x y z s = gravityCheck false (sampled s.posture.lidRun (some r.1) r.2 s) := by
  intro c r
  rw [postureBaseSample, hmount]
  exact if_pos ((isUp_iff _).mpr hup)

end Machine
end Sys2Proof
/-! PROOFS. The switches and gravity reference the hinge. -/
namespace Sys2Proof
open Machine

namespace Machine

/-- A reference that changes the count evaluates the posture, and one that leaves it leaves the posture (R102 to R104). -/
def Evaluates (s t : State) : Prop :=
  (t.posture.count ≠ s.posture.count → PostureFollows s t) ∧
  (t.posture.count = s.posture.count →
    t.posture.posture = s.posture.posture ∧ t.posture.window = s.posture.window ∧ t.posture.previous = s.posture.previous ∧
    t.mgmt.notices.posture = s.mgmt.notices.posture)

theorem evaluates_of {s v t : State} (hfollows : v.posture.count ≠ s.posture.count → PostureFollows s v)
    (hkeeps : v.posture.count = s.posture.count → KeepsPosture v s) (k : KeepsUnit t v) : Evaluates s t := by
  have hcount : t.posture.count = v.posture.count := (keepsCount_of_unit k).count
  refine ⟨fun h => postureFollows_kept (hfollows (by rwa [← hcount])) k, fun h => ?_⟩
  obtain ⟨hposture, hwindow, hprevious, hnotice⟩ := keepsPosture_of_unit (hkeeps (hcount.symm.trans h)) k
  exact ⟨hposture, hwindow, hprevious, hnotice.1⟩

/-- What a lid sample does to the posture unit (R96 to R98). -/
theorem lidMotion_references (x y z : Word16) {s : State} (hstore : s.store.state ≠ .starting) :
    let new := ¬ Continues s s.posture.lidRun x.toInt y.toInt z.toInt
    let t := lidMotionMade x y z false s
    ∃ lid, t.posture.lidRun = some lid ∧ RunTaken s s.posture.lidRun x.toInt y.toInt z.toInt lid ∧
      (t.orient.candidate = s.orient.candidate → Evaluates s t) ∧ (s.posture.baseRun = none → ReferenceStays s new t) ∧
      (∀ base, s.posture.baseRun = some base →
        (¬ CheckDue s new lid base → ReferenceStays s new t) ∧ (CheckDue s new lid base → GravityReferenced s lid base t)) := by
  intro new t
  obtain ⟨hcount, hunit⟩ := lidMotion_follows x y z hstore
  obtain ⟨htaken, hnew⟩ := takeSample_taken (lidArrived s) s.posture.lidRun x.toInt y.toInt z.toInt
  have hv := postureLidSample_eq x y z (lidArrived s)
  have hrecord : (lidArrived s).posture = s.posture := rfl
  rw [hrecord] at hv
  generalize takeSample s.posture.lidRun (lidArrived s).now x.toInt y.toInt z.toInt = r at htaken hnew hv
  obtain ⟨lid, fresh⟩ := r
  rw [hv] at hcount hunit
  have ht : lidMotionMade x y z false s = t := rfl
  rw [ht] at hcount hunit
  clear_value t
  obtain ⟨hrun, _, hfollows, hkeeps⟩ := gravityCheck_sampled true fresh (lidArrived s) (some lid) s.posture.baseRun
  refine ⟨lid, hcount.lidRun.trans hrun, htaken, fun hsame => evaluates_of hfollows hkeeps (hunit hsame), fun hnone => ?_, fun base hbase => ?_⟩
  · rw [gravityCheck_alone true fresh (lidArrived s) (.inr hnone)] at hcount
    exact referenceStays_kept (sampled_stays (some lid) s.posture.baseRun fresh (lidArrived s) hnew) hcount
  · obtain ⟨hnot, hmade⟩ := gravityCheck_both true fresh (lidArrived s) lid base hnew
    rw [hbase] at hcount
    refine ⟨fun h => ?_, fun h => gravityReferenced_kept (hmade h) hcount⟩
    rw [hnot h] at hcount
    exact referenceStays_kept (sampled_stays (some lid) (some base) fresh (lidArrived s) hnew) hcount

/-! ## The base's sample at the route engine -/

/-- The link's timers and its run apart, an undamaged frame of base traffic changes nothing before the route engine (R56). -/
theorem trafficHeard_link (damaged : Bool) (s : State) :
    ∃ l, trafficHeard damaged s = { s with link := l } ∧ l.state = s.link.state := by
  unfold trafficHeard
  dsimp only
  split
  · exact ⟨_, rfl, rfl⟩
  · exact ⟨_, rfl, rfl⟩
  · exact ⟨s.link, rfl, rfl⟩

/-- The state that the posture unit's tap of a base sample sees, with the link as it is then. -/
def baseArrived (l : Link) (s : State) : State := countReceived .baseMotion { s with link := l }

theorem checkDue_arrived {l : Link} {s : State} (hl : l.state = s.link.state) (new : Prop) (this other : Run) :
    CheckDue (baseArrived l s) new this other ↔ CheckDue s new this other := by
  have hstate : (baseArrived l s).link.state = s.link.state := hl
  unfold CheckDue
  rw [hstate]
  rfl

section
variable (x1 x0 y1 y0 z1 z0 : Byte) {s : State}

/-- The base's sample arrives and reaches the tap (R22, R56, R58). -/
theorem exec_baseMotion (hheld : s.held = false) (hstore : s.store.state ≠ .starting)
    (hup : s.link.state = .ready ∨ s.link.state = .quiet ∧ 0x12#8 ∈ s.att.ident.wakeKinds) :
    let payload := [x1, x0, y1, y0, z1, z0]
    ∃ l, l.state = s.link.state ∧
      exec (.baseTrafficFrame 0x12#8 payload (crc8 (0x12#8 :: 6#8 :: payload))) s =
        .next (finish (decideFrame .baseMotion 0x12#8 payload false
          (drainEvents (postureBaseSample (x1 ++ x0).toInt (y1 ++ y0).toInt (z1 ++ z0).toInt (baseArrived l s))))) := by
  intro payload
  obtain ⟨l, hheard, hl⟩ := trafficHeard_link false s
  refine ⟨l, hl, ?_⟩
  have hd : isDamaged 0x12#8 payload (crc8 (0x12#8 :: 6#8 :: payload)) = false := isDamaged_crc8 0x12#8 payload
  have hreach : s.link.state = .identifying ∨ s.link.state = .ready ∨
      (s.link.state = .quiet ∧ 0x12#8 ∈ s.att.ident.wakeKinds ∧ false = false) :=
    .inr (hup.imp_right fun h => ⟨h.1, h.2, rfl⟩)
  refine exec_traffic_routed hheld hd hreach nofun ?_
  rw [hheard, routeFrame_eq, if_neg hstore, if_neg (by simp [payload])]
  rfl

end

theorem baseMotion_references (x y z : Int) (kind : Byte) (payload : List Byte) {l : Link} {m : Mount} {s : State}
    (hevents : s.policy.events = []) (hl : l.state = s.link.state)
    (hup : s.link.state = .ready ∨ s.link.state = .quiet) (hmount : s.att.ident.mount = some m) :
    let c := corrected m x y z
    let new := ¬ Continues s s.posture.baseRun c.1 c.2.1 c.2.2
    let t := decideFrame .baseMotion kind payload false (drainEvents (postureBaseSample x y z (baseArrived l s)))
    ∃ base, RunTaken s s.posture.baseRun c.1 c.2.1 c.2.2 base ∧ Evaluates s t ∧
      (s.posture.lidRun = none → t.posture.baseRun = some base ∧ ReferenceStays s new t) ∧
      (∀ lid, s.posture.lidRun = some lid →
        (¬ CheckDue s new base lid → t.posture.baseRun = some base ∧ ReferenceStays s new t) ∧
        (CheckDue s new base lid → GravityReferenced s lid base t)) := by
  intro c new t
  have hv := postureBaseSample_eq (x := x) (y := y) (z := z) (s := baseArrived l s) hmount (by show l.state = _ ∨ l.state = _; rw [hl]; exact hup)
  obtain ⟨htaken, hnew⟩ := takeSample_taken (baseArrived l s) s.posture.baseRun c.1 c.2.1 c.2.2
  have hrecord : (baseArrived l s).posture = s.posture := rfl
  rw [hrecord] at hv
  obtain ⟨v, hvdef⟩ : ∃ v, postureBaseSample x y z (baseArrived l s) = v := ⟨_, rfl⟩
  have ht : t = decideFrame .baseMotion kind payload false (drainEvents v) := by rw [← hvdef]
  rw [hvdef] at hv
  clear_value t
  change v = gravityCheck false (sampled s.posture.lidRun (some (takeSample s.posture.baseRun (baseArrived l s).now c.1 c.2.1 c.2.2).1)
    (takeSample s.posture.baseRun (baseArrived l s).now c.1 c.2.1 c.2.2).2 (baseArrived l s)) at hv
  generalize takeSample s.posture.baseRun (baseArrived l s).now c.1 c.2.1 c.2.2 = r at htaken hnew hv
  obtain ⟨base, fresh⟩ := r
  have hunit : KeepsUnit t v := by
    rw [ht]
    exact keepsUnit_trans (decideFrame_unit (by decide) _ _ _ _) (drainEvents_unit v)
  have hcount := keepsCount_of_unit hunit
  obtain ⟨_, _, hfollows, hkeeps⟩ := gravityCheck_sampled false fresh (baseArrived l s) s.posture.lidRun (some base)
  have hstays (h : v = sampled s.posture.lidRun (some base) fresh (baseArrived l s)) : t.posture.baseRun = some base ∧ ReferenceStays s new t := by
    have hquiet : drainEvents v = v := drainEvents_none v (by rw [h]; exact hevents)
    refine ⟨?_, referenceStays_kept (by rw [h]; exact sampled_stays s.posture.lidRun (some base) fresh (baseArrived l s) hnew) hcount⟩
    rw [ht, hquiet, h]
    simp [sampled]
  rw [← hv] at hfollows hkeeps
  refine ⟨base, htaken, evaluates_of hfollows hkeeps hunit, fun hnone => ?_, fun lid hlid => ?_⟩
  · exact hstays (hv.trans (gravityCheck_alone false fresh (baseArrived l s) (.inl hnone)))
  · obtain ⟨hnot, hmade⟩ := gravityCheck_both false fresh (baseArrived l s) lid base hnew
    rw [hlid] at hv
    refine ⟨fun h => hstays ?_, fun h => ?_⟩
    · rw [hlid]
      exact hv.trans (hnot (mt (checkDue_arrived hl _ base lid).mp h))
    · rw [hv] at hcount
      exact gravityReferenced_kept (hmade ((checkDue_arrived hl _ base lid).mpr h)) hcount

end Machine
end Sys2Proof
/-! PROOFS. Every reference of the hinge. -/
namespace Sys2Proof
open Machine

/-- Settles O44. -/
theorem switchesReferenceTheHinge : Obligations.SwitchesReferenceTheHinge := by
  intro s hrun slipped' changed slipTold postureStays
  have hexec {c : Instr} {t : State} (hc : c ≠ .resetLineAsserted) (h : effect c s = t) : exec c s = .next (finish t) :=
    exec_of_effect hrun.1 hc h
  have hasserts {t : State} (h : lidAsserts s = t) : exec .lidSwitchAssert s = .next (finish t) :=
    hexec (by exact fun hc => Instr.noConfusion hc) h
  have hreleases {t : State} (h : lidReleases s = t) : exec .lidSwitchRelease s = .next (finish t) :=
    hexec (by exact fun hc => Instr.noConfusion hc) h
  have hflats {t : State} (h : foldFlatAsserts s = t) : exec .foldFlatAssert s = .next (finish t) :=
    hexec (by exact fun hc => Instr.noConfusion hc) h
  refine ⟨fun h => hasserts (if_pos h), fun h => hreleases (if_pos (by simp [h])), fun h => hflats (if_pos h),
    fun hatt hlid => hasserts ?_, fun hatt hlid => hreleases ?_, fun hnot hflat => hflats ?_,
    hexec (by exact fun hc => Instr.noConfusion hc) rfl,
    fun hatt hlid => ⟨_, hasserts rfl, lidAsserts_facts hatt hlid hrun.2⟩,
    fun hatt hlid => ⟨_, hreleases rfl, lidReleases_facts hatt hlid hrun.2⟩,
    fun hatt hlid hflat => ⟨_, hflats rfl, ?flat⟩, ?gravity, fun lid base k j hk hj => gravityCount_axes lid base k j hk hj⟩
  · simp [lidAsserts, hlid, hatt]
  · simp [lidReleases, hlid, hatt]
  · rw [foldFlatAsserts, if_neg (by simp [hflat])]
    rcases hnot with h | h <;> exact if_neg (by simp [h])
  case flat =>
    obtain ⟨hpins, hcount, hsource, hslips, hslip, hmoving, hopened, hwindows, horient, hpresent, htold⟩ :=
      foldFlatAsserts_facts hatt hlid hflat hrun.2
    obtain ⟨hfollows, hkeeps⟩ := foldFlatAsserts_follows s hatt hlid hflat
    refine ⟨hpins, hcount, hsource, hslips, hslip, hmoving, hopened, hwindows, horient, hpresent, htold, hfollows, fun h => ?_⟩
    obtain ⟨hposture, hwindow, hprevious, hnotice⟩ := hkeeps h
    exact ⟨hposture, hwindow, hprevious, hnotice.1⟩
  case gravity =>
    intro within continues taken usable due stays referenced evaluates
    refine ⟨fun x y z hstore => ?lid, fun x1 x0 y1 y0 z1 z0 m hstore hup hmount => ?base⟩
    case lid =>
      intro new
      obtain ⟨lid, hlid, htaken, hevaluates, halone, hboth⟩ := lidMotion_references x y z hstore
      exact ⟨_, lid, hexec (by exact fun hc => Instr.noConfusion hc) rfl, hlid, htaken, hevaluates, halone, hboth⟩
    case base =>
      intro x y z axes sign cx cy cz new payload
      obtain ⟨l, hl, hexecuted⟩ := exec_baseMotion x1 x0 y1 y0 z1 z0 hrun.1 hstore hup
      have hc : corrected m x y z = (cx, cy, cz) := by
        have hsigned : corrected m x y z =
            (if m.signs / 2 ^ 0 % 2 = 1 then -axes.1 else axes.1, if m.signs / 2 ^ 1 % 2 = 1 then -axes.2.1 else axes.2.1,
              if m.signs / 2 ^ 2 % 2 = 1 then -axes.2.2 else axes.2.2) := rfl
        rw [hsigned, sign_testBit, sign_testBit, sign_testBit]
      have hreferences := baseMotion_references x y z 0x12#8 payload hrun.2 hl (hup.imp_right And.left) hmount
      rw [hc] at hreferences
      obtain ⟨base, htaken, hevaluates, halone, hboth⟩ := hreferences
      exact ⟨_, base, hexecuted, htaken, hevaluates, halone, hboth⟩
end Sys2Proof

/-! PROOFS. The orientation unit: samples and the candidate. -/
namespace Sys2Proof
open Machine

namespace Machine

/-! ## The candidate after a sample (R112, R113) -/

/-- The orientation that an angle's sample lies nearest to (R113). -/
def nearestOrientation (x y : Int) : Orientation :=
  if x.natAbs < y.natAbs ∨ x = -y then
    if 0 < y then .landscapeInverted else .landscape
  else if 0 < x then .portrait else .portraitInverted

/-- The half angle lies in an orientation's widened range (R113). -/
def Widened (o : Orientation) (half : Nat) : Prop :=
  match o with
  | .landscapeInverted => half ≤ 27 ∨ 153 ≤ half
  | .portrait => 18 ≤ half ∧ half ≤ 72
  | .landscape => 63 ≤ half ∧ half ≤ 117
  | .portraitInverted => 108 ≤ half ∧ half ≤ 162

theorem inWidened_iff (o : Orientation) (half : Nat) : inWidened o half = true ↔ Widened o half := by
  cases o <;> simp [inWidened, Widened]

/-- A quadrant lies in its own widened range. -/
theorem widened_quadrant (half : Nat) : Widened (quadrant half) half := by
  unfold quadrant
  split
  · show half ≤ 27 ∨ 153 ≤ half
    omega
  split
  · show 18 ≤ half ∧ half ≤ 72
    omega
  split
  · show 63 ≤ half ∧ half ≤ 117
    omega
  · show 108 ≤ half ∧ half ≤ 162
    omega

section
variable {o : Orientation} {x y z : Int}

theorem candidateAfter_kept (h : 850 < z.natAbs ∨ x.natAbs < 200 ∧ y.natAbs < 200) : candidateAfter o x y z = o := by
  unfold candidateAfter isFlat hasDirection
  rcases h with h | ⟨hx, hy⟩
  · rw [if_pos (decide_eq_true h)]
  · split
    · rfl
    · rw [if_pos (by simp [hx, hy])]

theorem candidateAfter_directed (hz : z.natAbs ≤ 850) (hxy : 200 ≤ x.natAbs ∨ 200 ≤ y.natAbs) :
    candidateAfter o x y z = if inWidened o (halfAngle y x) = true then o else quadrant (halfAngle y x) := by
  unfold candidateAfter isFlat hasDirection
  rw [if_neg (by simpa using hz), if_neg (by simp; omega)]

theorem candidateAfter_widened (hz : z.natAbs ≤ 850) (hxy : 200 ≤ x.natAbs ∨ 200 ≤ y.natAbs) (h : Widened o (halfAngle y x)) :
    candidateAfter o x y z = o := by
  rw [candidateAfter_directed hz hxy, if_pos ((inWidened_iff _ _).mpr h)]

theorem quadrant_nearest (hxy : 200 ≤ x.natAbs ∨ 200 ≤ y.natAbs) : quadrant (halfAngle y x) = nearestOrientation x y :=
  quadrant_of x y (by omega)

/-- Beyond its widened range the candidate is another (R113). -/
theorem candidateAfter_beyond (hz : z.natAbs ≤ 850) (hxy : 200 ≤ x.natAbs ∨ 200 ≤ y.natAbs) (h : ¬ Widened o (halfAngle y x)) :
    candidateAfter o x y z = nearestOrientation x y ∧ nearestOrientation x y ≠ o := by
  rw [candidateAfter_directed hz hxy, if_neg (mt (inWidened_iff _ _).mp h), quadrant_nearest hxy]
  refine ⟨rfl, fun hsame => h ?_⟩
  rw [← hsame, ← quadrant_nearest hxy]
  exact widened_quadrant _

theorem candidateAfter_axis (hz : z.natAbs ≤ 850) (haxis : x = 0 ∧ 200 ≤ y.natAbs ∨ y = 0 ∧ 200 ≤ x.natAbs) :
    candidateAfter o x y z = nearestOrientation x y := by
  have hxy : 200 ≤ x.natAbs ∨ 200 ≤ y.natAbs := haxis.elim (fun h => .inr h.2) fun h => .inl h.2
  rw [candidateAfter_directed hz hxy, ← quadrant_nearest hxy]
  split
  · exact quadrant_axis x y haxis o ‹_›
  · rfl

end

/-! ## A sample in the orientation unit (R111, R114) -/

theorem orientSample_orient (x y z : Word16) (s : State) :
    let o := (orientSample x y z s).orient
    let c := candidateAfter s.orient.candidate x.toInt y.toInt z.toInt
    o.sample = some (x, y, z) ∧ o.flat = decide (850 < z.toInt.natAbs) ∧ o.candidate = c ∧
      (c = s.orient.candidate → o.stable = s.orient.stable) ∧ (c ≠ s.orient.candidate → o.stable = 0) := by
  intro o c
  have ho : o = (setCandidate c { s with orient := { s.orient with sample := some (x, y, z), flat := isFlat z.toInt } }).orient := rfl
  have hcases : o = if c = s.orient.candidate then { s.orient with sample := some (x, y, z), flat := isFlat z.toInt }
      else { s.orient with sample := some (x, y, z), flat := isFlat z.toInt, candidate := c, stable := 0, dwellDue := false } := by
    rw [ho]
    unfold setCandidate
    dsimp only
    split
    · rfl
    · split <;> simp
  rw [hcases]
  by_cases h : c = s.orient.candidate
  · rw [if_pos h]
    exact ⟨rfl, rfl, h.symm, fun _ => rfl, fun hnew => absurd h hnew⟩
  · rw [if_neg h]
    exact ⟨rfl, rfl, rfl, fun hsame => absurd hsame h, fun _ => rfl⟩

/-- A sample's record in the orientation unit, and the lid's frames counted. -/
structure KeepsSample (t s : State) : Prop where
  sample : t.orient.sample = s.orient.sample
  flat : t.orient.flat = s.orient.flat
  candidate : t.orient.candidate = s.orient.candidate
  stable : t.orient.stable = s.orient.stable
  received : t.route.ingress.lidMotion.received = s.route.ingress.lidMotion.received

theorem keepsSample_trans {a b c : State} (h : KeepsSample a b) (k : KeepsSample b c) : KeepsSample a c where
  sample := h.sample.trans k.sample
  flat := h.flat.trans k.flat
  candidate := h.candidate.trans k.candidate
  stable := h.stable.trans k.stable
  received := h.received.trans k.received

theorem drainEvents_sample (s : State) : KeepsSample (drainEvents s) s where
  sample := by simp
  flat := by simp
  candidate := by simp
  stable := by simp
  received := by simp

theorem decideFrame_sample (kind : Byte) (payload : List Byte) (damaged : Bool) (s : State) :
    KeepsSample (decideFrame .lidMotion kind payload damaged s) s where
  sample := by simp
  flat := by simp
  candidate := by simp
  stable := by simp
  received := decideFrame_received kind payload damaged s

/-! ## A lid sample in both units (R110, R114) -/

section
variable (x y z : Word16) {s : State} (hstore : s.store.state ≠ .starting)
include hstore

/-- What a good lid sample leaves in the orientation unit (R110, R111). -/
theorem lidMotion_orients :
    let t := lidMotionMade x y z false s
    let c := candidateAfter s.orient.candidate x.toInt y.toInt z.toInt
    t.orient.sample = some (x, y, z) ∧ t.orient.flat = decide (850 < z.toInt.natAbs) ∧ t.orient.candidate = c ∧
      (c = s.orient.candidate → t.orient.stable = s.orient.stable) ∧ (c ≠ s.orient.candidate → t.orient.stable = 0) ∧
      t.poller = { s.poller with reading := false } ∧
      t.route.ingress.lidMotion.received = s.route.ingress.lidMotion.received + 1#16 := by
  intro t c
  have ht : t = _ := lidMotionMade_good x y z hstore
  have hpoller : t.poller = { s.poller with reading := false } := by
    show (lidMotionMade x y z false s).poller = _
    simp [lidMotionMade]
  clear_value t
  have hsampled := orientSample_orient x y z (drainEvents (postureLidSample x.toInt y.toInt z.toInt (lidArrived s)))
  have hreceived : (lidArrived s).route.ingress.lidMotion.received = s.route.ingress.lidMotion.received + 1#16 := rfl
  have hbefore : KeepsSample (postureLidSample x.toInt y.toInt z.toInt (lidArrived s)) (lidArrived s) :=
    ⟨by simp, by simp, by simp, by simp, by simp⟩
  have horient : (lidArrived s).orient = s.orient := rfl
  generalize lidArrived s = w at *
  have hfirst := keepsSample_trans (drainEvents_sample (postureLidSample x.toInt y.toInt z.toInt w)) hbefore
  generalize drainEvents (postureLidSample x.toInt y.toInt z.toInt w) = a at *
  have hroute : (orientSample x y z a).route = a.route := by simp
  generalize orientSample x y z a = b at *
  have hlast := keepsSample_trans (decideFrame_sample 0x01#8 (encWord x ++ encWord y ++ encWord z) false (drainEvents b)) (drainEvents_sample b)
  rw [← ht] at hlast
  have hcandidate : a.orient.candidate = s.orient.candidate := hfirst.candidate.trans (congrArg (·.candidate) horient)
  have hstable : a.orient.stable = s.orient.stable := hfirst.stable.trans (congrArg (·.stable) horient)
  rw [hcandidate, hstable] at hsampled
  obtain ⟨hsample, hflat, hnow, hkept, hnew⟩ := hsampled
  exact ⟨hlast.sample.trans hsample, hlast.flat.trans hflat, hlast.candidate.trans hnow, fun h => hlast.stable.trans (hkept h),
    fun h => hlast.stable.trans (hnew h), hpoller,
    hlast.received.trans ((congrArg (·.ingress.lidMotion.received) hroute).trans (hfirst.received.trans hreceived))⟩

/-- With no base run no gravity check is made, and the posture follows the candidate alone (R102, R114). -/
theorem lidMotion_evaluates (hevents : s.policy.events = []) (hbase : s.posture.baseRun = none) :
    let t := lidMotionMade x y z false s
    (s.posture.moving = false → t.orient.candidate ≠ s.orient.candidate → PostureFollows s t) ∧
      (s.posture.moving = true ∨ t.orient.candidate = s.orient.candidate →
        t.posture.posture = s.posture.posture ∧ t.posture.window = s.posture.window ∧
        t.posture.previous = s.posture.previous ∧ t.mgmt.notices.posture = s.mgmt.notices.posture) := by
  intro t
  have ht : t = _ := lidMotionMade_good x y z hstore
  clear_value t
  obtain ⟨l, fresh, hv⟩ : ∃ l fresh, postureLidSample x.toInt y.toInt z.toInt (lidArrived s) = sampled l none fresh (lidArrived s) := by
    have hsampled := postureLidSample_eq x y z (lidArrived s)
    have hnone : (lidArrived s).posture.baseRun = none := hbase
    rw [hnone, gravityCheck_alone true _ (lidArrived s) (.inr rfl)] at hsampled
    exact ⟨_, _, hsampled⟩
  have hquiet : drainEvents (sampled l none fresh (lidArrived s)) = sampled l none fresh (lidArrived s) :=
    drainEvents_none _ hevents
  rw [hv, hquiet] at ht
  obtain ⟨hfollows, hstays⟩ := orientSample_follows x y z (sampled l none fresh (lidArrived s))
  generalize hb : orientSample x y z (sampled l none fresh (lidArrived s)) = b at *
  have hunit : KeepsUnit t b := by
    rw [ht]
    exact keepsUnit_trans (decideFrame_unit (by decide) _ _ _ _) (drainEvents_unit b)
  refine ⟨fun hmoving hnew => ?_, fun h => ?_⟩
  · rw [hunit.candidate] at hnew
    exact postureFollows_kept (hfollows hmoving hnew).1 hunit
  · rw [hunit.candidate] at h
    obtain ⟨hposture, hmgmt, _⟩ := hstays h
    have hkeeps : KeepsPosture b s :=
      ⟨congrArg (·.posture) hposture, congrArg (·.window) hposture, congrArg (·.previous) hposture, keepsNotice_of hmgmt⟩
    obtain ⟨hsame, hwindow, hprevious, hnotice⟩ := keepsPosture_of_unit hkeeps hunit
    exact ⟨hsame, hwindow, hprevious, hnotice.1⟩

/-- A bus error counts the lid's frame and leaves both units (R110). -/
theorem lidMotion_busError :
    let t := lidMotionMade x y z true s
    t.orient = s.orient ∧ t.posture = s.posture ∧ t.poller = { s.poller with reading := false } ∧
      t.route.ingress.lidMotion.received = s.route.ingress.lidMotion.received + 1#16 := by
  intro t
  have ht : t = decideFrame .lidMotion 0x01#8 (List.replicate 6 0#8) true (lidArrived s) := by
    have hroute : t = routeFrame .lidMotion 0x01#8 (List.replicate 6 0#8) true { s with poller := { s.poller with reading := false } } := rfl
    rw [hroute, routeFrame_eq, if_neg hstore, if_neg (by decide)]
    rfl
  clear_value t
  subst ht
  obtain ⟨_, ⟨_, _, _, hpoller⟩, _, ⟨hposture, horient⟩, _⟩ := decideFrame_frame .lidMotion 0x01#8 (List.replicate 6 0#8) true (lidArrived s)
  exact ⟨horient, hposture, hpoller, (decideFrame_received _ _ _ _).trans rfl⟩

end

/-! ## The dwell (R115) -/

theorem dwellReached_eq (s : State) :
    let u := { s with orient := { s.orient with stable := max s.orient.stable (10 * s.orient.dwell), dwellDue := false } }
    dwellReached s = if s.orient.candidate ≠ s.orient.current ∧ s.orient.lock = none then takeCandidate u else u := by
  intro u
  have hmet : dwellMet u = true := decide_eq_true (le_max_right _ _)
  show (if dwellMet u ∧ s.orient.candidate ≠ s.orient.current ∧ s.orient.lock = none then takeCandidate u else u) = _
  rw [hmet]
  simp only [true_and]

end Machine

/-- Settles O45. -/
theorem samplesChooseTheCandidate : Obligations.SamplesChooseTheCandidate := by
  intro s hrun length
  have hexec {c : Instr} {t : State} (hc : c ≠ .resetLineAsserted) (h : effect c s = t) : exec c s = .next (finish t) :=
    exec_of_effect hrun.1 hc h
  refine ⟨fun hperiod => ?period, fun x y z hstore => ?busError, fun x y z hstore => ?sample, fun x y z => ?follows, fun hstore => ?dwell⟩
  case period =>
    have hlength : startMs (periodMs s.poller.rate) = some length := by
      show _ = some (match s.poller.rate with | .hz12 => 800 | .hz25 => 400 | .hz50 => 200 | .hz100 => 100)
      cases s.poller.rate <;> rfl
    rw [← hlength]
    exact hexec (by exact fun hc => Instr.noConfusion hc) (if_pos hperiod)
  case busError => exact ⟨_, hexec (by exact fun hc => Instr.noConfusion hc) rfl, lidMotion_busError x y z hstore⟩
  case sample =>
    intro quadrant
    obtain ⟨hsample, hflat, hcandidate, hkept, hnew, hpoller, hreceived⟩ := lidMotion_orients x y z hstore
    have hstays {c : Orientation} (h : candidateAfter s.orient.candidate x.toInt y.toInt z.toInt = c) (hc : c = s.orient.candidate) :
        (lidMotionMade x y z false s).orient.candidate = s.orient.candidate ∧
          (lidMotionMade x y z false s).orient.stable = s.orient.stable :=
      ⟨(hcandidate.trans h).trans hc, hkept (h.trans hc)⟩
    refine ⟨_, hexec (by exact fun hc => Instr.noConfusion hc) rfl, hsample, hflat, hpoller, hreceived,
      fun h => hstays (candidateAfter_kept h) rfl, fun hz hxy => ?_, fun hz haxis => hcandidate.trans (candidateAfter_axis hz haxis),
      lidMotion_evaluates x y z hstore hrun.2⟩
    intro half widened
    have hwidened : Widened s.orient.candidate half ↔ widened := by
      show _ ↔ match s.orient.candidate with
        | .landscapeInverted => half ≤ 27 ∨ 153 ≤ half
        | .portrait => 18 ≤ half ∧ half ≤ 72
        | .landscape => 63 ≤ half ∧ half ≤ 117
        | .portraitInverted => 108 ≤ half ∧ half ≤ 162
      cases s.orient.candidate <;> rfl
    refine ⟨fun h => hstays (candidateAfter_widened hz hxy (hwidened.mpr h)) rfl, fun h => ?_⟩
    obtain ⟨hnearest, hother⟩ := candidateAfter_beyond hz hxy (mt hwidened.mp h)
    exact ⟨hcandidate.trans hnearest, hnew (by rw [hnearest]; exact hother), hother⟩
  case follows =>
    intro u
    obtain ⟨hfollows, hstays⟩ := orientSample_follows x y z s
    rw [hrun.2] at hfollows
    exact ⟨hfollows, hstays⟩
  case dwell =>
    intro u
    have heffect : effect .dwellReached s = dwellReached s := if_neg hstore
    refine ⟨fun h => hexec (by exact fun hc => Instr.noConfusion hc) ?_, fun hnew hlock => hexec (by exact fun hc => Instr.noConfusion hc) ?_⟩
    · rw [heffect, dwellReached_eq, if_neg]
      rintro ⟨hnew, hlock⟩
      rcases h with h | h
      · exact hnew h
      · rw [hlock] at h
        exact Bool.false_ne_true h
    · rw [heffect, dwellReached_eq, if_pos ⟨hnew, hlock⟩]
      have hreleased : s.orient.lock.isSome = false := by rw [hlock]; rfl
      show post (.orientation s.orient.candidate s.orient.current s.orient.candidate s.orient.flat s.orient.lock.isSome) _ = _
      rw [hreleased]
end Sys2Proof
/-! PROOFS. The detection of an output's alarm, before its protection. -/
namespace Sys2Proof
open Machine

namespace Machine

/-! ## One cause's record among the alarms -/

theorem PerCause.get_set_same {α : Type} (p : PerCause α) (c : Cause) (a : α) : (p.set c a).get c = a := by
  cases c <;> rfl

theorem changeAlarm_get (c : Cause) (f : Alarm → Alarm) (s : State) :
    (changeAlarm c f s).guard.alarms.get c = f (s.guard.alarms.get c) := PerCause.get_set_same ..

theorem changeAlarm_changeAlarm (c : Cause) (f g : Alarm → Alarm) (s : State) :
    changeAlarm c g (changeAlarm c f s) = changeAlarm c (fun a => g (f a)) s := by
  cases c <;> rfl

theorem anyDetected_of {a : PerCause Alarm} {c : Cause} (h : (a.get c).detected = true) : anyDetected a = true := by
  unfold anyDetected
  cases c <;> (simp only [PerCause.get] at h; simp [h])

/-! ## A detection told (R136) -/

/-- The cause's record once it is detected. -/
def detectedAlarm (a : Alarm) : Alarm := { a with detected := true, sticky := true, filter := none }

/-- A detection told, its protection still to come (R136). -/
def detectionTold (c : OutCause) (p : Protection) (g : AlarmGrant) (s : State) : State :=
  tellAlarm (causeOf c) p g (reportAlarm (changeAlarm (causeOf c) detectedAlarm s))

theorem becomesDetected_eq (c : OutCause) (s : State) :
    becomesDetected c s = applyProtection c (protectionFor c s) (detectionTold c (protectionFor c s) (grantOf c s) s) := rfl

theorem filterExpires_eq {c : OutCause} {s : State} (h : (s.guard.alarms.get (causeOf c)).filter.isSome = true) :
    filterExpires c s = applyProtection c (protectionFor c s) (detectionTold c (protectionFor c s) (grantOf c s) s) :=
  (if_pos h).trans (becomesDetected_eq c s)

/-- A raw condition and a filter running are nothing to the detection that follows them (R135). -/
theorem becomesDetected_filtered (c : OutCause) (raw : Bool) (x : Timer) (s : State) :
    becomesDetected c (changeAlarm (causeOf c) (fun a => { a with raw := raw, filter := x }) s) =
      applyProtection c (protectionFor c s)
        (tellAlarm (causeOf c) (protectionFor c s) (grantOf c s)
          (reportAlarm (changeAlarm (causeOf c) (fun a => { a with raw := raw, detected := true, sticky := true, filter := none }) s))) := by
  have hprotection : protectionFor c (changeAlarm (causeOf c) (fun a => { a with raw := raw, filter := x }) s) = protectionFor c s := by
    cases c <;> rfl
  have hgrant : grantOf c (changeAlarm (causeOf c) (fun a => { a with raw := raw, filter := x }) s) = grantOf c s := by cases c <;> rfl
  rw [becomesDetected_eq, hprotection, hgrant, detectionTold, changeAlarm_changeAlarm]
  rfl

section
variable (c : OutCause) (p : Protection) (g : AlarmGrant) (s : State)

theorem detectionTold_guard : (detectionTold c p g s).guard = (changeAlarm (causeOf c) detectedAlarm s).guard := by
  simp [detectionTold]

theorem detectionTold_alarm : (detectionTold c p g s).guard.alarms.get (causeOf c) = detectedAlarm (s.guard.alarms.get (causeOf c)) := by
  rw [detectionTold_guard]
  exact changeAlarm_get ..

theorem detectionTold_input : (detectionTold c p g s).policy.inputs.alarm = true := by
  have hinputs : (detectionTold c p g s).policy.inputs.alarm = anyDetected (changeAlarm (causeOf c) detectedAlarm s).guard.alarms := by
    unfold detectionTold tellAlarm
    split
    · rfl
    · show (post _ _).policy.inputs.alarm = _
      rw [(post_frame _ _).2.2.2.2.2.2.1]
      rfl
  rw [hinputs]
  exact anyDetected_of (by rw [changeAlarm_get]; rfl)

theorem detectionTold_events : (detectionTold c p g s).policy.events = s.policy.events ++ [.supplyAlarm (causeOf c)] := by
  unfold detectionTold tellAlarm
  split
  · rfl
  · show (post _ _).policy.events ++ _ = _
    rw [(post_frame _ _).2.2.2.2.2.2.1]
    rfl

theorem detectionTold_notice (k : NoticeKind) (h : k ≠ .alarm) : KeepsNotice k (detectionTold c p g s) s :=
  keepsNotice_trans (tellAlarm_notice k _ _ _ _ h) (keepsNotice_of (by simp))

/-- Unless masked the detection is pending (R136). -/
theorem detectionTold_posts (hmask : (s.guard.alarms.get (causeOf c)).mask = false) (henabled : s.mgmt.enables.alarm = true) :
    ∃ q, (detectionTold c p g s).mgmt.notices.alarm = some q ∧ q.notice = .alarm (causeOf c) p g := by
  have hunmasked : (alarmOf (causeOf c) (reportAlarm (changeAlarm (causeOf c) detectedAlarm s))).mask = false := by
    have hguard : (reportAlarm (changeAlarm (causeOf c) detectedAlarm s)).guard = (changeAlarm (causeOf c) detectedAlarm s).guard := by simp
    rw [alarmOf, hguard, changeAlarm_get]
    exact hmask
  have hmgmt : (reportAlarm (changeAlarm (causeOf c) detectedAlarm s)).mgmt = s.mgmt := by simp
  unfold detectionTold tellAlarm
  rw [hunmasked, if_neg Bool.false_ne_true]
  exact post_pending (.alarm (causeOf c) p g) (reportAlarm (changeAlarm (causeOf c) detectedAlarm s)) (by rw [hmgmt]; exact henabled)

/-- A detection told leaves the blocks beside the guard. -/
theorem detectionTold_aside :
    let t := detectionTold c p g s
    t.link = s.link ∧ t.att = s.att ∧ t.issuer = s.issuer ∧ t.pool = s.pool ∧ t.route = s.route ∧ t.pen = s.pen := by
  simp [detectionTold]

end

/-- What a detection of a cause tells (R136). -/
def AlarmTold (c : OutCause) (s : State) (p : Protection) (t : State) : Prop :=
  (t.guard.alarms.get (causeOf c)).sticky = true ∧ .supplyAlarm (causeOf c) ∈ t.policy.events ∧
  ((s.guard.alarms.get (causeOf c)).mask = false → s.mgmt.enables.alarm = true →
    ∃ q g, t.mgmt.notices.alarm = some q ∧ q.notice = .alarm (causeOf c) p g)

theorem detectionTold_told (c : OutCause) (p : Protection) (g : AlarmGrant) (s : State) : AlarmTold c s p (detectionTold c p g s) := by
  refine ⟨by rw [detectionTold_alarm]; rfl, by rw [detectionTold_events]; simp, fun hmask henabled => ?_⟩
  obtain ⟨q, hq, hnotice⟩ := detectionTold_posts c p g s hmask henabled
  exact ⟨q, g, hq, hnotice⟩

/-- A protection applied leaves what the detection told. -/
theorem alarmTold_kept {c : OutCause} {s t u : State} {p : Protection} (h : AlarmTold c s p t)
    (hsticky : (u.guard.alarms.get (causeOf c)).sticky = (t.guard.alarms.get (causeOf c)).sticky)
    (hevents : ∀ e ∈ t.policy.events, e ∈ u.policy.events) (hnotice : KeepsNotice .alarm u t) : AlarmTold c s p u := by
  obtain ⟨hmark, hevent, hposted⟩ := h
  refine ⟨hsticky.trans hmark, hevents _ hevent, fun hmask henabled => ?_⟩
  obtain ⟨q, g, hq, hn⟩ := hposted hmask henabled
  have hsame : u.mgmt.notices.alarm = t.mgmt.notices.alarm := hnotice.1
  exact ⟨q, g, hsame.trans hq, hn⟩

end Machine
end Sys2Proof
/-! PROOFS. The protections of the outputs. -/
namespace Sys2Proof
open Machine

namespace Machine

/-! ## A latch of the rail (R62, R137) -/

/-- The cause latched, its outputs switched and its owner not told yet. -/
def latchSwitched (c : OutCause) (u : State) : State :=
  switchOutputs (changeAlarm (causeOf c) (fun a => { a with latch := true, detected := true }) u)

theorem latchSwitched_latched (c : OutCause) (u : State) :
    ((latchSwitched c u).guard.alarms.get (causeOf c)).latch = true ∧ ((latchSwitched c u).guard.alarms.get (causeOf c)).detected = true := by
  refine switchOutputs_latched _ (causeOf c) ?_ ?_ <;> rw [changeAlarm_get]

theorem latchSwitched_sticky (c : OutCause) (u : State) :
    ((latchSwitched c u).guard.alarms.get (causeOf c)).sticky = (u.guard.alarms.get (causeOf c)).sticky := by
  have hkept : KeepsAlarms (latchSwitched c u) (changeAlarm (causeOf c) (fun a => { a with latch := true, detected := true }) u) := by
    simp [latchSwitched, KeepsAlarms, KeepsMarks]
  rw [(keepsAlarms_get hkept (causeOf c)).2, changeAlarm_get]

theorem latchSwitched_notice (k : NoticeKind) (c : OutCause) (u : State) : KeepsNotice k (latchSwitched c u) u :=
  keepsNotice_of (by simp [latchSwitched])

theorem latchSwitched_events (c : OutCause) (u : State) : (latchSwitched c u).policy.events = u.policy.events := by
  simp [latchSwitched, changeAlarm]

section
variable {c : OutCause} (u : State)

/-- A latch of the rail tells its owner: FAULTED, the link ended, the alarm's record and notice as they were (R62, R137). -/
theorem setLatch_rail_facts (hc : c = .railOc ∨ c = .railUv) :
    let t := setLatch c u
    (t.guard.alarms.get (causeOf c)).latch = true ∧ (t.guard.alarms.get (causeOf c)).detected = true ∧
      (t.guard.alarms.get (causeOf c)).sticky = (u.guard.alarms.get (causeOf c)).sticky ∧ KeepsNotice .alarm t u ∧
      t.policy.events = u.policy.events ++ [.baseFault] ∧ LinkEnded .faulted u t ∧ t.att.present = u.att.present ∧
      (u.mgmt.enables.attach = true → ∃ p, t.mgmt.notices.attach = some p ∧ p.notice = .attach .faulted) := by
  intro t
  have ht : t = enterFaulted (latchSwitched c u) := by rcases hc with rfl | rfl <;> rfl
  obtain ⟨hlatch, hdetected⟩ := latchSwitched_latched c u
  have hsticky := latchSwitched_sticky c u
  have hnotice := latchSwitched_notice .alarm c u
  have hattach := latchSwitched_notice .attach c u
  have hevents := latchSwitched_events c u
  have haside : (latchSwitched c u).issuer = u.issuer ∧ (latchSwitched c u).pool = u.pool ∧ (latchSwitched c u).link = u.link ∧
      (latchSwitched c u).route = u.route ∧ (latchSwitched c u).att = u.att := by simp [latchSwitched]
  generalize latchSwitched c u = w at *
  obtain ⟨_, _, _, hkept, _⟩ := enterFaulted_effect w
  obtain ⟨hlatched, hstays⟩ := enterFaulted_latched w (causeOf c) hlatch hdetected
  have hended := enterFaulted_ended w
  have hpresent : (enterFaulted w).att.present = w.att.present := by simp [enterFaulted, flushDown, stopLinkTimers]
  rw [ht]
  exact ⟨hlatched, hstays, (keepsAlarms_get hkept (causeOf c)).2.trans hsticky,
    keepsNotice_trans (enterFaulted_notice .alarm w (by unfold aside; decide)) hnotice,
    (enterFaulted_moving w).2.trans (congrArg (· ++ [PolicyEvent.baseFault]) hevents),
    linkEnded_from hended haside.1 haside.2.1 haside.2.2.1 haside.2.2.2.1 haside.2.2.2.2,
    hpresent.trans (congrArg (·.present) haside.2.2.2.2), fun he => enterFaulted_posts w (by rw [hattach.2]; exact he)⟩

/-- A latch of the coil tells its owner, the alarm's record and notice as they were (R137, R157). -/
theorem setLatch_coil_facts (hc : c = .coilOc ∨ c = .coilUv) :
    let t := setLatch c u
    (t.guard.alarms.get (causeOf c)).detected = true ∧
      (t.guard.alarms.get (causeOf c)).sticky = (u.guard.alarms.get (causeOf c)).sticky ∧ KeepsNotice .alarm t u ∧
      t.policy.events = u.policy.events := by
  intro t
  have ht : t = coilLatchTold (latchSwitched c u) := by rcases hc with rfl | rfl <;> rfl
  obtain ⟨hlatch, hdetected⟩ := latchSwitched_latched c u
  have hsticky := latchSwitched_sticky c u
  have hnotice := latchSwitched_notice .alarm c u
  have hevents := latchSwitched_events c u
  generalize latchSwitched c u = w at *
  have hkept : KeepsAlarms (coilLatchTold w) w := keepsAlarms_of_settings (by simp [KeepsSettings, KeepsMarks])
  have htold : KeepsNotice .alarm (coilLatchTold w) w := by
    unfold coilLatchTold
    split
    · exact keepsNotice_of rfl
    · exact keepsNotice_of rfl
    · exact keepsNotice_of rfl
    · exact goSession_notice .alarm _ _ _ _ (by decide)
  rw [ht]
  exact ⟨(coilLatchTold_latched w (causeOf c) hlatch hdetected).2, (keepsAlarms_get hkept (causeOf c)).2.trans hsticky,
    keepsNotice_trans htold hnotice, (coilLatchTold_events w).trans hevents⟩

end

/-! ## A LIMIT of the coil (R138) -/

/-- The cap and the pen's grant below it written, COIL-OC no longer detected, nothing switched yet. -/
def capWritten (cap : PenLevel) (u : State) : State :=
  let capped : Guard := { u.guard with cap := some cap }
  changeAlarm .coilOc (fun a => { a with detected := false, filter := if a.raw then some (filterLength .coilOc a) else none })
    (postBudget u.guard .limit { u with guard := { capped with penGrant := capped.target.bind (bestFit capped.budget capped.baseGrant) } })

theorem setCap_eq (cap : PenLevel) (u : State) : setCap cap u = penTold u.guard.penGrant (switchOutputs (capWritten cap u)) := rfl

theorem setCap_facts (cap : PenLevel) (u : State) :
    let t := setCap cap u
    t.guard.alarms.coilOc.sticky = u.guard.alarms.coilOc.sticky ∧ KeepsNotice .alarm t u ∧ t.policy.events = u.policy.events := by
  intro t
  have hsettings := penTold_switched_settings u.guard.penGrant (capWritten cap u)
  have hsticky : (capWritten cap u).guard.alarms.coilOc.sticky = u.guard.alarms.coilOc.sticky := by
    simp [capWritten, changeAlarm, PerCause.set, PerCause.get]
  have hnotice : KeepsNotice .alarm (capWritten cap u) u :=
    keepsNotice_trans (keepsNotice_of rfl) (postBudget_notice .alarm u.guard .limit
      { u with guard := { ({ u.guard with cap := some cap } : Guard) with
        penGrant := ({ u.guard with cap := some cap } : Guard).target.bind
          (bestFit ({ u.guard with cap := some cap } : Guard).budget ({ u.guard with cap := some cap } : Guard).baseGrant) } } (by decide))
  have hevents : (capWritten cap u).policy.events = u.policy.events := by simp [capWritten, changeAlarm]
  rw [← setCap_eq] at hsettings
  refine ⟨(keepsAlarms_get (keepsAlarms_of_settings hsettings) .coilOc).2.trans hsticky, ?_, ?_⟩
  · exact keepsNotice_trans (penTold_notice .alarm _ _ (by decide)) (keepsNotice_trans (switchOutputs_notice _ _) hnotice)
  · show (penTold u.guard.penGrant (switchOutputs (capWritten cap u))).policy.events = _
    rw [penTold_events, switchOutputs_events, hevents]

end Machine
end Sys2Proof
/-! PROOFS. Every alarm detected and protected. -/
namespace Sys2Proof
open Machine

namespace Machine

/-! ## The protection of a cause (R137 to R139) -/

section
variable {c : OutCause} {s : State}

theorem protectionFor_disabled (h : (s.guard.alarms.get (causeOf c)).enabled = false) : protectionFor c s = .none :=
  if_neg (by rw [alarmOf, h]; decide)

theorem protectionFor_rail (h : (s.guard.alarms.get (causeOf c)).enabled = true) (hc : c = .railOc ∨ c = .railUv) :
    protectionFor c s = .stop := by
  unfold protectionFor
  rw [alarmOf, if_pos h]
  rcases hc with rfl | rfl <;> rfl

theorem protectionFor_coilStop (h : (s.guard.alarms.get (causeOf c)).enabled = true)
    (hc : c = .coilUv ∨ c = .coilOc ∧ (s.guard.mode = .stop ∨ s.guard.penGrant ∉ [some .fast, some .steady])) :
    protectionFor c s = .stop := by
  unfold protectionFor
  rw [alarmOf, if_pos h]
  rcases hc with rfl | ⟨rfl, hmode | hgrant⟩
  · rfl
  · simp only [hmode]
  · dsimp only
    split
    next hfast => exact absurd (by rw [hfast]; decide) hgrant
    next hsteady => exact absurd (by rw [hsteady]; decide) hgrant
    next => rfl

theorem protectionFor_limit {l cap : PenLevel} (h : (s.guard.alarms.get (causeOf .coilOc)).enabled = true) (hmode : s.guard.mode = .limit)
    (hgrant : s.guard.penGrant = some l) (hl : l = .fast ∧ cap = .steady ∨ l = .steady ∧ cap = .trickle) :
    protectionFor .coilOc s = .limit cap := by
  unfold protectionFor
  rw [alarmOf, if_pos h]
  rcases hl with ⟨rfl, rfl⟩ | ⟨rfl, rfl⟩ <;> simp only [hmode, hgrant]

/-- The expiry of a filter whose cause has its protection found (R136). -/
theorem filterExpires_protected {p : Protection} (hf : (s.guard.alarms.get (causeOf c)).filter.isSome = true) (hp : protectionFor c s = p) :
    filterExpires c s = applyProtection c p (detectionTold c p (grantOf c s) s) := by
  rw [filterExpires_eq hf, hp]

end

section
variable {c : OutCause} {s : State} (hf : (s.guard.alarms.get (causeOf c)).filter.isSome = true)
  (henabled : (s.guard.alarms.get (causeOf c)).enabled = true)
include hf henabled

/-- A detection of the rail with its protection (R62, R136, R137). -/
theorem filterExpires_rail (hc : c = .railOc ∨ c = .railUv) (hevents : s.policy.events = []) :
    let t := filterExpires c s
    AlarmTold c s .stop t ∧ (t.guard.alarms.get (causeOf c)).latch = true ∧ (t.guard.alarms.get (causeOf c)).detected = true ∧
      t.guard.railOn = false ∧ t.link.state = .faulted ∧ t.guard.baseGrant = 0 ∧ LinkEnded .faulted s t ∧ t.att.present = s.att.present ∧
      t.policy.events = [.supplyAlarm (causeOf c), .baseFault] ∧
      (s.mgmt.enables.attach = true → ∃ p, t.mgmt.notices.attach = some p ∧ p.notice = .attach .faulted) := by
  intro t
  have ht : t = setLatch c (detectionTold c .stop (grantOf c s) s) := filterExpires_protected hf (protectionFor_rail henabled hc)
  have htold := detectionTold_told c .stop (grantOf c s) s
  have hbefore := detectionTold_events c .stop (grantOf c s) s
  have hattach := detectionTold_notice c .stop (grantOf c s) s .attach (by decide)
  obtain ⟨hlink, hatt, hissuer, hpool, hroute, _⟩ := detectionTold_aside c .stop (grantOf c s) s
  generalize detectionTold c .stop (grantOf c s) s = u at *
  obtain ⟨hfaulted, hgrant, hrail, _⟩ := setLatch_rail c u hc
  obtain ⟨hlatch, hdetected, hsticky, hnotice, hafter, hended, hpresent, hposts⟩ := setLatch_rail_facts u hc
  rw [hevents] at hbefore
  rw [hbefore] at hafter
  rw [← ht] at *
  refine ⟨alarmTold_kept htold hsticky ?_ hnotice, hlatch, hdetected, hrail, hfaulted, hgrant,
    linkEnded_from hended hissuer hpool hlink hroute hatt, hpresent.trans (congrArg (·.present) hatt), hafter,
    fun he => hposts (by rw [hattach.2]; exact he)⟩
  rw [hafter, hbefore]
  simp

/-- A detection of the coil with its latch (R136, R137, R157). -/
theorem filterExpires_coilStop
    (hc : c = .coilUv ∨ c = .coilOc ∧ (s.guard.mode = .stop ∨ s.guard.penGrant ∉ [some .fast, some .steady]))
    (hs : s.pen.session ∉ [.noPen, .foreign, .fault]) :
    let t := filterExpires c s
    AlarmTold c s .stop t ∧ (t.guard.alarms.get (causeOf c)).latch = true ∧ (t.guard.alarms.get (causeOf c)).detected = true ∧
      t.guard.coilOn = false ∧ t.pen.session = .fault ∧ t.pen.fault = some .coilLatch ∧ t.guard.penGrant = none ∧
      t.guard.claimed = none ∧ t.guard.cap = s.guard.cap := by
  intro t
  have hcoil : c = .coilOc ∨ c = .coilUv := hc.elim .inr fun h => .inl h.1
  have ht : t = setLatch c (detectionTold c .stop (grantOf c s) s) := filterExpires_protected hf (protectionFor_coilStop henabled hc)
  have htold := detectionTold_told c .stop (grantOf c s) s
  have hcap : (detectionTold c .stop (grantOf c s) s).guard.cap = s.guard.cap := by
    rw [detectionTold_guard]
    rfl
  obtain ⟨_, _, _, _, _, hpen⟩ := detectionTold_aside c .stop (grantOf c s) s
  generalize detectionTold c .stop (grantOf c s) s = u at *
  obtain ⟨_, _, hoff, _, hkeptCap, hlatch, _, hfault, hreleased⟩ := setLatch_coil c u hcoil
  obtain ⟨hdetected, hsticky, hnotice, hevents⟩ := setLatch_coil_facts u hcoil
  have hsession : u.pen.session ∉ [.noPen, .foreign, .fault] := by rw [hpen]; exact hs
  have hdrawn : u.pen.session ∉ [.noPen, .foreign] := by
    simp only [List.mem_cons, List.not_mem_nil, or_false, not_or] at hsession ⊢
    exact ⟨hsession.1, hsession.2.1⟩
  rw [← ht] at *
  exact ⟨alarmTold_kept htold hsticky (by rw [hevents]; exact fun _ h => h) hnotice, hlatch, hdetected, hoff, (hfault hdrawn).1,
    (hfault hdrawn).2, (hreleased hsession).2, (hreleased hsession).1, hkeptCap.trans hcap⟩

end

/-- A detection of COIL-OC under LIMIT (R136, R138). -/
theorem filterExpires_coilLimit {s : State} {l cap : PenLevel} (hf : (s.guard.alarms.get .coilOc).filter.isSome = true)
    (henabled : (s.guard.alarms.get .coilOc).enabled = true) (hmode : s.guard.mode = .limit) (hgrant : s.guard.penGrant = some l)
    (hl : l = .fast ∧ cap = .steady ∨ l = .steady ∧ cap = .trickle) (hclaimed : s.guard.claimed = some l)
    (hfits : s.guard.baseGrant + levelMw l ≤ s.guard.budget) (hs : s.pen.session ≠ .paused) :
    let t := filterExpires .coilOc s
    AlarmTold .coilOc s (.limit cap) t ∧ t.guard.alarms.coilOc.latch = s.guard.alarms.coilOc.latch ∧
      t.guard.alarms.coilOc.detected = false ∧ t.guard.cap = some cap ∧ t.guard.penGrant = some cap ∧ t.pen.session = s.pen.session := by
  intro t
  have ht : t = setCap cap (detectionTold .coilOc (.limit cap) (grantOf .coilOc s) s) :=
    filterExpires_protected hf (protectionFor_limit henabled hmode hgrant hl)
  have htold := detectionTold_told .coilOc (.limit cap) (grantOf .coilOc s) s
  have hguard := detectionTold_guard .coilOc (.limit cap) (grantOf .coilOc s) s
  obtain ⟨_, _, _, _, _, hpen⟩ := detectionTold_aside .coilOc (.limit cap) (grantOf .coilOc s) s
  generalize detectionTold .coilOc (.limit cap) (grantOf .coilOc s) s = u at *
  obtain ⟨_, _, _, hcap, hdetected, hlatches, hgranted⟩ := setCap_effect cap u
  obtain ⟨hsticky, hnotice, hevents⟩ := setCap_facts cap u
  have hfit : minLevel l cap = cap ∧ levelMw cap + s.guard.baseGrant ≤ s.guard.budget := by
    rcases hl with ⟨rfl, rfl⟩ | ⟨rfl, rfl⟩ <;> (refine ⟨rfl, ?_⟩; simp only [levelMw] at hfits ⊢; omega)
  obtain ⟨hpenGrant, hsession⟩ := hgranted l (by rw [hguard]; exact hclaimed) hfit.1 (by rw [hpen]; exact hs) (by rw [hguard]; exact hfit.2)
  have hlatch : u.guard.alarms.coilOc.latch = s.guard.alarms.coilOc.latch := by
    rw [hguard]
    rfl
  rw [← ht] at *
  exact ⟨alarmTold_kept htold hsticky (by rw [hevents]; exact fun _ h => h) hnotice, (hlatches .coilOc).trans hlatch, hdetected, hcap,
    hpenGrant, hsession.trans (congrArg (·.session) hpen)⟩

end Machine

/-- Settles O46. -/
theorem alarmsAreDetectedAndProtected : Obligations.AlarmsAreDetectedAndProtected := by
  intro s c hrun a rail on length with_ told
  have hexec {i : Instr} {t : State} (hi : i ≠ .resetLineAsserted) (h : effect i s = t) : exec i s = .next (finish t) :=
    exec_of_effect hrun.1 hi h
  have hexpires {t : State} (h : filterExpires c s = t) : exec (.filterTimerExpiry c) s = .next (finish t) :=
    hexec (by exact fun hi => Instr.noConfusion hi) h
  have happears {t : State} (h : rawAppears c s = t) : exec (.alarmRawAppears c) s = .next (finish t) :=
    hexec (by exact fun hi => Instr.noConfusion hi) h
  have hon : outputOn c s = on := by cases c <;> rfl
  have hlength : filterLength c a = length := by cases c <;> rfl
  have hsensed : (on = true → a.raw = false → (outputOn c s && !(alarmOf (causeOf c) s).raw) = true) := by
    intro hout hraw
    rw [hon, hout]
    simpa [alarmOf] using hraw
  refine ⟨fun h => happears (if_neg ?_), fun hout hraw hlong => happears ?_, fun hout hraw hzero => ?_,
    hexec (by exact fun hi => Instr.noConfusion hi) rfl, fun hf hoff => ?_, fun hf henabled hc => ?_, fun hf henabled hc hs => ?_,
    fun l cap hf henabled hc hmode hgrant hl hclaimed hfits hs => ?_⟩
  · rw [hon]
    rcases h with h | h
    · simp [h]
    · have hraw : (alarmOf (causeOf c) s).raw = true := h
      simp [hraw]
  · have hneg : ¬ filterLength c a = 0 := by omega
    refine (if_pos (hsensed hout hraw)).trans ((if_neg hneg).trans ((changeAlarm_changeAlarm ..).trans ?_))
    show with_ { a with raw := true, filter := some (filterLength c a) } = _
    rw [hlength]
  · let w := with_ { a with raw := true, filter := some 0 }
    have hlate : filterExpires c w = becomesDetected c w := if_pos (by rw [alarmOf]; show ((s.guard.alarms.set _ _).get _).filter.isSome = _; rw [PerCause.get_set_same]; rfl)
    have hnow : rawAppears c s = becomesDetected c (changeAlarm (causeOf c) (fun b => { b with raw := true, filter := a.filter }) s) :=
      (if_pos (hsensed hout hraw)).trans (if_pos (hlength.trans hzero))
    have hsame : rawAppears c s = filterExpires c w := by
      rw [hnow, hlate, becomesDetected_filtered]
      exact (becomesDetected_filtered c true (some 0) s).symm
    have hfilter : exec (.filterTimerExpiry c) w = .next (finish (filterExpires c w)) :=
      exec_of_effect hrun.1 (by exact fun hi => Instr.noConfusion hi) rfl
    exact (happears hsame).trans hfilter.symm
  · have ht := filterExpires_protected hf (protectionFor_disabled hoff)
    exact ⟨_, hexpires ht, detectionTold_told c .none (grantOf c s) s, detectionTold_guard c .none (grantOf c s) s,
      detectionTold_input c .none (grantOf c s) s⟩
  · obtain ⟨htold, hlatch, hdetected, hoff, hfaulted, hgrant, hended, hpresent, hevents, hposts⟩ :=
      filterExpires_rail hf henabled hc hrun.2
    obtain ⟨hpen, hbudget⟩ := (filterExpires_acts c s hf henabled).1 hc
    exact ⟨_, hexpires rfl, htold, hlatch, hdetected, hoff, hfaulted, hgrant, hended, hpresent, hevents, hpen, hbudget, hposts⟩
  · have hdrawn : s.pen.session ∉ [.noPen, .foreign, .fault] := by
      simp only [List.mem_cons, List.not_mem_nil, or_false] at hs
      rcases hs with h | h | h | h <;> (rw [h]; decide)
    obtain ⟨htold, hlatch, hdetected, hoff, hfault, hcause, hgrant, hclaimed, hcap⟩ := filterExpires_coilStop hf henabled hc hdrawn
    obtain ⟨hreleases, hbudget⟩ := (filterExpires_acts c s hf henabled).2.1 hc hdrawn
    exact ⟨_, hexpires rfl, htold, hlatch, hdetected, hoff, hfault, hcause, hgrant, hclaimed, hcap, hreleases, hbudget⟩
  · obtain ⟨hstays, hbudget⟩ := (filterExpires_acts c s hf henabled).2.2 l cap hc hmode hgrant hl hclaimed hfits hs
    have hkept : (filterExpires c s).guard.claimed = some l := hstays.2.1.trans hclaimed
    subst hc
    obtain ⟨htold, hlatch, hdetected, hcap, hgranted, hsession⟩ := filterExpires_coilLimit hf henabled hmode hgrant hl hclaimed hfits hs
    exact ⟨_, hexpires rfl, htold, hlatch, hdetected, hcap, hgranted, hkept, hsession, hstays, hbudget⟩
end Sys2Proof
/-! PROOFS. Over-temperature. -/
namespace Sys2Proof
open Machine

namespace Machine

/-! ## The outputs under over-temperature (R134, R140) -/

/-- The switching of the outputs reports the detected set to the indicators (R183). -/
theorem switchOutputs_input (s : State) : (switchOutputs s).policy.inputs.alarm = anyDetected (switchOutputs s).guard.alarms := by
  have hguard : (switchOutputs s).guard = (switchRail (switchCoil s)).guard := by simp [switchOutputs]
  rw [hguard]
  rfl

/-- What DIE-OT's change of its record leaves once the outputs are switched (R134, R140). -/
theorem dieOtSwitched_facts (f : Alarm → Alarm) (s : State) :
    let t := switchOutputs (changeAlarm .dieOt f s)
    (t.guard.baseGrant = s.guard.baseGrant ∧ t.guard.penGrant = s.guard.penGrant ∧ t.guard.claimed = s.guard.claimed ∧
      t.link = s.link ∧ t.pen.session = s.pen.session) ∧
      t.guard.alarms.dieOt = f s.guard.alarms.dieOt ∧ t.mgmt = s.mgmt ∧ t.policy.events = s.policy.events ∧
      t.guard.railOn = (s.att.present && s.guard.baseGrant != 0 && !railLatched s && !(f s.guard.alarms.dieOt).detected) ∧
      t.guard.coilOn = (s.guard.penGrant.isSome && drawing s.pen.session && !coilLatched s && !(f s.guard.alarms.dieOt).detected) := by
  intro t
  obtain ⟨⟨_, _, hgrant, _, _, hdie, _⟩, hpenGrant, hclaimed, hcoil, hrail, hsession, _⟩ := switchOutputs_settings (changeAlarm .dieOt f s)
  have hframe := switchOutputs_frame (changeAlarm .dieOt f s)
  have hevents := switchOutputs_events (changeAlarm .dieOt f s)
  exact ⟨⟨hgrant, hpenGrant, hclaimed, hframe.2.2.2.1.1, hsession⟩, hdie, hframe.2.2.2.2.2.2, hevents, hrail, hcoil⟩

/-- DIE-OT's record once the die is hot. -/
def hotAlarm (a : Alarm) : Alarm := { a with raw := true, detected := true, sticky := true }

/-- DIE-OT appears: the outputs are switched, and it is told unless start-up is on (R140). -/
theorem dieOtAppears_eq {s : State} (hraw : s.guard.alarms.dieOt.raw = false) :
    let u := switchOutputs (changeAlarm .dieOt hotAlarm s)
    dieOtAppears s = if s.store.state = .starting then u else tellAlarm .dieOt .off .noOutput u := by
  have hcool : ¬ (alarmOf .dieOt s).raw = true := by
    show ¬ s.guard.alarms.dieOt.raw = true
    rw [hraw]
    decide
  exact if_neg hcool

end Machine

/-- Settles O47. -/
theorem overTemperatureStopsTheOutputs : Obligations.OverTemperatureStopsTheOutputs := by
  intro s hrun kept
  have hexec {i : Instr} {t : State} (hi : i ≠ .resetLineAsserted) (h : effect i s = t) : exec i s = .next (finish t) :=
    exec_of_effect hrun.1 hi h
  refine ⟨fun hraw => hexec (by exact fun hi => Instr.noConfusion hi) (if_pos hraw), fun hraw => ?appears, ?clears⟩
  case appears =>
    obtain ⟨hkept, hdie, hmgmt, hevents, hrail, hcoil⟩ := dieOtSwitched_facts hotAlarm s
    have hinput := switchOutputs_input (changeAlarm .dieOt hotAlarm s)
    have ht := dieOtAppears_eq hraw
    generalize switchOutputs (changeAlarm .dieOt hotAlarm s) = u at *
    have hoff : u.guard.railOn = false ∧ u.guard.coilOn = false := by simp [hrail, hcoil, hotAlarm]
    have halarm : u.policy.inputs.alarm = true := hinput.trans (anyDetected_of (c := .dieOt) (congrArg (·.detected) hdie))
    have hrecord : u.guard.alarms.dieOt.raw = true ∧ u.guard.alarms.dieOt.detected = true ∧ u.guard.alarms.dieOt.sticky = true := by
      rw [hdie]
      exact ⟨rfl, rfl, rfl⟩
    refine ⟨_, hexec (by exact fun hi => Instr.noConfusion hi) ht, ?_⟩
    by_cases hstarting : s.store.state = .starting
    · rw [if_pos hstarting]
      exact ⟨hkept, hrecord.1, hrecord.2.1, hrecord.2.2, hoff.1, hoff.2, halarm, fun _ => ⟨hmgmt, hevents.trans hrun.2⟩,
        fun hstarted => absurd hstarting hstarted⟩
    · rw [if_neg hstarting]
      have hguard : (tellAlarm .dieOt .off .noOutput u).guard = u.guard := by simp
      have hlink : (tellAlarm .dieOt .off .noOutput u).link = u.link := by simp
      have hpen : (tellAlarm .dieOt .off .noOutput u).pen = u.pen := by simp
      have hpolicy : (tellAlarm .dieOt .off .noOutput u).policy = { u.policy with events := u.policy.events ++ [.supplyAlarm .dieOt] } := by
        unfold tellAlarm
        split
        · rfl
        · simp [postEvent]
      have hkept' : kept (tellAlarm .dieOt .off .noOutput u) := by
        show _ ∧ _ ∧ _ ∧ _ ∧ _
        rw [hguard, hlink, hpen]
        exact hkept
      rw [hguard, hpolicy]
      refine ⟨hkept', hrecord.1, hrecord.2.1, hrecord.2.2, hoff.1, hoff.2, halarm, fun h => absurd h hstarting, fun _ => ⟨?_, fun hmask he => ?_⟩⟩
      · show u.policy.events ++ [.supplyAlarm .dieOt] = _
        rw [hevents, hrun.2]
        rfl
      · have hunmasked : (alarmOf .dieOt u).mask = false := by
          show u.guard.alarms.dieOt.mask = false
          rw [hdie]
          exact hmask
        unfold tellAlarm
        rw [hunmasked, if_neg Bool.false_ne_true]
        exact post_pending (.alarm .dieOt .off .noOutput) u (by rw [hmgmt]; exact he)
  case clears =>
    obtain ⟨hkept, hdie, hmgmt, hevents, hrail, hcoil⟩ := dieOtSwitched_facts (fun a => { a with raw := false, detected := false }) s
    refine ⟨_, hexec (by exact fun hi => Instr.noConfusion hi) rfl, hkept, congrArg (·.raw) hdie, congrArg (·.detected) hdie,
      congrArg (·.sticky) hdie, hrail.trans (Bool.and_true _), hcoil.trans (Bool.and_true _), hmgmt, hevents.trans hrun.2⟩
end Sys2Proof
/-! PROOFS. The dock switch. -/
namespace Sys2Proof
open Machine

namespace Machine

/-! ## What the dock switch does (R148, R149) -/

theorem dockAsserts_again {s : State} (h : s.pins.dock = true) : dockAsserts s = s := if_pos h

/-- The dock switch asserts while start-up is on, or in a session. -/
theorem dockAsserts_aside {s : State} (h : s.pins.dock = false) (k : s.store.state = .starting ∨ s.pen.session ≠ .noPen) :
    dockAsserts s = { s with pins := { s.pins with dock := true } } := by
  unfold dockAsserts
  rw [if_neg (by simp [h])]
  dsimp only
  split
  · rfl
  · next hup => exact if_neg (k.resolve_left hup)

/-- The dock switch asserts in NO-PEN: the debounce runs (R148). -/
theorem dockAsserts_debounces {s : State} (h : s.pins.dock = false) (hup : s.store.state ≠ .starting) (hn : s.pen.session = .noPen) :
    dockAsserts s = { s with pins := { s.pins with dock := true }, pen := { s.pen with debounce := some 1000 } } := by
  unfold dockAsserts
  rw [if_neg (by simp [h])]
  dsimp only
  rw [if_neg hup, if_pos hn]
  rfl

theorem dockDebounceExpires_inSession {s : State} (h : s.pen.debounce.isSome = true) (hn : s.pen.session ≠ .noPen) :
    dockDebounceExpires s = { s with pen := { s.pen with debounce := none } } := by
  unfold dockDebounceExpires
  rw [if_pos h]
  exact if_pos hn

/-- The pen claimed for, or PAUSED without room, keeps the debounce. -/
theorem claimSession_debounce (new : PenState) (l : PenLevel) (s : State) :
    (claimSession new l s).pen.debounce = s.pen.debounce := by
  unfold claimSession
  dsimp only
  split <;> simp

theorem enterDetect_debounce (s : State) : (enterDetect s).pen.debounce = s.pen.debounce := by
  unfold enterDetect
  split
  · simp
  · exact claimSession_debounce _ _ _

/-- The debounce that expires is over, and what it opens leaves the guard's settings (R148). -/
theorem dockDebounceExpires_keeps {s : State} (h : s.pen.debounce.isSome = true) (hn : s.pen.session = .noPen) :
    (dockDebounceExpires s).pen.debounce = none ∧ KeepsSettings (dockDebounceExpires s).guard s.guard := by
  unfold dockDebounceExpires
  rw [if_pos h]
  dsimp only
  rw [if_neg (by simp [hn])]
  split
  · have k := goSession_settings .fault (some .coilLatch) .release { s with pen := { s.pen with debounce := none } }
    obtain ⟨hset, _, _, _, _, _, _, _, hdebounce⟩ := k
    exact ⟨hdebounce, hset⟩
  · exact ⟨enterDetect_debounce _, enterDetect_settings _⟩

/-- A claim for TRICKLE alone finds room exactly where TRICKLE fits: no cap is below it (R125, R131). -/
theorem highestFit_trickle (g : Guard) (base : Nat) :
    highestFit g base .trickle = if levelMw .trickle + base ≤ g.budget then some .trickle else none := by
  have hcap : g.cap.all (fun c => decide (levelMw .trickle ≤ levelMw c)) = true := by
    cases g.cap with
    | none => rfl
    | some c => cases c <;> rfl
  unfold highestFit
  rw [List.find?_cons_of_neg (by simp [levelMw]), List.find?_cons_of_neg (by simp [levelMw])]
  split
  · next hfits => exact List.find?_cons_of_pos (by simp [hcap, hfits])
  · next hfits => rw [List.find?_cons_of_neg (by simp [hfits])]; rfl

theorem dockReleases_noDock {s : State} (h : s.pins.dock = false) : dockReleases s = s := by
  unfold dockReleases
  rw [if_pos (by simp [h])]

theorem dockReleases_noPen {s : State} (h : s.pins.dock = true) (hn : s.pen.session = .noPen) :
    dockReleases s = { s with pins := { s.pins with dock := false }, pen := { s.pen with debounce := none } } := by
  unfold dockReleases
  rw [if_neg (by simp [h])]
  exact if_pos hn

/-- The pen is removed in a session (R149). -/
theorem dockReleases_session {s : State} (h : s.pins.dock = true) (hn : s.pen.session ≠ .noPen) :
    dockReleases s = postEvent .penRemoved (goSession .noPen none .release
      { s with pins := { s.pins with dock := false }, pen := { s.pen with debounce := none, docked := false } }) := by
  unfold dockReleases
  rw [if_neg (by simp [h])]
  exact if_neg hn

/-- A removed pen's session is over: its record, and what the removal leaves (R149). -/
theorem dockReleases_facts {s : State} (h : s.pins.dock = true) (hn : s.pen.session ≠ .noPen) :
    let t := dockReleases s
    t.pins = { s.pins with dock := false } ∧
      t.pen = { s.pen with
        session := .noPen, fault := none, docked := false, debounce := none, detect := none, ramp := none, silence := none } ∧
      t.guard.baseGrant = s.guard.baseGrant ∧ t.policy.events = s.policy.events ++ [.penRemoved] := by
  intro t
  have ht : t = _ := dockReleases_session h hn
  rw [ht]
  obtain ⟨hset, _⟩ := goSession_settings .noPen none .release
    { s with pins := { s.pins with dock := false }, pen := { s.pen with debounce := none, docked := false } }
  refine ⟨?_, goSession_idle .noPen none .release _ rfl, hset.2.2.1, ?_⟩
  · exact (goSession_frame .noPen none .release _).2.1.1
  · exact congrArg (· ++ [PolicyEvent.penRemoved]) (goSession_events .noPen none .release _)

end Machine

/-- Settles O48. -/
theorem dockOpensAndEndsASession : Obligations.DockOpensAndEndsASession := by
  unfold Obligations.DockOpensAndEndsASession
  refine fun s hrun => ⟨fun h => ?_, fun h k => ?_, fun h hup hn => ?_, fun h hn => ?_, fun h hn => ?_, fun h => ?_,
    fun h hn => ?_, fun h hn => ?_⟩
  · exact exec_of_effect hrun.1 (by exact fun hc => Instr.noConfusion hc) (dockAsserts_again h)
  · exact exec_of_effect hrun.1 (by exact fun hc => Instr.noConfusion hc) (dockAsserts_aside h k)
  · exact exec_of_effect hrun.1 (by exact fun hc => Instr.noConfusion hc) (dockAsserts_debounces h hup hn)
  · exact exec_of_effect hrun.1 (by exact fun hc => Instr.noConfusion hc) (dockDebounceExpires_inSession h hn)
  · obtain ⟨hlatched, hheld, hfree⟩ := dockDebounceExpires_acts s h hn
    obtain ⟨hdebounce, hset⟩ := dockDebounceExpires_keeps h hn
    refine ⟨dockDebounceExpires s, exec_of_effect hrun.1 (by exact fun hc => Instr.noConfusion hc) rfl, hdebounce,
      fun hl => ?_, fun hl hh => ?_, hfree, fun hl hh hroom => ?_, fun hl hh hroom => ?_⟩
    · obtain ⟨hreleases, hbudget⟩ := hlatched hl
      have ⟨hst, hfault, _, _, hcoil, _⟩ := hreleases
      exact ⟨hst, hfault, hcoil, hreleases, hbudget⟩
    · obtain ⟨hreleases, hbudget⟩ := hheld hl hh
      have ⟨hst, _, _, _, hcoil, _⟩ := hreleases
      exact ⟨hst, hcoil, hreleases, hbudget⟩
    · obtain ⟨hclaimed, hgrant, hst, _⟩ := (sessionClaims_byFit hset (hfree hl hh).1).1 .trickle
        ((highestFit_trickle _ _).trans (if_pos hroom))
      exact ⟨hst, hgrant, hclaimed⟩
    · obtain ⟨hst, _, hclaimed, hgrant, hcoil, _⟩ := (sessionClaims_byFit hset (hfree hl hh).1).2
        ((highestFit_trickle _ _).trans (if_neg (Nat.not_le.mpr hroom)))
      exact ⟨hst, hgrant, hclaimed, hcoil⟩
  · exact exec_of_effect hrun.1 (by exact fun hc => Instr.noConfusion hc) (dockReleases_noDock h)
  · exact exec_of_effect hrun.1 (by exact fun hc => Instr.noConfusion hc) (dockReleases_noPen h hn)
  · obtain ⟨hpins, hpen, hbase, hevents⟩ := dockReleases_facts h hn
    obtain ⟨hreleases, hbudget⟩ := dockReleases_acts s h hn
    have ⟨_, _, hclaimed, hgrant, hcoil, hstarting, _⟩ := hreleases
    rw [hrun.2] at hevents
    exact ⟨dockReleases s, exec_of_effect hrun.1 (by exact fun hc => Instr.noConfusion hc) rfl, hpins, hpen, hgrant, hclaimed,
      hcoil, hbase, hstarting, hevents, hreleases, hbudget⟩

end Sys2Proof
/-! PROOFS. The timers and the claims of the sleep controller, and the timers of the indicator lines. -/
namespace Sys2Proof
open Machine

namespace Machine

/-! ## The hold-off set (R174) -/

theorem holdSet_isEmpty_iff (h : HoldSet) : h.isEmpty = true ↔ h = ⟨false, false, false, false, false⟩ := by
  cases h
  simp [HoldSet.isEmpty, and_assoc]

/-- The removal of a reason that is not present changes nothing. -/
theorem put_false_of_absent {h : HoldSet} {r : Holdoff} (k : h.has r = false) : h.put r false = h := by
  cases h
  cases r <;> simp_all [HoldSet.has, HoldSet.put]

/-- The removal that empties the set ends an expired grace in the question (R173). -/
theorem removeHold_asks {r : Holdoff} {s : State} (hhas : s.sleep.holds.has r = true)
    (hleft : s.sleep.holds.put r false = ⟨false, false, false, false, false⟩) (hgrace : s.sleep.power = .grace)
    (hexp : s.sleep.expired = true) :
    removeHold r s = post (.sleep .ask .sleepAsked) { s with sleep := { s.sleep with
      holds := ⟨false, false, false, false, false⟩, power := .sleepAsked, grace := none, expired := false,
      confirm := some 50000 } } := by
  unfold removeHold
  rw [if_pos hhas, hleft]
  exact if_pos ⟨hgrace, hexp, rfl⟩

/-- Any other removal takes the reason out alone. -/
theorem removeHold_only {r : Holdoff} {s : State}
    (h : s.sleep.holds.has r = false ∨ s.sleep.holds.put r false ≠ ⟨false, false, false, false, false⟩ ∨
      s.sleep.power ≠ .grace ∨ s.sleep.expired = false) :
    removeHold r s = { s with sleep := { s.sleep with holds := s.sleep.holds.put r false } } := by
  unfold removeHold
  split
  · next hhas =>
    refine if_neg ?_
    rintro ⟨hgrace, hexp, hempty⟩
    rcases h with h | h | h | h
    · exact Bool.noConfusion (h.symm.trans hhas)
    · exact h ((holdSet_isEmpty_iff _).mp hempty)
    · exact h hgrace
    · exact Bool.noConfusion (h.symm.trans hexp)
  · next hhas => rw [put_false_of_absent (by simpa using hhas)]

/-! ## The grace and the question (R171 to R175) -/

theorem graceExpires_asks {s : State} (h : s.sleep.holds = ⟨false, false, false, false, false⟩) :
    graceExpires s = post (.sleep .ask .sleepAsked)
      { s with sleep := { s.sleep with power := .sleepAsked, grace := none, expired := false, confirm := some 50000 } } :=
  if_pos ((holdSet_isEmpty_iff _).mpr h)

theorem graceExpires_waits {s : State} (h : s.sleep.holds ≠ ⟨false, false, false, false, false⟩) :
    graceExpires s = { s with sleep := { s.sleep with grace := none, expired := true } } :=
  if_neg fun k => h ((holdSet_isEmpty_iff _).mp k)

/-- SLEEP-BEGIN with the host awake (R171). -/
theorem sleepBegin_awake {s : State} (h : s.sleep.power = .awake) :
    sleepBegin s =
      if s.sleep.graceTime = 0 then
        graceExpires { s with sleep := { s.sleep with power := .grace, expired := false, grace := some (10 * s.sleep.graceTime) } }
      else { s with sleep := { s.sleep with power := .grace, expired := false, grace := some (10 * s.sleep.graceTime) } } :=
  if_pos h

theorem cancelSleep_grace {w : Withdrawal} {s : State} (h : s.sleep.power = .grace) :
    cancelSleep w s = { s with sleep := { s.sleep with power := .awake, grace := none, expired := false } } := by
  unfold cancelSleep
  rw [h]

theorem cancelSleep_asked {w : Withdrawal} {s : State} (h : s.sleep.power = .sleepAsked) :
    cancelSleep w s = post (.sleep (.withdrawn w) .awake)
      { s with sleep := { s.sleep with power := .awake, confirm := none } } := by
  unfold cancelSleep
  rw [h]
  rfl

theorem cancelSleep_aside {w : Withdrawal} {s : State} (h : s.sleep.power ∉ [Power.grace, .sleepAsked]) :
    cancelSleep w s = s := by
  unfold cancelSleep
  split
  · next hp => exact absurd (by simp [hp]) h
  · next hp => exact absurd (by simp [hp]) h
  all_goals rfl

/-! ## Wake claims (R172, R175, R178, R182) -/

/-- The sleep controller with a wake reason recorded (R182). -/
def reasonRecorded (k : WakeKind) (s : State) : Sleep :=
  let l := s.sleep.reasons
  let seen := min ((s.now - s.sleep.asleepAt.getD s.now) / 10) 4294967295
  if ∃ r ∈ l, r.kind = k then
    { s.sleep with reasons := l.map (fun r => if r.kind = k then { r with count := satInc r.count } else r) }
  else if l.length < 6 then { s.sleep with reasons := l ++ [⟨k, 1#8, seen⟩] }
  else { s.sleep with overflow := true }

theorem recordReason_eq (k : WakeKind) (s : State) : recordReason k s = { s with sleep := reasonRecorded k s } := by
  have hany : s.sleep.reasons.any (fun r => r.kind = k) = true ↔ ∃ r ∈ s.sleep.reasons, r.kind = k := by simp
  unfold recordReason reasonRecorded
  by_cases hfound : ∃ r ∈ s.sleep.reasons, r.kind = k
  · rw [if_pos (hany.mpr hfound), if_pos hfound]
    rfl
  · rw [if_neg (fun c => hfound (hany.mp c)), if_neg hfound]
    by_cases hroom : s.sleep.reasons.length < 6
    · rw [if_pos hroom, if_pos hroom]
      rfl
    · rw [if_neg hroom, if_neg hroom]

/-- What a wake claim makes of the state, by the host's power. -/
def Wakes (k : WakeKind) (w : Withdrawal) (s t : State) : Prop :=
  (s.sleep.power = .awake → t = s) ∧
  (s.sleep.power = .grace → t = { s with sleep := { s.sleep with power := .awake, grace := none, expired := false } }) ∧
  (s.sleep.power = .sleepAsked →
    t = post (.sleep (.withdrawn w) .awake) { s with sleep := { s.sleep with power := .awake, confirm := none } }) ∧
  (s.sleep.power = .asleep →
    t = { s with sleep := { reasonRecorded k s with
      power := .waking, pulses := 1, wakeLine := .pulsing, pulse := some 100, wakeWindow := some 10000 } }) ∧
  (s.sleep.power = .waking → t = { s with sleep := reasonRecorded k s })

theorem wakeClaim_wakes (k : WakeKind) (s : State) : Wakes k (withdrawalOf k) s (wakeClaim k s) := by
  unfold Wakes wakeClaim
  refine ⟨fun h => ?_, fun h => ?_, fun h => ?_, fun h => ?_, fun h => ?_⟩
  · rw [h]
  · rw [h]
    exact cancelSleep_grace h
  · rw [h]
    exact cancelSleep_asked h
  · rw [h, recordReason_eq]
    rfl
  · rw [h]
    exact recordReason_eq k s

/-! ## A hold-off that ends with the store's operation -/

/-- The end of an operation that alone held back an expired grace asks the host (R173, R207). -/
theorem operationEnds_asks (op : StoreOp) (e : StoreEnd) {s : State} (hrestart : s.mgmt.restart = .none)
    (hgrace : s.sleep.power = .grace) (hexp : s.sleep.expired = true)
    (hholds : s.sleep.holds = ⟨false, false, true, false, false⟩) :
    (operationEnds op e s).store.state = .idle ∧
      (operationEnds op e s).sleep = { s.sleep with
        holds := ⟨false, false, false, false, false⟩, power := .sleepAsked, grace := none, expired := false,
        confirm := some 50000 } := by
  have hhas : (storeEnded op e s).sleep.holds.has .storeBusy = true := by
    show s.sleep.holds.has .storeBusy = true
    rw [hholds]; rfl
  have hleft : (storeEnded op e s).sleep.holds.put .storeBusy false = ⟨false, false, false, false, false⟩ := by
    show s.sleep.holds.put .storeBusy false = _
    rw [hholds]; rfl
  have hends : operationEnds op e s = post (.store op e) (removeHold .storeBusy (storeEnded op e s)) :=
    releaseRestart_none (by simpa [storeEnded] using hrestart)
  rw [hends, removeHold_asks hhas hleft hgrace hexp]
  simp [storeEnded]

end Machine

/-- Settles O50. -/
theorem sleepAndIndicatorTimersRun : Obligations.SleepAndIndicatorTimersRun := by
  unfold Obligations.SleepAndIndicatorTimersRun
  intro s hrun
  refine ⟨fun hg hh => ?_, fun hg hh => ?_, fun hc => ?_, fun hp => ?_, fun hw hn => ?_, fun hw hn => ?_, ?_, ?_, ?_⟩
  · exact exec_of_effect hrun.1 (by exact fun hc => Instr.noConfusion hc) ((if_pos hg).trans (graceExpires_asks hh))
  · exact exec_of_effect hrun.1 (by exact fun hc => Instr.noConfusion hc) ((if_pos hg).trans (graceExpires_waits hh))
  · exact exec_of_effect hrun.1 (by exact fun hc => Instr.noConfusion hc) (if_pos hc)
  · exact exec_of_effect hrun.1 (by exact fun hc => Instr.noConfusion hc) (if_pos hp)
  · exact exec_of_effect hrun.1 (by exact fun hc => Instr.noConfusion hc) ((if_pos hw).trans (if_pos hn))
  · exact exec_of_effect hrun.1 (by exact fun hc => Instr.noConfusion hc) ((if_pos hw).trans (if_neg (Nat.not_lt.mpr hn)))
  · exact ⟨exec_of_effect hrun.1 (by exact fun hc => Instr.noConfusion hc) rfl,
      exec_of_effect hrun.1 (by exact fun hc => Instr.noConfusion hc) rfl⟩
  · exact ⟨exec_of_effect hrun.1 (by exact fun hc => Instr.noConfusion hc) rfl,
      exec_of_effect hrun.1 (by exact fun hc => Instr.noConfusion hc) rfl⟩
  · refine ⟨fun ev => ⟨fun hp => if_neg hp, fun hp => ⟨fun hg => ?_, fun hg hh => ?_, fun hg hh => ?_⟩, fun hp => cancelSleep_grace hp,
      fun hp => cancelSleep_asked hp, fun hp => cancelSleep_aside hp, wakeClaim_wakes (.event ev.kind) s⟩,
      fun src => wakeClaim_wakes (.frame src) s, fun r => ⟨removeHold_asks, removeHold_only⟩,
      fun hst hx hrestart hgrace hexp hholds => ?_⟩
    · exact (sleepBegin_awake hp).trans (if_neg hg)
    · exact ((sleepBegin_awake hp).trans (if_pos hg)).trans (graceExpires_asks hh)
    · exact ((sleepBegin_awake hp).trans (if_pos hg)).trans (graceExpires_waits hh)
    · exact ⟨_, exec_of_effect hrun.1 (by exact fun hc => Instr.noConfusion hc) (exchangeUnanswered_erasing hx hst),
        operationEnds_asks .erase .timeout hrestart hgrace hexp hholds⟩

end Sys2Proof

/-! PROOFS. What a status of the pen does, and what the route engine leaves of it. -/
namespace Sys2Proof
open Machine

namespace Machine

/-! ## What a status does, by the session (R150 to R155) -/

/-- A status that is recorded alone, with the silence timer as given. -/
def StatusRecorded (p : Byte) (silence : Timer) (s t : State) : Prop :=
  t.pen = { s.pen with battery := some p.toNat, silence := silence } ∧ t.guard = s.guard ∧ SessionStays s t

/-- The pen has reported a fault (R153 to R155). -/
def StatusFaults (s t : State) : Prop :=
  SessionReleases .fault (some .penReported) s t ∧ BudgetTold .penRelease s t

/-- An answer in DETECT (R151). -/
def AnswerActs (p r : Byte) (s t : State) : Prop :=
  let full := p.toNat = 100 ∨ r.getLsbD 0 = true
  let bad := r.getLsbD 1 = true
  let docked : State := { s with pen := { s.pen with docked := true } }
  t.pen.docked = true ∧ t.pen.detect = none ∧
  t.pen.count = (if s.pen.docked = true then s.pen.count else s.pen.count + 1#16) ∧
  (bad → StatusFaults s t) ∧
  (¬ bad → full → t.pen.session = .topped ∧ t.guard.claimed = s.guard.claimed ∧ t.guard.penGrant = s.guard.penGrant ∧
    t.sleep.holds.chargeStarting = false ∧ SessionTold .detect s t) ∧
  (¬ bad → ¬ full → s.pen.hold.isSome = true → SessionReleases .held none s t ∧ BudgetTold .penRelease s t) ∧
  (¬ bad → ¬ full → s.pen.hold = none → SessionClaims .softStart s.pen.requested docked t ∧ BudgetTold .penClaim s t) ∧
  (¬ bad → ¬ full → s.pen.hold = none → s.guard.cap = none →
    levelMw s.pen.requested + s.guard.baseGrant ≤ s.guard.budget →
    t.pen.session = .softStart ∧ t.guard.penGrant = some s.pen.requested ∧ t.sleep.holds.chargeStarting = true)

/-- A fault or a full pen in SOFT-START and CHARGING (R153, R154). -/
def ChargingEnds (p r : Byte) (s t : State) : Prop :=
  let full := p.toNat = 100 ∨ r.getLsbD 0 = true
  let bad := r.getLsbD 1 = true
  (bad → StatusFaults s t) ∧
  (¬ bad → full → SessionClaims .topped .trickle s t ∧ BudgetTold .penClaim s t) ∧
  (¬ bad → full → levelMw .trickle + s.guard.baseGrant ≤ s.guard.budget →
    t.pen.session = .topped ∧ t.guard.penGrant = some .trickle ∧ t.sleep.holds.chargeStarting = false)

/-- A status in TOPPED (R155). -/
def ToppedActs (p r : Byte) (s t : State) : Prop :=
  let bad := r.getLsbD 1 = true
  (bad → StatusFaults s t) ∧
  (¬ bad → p.toNat ≤ 92 → r.getLsbD 0 = false → SessionClaims .charging s.pen.requested s t ∧ BudgetTold .penClaim s t) ∧
  (¬ bad → p.toNat ≤ 92 → r.getLsbD 0 = false → s.guard.cap = none →
    levelMw s.pen.requested + s.guard.baseGrant ≤ s.guard.budget →
    t.pen.session = .charging ∧ t.guard.penGrant = some s.pen.requested) ∧
  (¬ bad → (92 < p.toNat ∨ r.getLsbD 0 = true) →
    StatusRecorded p (if s.guard.coilOn = true then some 20000 else s.pen.silence) s t)

/-- What a taken status does to the session. -/
def StatusActs (p r : Byte) (s t : State) : Prop :=
  let full := p.toNat = 100 ∨ r.getLsbD 0 = true
  let bad := r.getLsbD 1 = true
  t.pen.battery = some p.toNat ∧ t.guard.baseGrant = s.guard.baseGrant ∧ t.guard.cap = s.guard.cap ∧
  t.guard.profiles = s.guard.profiles ∧ t.guard.active = s.guard.active ∧
  (s.pen.session ∈ [.noPen, .foreign, .paused, .held, .fault] ∨ s.pen.session = .detect ∧ s.pen.detect = none →
    StatusRecorded p s.pen.silence s t) ∧
  (s.pen.session = .detect → s.pen.detect.isSome = true → AnswerActs p r s t) ∧
  (s.pen.session ∈ [.softStart, .charging] → ChargingEnds p r s t) ∧
  (s.pen.session = .softStart → ¬ bad → ¬ full → StatusRecorded p s.pen.silence s t) ∧
  (s.pen.session = .charging → ¬ bad → ¬ full →
    StatusRecorded p (if s.guard.coilOn = true then some 20000 else s.pen.silence) s t) ∧
  (s.pen.session = .topped → ToppedActs p r s t)

/-- What a status did is seen the same from beside the guard and the pen, before it and after it. -/
theorem statusActs_between {p r : Byte} {s a t v : State} (ha : Beside a s) (hv : Beside v t) (h : StatusActs p r a t) :
    StatusActs p r s v := by
  obtain ⟨a1, a2, a3, a4, a5, a6, a7⟩ := ha
  obtain ⟨v1, v2, v3, v4, v5, v6, v7⟩ := hv
  simp only [StatusActs, AnswerActs, ChargingEnds, ToppedActs, StatusRecorded, StatusFaults, SessionReleases, SessionClaims,
    SessionTold, SessionStays, BudgetTold, a1, a2, a3, a4, a5, a6, a7, v1, v2, v3, v4, v5, v6] at h ⊢
  exact h

/-! ## A claim with room -/

/-- A claim within the budget is granted in full where no cap is set (R125, R128). -/
theorem highestFit_self {g : Guard} {l : PenLevel} (hcap : g.cap = none) (hroom : levelMw l + g.baseGrant ≤ g.budget) :
    highestFit g g.baseGrant l = some l :=
  (penClaim_highest g l).symm.trans (penClaim_room g l hcap hroom)

/-- A session whose claim finds room. -/
theorem sessionClaims_fits {new : PenState} {l g : PenLevel} {s t : State} (k : KeepsFigures t s) (h : SessionClaims new l s t)
    (hfit : highestFit s.guard s.guard.baseGrant l = some g) :
    t.pen.session = new ∧ t.guard.penGrant = some g ∧ t.sleep.holds.chargeStarting = decide (new = .softStart) := by
  obtain ⟨hbase, hcap, hprofiles, hactive⟩ := k
  obtain ⟨_, _, hclaims⟩ := h
  rw [highestFit_congr hcap hprofiles hactive, hbase, hfit] at hclaims
  obtain ⟨hgrant, hst, hstarting, _⟩ := hclaims
  exact ⟨hst, hgrant, hstarting⟩

/-! ## A taken status in each session -/

section
variable {p r : Byte} (q : Byte) {s : State} (hp : p.toNat ≤ 100)
include hp

theorem penStatusTap_answers (hs : s.pen.session = .detect) (hd : s.pen.detect.isSome = true) :
    AnswerActs p r s (penStatusTap [p, q, r] s) := by
  obtain ⟨_, hdocked, hdetect, hcount, hbad, hfull, hheld, hclaims, _⟩ := penStatusTap_detect p q r s hp hs hd
  refine ⟨hdocked, hdetect, hcount, hbad, fun hb => hfull (eq_false_of_ne_true hb), fun hb => hheld (eq_false_of_ne_true hb),
    fun hb => hclaims (eq_false_of_ne_true hb), fun hb hf hh hcap hroom => ?_⟩
  exact sessionClaims_fits (s := { s with pen := { s.pen with docked := true } }) (penStatusTap_figures [p, q, r] s)
    (hclaims (eq_false_of_ne_true hb) hf hh).1 (highestFit_self hcap hroom)

theorem penStatusTap_chargingEnds (hs : s.pen.session = .softStart ∨ s.pen.session = .charging) :
    ChargingEnds p r s (penStatusTap [p, q, r] s) := by
  obtain ⟨hbad, hfull, _⟩ := penStatusTap_charging p q r s hp hs
  refine ⟨hbad, fun hb => hfull (eq_false_of_ne_true hb), fun hb hf hroom => ?_⟩
  exact sessionClaims_fits (penStatusTap_figures [p, q, r] s) (hfull (eq_false_of_ne_true hb) hf).1
    ((highestFit_trickle _ _).trans (if_pos hroom))

theorem penStatusTap_toppedActs (hs : s.pen.session = .topped) : ToppedActs p r s (penStatusTap [p, q, r] s) := by
  obtain ⟨hbad, hlow, hkept, _⟩ := penStatusTap_topped p q r s hp hs
  refine ⟨hbad, fun hb => hlow (eq_false_of_ne_true hb), fun hb hle hflag hcap hroom => ?_, fun hb => hkept (eq_false_of_ne_true hb)⟩
  obtain ⟨hst, hgrant, _⟩ := sessionClaims_fits (penStatusTap_figures [p, q, r] s) (hlow (eq_false_of_ne_true hb) hle hflag).1
    (highestFit_self hcap hroom)
  exact ⟨hst, hgrant⟩

theorem penStatusTap_records (hs : s.pen.session ∈ [.noPen, .foreign, .paused, .held, .fault] ∨ s.pen.session = .detect ∧ s.pen.detect = none) :
    StatusRecorded p s.pen.silence s (penStatusTap [p, q, r] s) := by
  rw [penStatusTap_other p q r s hp hs]
  exact ⟨rfl, rfl, rfl, rfl, rfl, rfl, rfl⟩

theorem penStatusTap_softStart_records (hs : s.pen.session = .softStart) (hb : ¬ r.getLsbD 1 = true)
    (hf : ¬ (p.toNat = 100 ∨ r.getLsbD 0 = true)) : StatusRecorded p s.pen.silence s (penStatusTap [p, q, r] s) := by
  obtain ⟨_, _, hkept, _⟩ := penStatusTap_charging p q r s hp (.inl hs)
  have k := hkept (eq_false_of_ne_true hb) hf
  rwa [if_neg (fun c => PenState.noConfusion (hs.symm.trans c.1))] at k

theorem penStatusTap_charging_records (hs : s.pen.session = .charging) (hb : ¬ r.getLsbD 1 = true)
    (hf : ¬ (p.toNat = 100 ∨ r.getLsbD 0 = true)) :
    StatusRecorded p (if s.guard.coilOn = true then some 20000 else s.pen.silence) s (penStatusTap [p, q, r] s) := by
  obtain ⟨_, _, hkept, _⟩ := penStatusTap_charging p q r s hp (.inr hs)
  have k := hkept (eq_false_of_ne_true hb) hf
  have hcoil : (s.pen.session = .charging ∧ s.guard.coilOn = true) ↔ s.guard.coilOn = true := and_iff_right hs
  simp only [hcoil] at k
  exact k

end

/-! ## The battery (R150) -/

theorem claimSession_battery (new : PenState) (l : PenLevel) (s : State) : (claimSession new l s).pen.battery = s.pen.battery := by
  unfold claimSession
  dsimp only
  split <;> simp

theorem enterSoftStart_battery (s : State) : (enterSoftStart s).pen.battery = s.pen.battery := by
  unfold enterSoftStart
  split
  · simp
  · exact claimSession_battery _ _ _

theorem armPenTimer_battery (s : State) : (armPenTimer s).pen.battery = s.pen.battery := by
  unfold armPenTimer
  (repeat' split) <;> rfl

theorem penDocks_battery (s : State) : (penDocks s).pen.battery = s.pen.battery := by
  unfold penDocks
  split <;> rfl

/-- No session changes the battery it acts on. -/
theorem actOnStatus_battery (n : Nat) (full bad : Bool) (s : State) : (actOnStatus n full bad s).pen.battery = s.pen.battery := by
  have hfault (u : State) : (enterFault .penReported u).pen.battery = u.pen.battery := by simp [enterFault]
  have htopped (u : State) : (enterTopped u).pen.battery = u.pen.battery := claimSession_battery _ _ u
  have hdone (u : State) : (postEvent .chargeDone (goSession .topped none .keep u)).pen.battery = u.pen.battery := by simp [postEvent]
  unfold actOnStatus
  dsimp only
  split
  case h_1 => (repeat' split) <;> simp only [hfault, hdone, enterSoftStart_battery, penDocks_battery]
  case h_2 => (repeat' split) <;> simp only [hfault, htopped]
  case h_3 => (repeat' split) <;> simp only [hfault, htopped, armPenTimer_battery]
  case h_4 => (repeat' split) <;> simp only [hfault, claimSession_battery, armPenTimer_battery]
  case h_5 => rfl

/-- What a taken status does (R150 to R155). -/
theorem penStatusTap_acts {p : Byte} (q r : Byte) (s : State) (hp : p.toNat ≤ 100) : StatusActs p r s (penStatusTap [p, q, r] s) := by
  obtain ⟨hbase, hcap, hprofiles, hactive⟩ := penStatusTap_figures [p, q, r] s
  have hbattery : (penStatusTap [p, q, r] s).pen.battery = some p.toNat := by
    rw [penStatusTap_range p q r s hp]
    exact actOnStatus_battery _ _ _ _
  exact ⟨hbattery, hbase, hcap, hprofiles, hactive, penStatusTap_records q hp, penStatusTap_answers q hp,
    fun h => penStatusTap_chargingEnds q hp (by simpa using h), penStatusTap_softStart_records q hp,
    penStatusTap_charging_records q hp, penStatusTap_toppedActs q hp⟩

end Machine

end Sys2Proof
/-! PROOFS. The statuses of the pen as commands, and the pen's timers. -/
namespace Sys2Proof
open Machine

namespace Machine

/-! ## What the route engine leaves beside it (R25 to R34) -/

theorem cancelSleep_beside (w : Withdrawal) (s : State) : Beside (cancelSleep w s) s := by
  unfold cancelSleep
  split
  · exact ⟨rfl, rfl, rfl, rfl, rfl, rfl, rfl⟩
  · exact beside_trans (post_beside _ _ ⟨NoticeKind.noConfusion, NoticeKind.noConfusion⟩) ⟨rfl, rfl, rfl, rfl, rfl, rfl, rfl⟩
  · exact ⟨rfl, rfl, rfl, rfl, rfl, rfl, rfl⟩
  · exact ⟨rfl, rfl, rfl, rfl, rfl, rfl, rfl⟩
  · exact ⟨rfl, rfl, rfl, rfl, rfl, rfl, rfl⟩

theorem reasonRecorded_holds (k : WakeKind) (s : State) : (reasonRecorded k s).holds = s.sleep.holds := by
  unfold reasonRecorded
  dsimp only
  (repeat' split) <;> rfl

theorem recordReason_beside (k : WakeKind) (s : State) : Beside (recordReason k s) s := by
  rw [recordReason_eq]
  exact ⟨rfl, rfl, congrArg HoldSet.chargeStarting (reasonRecorded_holds k s), rfl, rfl, rfl, rfl⟩

/-- A wake claim does nothing to the guard and the pen (R172, R175, R178). -/
theorem wakeClaim_beside (k : WakeKind) (s : State) : Beside (wakeClaim k s) s := by
  unfold wakeClaim
  split
  · exact ⟨rfl, rfl, rfl, rfl, rfl, rfl, rfl⟩
  · exact cancelSleep_beside _ _
  · exact cancelSleep_beside _ _
  · exact beside_trans (b := recordReason k s) ⟨rfl, rfl, rfl, rfl, rfl, rfl, rfl⟩ (recordReason_beside k s)
  · exact recordReason_beside k s

theorem forwardFrame_beside (src : Source) (kind : Byte) (payload : List Byte) (damaged : Bool) (i : Nat) (d : Dest) (s : State) :
    Beside (forwardFrame src kind payload damaged i d s) s :=
  beside_of (by simp) (by simp) (by simp) (by simp) (by simp)

theorem actOnFrame_beside (src : Source) (kind : Byte) (payload : List Byte) (damaged : Bool) (i : Nat) (f : RouteFields) (s : State) :
    Beside (actOnFrame src kind payload damaged i f s) s := by
  have hcounted (g : RouteEntry → RouteEntry) : Beside (changeRoute i g s) s := beside_of rfl rfl rfl rfl rfl
  unfold actOnFrame
  dsimp only
  split
  · exact beside_trans (forwardFrame_beside _ _ _ _ _ _ _) (hcounted _)
  · exact hcounted _
  · exact beside_trans (wakeClaim_beside _ _) (hcounted _)
  · exact beside_trans (wakeClaim_beside _ _) (beside_trans (forwardFrame_beside _ _ _ _ _ _ _) (hcounted _))

/-- The route engine, after the taps, does nothing to the guard and the pen (R25 to R34). -/
theorem decideFrame_beside {src : Source} (hsrc : src ≠ .uplink) (kind : Byte) (payload : List Byte) (damaged : Bool) (s : State) :
    Beside (decideFrame src kind payload damaged s) s := by
  have hsame (u : State) : Beside u u := beside_of rfl rfl rfl rfl rfl
  have hcounted (f : Ingress → Ingress) : Beside (changeIngress src f s) s := beside_of rfl rfl rfl rfl rfl
  have hphase (i : Nat) (g : RouteEntry → RouteEntry) : Beside (changeRoute i g s) s := beside_of rfl rfl rfl rfl rfl
  unfold decideFrame
  split
  · exact hcounted _
  rw [if_neg fun hup => hsrc hup.1]
  unfold classify
  split
  · exact hcounted _
  split
  · exact hsame s
  split
  · exact hcounted _
  unfold thinFrame
  split
  · exact beside_trans (actOnFrame_beside _ _ _ _ _ _ _) (hphase _ _)
  · exact hphase _ _

/-! ## A status that is not taken (R150) -/

theorem penStatusTap_untaken {payload : List Byte} (h : ∀ p q r, payload = [p, q, r] → 100 < p.toNat) (s : State) :
    penStatusTap payload s = s := by
  unfold penStatusTap
  split
  · next p q r => exact if_neg (Nat.not_le.mpr (h p q r rfl))
  · rfl

/-- A status that is damaged or not taken does nothing to the guard and the pen. -/
theorem routeFrame_untaken_beside {payload : List Byte} {damaged : Bool}
    (h : damaged = true ∨ ∀ p q r, payload = [p, q, r] → 100 < p.toNat) {s : State} (hrun : Running s) :
    Beside (routeFrame .penStatus 0x02#8 payload damaged s) s := by
  have hcounted (f : Ingress → Ingress) (u : State) : Beside (changeIngress .penStatus f u) u := beside_of rfl rfl rfl rfl rfl
  unfold routeFrame
  split
  · exact beside_of rfl rfl rfl rfl rfl
  dsimp only
  split
  · exact beside_trans (hcounted _ _) (hcounted _ s)
  refine beside_trans (decideFrame_beside (fun k => Source.noConfusion k) _ _ _ _) ?_
  split
  · exact hcounted _ s
  · next hclean =>
    have htap (u : State) (hu : u.policy.events = []) : tapFrame .penStatus payload u = u := by
      show drainEvents (penStatusTap payload u) = u
      rw [penStatusTap_untaken (h.resolve_left hclean)]
      exact drainEvents_none u hu
    rw [htap (changeIngress _ _ s) hrun.2]
    exact hcounted _ s

theorem sessionStays_of_beside {t s : State} (h : Beside t s) : SessionStays s t := by
  obtain ⟨hguard, hpen, hstarting, hinput, hnotice, _⟩ := h
  exact ⟨congrArg (·.session) hpen, congrArg (·.claimed) hguard, hstarting, hinput, hnotice⟩

/-! ## The events of a taken status (R151, R155, R164) -/

/-- The pen's first answer posts PEN-DOCKED, an entry to TOPPED by a full pen CHARGE-DONE, in that order. -/
theorem penStatusTap_events {p : Byte} (q r : Byte) {s : State} (hp : p.toNat ≤ 100) :
    let answers : Prop := s.pen.session = .detect ∧ s.pen.detect.isSome = true
    let tops : Prop :=
      (answers ∨ s.pen.session ∈ [.softStart, .charging]) ∧ r.getLsbD 1 = false ∧ (p.toNat = 100 ∨ r.getLsbD 0 = true)
    (penStatusTap [p, q, r] s).policy.events = s.policy.events ++
      ((if answers ∧ s.pen.docked = false then [.penDocked] else []) ++ (if tops then [.chargeDone] else [])) := by
  intro answers tops
  have hnone (ha : ¬ answers) (ht : ¬ tops) (h : (penStatusTap [p, q, r] s).policy.events = s.policy.events) :
      (penStatusTap [p, q, r] s).policy.events = s.policy.events ++
        ((if answers ∧ s.pen.docked = false then [.penDocked] else []) ++ (if tops then [.chargeDone] else [])) := by
    rw [h, if_neg fun c => ha c.1, if_neg ht]
    exact (List.append_nil _).symm
  by_cases ha : answers
  · obtain ⟨_, _, _, _, _, _, _, _, hevents⟩ := penStatusTap_detect p q r s hp ha.1 ha.2
    have htops : tops ↔ r.getLsbD 1 = false ∧ (p.toNat = 100 ∨ r.getLsbD 0 = true) := and_iff_right (.inl ha)
    have hdocks : (answers ∧ s.pen.docked = false) ↔ s.pen.docked = false := and_iff_right ha
    simp only [htops, hdocks]
    exact hevents
  by_cases hc : s.pen.session = .softStart ∨ s.pen.session = .charging
  · obtain ⟨_, _, _, hevents⟩ := penStatusTap_charging p q r s hp hc
    have htops : tops ↔ r.getLsbD 1 = false ∧ (p.toNat = 100 ∨ r.getLsbD 0 = true) := and_iff_right (.inr (by simpa using hc))
    rw [if_neg fun c => ha c.1]
    simp only [htops, List.nil_append]
    exact hevents
  have htops : ¬ tops := fun c => c.1.elim ha fun k => hc (by simpa using k)
  by_cases htopped : s.pen.session = .topped
  · obtain ⟨_, _, _, hevents⟩ := penStatusTap_topped p q r s hp htopped
    exact hnone ha htops hevents
  · have hother : s.pen.session ∈ [.noPen, .foreign, .paused, .held, .fault] ∨ s.pen.session = .detect ∧ s.pen.detect = none := by
      cases hs : s.pen.session with
      | detect => exact .inr ⟨rfl, Option.not_isSome_iff_eq_none.mp fun k => ha ⟨hs, k⟩⟩
      | softStart => exact absurd (.inl hs) hc
      | charging => exact absurd (.inr hs) hc
      | topped => exact absurd hs htopped
      | noPen | foreign | paused | held | fault => exact .inl (by decide)
    exact hnone ha htops (by rw [penStatusTap_other p q r s hp hother])

/-- The events of a status are of two kinds. -/
theorem penStatusTap_eventKinds {p : Byte} (q r : Byte) {s : State} (hp : p.toNat ≤ 100) (hevents : s.policy.events = []) :
    ∀ ev ∈ (penStatusTap [p, q, r] s).policy.events, ev.kind = .penDocked ∨ ev.kind = .chargeDone := by
  intro ev hev
  rw [penStatusTap_events q r hp, hevents, List.nil_append, List.mem_append] at hev
  rcases hev with hev | hev
  · split at hev
    · exact .inl (by rw [List.mem_singleton.mp hev]; rfl)
    · simp at hev
  · split at hev
    · exact .inr (by rw [List.mem_singleton.mp hev]; rfl)
    · simp at hev

theorem penStatusTap_table (payload : List Byte) (s : State) : (penStatusTap payload s).policy.table = s.policy.table := by
  unfold penStatusTap actOnStatus penDocks enterTopped enterFault
  dsimp only [postEvent]
  (repeat' split) <;> simp

/-- Events whose kinds no valid entry names bring no claim (R165, R167). -/
theorem drainEvents_unnamed {s : State}
    (h : ∀ ev ∈ s.policy.events, ∀ e ∈ s.policy.table, e.valid = true → e.event ≠ ev.kind) :
    drainEvents s = { s with policy := { s.policy with events := [] } } := by
  have hone (ev : PolicyEvent) (hev : ev ∈ s.policy.events) :
      takeEvent ev { s with policy := { s.policy with events := [] } } = { s with policy := { s.policy with events := [] } } := by
    refine takeEvent_unmatched _ _ fun e he => ?_
    cases hvalid : e.valid with
    | false => simp [policyMatches, hvalid]
    | true => simp [policyMatches, h ev hev e he hvalid]
  unfold drainEvents
  generalize s.policy.events = l at hone
  induction l with
  | nil => rfl
  | cons ev l ih =>
    rw [List.foldl_cons, hone ev List.mem_cons_self]
    exact ih fun ev' hev => hone ev' (List.mem_cons_of_mem ev hev)

/-! ## A taken status as a command -/

/-- A taken status acts on the session the same through the route engine, with a table that names neither of its events. -/
theorem routeFrame_statusActs {p : Byte} (q r : Byte) {s : State} (hrun : Running s) (hup : s.store.state ≠ .starting)
    (hp : p.toNat ≤ 100)
    (htable : ∀ e ∈ s.policy.table, e.valid = true → e.event ≠ .penDocked ∧ e.event ≠ .chargeDone) :
    StatusActs p r s (routeFrame .penStatus 0x02#8 [p, q, r] false s) := by
  let v := changeIngress .penStatus (fun c => { c with received := wrapInc c.received }) s
  have hv : Beside v s := beside_of rfl rfl rfl rfl rfl
  have hroute : routeFrame .penStatus 0x02#8 [p, q, r] false s =
      decideFrame .penStatus 0x02#8 [p, q, r] false (drainEvents (penStatusTap [p, q, r] v)) := if_neg hup
  have hdrain : Beside (drainEvents (penStatusTap [p, q, r] v)) (penStatusTap [p, q, r] v) := by
    rw [drainEvents_unnamed]
    · exact ⟨rfl, rfl, rfl, rfl, rfl, rfl, rfl⟩
    · intro ev hev e he hvalid
      rw [penStatusTap_table] at he
      obtain ⟨hdocked, hdone⟩ := htable e he hvalid
      rcases penStatusTap_eventKinds (s := v) q r hp hrun.2 ev hev with hk | hk
      · rwa [hk]
      · rwa [hk]
  rw [hroute]
  exact statusActs_between hv (beside_trans (decideFrame_beside (fun k => Source.noConfusion k) _ _ _ _) hdrain)
    (penStatusTap_acts q r v hp)

/-! ## The ramp (R153) -/

/-- The ramp ends in CHARGING, with the coil kept on and the silence timer begun (R153). -/
theorem rampExpires_facts {s : State} (hramp : s.pen.ramp.isSome = true) (hs : s.pen.session = .softStart)
    (hcoil : s.guard.coilOn = true) (hconditions : s.guard.coilOn = coilConditions s) :
    let t := rampExpires s
    t.pen.session = .charging ∧ t.pen.ramp = none ∧ t.pen.silence = some 20000 ∧ t.sleep.holds.chargeStarting = false ∧
      t.guard.penGrant = s.guard.penGrant ∧ t.guard.claimed = s.guard.claimed ∧ t.guard.coilOn = true ∧
      SessionTold .softStart s t := by
  intro t
  have ht : t = goSession .charging none .keep s := if_pos hramp
  obtain ⟨_, hst, _⟩ := goSession_settings .charging none .keep s
  obtain ⟨_, hnoRamp, hsilence⟩ := goSession_timers .charging none .keep s
  have hgrant : (goSession .charging none .keep s).guard.penGrant = s.guard.penGrant := goSession_grant _ _ _ _
  have hon : (goSession .charging none .keep s).guard.coilOn = true := by
    rw [goSession_coil, hgrant]
    have hall : coilConditions s = true := hconditions.symm.trans hcoil
    rw [coilConditions, hs] at hall
    exact hall
  have htold := goSession_told .charging none .keep s
  rw [hs] at htold
  rw [ht]
  exact ⟨hst, hnoRamp (by decide), hsilence hon (.inl rfl), goSession_hold _ _ _ _, hgrant, goSession_claimed _ _ _ _, hon, htold⟩

end Machine

/-- Settles O49. -/
theorem statusesMoveTheSession : Obligations.StatusesMoveTheSession := by
  unfold Obligations.StatusesMoveTheSession
  refine fun s hrun => ⟨fun payload damaged hup h => ?_, fun p q r hp => ?_, fun h => ?_, fun hramp hs hcoil hout => ?_, fun h => ?_⟩
  · have hbeside := routeFrame_untaken_beside h hrun
    exact ⟨_, exec_penStatus_routes payload damaged s hrun, hbeside.2.1, hbeside.1, sessionStays_of_beside hbeside⟩
  · refine ⟨penStatusTap_acts q r s hp, ?_, rfl, fun hup htable => ⟨_, exec_penStatus_routes [p, q, r] false s hrun,
      routeFrame_statusActs q r hrun hup hp htable⟩⟩
    exact (penStatusTap_events q r hp).trans (by rw [hrun.2]; rfl)
  · obtain ⟨hsilent, hforeign⟩ := detectExpires_acts s h
    exact ⟨fun hd => ⟨_, exec_of_effect hrun.1 (by exact fun hc => Instr.noConfusion hc) rfl, hsilent hd⟩,
      fun hd => ⟨_, exec_of_effect hrun.1 (by exact fun hc => Instr.noConfusion hc) rfl, hforeign hd⟩⟩
  · exact ⟨_, exec_of_effect hrun.1 (by exact fun hc => Instr.noConfusion hc) rfl,
      rampExpires_facts hramp hs hcoil (hout.1 hrun.1).1⟩
  · exact ⟨_, exec_of_effect hrun.1 (by exact fun hc => Instr.noConfusion hc) (if_pos h), enterFault_acts .penSilent s⟩

end Sys2Proof
